-- ==== Sys2Proof/Word.lean ====
section
/-! DEFINITION. Word types of the machine and their plainest arithmetic (R2, R47). -/

namespace Sys2Proof

/-- One byte. -/
abbrev Byte := BitVec 8

/-- One 32-bit register (R52). -/
abbrev Word := BitVec 32

/-- A 64-bit operand, address or system register (R47). -/
abbrev DWord := BitVec 64

/-- Bits 31:0 of a 64-bit value: the even register of a pair (R47). -/
def DWord.lo (x : DWord) : Word := x.setWidth 32

/-- Bits 63:32 of a 64-bit value: the odd register of a pair (R47). -/
def DWord.hi (x : DWord) : Word := (x >>> 32).setWidth 32

/-- The 64-bit value of a pair, high register first (R47). -/
def DWord.ofPair (hi lo : Word) : DWord := (hi.setWidth 64 <<< 32) ||| lo.setWidth 64

/-- Zero extension of a word. -/
def Word.zext (x : Word) : DWord := x.setWidth 64

/-- Sign extension of a word. -/
def Word.sext (x : Word) : DWord := x.signExtend 64

@[simp] theorem DWord.lo_ofPair (hi lo : Word) : DWord.lo (DWord.ofPair hi lo) = lo := by
  unfold DWord.lo DWord.ofPair
  ext i h
  simp

@[simp] theorem DWord.hi_ofPair (hi lo : Word) : DWord.hi (DWord.ofPair hi lo) = hi := by
  unfold DWord.hi DWord.ofPair
  ext i h
  have h64 : 32 + i < 64 := by omega
  have h32 : i < 64 := by omega
  simp [h64, h32, show ¬ (32 + i < 32) by omega, BitVec.getLsbD_eq_getElem h]

end Sys2Proof
end

