-- ==== Sys2Proof/Syntax.lean ====
section
/-! DEFINITION. The syntax of the HLV-512's instructions and of the steps of its other agents: operand
kinds (R45), type, scope and rounding codes (R6, R39, R40), the operand records of the five formats
(R34 to R44), the records that travel in messages, and the one inductive `Instr`. -/

namespace Sys2Proof

/-- Type codes of R39, in code order. -/
inductive Ty where
  | s4 | s8 | s16 | s32 | s64 | n4 | n8 | n16 | n32 | n64 | b32 | b64
  | f64 | f32 | f16 | bf16 | e4m3 | e5m2 | e3m2 | e2m3 | e2m1 | e8m0
  deriving DecidableEq, Repr

/-- The eight scopes of R6, narrowest first. -/
inductive Scope where
  | thread | team | core | cluster | die | device | domain | system
  deriving DecidableEq, Repr

/-- Rounding codes of R40. -/
inductive Rnd where
  | rne | rtz | rdn | rup
  deriving DecidableEq, Repr

/-- A source operand (R45): its kind and its 7-bit index.  `vec` 0 to 119 is a vector register, 120 to
127 a queue; `uni` a uniform register; `cst` an entry of the constant window; `lit` an inline literal. -/
inductive Src where
  | vec (i : BitVec 7)
  | uni (i : BitVec 7)
  | cst (i : BitVec 7)
  | lit (i : BitVec 7)
  deriving DecidableEq, Repr

/-- Integer conditions of R78. -/
inductive ICond where
  | eq | ne | lt | le | gt | ge
  deriving DecidableEq, Repr

/-- Floating-point conditions of R78. -/
inductive FCond where
  | eq | ne | lt | le | gt | ge | ord | unord | equ | neu | ltu | leu | gtu | geu
  deriving DecidableEq, Repr

/-- Source codes of FCVT and PCVT (R79). -/
inductive FSrc where
  | f64 | f32 | f16 | bf16 | e4m3 | e5m2 | e3m2 | e2m3 | e2m1 | e8m0
  deriving DecidableEq, Repr

/-- The two directions of ICVT with their source codes (R80). -/
inductive IcvtDir where
  | fromS8 | fromS16 | fromS32 | fromS64 | fromN8 | fromN16 | fromN32 | fromN64
  | fromF64 | fromF32 | fromF16 | fromBf16
  deriving DecidableEq, Repr

/-- Operations of the atomic forms (R82). -/
inductive AtomOp where
  | add | min | max | and | or | xor | exch | cas | inc | dec | mul | fma
  deriving DecidableEq, Repr

/-- SIZE codes of format M (R43). -/
inductive Size where
  | n8 | s8 | n16 | s16 | b32 | b64 | b128 | packed
  deriving DecidableEq, Repr

/-- Fields of format A (R35). -/
structure AOps where
  dst : BitVec 7
  a : Src
  b : Src
  deriving DecidableEq, Repr

/-- Fields of format B (R36). -/
structure BOps where
  dst : BitVec 7
  a : Src
  imm : BitVec 9
  deriving DecidableEq, Repr

/-- Fields of format L (R41). -/
structure LOps where
  dst : BitVec 7
  a : Src
  lit : Word
  deriving DecidableEq, Repr

/-- Fields of BRA and CALL: the condition that DST holds (R84) and the literal offset. -/
structure BrOps where
  pred : BitVec 3
  pneg : Bool
  lit : Word
  deriving DecidableEq, Repr

/-- Fields of format X (R37) but for SUB, which the constructor holds.  `rnd` and `ovf` belong to MOD
layout F and `scope` to layout S (R38); the fields of the other layout are `rne`, `false` and `thread`. -/
structure XOps where
  dst : BitVec 7
  a : Src
  b : Src
  c : Src
  pred : BitVec 3
  pneg : Bool
  la : BitVec 4
  dc : BitVec 3
  ty : Ty
  rnd : Rnd
  ovf : Bool
  scope : Scope
  deriving DecidableEq, Repr

/-- Fields of format M (R42). -/
structure MOps where
  data : BitVec 7
  bk : Bool
  bp : BitVec 6
  off : BitVec 24
  pred : BitVec 3
  pneg : Bool
  la : BitVec 4
  dc : BitVec 3
  scope : Scope
  size : Size
  hint : BitVec 2
  deriving DecidableEq, Repr

/-- A coherent agent: its die and its die-local identifier (R124). -/
structure AgentId where
  die : Nat
  id : Nat
  deriving DecidableEq, Repr

/-- What a coherence message carries of a line (R123): tokens, the owner token, and whether the data it
brings with the owner token is dirty. -/
structure TokenMsg where
  tokens : Nat
  owner : Bool
  dirty : Bool
  deriving DecidableEq, Repr

/-- A Meridian message that publishes one block of a view held on this device (R174): where its
elements, its scale and its tag lie, and their new contents. -/
structure ViewMsg where
  elemPa : Nat
  elems : List Byte
  scalePa : Option Nat
  scale : Byte
  tagPa : Nat
  version : BitVec 16
  deriving DecidableEq, Repr

/-- A flare raise on its way to a context's flare state (R401, R402); `reply` names the sending thread
(team, lane, operation) of a FLARE.SEND (R410), and `device` the device that it runs on where that is another one. -/
structure RaiseMsg where
  ctx : Nat
  sender : Word
  vector : Nat
  payload : DWord
  reply : Option (Nat × Nat × Nat)
  device : Option Nat := none
  deriving DecidableEq, Repr

/-- Where a section's results go (R380): a thread of this device (team serial, lane, result slot or none
for SHIP), a section of this device, or another device. -/
inductive ShipSender where
  | thread (team lane : Nat) (slot : Option Nat) (seq : Nat)
  | remote (device tag : Nat)
  deriving DecidableEq, Repr

/-- A section request (R379, R380); `group` numbers the instruction that sent it and `order` counts the requests sent, which
keep their order where R180 gives one. `place` is where the lock lies in the memory of its home device (R377), and
`originDev` is the device of the originating thread `origin` (R384). -/
structure ShipReq where
  home : Nat
  entry : DWord
  lock : DWord
  args : List Word
  sender : ShipSender
  workid : DWord
  coreId : Word
  device : Word
  ctx : Nat
  asid : Nat
  origin : Option (Nat × Nat)
  fromHome : Option Nat
  rrec : Option Nat
  group : Nat := 0
  order : Nat := 0
  place : Nat := 0
  originDev : Word := 0
  deriving DecidableEq, Repr

/-- How a request ended (R380 to R384). -/
inductive ShipEnd where
  | results (vals : List Word)
  | refused (reason : Nat)
  | faulted (tval : DWord)
  deriving DecidableEq, Repr

/-- A section's results on their way to its sender. -/
structure ShipResult where
  sender : ShipSender
  result : ShipEnd
  deriving DecidableEq, Repr

/-- Partition units (R23), each numbered over the package. -/
structure Units where
  coreUnits : List Nat
  lodestars : List Nat
  granules : List Nat
  bankUnits : List Nat
  deriving DecidableEq, Repr

/-- An import window (R438): granules paired with one source device and source partition. -/
structure ImportWindow where
  granules : List Nat
  device : Nat
  partition : Nat
  deriving DecidableEq, Repr

/-- Arguments of CMD 1 (R431): assign or release a partition's units, its CONF attribute, its lock-map
table address (R376) and its import windows (R438). -/
structure AssignCmd where
  part : Nat
  release : Bool
  units : Units
  conf : Bool
  lockTable : DWord
  windows : List ImportWindow
  deriving DecidableEq, Repr

/-- Arguments of CMD 4 (R440): 0 create, 1 modify, 2 reset a queue pair. -/
structure QpCmd where
  op : Nat
  qpn : Nat
  ctx : Nat
  part : Nat
  port : Nat
  remoteQp : Nat
  ips : List Byte
  udp : Nat
  ready : Bool
  macsec : Bool
  deriving DecidableEq, Repr

/-- A host access through an HDM window (R433). -/
structure HostAccess where
  vf : Nat
  pa : Nat
  write : Bool
  bytes : List Byte
  len : Nat
  trusted : Bool
  deriving DecidableEq, Repr

/-- An access of another device to this device's memory (R438). -/
structure PeerAccess where
  device : Nat
  partition : Nat
  pa : Nat
  write : Bool
  bytes : List Byte
  len : Nat
  port : Nat := 0
  deriving DecidableEq, Repr

/-- A transport packet (R439). -/
structure Packet where
  ver : Nat
  op : Nat
  first : Bool
  last : Bool
  qpn : Nat
  psn : Nat
  rkey : Word
  raddr : DWord
  credit : Nat
  aux : Word
  payload : List Byte
  len : Nat
  deriving DecidableEq, Repr

/-- Algorithms a requester offers (R436). -/
structure SpdmAlgs where
  slhDsaShake256s : Bool
  shake256x64 : Bool
  deriving DecidableEq, Repr

/-- Secured TDISP messages that move a TDI (R435). -/
inductive TdispMsg where
  | lock | start | stop | report | error
  deriving DecidableEq, Repr

/-- Secured IDE key-management messages (R436). -/
inductive IdeMsg where
  | query | keyProg | keyGo | keyStop
  deriving DecidableEq, Repr

/-- How a start runs (R453, R454): it succeeds, or it fails after reaching a stage with a reason. -/
inductive BootOutcome where
  | success
  | failure (stage reason : Nat)
  deriving DecidableEq, Repr


/-- The instructions and steps of the HLV-512: one constructor for each row of spec/opcode_table.json,
in the table's order.  A constructor with an operand record is an instruction word sequence (R34); the
others are steps of the machine's other agents, which have no encoding. -/
inductive Instr where
  /-- IADD_A (R288): One-word register add of .s32 or .n32 operands, modulo 2^32. -/
  | iaddA (o : AOps)
  /-- IADD_B (R288): One-word add of a register and a 9-bit signed immediate, modulo 2^32. -/
  | iaddB (o : BOps)
  /-- IADD_L (R288): Two-word add of a register and a 32-bit literal, modulo 2^32. -/
  | iaddL (o : LOps)
  /-- ISUB_A (R288): One-word 32-bit subtract, modulo 2^32. -/
  | isubA (o : AOps)
  /-- IMUL_A (R288): One-word 32-bit multiply that keeps the low 32 bits. -/
  | imulA (o : AOps)
  /-- AND_A (R288): One-word bitwise AND of two 32-bit sources. -/
  | andA (o : AOps)
  /-- OR_A (R288): One-word bitwise OR of two 32-bit sources. -/
  | orA (o : AOps)
  /-- XOR_A (R288): One-word bitwise XOR of two 32-bit sources. -/
  | xorA (o : AOps)
  /-- AND_L (R288): Two-word bitwise AND of a register with a 32-bit literal. -/
  | andL (o : LOps)
  /-- SHL_B (R288): One-word left shift by a 9-bit immediate amount, as R293 defines. -/
  | shlB (o : BOps)
  /-- SHR_B (R288): One-word logical right shift by a 9-bit immediate amount. -/
  | shrB (o : BOps)
  /-- SHA_B (R288): One-word arithmetic right shift by a 9-bit immediate amount. -/
  | shaB (o : BOps)
  /-- IMIN_A (R288): One-word signed 32-bit minimum. -/
  | iminA (o : AOps)
  /-- IMAX_A (R288): One-word signed 32-bit maximum. -/
  | imaxA (o : AOps)
  /-- IADD_S64_A (R288): One-word 64-bit add on register pairs, modulo 2^64. -/
  | iaddS64A (o : AOps)
  /-- IADD_X (R290): X-form integer add, with optional saturation; vector or uniform variant. -/
  | iaddX (u : Bool) (x : XOps)
  /-- ISUB_X (R290): X-form integer subtract, with optional saturation. -/
  | isubX (u : Bool) (x : XOps)
  /-- IMUL_X (R290): X-form integer multiply, wrapping or saturating. -/
  | imulX (u : Bool) (x : XOps)
  /-- IMULH (R290): High half of the double-width integer product. -/
  | imulh (u : Bool) (x : XOps)
  /-- IMAD (R290): Integer multiply-add, wrapping or saturating. -/
  | imad (u : Bool) (x : XOps)
  /-- IDIV (R291): Integer division truncated toward zero, with the division-by-zero and overflow cases of R291. -/
  | idiv (u : Bool) (x : XOps)
  /-- IREM (R291): Integer remainder with the sign of the dividend. -/
  | irem (u : Bool) (x : XOps)
  /-- IMIN_X (R290): X-form integer minimum, signedness from TYPE. -/
  | iminX (u : Bool) (x : XOps)
  /-- IMAX_X (R290): X-form integer maximum, signedness from TYPE. -/
  | imaxX (u : Bool) (x : XOps)
  /-- IABS (R290): Integer absolute value, wrapping or saturating. -/
  | iabs (u : Bool) (x : XOps)
  /-- INEG (R290): Integer negation, wrapping or saturating. -/
  | ineg (u : Bool) (x : XOps)
  /-- IADDC (R290): 32-bit add with carry-in that writes the sum and the carry-out to a pair. -/
  | iaddc (u : Bool) (x : XOps)
  /-- ISAT (R290): Clamps an .s32 value to the range of TYPE. -/
  | isat (u : Bool) (x : XOps)
  /-- LEA (R290): 64-bit address arithmetic: a base plus an extended index shifted by sh. -/
  | lea (u : Bool) (x : XOps)
  /-- AND_X (R293): X-form bitwise AND at .b32 or .b64. -/
  | andX (u : Bool) (x : XOps)
  /-- OR_X (R293): X-form bitwise OR. -/
  | orX (u : Bool) (x : XOps)
  /-- XOR_X (R293): X-form bitwise XOR. -/
  | xorX (u : Bool) (x : XOps)
  /-- ANDN (R293): a AND NOT b. -/
  | andn (u : Bool) (x : XOps)
  /-- NOT (R293): Bitwise complement. -/
  | not (u : Bool) (x : XOps)
  /-- SHL_X (R293): X-form left shift by a register amount. -/
  | shlX (u : Bool) (x : XOps)
  /-- SHR_X (R293): X-form logical right shift. -/
  | shrX (u : Bool) (x : XOps)
  /-- SHA_X (R293): X-form arithmetic right shift. -/
  | shaX (u : Bool) (x : XOps)
  /-- ROTL (R293): Rotate left by the amount modulo the width. -/
  | rotl (u : Bool) (x : XOps)
  /-- BFX (R293): Bit-field extract with sign or zero extension. -/
  | bfx (u : Bool) (x : XOps)
  /-- BFI (R293): Bit-field insert. -/
  | bfi (u : Bool) (x : XOps)
  /-- POPC (R293): Counts the 1 bits. -/
  | popc (u : Bool) (x : XOps)
  /-- CLZ (R293): Counts the leading zeros. -/
  | clz (u : Bool) (x : XOps)
  /-- CTZ (R293): Counts the trailing zeros. -/
  | ctz (u : Bool) (x : XOps)
  /-- BREV (R293): Reverses the bit order. -/
  | brev (u : Bool) (x : XOps)
  /-- SEL (R293): Selects a or b according to a condition register. -/
  | sel (u : Bool) (x : XOps)
  /-- ISET (R294): Integer compare that writes 1 or 0 to a register, vector or uniform. -/
  | iset (u : Bool) (c : ICond) (x : XOps)
  /-- ICMP (R294): Integer compare that writes a predicate. -/
  | icmp (c : ICond) (x : XOps)
  /-- FADD_A (R296): One-word .f32 add with .rne. -/
  | faddA (o : AOps)
  /-- FSUB_A (R296): One-word .f32 subtract with .rne. -/
  | fsubA (o : AOps)
  /-- FMUL_A (R296): One-word .f32 multiply with .rne. -/
  | fmulA (o : AOps)
  /-- FMIN_A (R296): One-word .f32 minimum. -/
  | fminA (o : AOps)
  /-- FMAX_A (R296): One-word .f32 maximum. -/
  | fmaxA (o : AOps)
  /-- FADD_L (R296): Two-word .f32 add of a register and a 32-bit literal. -/
  | faddL (o : LOps)
  /-- FMUL_L (R296): Two-word .f32 multiply by a 32-bit literal. -/
  | fmulL (o : LOps)
  /-- FADD_X (R298): X-form floating-point add, rounded once in the named mode. -/
  | faddX (u : Bool) (x : XOps)
  /-- FSUB_X (R298): X-form floating-point subtract. -/
  | fsubX (u : Bool) (x : XOps)
  /-- FMUL_X (R298): X-form floating-point multiply. -/
  | fmulX (u : Bool) (x : XOps)
  /-- FFMA (R298): Fused multiply-add with a single rounding. -/
  | ffma (u : Bool) (x : XOps)
  /-- FMIN_X (R299): X-form floating-point minimum. -/
  | fminX (u : Bool) (x : XOps)
  /-- FMAX_X (R299): X-form floating-point maximum. -/
  | fmaxX (u : Bool) (x : XOps)
  /-- FDIV (R298): Correctly rounded floating-point division. -/
  | fdiv (u : Bool) (x : XOps)
  /-- FSCALE (R298): Multiplies by 2^n and rounds. -/
  | fscale (u : Bool) (x : XOps)
  /-- FRND (R298): Rounds to an integral value in the named mode. -/
  | frnd (u : Bool) (x : XOps)
  /-- FSAT (R299): Clamps to the interval from +0 to 1.0. -/
  | fsat (u : Bool) (x : XOps)
  /-- FSGN_CPY (R300): Replaces the sign bit of a with that of b. -/
  | fsgnCpy (u : Bool) (x : XOps)
  /-- FSGN_NEG (R300): Replaces the sign bit of a with the inverse of b's sign bit. -/
  | fsgnNeg (u : Bool) (x : XOps)
  /-- FSGN_XOR (R300): XORs the sign bits of a and b. -/
  | fsgnXor (u : Bool) (x : XOps)
  /-- FRCP (R301): Correctly rounded reciprocal. -/
  | frcp (u : Bool) (x : XOps)
  /-- FRSQ (R301): Correctly rounded reciprocal square root. -/
  | frsq (u : Bool) (x : XOps)
  /-- FSQRT (R301): Correctly rounded square root. -/
  | fsqrt (u : Bool) (x : XOps)
  /-- FEXP2 (R301): Correctly rounded 2^a. -/
  | fexp2 (u : Bool) (x : XOps)
  /-- FLOG2 (R301): Correctly rounded log2 a. -/
  | flog2 (u : Bool) (x : XOps)
  /-- FSIN (R301): Correctly rounded sine of a in radians. -/
  | fsin (u : Bool) (x : XOps)
  /-- FCOS (R301): Correctly rounded cosine of a in radians. -/
  | fcos (u : Bool) (x : XOps)
  /-- FTANH (R301): Correctly rounded hyperbolic tangent. -/
  | ftanh (u : Bool) (x : XOps)
  /-- FREXP (R303): Splits a value into its mantissa and exponent in a register pair. -/
  | frexp (u : Bool) (x : XOps)
  /-- FCLASS (R303): Writes a one-hot class mask of the operand. -/
  | fclass (u : Bool) (x : XOps)
  /-- FSET (R295): Floating-point compare that writes 1 or 0 to a register, vector or uniform. -/
  | fset (u : Bool) (c : FCond) (x : XOps)
  /-- FSET_PRED (R295): Floating-point compare that writes a predicate (opcode 0x26). -/
  | fsetPred (c : FCond) (x : XOps)
  /-- FCVT (R304): Converts between floating-point and narrow formats under RoundTo. -/
  | fcvt (f : FSrc) (x : XOps)
  /-- ICVT (R305): Converts integer to float or float to integer, with clamping. -/
  | icvt (d : IcvtDir) (x : XOps)
  /-- DOT2 (R307): Two-element packed dot product with an addend, in a fixed tree. -/
  | dot2 (x : XOps)
  /-- DOT4 (R307): Four-element packed dot product with an addend. -/
  | dot4 (x : XOps)
  /-- DOT8 (R307): Eight-element packed dot product with an addend. -/
  | dot8 (x : XOps)
  /-- PADD (R308): Element-wise packed add. -/
  | padd (x : XOps)
  /-- PMUL (R308): Element-wise packed multiply. -/
  | pmul (x : XOps)
  /-- PFMA (R308): Element-wise packed multiply-add. -/
  | pfma (x : XOps)
  /-- PCVT (R310): Converts packed elements between formats at the element position POS. -/
  | pcvt (f : FSrc) (x : XOps)
  /-- QNT (R312): Quantises an .f32 value to a narrow format under an E8M0 scale. -/
  | qnt (x : XOps)
  /-- DQNT (R312): Dequantises one packed element to .f32 under a scale. -/
  | dqnt (x : XOps)
  /-- BSCALE (R313): Computes one E8M0 block scale collectively over the executing threads. -/
  | bscale (x : XOps)
  /-- MOV (R256): Copies a 32-bit source to a vector register or queue. -/
  | mov (o : AOps)
  /-- MOV_UNIFORM (R256): Uniform variant of MOV that writes a uniform register once. -/
  | movUniform (o : AOps)
  /-- MOVI (R256): Writes a 32-bit literal, vector or uniform. -/
  | movi (u : Bool) (o : LOps)
  /-- MOVS (R257): Reads a system register into a register. -/
  | movs (u : Bool) (x : XOps)
  /-- SETS (R257): Writes a system register in ascending lane order, with its privilege and reserved-bit checks. -/
  | sets (x : XOps)
  /-- PICK (R262): Each thread takes the value of a named lane, or the fill value. -/
  | pick (x : XOps)
  /-- ROT (R262): Rotates values within lane groups. -/
  | rot (x : XOps)
  /-- SLIDE (R262): Shifts values across lanes by a distance, with fill. -/
  | slide (x : XOps)
  /-- SWAP (R262): Exchanges values between lanes by XOR of the lane number. -/
  | swap (x : XOps)
  /-- POLL_ALL (R263): Predicate true in every thread when every executing thread's condition holds. -/
  | pollAll (u : Bool) (x : XOps)
  /-- POLL_ANY (R263): Predicate true when any executing thread's condition holds. -/
  | pollAny (u : Bool) (x : XOps)
  /-- POLL_MASK (R263): Writes the lane mask of threads whose condition holds. -/
  | pollMask (u : Bool) (x : XOps)
  /-- FIRST (R263): Predicate true only in the lowest executing lane. -/
  | first (u : Bool) (x : XOps)
  /-- SPREAD (R262): Broadcasts one lane's value to every executing thread. -/
  | spread (u : Bool) (x : XOps)
  /-- PEERS (R262): Writes the mask of lanes holding an equal value. -/
  | peers (u : Bool) (x : XOps)
  /-- SPLICE (R262): Byte funnel with byte clear over a 64-bit pair. -/
  | splice (x : XOps)
  /-- FOLD_ADD (R263): Wrapping sum over the executing threads. -/
  | foldAdd (u : Bool) (x : XOps)
  /-- FOLD_MIN (R263): Minimum over the executing threads. -/
  | foldMin (u : Bool) (x : XOps)
  /-- FOLD_MAX (R263): Maximum over the executing threads. -/
  | foldMax (u : Bool) (x : XOps)
  /-- FOLD_AND (R263): AND over the executing threads. -/
  | foldAnd (u : Bool) (x : XOps)
  /-- FOLD_OR (R263): OR over the executing threads. -/
  | foldOr (u : Bool) (x : XOps)
  /-- AFF_LOOP (R248): Sets the count and stride of one loop level of the access context. -/
  | affLoop (x : XOps)
  /-- AFF_LD (R247): Starts a load stream into q0 to q3. -/
  | affLd (x : XOps)
  /-- AFF_ST (R250): Starts a store-address stream for q4 to q7. -/
  | affSt (x : XOps)
  /-- AFF_FEED (R251): Pushes a value into the lane's feedback FIFO. -/
  | affFeed (x : XOps)
  /-- LD (R189): Loads 1 to 16 bytes, or a packed element, for each executing thread. -/
  | ld (m : MOps)
  /-- ST (R189): Stores 1 to 16 bytes, or a packed element, for each executing thread. -/
  | st (m : MOps)
  /-- LDRO (R190): Loads through the read-only cache, without tokens. -/
  | ldro (m : MOps)
  /-- LDS (R191): Loads from scratchpad. -/
  | lds (m : MOps)
  /-- STS (R191): Stores to scratchpad, held by the range scoreboard where it overlaps an entry. -/
  | sts (m : MOps)
  /-- ATOM (R195): Indivisible read-modify-write of memory that returns the old value. -/
  | atom (op : AtomOp) (x : XOps)
  /-- RED (R195): Read-modify-write without a result, possibly combined in update-only state. -/
  | red (op : AtomOp) (x : XOps)
  /-- ATOMS (R195): Read-modify-write on scratchpad. -/
  | atoms (op : AtomOp) (x : XOps)
  /-- BANKOP (R195): Read-modify-write performed by a bank-memory ALU. -/
  | bankop (op : AtomOp) (x : XOps)
  /-- FENCE (R196): Waits until earlier accesses have performed at SCOPE, then orders later ones. -/
  | fence (x : XOps)
  /-- FENCE_RO (R196): Fence that also empties the core's read-only cache. -/
  | fenceRo (x : XOps)
  /-- FLUSH_RANGE (R199): Writes back and drops the copies of a range. -/
  | flushRange (x : XOps)
  /-- INV_RANGE (R199): Drops the copies of a range without write-back. -/
  | invRange (x : XOps)
  /-- CLEAN_RANGE (R199): Writes back dirty copies of a range and keeps them. -/
  | cleanRange (x : XOps)
  /-- PREF (R202): Starts a fill of a line for reading or writing; never traps. -/
  | pref (m : MOps)
  /-- LDMON (R203): Loads and arms the thread's monitor on the line. -/
  | ldmon (m : MOps)
  /-- WAITMON (R205): Waits until the monitor is not ARMED, then sets it IDLE. -/
  | waitmon (x : XOps)
  /-- RES_HINT (R206): Adds a range to a residency handle and sets its priority. -/
  | resHint (x : XOps)
  /-- RES_EVICT (R206): Sets a residency handle to priority 0 and removes its ranges. -/
  | resEvict (x : XOps)
  /-- CBLOAD (R207): Replaces the first bytes of a constant bank from memory. -/
  | cbload (x : XOps)
  /-- CPY_TILE (R219): Issues a strided tile copy, with optional transpose, into a copy queue. -/
  | cpyTile (x : XOps)
  /-- CPY_GATH (R220): Issues an indexed gather copy. -/
  | cpyGath (x : XOps)
  /-- CPY_SCAT (R220): Issues an indexed scatter copy. -/
  | cpyScat (x : XOps)
  /-- CPY_MCAST (R221): Issues a copy multicast into the scratchpads of cores of the cluster. -/
  | cpyMcast (x : XOps)
  /-- CPY_QNT (R222): Issues a quantising copy to MX blocks, row- or column-blocked. -/
  | cpyQnt (x : XOps)
  /-- CPY_FILL (R223): Issues a fill of a destination tile with one value. -/
  | cpyFill (x : XOps)
  /-- QFENCE (R227): Enters every named queue and holds later operations until earlier ones complete. -/
  | qfence (x : XOps)
  /-- QWAIT (R227): Waits for the operations of the named queues and acquires their writes, or traps for a fault. -/
  | qwait (x : XOps)
  /-- VIEW_REG (R238): Checks a view record and registers a Parallax view through vq. -/
  | viewReg (x : XOps)
  /-- VIEW_DROP (R239): Drops a registered view. -/
  | viewDrop (x : XOps)
  /-- VIEW_FENCE (R240): Enters vq and completes when the views have published snapshots after earlier master writes. -/
  | viewFence (x : XOps)
  /-- VIEW_STAT (R241): Reads the tag of one view block. -/
  | viewStat (x : XOps)
  /-- RMA_PUT (R448): Issues a remote put to xq. -/
  | rmaPut (x : XOps)
  /-- RMA_GET (R448): Issues a remote get to xq. -/
  | rmaGet (x : XOps)
  /-- RMA_ATOM (R448): Issues a remote 64-bit atomic to xq. -/
  | rmaAtom (x : XOps)
  /-- RMA_WAIT (R450): Waits for a remote-access operation, then acquires at .system or traps. -/
  | rmaWait (x : XOps)
  /-- RMA_KEY (R451): Registers, revokes or queries a remote key. -/
  | rmaKey (x : XOps)
  /-- MX_WLOAD (R336): Issues a load of a B chunk into the macros as the resident set. -/
  | mxWload (x : XOps)
  /-- MX_ISSUE (R336): Checks and issues a matrix multiply-accumulate operation into mq. -/
  | mxIssue (x : XOps)
  /-- MX_TEST (R337): Reports whether an mq operation has completed. -/
  | mxTest (x : XOps)
  /-- MX_PROG (R337): Reads an mq operation's progress word into DST and PIDX. -/
  | mxProg (x : XOps)
  /-- MX_ABORT (R337): Records an abort of an mq operation. -/
  | mxAbort (x : XOps)
  /-- ACC_ALLOC (R338): Requests accumulator banks, waiting or trying. -/
  | accAlloc (x : XOps)
  /-- ACC_FREE (R338): Frees accumulator banks once their operations complete. -/
  | accFree (x : XOps)
  /-- ACC_LD (R339): Issues a load of bank rows from memory or scratchpad. -/
  | accLd (x : XOps)
  /-- ACC_ST (R339): Issues a store of bank rows. -/
  | accSt (x : XOps)
  /-- ACC_ZERO (R339): Issues a zeroing of the named banks. -/
  | accZero (x : XOps)
  /-- ACC_CVT (R339): Issues a store of bank rows converted to a narrow format. -/
  | accCvt (x : XOps)
  /-- SPC_CMP (R340): Issues a compression of dense B to a structured-sparse layout with metadata. -/
  | spcCmp (x : XOps)
  /-- SPC_META (R341): Decodes or encodes one metadata entry in registers. -/
  | spcMeta (x : XOps)
  /-- BRA (R364): Conditional PC-relative branch. -/
  | bra (o : BrOps)
  /-- BRX (R364): Branch through a jump table in memory. -/
  | brx (x : XOps)
  /-- CALL (R364): Conditional PC-relative call that pushes a return address. -/
  | call (o : BrOps)
  /-- CALLX (R364): Call to an address held in a register pair. -/
  | callx (x : XOps)
  /-- RET (R364): Pops the call stack and returns. -/
  | ret
  /-- RJOIN_SET (R365): Adds the executing threads to a reconvergence barrier's participants. -/
  | rjoinSet (x : XOps)
  /-- RJOIN_WAIT (R365): Arrives at a reconvergence barrier and waits for its release. -/
  | rjoinWait (x : XOps)
  /-- RJOIN_LEAVE (R365): Removes threads from a reconvergence barrier. -/
  | rjoinLeave (x : XOps)
  /-- YIELD (R360): Ends the run and defers the thread behind the other ready groups. -/
  | yield (x : XOps)
  /-- EXIT (R366): Ends the thread, or the access context, or a section as SRET. -/
  | exit (x : XOps)
  /-- NOP (R366): Ends the run with no other effect. -/
  | nop (x : XOps)
  /-- SLEEP (R366): Makes the thread not ready for a number of cycles. -/
  | sleep (x : XOps)
  /-- MIGRATE (R367): Moves the whole team to the die of an address once every thread has executed it. -/
  | migrate (x : XOps)
  /-- LAUNCH (R368): Submits a launch record from a running thread. -/
  | launch (x : XOps)
  /-- BAR_ARRIVE (R371): Arrives at a barrier and returns the generation. -/
  | barArrive (x : XOps)
  /-- BAR_WAIT (R371): Waits until the barrier has left a generation. -/
  | barWait (x : XOps)
  /-- BAR_SYNC (R371): Arrives at a barrier and waits for its release. -/
  | barSync (x : XOps)
  /-- TOKEN_WAIT (R375): Waits for an engine or section token, then acquires or traps. -/
  | tokenWait (x : XOps)
  /-- TOKEN_TEST (R375): Reports the state of a token without waiting. -/
  | tokenTest (x : XOps)
  /-- SHIP (R380): Sends a section request to a lock's home and waits for its results. -/
  | ship (n : BitVec 3) (x : XOps)
  /-- SHIP_A (R380): Sends a section request and returns a section token. -/
  | shipA (n : BitVec 3) (x : XOps)
  /-- SENTRY (R382): Begins a section as an acquire. -/
  | sentry (x : XOps)
  /-- SRET (R382): Delivers v0 to v3 to the sender and ends the section. -/
  | sret (x : XOps)
  /-- FUT_LD (R392): Reads a future, or registers a waiter and squashes the phase. -/
  | futLd (x : XOps)
  /-- FUT_ST (R393): Fills an empty future and wakes its waiters. -/
  | futSt (x : XOps)
  /-- PHASE_END (R388): Ends the thread's part of a phase and records its resume PC. -/
  | phaseEnd (x : XOps)
  /-- QUIET (R395): Advances the context's epoch and waits until traffic of the previous parity has drained. -/
  | quiet (x : XOps)
  /-- FLARE_SEND (R410): Raises a flare vector of a target context. -/
  | flareSend (x : XOps)
  /-- FLARE_RET (R412): Leaves the flare handler at FLARE_RPC. -/
  | flareRet (x : XOps)
  /-- FLARE_MASK (R412): Sets, clears or replaces bits of FLARE_MASK. -/
  | flareMask (x : XOps)
  /-- FLARE_READ (R411): Reads a flare vector or the delivery record. -/
  | flareRead (x : XOps)
  /-- FLARE_ACK (R411): Reads and clears a flare vector or the delivery record in one step. -/
  | flareAck (x : XOps)
  /-- TRAP (R417): Raises SOFTWARE_TRAP with the operand. -/
  | trap (x : XOps)
  /-- TRET (R417): Leaves the user handler and resumes at TPC. -/
  | tret (x : XOps)
  /-- SVC (R424): Posts a service request to the supervisor mailbox and waits for its result. -/
  | svc (x : XOps)
  /-- BKPT (R417): Raises BREAKPOINT with the operand. -/
  | bkpt (x : XOps)
  /-- CTX_SAVE (R428): Stops a context's teams on the core and writes its image. -/
  | ctxSave (x : XOps)
  /-- CTX_LOAD (R428): Checks and restores a context image onto the core. -/
  | ctxLoad (x : XOps)
  /-- ASID_RETIRE (R115): Advances or queries an ASID's generation. -/
  | asidRetire (x : XOps)
  /-- TLB_PROBE (R116): Translates an address under a record and reports the result without trapping. -/
  | tlbProbe (x : XOps)
  /-- PAGE_SCAN (R117): Clears the dirty state of translations covering a range. -/
  | pageScan (x : XOps)
  /-- MBOX_TAKE (R426): Waits for and takes the oldest mailbox entry. -/
  | mboxTake (x : XOps)
  /-- MBOX_PUT (R426): Disposes of a mailbox entry: reply, replay, resume, pass on, kill or acknowledge. -/
  | mboxPut (x : XOps)
  /-- HALT (R426): Waits, clock-gated, until the mailbox holds an entry or the controller wakes the core. -/
  | halt (x : XOps)
  /-- RUN_SELECTION (R359): A free pipe selects a PC group and its ready threads run as an issue group. -/
  | runSelection (core pipe : Nat)
  /-- LOAD_DATA_RETURN (R186): A load's data arrives, memory errors are judged, the destination is written and the counter decremented. -/
  | loadDataReturn (team lane op : Nat)
  /-- STORE_PERFORM (R133): A queued store leaves the team's store queue and performs after collecting its tokens. -/
  | storePerform (team : Nat)
  /-- PAGE_TABLE_WALK (R90): A walker completes a walk of the page tables and fills the translation caches. -/
  | pageTableWalk (die ctx : Nat) (va : DWord)
  /-- READ_MISS (R125): A read miss reaches the home slice, which sends data and one token or forwards it. -/
  | readMiss (a : AgentId) (line : Nat)
  /-- WRITE_MISS (R125): A write or atomic miss reaches the home, which sends its tokens and invalidations. -/
  | writeMiss (a : AgentId) (line : Nat)
  /-- FORWARDED_REQUEST (R125): A request forwarded by the home reaches the owner, which sends data and a token. -/
  | forwardedRequest (owner req : AgentId) (line : Nat)
  /-- TOKEN_DATA_RESPONSE (R123): A message carrying tokens, and data if it carries the owner token, reaches its receiver. -/
  | tokenDataResponse (a : AgentId) (line : Nat) (t : TokenMsg)
  /-- INVALIDATION (R125): An invalidation reaches an agent, which answers the requester with every token it holds and drops its copy. -/
  | invalidation (a req : AgentId) (line : Nat)
  /-- EVICTION_NOTICE (R128): An eviction notice reaches the home, which keeps its tokens or forwards them to a collecting writer. -/
  | evictionNotice (a : AgentId) (line : Nat) (t : TokenMsg)
  /-- REQUEST_FAILURE (R129): 2,048 cycles pass without enough tokens; the request is reissued or, after the third failure, made persistent. -/
  | requestFailure (a : AgentId) (line : Nat)
  /-- PERSISTENT_REQUEST (R129): A persistent request is installed at the home slice and activated in arrival order. -/
  | persistentRequest (a : AgentId) (line : Nat)
  /-- PERSISTENT_ACTIVATION (R129): An activation makes every agent send the line's tokens to the requester. -/
  | persistentActivation (line : Nat)
  /-- PERSISTENT_DEACTIVATION (R129): A deactivation ends a persistent request and activates the next waiting one. -/
  | persistentDeactivation (line : Nat)
  /-- UPDATE_ONLY_GRANT (R130): The home grants U copies of a line after collecting its tokens and setting UMODE. -/
  | updateOnlyGrant (a : AgentId) (line : Nat) (op : AtomOp) (ty : Ty)
  /-- UPDATE_ONLY_END (R131): The home gathers every U copy, combines them and clears UMODE before serving another access. -/
  | updateOnlyEnd (line : Nat)
  /-- FLUSH_MARKER (R161): A flush marker arrives at a die or device and counts toward a release's performance. -/
  | flushMarker (src dst path : Nat)
  /-- HOST_SNOOP (R103): A host snoop reaches the CXL.cache agent, which answers once release conditions hold. -/
  | hostSnoop (line : Nat)
  /-- ASID_FLUSH_COMPLETE (R96): Every entry of a RETIRING ASID has been removed and it returns to ACTIVE with generation 0. -/
  | asidFlushComplete (asid : Nat)
  /-- RANGE_WALK_COMPLETE (R200): A range instruction's walk finishes and its status word is written. -/
  | rangeWalkComplete (team lane op : Nat)
  /-- ENGINE_OP_ACCEPT (R212): A waiting engine operation is accepted into its queue once room, scoreboard entries and earlier accesses allow. -/
  | engineOpAccept (team : Nat)
  /-- COPY_ENGINE_TAKE (R210): An idle copy engine takes the head operation of the next queue in rotation. -/
  | copyEngineTake (core eng : Nat)
  /-- COPY_ROW (R216): A copy engine moves one progress unit, or stops at the start of a faulting row. -/
  | copyRow (core eng : Nat)
  /-- COPY_COMPLETE (R169): A copy's writes have all performed and the operation completes, or completes faulted or cancelled. -/
  | copyComplete (core eng : Nat)
  /-- CBLOAD_COMPLETE (R207): A CBLOAD's source has been read and the bank replaced. -/
  | cbloadComplete (team op : Nat)
  /-- MATRIX_ENGINE_SELECT (R324): A free matrix engine takes the head operation of the next team's mq. -/
  | matrixEngineSelect (core : Nat)
  /-- MATRIX_CHUNK_LOAD (R322): A B chunk load into the macros completes and captures the chunk. -/
  | matrixChunkLoad (core : Nat)
  /-- MATRIX_ACCUMULATE_STEP (R322): One row group is accumulated against one chunk, indivisibly. -/
  | matrixAccumulateStep (core : Nat)
  /-- MATRIX_OUTPUT_STEP (R322): One output step converts and writes a row group of results. -/
  | matrixOutputStep (core : Nat)
  /-- ACC_BANK_GRANT (R333): The head of the bank FIFO is granted once enough banks are free. -/
  | accBankGrant (core : Nat)
  /-- ACC_BANK_RELEASE (R333): Freed banks are zeroed and returned once their operations have completed. -/
  | accBankRelease (core : Nat)
  /-- PARALLAX_RECOMPUTE (R174): The Parallax engine recomputes a pending view block and publishes it. -/
  | parallaxRecompute (part view block : Nat)
  /-- VIEW_PUBLISH_MESSAGE (R174): A Meridian message publishing a remote view block is applied in one step. -/
  | viewPublishMessage (m : ViewMsg)
  /-- ACCESS_STREAM_POINT (R247): An access stream generates the addresses of its next point and issues them. -/
  | accessStreamPoint (team q : Nat)
  /-- AFF_ST_PAIR_STORE (R250): A lane's address and data heads meet and the access unit performs the store. -/
  | affStPairStore (team q lane : Nat)
  /-- USER_HANDLER_ENTRY (R457): A parked route-U thread enters the user handler at a run boundary. -/
  | userHandlerEntry (team : Nat)
  /-- MAILBOX_POST (R423): An event enters the supervisor mailbox once there is room. -/
  | mailboxPost (core : Nat)
  /-- MAILBOX_FULL_TIMEOUT (R424): An SVC whose mailbox stays full for 2^20 cycles traps MAILBOX_FULL. -/
  | mailboxFullTimeout (team lane : Nat)
  /-- TEAMTIME_OVERFLOW (R419): TEAMTIME bit 63 changes from 0 to 1 by counting and a TEAM_TIMER trap is owed. -/
  | teamtimeOverflow (team : Nat)
  /-- DEADLINE_REACHED (R420): CYCLES reaches DEADLINE; a DEADLINE trap is owed and DEADLINE becomes 0. -/
  | deadlineReached (team : Nat)
  /-- OWED_TIMER_TRAP (R421): An owed timer trap is taken at the team's next run boundary. -/
  | owedTimerTrap (team : Nat)
  /-- SLEEP_EXPIRY (R366): A sleeping thread's count expires and it becomes ready. -/
  | sleepExpiry (team lane : Nat)
  /-- FLARE_RAISE_MESSAGE (R402): A raise reaches a context's flare state and is checked and combined. -/
  | flareRaiseMessage (r : RaiseMsg)
  /-- FLARE_DELIVERY (R405): At a run boundary the lowest deliverable vector moves to the delivery record and the handler team enters. -/
  | flareDelivery (ctx : Nat)
  /-- SECTION_REQUEST_ARRIVAL (R380): A section request enters its home's queue, waiting for room if full. -/
  | sectionRequestArrival (r : ShipReq)
  /-- SECTION_START (R381): A home takes its head request, checks it, and begins or refuses the section. -/
  | sectionStart (home : Nat)
  /-- SECTION_RESULT_ARRIVAL (R380): A section's results reach the sender and complete its SHIP or slot. -/
  | sectionResultArrival (r : ShipResult)
  /-- SECTION_BUDGET_EXPIRY (R385): A section runs 2^24 Lodestar cycles and ends faulted with TEAM_TIMER. -/
  | sectionBudgetExpiry (home : Nat)
  /-- PHASE_RECORD_ENQUEUE (R388): A phase ends: accesses drain, the phase record is written and enqueued, resources released. -/
  | phaseRecordEnqueue (crew : Nat)
  /-- PHASE_RESUME (R389): A phase record with DEPS 0 is placed and its threads resume. -/
  | phaseResume (part : Nat)
  /-- MIGRATE_MOVE (R367): After the drains, the team moves into a free landing slot on the target die. -/
  | migrateMove (team : Nat)
  /-- LANDING_SLOT_MOVE (R367): A migrated team moves from slot 62 into a free ordinary slot. -/
  | landingSlotMove (team : Nat)
  /-- LAUNCH_DOORBELL (R349): A write of SQTAIL rings the doorbell, or sets ERR beyond capacity. -/
  | launchDoorbell (vf : Nat) (tail : Word)
  /-- LAUNCH_QUEUE_CONTROL (R349): A write of word 0x08 sets ENABLE and LOG2N and clears ERR. -/
  | launchQueueControl (vf : Nat) (w : Word)
  /-- RECORD_CAPTURE (R349): The dispatcher reads a submitted record, captures it and advances SQHEAD. -/
  | recordCapture (vf : Nat)
  /-- EDGE_SATISFIED (R353): Every predecessor reads DONE; the dispatcher flushes the edge ranges or ends PREDECESSOR_FAILED. -/
  | edgeSatisfied (launch : Nat)
  /-- PLACE_CLUSTER_GROUP (R354): The dispatcher places the next cluster group of a launch on one cluster. -/
  | placeClusterGroup (part : Nat)
  /-- LAUNCH_END (R351): After drains, the completion record of an ended launch is written with a release. -/
  | launchEnd (launch : Nat)
  /-- REGISTER_WRITE (R349): A write to a register with no behaviour of its own, such as SQBASE, or to an ignored offset. -/
  | registerWrite (vf off size : Nat) (val : DWord)
  /-- FLARE_WINDOW_RAISE (R404): A host 8-byte write to the flare window raises a vector of the function's context. -/
  | flareWindowRaise (vf off size : Nat) (val : DWord)
  /-- CMD_ASSIGN_PARTITION (R23): CMD 1 assigns or releases partition units, sets CONF and import windows. -/
  | cmdAssignPartition (a : AssignCmd)
  /-- CMD_BIND_FUNCTION (R431): CMD 2 binds a virtual function to a partition and logical device. -/
  | cmdBindFunction (vf part ld : Nat)
  /-- CMD_SET_MERIDIAN_NUMBER (R438): CMD 3 sets MNUM. -/
  | cmdSetMeridianNumber (n : Nat)
  /-- CMD_QUEUE_PAIR (R440): CMD 4 creates, modifies or resets a queue-pair context. -/
  | cmdQueuePair (q : QpCmd)
  /-- CMD_ADOPT (R432): CMD 5 binds orphaned logical devices to the standby head. -/
  | cmdAdopt (lds : List Nat) (head : Nat)
  /-- CMD_READ_COUNTERS (R455): CMD 6 returns the lifetime counters. -/
  | cmdReadCounters
  /-- CMD_WRITE_FIRMWARE (R454): CMD 7 writes a firmware image and clears the failed-start count. -/
  | cmdWriteFirmware (image : List Byte)
  /-- CMD_READ_HANDOVER (R432): CMD 8 returns the handover area and discards the returned pending completions. -/
  | cmdReadHandover
  /-- CMD_UNKNOWN (R431): A CMD write naming no command completes with status 2. -/
  | cmdUnknown (code : DWord)
  /-- HOST_LINK_DOWN (R432): A head's link goes down and its logical devices are orphaned. -/
  | hostLinkDown (head : Nat)
  /-- CXL_MEM_ACCESS (R433): A host CXL.mem access to an HDM window is served or refused. -/
  | cxlMemAccess (a : HostAccess)
  /-- PEER_ACCESS (R438): A PEER access arrives over Meridian and is admitted inside an import window or refused. -/
  | peerAccess (a : PeerAccess)
  /-- D2D_LINK_FAILURE (R17): A die-to-die link fails and unacknowledged flits are resent over the surviving path. -/
  | d2dLinkFailure (die : Nat)
  /-- D2D_LINK_TRAINING (R16): A die-to-die link trains, replacing lanes or coming up at half width. -/
  | d2dLinkTraining (die : Nat) (failed : List Nat)
  /-- MERIDIAN_FLIT_GROUP (R437): A Meridian flit group arrives; its tag is checked and it is delivered or resent. -/
  | meridianFlitGroup (port : Nat) (tagOk : Bool)
  /-- MERIDIAN_KEY_ROTATION (R437): After 2^32 groups or 10 minutes the link key is replaced at a group boundary. -/
  | meridianKeyRotation (port : Nat)
  /-- PUT (R444): A PUT packet reaches a responder, is checked and written. -/
  | put (p : Packet)
  /-- GET_REQUEST (R444): A GET request reaches a responder, is checked and answered. -/
  | getRequest (p : Packet)
  /-- GET_RESPONSE (R448): A GET response reaches the requester and is written to LADDR. -/
  | getResponse (p : Packet)
  /-- ATOM_REQUEST (R442): An ATOM request is performed once or answered from the result cache. -/
  | atomRequest (p : Packet)
  /-- ATOM_RESPONSE (R448): An ATOM response reaches the requester, which writes the old value. -/
  | atomResponse (p : Packet)
  /-- ACK (R441): An ACK acknowledges packets and grants credit. -/
  | ack (p : Packet)
  /-- NAK (R449): A NAK faults the requesting operation with its reason. -/
  | nak (p : Packet)
  /-- CREDIT (R441): A CREDIT packet grants more credit. -/
  | credit (p : Packet)
  /-- RMA_RETRANSMIT_TIMEOUT (R441): An unacknowledged packet times out and is resent, or the queue pair enters ERROR. -/
  | rmaRetransmitTimeout (qpn : Nat)
  /-- QP_CONTEXT_FETCH (R440): A queue-pair context fetch completes and the waiting packets proceed. -/
  | qpContextFetch (qpn : Nat)
  /-- KEY_REVOKE_COMPLETE (R452): A REVOKING slot becomes INVALID once earlier packets have performed. -/
  | keyRevokeComplete (part slot : Nat)
  /-- RMA_COMPLETE (R448): A remote-access operation completes once its ACK or writes have arrived. -/
  | rmaComplete (team : Nat)
  /-- GET_VERSION (R436): SPDM GET_VERSION request to the attestation responder. -/
  | getVersion
  /-- GET_CAPABILITIES (R436): SPDM GET_CAPABILITIES request. -/
  | getCapabilities
  /-- NEGOTIATE_ALGORITHMS (R436): SPDM NEGOTIATE_ALGORITHMS request. -/
  | negotiateAlgorithms (n : SpdmAlgs)
  /-- GET_DIGESTS (R436): SPDM GET_DIGESTS request. -/
  | getDigests
  /-- GET_CERTIFICATE (R436): SPDM GET_CERTIFICATE request. -/
  | getCertificate
  /-- CHALLENGE (R436): SPDM CHALLENGE request. -/
  | challenge (nonce : List Byte)
  /-- GET_MEASUREMENTS (R436): SPDM GET_MEASUREMENTS request for the measurement blocks. -/
  | getMeasurements (index : Nat)
  /-- KEY_EXCHANGE (R436): SPDM KEY_EXCHANGE request. -/
  | keyExchange
  /-- FINISH (R436): SPDM FINISH request. -/
  | finish (ok : Bool)
  /-- END_SESSION (R436): SPDM END_SESSION request. -/
  | endSession
  /-- TDISP_MESSAGE (R435): A secured TDISP message moves a TDI between its states; ERROR kills its context. -/
  | tdispMessage (vf : Nat) (m : TdispMsg)
  /-- IDE_KEY_MANAGEMENT (R436): A secured IDE key-management message. -/
  | ideKeyManagement (m : IdeMsg)
  /-- BOOT (R453): Reset ends and the boot ROM runs stages 1 to 6, or starts in minimal mode. -/
  | boot (r : BootOutcome)
  /-- LIFETIME_COUNTER_SAVE (R455): Every 10 minutes the lifetime counters are written to flash. -/
  | lifetimeCounterSave
  /-- ORDERLY_SHUTDOWN (R455): Orderly shutdown writes the lifetime counters to flash. -/
  | orderlyShutdown
  /-- POWER_LOSS (R456): Main power is removed and every state except the NOR flash is lost. -/
  | powerLoss
  /-- POWER_LIMIT (R456): Power or temperature above its limit makes the device insert idle issue cycles. -/
  | powerLimit (on : Bool)
  /-- MACHINE_CHECK (R415): An internal machine check is recorded and the context killed. -/
  | machineCheck (ctx : Nat) (code : DWord)
  /-- VIRTUAL_FUNCTION_ENABLE (R399): A virtual function is enabled or disabled, clearing its context's flare state, FLARE_MASK, FLARE_ENTRY and handler designation on enable. -/
  | virtualFunctionEnable (vf : Nat) (on : Bool)
  /-- SUPERVISOR_FIRMWARE_RESTART (R425): The supervisor firmware of a core restarts and every thread waiting in SVC on that core executes its SVC again. -/
  | supervisorFirmwareRestart (core : Nat)
  /-- MERIDIAN_LINK_LOSS (R437): A Meridian link or path is lost, so its traffic moves to surviving paths or the device becomes unreachable, faulting views and section requests. -/
  | meridianLinkLoss (port : Nat)
  /-- HOST_LINK_TRAINING (R430): A CXL host port trains, or retrains after loss, at x16, x8 or x4 and at 128, 64 or 32 GT/s. -/
  | hostLinkTraining (head width rate : Nat)
  /-- FLARE_SEND_OUTCOME (R410): The target's outcome of a FLARE.SEND returns to the sender, which writes the status or traps for a synchronous send. -/
  | flareSendOutcome (team lane op : Nat) (status : Nat)
  /-- PAGE_REQUEST_RESPONSE (R98): The host's response to a PCIe page request arrives, so the supervisor can replay the faulting access. -/
  | pageRequestResponse (core ticket : Nat) (ok : Bool)
  /-- REMOTE_VIEW_BLOCK_CLEAR (R173): A master write's clearing of the fresh bit and setting of the pending bit reaches a view shard held on another device. -/
  | remoteViewBlockClear (part view block : Nat)
  /-- VIEW_QUEUE_OPERATION (R239): The Parallax engine takes the head vq operation, performing VIEW.REG zeroing, tagging and range installation, or the steps of VIEW.DROP in queue order. -/
  | viewQueueOperation (team : Nat)
  deriving DecidableEq, Repr

end Sys2Proof
end

