-- ==== Sys2Proof/Machine/Fields.lean ====
section
/-! DEFINITION. What each instruction form uses of its fields: the one table behind check 4 (RESERVED_FIELD),
check 5 (OPERAND_KIND) and check 6 (REGISTER_RANGE) of R58, and behind `Instr.wf`. -/

namespace Sys2Proof

/-- Register use of an operand (R47): one register, an even pair, a quad. -/
inductive Width where
  | w32 | w64 | w128
  deriving DecidableEq, Repr

/-- What the DST field of a form names: nothing; one register or q4 to q7; an even pair; a quad; one
register that may not be a queue; a predicate (R70). -/
inductive DUse where
  | none | r1 | r2 | r4 | pr
  deriving DecidableEq, Repr

/-- What a source field of a form may be: unused; any kind at a width; a register of kind 00 or 01; a
uniform register or a literal (R248); a uniform register only; a vector register only; a literal only;
a register or a literal (R409); `n` consecutive registers (R379). -/
inductive SUse where
  | none
  | any (w : Width)
  | regs (w : Width)
  | uniLit (w : Width)
  | uniOnly (w : Width)
  | vecOnly (w : Width)
  | litOnly
  | regLit (w : Width)
  | range (n : Nat)
  deriving DecidableEq, Repr

/-- The fields a form uses and the values it lists for its modifiers. `bad` is a further condition of
the form that traps RESERVED_FIELD: `some false` in word 0, `some true` in word 1. -/
structure Shape where
  d : DUse := .none
  a : SUse := .none
  b : SUse := .none
  c : SUse := .none
  tys : List Ty := []
  rnd : Bool := false
  ovf : Bool := false
  scopes : List Scope := []
  trk : Bool := false
  bad : Option Bool := none
  deriving DecidableEq, Repr

/-- Registers of a width. -/
def Width.regs : Width → Nat
  | .w32 => 1
  | .w64 => 2
  | .w128 => 4

/-- Register use of a type (R284). -/
def Ty.width : Ty → Width
  | .s64 | .n64 | .b64 | .f64 => .w64
  | _ => .w32

/-- DST of a result at a type (R284). -/
def Ty.dUse : Ty → DUse
  | .s64 | .n64 | .b64 | .f64 => .r2
  | _ => .r1

/-- The signed value of an inline literal (R50). -/
def litVal (i : BitVec 7) : Int := i.toInt

/-- A literal-only operand whose value is not in `lo .. hi` (RESERVED_FIELD where the kind is 0b11). -/
def litOut (s : Src) (lo hi : Int) : Bool :=
  match s with
  | .lit i => decide (litVal i < lo) || decide (hi < litVal i)
  | _ => false

/-- `some w1` when the condition holds. -/
def badIf (c : Bool) (w1 : Bool) : Option Bool := if c then some w1 else none

/-- The first of two conditions that reports a word; word 0 comes before word 1. -/
def badOr (p q : Option Bool) : Option Bool :=
  match p, q with
  | some false, _ => some false
  | _, some false => some false
  | some true, _ => some true
  | none, r => r

def intTys : List Ty := [.s32, .n32, .s64, .n64]
def bitTys : List Ty := [.b32, .b64]
def fpTys : List Ty := [.f64, .f32, .f16, .bf16]
def mxTys : List Ty := [.e4m3, .e5m2, .e3m2, .e2m3, .e2m1]
def barScopes : List Scope := [.team, .core, .cluster, .device]
def allScopes : List Scope := [.thread, .team, .core, .cluster, .die, .device, .domain, .system]
def wideScopes : List Scope := [.team, .core, .cluster, .die, .device, .domain, .system]

/-- Integer arithmetic group (R289). -/
def shInt (x : XOps) (c : SUse) (ovf : Bool) : Shape :=
  { d := x.ty.dUse, a := .any x.ty.width, b := .any x.ty.width, c := c, tys := intTys, ovf := ovf }

/-- Bit and logic group with two sources at TYPE (R292). -/
def shBit2 (x : XOps) : Shape :=
  { d := x.ty.dUse, a := .any x.ty.width, b := .any x.ty.width, tys := bitTys }

/-- Bit and logic group with a 32-bit source 1 (R292). -/
def shShift (x : XOps) (tys : List Ty) : Shape :=
  { d := x.ty.dUse, a := .any x.ty.width, b := .any .w32, tys := tys }

/-- Counting forms: one source at TYPE, one register written (R292). -/
def shCount (x : XOps) : Shape := { d := .r1, a := .any x.ty.width, tys := bitTys }

/-- Floating-point forms of two sources (R297). -/
def shFp2 (x : XOps) (rnd : Bool) : Shape :=
  { d := x.ty.dUse, a := .any x.ty.width, b := .any x.ty.width, tys := fpTys, rnd := rnd }

/-- Floating-point forms of one source. -/
def shFp1 (x : XOps) (rnd : Bool) (tys : List Ty) : Shape :=
  { d := x.ty.dUse, a := .any x.ty.width, tys := tys, rnd := rnd }

/-- Lane movement forms (R261). -/
def shMove (x : XOps) : Shape :=
  { d := x.ty.dUse, a := .any x.ty.width, b := .any .w32, c := .any x.ty.width, tys := bitTys }

/-- Number of barriers of a level (R369). -/
def barCount : Scope → Nat
  | .team => 16
  | .core => 16
  | .cluster => 8
  | .device => 4
  | _ => 0

/-- Barrier forms (R370); where SCOPE names no level, only a negative number is wrong in itself. -/
def shBar (x : XOps) (d : DUse) : Shape :=
  { d := d, a := .litOnly, b := .any .w32, scopes := barScopes,
    bad := badIf (litOut x.a 0 (if barScopes.contains x.scope then (barCount x.scope : Int) - 1 else 63)) false }

/-- Engine operations that take one scratch block (R211, R445). -/
def shBlk (b : SUse) (tys : List Ty) : Shape :=
  { d := .r1, a := .any .w32, b := b, tys := tys, trk := true }

/-- Types of the atomic operations (R194). -/
def AtomOp.tys : AtomOp → List Ty
  | .add => [.s32, .n32, .s64, .n64, .f32, .f64]
  | .min | .max => [.s32, .n32, .s64, .n64, .f32]
  | .and | .or | .xor | .exch | .cas => [.b32, .b64]
  | .inc | .dec => [.n32]
  | .mul => [.s32, .n32, .f32]
  | .fma => [.f32]

/-- Whether an atomic operation reads source 2 (R193). -/
def AtomOp.usesC : AtomOp → Bool
  | .cas | .fma => true
  | _ => false

/-- Operations that ATOM and ATOMS accept (R82). -/
def AtomOp.okAtom : AtomOp → Bool
  | .mul | .fma => false
  | _ => true

/-- Operations that RED accepts (R82). -/
def AtomOp.okRed : AtomOp → Bool
  | .exch | .cas | .mul | .fma => false
  | _ => true

/-- Operations that BANKOP accepts (R82). -/
def AtomOp.okBank : AtomOp → Bool
  | .inc | .dec => false
  | _ => true

/-- Atomic forms (R193). -/
def shAtom (op : AtomOp) (x : XOps) (d : DUse) (addr : SUse) (ok : Bool) : Shape :=
  { d := d, a := addr, b := .any x.ty.width, c := if op.usesC then .any x.ty.width else .none,
    tys := op.tys, scopes := wideScopes, trk := true, bad := badIf (!ok) true }

/-- The source element type that PCVT's ISRC field selects (R309): `none` where it is reserved. -/
def pcvtSrc (f : FSrc) (isrc : Nat) : Option Ty :=
  match isrc with
  | 0 => match f with
    | .f64 => none
    | .f32 => some .f32
    | .f16 => some .f16
    | .bf16 => some .bf16
    | .e4m3 => some .e4m3
    | .e5m2 => some .e5m2
    | .e3m2 => some .e3m2
    | .e2m3 => some .e2m3
    | .e2m1 => some .e2m1
    | .e8m0 => some .e8m0
  | 1 => some .s4
  | 2 => some .n4
  | 3 => some .s8
  | 4 => some .n8
  | 5 => some .s16
  | 6 => some .n16
  | _ => none

/-- Container width of an element held in a register (R310). -/
def Ty.container : Ty → Nat
  | .f64 | .s64 | .n64 | .b64 => 64
  | .f32 | .s32 | .n32 | .b32 => 32
  | .f16 | .bf16 | .s16 | .n16 => 16
  | .e2m1 | .s4 | .n4 => 4
  | _ => 8

def pcvtTys : List Ty :=
  [.f32, .f16, .bf16, .e4m3, .e5m2, .e3m2, .e2m3, .e2m1, .s4, .n4, .s8, .n8, .s16, .n16]

def Ty.isInt : Ty → Bool
  | .s4 | .s8 | .s16 | .s32 | .s64 | .n4 | .n8 | .n16 | .n32 | .n64 => true
  | _ => false

/-- The 7 bits of a field read as bits, not as a literal (R226, R249, R309). -/
def Src.bits : Src → Nat
  | .vec i | .uni i | .cst i | .lit i => i.toNat

/-- PCVT (R309, R310): the combinations that trap RESERVED_FIELD. -/
def pcvtBad (f : FSrc) (x : XOps) : Option Bool :=
  let ovf := badIf (x.ovf && (x.ty.isInt || x.ty == .e3m2 || x.ty == .e2m3 || x.ty == .e2m1)) true
  match x.b with
  | .lit i =>
    let isrc := i.toNat / 8
    let pos := i.toNat % 8
    match pcvtSrc f isrc with
    | none => badIf true (isrc == 0)
    | some st =>
      let ns := 32 / st.container
      let nd := 32 / x.ty.container
      let m := min ns nd
      badOr (badIf (pos % m != 0 || max ns nd ≤ pos) false)
        (badOr (badIf (isrc != 0 && f != .f64) true)
          ovf)
  | _ => ovf

/-- Whether PCVT reads source 2: the narrowing direction (R310). DESIGN CHOICE (log 120): the index bits of source 1 are read as
ISRC here also where its kind is not 0b11, which traps OPERAND_KIND after this check. -/
def pcvtNarrows (f : FSrc) (x : XOps) : Bool :=
  match pcvtSrc f (x.b.bits / 8) with
  | some st => decide (32 / st.container < 32 / x.ty.container)
  | none => false

def IcvtDir.toInt : IcvtDir → Bool
  | .fromF64 | .fromF32 | .fromF16 | .fromBf16 => true
  | _ => false

/-- Type of the source of ICVT (R80). -/
def IcvtDir.srcTy : IcvtDir → Ty
  | .fromS8 => .s8
  | .fromS16 => .s16
  | .fromS32 => .s32
  | .fromS64 => .s64
  | .fromN8 => .n8
  | .fromN16 => .n16
  | .fromN32 => .n32
  | .fromN64 => .n64
  | .fromF64 => .f64
  | .fromF32 => .f32
  | .fromF16 => .f16
  | .fromBf16 => .bf16

def FSrc.ty : FSrc → Ty
  | .f64 => .f64
  | .f32 => .f32
  | .f16 => .f16
  | .bf16 => .bf16
  | .e4m3 => .e4m3
  | .e5m2 => .e5m2
  | .e3m2 => .e3m2
  | .e2m3 => .e2m3
  | .e2m1 => .e2m1
  | .e8m0 => .e8m0

/-- Width of the data of a format-M access (R43). -/
def Size.width : Size → Width
  | .b64 => .w64
  | .b128 => .w128
  | _ => .w32

/-- The fields a format-A, -B, -L or -X form uses (R34), from the table of its chapter. Format M and
the steps without an encoding have the empty shape; format M is checked by `mBad`. -/
def Instr.shape : Instr → Shape
  | .iaddA _ | .isubA _ | .imulA _ | .andA _ | .orA _ | .xorA _ | .iminA _ | .imaxA _ | .faddA _
  | .fsubA _ | .fmulA _ | .fminA _ | .fmaxA _ => { d := .r1, a := .any .w32, b := .any .w32 }
  | .iaddS64A _ => { d := .r2, a := .any .w64, b := .any .w64 }
  | .iaddB _ | .shlB _ | .shrB _ | .shaB _ | .iaddL _ | .andL _ | .faddL _ | .fmulL _ =>
    { d := .r1, a := .any .w32 }
  | .mov _ | .movUniform _ => { d := .r1, a := .any .w32 }
  | .movi _ _ => { d := .r1 }
  | .iaddX _ x | .isubX _ x | .imulX _ x => shInt x .none true
  | .imulh _ x | .irem _ x | .iminX _ x | .imaxX _ x => shInt x .none false
  | .imad _ x => shInt x (.any x.ty.width) true
  | .idiv _ x => shInt x .none true
  | .iabs _ x | .ineg _ x => { d := x.ty.dUse, a := .any x.ty.width, tys := [.s32, .s64], ovf := true }
  | .iaddc _ _ => { d := .r2, a := .any .w32, b := .any .w32, c := .any .w32, tys := [.n32] }
  | .isat _ _ => { d := .r1, a := .any .w32, tys := [.s4, .n4, .s8, .n8, .s16, .n16, .n32] }
  | .lea _ x =>
    { d := .r2, a := .regs .w64, b := .any .w32, c := .litOnly, tys := [.s32, .n32],
      bad := badIf (litOut x.c 0 7) true }
  | .andX _ x | .orX _ x | .xorX _ x | .andn _ x => shBit2 x
  | .not _ x | .brev _ x => { d := x.ty.dUse, a := .any x.ty.width, tys := bitTys }
  | .shlX _ x | .shrX _ x | .shaX _ x | .rotl _ x => shShift x bitTys
  | .bfx _ x => shShift x intTys
  | .bfi _ x | .sel _ x => { shBit2 x with c := .any .w32 }
  | .popc _ x | .clz _ x | .ctz _ x => shCount x
  | .iset _ _ x => { d := .r1, a := .any x.ty.width, b := .any x.ty.width, tys := intTys }
  | .icmp _ x => { d := .pr, a := .any x.ty.width, b := .any x.ty.width, tys := intTys }
  | .faddX _ x | .fsubX _ x | .fmulX _ x | .fdiv _ x => shFp2 x true
  | .ffma _ x => { shFp2 x true with c := .any x.ty.width }
  | .fminX _ x | .fmaxX _ x | .fsgnCpy _ x | .fsgnNeg _ x | .fsgnXor _ x => shFp2 x false
  | .fscale _ x => { shFp2 x true with b := .any .w32 }
  | .frnd _ x => shFp1 x true fpTys
  | .fsat _ x => shFp1 x false fpTys
  | .frcp _ x | .frsq _ x | .fsqrt _ x => shFp1 x true fpTys
  | .fexp2 _ x | .flog2 _ x | .fsin _ x | .fcos _ x | .ftanh _ x => shFp1 x true [.f32]
  | .frexp _ x => { d := .r2, a := .any x.ty.width, tys := [.f32, .f16, .bf16] }
  | .fclass _ x => { d := .r1, a := .any x.ty.width, tys := fpTys }
  | .fset _ _ x => { d := .r1, a := .any x.ty.width, b := .any x.ty.width, tys := fpTys }
  | .fsetPred _ x => { d := .pr, a := .any x.ty.width, b := .any x.ty.width, tys := fpTys }
  | .fcvt f x =>
    { d := x.ty.dUse, a := .any f.ty.width, tys := fpTys ++ mxTys, rnd := true, ovf := true,
      bad := badIf (x.ovf && (x.ty == .e3m2 || x.ty == .e2m3 || x.ty == .e2m1)) true }
  | .icvt d x =>
    { d := x.ty.dUse, a := .any d.srcTy.width, rnd := true,
      tys := if d.toInt then [.s8, .s16, .s32, .s64, .n8, .n16, .n32, .n64] else fpTys }
  | .dot2 x =>
    { d := .r1, a := .any .w32, b := .any .w32, c := .any .w32, tys := [.f16, .bf16, .s16, .n16],
      ovf := x.ty.isInt }
  | .dot4 x =>
    { d := .r1, a := .any .w32, b := .any .w32, c := .any .w32,
      tys := [.e4m3, .e5m2, .e3m2, .e2m3, .s8, .n8], ovf := x.ty.isInt }
  | .dot8 x =>
    { d := .r1, a := .any .w32, b := .any .w32, c := .any .w32, tys := [.e2m1, .s4, .n4],
      ovf := x.ty.isInt }
  | .padd x | .pmul x =>
    { d := .r1, a := .any .w32, b := .any .w32, tys := [.f16, .bf16, .s16, .n16, .s8, .n8],
      rnd := !x.ty.isInt, ovf := x.ty.isInt }
  | .pfma x =>
    { d := .r1, a := .any .w32, b := .any .w32, c := .any .w32,
      tys := [.f16, .bf16, .s16, .n16, .s8, .n8], rnd := !x.ty.isInt, ovf := x.ty.isInt }
  | .pcvt f x =>
    { d := .r1, a := .any .w32, b := .litOnly, c := if pcvtNarrows f x then .any .w32 else .none,
      tys := pcvtTys, rnd := true, ovf := true, bad := pcvtBad f x }
  | .qnt _ => { d := .r1, a := .any .w32, b := .any .w32, tys := mxTys }
  | .dqnt _ =>
    { d := .r1, a := .any .w32, b := .any .w32, c := .any .w32,
      tys := mxTys ++ [.s4, .n4, .s8, .n8, .s16, .n16], rnd := true }
  | .bscale _ => { d := .r1, a := .any .w32, tys := mxTys }
  | .movs _ x =>
    { d := if regIs64 x.b then .r2 else .r1, b := .litOnly, bad := badIf (litOut x.b 0 21) false }
  | .sets x =>
    { a := .any (if regIs64 x.b then .w64 else .w32), b := .litOnly,
      bad := badIf (litOut x.b 0 21) false }
  | .pick x | .rot x | .slide x | .swap x => shMove x
  | .spread _ x => shMove x
  | .pollAll u _ | .pollAny u _ => { d := if u then .r1 else .pr, a := .any .w32 }
  | .pollMask _ _ => { d := .r1, a := .any .w32 }
  | .first u _ => { d := if u then .r1 else .pr }
  | .peers _ x => { d := .r1, a := .any x.ty.width, tys := bitTys }
  | .splice _ => { d := .r1, a := .any .w32, b := .any .w32, c := .any .w32 }
  | .foldAdd _ _ | .foldMin _ _ | .foldMax _ _ => { d := .r1, a := .any .w32, tys := [.s32, .n32] }
  | .foldAnd _ _ | .foldOr _ _ => { d := .r1, a := .any .w32, tys := [.b32] }
  | .affLoop x =>
    { a := .uniLit .w32, b := .litOnly, c := .uniLit .w32, bad := badIf (litOut x.b 0 3) false }
  | .affLd _ =>
    { a := .uniOnly .w64, b := .litOnly, c := .uniLit .w32, tys := [.n8, .s8, .n16, .s16, .b32], trk := true }
  | .affSt _ =>
    { a := .uniOnly .w64, b := .litOnly, c := .uniLit .w32, tys := [.n8, .n16, .b32], trk := true }
  | .affFeed _ => { a := .any .w32 }
  | .atom op x => shAtom op x x.ty.dUse (.regs .w64) op.okAtom
  | .red op x => shAtom op x .none (.regs .w64) op.okRed
  | .atoms op x => shAtom op x x.ty.dUse (.regs .w32) op.okAtom
  | .bankop op x => shAtom op x x.ty.dUse (.regs .w64) op.okBank
  | .fence _ | .fenceRo _ => { scopes := allScopes }
  | .flushRange _ | .invRange _ | .cleanRange _ =>
    { d := .r1, a := .regs .w64, b := .regs .w64, scopes := allScopes, trk := true }
  | .waitmon _ => { scopes := wideScopes }
  | .resHint _ => { d := .r1, a := .regLit .w32, b := .regs .w64, c := .regs .w64 }
  | .resEvict _ => { d := .r1, a := .regLit .w32 }
  | .cbload x =>
    { a := .litOnly, b := .regs .w64, c := .any .w32, trk := true, bad := badIf (litOut x.a 0 7) false }
  | .cpyTile x | .cpyGath x | .cpyScat x | .cpyMcast x | .cpyFill x =>
    { shBlk .litOnly [.n8, .n16, .b32, .b64] with bad := badIf (litOut x.b 0 3) false }
  | .cpyQnt x => { shBlk .litOnly mxTys with bad := badIf (litOut x.b 0 3) false }
  | .qfence x =>
    { d := .r1, a := .litOnly, trk := true, bad := badIf (x.a == .lit 0) false }
  | .qwait x => { a := .litOnly, bad := badIf (x.a == .lit 0) false }
  | .viewReg _ => { d := .r1, a := .regs .w64, trk := true }
  | .viewDrop _ | .viewFence _ => { d := .r1, a := .any .w32, trk := true }
  | .viewStat _ => { d := .r1, a := .any .w32, b := .any .w32, trk := true }
  | .rmaPut _ | .rmaGet _ => shBlk .none []
  | .rmaAtom _ => shBlk .none [.n64, .b64]
  | .rmaWait _ => { a := .any .w32 }
  | .rmaKey x =>
    { d := .r1, a := .litOnly, b := .any .w32, c := if x.a == .lit 0 then .regs .w64 else .none,
      trk := true, bad := badIf (litOut x.a 0 2) false }
  | .mxWload _ | .mxIssue _ => { d := .r1, a := .any .w32, b := .any .w32, trk := true }
  | .mxTest _ | .mxProg _ | .mxAbort _ => { d := .r1, a := .any .w32 }
  | .accAlloc x => { d := .r1, a := .any .w32, b := .litOnly, bad := badIf (litOut x.b 0 1) false }
  | .accFree _ => { a := .any .w32 }
  | .accLd _ | .accSt _ =>
    { d := .r1, a := .any .w32, b := .regs .w64, c := .any .w32, tys := [.b32], trk := true }
  | .accZero _ => { d := .r1, a := .any .w32, trk := true }
  | .accCvt x =>
    { d := .r1, a := .any .w32, b := .regs .w64, c := .any .w32,
      tys := [.f16, .bf16, .e4m3, .e5m2, .e3m2, .e2m3, .e2m1], rnd := x.ty == .f16 || x.ty == .bf16,
      trk := true }
  | .spcCmp x =>
    { d := .r1, a := .any .w32, b := .litOnly,
      tys := [.e2m1, .e2m3, .e3m2, .e4m3, .e5m2, .bf16, .f16, .s4, .s8], trk := true,
      bad := badIf (litOut x.b 1 2) false }
  | .spcMeta x =>
    { d := if x.ty == .b64 && x.b == .lit 1 then .r2 else .r1,
      a := .any (if x.ty == .b64 && x.b != .lit 1 then .w64 else .w32), b := .litOnly, tys := bitTys,
      bad := badIf (litOut x.b 0 1) false }
  | .bra _ | .call _ | .ret => {}
  | .brx _ => { a := .regs .w64, b := .any .w32, c := .any .w32 }
  | .callx _ => { a := .regs .w64 }
  | .rjoinSet x | .rjoinWait x | .rjoinLeave x =>
    { a := .litOnly, bad := badIf (litOut x.a 0 15) false }
  | .yield _ | .exit _ | .nop _ => {}
  | .sleep _ => { a := .any .w32 }
  | .migrate _ => { a := .regs .w64 }
  | .launch _ => { d := .r1, a := .regs .w64, trk := true }
  | .barArrive x => shBar x .r1
  | .barWait x | .barSync x => shBar x .none
  | .tokenWait _ => { d := .r4, a := .any .w32 }
  | .tokenTest _ => { d := .r1, a := .any .w32 }
  | .ship n _ =>
    { d := .r4, a := .regs .w64, b := .regs .w64, c := if n == 0 then .none else .range n.toNat,
      bad := badIf (n == 7) true }
  | .shipA n _ =>
    { d := .r1, a := .regs .w64, b := .regs .w64, c := if n == 0 then .none else .range n.toNat,
      trk := true, bad := badIf (n == 7) true }
  | .sentry _ | .sret _ => {}
  | .futLd _ => { d := .r2, a := .regs .w64 }
  | .futSt _ => { d := .r1, a := .regs .w64, b := .any .w64, trk := true }
  | .phaseEnd _ | .quiet _ => {}
  | .flareSend _ => { d := .r1, a := .any .w32, b := .any .w32, c := .regLit .w64, trk := true }
  | .flareRet _ => {}
  | .flareMask x => { d := .r2, a := .regs .w64, b := .litOnly, bad := badIf (litOut x.b 0 2) false }
  | .flareRead _ | .flareAck _ => { d := .r4, a := .any .w32 }
  | .trap _ | .bkpt _ => { a := .any .w32 }
  | .tret _ => {}
  | .svc _ => { d := .r4, a := .regs .w64, b := .any .w32, c := .vecOnly .w128 }
  | .ctxSave _ | .ctxLoad _ => { d := .r1, a := .any .w32, b := .regs .w64, c := .regs .w64 }
  | .asidRetire x =>
    { d := .r1, a := .regs .w32, b := .litOnly, bad := badIf (litOut x.b 0 1) false }
  | .tlbProbe x =>
    { d := .r2, a := .regs .w64, b := .litOnly, c := .regs .w64, bad := badIf (litOut x.b 0 2) false }
  | .pageScan _ => { d := .r1, a := .regs .w32, b := .regs .w64, c := .regs .w64 }
  | .mboxTake _ => { d := .r1, a := .regs .w64 }
  | .mboxPut x =>
    { d := .r1, a := .any .w32, b := .litOnly, c := .vecOnly .w128, bad := badIf (litOut x.b 0 2) false }
  | .halt _ => {}
  | _ => {}
where
  /-- Whether the system register that a literal names is 64 bits wide (R81). -/
  regIs64 (s : Src) : Bool :=
    match s with
    | .lit i => [0, 4, 5, 6, 9, 10, 11, 16, 17, 18, 20, 21].contains i.toNat
    | _ => false

end Sys2Proof
end

