-- ==== Sys2Proof/WellFormed.lean ====
section
/-! DEFINITION. Well-formed instructions: check 4 of R58, that every unused field is zero and every modifier
has a value its form lists (R34, R38, R39, R41, R43, R188), as one function on the syntax. -/

namespace Sys2Proof

/-- A source field that an unused position must hold (R34). -/
def Src.isZero : Src → Bool
  | .vec i => i == 0
  | _ => false

def SUse.used : SUse → Bool
  | .none => false
  | _ => true

def DUse.used : DUse → Bool
  | .none => false
  | _ => true

/-- Fields of word 0 that format A and X share. -/
def Shape.badWord0 (sh : Shape) (dst : BitVec 7) (a b : Src) : Bool :=
  (!sh.d.used && dst != 0) || (!sh.a.used && !a.isZero) || (!sh.b.used && !b.isZero)

/-- Fields of word 1 of format X (R37, R38). -/
def Shape.badWord1 (sh : Shape) (x : XOps) : Bool :=
  (!sh.c.used && !x.c.isZero) || (!sh.trk && (x.la != 0 || x.dc != 0)) ||
    (if sh.tys.isEmpty then x.ty != .s4 else !sh.tys.contains x.ty) ||
    (!sh.rnd && x.rnd != .rne) || (!sh.ovf && x.ovf) ||
    (if sh.scopes.isEmpty then x.scope != .thread else !sh.scopes.contains x.scope)

/-- Check 4 on a format-X instruction: `some false` names word 0, `some true` word 1.  Where both words
break the rule the first is reported, DEDUCED from the order of the words (log 12). -/
def Shape.xError (sh : Shape) (x : XOps) : Option Bool :=
  badOr (badIf (sh.badWord0 x.dst x.a x.b) false) (badOr (badIf (sh.badWord1 x) true) sh.bad)

/-- SIZE, HINT and SCOPE columns of the format-M forms (R188, R192, R202). -/
def MOps.bad (opc : Nat) (m : MOps) : Option Bool :=
  match opc with
  | 0x3E | 0x3F => badIf (m.size == .packed && 2 ≤ m.hint.toNat) true
  | 0x40 => badIf (m.size == .packed || m.scope != .thread) true
  | 0x41 | 0x42 => badIf (m.size == .packed || m.hint != 0) true
  | 0x49 => badOr (badIf (m.data != 0) false)
      (badIf ((m.size != .n8 && m.size != .s8) || m.scope != .thread) true)
  | _ => badIf (m.size == .packed || m.size == .b128) true

/-- Check 4 of R58 on an instruction. -/
def Instr.fieldError (i : Instr) : Option Bool :=
  match i with
  | .iaddA o => badIf (i.shape.badWord0 o.dst o.a o.b) false
  | .isubA o => badIf (i.shape.badWord0 o.dst o.a o.b) false
  | .imulA o => badIf (i.shape.badWord0 o.dst o.a o.b) false
  | .andA o => badIf (i.shape.badWord0 o.dst o.a o.b) false
  | .orA o => badIf (i.shape.badWord0 o.dst o.a o.b) false
  | .xorA o => badIf (i.shape.badWord0 o.dst o.a o.b) false
  | .iminA o => badIf (i.shape.badWord0 o.dst o.a o.b) false
  | .imaxA o => badIf (i.shape.badWord0 o.dst o.a o.b) false
  | .iaddS64A o => badIf (i.shape.badWord0 o.dst o.a o.b) false
  | .faddA o => badIf (i.shape.badWord0 o.dst o.a o.b) false
  | .fsubA o => badIf (i.shape.badWord0 o.dst o.a o.b) false
  | .fmulA o => badIf (i.shape.badWord0 o.dst o.a o.b) false
  | .fminA o => badIf (i.shape.badWord0 o.dst o.a o.b) false
  | .fmaxA o => badIf (i.shape.badWord0 o.dst o.a o.b) false
  | .mov o => badIf (i.shape.badWord0 o.dst o.a o.b) false
  | .movUniform o => badIf (i.shape.badWord0 o.dst o.a o.b) false
  | .iaddB o => badIf (i.shape.badWord0 o.dst o.a (.vec 0)) false
  | .shlB o => badIf (i.shape.badWord0 o.dst o.a (.vec 0)) false
  | .shrB o => badIf (i.shape.badWord0 o.dst o.a (.vec 0)) false
  | .shaB o => badIf (i.shape.badWord0 o.dst o.a (.vec 0)) false
  | .iaddL o => badIf (i.shape.badWord0 o.dst o.a (.vec 0)) false
  | .andL o => badIf (i.shape.badWord0 o.dst o.a (.vec 0)) false
  | .faddL o => badIf (i.shape.badWord0 o.dst o.a (.vec 0)) false
  | .fmulL o => badIf (i.shape.badWord0 o.dst o.a (.vec 0)) false
  | .movi _ o => badIf (i.shape.badWord0 o.dst o.a (.vec 0)) false
  | .iaddX _ x => i.shape.xError x
  | .isubX _ x => i.shape.xError x
  | .imulX _ x => i.shape.xError x
  | .imulh _ x => i.shape.xError x
  | .imad _ x => i.shape.xError x
  | .idiv _ x => i.shape.xError x
  | .irem _ x => i.shape.xError x
  | .iminX _ x => i.shape.xError x
  | .imaxX _ x => i.shape.xError x
  | .iabs _ x => i.shape.xError x
  | .ineg _ x => i.shape.xError x
  | .iaddc _ x => i.shape.xError x
  | .isat _ x => i.shape.xError x
  | .lea _ x => i.shape.xError x
  | .andX _ x => i.shape.xError x
  | .orX _ x => i.shape.xError x
  | .xorX _ x => i.shape.xError x
  | .andn _ x => i.shape.xError x
  | .not _ x => i.shape.xError x
  | .shlX _ x => i.shape.xError x
  | .shrX _ x => i.shape.xError x
  | .shaX _ x => i.shape.xError x
  | .rotl _ x => i.shape.xError x
  | .bfx _ x => i.shape.xError x
  | .bfi _ x => i.shape.xError x
  | .popc _ x => i.shape.xError x
  | .clz _ x => i.shape.xError x
  | .ctz _ x => i.shape.xError x
  | .brev _ x => i.shape.xError x
  | .sel _ x => i.shape.xError x
  | .faddX _ x => i.shape.xError x
  | .fsubX _ x => i.shape.xError x
  | .fmulX _ x => i.shape.xError x
  | .ffma _ x => i.shape.xError x
  | .fminX _ x => i.shape.xError x
  | .fmaxX _ x => i.shape.xError x
  | .fdiv _ x => i.shape.xError x
  | .fscale _ x => i.shape.xError x
  | .frnd _ x => i.shape.xError x
  | .fsat _ x => i.shape.xError x
  | .fsgnCpy _ x => i.shape.xError x
  | .fsgnNeg _ x => i.shape.xError x
  | .fsgnXor _ x => i.shape.xError x
  | .frcp _ x => i.shape.xError x
  | .frsq _ x => i.shape.xError x
  | .fsqrt _ x => i.shape.xError x
  | .fexp2 _ x => i.shape.xError x
  | .flog2 _ x => i.shape.xError x
  | .fsin _ x => i.shape.xError x
  | .fcos _ x => i.shape.xError x
  | .ftanh _ x => i.shape.xError x
  | .frexp _ x => i.shape.xError x
  | .fclass _ x => i.shape.xError x
  | .iset _ _ x => i.shape.xError x
  | .icmp _ x => i.shape.xError x
  | .fset _ _ x => i.shape.xError x
  | .fsetPred _ x => i.shape.xError x
  | .fcvt _ x => i.shape.xError x
  | .icvt _ x => i.shape.xError x
  | .pcvt _ x => i.shape.xError x
  | .dot2 x => i.shape.xError x
  | .dot4 x => i.shape.xError x
  | .dot8 x => i.shape.xError x
  | .padd x => i.shape.xError x
  | .pmul x => i.shape.xError x
  | .pfma x => i.shape.xError x
  | .qnt x => i.shape.xError x
  | .dqnt x => i.shape.xError x
  | .bscale x => i.shape.xError x
  | .movs _ x => i.shape.xError x
  | .sets x => i.shape.xError x
  | .pick x => i.shape.xError x
  | .rot x => i.shape.xError x
  | .slide x => i.shape.xError x
  | .swap x => i.shape.xError x
  | .splice x => i.shape.xError x
  | .pollAll _ x => i.shape.xError x
  | .pollAny _ x => i.shape.xError x
  | .pollMask _ x => i.shape.xError x
  | .first _ x => i.shape.xError x
  | .spread _ x => i.shape.xError x
  | .peers _ x => i.shape.xError x
  | .foldAdd _ x => i.shape.xError x
  | .foldMin _ x => i.shape.xError x
  | .foldMax _ x => i.shape.xError x
  | .foldAnd _ x => i.shape.xError x
  | .foldOr _ x => i.shape.xError x
  | .affLoop x => i.shape.xError x
  | .affLd x => i.shape.xError x
  | .affSt x => i.shape.xError x
  | .affFeed x => i.shape.xError x
  | .ld m => m.bad 0x3E
  | .st m => m.bad 0x3F
  | .ldro m => m.bad 0x40
  | .lds m => m.bad 0x41
  | .sts m => m.bad 0x42
  | .pref m => m.bad 0x49
  | .ldmon m => m.bad 0x4A
  | .atom _ x => i.shape.xError x
  | .red _ x => i.shape.xError x
  | .atoms _ x => i.shape.xError x
  | .bankop _ x => i.shape.xError x
  | .fence x => i.shape.xError x
  | .fenceRo x => i.shape.xError x
  | .flushRange x => i.shape.xError x
  | .invRange x => i.shape.xError x
  | .cleanRange x => i.shape.xError x
  | .waitmon x => i.shape.xError x
  | .resHint x => i.shape.xError x
  | .resEvict x => i.shape.xError x
  | .cbload x => i.shape.xError x
  | .cpyTile x => i.shape.xError x
  | .cpyGath x => i.shape.xError x
  | .cpyScat x => i.shape.xError x
  | .cpyMcast x => i.shape.xError x
  | .cpyQnt x => i.shape.xError x
  | .cpyFill x => i.shape.xError x
  | .qfence x => i.shape.xError x
  | .qwait x => i.shape.xError x
  | .viewReg x => i.shape.xError x
  | .viewDrop x => i.shape.xError x
  | .viewFence x => i.shape.xError x
  | .viewStat x => i.shape.xError x
  | .rmaPut x => i.shape.xError x
  | .rmaGet x => i.shape.xError x
  | .rmaAtom x => i.shape.xError x
  | .rmaWait x => i.shape.xError x
  | .rmaKey x => i.shape.xError x
  | .mxWload x => i.shape.xError x
  | .mxIssue x => i.shape.xError x
  | .mxTest x => i.shape.xError x
  | .mxProg x => i.shape.xError x
  | .mxAbort x => i.shape.xError x
  | .accAlloc x => i.shape.xError x
  | .accFree x => i.shape.xError x
  | .accLd x => i.shape.xError x
  | .accSt x => i.shape.xError x
  | .accZero x => i.shape.xError x
  | .accCvt x => i.shape.xError x
  | .spcCmp x => i.shape.xError x
  | .spcMeta x => i.shape.xError x
  | .bra _ => none
  | .call _ => none
  | .ret => none
  | .brx x => i.shape.xError x
  | .callx x => i.shape.xError x
  | .rjoinSet x => i.shape.xError x
  | .rjoinWait x => i.shape.xError x
  | .rjoinLeave x => i.shape.xError x
  | .yield x => i.shape.xError x
  | .exit x => i.shape.xError x
  | .nop x => i.shape.xError x
  | .sleep x => i.shape.xError x
  | .migrate x => i.shape.xError x
  | .launch x => i.shape.xError x
  | .barArrive x => i.shape.xError x
  | .barWait x => i.shape.xError x
  | .barSync x => i.shape.xError x
  | .tokenWait x => i.shape.xError x
  | .tokenTest x => i.shape.xError x
  | .ship _ x => i.shape.xError x
  | .shipA _ x => i.shape.xError x
  | .sentry x => i.shape.xError x
  | .sret x => i.shape.xError x
  | .futLd x => i.shape.xError x
  | .futSt x => i.shape.xError x
  | .phaseEnd x => i.shape.xError x
  | .quiet x => i.shape.xError x
  | .flareSend x => i.shape.xError x
  | .flareRet x => i.shape.xError x
  | .flareMask x => i.shape.xError x
  | .flareRead x => i.shape.xError x
  | .flareAck x => i.shape.xError x
  | .trap x => i.shape.xError x
  | .tret x => i.shape.xError x
  | .svc x => i.shape.xError x
  | .bkpt x => i.shape.xError x
  | .ctxSave x => i.shape.xError x
  | .ctxLoad x => i.shape.xError x
  | .asidRetire x => i.shape.xError x
  | .tlbProbe x => i.shape.xError x
  | .pageScan x => i.shape.xError x
  | .mboxTake x => i.shape.xError x
  | .mboxPut x => i.shape.xError x
  | .halt x => i.shape.xError x
  | _ => none

/-- A well-formed instruction: check 4 of R58 passes. A step without an encoding is well formed. -/
def Instr.wf (i : Instr) : Bool := i.fieldError == none

/-- Whether the row is an instruction of Voxec, with an encoding (R34). -/
def Instr.encoded (i : Instr) : Bool :=
  match i with
  | .iaddA _ => true
  | .isubA _ => true
  | .imulA _ => true
  | .andA _ => true
  | .orA _ => true
  | .xorA _ => true
  | .iminA _ => true
  | .imaxA _ => true
  | .iaddS64A _ => true
  | .faddA _ => true
  | .fsubA _ => true
  | .fmulA _ => true
  | .fminA _ => true
  | .fmaxA _ => true
  | .mov _ => true
  | .movUniform _ => true
  | .iaddB _ => true
  | .shlB _ => true
  | .shrB _ => true
  | .shaB _ => true
  | .iaddL _ => true
  | .andL _ => true
  | .faddL _ => true
  | .fmulL _ => true
  | .movi _ _ => true
  | .iaddX _ _ => true
  | .isubX _ _ => true
  | .imulX _ _ => true
  | .imulh _ _ => true
  | .imad _ _ => true
  | .idiv _ _ => true
  | .irem _ _ => true
  | .iminX _ _ => true
  | .imaxX _ _ => true
  | .iabs _ _ => true
  | .ineg _ _ => true
  | .iaddc _ _ => true
  | .isat _ _ => true
  | .lea _ _ => true
  | .andX _ _ => true
  | .orX _ _ => true
  | .xorX _ _ => true
  | .andn _ _ => true
  | .not _ _ => true
  | .shlX _ _ => true
  | .shrX _ _ => true
  | .shaX _ _ => true
  | .rotl _ _ => true
  | .bfx _ _ => true
  | .bfi _ _ => true
  | .popc _ _ => true
  | .clz _ _ => true
  | .ctz _ _ => true
  | .brev _ _ => true
  | .sel _ _ => true
  | .faddX _ _ => true
  | .fsubX _ _ => true
  | .fmulX _ _ => true
  | .ffma _ _ => true
  | .fminX _ _ => true
  | .fmaxX _ _ => true
  | .fdiv _ _ => true
  | .fscale _ _ => true
  | .frnd _ _ => true
  | .fsat _ _ => true
  | .fsgnCpy _ _ => true
  | .fsgnNeg _ _ => true
  | .fsgnXor _ _ => true
  | .frcp _ _ => true
  | .frsq _ _ => true
  | .fsqrt _ _ => true
  | .fexp2 _ _ => true
  | .flog2 _ _ => true
  | .fsin _ _ => true
  | .fcos _ _ => true
  | .ftanh _ _ => true
  | .frexp _ _ => true
  | .fclass _ _ => true
  | .iset _ _ _ => true
  | .icmp _ _ => true
  | .fset _ _ _ => true
  | .fsetPred _ _ => true
  | .fcvt _ _ => true
  | .icvt _ _ => true
  | .pcvt _ _ => true
  | .dot2 _ => true
  | .dot4 _ => true
  | .dot8 _ => true
  | .padd _ => true
  | .pmul _ => true
  | .pfma _ => true
  | .qnt _ => true
  | .dqnt _ => true
  | .bscale _ => true
  | .movs _ _ => true
  | .sets _ => true
  | .pick _ => true
  | .rot _ => true
  | .slide _ => true
  | .swap _ => true
  | .splice _ => true
  | .pollAll _ _ => true
  | .pollAny _ _ => true
  | .pollMask _ _ => true
  | .first _ _ => true
  | .spread _ _ => true
  | .peers _ _ => true
  | .foldAdd _ _ => true
  | .foldMin _ _ => true
  | .foldMax _ _ => true
  | .foldAnd _ _ => true
  | .foldOr _ _ => true
  | .affLoop _ => true
  | .affLd _ => true
  | .affSt _ => true
  | .affFeed _ => true
  | .ld _ => true
  | .st _ => true
  | .ldro _ => true
  | .lds _ => true
  | .sts _ => true
  | .pref _ => true
  | .ldmon _ => true
  | .atom _ _ => true
  | .red _ _ => true
  | .atoms _ _ => true
  | .bankop _ _ => true
  | .fence _ => true
  | .fenceRo _ => true
  | .flushRange _ => true
  | .invRange _ => true
  | .cleanRange _ => true
  | .waitmon _ => true
  | .resHint _ => true
  | .resEvict _ => true
  | .cbload _ => true
  | .cpyTile _ => true
  | .cpyGath _ => true
  | .cpyScat _ => true
  | .cpyMcast _ => true
  | .cpyQnt _ => true
  | .cpyFill _ => true
  | .qfence _ => true
  | .qwait _ => true
  | .viewReg _ => true
  | .viewDrop _ => true
  | .viewFence _ => true
  | .viewStat _ => true
  | .rmaPut _ => true
  | .rmaGet _ => true
  | .rmaAtom _ => true
  | .rmaWait _ => true
  | .rmaKey _ => true
  | .mxWload _ => true
  | .mxIssue _ => true
  | .mxTest _ => true
  | .mxProg _ => true
  | .mxAbort _ => true
  | .accAlloc _ => true
  | .accFree _ => true
  | .accLd _ => true
  | .accSt _ => true
  | .accZero _ => true
  | .accCvt _ => true
  | .spcCmp _ => true
  | .spcMeta _ => true
  | .bra _ => true
  | .call _ => true
  | .ret => true
  | .brx _ => true
  | .callx _ => true
  | .rjoinSet _ => true
  | .rjoinWait _ => true
  | .rjoinLeave _ => true
  | .yield _ => true
  | .exit _ => true
  | .nop _ => true
  | .sleep _ => true
  | .migrate _ => true
  | .launch _ => true
  | .barArrive _ => true
  | .barWait _ => true
  | .barSync _ => true
  | .tokenWait _ => true
  | .tokenTest _ => true
  | .ship _ _ => true
  | .shipA _ _ => true
  | .sentry _ => true
  | .sret _ => true
  | .futLd _ => true
  | .futSt _ => true
  | .phaseEnd _ => true
  | .quiet _ => true
  | .flareSend _ => true
  | .flareRet _ => true
  | .flareMask _ => true
  | .flareRead _ => true
  | .flareAck _ => true
  | .trap _ => true
  | .tret _ => true
  | .svc _ => true
  | .bkpt _ => true
  | .ctxSave _ => true
  | .ctxLoad _ => true
  | .asidRetire _ => true
  | .tlbProbe _ => true
  | .pageScan _ => true
  | .mboxTake _ => true
  | .mboxPut _ => true
  | .halt _ => true
  | _ => false

end Sys2Proof
end

