-- ==== Sys2Proof/Decode.lean ====
section
/-! DEFINITION. Decoding of instruction words (R25, R34 to R43, R67 to R86), total on any bytes, and the
encoder written from the same tables.  Fields are taken from the words as numbers, so that decoding and
encoding are arithmetic. -/

namespace Sys2Proof

/-- Why a word sequence is not an instruction: the opcode is unassigned (R86), a field breaks check 4 of
R58 in word 0 or in word 1, or the bytes end before the instruction does. -/
inductive Reject where
  | illegalOpcode
  | reserved (inWord1 : Bool)
  | truncated
  deriving DecidableEq, Repr

/-- Bits lo+len-1 : lo of a number (R2). -/
def fld (w lo len : Nat) : Nat := w / 2 ^ lo % 2 ^ len

/-- Type codes of R39. -/
def tyOfCode : Nat → Option Ty
  | 0 => some .s4
  | 1 => some .s8
  | 2 => some .s16
  | 3 => some .s32
  | 4 => some .s64
  | 5 => some .n4
  | 6 => some .n8
  | 7 => some .n16
  | 8 => some .n32
  | 9 => some .n64
  | 10 => some .b32
  | 11 => some .b64
  | 12 => some .f64
  | 13 => some .f32
  | 14 => some .f16
  | 15 => some .bf16
  | 16 => some .e4m3
  | 17 => some .e5m2
  | 18 => some .e3m2
  | 19 => some .e2m3
  | 20 => some .e2m1
  | 21 => some .e8m0
  | _ => none

/-- Type codes of R39. -/
def Ty.code : Ty → Nat
  | .s4 => 0
  | .s8 => 1
  | .s16 => 2
  | .s32 => 3
  | .s64 => 4
  | .n4 => 5
  | .n8 => 6
  | .n16 => 7
  | .n32 => 8
  | .n64 => 9
  | .b32 => 10
  | .b64 => 11
  | .f64 => 12
  | .f32 => 13
  | .f16 => 14
  | .bf16 => 15
  | .e4m3 => 16
  | .e5m2 => 17
  | .e3m2 => 18
  | .e2m3 => 19
  | .e2m1 => 20
  | .e8m0 => 21

/-- Scope codes of R6. -/
def scopeOfCode : Nat → Option Scope
  | 0 => some .thread
  | 1 => some .team
  | 2 => some .core
  | 3 => some .cluster
  | 4 => some .die
  | 5 => some .device
  | 6 => some .domain
  | 7 => some .system
  | _ => none

/-- Scope codes of R6. -/
def Scope.code : Scope → Nat
  | .thread => 0
  | .team => 1
  | .core => 2
  | .cluster => 3
  | .die => 4
  | .device => 5
  | .domain => 6
  | .system => 7

/-- Rounding codes of R40. -/
def rndOfCode : Nat → Option Rnd
  | 0 => some .rne
  | 1 => some .rtz
  | 2 => some .rdn
  | 3 => some .rup
  | _ => none

/-- Rounding codes of R40. -/
def Rnd.code : Rnd → Nat
  | .rne => 0
  | .rtz => 1
  | .rdn => 2
  | .rup => 3

/-- SIZE codes of R43. -/
def sizeOfCode : Nat → Option Size
  | 0 => some .n8
  | 1 => some .s8
  | 2 => some .n16
  | 3 => some .s16
  | 4 => some .b32
  | 5 => some .b64
  | 6 => some .b128
  | 7 => some .packed
  | _ => none

/-- SIZE codes of R43. -/
def Size.code : Size → Nat
  | .n8 => 0
  | .s8 => 1
  | .n16 => 2
  | .s16 => 3
  | .b32 => 4
  | .b64 => 5
  | .b128 => 6
  | .packed => 7

/-- Integer conditions of R78. -/
def iCondOfCode : Nat → Option ICond
  | 0 => some .eq
  | 1 => some .ne
  | 2 => some .lt
  | 3 => some .le
  | 4 => some .gt
  | 5 => some .ge
  | _ => none

/-- Integer conditions of R78. -/
def ICond.code : ICond → Nat
  | .eq => 0
  | .ne => 1
  | .lt => 2
  | .le => 3
  | .gt => 4
  | .ge => 5

/-- Floating-point conditions of R78. -/
def fCondOfCode : Nat → Option FCond
  | 0 => some .eq
  | 1 => some .ne
  | 2 => some .lt
  | 3 => some .le
  | 4 => some .gt
  | 5 => some .ge
  | 6 => some .ord
  | 7 => some .unord
  | 8 => some .equ
  | 9 => some .neu
  | 10 => some .ltu
  | 11 => some .leu
  | 12 => some .gtu
  | 13 => some .geu
  | _ => none

/-- Floating-point conditions of R78. -/
def FCond.code : FCond → Nat
  | .eq => 0
  | .ne => 1
  | .lt => 2
  | .le => 3
  | .gt => 4
  | .ge => 5
  | .ord => 6
  | .unord => 7
  | .equ => 8
  | .neu => 9
  | .ltu => 10
  | .leu => 11
  | .gtu => 12
  | .geu => 13

/-- Source codes of R79. -/
def fSrcOfCode : Nat → Option FSrc
  | 0 => some .f64
  | 1 => some .f32
  | 2 => some .f16
  | 3 => some .bf16
  | 4 => some .e4m3
  | 5 => some .e5m2
  | 6 => some .e3m2
  | 7 => some .e2m3
  | 8 => some .e2m1
  | 9 => some .e8m0
  | _ => none

/-- Source codes of R79. -/
def FSrc.code : FSrc → Nat
  | .f64 => 0
  | .f32 => 1
  | .f16 => 2
  | .bf16 => 3
  | .e4m3 => 4
  | .e5m2 => 5
  | .e3m2 => 6
  | .e2m3 => 7
  | .e2m1 => 8
  | .e8m0 => 9

/-- Direction and source codes of R80. -/
def icvtOfCode : Nat → Option IcvtDir
  | 0 => some .fromS8
  | 1 => some .fromS16
  | 2 => some .fromS32
  | 3 => some .fromS64
  | 4 => some .fromN8
  | 5 => some .fromN16
  | 6 => some .fromN32
  | 7 => some .fromN64
  | 8 => some .fromF64
  | 9 => some .fromF32
  | 10 => some .fromF16
  | 11 => some .fromBf16
  | _ => none

/-- Direction and source codes of R80. -/
def IcvtDir.code : IcvtDir → Nat
  | .fromS8 => 0
  | .fromS16 => 1
  | .fromS32 => 2
  | .fromS64 => 3
  | .fromN8 => 4
  | .fromN16 => 5
  | .fromN32 => 6
  | .fromN64 => 7
  | .fromF64 => 8
  | .fromF32 => 9
  | .fromF16 => 10
  | .fromBf16 => 11

/-- Operation codes of R82. -/
def atomOpOfCode : Nat → Option AtomOp
  | 0 => some .add
  | 1 => some .min
  | 2 => some .max
  | 3 => some .and
  | 4 => some .or
  | 5 => some .xor
  | 6 => some .exch
  | 7 => some .cas
  | 8 => some .inc
  | 9 => some .dec
  | 10 => some .mul
  | 11 => some .fma
  | _ => none

/-- Operation codes of R82. -/
def AtomOp.code : AtomOp → Nat
  | .add => 0
  | .min => 1
  | .max => 2
  | .and => 3
  | .or => 4
  | .xor => 5
  | .exch => 6
  | .cas => 7
  | .inc => 8
  | .dec => 9
  | .mul => 10
  | .fma => 11

/-- Kind and index of a source (R45): two bits of kind above seven of index. -/
def srcOfCode (c : Nat) : Src :=
  match c / 128 % 4 with
  | 0 => .vec (BitVec.ofNat 7 c)
  | 1 => .uni (BitVec.ofNat 7 c)
  | 2 => .cst (BitVec.ofNat 7 c)
  | _ => .lit (BitVec.ofNat 7 c)

def Src.code : Src → Nat
  | .vec i => i.toNat
  | .uni i => 128 + i.toNat
  | .cst i => 256 + i.toNat
  | .lit i => 384 + i.toNat

/-- Format A (R35). -/
def aOps (w0 : Nat) : AOps :=
  { dst := BitVec.ofNat 7 (fld w0 18 7), a := srcOfCode (fld w0 9 9), b := srcOfCode (fld w0 0 9) }

/-- Format B (R36). -/
def bOps (w0 : Nat) : BOps :=
  { dst := BitVec.ofNat 7 (fld w0 18 7), a := srcOfCode (fld w0 9 9), imm := BitVec.ofNat 9 (fld w0 0 9) }

/-- Format L (R41), whose bits 8:0 are zero. -/
def lOps (w0 w1 : Nat) : LOps :=
  { dst := BitVec.ofNat 7 (fld w0 18 7), a := srcOfCode (fld w0 9 9), lit := BitVec.ofNat 32 w1 }

/-- BRA and CALL (R84). -/
def brOps (w0 w1 : Nat) : BrOps :=
  { pred := BitVec.ofNat 3 (fld w0 22 3), pneg := fld w0 21 1 == 1, lit := BitVec.ofNat 32 w1 }

/-- Format X with MOD layout F (R37, R38): `none` where TYPE is a reserved code. -/
def xOpsF (w0 w1 : Nat) : Option XOps := do
  let ty ← tyOfCode (fld w1 7 5)
  let rnd ← rndOfCode (fld w1 5 2)
  some { dst := BitVec.ofNat 7 (fld w0 18 7), a := srcOfCode (fld w0 9 9), b := srcOfCode (fld w0 0 9),
         c := srcOfCode (fld w1 23 9), pred := BitVec.ofNat 3 (fld w1 20 3), pneg := fld w1 19 1 == 1,
         la := BitVec.ofNat 4 (fld w1 15 4), dc := BitVec.ofNat 3 (fld w1 12 3), ty := ty, rnd := rnd,
         ovf := fld w1 4 1 == 1, scope := .thread }

/-- Format X with MOD layout S (R37, R38). -/
def xOpsS (w0 w1 : Nat) : Option XOps := do
  let ty ← tyOfCode (fld w1 7 5)
  let scope ← scopeOfCode (fld w1 4 3)
  some { dst := BitVec.ofNat 7 (fld w0 18 7), a := srcOfCode (fld w0 9 9), b := srcOfCode (fld w0 0 9),
         c := srcOfCode (fld w1 23 9), pred := BitVec.ofNat 3 (fld w1 20 3), pneg := fld w1 19 1 == 1,
         la := BitVec.ofNat 4 (fld w1 15 4), dc := BitVec.ofNat 3 (fld w1 12 3), ty := ty, rnd := .rne,
         ovf := false, scope := scope }

/-- Format M (R42). -/
def mOps (w0 w1 : Nat) : Option MOps := do
  let scope ← scopeOfCode (fld w1 5 3)
  let size ← sizeOfCode (fld w1 2 3)
  some { data := BitVec.ofNat 7 (fld w0 18 7), bk := fld w0 17 1 == 1, bp := BitVec.ofNat 6 (fld w0 11 6),
         off := BitVec.ofNat 24 (fld w0 0 11 * 2 ^ 13 + fld w1 19 13),
         pred := BitVec.ofNat 3 (fld w1 16 3), pneg := fld w1 15 1 == 1, la := BitVec.ofNat 4 (fld w1 11 4),
         dc := BitVec.ofNat 3 (fld w1 8 3), scope := scope, size := size, hint := BitVec.ofNat 2 (fld w1 0 2) }

/-- Sub-operation of an X opcode whose SUB names the form (R71 to R77, R83, R85): `none` where it is reserved. -/
def xForm (opc sub : Nat) (x : XOps) : Option Instr :=
  match opc with
  | 0x10 =>
    match sub with
    | 0 => some (.iaddX false x)
    | 1 => some (.isubX false x)
    | 2 => some (.imulX false x)
    | 3 => some (.imulh false x)
    | 4 => some (.imad false x)
    | 5 => some (.idiv false x)
    | 6 => some (.irem false x)
    | 7 => some (.iminX false x)
    | 8 => some (.imaxX false x)
    | 9 => some (.iabs false x)
    | 10 => some (.ineg false x)
    | 11 => some (.iaddc false x)
    | 12 => some (.isat false x)
    | 13 => some (.lea false x)
    | _ => none
  | 0x11 =>
    match sub with
    | 0 => some (.iaddX true x)
    | 1 => some (.isubX true x)
    | 2 => some (.imulX true x)
    | 3 => some (.imulh true x)
    | 4 => some (.imad true x)
    | 5 => some (.idiv true x)
    | 6 => some (.irem true x)
    | 7 => some (.iminX true x)
    | 8 => some (.imaxX true x)
    | 9 => some (.iabs true x)
    | 10 => some (.ineg true x)
    | 11 => some (.iaddc true x)
    | 12 => some (.isat true x)
    | 13 => some (.lea true x)
    | _ => none
  | 0x12 =>
    match sub with
    | 0 => some (.andX false x)
    | 1 => some (.orX false x)
    | 2 => some (.xorX false x)
    | 3 => some (.andn false x)
    | 4 => some (.not false x)
    | 5 => some (.shlX false x)
    | 6 => some (.shrX false x)
    | 7 => some (.shaX false x)
    | 8 => some (.rotl false x)
    | 9 => some (.bfx false x)
    | 10 => some (.bfi false x)
    | 11 => some (.popc false x)
    | 12 => some (.clz false x)
    | 13 => some (.ctz false x)
    | 14 => some (.brev false x)
    | 15 => some (.sel false x)
    | _ => none
  | 0x13 =>
    match sub with
    | 0 => some (.andX true x)
    | 1 => some (.orX true x)
    | 2 => some (.xorX true x)
    | 3 => some (.andn true x)
    | 4 => some (.not true x)
    | 5 => some (.shlX true x)
    | 6 => some (.shrX true x)
    | 7 => some (.shaX true x)
    | 8 => some (.rotl true x)
    | 9 => some (.bfx true x)
    | 10 => some (.bfi true x)
    | 11 => some (.popc true x)
    | 12 => some (.clz true x)
    | 13 => some (.ctz true x)
    | 14 => some (.brev true x)
    | 15 => some (.sel true x)
    | _ => none
  | 0x20 =>
    match sub with
    | 0 => some (.faddX false x)
    | 1 => some (.fsubX false x)
    | 2 => some (.fmulX false x)
    | 3 => some (.ffma false x)
    | 4 => some (.fminX false x)
    | 5 => some (.fmaxX false x)
    | 6 => some (.fdiv false x)
    | 7 => some (.fscale false x)
    | 8 => some (.frnd false x)
    | 9 => some (.fsat false x)
    | 10 => some (.fsgnCpy false x)
    | 11 => some (.fsgnNeg false x)
    | 12 => some (.fsgnXor false x)
    | _ => none
  | 0x21 =>
    match sub with
    | 0 => some (.faddX true x)
    | 1 => some (.fsubX true x)
    | 2 => some (.fmulX true x)
    | 3 => some (.ffma true x)
    | 4 => some (.fminX true x)
    | 5 => some (.fmaxX true x)
    | 6 => some (.fdiv true x)
    | 7 => some (.fscale true x)
    | 8 => some (.frnd true x)
    | 9 => some (.fsat true x)
    | 10 => some (.fsgnCpy true x)
    | 11 => some (.fsgnNeg true x)
    | 12 => some (.fsgnXor true x)
    | _ => none
  | 0x22 =>
    match sub with
    | 0 => some (.frcp false x)
    | 1 => some (.frsq false x)
    | 2 => some (.fsqrt false x)
    | 3 => some (.fexp2 false x)
    | 4 => some (.flog2 false x)
    | 5 => some (.fsin false x)
    | 6 => some (.fcos false x)
    | 7 => some (.ftanh false x)
    | 8 => some (.frexp false x)
    | 9 => some (.fclass false x)
    | _ => none
  | 0x23 =>
    match sub with
    | 0 => some (.frcp true x)
    | 1 => some (.frsq true x)
    | 2 => some (.fsqrt true x)
    | 3 => some (.fexp2 true x)
    | 4 => some (.flog2 true x)
    | 5 => some (.fsin true x)
    | 6 => some (.fcos true x)
    | 7 => some (.ftanh true x)
    | 8 => some (.frexp true x)
    | 9 => some (.fclass true x)
    | _ => none
  | 0x2C =>
    match sub with
    | 0 => some (.dot2 x)
    | 1 => some (.dot4 x)
    | 2 => some (.dot8 x)
    | _ => none
  | 0x2D =>
    match sub with
    | 0 => some (.padd x)
    | 1 => some (.pmul x)
    | 2 => some (.pfma x)
    | _ => none
  | 0x2F =>
    match sub with
    | 0 => some (.qnt x)
    | 1 => some (.dqnt x)
    | 2 => some (.bscale x)
    | _ => none
  | 0x38 =>
    match sub with
    | 0 => some (.movs false x)
    | _ => none
  | 0x39 =>
    match sub with
    | 0 => some (.movs true x)
    | _ => none
  | 0x3A =>
    match sub with
    | 0 => some (.pick x)
    | 1 => some (.rot x)
    | 2 => some (.slide x)
    | 3 => some (.swap x)
    | 4 => some (.pollAll false x)
    | 5 => some (.pollAny false x)
    | 6 => some (.pollMask false x)
    | 7 => some (.first false x)
    | 8 => some (.spread false x)
    | 9 => some (.peers false x)
    | 10 => some (.splice x)
    | 11 => some (.foldAdd false x)
    | 12 => some (.foldMin false x)
    | 13 => some (.foldMax false x)
    | 14 => some (.foldAnd false x)
    | 15 => some (.foldOr false x)
    | _ => none
  | 0x3B =>
    match sub with
    | 4 => some (.pollAll true x)
    | 5 => some (.pollAny true x)
    | 6 => some (.pollMask true x)
    | 7 => some (.first true x)
    | 8 => some (.spread true x)
    | 9 => some (.peers true x)
    | 11 => some (.foldAdd true x)
    | 12 => some (.foldMin true x)
    | 13 => some (.foldMax true x)
    | 14 => some (.foldAnd true x)
    | 15 => some (.foldOr true x)
    | _ => none
  | 0x3C =>
    match sub with
    | 0 => some (.sets x)
    | _ => none
  | 0x3D =>
    match sub with
    | 0 => some (.affLoop x)
    | 1 => some (.affLd x)
    | 2 => some (.affSt x)
    | 3 => some (.affFeed x)
    | _ => none
  | 0x47 =>
    match sub with
    | 0 => some (.fence x)
    | 1 => some (.fenceRo x)
    | _ => none
  | 0x48 =>
    match sub with
    | 0 => some (.flushRange x)
    | 1 => some (.invRange x)
    | 2 => some (.cleanRange x)
    | _ => none
  | 0x4B =>
    match sub with
    | 0 => some (.waitmon x)
    | _ => none
  | 0x4C =>
    match sub with
    | 0 => some (.resHint x)
    | 1 => some (.resEvict x)
    | _ => none
  | 0x4D =>
    match sub with
    | 0 => some (.cbload x)
    | _ => none
  | 0x50 =>
    match sub with
    | 0 => some (.cpyTile x)
    | 1 => some (.cpyGath x)
    | 2 => some (.cpyScat x)
    | 3 => some (.cpyMcast x)
    | 4 => some (.cpyQnt x)
    | 5 => some (.cpyFill x)
    | _ => none
  | 0x51 =>
    match sub with
    | 0 => some (.qfence x)
    | 1 => some (.qwait x)
    | _ => none
  | 0x52 =>
    match sub with
    | 0 => some (.viewReg x)
    | 1 => some (.viewDrop x)
    | 2 => some (.viewFence x)
    | 3 => some (.viewStat x)
    | _ => none
  | 0x53 =>
    match sub with
    | 0 => some (.rmaPut x)
    | 1 => some (.rmaGet x)
    | 2 => some (.rmaAtom x)
    | 3 => some (.rmaWait x)
    | 4 => some (.rmaKey x)
    | _ => none
  | 0x5C =>
    match sub with
    | 0 => some (.mxWload x)
    | 1 => some (.mxIssue x)
    | 2 => some (.mxTest x)
    | 3 => some (.mxProg x)
    | 4 => some (.mxAbort x)
    | _ => none
  | 0x5D =>
    match sub with
    | 0 => some (.accAlloc x)
    | 1 => some (.accFree x)
    | 2 => some (.accLd x)
    | 3 => some (.accSt x)
    | 4 => some (.accZero x)
    | 5 => some (.accCvt x)
    | _ => none
  | 0x5E =>
    match sub with
    | 0 => some (.spcCmp x)
    | 1 => some (.spcMeta x)
    | _ => none
  | 0x65 =>
    match sub with
    | 0 => some (.brx x)
    | _ => none
  | 0x67 =>
    match sub with
    | 0 => some (.callx x)
    | _ => none
  | 0x69 =>
    match sub with
    | 0 => some (.rjoinSet x)
    | 1 => some (.rjoinWait x)
    | 2 => some (.rjoinLeave x)
    | _ => none
  | 0x6A =>
    match sub with
    | 0 => some (.yield x)
    | 1 => some (.exit x)
    | 2 => some (.nop x)
    | 3 => some (.sleep x)
    | _ => none
  | 0x6B =>
    match sub with
    | 0 => some (.migrate x)
    | _ => none
  | 0x6C =>
    match sub with
    | 0 => some (.launch x)
    | _ => none
  | 0x70 =>
    match sub with
    | 0 => some (.barArrive x)
    | 1 => some (.barWait x)
    | 2 => some (.barSync x)
    | _ => none
  | 0x71 =>
    match sub with
    | 0 => some (.tokenWait x)
    | 1 => some (.tokenTest x)
    | _ => none
  | 0x73 =>
    match sub with
    | 0 => some (.sentry x)
    | 1 => some (.sret x)
    | _ => none
  | 0x74 =>
    match sub with
    | 0 => some (.futLd x)
    | 1 => some (.futSt x)
    | _ => none
  | 0x75 =>
    match sub with
    | 0 => some (.phaseEnd x)
    | 1 => some (.quiet x)
    | _ => none
  | 0x78 =>
    match sub with
    | 0 => some (.flareSend x)
    | _ => none
  | 0x79 =>
    match sub with
    | 0 => some (.flareRet x)
    | 1 => some (.flareMask x)
    | 2 => some (.flareRead x)
    | 3 => some (.flareAck x)
    | _ => none
  | 0x7C =>
    match sub with
    | 0 => some (.trap x)
    | 1 => some (.tret x)
    | 2 => some (.svc x)
    | 3 => some (.bkpt x)
    | _ => none
  | 0x7D =>
    match sub with
    | 0 => some (.ctxSave x)
    | 1 => some (.ctxLoad x)
    | 2 => some (.asidRetire x)
    | 3 => some (.tlbProbe x)
    | 4 => some (.pageScan x)
    | 5 => some (.mboxTake x)
    | 6 => some (.mboxPut x)
    | 7 => some (.halt x)
    | _ => none
  | 0x14 => (iCondOfCode sub).map fun c => .iset false c x
  | 0x15 => (iCondOfCode sub).map fun c => .iset true c x
  | 0x16 => (iCondOfCode sub).map fun c => .icmp c x
  | 0x24 => (fCondOfCode sub).map fun c => .fset false c x
  | 0x25 => (fCondOfCode sub).map fun c => .fset true c x
  | 0x26 => (fCondOfCode sub).map fun c => .fsetPred c x
  | 0x27 => (fSrcOfCode sub).map fun f => .fcvt f x
  | 0x28 => (icvtOfCode sub).map fun d => .icvt d x
  | 0x2E => (fSrcOfCode sub).map fun f => .pcvt f x
  | 0x43 => (atomOpOfCode sub).map fun op => .atom op x
  | 0x44 => (atomOpOfCode sub).map fun op => .red op x
  | 0x45 => (atomOpOfCode sub).map fun op => .atoms op x
  | 0x46 => (atomOpOfCode sub).map fun op => .bankop op x
  | 0x72 => if sub < 8 then some (.ship (BitVec.ofNat 3 sub) x) else some (.shipA (BitVec.ofNat 3 (sub - 8)) x)
  | _ => none

/-- Formats of the opcodes (R34, R71 to R86). -/
inductive Fmt where
  | a | b | l | br | x | m | none
  deriving DecidableEq, Repr

/-- Format of an opcode; `none` for the encodings that are not instructions (R86). -/
def fmtOf : Nat → Fmt
  | 0x0 | 0x3 | 0x4 | 0x5 | 0x6 | 0x7 | 0xC | 0xD | 0xE | 0x18 => .a
  | 0x19 | 0x1A | 0x1B | 0x1C | 0x34 | 0x35 | 0x68 => .a
  | 0x1 | 0x9 | 0xA | 0xB => .b
  | 0x2 | 0x8 | 0x1D | 0x1E | 0x36 | 0x37 => .l
  | 0x64 | 0x66 => .br
  | 0x3E | 0x3F | 0x40 | 0x41 | 0x42 | 0x49 | 0x4A => .m
  | 0x10 | 0x11 | 0x12 | 0x13 | 0x14 | 0x15 | 0x16 | 0x20 | 0x21 | 0x22 => .x
  | 0x23 | 0x24 | 0x25 | 0x26 | 0x27 | 0x28 | 0x2C | 0x2D | 0x2E | 0x2F => .x
  | 0x38 | 0x39 | 0x3A | 0x3B | 0x3C | 0x3D | 0x43 | 0x44 | 0x45 | 0x46 => .x
  | 0x47 | 0x48 | 0x4B | 0x4C | 0x4D | 0x50 | 0x51 | 0x52 | 0x53 | 0x5C => .x
  | 0x5D | 0x5E | 0x65 | 0x67 | 0x69 | 0x6A | 0x6B | 0x6C | 0x70 | 0x71 => .x
  | 0x72 | 0x73 | 0x74 | 0x75 | 0x78 | 0x79 | 0x7C | 0x7D => .x
  | _ => .none

/-- Length in words of the instruction whose first word is given (R34); an unassigned opcode counts one
word (R27). -/
def instrWords (w0 : Nat) : Nat :=
  match fmtOf (fld w0 25 7) with
  | .a | .b | .none => 1
  | .l | .br | .x | .m => 2

/-- The home class uses MOD layout S (R38): classes 1 and 4. -/
def usesLayoutS (opc : Nat) : Bool := (0x3E ≤ opc && opc ≤ 0x4F) || (0x70 ≤ opc && opc ≤ 0x7E)

/-- One-word forms (R71, R72, R74, R83). -/
def aForm (opc w0 : Nat) : Option Instr :=
  match opc with
  | 0x0 => some (.iaddA (aOps w0))
  | 0x3 => some (.isubA (aOps w0))
  | 0x4 => some (.imulA (aOps w0))
  | 0x5 => some (.andA (aOps w0))
  | 0x6 => some (.orA (aOps w0))
  | 0x7 => some (.xorA (aOps w0))
  | 0xC => some (.iminA (aOps w0))
  | 0xD => some (.imaxA (aOps w0))
  | 0xE => some (.iaddS64A (aOps w0))
  | 0x18 => some (.faddA (aOps w0))
  | 0x19 => some (.fsubA (aOps w0))
  | 0x1A => some (.fmulA (aOps w0))
  | 0x1B => some (.fminA (aOps w0))
  | 0x1C => some (.fmaxA (aOps w0))
  | 0x34 => some (.mov (aOps w0))
  | 0x35 => some (.movUniform (aOps w0))
  | 0x68 => if fld w0 0 25 = 0 then some .ret else none
  | _ => none

def bForm (opc w0 : Nat) : Option Instr :=
  match opc with
  | 0x1 => some (.iaddB (bOps w0))
  | 0x9 => some (.shlB (bOps w0))
  | 0xA => some (.shrB (bOps w0))
  | 0xB => some (.shaB (bOps w0))
  | _ => none

/-- Two-word forms with a literal (R41). -/
def lForm (opc w0 w1 : Nat) : Option Instr :=
  match opc with
  | 0x2 => some (.iaddL (lOps w0 w1))
  | 0x8 => some (.andL (lOps w0 w1))
  | 0x1D => some (.faddL (lOps w0 w1))
  | 0x1E => some (.fmulL (lOps w0 w1))
  | 0x36 => some (.movi false (lOps w0 w1))
  | 0x37 => some (.movi true (lOps w0 w1))
  | _ => none

/-- Format-M forms (R188). -/
def mForm (opc : Nat) (m : MOps) : Option Instr :=
  match opc with
  | 0x3E => some (.ld m)
  | 0x3F => some (.st m)
  | 0x40 => some (.ldro m)
  | 0x41 => some (.lds m)
  | 0x42 => some (.sts m)
  | 0x49 => some (.pref m)
  | 0x4A => some (.ldmon m)
  | _ => none

/-- Fields of an instruction's words, before check 4 has looked at their values. -/
def parse (w0 w1 : Nat) : Except Reject Instr :=
  let opc := fld w0 25 7
  let orErr (r : Option Instr) (e : Reject) : Except Reject Instr :=
    match r with
    | some i => .ok i
    | none => .error e
  match fmtOf opc with
  | .none => .error .illegalOpcode
  | .a => orErr (aForm opc w0) (.reserved false)
  | .b => orErr (bForm opc w0) (.reserved false)
  | .l => if fld w0 0 9 = 0 then orErr (lForm opc w0 w1) (.reserved false) else .error (.reserved false)
  | .br =>
    if fld w0 0 21 = 0 then
      .ok (if opc = 0x64 then .bra (brOps w0 w1) else .call (brOps w0 w1))
    else .error (.reserved false)
  | .x =>
    orErr ((if usesLayoutS opc then xOpsS w0 w1 else xOpsF w0 w1).bind (xForm opc (fld w1 0 4)))
      (.reserved true)
  | .m => orErr ((mOps w0 w1).bind (mForm opc)) (.reserved true)

/-- Checks 1 and 4 of R58 on two words (the second is read only by two-word formats). -/
def decodeWords (w0 w1 : Nat) : Except Reject Instr :=
  match parse w0 w1 with
  | .error e => .error e
  | .ok i =>
    match i.fieldError with
    | some inW1 => .error (.reserved inW1)
    | none => .ok i

/-- The little-endian value of bytes (R2). -/
def leNat : List Byte → Nat
  | [] => 0
  | b :: bs => b.toNat + 256 * leNat bs

/-- `n` little-endian bytes of a number (R2). -/
def leBytes : Nat → Nat → List Byte
  | 0, _ => []
  | n + 1, v => BitVec.ofNat 8 v :: leBytes n (v / 256)

/-- Decodes the instruction at the head of a byte sequence and returns the rest (R25, R34). -/
def decodeBytes (bs : List Byte) : Except Reject (Instr × List Byte) :=
  if bs.length < 4 then .error .truncated
  else
    let w0 := leNat (bs.take 4)
    let n := 4 * instrWords w0
    if bs.length < n then .error .truncated
    else
      match decodeWords w0 (leNat ((bs.drop 4).take 4)) with
      | .ok i => .ok (i, bs.drop n)
      | .error e => .error e

/-- The instruction that an opcode-table word stands for: its bits numbered from the first word up. -/
def decodeTableWord (nbits w : Nat) : Option Instr :=
  match decodeBytes (leBytes 8 (w % 2 ^ nbits)) with
  | .ok (i, _) => some i
  | .error _ => none

/-! ### The encoder -/

/-- Word 0 of formats A and X (R35, R37). -/
def encA (opc : Nat) (dst : BitVec 7) (a b : Src) : Nat :=
  opc * 2 ^ 25 + dst.toNat * 2 ^ 18 + a.code * 2 ^ 9 + b.code

/-- Word 1 of format X below MOD's own bits (R37). -/
def encX1 (x : XOps) (md : Nat) : Nat :=
  x.c.code * 2 ^ 23 + x.pred.toNat * 2 ^ 20 + x.pneg.toNat * 2 ^ 19 + x.la.toNat * 2 ^ 15 +
    x.dc.toNat * 2 ^ 12 + md

def encXF (opc sub : Nat) (x : XOps) : List Nat :=
  [encA opc x.dst x.a x.b, encX1 x (x.ty.code * 2 ^ 7 + x.rnd.code * 2 ^ 5 + x.ovf.toNat * 2 ^ 4 + sub)]

def encXS (opc sub : Nat) (x : XOps) : List Nat :=
  [encA opc x.dst x.a x.b, encX1 x (x.ty.code * 2 ^ 7 + x.scope.code * 2 ^ 4 + sub)]

def encB (opc : Nat) (o : BOps) : List Nat :=
  [opc * 2 ^ 25 + o.dst.toNat * 2 ^ 18 + o.a.code * 2 ^ 9 + o.imm.toNat]

def encL (opc : Nat) (o : LOps) : List Nat :=
  [opc * 2 ^ 25 + o.dst.toNat * 2 ^ 18 + o.a.code * 2 ^ 9, o.lit.toNat]

def encBr (opc : Nat) (o : BrOps) : List Nat :=
  [opc * 2 ^ 25 + o.pred.toNat * 2 ^ 22 + o.pneg.toNat * 2 ^ 21, o.lit.toNat]

/-- Format M (R42). -/
def encM (opc : Nat) (m : MOps) : List Nat :=
  [opc * 2 ^ 25 + m.data.toNat * 2 ^ 18 + m.bk.toNat * 2 ^ 17 + m.bp.toNat * 2 ^ 11 + m.off.toNat / 2 ^ 13,
   m.off.toNat % 2 ^ 13 * 2 ^ 19 + m.pred.toNat * 2 ^ 16 + m.pneg.toNat * 2 ^ 15 + m.la.toNat * 2 ^ 11 +
     m.dc.toNat * 2 ^ 8 + m.scope.code * 2 ^ 5 + m.size.code * 2 ^ 2 + m.hint.toNat]

/-- The words of an instruction, first word first; a step without an encoding has none. -/
def Instr.encode (i : Instr) : List Nat :=
  match i with
  | .iaddA o => [encA 0x0 o.dst o.a o.b]
  | .isubA o => [encA 0x3 o.dst o.a o.b]
  | .imulA o => [encA 0x4 o.dst o.a o.b]
  | .andA o => [encA 0x5 o.dst o.a o.b]
  | .orA o => [encA 0x6 o.dst o.a o.b]
  | .xorA o => [encA 0x7 o.dst o.a o.b]
  | .iminA o => [encA 0xC o.dst o.a o.b]
  | .imaxA o => [encA 0xD o.dst o.a o.b]
  | .iaddS64A o => [encA 0xE o.dst o.a o.b]
  | .faddA o => [encA 0x18 o.dst o.a o.b]
  | .fsubA o => [encA 0x19 o.dst o.a o.b]
  | .fmulA o => [encA 0x1A o.dst o.a o.b]
  | .fminA o => [encA 0x1B o.dst o.a o.b]
  | .fmaxA o => [encA 0x1C o.dst o.a o.b]
  | .mov o => [encA 0x34 o.dst o.a o.b]
  | .movUniform o => [encA 0x35 o.dst o.a o.b]
  | .iaddB o => encB 0x1 o
  | .shlB o => encB 0x9 o
  | .shrB o => encB 0xA o
  | .shaB o => encB 0xB o
  | .iaddL o => encL 0x2 o
  | .andL o => encL 0x8 o
  | .faddL o => encL 0x1D o
  | .fmulL o => encL 0x1E o
  | .movi u o => encL (0x36 + u.toNat) o
  | .iaddX u x => encXF (0x10 + u.toNat) 0 x
  | .isubX u x => encXF (0x10 + u.toNat) 1 x
  | .imulX u x => encXF (0x10 + u.toNat) 2 x
  | .imulh u x => encXF (0x10 + u.toNat) 3 x
  | .imad u x => encXF (0x10 + u.toNat) 4 x
  | .idiv u x => encXF (0x10 + u.toNat) 5 x
  | .irem u x => encXF (0x10 + u.toNat) 6 x
  | .iminX u x => encXF (0x10 + u.toNat) 7 x
  | .imaxX u x => encXF (0x10 + u.toNat) 8 x
  | .iabs u x => encXF (0x10 + u.toNat) 9 x
  | .ineg u x => encXF (0x10 + u.toNat) 10 x
  | .iaddc u x => encXF (0x10 + u.toNat) 11 x
  | .isat u x => encXF (0x10 + u.toNat) 12 x
  | .lea u x => encXF (0x10 + u.toNat) 13 x
  | .andX u x => encXF (0x12 + u.toNat) 0 x
  | .orX u x => encXF (0x12 + u.toNat) 1 x
  | .xorX u x => encXF (0x12 + u.toNat) 2 x
  | .andn u x => encXF (0x12 + u.toNat) 3 x
  | .not u x => encXF (0x12 + u.toNat) 4 x
  | .shlX u x => encXF (0x12 + u.toNat) 5 x
  | .shrX u x => encXF (0x12 + u.toNat) 6 x
  | .shaX u x => encXF (0x12 + u.toNat) 7 x
  | .rotl u x => encXF (0x12 + u.toNat) 8 x
  | .bfx u x => encXF (0x12 + u.toNat) 9 x
  | .bfi u x => encXF (0x12 + u.toNat) 10 x
  | .popc u x => encXF (0x12 + u.toNat) 11 x
  | .clz u x => encXF (0x12 + u.toNat) 12 x
  | .ctz u x => encXF (0x12 + u.toNat) 13 x
  | .brev u x => encXF (0x12 + u.toNat) 14 x
  | .sel u x => encXF (0x12 + u.toNat) 15 x
  | .faddX u x => encXF (0x20 + u.toNat) 0 x
  | .fsubX u x => encXF (0x20 + u.toNat) 1 x
  | .fmulX u x => encXF (0x20 + u.toNat) 2 x
  | .ffma u x => encXF (0x20 + u.toNat) 3 x
  | .fminX u x => encXF (0x20 + u.toNat) 4 x
  | .fmaxX u x => encXF (0x20 + u.toNat) 5 x
  | .fdiv u x => encXF (0x20 + u.toNat) 6 x
  | .fscale u x => encXF (0x20 + u.toNat) 7 x
  | .frnd u x => encXF (0x20 + u.toNat) 8 x
  | .fsat u x => encXF (0x20 + u.toNat) 9 x
  | .fsgnCpy u x => encXF (0x20 + u.toNat) 10 x
  | .fsgnNeg u x => encXF (0x20 + u.toNat) 11 x
  | .fsgnXor u x => encXF (0x20 + u.toNat) 12 x
  | .frcp u x => encXF (0x22 + u.toNat) 0 x
  | .frsq u x => encXF (0x22 + u.toNat) 1 x
  | .fsqrt u x => encXF (0x22 + u.toNat) 2 x
  | .fexp2 u x => encXF (0x22 + u.toNat) 3 x
  | .flog2 u x => encXF (0x22 + u.toNat) 4 x
  | .fsin u x => encXF (0x22 + u.toNat) 5 x
  | .fcos u x => encXF (0x22 + u.toNat) 6 x
  | .ftanh u x => encXF (0x22 + u.toNat) 7 x
  | .frexp u x => encXF (0x22 + u.toNat) 8 x
  | .fclass u x => encXF (0x22 + u.toNat) 9 x
  | .iset u c x => encXF (0x14 + u.toNat) c.code x
  | .icmp c x => encXF 0x16 c.code x
  | .fset u c x => encXF (0x24 + u.toNat) c.code x
  | .fsetPred c x => encXF 0x26 c.code x
  | .fcvt f x => encXF 0x27 f.code x
  | .icvt f x => encXF 0x28 f.code x
  | .pcvt f x => encXF 0x2E f.code x
  | .dot2 x => encXF 0x2C 0 x
  | .dot4 x => encXF 0x2C 1 x
  | .dot8 x => encXF 0x2C 2 x
  | .padd x => encXF 0x2D 0 x
  | .pmul x => encXF 0x2D 1 x
  | .pfma x => encXF 0x2D 2 x
  | .qnt x => encXF 0x2F 0 x
  | .dqnt x => encXF 0x2F 1 x
  | .bscale x => encXF 0x2F 2 x
  | .movs u x => encXF (0x38 + u.toNat) 0 x
  | .sets x => encXF 0x3C 0 x
  | .pick x => encXF 0x3A 0 x
  | .rot x => encXF 0x3A 1 x
  | .slide x => encXF 0x3A 2 x
  | .swap x => encXF 0x3A 3 x
  | .splice x => encXF 0x3A 10 x
  | .pollAll u x => encXF (0x3A + u.toNat) 4 x
  | .pollAny u x => encXF (0x3A + u.toNat) 5 x
  | .pollMask u x => encXF (0x3A + u.toNat) 6 x
  | .first u x => encXF (0x3A + u.toNat) 7 x
  | .spread u x => encXF (0x3A + u.toNat) 8 x
  | .peers u x => encXF (0x3A + u.toNat) 9 x
  | .foldAdd u x => encXF (0x3A + u.toNat) 11 x
  | .foldMin u x => encXF (0x3A + u.toNat) 12 x
  | .foldMax u x => encXF (0x3A + u.toNat) 13 x
  | .foldAnd u x => encXF (0x3A + u.toNat) 14 x
  | .foldOr u x => encXF (0x3A + u.toNat) 15 x
  | .affLoop x => encXF 0x3D 0 x
  | .affLd x => encXF 0x3D 1 x
  | .affSt x => encXF 0x3D 2 x
  | .affFeed x => encXF 0x3D 3 x
  | .ld m => encM 0x3E m
  | .st m => encM 0x3F m
  | .ldro m => encM 0x40 m
  | .lds m => encM 0x41 m
  | .sts m => encM 0x42 m
  | .pref m => encM 0x49 m
  | .ldmon m => encM 0x4A m
  | .atom f x => encXS 0x43 f.code x
  | .red f x => encXS 0x44 f.code x
  | .atoms f x => encXS 0x45 f.code x
  | .bankop f x => encXS 0x46 f.code x
  | .fence x => encXS 0x47 0 x
  | .fenceRo x => encXS 0x47 1 x
  | .flushRange x => encXS 0x48 0 x
  | .invRange x => encXS 0x48 1 x
  | .cleanRange x => encXS 0x48 2 x
  | .waitmon x => encXS 0x4B 0 x
  | .resHint x => encXS 0x4C 0 x
  | .resEvict x => encXS 0x4C 1 x
  | .cbload x => encXS 0x4D 0 x
  | .cpyTile x => encXF 0x50 0 x
  | .cpyGath x => encXF 0x50 1 x
  | .cpyScat x => encXF 0x50 2 x
  | .cpyMcast x => encXF 0x50 3 x
  | .cpyQnt x => encXF 0x50 4 x
  | .cpyFill x => encXF 0x50 5 x
  | .qfence x => encXF 0x51 0 x
  | .qwait x => encXF 0x51 1 x
  | .viewReg x => encXF 0x52 0 x
  | .viewDrop x => encXF 0x52 1 x
  | .viewFence x => encXF 0x52 2 x
  | .viewStat x => encXF 0x52 3 x
  | .rmaPut x => encXF 0x53 0 x
  | .rmaGet x => encXF 0x53 1 x
  | .rmaAtom x => encXF 0x53 2 x
  | .rmaWait x => encXF 0x53 3 x
  | .rmaKey x => encXF 0x53 4 x
  | .mxWload x => encXF 0x5C 0 x
  | .mxIssue x => encXF 0x5C 1 x
  | .mxTest x => encXF 0x5C 2 x
  | .mxProg x => encXF 0x5C 3 x
  | .mxAbort x => encXF 0x5C 4 x
  | .accAlloc x => encXF 0x5D 0 x
  | .accFree x => encXF 0x5D 1 x
  | .accLd x => encXF 0x5D 2 x
  | .accSt x => encXF 0x5D 3 x
  | .accZero x => encXF 0x5D 4 x
  | .accCvt x => encXF 0x5D 5 x
  | .spcCmp x => encXF 0x5E 0 x
  | .spcMeta x => encXF 0x5E 1 x
  | .bra o => encBr 0x64 o
  | .call o => encBr 0x66 o
  | .ret => [0x68 * 2 ^ 25]
  | .brx x => encXF 0x65 0 x
  | .callx x => encXF 0x67 0 x
  | .rjoinSet x => encXF 0x69 0 x
  | .rjoinWait x => encXF 0x69 1 x
  | .rjoinLeave x => encXF 0x69 2 x
  | .yield x => encXF 0x6A 0 x
  | .exit x => encXF 0x6A 1 x
  | .nop x => encXF 0x6A 2 x
  | .sleep x => encXF 0x6A 3 x
  | .migrate x => encXF 0x6B 0 x
  | .launch x => encXF 0x6C 0 x
  | .barArrive x => encXS 0x70 0 x
  | .barWait x => encXS 0x70 1 x
  | .barSync x => encXS 0x70 2 x
  | .tokenWait x => encXS 0x71 0 x
  | .tokenTest x => encXS 0x71 1 x
  | .ship n x => encXS 0x72 (0 + n.toNat) x
  | .shipA n x => encXS 0x72 (8 + n.toNat) x
  | .sentry x => encXS 0x73 0 x
  | .sret x => encXS 0x73 1 x
  | .futLd x => encXS 0x74 0 x
  | .futSt x => encXS 0x74 1 x
  | .phaseEnd x => encXS 0x75 0 x
  | .quiet x => encXS 0x75 1 x
  | .flareSend x => encXS 0x78 0 x
  | .flareRet x => encXS 0x79 0 x
  | .flareMask x => encXS 0x79 1 x
  | .flareRead x => encXS 0x79 2 x
  | .flareAck x => encXS 0x79 3 x
  | .trap x => encXS 0x7C 0 x
  | .tret x => encXS 0x7C 1 x
  | .svc x => encXS 0x7C 2 x
  | .bkpt x => encXS 0x7C 3 x
  | .ctxSave x => encXS 0x7D 0 x
  | .ctxLoad x => encXS 0x7D 1 x
  | .asidRetire x => encXS 0x7D 2 x
  | .tlbProbe x => encXS 0x7D 3 x
  | .pageScan x => encXS 0x7D 4 x
  | .mboxTake x => encXS 0x7D 5 x
  | .mboxPut x => encXS 0x7D 6 x
  | .halt x => encXS 0x7D 7 x
  | _ => []

/-- The instruction's bytes as memory holds them: each word little-endian, the first at the lowest address. -/
def Instr.bytes (i : Instr) : List Byte := i.encode.flatMap (leBytes 4)

end Sys2Proof
end

