-- ==== Sys2Proof/Config.lean ====
section
/-! DEFINITION. What the package fixes (R18 to R24, R242, R246) and the values the specification leaves open.
A free value is an opaque constant: nothing can be proved of what it is (log 5). -/

namespace Sys2Proof.Config

/-- A free number: `kind` says which open point it stands for, `k` which draw it is (log 5). -/
opaque freeNat (kind k : Nat) : Nat

/-- The bytes in which the device lays out numbers whose layout the specification does not give: lifetime counters,
answers of the attestation responder (log 5). -/
opaque freeImage (kind : Nat) (nums : List Nat) : List Byte

/-- Cycles a step takes beyond one: the specification gives typical figures only (R8, log 7). -/
opaque freeCycles (k : Nat) : Nat

/-- Compute cores of a die, and of the package (R19). -/
def coresPerDie : Nat := 160
def cores : Nat := 640

/-- Team slots of a core, and the two special slots (R242, R355). -/
def slots : Nat := 64
def landingSlot : Nat := 62
def supervisorSlot : Nat := 63

/-- Register rows shared by slots 0 to 61 (R242). -/
def rows : Nat := 3912

/-- Depth of the operand, address and feedback FIFOs (R246, R250, R251). -/
def queueDepth : Nat := 16

/-- Tokens of a line (R123). -/
def lineTokens : Nat := 1024

/-- Bytes of a line. -/
def lineBytes : Nat := 128

/-- Scratchpad of a core (R134). -/
def scratchBytes : Nat := 524288

/-- Most instructions of a run (R30). -/
def runLimit : Nat := 24

/-- Largest value of a dependency counter (R57). -/
def dcMax : Nat := 63

/-- Entries of the operand log (R111). -/
def logEntries : Nat := 16

/-- Entries of a mailbox (R422). -/
def mailboxEntries : Nat := 64

/-- The Meridian number before CMD 3 sets it (R88). -/
def mnumReset : Nat := 511

end Sys2Proof.Config
end

