-- ==== Sys2Proof/Machine/Events.lean ====
section
/-! DEFINITION. The steps of the machine's other agents as the state holds them while they wait: one
constructor for each row of spec/opcode_table.json that is no instruction word, with the arguments its
constructor of `Instr` has (log 4). -/

namespace Sys2Proof

inductive Ev where
  /-- RUN_SELECTION (R359). -/
  | runSelection (core pipe : Nat)
  /-- LOAD_DATA_RETURN (R186). -/
  | loadDataReturn (team lane op : Nat)
  /-- STORE_PERFORM (R133). -/
  | storePerform (team : Nat)
  /-- PAGE_TABLE_WALK (R90). -/
  | pageTableWalk (die ctx : Nat) (va : DWord)
  /-- READ_MISS (R125). -/
  | readMiss (a : AgentId) (line : Nat)
  /-- WRITE_MISS (R125). -/
  | writeMiss (a : AgentId) (line : Nat)
  /-- FORWARDED_REQUEST (R125). -/
  | forwardedRequest (owner req : AgentId) (line : Nat)
  /-- TOKEN_DATA_RESPONSE (R123). -/
  | tokenDataResponse (a : AgentId) (line : Nat) (t : TokenMsg)
  /-- INVALIDATION (R125). -/
  | invalidation (a req : AgentId) (line : Nat)
  /-- EVICTION_NOTICE (R128). -/
  | evictionNotice (a : AgentId) (line : Nat) (t : TokenMsg)
  /-- REQUEST_FAILURE (R129). -/
  | requestFailure (a : AgentId) (line : Nat)
  /-- PERSISTENT_REQUEST (R129). -/
  | persistentRequest (a : AgentId) (line : Nat)
  /-- PERSISTENT_ACTIVATION (R129). -/
  | persistentActivation (line : Nat)
  /-- PERSISTENT_DEACTIVATION (R129). -/
  | persistentDeactivation (line : Nat)
  /-- UPDATE_ONLY_GRANT (R130). -/
  | updateOnlyGrant (a : AgentId) (line : Nat) (op : AtomOp) (ty : Ty)
  /-- UPDATE_ONLY_END (R131). -/
  | updateOnlyEnd (line : Nat)
  /-- FLUSH_MARKER (R161). -/
  | flushMarker (src dst path : Nat)
  /-- HOST_SNOOP (R103). -/
  | hostSnoop (line : Nat)
  /-- ASID_FLUSH_COMPLETE (R96). -/
  | asidFlushComplete (asid : Nat)
  /-- RANGE_WALK_COMPLETE (R200). -/
  | rangeWalkComplete (team lane op : Nat)
  /-- ENGINE_OP_ACCEPT (R212). -/
  | engineOpAccept (team : Nat)
  /-- COPY_ENGINE_TAKE (R210). -/
  | copyEngineTake (core eng : Nat)
  /-- COPY_ROW (R216). -/
  | copyRow (core eng : Nat)
  /-- COPY_COMPLETE (R169). -/
  | copyComplete (core eng : Nat)
  /-- CBLOAD_COMPLETE (R207). -/
  | cbloadComplete (team op : Nat)
  /-- MATRIX_ENGINE_SELECT (R324). -/
  | matrixEngineSelect (core : Nat)
  /-- MATRIX_CHUNK_LOAD (R322). -/
  | matrixChunkLoad (core : Nat)
  /-- MATRIX_ACCUMULATE_STEP (R322). -/
  | matrixAccumulateStep (core : Nat)
  /-- MATRIX_OUTPUT_STEP (R322). -/
  | matrixOutputStep (core : Nat)
  /-- ACC_BANK_GRANT (R333). -/
  | accBankGrant (core : Nat)
  /-- ACC_BANK_RELEASE (R333). -/
  | accBankRelease (core : Nat)
  /-- PARALLAX_RECOMPUTE (R174). -/
  | parallaxRecompute (part view block : Nat)
  /-- VIEW_PUBLISH_MESSAGE (R174). -/
  | viewPublishMessage (m : ViewMsg)
  /-- ACCESS_STREAM_POINT (R247). -/
  | accessStreamPoint (team q : Nat)
  /-- AFF_ST_PAIR_STORE (R250). -/
  | affStPairStore (team q lane : Nat)
  /-- USER_HANDLER_ENTRY (R457). -/
  | userHandlerEntry (team : Nat)
  /-- MAILBOX_POST (R423). -/
  | mailboxPost (core : Nat)
  /-- MAILBOX_FULL_TIMEOUT (R424). -/
  | mailboxFullTimeout (team lane : Nat)
  /-- TEAMTIME_OVERFLOW (R419). -/
  | teamtimeOverflow (team : Nat)
  /-- DEADLINE_REACHED (R420). -/
  | deadlineReached (team : Nat)
  /-- OWED_TIMER_TRAP (R421). -/
  | owedTimerTrap (team : Nat)
  /-- SLEEP_EXPIRY (R366). -/
  | sleepExpiry (team lane : Nat)
  /-- FLARE_RAISE_MESSAGE (R402). -/
  | flareRaiseMessage (r : RaiseMsg)
  /-- FLARE_DELIVERY (R405). -/
  | flareDelivery (ctx : Nat)
  /-- SECTION_REQUEST_ARRIVAL (R380). -/
  | sectionRequestArrival (r : ShipReq)
  /-- SECTION_START (R381). -/
  | sectionStart (home : Nat)
  /-- SECTION_RESULT_ARRIVAL (R380). -/
  | sectionResultArrival (r : ShipResult)
  /-- SECTION_BUDGET_EXPIRY (R385). -/
  | sectionBudgetExpiry (home : Nat)
  /-- PHASE_RECORD_ENQUEUE (R388). -/
  | phaseRecordEnqueue (crew : Nat)
  /-- PHASE_RESUME (R389). -/
  | phaseResume (part : Nat)
  /-- MIGRATE_MOVE (R367). -/
  | migrateMove (team : Nat)
  /-- LANDING_SLOT_MOVE (R367). -/
  | landingSlotMove (team : Nat)
  /-- LAUNCH_DOORBELL (R349). -/
  | launchDoorbell (vf : Nat) (tail : Word)
  /-- LAUNCH_QUEUE_CONTROL (R349). -/
  | launchQueueControl (vf : Nat) (w : Word)
  /-- RECORD_CAPTURE (R349). -/
  | recordCapture (vf : Nat)
  /-- EDGE_SATISFIED (R353). -/
  | edgeSatisfied (launch : Nat)
  /-- PLACE_CLUSTER_GROUP (R354). -/
  | placeClusterGroup (part : Nat)
  /-- LAUNCH_END (R351). -/
  | launchEnd (launch : Nat)
  /-- REGISTER_WRITE (R349). -/
  | registerWrite (vf off size : Nat) (val : DWord)
  /-- FLARE_WINDOW_RAISE (R404). -/
  | flareWindowRaise (vf off size : Nat) (val : DWord)
  /-- CMD_ASSIGN_PARTITION (R23). -/
  | cmdAssignPartition (a : AssignCmd)
  /-- CMD_BIND_FUNCTION (R431). -/
  | cmdBindFunction (vf part ld : Nat)
  /-- CMD_SET_MERIDIAN_NUMBER (R438). -/
  | cmdSetMeridianNumber (n : Nat)
  /-- CMD_QUEUE_PAIR (R440). -/
  | cmdQueuePair (q : QpCmd)
  /-- CMD_ADOPT (R432). -/
  | cmdAdopt (lds : List Nat) (head : Nat)
  /-- CMD_READ_COUNTERS (R455). -/
  | cmdReadCounters
  /-- CMD_WRITE_FIRMWARE (R454). -/
  | cmdWriteFirmware (image : List Byte)
  /-- CMD_READ_HANDOVER (R432). -/
  | cmdReadHandover
  /-- CMD_UNKNOWN (R431). -/
  | cmdUnknown (code : DWord)
  /-- HOST_LINK_DOWN (R432). -/
  | hostLinkDown (head : Nat)
  /-- CXL_MEM_ACCESS (R433). -/
  | cxlMemAccess (a : HostAccess)
  /-- PEER_ACCESS (R438). -/
  | peerAccess (a : PeerAccess)
  /-- D2D_LINK_FAILURE (R17). -/
  | d2dLinkFailure (die : Nat)
  /-- D2D_LINK_TRAINING (R16). -/
  | d2dLinkTraining (die : Nat) (failed : List Nat)
  /-- MERIDIAN_FLIT_GROUP (R437). -/
  | meridianFlitGroup (port : Nat) (tagOk : Bool)
  /-- MERIDIAN_KEY_ROTATION (R437). -/
  | meridianKeyRotation (port : Nat)
  /-- PUT (R444). -/
  | put (p : Packet)
  /-- GET_REQUEST (R444). -/
  | getRequest (p : Packet)
  /-- GET_RESPONSE (R448). -/
  | getResponse (p : Packet)
  /-- ATOM_REQUEST (R442). -/
  | atomRequest (p : Packet)
  /-- ATOM_RESPONSE (R448). -/
  | atomResponse (p : Packet)
  /-- ACK (R441). -/
  | ack (p : Packet)
  /-- NAK (R449). -/
  | nak (p : Packet)
  /-- CREDIT (R441). -/
  | credit (p : Packet)
  /-- RMA_RETRANSMIT_TIMEOUT (R441). -/
  | rmaRetransmitTimeout (qpn : Nat)
  /-- QP_CONTEXT_FETCH (R440). -/
  | qpContextFetch (qpn : Nat)
  /-- KEY_REVOKE_COMPLETE (R452). -/
  | keyRevokeComplete (part slot : Nat)
  /-- RMA_COMPLETE (R448). -/
  | rmaComplete (team : Nat)
  /-- GET_VERSION (R436). -/
  | getVersion
  /-- GET_CAPABILITIES (R436). -/
  | getCapabilities
  /-- NEGOTIATE_ALGORITHMS (R436). -/
  | negotiateAlgorithms (n : SpdmAlgs)
  /-- GET_DIGESTS (R436). -/
  | getDigests
  /-- GET_CERTIFICATE (R436). -/
  | getCertificate
  /-- CHALLENGE (R436). -/
  | challenge (nonce : List Byte)
  /-- GET_MEASUREMENTS (R436). -/
  | getMeasurements (index : Nat)
  /-- KEY_EXCHANGE (R436). -/
  | keyExchange
  /-- FINISH (R436). -/
  | finish (ok : Bool)
  /-- END_SESSION (R436). -/
  | endSession
  /-- TDISP_MESSAGE (R435). -/
  | tdispMessage (vf : Nat) (m : TdispMsg)
  /-- IDE_KEY_MANAGEMENT (R436). -/
  | ideKeyManagement (m : IdeMsg)
  /-- BOOT (R453). -/
  | boot (r : BootOutcome)
  /-- LIFETIME_COUNTER_SAVE (R455). -/
  | lifetimeCounterSave
  /-- ORDERLY_SHUTDOWN (R455). -/
  | orderlyShutdown
  /-- POWER_LOSS (R456). -/
  | powerLoss
  /-- POWER_LIMIT (R456). -/
  | powerLimit (on : Bool)
  /-- MACHINE_CHECK (R415). -/
  | machineCheck (ctx : Nat) (code : DWord)
  /-- VIRTUAL_FUNCTION_ENABLE (R399). -/
  | virtualFunctionEnable (vf : Nat) (on : Bool)
  /-- SUPERVISOR_FIRMWARE_RESTART (R425). -/
  | supervisorFirmwareRestart (core : Nat)
  /-- MERIDIAN_LINK_LOSS (R437). -/
  | meridianLinkLoss (port : Nat)
  /-- HOST_LINK_TRAINING (R430). -/
  | hostLinkTraining (head width rate : Nat)
  /-- FLARE_SEND_OUTCOME (R410). -/
  | flareSendOutcome (team lane op : Nat) (status : Nat)
  /-- PAGE_REQUEST_RESPONSE (R98). -/
  | pageRequestResponse (core ticket : Nat) (ok : Bool)
  /-- REMOTE_VIEW_BLOCK_CLEAR (R173). -/
  | remoteViewBlockClear (part view block : Nat)
  /-- VIEW_QUEUE_OPERATION (R239). -/
  | viewQueueOperation (team : Nat)
  deriving DecidableEq, Repr

end Sys2Proof
end

