-- ==== Sys2Proof/Machine/Records.lean ====
section
/-! DEFINITION. The records State is made of: threads, teams, access contexts, runs, engine operations,
caches and the tables of the other agents.  Everything is plain data. -/

namespace Sys2Proof.Machine

/-- Physical memory: (address, byte) pairs with rising addresses and no byte 0; an unlisted byte reads 0 (log 2). -/
abbrev Mem := List Host.Cell

/-- A finite map from numbers, first entry first. -/
abbrev AList (α : Type) := List (Nat × α)

/-- Trap causes (R415). -/
inductive Cause where
  | illegalOpcode | reservedField | illegalClause | operandKind | registerRange | misalignedPc
  | notOnLatencyCore | privileged | jumpTableRange | callStack | reconvergeMisuse | breakpoint
  | softwareTrap | teamTimer | deadline | fpInvalid | fpDivZero | fpOverflow | intDivZero
  | formatDivergence | formatUnsupported | pageNotPresent | pagePermission | pageInTransition
  | roSharedWrite | misalignedAccess | atomicUnsupported | addressRange | scratchRange | accumBank
  | dirtyLogFull | asidRetired | hostTableFault | memoryPoison | integrityFailure | copyFault
  | engineOperand | matrixFault | sparsityMetadata | viewStale | viewFaulted | viewRegistration
  | shipFaulted | shipRefused | lateFutureWait | phaseCarry | tokenInvalid | flareDenied | flareTarget
  | remoteAccess | remoteTimeout | fabricUnreachable | keyRevoked | svcRequest | mailboxFull | preempt
  | migrateFault | contextKilled | singleStep | watchpoint | pteMalformed | resourceReject
  | constantBank | machineCheck
  deriving DecidableEq, Repr

/-- Routes of R414. -/
inductive Route where
  | s | k | u
  deriving DecidableEq, Repr

/-- Page modes of R104. -/
inductive PageMode where
  | coh | home | ros | swm
  deriving DecidableEq, Repr

/-- Memory types of R88. -/
inductive MemTy where
  | dram | bank | peer | host
  deriving DecidableEq, Repr

/-- A trap of one thread (R4): the cause, TVAL, and TPC as a resume address (R60). -/
structure TrapRec where
  cause : Cause
  tval : DWord
  tpc : DWord
  deriving DecidableEq, Repr

/-- What the operand log keeps of a tracked instruction in one lane (R111): its resume address, the
instruction itself, the values of its sources, the base and the data, and the number of the issue it belongs to. -/
structure LogRec where
  at_ : DWord
  instr : Instr
  a : DWord
  b : DWord
  c : List Word
  base : DWord
  data : List Word
  id : Nat := 0
  deriving DecidableEq, Repr

/-- A trap recorded for a parked thread, with the log entry its replay uses (R111, R112); `solved` when the supervisor
team has resolved it, `passed` when it has passed it on as route U (R414). -/
structure Recorded where
  trap : TrapRec
  log : Option LogRec
  resume : DWord
  solved : Bool := false
  passed : Bool := false
  deriving DecidableEq, Repr

/-- What a tracked instruction still has to do for one thread (R57, R186): a load, a load of scratchpad, an
atomic operation, a range instruction, a flare (R410), a prefetch (R202), the words of a load whose operand queue is full, with their stale mark
(R187), or work that another agent holds. -/
inductive OpKind where
  | load (m : MOps) (va : DWord) (ro mon : Bool)
  | lds (m : MOps) (va : DWord)
  | atom (op : AtomOp) (ty : Ty) (scope : Scope) (bank scratch : Bool) (va b c : DWord)
  | range (sub : Nat) (start len : Nat) (scope : Scope)
  | cbload (bank : Nat) (src : DWord) (len : Nat)
  | pref (m : MOps) (va : DWord)
  | got (ws : List Word) (stale : Bool)
  | flare (target : Word)
  | other
  deriving DecidableEq, Repr

/-- An element of q0 to q3 (R246, R252, R253): its value, a fault it carries, and a stale mark. -/
structure QElem where
  val : Word
  err : Option (Cause × DWord)
  stale : Bool
  deriving DecidableEq, Repr

/-- A tracked instruction in flight for one thread (R53 to R57): its destinations still to be written
(vector registers, or 120 + queue), its counter, how many window instructions may still issue before its
decision, whether it has been decided, the trap it found, what it has to do, its operands, whether its
flush markers have been sent (R161), whether the operand log holds it, and, where it does not, the queue elements it popped,
which a trap gives back (R5, R111). -/
structure TOp where
  id : Nat
  dsts : List Nat
  dc : Nat
  win : Nat
  decided : Bool
  doomed : Option Recorded
  what : OpKind := .other
  log : Option LogRec := none
  sent : Bool := false
  logged : Bool := true
  back : List (List QElem) := []
  deriving DecidableEq, Repr

/-- An address waiting in the address FIFO of q4 to q7 (R250, R252): its access size, the failure it carries, and
the cause it is stopped at while the supervisor team resolves it. -/
structure AddrElem where
  addr : DWord
  bytes : Nat
  err : Option (Cause × DWord)
  stop : Option Cause := none
  deriving DecidableEq, Repr

/-- States of a thread's monitor (R203). -/
inductive Monitor where
  | idle
  | armed (line : Nat)
  | fired
  deriving DecidableEq, Repr

/-- Identity of a barrier object (R369): a team's, a crew's, a cluster group's, a launch's, with its number. -/
inductive BarKey where
  | team (t i : Nat)
  | crew (c i : Nat)
  | group (g i : Nat)
  | launch (l i : Nat)
  deriving DecidableEq, Repr

/-- A barrier (R369). -/
structure Barrier where
  gen : Word
  arr : Nat
  exp : Nat
  deriving DecidableEq, Repr

/-- How a thread stands (R110, R366). -/
inductive Status where
  | live
  | parked
  | exited
  deriving DecidableEq, Repr

/-- Where a thread continues: the governing header's address and the word offset of its next instruction, and a
mark that keeps apart the threads that may not share a group (a replaying thread, R357). -/
structure Where where
  hdr : DWord
  off : Nat
  mark : Nat
  deriving DecidableEq, Repr

/-- The wait a thread is in after a run-ending form; `dst` is the first register its end writes. -/
inductive Wait where
  | rjoin (b : Nat)
  | barrier (k : BarKey) (gen : Word) (acq : Bool)
  | sleep (till : Nat)
  | yield (pending : List (Nat × Where))
  | monitor
  | migrate (die : Nat)
  | qwait (id : Nat) (marks : List (Nat × Nat))
  | token (id dst : Nat) (tok : Word)
  | rmaToken (tok : Word)
  | bank (id dst : Nat)
  | ship (dst slot : Nat)
  | svc (dst : Nat) (ticket : Option Nat)
  | mbox (id dst : Nat) (addr : DWord)
  | future (dst : Nat) (addr : DWord)
  | phaseEnd
  | quiet (id mark : Nat) (advance : Bool)
  | halted
  deriving DecidableEq, Repr

/-- A section result slot of a thread (R374, R380). -/
structure Slot where
  seq : Nat
  result : Option ShipEnd
  deriving DecidableEq, Repr

/-- The translation record a context is bound to (R94). -/
structure Xrec where
  root : Nat := 0
  dlog : Bool := false
  hosttab : Bool := false
  pasid : Nat := 0
  gen : Nat := 0
  asid : Nat := 0
  fmtrec : Nat := 0
  dlring : Nat := 0
  deriving DecidableEq, Repr

/-- One thread (R52, R342, R413 and the chapters each field names in INVENTORY.md). -/
structure Thread where
  status : Status := .live
  v : List Word := []
  p : List Bool := []
  dc : List Nat := []
  cwin : Word := 0
  pc : DWord := 0
  farPc : Option DWord := none
  callStack : List DWord := []
  tcause : Word := 0
  tval : DWord := 0
  tpc : DWord := 0
  fpstat : Word := 0
  fpmode : Word := 0
  pidx : Word := 0
  vstale : Word := 0
  flareRpc : DWord := 0
  workid : DWord := 0
  stamp : Nat := 0
  monitor : Monitor := .idle
  wait : Option Wait := none
  waitPc : DWord := 0
  backq : Option (DWord × List (List QElem)) := none
  pendingSync : Option (BarKey × Word × DWord) := none
  slots : AList Slot := []
  shipCount : Nat := 0
  ops : List TOp := []
  recorded : List Recorded := []
  savedRegs : Option (Word × DWord × DWord) := none
  replay : List LogRec := []
  replayResume : DWord := 0
  stopAt : Option Recorded := none
  inUser : Bool := false
  userHeld : Bool := false
  inFlare : Bool := false
  owesFlare : Bool := false
  owedDeadline : Option DWord := none
  owedTimer : Bool := false
  owedStep : Bool := false
  trapSeq : Nat := 0
  sideEffects : Bool := false
  lost : Option DWord := none
  marker : Option Nat := none
  inq : List (List QElem) := []
  outq : List (List (Nat × Word)) := []
  addrq : List (List AddrElem) := []
  feed : List (Nat × Word) := []
  lateFaults : List (Nat × Cause × DWord) := []
  deriving DecidableEq, Repr

/-- A store queued in its team's store queue (R159): its lane and operation, the bytes it writes under bit
masks (R149), the address of the first of them, the mode and type of its page, whether the page is a master page, its
counter, whether it is a placeholder of a parked store (R113), the page-table lines it was translated through,
whether it is translated again when it performs (R101, R117), and whether it is a packed element (R192). -/
structure StoreEntry where
  lane : Nat
  op : Nat
  dc : Option Nat
  writes : List (Nat × Byte × Byte)
  va : DWord
  mode : PageMode
  ty : MemTy
  master : Bool
  scratch : Option Nat
  scope : Scope
  placeholder : Bool
  red : Option (AtomOp × Ty × DWord)
  lines : List Nat := []
  sent : Bool := false
  again : Bool := false
  packed : Bool := false
  deriving DecidableEq, Repr

/-- Stale-read policies of a view (R175, R230). -/
inductive Policy where
  | block
  | permit
  | fault
  deriving DecidableEq, Repr

/-- Physical segments (start, length) of an area, in the order of its bytes. -/
abbrev Segs := List (Nat × Nat)

/-- One shard of a view (R229, R231, R233): where its three areas lie, its first block and its blocks. -/
structure Shard where
  elems : Segs
  scales : Segs
  tags : Segs
  first : Nat
  blocks : Nat
  deriving DecidableEq, Repr

/-- A piece of a master: its byte offset from MBASE, its physical address and its length (R228, R229). -/
structure MasterSeg where
  off : Nat
  pa : Nat
  len : Nat
  deriving DecidableEq, Repr

/-- A registered view (R228 to R234): `watch` holds the page-table entries on the walks of its translations, with
their values; `dropped` says that its handle is stale (R237), `installed` that its ranges are in force (R238). -/
structure View where
  slot : Nat
  serial : Nat
  part : Nat
  mrows : Nat
  mcols : Nat
  mtype : Ty
  vtype : Ty
  column : Bool
  policy : Policy
  master : List MasterSeg
  mstr : Nat
  shards : List Shard
  watch : List (Nat × Nat)
  faulted : Bool
  dropped : Bool
  installed : Bool
  deriving DecidableEq, Repr

/-- A K-block of a B column as the macros hold it (R314): its 32 element patterns at their dense places, and its
scale. -/
structure BBlock where
  pats : List Nat
  scale : Nat
  deriving DecidableEq, Repr

/-- State of an engine operation (R213, R217, R326). -/
inductive EngState where
  | queued
  | running
  | stopped (cause : Cause) (addr : DWord)
  | preempted
  | faulted (cause : Cause) (addr : DWord)
  | done
  | cancelled
  | aborted
  deriving DecidableEq, Repr

/-- An engine operation: its token, when it issued (R394), its number in its queue (R209), the order of its acceptance, the queues it
entered (R168), the instruction, the issuing lane, the operands captured at issue (R170, R212), its state, how
far it has come (rows of a copy; pass, chunk and row group of a matrix operation, R326), whether an abort is
recorded (R337), whether a view read of it was stale (R175), how many passes have had their banks zeroed, and
the B chunk it has captured (R170, R322). -/
structure EngOp where
  token : Word := 0
  issued : Nat := 0
  seq : Nat := 0
  order : Nat := 0
  qs : List Nat
  instr : Instr
  lane : Nat
  block : List Byte
  args : List DWord
  view : Option View := none
  state : EngState := .queued
  row : Nat := 0
  chunk : Nat := 0
  idx : Nat := 0
  abort : Bool := false
  stale : Bool := false
  zeroed : Nat := 0
  loaded : Bool := false
  cols : List (List BBlock) := []
  deriving DecidableEq, Repr

/-- How an operation ended (R374): its number, its acceptance order, its state, its progress word, whether
a trap has reported it (R217), and the queue pair and key that a trap for it names (R449). -/
structure Ended where
  seq : Nat
  order : Nat
  state : EngState
  word : Word
  reported : Bool
  remote : DWord := 0
  deriving DecidableEq, Repr

/-- An engine queue of a team (R208, R209): the operations not yet complete, the count of acceptances, how the
last 64 operations ended, and the FAULTED mark. -/
structure EngQueue where
  ops : List EngOp := []
  accepted : Nat := 0
  recent : List Ended := []
  faulted : Bool := false
  deriving DecidableEq, Repr

/-- A range-scoreboard entry (R171): the operation, the crew whose grant it covers, the span, and whether it is
an uncaptured source. -/
structure ScoreEntry where
  order : Nat
  crew : Nat
  lo : Nat
  hi : Nat
  source : Bool
  deriving DecidableEq, Repr

/-- An engine operation whose instruction has issued and which waits for acceptance (R212): the lanes that
receive its token, and the scoreboard entries it takes, by core. -/
structure PendingOp where
  op : EngOp
  lanes : List Nat
  id : Nat
  spans : List (Nat × ScoreEntry)
  deriving DecidableEq, Repr

/-- A stream of the access unit (R247 to R250): its queue, base, lane stride and levels (counter range and stride), the
next point and lane, and the fault it is stopped at (R252). -/
structure Stream where
  q : Nat
  base : DWord
  ls : DWord
  levels : List (Nat × DWord)
  point : Nat
  lane : Nat
  total : Nat
  ty : Ty
  fb : Bool
  stopped : Option (Cause × DWord) := none
  deriving DecidableEq, Repr

/-- The access context of a team (R244, R247, R254). -/
structure Access where
  s : List Word := []
  th : Thread := {}
  loops : List (Nat × DWord) := []
  streams : List Stream := []
  ended : Bool := false
  cause : Option TrapRec := none
  deriving DecidableEq, Repr

inductive TeamKind where
  | user
  | supervisor
  | lodestar
  deriving DecidableEq, Repr

/-- A pending flare vector (R399). -/
structure Flare where
  pending : Bool := false
  payload : DWord := 0
  count : Nat := 0
  mode : Nat := 0
  sender : Word := 0
  deriving DecidableEq, Repr

/-- A team in a slot, a supervisor team, or the one-thread team of a section (R242, R342, R382). A team that CTX.LOAD has
restored is `fresh` until its first run, and `restoredWith` names the handler team restored beside it (R408). -/
structure Team where
  kind : TeamKind := .user
  core : Nat := 0
  slot : Nat := 0
  crew : Option Nat := none
  launch : Option Nat := none
  ctx : Nat := 0
  part : Nat := 0
  prio : Nat := 0
  alloc : Nat := 8
  resident : Bool := true
  threads : List Thread := []
  s : List Word := []
  joins : List (Word × Word) := []
  bars : List Barrier := []
  trapbase : DWord := 0
  teamtime : DWord := 0
  deadline : DWord := 0
  opLog : List Nat := []
  storeq : List StoreEntry := []
  engq : List EngQueue := []
  pending : List PendingOp := []
  acc : Option Access := none
  flareRec : Option (Nat × Flare) := none
  flareHeld : Bool := false
  holdFor : Option Nat := none
  fresh : Bool := false
  restoredWith : Option Nat := none
  entering : Bool := false
  xrec : Option Xrec := none
  sectionReq : Option ShipReq := none
  sectionEnd : Option ShipEnd := none
  sectionCycles : Nat := 0
  sentry : Bool := false
  deriving DecidableEq, Repr

/-- A run in progress on a pipe (R29, R32): the issue group's lanes, the governing header, the words of the
clause as the run fetched them (R133), the word offset of the next instruction, its index in the clause, and
how many instructions the run has counted. -/
structure Run where
  team : Nat
  acc : Bool
  lanes : List Nat
  core : Nat
  pipe : Nat
  hdrAddr : DWord
  hdr : Word
  words : List Word
  idx : Nat
  off : Nat
  count : Nat
  needHdr : Bool
  deriving DecidableEq, Repr

/-- An accumulator bank (R137): its owner crew, and its words that are not +0.0 by number. -/
structure Bank where
  owner : Option Nat := none
  data : AList Word := []
  freeing : Bool := false
  deriving DecidableEq, Repr

/-- The resident set of the macros (R325). -/
structure ResidentSet where
  crew : Nat
  token : Word
  btype : Ty
  sparse : Nat
  k : Nat
  n : Nat
  cols : List (List BBlock)
  deriving DecidableEq, Repr

/-- A blocking request for accumulator banks (R333). -/
structure BankReq where
  id : Nat
  team : Nat
  n : Nat
  deriving DecidableEq, Repr

/-- What a mailbox entry is about, which its disposal acts on (R423, R426): threads of a team, its access context, an
engine operation by its order, an access stream by its queue or an address it has given to a lane, a service call of a thread, an access of the dispatcher or of the remote access engine
for a context, or a notice. -/
inductive MailSrc where
  | threads (team : Nat)
  | access (team : Nat)
  | engine (team order : Nat)
  | stream (team q : Nat) (lane : Option Nat)
  | svc (team lane : Nat)
  | agent (ctx : Nat)
  | notice
  deriving DecidableEq, Repr

/-- A mailbox entry (R423): its ticket and its sixteen words, and whether MBOX.TAKE has taken it. -/
structure MboxEntry where
  ticket : Nat
  words : List Word
  taken : Bool
  src : MailSrc
  deriving DecidableEq, Repr

/-- What a compute core holds beyond its teams (R132, R137, R171, R210, R324, R423). -/
structure CoreS where
  banks : AList Bank := []
  bankWaiters : List BankReq := []
  resident : Option ResidentSet := none
  engines : AList (Nat × Nat) := []
  engineRot : Nat := 0
  mxRunning : Option Nat := none
  mxRot : Nat := 0
  rowBuf : List (List Nat) := []
  accRot : Nat := 0
  score : List ScoreEntry := []
  ro : AList (List Byte) := []
  mailbox : List MboxEntry := []
  mailboxSeq : Nat := 0
  mailboxWait : List MboxEntry := []
  saving : List Nat := []
  pageAnswers : List (Nat × Bool) := []
  deriving DecidableEq, Repr

/-- A crew (R342, R134, R369, R388). -/
structure Crew where
  launch : Nat := 0
  group : Nat := 0
  core : Nat := 0
  level2 : Nat := 0
  scratch : Mem := []
  base : Nat := 0
  grant : Nat := 0
  bars : List Barrier := []
  teams : List Nat := []
  sideEffects : Bool := false
  frozen : Option Nat := none
  phase : Option Nat := none
  savedBanks : AList Bank := []
  savedResident : Option ResidentSet := none
  savedScore : List ScoreEntry := []
  deriving DecidableEq, Repr

/-- A cluster group (R342, R369): its launch, its number in ascending order of WORKID bits 63 : o3, its barriers and
its crews. -/
structure Group where
  launch : Nat := 0
  n : Nat := 0
  bars : List Barrier := []
  crews : List Nat := []
  deriving DecidableEq, Repr

/-- Who waits for a future (R390, R392): a phase, by its record, or a thread. -/
inductive Waiter where
  | phase (rec : Nat)
  | thread (team lane : Nat)
  deriving DecidableEq, Repr

/-- What a phase record holds of a thread (R389). -/
structure PhaseThread where
  exited : Bool
  pc : DWord
  carry : List Word
  fpstat : Word
  fpmode : Word
  vstale : Word
  workid : DWord
  deriving DecidableEq, Repr

/-- What a phase record holds of a team (R389); the team keeps its number, under which it may be the handler team, and its
delivery record (R399, R400). -/
structure PhaseTeam where
  team : Nat
  flareRec : Option (Nat × Flare)
  s : List Word
  trapbase : DWord
  deadline : DWord
  teamtime : DWord
  threads : List PhaseThread
  deriving DecidableEq, Repr

/-- A phase record (R389): its launch, whether it is the one a crew is first placed from, the WORKID fields of its crew, its dependence count, and its teams. -/
structure PhaseRec where
  launch : Nat
  first : Bool
  work : List Nat
  deps : Nat
  teams : List PhaseTeam
  deriving DecidableEq, Repr

/-- An entry of the section region table (R378). -/
structure Region where
  start : Nat
  stop : Nat
  asid : Nat
  remote : Bool
  rrec : Nat
  deriving DecidableEq, Repr

/-- A home context (R179, R381): its queue, the requests that wait for room in it, and the team of the section
that runs. -/
structure Home where
  queue : List ShipReq := []
  waiting : List ShipReq := []
  team : Option Nat := none
  deriving DecidableEq, Repr

/-- A residency handle (R140, R206): its priority and its ranges (start, length). -/
structure ResHandle where
  prio : Nat := 0
  ranges : List (Nat × Nat) := []
  deriving DecidableEq, Repr

/-- States of a key slot (R443). -/
inductive KeyState where
  | invalid
  | valid
  | revoking
  deriving DecidableEq, Repr

/-- A slot of a partition's key table (R443, R451): its state, the tag of its latest registration, the registering
context, and the fields of its record; `holder` is the revoke that made it REVOKING, by team and acceptance order. -/
structure KeySlot where
  state : KeyState := .invalid
  tag : Nat := 0
  ctx : Nat := 0
  base : DWord := 0
  len : Nat := 0
  rights : Nat := 0
  qpsel : Word := 0
  holder : Option (Nat × Nat) := none
  deriving DecidableEq, Repr

/-- A partition (R23, R140); `key` is the draw of its memory key, with which its granules are sealed (R434), 0 being the
device's own. -/
structure Part where
  key : Nat := 0
  units : Units := { coreUnits := [], lodestars := [], granules := [], bankUnits := [] }
  conf : Bool := false
  lockTable : DWord := 0
  windows : List ImportWindow := []
  handles : AList ResHandle := []
  regions : List Region := []
  futures : List (Nat × Waiter) := []
  phases : AList PhaseRec := []
  phaseReady : List Nat := []
  ports : List Nat := []
  viewSerials : AList Nat := []
  keys : AList KeySlot := []
  deriving DecidableEq, Repr

/-- A captured launch record (R344, R345). -/
structure LaunchRec where
  words : List Word := []
  deriving DecidableEq, Repr

inductive LaunchStage where
  | edges
  | ready
  | running
  | ending
  | ended
  deriving DecidableEq, Repr

/-- A launch (R344 to R356, R141). -/
structure Launch where
  ctx : Nat := 0
  part : Nat := 0
  device : Bool := false
  record : List Word := []
  stage : LaunchStage := .edges
  edges : List (DWord × List (Nat × Nat)) := []
  nextGroup : Nat := 0
  placedAll : Bool := false
  code : Nat := 0
  cause : Nat := 0
  tpc : DWord := 0
  tval : DWord := 0
  consts : AList (AList Word) := []
  constDefined : List Bool := []
  cbPending : List (Nat × Nat × Nat) := []
  bars : List Barrier := []
  order : Nat := 0
  deriving DecidableEq, Repr

/-- A permission-table entry of a context (R401). -/
structure PermEntry where
  words : List Word
  deriving DecidableEq, Repr

/-- TDI states (R435). -/
inductive Tdi where
  | unlocked
  | locked
  | run
  | error
  deriving DecidableEq, Repr

/-- The debug control of a context on a core (R429): single step, and the watchpoint ranges, each by its first byte and its
length. -/
structure Debug where
  step : Bool := false
  watch : List (Nat × Nat) := []
  deriving DecidableEq, Repr

/-- An image that CTX.SAVE has written (R428, R429): its core, the physical addresses of its pages, the number from which
its bytes come (log 19), the debug control, and the teams and crews it holds. -/
structure SavedImg where
  core : Nat
  pages : List Nat
  seed : Nat
  teams : List Nat
  crews : List Nat
  debug : Debug := {}
  deriving DecidableEq, Repr

/-- A context with its flare state and its virtual function's windows (R94, R349, R399 to R404, R435). -/
structure Ctx where
  xrec : Option Xrec := none
  part : Option Nat := none
  ld : Nat := 0
  enabled : Bool := false
  epoch : Nat := 0
  traffic : List Nat := []
  flares : List Flare := []
  flareMask : DWord := 0
  flareEntry : DWord := 0
  flareTeam : Option Nat := none
  perms : List PermEntry := []
  urgent : Bool := false
  saved : List SavedImg := []
  recAddr : Option Nat := none
  outcomes : List (DWord × List Word) := []
  sqbase : DWord := 0
  sqEnable : Bool := false
  sqErr : Bool := false
  sqLog2n : Nat := 0
  sqtail : Word := 0
  sqhead : Word := 0
  sqStuck : Bool := false
  captured : Option (List Word) := none
  denied : Word := 0
  tdi : Tdi := .unlocked
  passed : List DWord := []
  epochStart : Nat := 0
  ships : List (Nat × ShipSender × Option Nat) := []
  debug : AList Debug := []
  deriving DecidableEq, Repr

/-- A logical device (R430, R432): the head it is bound to, and whether that head's link went down under it. -/
structure Ld where
  head : Nat := 0
  orphaned : Bool := false
  deriving DecidableEq, Repr

/-- The lifetime counters (R455): temperature histograms by die, voltage excursions, corrected soft errors by structure
(DRAM, L2, bank memory, register file, scratchpad, private caches), uncorrectable events, lane replacements and retrains
by kind of link (die-to-die, Meridian, CXL, Ethernet), failed starts, and powered hours. -/
structure Counters where
  temps : List (List Nat) := [[], [], [], []]
  excursions : Nat := 0
  soft : List Nat := [0, 0, 0, 0, 0, 0]
  uncorrectable : Nat := 0
  lanes : List Nat := [0, 0, 0, 0]
  failedStarts : Nat := 0
  hours : Nat := 0
  deriving DecidableEq, Repr

/-- The NOR flash (R454 to R456): the count of consecutive failed starts, stage and reason of the latest one, the firmware
image, whether its signature holds under the root (R436, R453), and the counters as last written. -/
structure Nor where
  fails : Nat := 0
  stage : Nat := 0
  reason : Nat := 0
  firmware : List Byte := []
  signed : Bool := true
  counters : Counters := {}
  deriving DecidableEq, Repr

/-- The management mailbox (R431). -/
structure Mgmt where
  cmd : DWord := 0
  status : Word := 0
  buf : List Byte := []
  deriving DecidableEq, Repr

/-- Training record of one side of a die-to-die link (R16): the first of its data lanes in use, their number (half of them
at half width), and the lanes that spares replace, in that side's own numbering. -/
structure LinkSide where
  first : Nat := 0
  count : Nat := 4096
  replaced : List Nat := []
  deriving DecidableEq, Repr

/-- Training records of a die-to-die link, numbered by the die whose NEXT link it is (R15, R16). -/
structure D2d where
  next : LinkSide := {}
  prev : LinkSide := {}
  deriving DecidableEq, Repr

/-- The attestation session (R436): 0 none, 1 keys exchanged, 2 established. -/
structure Spdm where
  versioned : Bool := false
  negotiated : Bool := false
  session : Nat := 0
  deriving DecidableEq, Repr

/-- The device outside its cores (R430 to R438, R453 to R456): `identity` is the identity key once a start has derived it, and
`own` are the granules under the device's own key (log 126). -/
structure Dev where
  started : Bool := false
  minimal : Bool := false
  nor : Nor := {}
  counters : Counters := {}
  mgmt : Mgmt := {}
  lds : List Ld := List.replicate 16 {}
  trained : AList (Nat × Nat) := []
  d2d : List D2d := [{}, {}, {}, {}]
  identity : List Byte := []
  own : List Nat := [511]
  measured : List (List Byte) := []
  spdm : Spdm := {}
  ideKeys : Nat := 0
  powerLimit : Bool := false
  missed : AList (List Packet) := []
  macsec : List Nat := []
  deriving DecidableEq, Repr

/-- One direction of a Meridian link (R437): its 64-bit group counter, its flits (sent: those of the open group; received:
those of checked groups that have not been delivered), its key's number, and when the key came into use by group and by cycle. -/
structure PortDir where
  group : Nat := 0
  flits : Nat := 0
  key : Nat := 0
  keyGroup : Nat := 0
  keyCycle : Nat := 0
  deriving DecidableEq, Repr

/-- A Meridian port (R437): its two directions, the cycles of its tag failures, the discarded groups that have not come again,
and whether it is up. -/
structure Port where
  tx : PortDir := {}
  rx : PortDir := {}
  fails : List Nat := []
  resend : Nat := 0
  up : Bool := true
  deriving DecidableEq, Repr

/-- States of a queue pair (R440). -/
inductive QpState where
  | reset
  | ready
  | error
  deriving DecidableEq, Repr

/-- A packet that a requester keeps (R441): the operation it belongs to, how often it has been resent, when it was last sent, and
whether it is acknowledged: it is then not resent, and stays for the answer or the NAK that names it. -/
structure Sent where
  pkt : Packet
  team : Nat
  order : Nat
  tries : Nat
  at_ : Nat
  acked : Bool := false
  deriving DecidableEq, Repr

/-- A queue-pair context (R440 to R442): its owner, its place on the wire, its send side (next PSN, credit in units of
4 KiB, the packets it keeps, the cumulative PSN acknowledged last) and its receive side (lowest PSN not performed, PSNs performed
beyond it, packets accepted that wait for earlier ones, and the results of its last 64 ATOMs). -/
structure Qp where
  ctx : Nat := 0
  part : Nat := 0
  port : Nat := 0
  remoteQp : Nat := 0
  ips : List Byte := []
  udp : Nat := 0
  state : QpState := .reset
  sendPsn : Nat := 0
  credit : Nat := 0
  sent : List Sent := []
  acked : Option Nat := none
  recvPsn : Nat := 0
  done : List Nat := []
  waiting : List Packet := []
  atoms : List (Nat × DWord) := []
  cached : Bool := false
  deriving DecidableEq, Repr

/-- What leaves the device: section requests and results, flare raises and view blocks for other devices, packets,
answers to host and peer accesses, and answers of the attestation responder (R380, R410, R174, R439, R433, R438,
R436). -/
inductive OutMsg where
  | shipReq (device : Nat) (r : ShipReq)
  | shipResult (r : ShipResult)
  | raise (device : Nat) (r : RaiseMsg)
  | raiseOutcome (device : Nat) (reply : Nat × Nat × Nat) (status : Nat)
  | view (device : Nat) (m : ViewMsg)
  | packet (qpn : Nat) (p : Packet)
  | host (bs : List Byte)
  | peer (device : Nat) (refused : Bool) (bs : List Byte)
  | doe (code : Nat) (bs : List Byte)
  deriving DecidableEq, Repr

end Sys2Proof.Machine
end

