-- ==== Sys2Proof/Machine/State.lean ====
section
/-! DEFINITION. The state of the package (INVENTORY.md, State), the reasons a step stops, and the state right
after reset. -/

namespace Sys2Proof.Machine

/-- Why a step stops. `noIssueGroup` is raised by the meaning of an instruction word when no run is in
progress: an instruction exists only inside the run of an issue group (R29, R32), and `step` never executes
one outside it; safe. -/
inductive Fault where
  | noIssueGroup
  deriving DecidableEq, Repr

/-- An instruction without a meaning. `notModelled` is raised by an arm of `exec` that has no meaning yet; safe. -/
inductive Refusal where
  | notModelled (mnemonic : String)
  deriving DecidableEq, Repr

/-- Which agent moves next (the model's own, log 4). -/
inductive Turn where
  | issue (k : Nat)
  | flight (k : Nat)
  | select (core pipe : Nat)
  | input
  | clock
  deriving DecidableEq, Repr

/-- Tokens an agent holds of a line (R123, R124). -/
structure Holding where
  agent : AgentId
  line : Nat
  tokens : Nat
  owner : Bool
  dirty : Bool
  valid : Bool
  deriving DecidableEq, Repr

/-- A request of an agent for a line (R129): for all its tokens or for one, the cycle of its issue, and how often it has
failed. -/
structure Ask where
  agent : AgentId
  write : Bool
  at_ : Nat
  fails : Nat := 0
  deriving DecidableEq, Repr

/-- A directory entry (R126, R127), with the requests under way (R129) and the virtual address of the access that last asked
for the line (R140). -/
structure DirEntry where
  coarse : Bool := false
  umode : Option (AtomOp × Ty) := none
  body : Nat := 0
  persistent : List AgentId := []
  active : Bool := false
  collecting : Option AgentId := none
  served : Bool := false
  asks : List Ask := []
  va : Option DWord := none
  deriving DecidableEq, Repr

/-- A U copy (R130): its holder, its line, and the partial values by byte address. -/
structure UCopy where
  agent : AgentId
  line : Nat
  op : AtomOp
  ty : Ty
  vals : AList DWord
  deriving DecidableEq, Repr

/-- A software-managed copy of a line in a private cache (R165, R192): its bytes, a dirty bit mask, and the marks it
carries (R119). -/
structure SwmCopy where
  agent : AgentId
  line : Nat
  bytes : List Byte
  mask : List Byte
  poison : Bool := false
  integrity : Bool := false
  deriving DecidableEq, Repr

/-- A line that an L2 slice holds (R121): the slice's die, dirty or not, the residency handle that gave its priority (R206),
and a prefetch's wish to keep it short (1) or long (2) (R202). -/
structure L2Line where
  die : Nat
  line : Nat
  dirty : Bool := false
  handle : Option Nat := none
  wish : Nat := 0
  deriving DecidableEq, Repr

/-- What the cells of a line of DRAM hold other than what was written (R119): an error that the code corrects, one that it
does not, or one that only the tag shows. -/
inductive Upset where
  | corrected
  | uncorrectable
  | tag
  deriving DecidableEq, Repr

/-- A structure of a die's translation agent (R99): the L1 TLB of a core, by its identifier in the token protocol, the
cluster TLB of a cluster of the die, the last-level TLB, and the walk cache. -/
inductive TlbAt where
  | l1 (id : Nat)
  | cluster (c : Nat)
  | last
  | walk
  deriving DecidableEq, Repr

/-- An entry of a structure of a die's translation agent (R95, R99, R107): the context page it covers, or the part of the
address space under a non-leaf entry, its size as log2 of bytes, the page-table lines it derives from, and its dirty
state. -/
structure TEntry where
  die : Nat
  at_ : TlbAt
  asid : Nat
  gen : Nat
  page : Nat
  log2 : Nat
  lines : List Nat
  dirty : Bool
  deriving DecidableEq, Repr

/-- The generation and state of an ASID (R95). -/
structure AsidS where
  gen : Nat := 0
  retiring : Bool := false
  deriving DecidableEq, Repr

/-- The machine. -/
structure State where
  mem : Mem
  poison : List Nat
  integrity : List Nat
  bankPoison : List Nat
  upsets : AList Upset
  bankUpsets : List Nat
  sealed : AList Nat
  lineSeals : AList Nat
  l2 : List L2Line
  hold : List Holding
  dir : AList DirEntry
  ucopies : List UCopy
  swm : List SwmCopy
  tlb : List TEntry
  asids : AList AsidS
  teams : AList Team
  crews : AList Crew
  groups : AList Group
  launches : AList Launch
  ctxs : AList Ctx
  parts : AList Part
  cores : AList CoreS
  homes : AList Home
  runs : List Run
  cur : Option Nat
  cycles : DWord
  serial : Nat
  tick : Nat
  freeCtr : Nat
  mnum : Word
  views : List View
  markers : List (Nat × Nat × Nat × Nat)
  links : List Bool
  peers : List Nat
  heads : List Nat
  dev : Dev
  qps : AList Qp
  ports : AList Port
  held : List (Nat × DWord × List Byte)
  out : List OutMsg
  inputs : List Ev
  flight : List Ev
  turns : List Turn
  deriving DecidableEq, Repr

/-- The machine right after reset: memory lists nothing, no context is bound, no team is present, every
register holds the value the specification states or the one log 3 names. -/
def State.reset : State :=
  { mem := [], poison := [], integrity := [], bankPoison := [], upsets := [], bankUpsets := [], sealed := [], lineSeals := [], l2 := [], hold := [], dir := [], ucopies := [],
    swm := [], tlb := [], asids := [], teams := [], crews := [], groups := [], launches := [], ctxs := [], parts := [],
    cores := [], homes := [], runs := [], cur := none, cycles := 0, serial := 0, tick := 0, freeCtr := 0,
    mnum := BitVec.ofNat 32 Config.mnumReset, views := [], markers := [], links := [true, true, true, true], peers := [], heads := [], dev := {}, qps := [], ports := [], held := [], out := [], inputs := [], flight := [],
    turns := [] }

end Sys2Proof.Machine
end

