-- ==== Sys2Proof/Machine/Ops.lean ====
section
/-! DEFINITION. Named operations over maps, memory, threads and teams; resume addresses (R60); taking an
exception (R110, R112, R351, R362, R414, R416) as one shared operation; and the return from one. -/

namespace Sys2Proof.Machine

/-! ### Maps and lists -/

/-- The entry of a key. -/
def aget {α : Type} : AList α → Nat → Option α
  | [], _ => none
  | (k', v) :: r, k => if k' = k then some v else aget r k

/-- The map with a key set. -/
def aset {α : Type} : AList α → Nat → α → AList α
  | [], k, v => [(k, v)]
  | (k', v') :: r, k, v => if k' = k then (k, v) :: r else (k', v') :: aset r k v

/-- The map without a key. -/
def adel {α : Type} : AList α → Nat → AList α
  | [], _ => []
  | (k', v) :: r, k => if k' = k then adel r k else (k', v) :: adel r k

/-- The list with one position changed; a position past the end changes nothing. -/
def setAt {α : Type} : List α → Nat → α → List α
  | [], _, _ => []
  | _ :: r, 0, v => v :: r
  | x :: r, n + 1, v => x :: setAt r n v

/-- The element of a list at a position, or a default. -/
def getAt {α : Type} (d : α) : List α → Nat → α
  | [], _ => d
  | x :: _, 0 => x
  | _ :: r, n + 1 => getAt d r n

/-- Applies a function at each position with its number. -/
def mapAt {α β : Type} (f : Nat → α → β) : Nat → List α → List β
  | _, [] => []
  | n, x :: r => f n x :: mapAt f (n + 1) r

/-! ### Memory (R2, R143) -/

/-- The byte at an address; an unlisted byte is 0 (log 2). -/
def Mem.byte : Mem → Nat → Byte
  | [], _ => 0
  | (a', b) :: r, a => if a' = a then b else if a < a' then 0 else Mem.byte r a

/-- Writes one byte and keeps the canonical form. -/
def Mem.put : Mem → Nat → Byte → Mem
  | [], a, b => if b = 0 then [] else [(a, b)]
  | (a', b') :: r, a, b =>
    if a < a' then (if b = 0 then (a', b') :: r else (a, b) :: (a', b') :: r)
    else if a' = a then (if b = 0 then r else (a, b) :: r)
    else (a', b') :: Mem.put r a b

/-- The canonical form: addresses strictly rise and no listed byte is 0. -/
def Mem.wf : Mem → Bool
  | [] => true
  | [(_, b)] => b != 0
  | (a, b) :: (a', b') :: r => b != 0 && decide (a < a') && Mem.wf ((a', b') :: r)

/-- `n` bytes from an address up. -/
def Mem.read (m : Mem) (a : Nat) : Nat → List Byte
  | 0 => []
  | n + 1 => m.byte a :: Mem.read m (a + 1) n

/-- Writes bytes from an address up. -/
def Mem.write (m : Mem) (a : Nat) : List Byte → Mem
  | [] => m
  | b :: bs => Mem.write (m.put a b) (a + 1) bs

/-- Writes bits of bytes under masks (R149). -/
def Mem.writeMasked (m : Mem) : List (Nat × Byte × Byte) → Mem
  | [] => m
  | (a, b, k) :: r => Mem.writeMasked (m.put a ((m.byte a &&& ~~~k) ||| (b &&& k))) r

/-- The little-endian number in `n` bytes at an address (R2). -/
def Mem.nat (m : Mem) (a n : Nat) : Nat := leNat (m.read a n)

/-- The words of a byte sequence, each little-endian (R2). -/
def wordsOf : List Byte → List Word
  | a :: b :: c :: d :: r => BitVec.ofNat 32 (leNat [a, b, c, d]) :: wordsOf r
  | _ => []

/-- The 128-byte line of an address. -/
def lineOf (a : Nat) : Nat := a / 128

/-- The bit of an agent identifier in a mask. -/
def bit32 (i : Nat) : Word := 1 <<< i

/-! ### Places (R13, R18, R19) -/

/-- Die of a team's core: compute cores are numbered 160 to a die, Lodestar contexts 64 to a die. -/
def dieOf (kind : TeamKind) (core : Nat) : Nat :=
  match kind with
  | .lodestar => core / 64
  | _ => core / 160

def Team.die (t : Team) : Nat := dieOf t.kind t.core

/-- The coherent agent whose cache serves a team (R124). -/
def Team.agent (t : Team) : AgentId :=
  match t.kind with
  | .lodestar => { die := t.core / 64, id := 160 + t.core % 64 / 4 }
  | _ => { die := t.core / 160, id := t.core % 160 }

/-- Pipe of a team: its slot div 16 (R260). -/
def Team.pipe (t : Team) : Nat := t.slot / 16

/-! ### Parts of the state -/

def State.team (s : State) (k : Nat) : Team := (aget s.teams k).getD {}
def State.setTeam (s : State) (k : Nat) (t : Team) : State := { s with teams := aset s.teams k t }
def State.modTeam (s : State) (k : Nat) (f : Team → Team) : State :=
  match aget s.teams k with
  | some t => s.setTeam k (f t)
  | none => s
def State.core (s : State) (c : Nat) : CoreS := (aget s.cores c).getD {}
def State.setCore (s : State) (c : Nat) (v : CoreS) : State := { s with cores := aset s.cores c v }
def State.modCore (s : State) (c : Nat) (f : CoreS → CoreS) : State := s.setCore c (f (s.core c))
def State.ctx (s : State) (c : Nat) : Ctx := (aget s.ctxs c).getD {}
def State.setCtx (s : State) (c : Nat) (v : Ctx) : State := { s with ctxs := aset s.ctxs c v }
def State.modCtx (s : State) (c : Nat) (f : Ctx → Ctx) : State := s.setCtx c (f (s.ctx c))
def State.part (s : State) (p : Nat) : Part := (aget s.parts p).getD {}
def State.modPart (s : State) (p : Nat) (f : Part → Part) : State := { s with parts := aset s.parts p (f (s.part p)) }
def State.launch (s : State) (l : Nat) : Launch := (aget s.launches l).getD {}
def State.modLaunch (s : State) (l : Nat) (f : Launch → Launch) : State :=
  match aget s.launches l with
  | some v => { s with launches := aset s.launches l (f v) }
  | none => s
def State.crew (s : State) (c : Nat) : Crew := (aget s.crews c).getD {}
def State.modCrew (s : State) (c : Nat) (f : Crew → Crew) : State :=
  match aget s.crews c with
  | some v => { s with crews := aset s.crews c (f v) }
  | none => s
def State.modGroup (s : State) (g : Nat) (f : Group → Group) : State :=
  match aget s.groups g with
  | some v => { s with groups := aset s.groups g (f v) }
  | none => s

/-- A side effect of a phase has issued for a crew (R392). -/
def State.sideEffect (s : State) (k : Nat) : State :=
  match (s.team k).crew with
  | some c => s.modCrew c fun v => { v with sideEffects := true }
  | none => s

/-- The debug control of a context on a core (R429). -/
def State.debugOf (s : State) (core c : Nat) : Debug := (aget (s.ctx c).debug core).getD {}

/-- The thread of a lane. -/
def Team.thread (t : Team) (l : Nat) : Thread := getAt {} t.threads l
def Team.setThread (t : Team) (l : Nat) (th : Thread) : Team := { t with threads := setAt t.threads l th }
def Team.modThread (t : Team) (l : Nat) (f : Thread → Thread) : Team := t.setThread l (f (t.thread l))
def State.thread (s : State) (k l : Nat) : Thread := (s.team k).thread l
def State.modThread (s : State) (k l : Nat) (f : Thread → Thread) : State :=
  s.modTeam k fun t => t.modThread l f

/-- A fresh number of the model's own (log 4). -/
def State.fresh (s : State) : Nat × State := (s.serial, { s with serial := s.serial + 1 })

/-- A free number (log 5). -/
def State.free (s : State) (kind : Nat) : Nat × State :=
  (Config.freeNat kind s.freeCtr, { s with freeCtr := s.freeCtr + 1 })

/-- Puts an internal step at the end of the pending ones (log 4). -/
def State.push (s : State) (i : Ev) : State := { s with flight := s.flight ++ [i] }

/-- The next state. -/
def next (s : State) : Host.Outcome State Fault Refusal := .next s

/-! ### Thread registers (R51, R52, R57) -/

def Thread.vreg (t : Thread) (i : Nat) : Word := getAt 0 t.v i
def Thread.setV (t : Thread) (i : Nat) (w : Word) : Thread := { t with v := setAt t.v i w }
def Thread.pred (t : Thread) (i : Nat) : Bool := if i = 7 then true else getAt false t.p i

/-- Writes a predicate; p7 discards the write (R51). -/
def Thread.setP (t : Thread) (i : Nat) (b : Bool) : Thread :=
  if i = 7 then t else { t with p := setAt t.p i b }
def Thread.dcOf (t : Thread) (i : Nat) : Nat := getAt 0 t.dc i
def Thread.incDc (t : Thread) (i : Nat) : Thread := { t with dc := setAt t.dc i (t.dcOf i + 1) }
def Thread.decDc (t : Thread) (i : Nat) : Thread := { t with dc := setAt t.dc i (t.dcOf i - 1) }

/-- Writes consecutive vector registers, lowest first (R47). -/
def Thread.setVs (t : Thread) (i : Nat) : List Word → Thread
  | [] => t
  | w :: ws => (t.setV i w).setVs (i + 1) ws

/-! ### Resume addresses (R60) -/

/-- The canonical form of bits 56:0 of an address (R87). -/
def canon (n : Nat) : DWord := (BitVec.ofNat 57 n).signExtend 64

/-- An address is canonical when bits 63:57 copy bit 56 (R87). -/
def isCanon (a : DWord) : Bool := canon a.toNat == a

/-- The resume address of the instruction `off` words after its header; `off` 0 is the header itself. -/
def mkResume (hdr : DWord) (off : Nat) : DWord :=
  BitVec.ofNat 64 (off % 128 * 2 ^ 57 + (hdr.toNat + 4 * off) % 2 ^ 57)

/-- Sends a thread to an address: its resume address, and the whole address where it is not canonical, so that
the fetch traps (R87, R364). -/
def Thread.jump (th : Thread) (target : DWord) : Thread :=
  { th with pc := mkResume target 0, farPc := if isCanon target then none else some target }

def resumeAddr (r : DWord) : DWord := canon r.toNat
def resumeHoff (r : DWord) : Nat := r.toNat / 2 ^ 57

/-! ### Causes (R414, R415) -/

def Cause.code : Cause → Nat
  | .illegalOpcode => 1
  | .reservedField => 2
  | .illegalClause => 3
  | .operandKind => 4
  | .registerRange => 5
  | .misalignedPc => 6
  | .notOnLatencyCore => 7
  | .privileged => 8
  | .jumpTableRange => 9
  | .callStack => 10
  | .reconvergeMisuse => 11
  | .breakpoint => 12
  | .softwareTrap => 13
  | .teamTimer => 14
  | .deadline => 15
  | .fpInvalid => 16
  | .fpDivZero => 17
  | .fpOverflow => 18
  | .intDivZero => 19
  | .formatDivergence => 20
  | .formatUnsupported => 21
  | .pageNotPresent => 22
  | .pagePermission => 23
  | .pageInTransition => 24
  | .roSharedWrite => 25
  | .misalignedAccess => 26
  | .atomicUnsupported => 27
  | .addressRange => 28
  | .scratchRange => 29
  | .accumBank => 30
  | .dirtyLogFull => 31
  | .asidRetired => 32
  | .hostTableFault => 33
  | .memoryPoison => 34
  | .integrityFailure => 35
  | .copyFault => 36
  | .engineOperand => 37
  | .matrixFault => 38
  | .sparsityMetadata => 39
  | .viewStale => 40
  | .viewFaulted => 41
  | .viewRegistration => 42
  | .shipFaulted => 43
  | .shipRefused => 44
  | .lateFutureWait => 45
  | .phaseCarry => 46
  | .tokenInvalid => 47
  | .flareDenied => 48
  | .flareTarget => 49
  | .remoteAccess => 50
  | .remoteTimeout => 51
  | .fabricUnreachable => 52
  | .keyRevoked => 53
  | .svcRequest => 54
  | .mailboxFull => 55
  | .preempt => 56
  | .migrateFault => 57
  | .contextKilled => 58
  | .singleStep => 59
  | .watchpoint => 60
  | .pteMalformed => 61
  | .resourceReject => 62
  | .constantBank => 63
  | .machineCheck => 64

def Cause.route : Cause → Route
  | .pageNotPresent | .pagePermission | .pageInTransition | .dirtyLogFull | .asidRetired | .singleStep
  | .watchpoint | .pteMalformed => .s
  | .svcRequest | .preempt | .contextKilled | .resourceReject | .machineCheck => .k
  | _ => .u

/-- The causes under which a parked thread stays in its convergence sets (R110, R362). -/
def Cause.keepsSets : Cause → Bool
  | .pageNotPresent | .pagePermission | .pageInTransition | .dirtyLogFull => true
  | _ => false

/-! ### Reconvergence barriers (R361, R362) -/

/-- Release check of barrier `b`: when every participant has arrived, they are ready and the barrier is idle. -/
def Team.joinCheck (t : Team) (b : Nat) : Team :=
  let (part, arr) := getAt (0, 0) t.joins b
  if part ≠ 0 ∧ arr = part then
    { t with
      joins := setAt t.joins b (0, 0)
      threads := mapAt (fun l th =>
        if arr.getLsbD l && th.wait == some (.rjoin b) then { th with wait := none } else th) 0 t.threads }
  else t

/-- Applies the release check to barriers 0 to n-1. -/
def Team.joinChecks (t : Team) : Nat → Team
  | 0 => t
  | n + 1 => (t.joinChecks n).joinCheck n

/-- A thread leaves its convergence sets (R362). -/
def Team.leaveSets (t : Team) (l : Nat) : Team :=
  let m := ~~~(bit32 l)
  ({ t with joins := t.joins.map fun pa => (pa.1 &&& m, pa.2 &&& m) } : Team).joinChecks 16

/-! ### Mailbox entries (R423) -/

/-- The sixteen words of a mailbox entry, its ticket still zero. -/
def mboxWords (ctx : Nat) (cause : Cause) (tval tpc : DWord) (lanes : Word) (slot : Nat) (rqid : DWord)
    (svcno : Word) (args : List Word) : List Word :=
  [0, BitVec.ofNat 32 (ctx % 256 * 256 + cause.code), tval.lo, tval.hi, tpc.lo, tpc.hi, lanes,
   BitVec.ofNat 32 (slot % 64), rqid.lo, rqid.hi, svcno, 0] ++ (args ++ [0, 0, 0, 0]).take 4

/-- Sends an entry to a core's mailbox; it waits there while the mailbox is full (R422). -/
def State.postMail (s : State) (core : Nat) (words : List Word) (src : MailSrc) : State :=
  (s.modCore core fun c =>
    { c with mailboxWait := c.mailboxWait ++ [{ ticket := 0, words := words, taken := false, src := src }] }).push
    (.mailboxPost core)

/-- Sends an entry to a core unless the same one waits there. -/
def State.mailOnce (s : State) (core : Nat) (words : List Word) (src : MailSrc) : State :=
  let c := s.core core
  if (c.mailbox ++ c.mailboxWait).any fun e => e.words.tail == words.tail && e.src == src then s
  else s.postMail core words src

/-- The causes a supervisor team resolves (R109, R216, R327, R449). -/
def Cause.resolvable : Cause → Bool
  | .pageNotPresent | .pagePermission | .pageInTransition | .dirtyLogFull => true
  | _ => false

/-- Core whose supervisor team serves a team: its own core; for a section the core of its originating thread, or
compute core 0 of die 0 (R384, log 13). -/
def State.mailCore (s : State) (t : Team) : Nat :=
  match t.kind with
  | .lodestar =>
    match ((t.sectionReq.map fun r => r.origin).join : Option (Nat × Nat)) with
    | some (k, _) => ((aget s.teams k).map fun x => x.core).getD 0
    | none => 0
  | _ => t.core

/-! ### Taking an exception -/

/-- A launch ends ABORTED with the first trap registered (R351). -/
def State.abortLaunch (s : State) (l : Nat) (tr : TrapRec) : State :=
  match aget s.launches l with
  | none => s
  | some v =>
    match v.stage with
    | .ending | .ended => s
    | _ =>
      let v' := { v with stage := .ending, code := 3, cause := tr.cause.code, tpc := tr.tpc, tval := tr.tval }
      ({ s with launches := aset s.launches l v' } : State).push (.launchEnd l)

/-- A team's launch, if it still belongs to one, ends ABORTED. -/
def State.abortTeam (s : State) (k : Nat) (tr : TrapRec) : State :=
  match (s.team k).launch with
  | some l => s.abortLaunch l tr
  | none => s

/-- The thread's registers after a trap (R4, R204, R413, R414): a route-K cause writes none of them. -/
def Thread.trapRegs (th : Thread) (tr : TrapRec) : Thread :=
  match tr.cause.route with
  | .k => { th with monitor := .idle }
  | _ =>
    { th with
      savedRegs := some (th.tcause, th.tval, th.tpc)
      tcause := BitVec.ofNat 32 tr.cause.code, tval := tr.tval, tpc := tr.tpc
      monitor := .idle }

/-- Bits 56:0 of a value under a cause code in bits 63:57 (R217, R384). -/
def codeWord (c : Cause) (v : DWord) : DWord := BitVec.ofNat 64 (c.code * 2 ^ 57 + v.toNat % 2 ^ 57)

/-- The route of a cause in a team: in a section every trap that no supervisor team resolves ends it as faulted (R384). -/
def Team.routeOf (t : Team) (c : Cause) : Route := if t.kind == .lodestar && !c.resolvable then .u else c.route

/-- A cause follows route U (R414, R416, R384): it ends a section as faulted, and it ends the launch of a thread
without a user handler, or in it. -/
def State.routeU (s : State) (k l : Nat) (tr : TrapRec) : State :=
  let t := s.team k
  match t.kind with
  | .lodestar =>
    if t.sectionEnd.isSome then s
    else (s.modTeam k fun t => { t with sectionEnd := some (.faulted (codeWord tr.cause tr.tval)) }).push (.sectionStart t.core)
  | _ => if t.trapbase = 0 || (t.thread l).inUser then s.abortTeam k tr else s

/-- Takes a trap for one thread: it parks with TCAUSE, TVAL and TPC set, leaves its convergence sets unless
the cause is a page fault, and the cause goes where its route says (R4, R110, R362, R414, R416).  The
recorded trap keeps the logged operands that a replay uses (R111, R112).  A pending sync stays only for a trap at
its own instruction (R373), and no flush marker that the thread waited for counts for a later release. -/
def State.takeTrap (s : State) (k l : Nat) (rc : Recorded) : State :=
  let t := s.team k
  let th := t.thread l
  let first := th.recorded.isEmpty
  let th' := { (if first then th.trapRegs rc.trap else th) with
    status := .parked, wait := none, marker := none, recorded := th.recorded ++ [rc], trapSeq := s.serial
    pendingSync := th.pendingSync.filter fun p => p.2.2 == rc.trap.tpc }
  let t' := t.setThread l th'
  let t'' := if rc.trap.cause.keepsSets && !rc.passed then t' else t'.leaveSets l
  let s1 := ({ s with serial := s.serial + 1 } : State).setTeam k t''
  if first && (t.routeOf rc.trap.cause == .u || rc.passed) then s1.routeU k l rc.trap else s1

/-- Sends one mailbox entry for the lanes of an issue group that trapped with one cause, TVAL and TPC
(R414, R423); a route-U cause sends none. -/
def State.mailTraps (s : State) (k : Nat) : List (Nat × TrapRec) → State
  | [] => s
  | (l, tr) :: r =>
    let s1 := State.mailTraps s k r
    if (s.team k).routeOf tr.cause == .u then s1
    else if r.any fun p => p.2 == tr then s1
    else
      let t := s.team k
      let lanes := ((l, tr) :: r).foldl (fun m p => if p.2 == tr then m ||| bit32 p.1 else m) 0
      s1.postMail (s.mailCore t) (mboxWords t.ctx tr.cause tr.tval tr.tpc lanes t.slot 0 0 []) (.threads k)

/-- Takes the traps of several lanes of one issue group (R110, R423). -/
def State.takeTraps (s : State) (k : Nat) (l : List (Nat × Recorded)) : State :=
  let s1 := l.foldl (fun s p => s.takeTrap k p.1 p.2) s
  s1.mailTraps k ((l.filter fun p => !stopped s1 p.1).map fun p => (p.1, p.2.trap))
where
  /-- The thread stops at a trap that no supervisor resolves (R112). -/
  stopped (s : State) (l : Nat) : Bool :=
    match (s.thread k l).recorded with
    | rc :: _ => (s.team k).routeOf rc.trap.cause == .u || rc.passed
    | [] => false

/-- Returns from the user handler (R417): TCAUSE is 0, the thread leaves the handler, and it continues at
TPC with the logged instructions discarded; its stamp is the resume cycle (R358). -/
def Thread.returnFromTrap (th : Thread) (now : Nat) : Thread :=
  { th with
    status := .live, tcause := 0, inUser := false, pc := th.tpc, farPc := none, stamp := now, recorded := []
    replay := [], savedRegs := none }

/-- Enters the user handler (R416): PC is TRAPBASE, the registers are kept. -/
def Thread.enterHandler (th : Thread) (base : DWord) : Thread :=
  ({ th with
    status := .live, inUser := true, wait := none, recorded := [], replay := [], savedRegs := none } : Thread).jump base

end Sys2Proof.Machine
end

