-- ==== Sys2Proof/Machine/Flags.lean ====
section
/-! DEFINITION. Number formats and their flags: the value of a pattern (R265 to R269), RoundTo with overflow
and saturation (R270 to R272), and the exceptions of an operation (R273 to R276). -/

namespace Sys2Proof.Machine

/-- A floating-point format (R267): exponent and fraction bits, bias, emax, the largest significand at emax,
and which special values it has. -/
structure FpFmt where
  ebits : Nat
  fbits : Nat
  bias : Nat
  emax : Nat
  maxSig : Nat
  ieee : Bool
  hasInf : Bool
  nan : Option Nat
  deriving DecidableEq, Repr

/-- The formats of R267 with the canonical NaN of R268; other types read as .f32. -/
def fpOf : Ty → FpFmt
  | .f64 => ⟨11, 52, 1023, 1023, 2 ^ 53 - 1, true, true, some 0x7FF8000000000000⟩
  | .f16 => ⟨5, 10, 15, 15, 2 ^ 11 - 1, true, true, some 0x7E00⟩
  | .bf16 => ⟨8, 7, 127, 127, 2 ^ 8 - 1, true, true, some 0x7FC0⟩
  | .e5m2 => ⟨5, 2, 15, 15, 7, false, true, some 0x7E⟩
  | .e4m3 => ⟨4, 3, 7, 8, 14, false, false, some 0x7F⟩
  | .e3m2 => ⟨3, 2, 3, 4, 7, false, false, none⟩
  | .e2m3 => ⟨2, 3, 1, 2, 15, false, false, none⟩
  | .e2m1 => ⟨2, 1, 1, 2, 3, false, false, none⟩
  | _ => ⟨8, 23, 127, 127, 2 ^ 24 - 1, true, true, some 0x7FC00000⟩

/-- Bits of a pattern of the format. -/
def FpFmt.width (f : FpFmt) : Nat := 1 + f.ebits + f.fbits

/-- Smallest exponent: 1 - bias. -/
def FpFmt.emin (f : FpFmt) : Int := 1 - (f.bias : Int)

/-- A value a pattern stands for; a finite one is (-1)^neg × m × 2^e. -/
inductive FpVal where
  | nan (signalling : Bool)
  | inf (neg : Bool)
  | fin (neg : Bool) (m : Nat) (e : Int)
  deriving DecidableEq, Repr

/-- Exceptions in FPSTAT's layout (R274). -/
def flIV : Nat := 1
def flDZ : Nat := 2
def flOF : Nat := 4
def flUF : Nat := 8
def flNX : Nat := 16

/-- A pattern with the exceptions that forming it raised. -/
structure FpRes where
  bits : Nat
  flags : Nat
  deriving DecidableEq, Repr

/-- Value of an E8M0 pattern (R269). -/
def decodeE8m0 (x : Nat) : FpVal := if x % 256 = 255 then .nan false else .fin false 1 ((x % 256 : Nat) - 127)

/-- Value of a pattern (R267, R268). -/
def FpFmt.decode (f : FpFmt) (x : Nat) : FpVal :=
  let s := bitOfN x (f.ebits + f.fbits)
  let e := fld x f.fbits f.ebits
  let m := fld x 0 f.fbits
  let top := e = 2 ^ f.ebits - 1
  if top ∧ f.hasInf then
    if m = 0 then .inf s else .nan (m / 2 ^ (f.fbits - 1) = 0)
  else if top ∧ f.nan.isSome ∧ m = 2 ^ f.fbits - 1 then .nan false
  else if e = 0 then .fin s m (f.emin - f.fbits)
  else .fin s (2 ^ f.fbits + m) ((e : Int) - f.bias - f.fbits)
where
  bitOfN (x i : Nat) : Bool := x / 2 ^ i % 2 = 1

/-- Value of a pattern at a type. -/
def fpDecode (ty : Ty) (x : Nat) : FpVal :=
  match ty with
  | .e8m0 => decodeE8m0 x
  | _ => (fpOf ty).decode x

def FpFmt.signBit (f : FpFmt) (neg : Bool) : Nat := if neg then 2 ^ (f.ebits + f.fbits) else 0
def FpFmt.infBits (f : FpFmt) (neg : Bool) : Nat := f.signBit neg + (2 ^ f.ebits - 1) * 2 ^ f.fbits

/-- Pattern of the largest finite value. -/
def FpFmt.largest (f : FpFmt) (neg : Bool) : Nat :=
  f.signBit neg + (f.emax + f.bias) * 2 ^ f.fbits + (f.maxSig - 2 ^ f.fbits)

/-- The result on overflow (R271). -/
def FpFmt.overflow (f : FpFmt) (nosat : Bool) (mode : Rnd) (neg : Bool) : FpRes :=
  let flags := flOF + flNX
  let ieee : Nat :=
    match mode, neg with
    | .rne, _ => f.infBits neg
    | .rtz, _ => f.largest neg
    | .rdn, false => f.largest false
    | .rdn, true => f.infBits true
    | .rup, false => f.infBits false
    | .rup, true => f.largest true
  if f.ieee then ⟨ieee, flags⟩
  else if nosat then (if f.hasInf then ⟨ieee, flags⟩ else ⟨f.nan.getD (f.largest neg), flags⟩)
  else ⟨f.largest neg, flags⟩

/-- Whether a magnitude n + fraction is rounded away from zero: `r` of `2^d` shifted-out parts, and a
further sticky part. -/
def roundsUp (mode : Rnd) (neg : Bool) (n r d : Nat) (sticky : Bool) : Bool :=
  let inexact := r != 0 || sticky
  match mode with
  | .rne => decide (2 ^ d < 2 * r) || (decide (2 * r = 2 ^ d ∧ 0 < d) && (sticky || n % 2 == 1))
  | .rtz => false
  | .rdn => neg && inexact
  | .rup => !neg && inexact

/-- A magnitude m × 2^e (with a sticky part below) in units of 2^q, rounded: the integer, and whether it is
inexact. -/
def toUnits (mode : Rnd) (neg : Bool) (m : Nat) (e q : Int) (sticky : Bool) : Nat × Bool :=
  if q ≤ e then (m * 2 ^ (e - q).toNat, sticky)
  else
    let d := (q - e).toNat
    let n := m / 2 ^ d
    let r := m % 2 ^ d
    (if roundsUp mode neg n r d sticky then n + 1 else n, r != 0 || sticky)

/-- RoundTo of a finite value (R270 steps 3 and 4, R271, R273): (-1)^neg × (m × 2^e + less than 2^e where
`sticky`). -/
def FpFmt.round (f : FpFmt) (nosat : Bool) (mode : Rnd) (neg : Bool) (m : Nat) (e : Int) (sticky : Bool) : FpRes :=
  if m = 0 then ⟨f.signBit neg, 0⟩
  else
    let top : Int := (Nat.log2 m : Nat) + e
    let qmin : Int := f.emin - f.fbits
    let q : Int := if top - f.fbits < qmin then qmin else top - f.fbits
    let (n0, inexact) := toUnits mode neg m e q sticky
    let (n, q) := if n0 = 2 ^ (f.fbits + 1) then (2 ^ f.fbits, q + 1) else (n0, q)
    let qmax : Int := (f.emax : Int) - f.fbits
    if qmax < q ∨ (q = qmax ∧ f.maxSig < n) then f.overflow nosat mode neg
    else
      let bits := if n < 2 ^ f.fbits then n else ((q - qmin).toNat + 1) * 2 ^ f.fbits + (n - 2 ^ f.fbits)
      let tiny := decide (top < f.emin) &&
        !(decide (top + 1 = f.emin) &&
          decide ((toUnits mode neg m e (top - f.fbits) sticky).1 = 2 ^ (f.fbits + 1)))
      let flags := (if inexact then flNX else 0) + (if inexact && tiny then flUF else 0)
      ⟨f.signBit neg + bits, flags⟩

/-- The canonical NaN of a format; a format without NaN gives +0 and raises invalid (R268, R270). -/
def FpFmt.qnan (f : FpFmt) : FpRes :=
  match f.nan with
  | some x => ⟨x, 0⟩
  | none => ⟨0, flIV⟩

/-- An infinity in the format (R270 step 2). -/
def FpFmt.inf (f : FpFmt) (nosat : Bool) (mode : Rnd) (neg : Bool) : FpRes :=
  if f.ieee || (f.hasInf && nosat) then ⟨f.infBits neg, 0⟩
  else if f.hasInf then f.overflow nosat mode neg
  else f.overflow nosat mode neg

def FpRes.raise (r : FpRes) (fl : Nat) : FpRes := ⟨r.bits, r.flags ||| fl⟩

/-- The invalid operation: the canonical NaN. -/
def FpFmt.invalid (f : FpFmt) : FpRes := f.qnan.raise flIV

def FpVal.isNan : FpVal → Bool
  | .nan _ => true
  | _ => false

def FpVal.isSnan : FpVal → Bool
  | .nan true => true
  | _ => false

def FpVal.neg : FpVal → FpVal
  | .nan s => .nan s
  | .inf n => .inf (!n)
  | .fin n m e => .fin (!n) m e

def FpVal.sign : FpVal → Bool
  | .nan _ => false
  | .inf n => n
  | .fin n _ _ => n

def FpVal.isZero : FpVal → Bool
  | .fin _ m _ => m == 0
  | _ => false

def FpVal.isInf : FpVal → Bool
  | .inf _ => true
  | _ => false

/-- Invalid where an operand is a signalling NaN (R273). -/
def snanFlag (vs : List FpVal) : Nat := if vs.any FpVal.isSnan then flIV else 0

/-- RoundTo of any value (R270). -/
def FpFmt.roundVal (f : FpFmt) (nosat : Bool) (mode : Rnd) (v : FpVal) : FpRes :=
  match v with
  | .nan s => if s then f.qnan.raise flIV else f.qnan
  | .inf n => f.inf nosat mode n
  | .fin n m e => f.round nosat mode n m e false

/-- Exact integer of (-1)^neg × m at exponent `e` seen from exponent `e0 ≤ e`. -/
def scaled (neg : Bool) (m : Nat) (e e0 : Int) : Int :=
  let v : Int := ((m * 2 ^ (e - e0).toNat : Nat) : Int)
  if neg then -v else v

/-- Sign of an exact zero sum (R272): operands of equal sign keep it, else +0, or -0 under .rdn. -/
def zeroSign (mode : Rnd) (na nb : Bool) : Bool := if na == nb then na else mode == .rdn

/-- a + b, rounded once (R272, R298). -/
def FpFmt.add (f : FpFmt) (mode : Rnd) (a b : FpVal) : FpRes :=
  match a, b with
  | .fin na ma ea, .fin nb mb eb =>
    let e0 := if ea ≤ eb then ea else eb
    let sum := scaled na ma ea e0 + scaled nb mb eb e0
    if sum = 0 then ⟨f.signBit (zeroSign mode na nb), 0⟩
    else f.round false mode (decide (sum < 0)) sum.natAbs e0 false
  | .inf na, .inf nb => if na == nb then ⟨f.infBits na, 0⟩ else f.invalid
  | .nan _, _ | _, .nan _ => f.qnan.raise (snanFlag [a, b])
  | .inf na, _ => ⟨f.infBits na, 0⟩
  | _, .inf nb => ⟨f.infBits nb, 0⟩

/-- a × b, rounded once. -/
def FpFmt.mul (f : FpFmt) (mode : Rnd) (a b : FpVal) : FpRes :=
  let n := a.sign != b.sign
  match a, b with
  | .nan _, _ | _, .nan _ => f.qnan.raise (snanFlag [a, b])
  | .fin _ ma ea, .fin _ mb eb => f.round false mode n (ma * mb) (ea + eb) false
  | _, _ => if a.isZero || b.isZero then f.invalid else ⟨f.infBits n, 0⟩

/-- a × b + c, rounded once (R298). -/
def FpFmt.fma (f : FpFmt) (mode : Rnd) (a b c : FpVal) : FpRes :=
  let n := a.sign != b.sign
  let sn := snanFlag [a, b, c]
  match a, b, c with
  | .fin _ ma ea, .fin _ mb eb, .fin nc mc ec =>
    let e := ea + eb
    let e0 := if e ≤ ec then e else ec
    let sum := scaled n (ma * mb) e e0 + scaled nc mc ec e0
    if sum = 0 then ⟨f.signBit (zeroSign mode n nc), 0⟩
    else f.round false mode (decide (sum < 0)) sum.natAbs e0 false
  | _, _, _ =>
    if (a.isInf && b.isZero) || (a.isZero && b.isInf) then f.qnan.raise flIV
    else if a.isNan || b.isNan || c.isNan then f.qnan.raise sn
    else if a.isInf || b.isInf then
      match c with
      | .inf nc => if nc == n then ⟨f.infBits n, 0⟩ else f.invalid
      | _ => ⟨f.infBits n, 0⟩
    else ⟨f.infBits c.sign, 0⟩

/-- a ÷ b, rounded once. -/
def FpFmt.div (f : FpFmt) (mode : Rnd) (a b : FpVal) : FpRes :=
  let n := a.sign != b.sign
  match a, b with
  | .nan _, _ | _, .nan _ => f.qnan.raise (snanFlag [a, b])
  | .inf _, .inf _ => f.invalid
  | .inf _, .fin _ _ _ => ⟨f.infBits n, 0⟩
  | .fin _ _ _, .inf _ => ⟨f.signBit n, 0⟩
  | .fin _ ma ea, .fin _ mb eb =>
    if mb = 0 then (if ma = 0 then f.invalid else ⟨f.infBits n, flDZ⟩)
    else if ma = 0 then ⟨f.signBit n, 0⟩
    else
      let k := f.fbits + 4 + Nat.log2 mb
      let num := ma * 2 ^ k
      f.round false mode n (num / mb) (ea - eb - k) (num % mb != 0)

/-- Integer square root by bits: the largest r with r² ≤ x, from bit `k` down. -/
def isqrt (x : Nat) : Nat → Nat → Nat
  | 0, r => r
  | k + 1, r => let r' := r + 2 ^ k; isqrt x k (if r' * r' ≤ x then r' else r)

/-- The square root, rounded once. -/
def FpFmt.sqrt (f : FpFmt) (mode : Rnd) (a : FpVal) : FpRes :=
  match a with
  | .nan s => f.qnan.raise (if s then flIV else 0)
  | .inf n => if n then f.invalid else ⟨f.infBits false, 0⟩
  | .fin n m e =>
    if m = 0 then ⟨f.signBit n, 0⟩
    else if n then f.invalid
    else
      let k := 2 * f.fbits + 8
      let k := if (e - (k : Int)) % 2 = 0 then k else k + 1
      let x := m * 2 ^ k
      let r := isqrt x (Nat.log2 x / 2 + 1) 0
      f.round false mode false r ((e - k) / 2) (r * r != x)

/-- Compares two values that are not NaN: true where a < b; zeros are equal. -/
def FpVal.lt (a b : FpVal) : Bool :=
  match a, b with
  | .inf na, .inf nb => na && !nb
  | .inf na, _ => na
  | _, .inf nb => !nb
  | .fin na ma ea, .fin nb mb eb =>
    let e0 := if ea ≤ eb then ea else eb
    decide (scaled na ma ea e0 < scaled nb mb eb e0)
  | _, _ => false

/-- Equality of two values that are not NaN; zeros are equal whatever their signs. -/
def FpVal.eqv (a b : FpVal) : Bool := !a.isNan && !b.isNan && !a.lt b && !b.lt a

/-- The order of FMIN, FMAX and the atomic forms, in which -0 is less than +0 (R194, R299). -/
def FpVal.totalLt (a b : FpVal) : Bool :=
  if a.isZero && b.isZero then a.sign && !b.sign else a.lt b

/-- The smaller (or larger) of two patterns: a NaN gives way to the other; two NaNs give the canonical NaN. -/
def FpFmt.minmax (f : FpFmt) (isMax : Bool) (x y : Nat) : FpRes :=
  let a := f.decode x
  let b := f.decode y
  let fl := snanFlag [a, b]
  match a.isNan, b.isNan with
  | true, true => f.qnan.raise fl
  | true, false => ⟨y, fl⟩
  | false, true => ⟨x, fl⟩
  | false, false => if (if isMax then b.totalLt a else a.totalLt b) then ⟨x, fl⟩ else ⟨y, fl⟩

/-- The pattern of an integer in a format (R50). -/
def FpFmt.ofInt (f : FpFmt) (i : Int) : Nat := (f.round false .rne (decide (i < 0)) i.natAbs 0 false).bits

/-- A value rounded to an integer in a mode: the integer, and whether it is inexact. -/
def roundInt (mode : Rnd) (neg : Bool) (m : Nat) (e : Int) : Int × Bool :=
  let (n, ix) := toUnits mode neg m e 0 false
  (if neg then -(n : Int) else (n : Int), ix)

/-! ### Flags (R274 to R276) -/

/-- The trap that FPMODE enables for the exceptions raised (R276). -/
def fpTrap (fpmode : Word) (flags : Nat) : Option Cause :=
  let md := fpmode.toNat
  if bit flags 0 && bit md 0 then some .fpInvalid
  else if bit flags 1 && bit md 1 then some .fpDivZero
  else if bit flags 2 && bit md 2 then some .fpOverflow
  else none
where
  bit (x i : Nat) : Bool := x / 2 ^ i % 2 == 1

/-- FPSTAT with exceptions added (R274). -/
def addFlags (fpstat : Word) (flags : Nat) : Word := fpstat ||| BitVec.ofNat 32 (flags % 32)

end Sys2Proof.Machine
end

