-- ==== Sys2Proof/Machine/Operands.lean ====
section
/-! DEFINITION. Every operand form: registers, pairs and quads (R45 to R48), the constant window (R49),
literals (R41, R50), the operand queues (R46, R246, R252 to R254), and the writing of results. -/

namespace Sys2Proof.Machine

/-- The fields of an instruction word sequence as the issue path uses them, whatever its format. `imm` is an
immediate in place of source 1 (R36, R41). -/
structure Fields where
  len : Nat := 2
  dst : BitVec 7 := 0
  a : Src := .vec 0
  b : Src := .vec 0
  c : Src := .vec 0
  imm : Option DWord := none
  pred : BitVec 3 := 7
  pneg : Bool := false
  la : Nat := 0
  dc : Nat := 0
  deriving DecidableEq, Repr

def ofA (o : AOps) : Fields := { len := 1, dst := o.dst, a := o.a, b := o.b }
def ofB (o : BOps) : Fields := { len := 1, dst := o.dst, a := o.a, imm := some (o.imm.signExtend 64) }
def ofL (o : LOps) : Fields := { len := 2, dst := o.dst, a := o.a, imm := some o.lit.zext }
def ofX (x : XOps) : Fields :=
  { dst := x.dst, a := x.a, b := x.b, c := x.c, pred := x.pred, pneg := x.pneg, la := x.la.toNat, dc := x.dc.toNat }
def ofM (m : MOps) : Fields :=
  { dst := m.data, pred := m.pred, pneg := m.pneg, la := m.la.toNat, dc := m.dc.toNat }

/-- An effect a trapping instruction keeps as an exception to R5 (R252, R186): the faulted element of a queue goes, the
faulted address at place `i` of a queue's address FIFO, that address with the data pushed for it, or the report of a fault
found after its push or of a lost store. -/
inductive Retain where
  | nothing
  | popElem (q : Nat)
  | popAddr (q i : Nat)
  | popPair (q i : Nat)
  | popLate (q : Nat)
  | popLost
  deriving DecidableEq, Repr

/-- Why an instruction does not complete for a thread: the pipe is held, or the thread traps. -/
inductive LaneStop where
  | hold
  | trap (c : Cause) (v : DWord) (keep : Retain)
  deriving DecidableEq, Repr

/-- What one lane of an instruction computes with: it may read and change its own thread, and it ends with a
result or a stop. -/
abbrev LaneM := StateT Thread (Except LaneStop)

def hold {α : Type} : LaneM α := fun _ => .error .hold
def trapWith {α : Type} (c : Cause) (v : DWord) : LaneM α := fun _ => .error (.trap c v .nothing)
def trapKeep {α : Type} (c : Cause) (v : DWord) (k : Retain) : LaneM α := fun _ => .error (.trap c v k)
def getTh : LaneM Thread := fun th => .ok (th, th)
def modTh (f : Thread → Thread) : LaneM Unit := fun th => .ok ((), f th)

/-- The surroundings of a lane: its team and number, the uniform registers of its slice, its launch, and the
logged operands when it replays (R112). -/
structure LCtx where
  k : Nat
  lane : Nat
  team : Team
  s : List Word
  acc : Bool
  launch : Option Launch
  log : Option LogRec
  now : Nat
  deriving DecidableEq, Repr

/-- How a literal of an operand is read (R50). -/
inductive LitK where
  | int
  | fp (ty : Ty)
  deriving DecidableEq, Repr

/-- The reading of literals for a type: floating-point types denote numbers (R50). -/
def litOf (ty : Ty) : LitK :=
  match ty with
  | .f64 | .f32 | .f16 | .bf16 => .fp ty
  | _ => .int

def litBits (lk : LitK) (i : BitVec 7) : DWord :=
  match lk with
  | .int => i.signExtend 64
  | .fp ty => BitVec.ofNat 64 ((fpOf ty).ofInt i.toInt)

/-- Low 32 bits, zero-extended. -/
def low32 (x : DWord) : DWord := (DWord.lo x).zext

/-- Whether a stream of queue `q` (0 to 7) is still generating (R254). -/
def Access.generating (a : Access) (q : Nat) : Bool := a.streams.any fun st => st.q == q

/-- TVAL of ENGINE_OPERAND for a queue that can never be served again (R254): `none` while it still can. -/
def Team.deadQueue (t : Team) (q : Nat) : Option DWord :=
  match t.acc with
  | none => some 0
  | some a =>
    if a.ended && !a.generating q then
      match a.cause with
      | some tr => some (BitVec.ofNat 64 (tr.cause.code * 2 ^ 57 + tr.tpc.toNat % 2 ^ 57))
      | none => some 0
    else none

/-- Pops q0 to q3 for a thread (R46, R246, R252, R253, R254). -/
def popQ (L : LCtx) (q : Nat) : LaneM Word := fun th =>
  match getAt [] th.inq q with
  | [] =>
    match L.team.deadQueue q with
    | some v => .error (.trap .engineOperand v .nothing)
    | none => .error .hold
  | e :: r =>
    match e.err with
    | some (c, v) => .error (.trap c v (.popElem q))
    | none =>
      .ok (e.val, { th with inq := setAt th.inq q r, vstale := if e.stale then th.vstale ||| 1 else th.vstale })

/-- The first faulted address of an address FIFO, its place counted from `i`. -/
def firstBad : Nat → List AddrElem → Option (Nat × Cause × DWord)
  | _, [] => none
  | i, e :: r =>
    match e.err with
    | some (c, v) => some (i, c, v)
    | none => firstBad (i + 1) r

/-- The fault that a push of the thread finds (R252): one of a pair made after its push, a faulted address for which
data already wait, or the faulted address at the head once the data before it have their addresses. -/
def pushFault (th : Thread) (q : Nat) : Option (Cause × DWord × Retain) :=
  match th.lateFaults.find? fun p => p.1 == q with
  | some (_, c, v) => some (c, v, .popLate q)
  | none =>
    match firstBad 0 (getAt [] th.addrq q) with
    | some (i, c, v) =>
      let n := (getAt [] th.outq q).length
      if i < n then some (c, v, .popPair q i) else if i = n then some (c, v, .popAddr q i) else none
    | none => none

/-- Pushes a word to q4 to q7 (`q` is 0 to 3; R46, R246, R252, R254). -/
def pushQ (L : LCtx) (q : Nat) (w : Word) : LaneM Unit := fun th =>
  match pushFault th q with
  | some (c, v, keep) => .error (.trap c v keep)
  | none => push th
where
  push (th : Thread) : Except LaneStop (Unit × Thread) :=
    let data := getAt [] th.outq q
    match L.team.deadQueue (q + 4) with
    | some v =>
      if (getAt [] th.addrq q).length ≤ data.length then .error (.trap .engineOperand v .nothing)
      else .ok ((), { th with outq := setAt th.outq q (data ++ [(L.now, w)]) })
    | none =>
      if data.length < Config.queueDepth then .ok ((), { th with outq := setAt th.outq q (data ++ [(L.now, w)]) })
      else .error .hold

/-- Removes the first entry for a queue. -/
def dropLate (q : Nat) : List (Nat × Cause × DWord) → List (Nat × Cause × DWord)
  | [] => []
  | p :: r => if p.1 = q then r else p :: dropLate q r

/-- An operand queue without its first faulted element; the elements before it stay (R5, R252). -/
def dropFaulted : List QElem → List QElem
  | [] => []
  | e :: r => if e.err.isSome then r else e :: dropFaulted r

/-- What a trapping instruction keeps (R252), on the thread as it was before the instruction. -/
def Retain.apply (k : Retain) (th : Thread) : Thread :=
  match k with
  | .nothing => th
  | .popElem q => { th with inq := setAt th.inq q (dropFaulted (getAt [] th.inq q)) }
  | .popAddr q i => { th with addrq := setAt th.addrq q ((getAt [] th.addrq q).eraseIdx i) }
  | .popPair q i =>
    { th with
      addrq := setAt th.addrq q ((getAt [] th.addrq q).eraseIdx i)
      outq := setAt th.outq q ((getAt [] th.outq q).eraseIdx i) }
  | .popLate q => { th with lateFaults := dropLate q th.lateFaults }
  | .popLost => { th with lost := none }

/-- The entry of the constant window that an index names (R49, R141, R142). -/
def constWord (L : LCtx) (i : Nat) : LaneM Word := fun th =>
  let bank := fld th.cwin.toNat 7 3
  let base := fld th.cwin.toNat 0 7
  match L.launch with
  | none => .error (.trap .constantBank (BitVec.ofNat 64 bank) .nothing)
  | some l =>
    if !getAt false l.constDefined bank then .error (.trap .constantBank (BitVec.ofNat 64 bank) .nothing)
    else if l.cbPending.any fun p => p.1 == L.k && p.2.1 == bank then .error .hold
    else .ok ((aget ((aget l.consts bank).getD []) (128 * base + i)).getD 0, th)

/-- Reads a source of one register or a pair (R45, R47, R50). -/
def readSrc (L : LCtx) (lk : LitK) (w : Width) (src : Src) : LaneM DWord :=
  match src, w with
  | .vec i, .w32 =>
    if i.toNat < 120 then do
      let th ← getTh
      return (th.vreg i.toNat).zext
    else do
      let x ← popQ L (i.toNat - 120)
      return x.zext
  | .vec i, _ => do
    let th ← getTh
    return DWord.ofPair (th.vreg (i.toNat + 1)) (th.vreg i.toNat)
  | .uni i, .w32 => return (getAt 0 L.s i.toNat).zext
  | .uni i, _ => return DWord.ofPair (getAt 0 L.s (i.toNat + 1)) (getAt 0 L.s i.toNat)
  | .cst i, .w32 => do
    let x ← constWord L i.toNat
    return x.zext
  | .cst i, _ => do
    let lo ← constWord L i.toNat
    let hi ← constWord L (i.toNat + 1)
    return DWord.ofPair hi lo
  | .lit i, .w32 => return low32 (litBits lk i)
  | .lit i, _ => return litBits lk i

/-- Source 0. -/
def srcA (L : LCtx) (lk : LitK) (w : Width) (f : Fields) : LaneM DWord :=
  match L.log with
  | some r => return r.a
  | none => readSrc L lk w f.a

/-- Source 1, or the immediate in its place (R36, R41, R50). -/
def srcB (L : LCtx) (lk : LitK) (w : Width) (f : Fields) : LaneM DWord :=
  match L.log with
  | some r => return r.b
  | none =>
    match f.imm with
    | some v =>
      match w with
      | .w32 => return low32 v
      | _ => return v
    | none => readSrc L lk w f.b

/-- Source 2. -/
def srcC (L : LCtx) (lk : LitK) (w : Width) (f : Fields) : LaneM DWord :=
  match L.log with
  | some r => return DWord.ofPair (getAt 0 r.c 1) (getAt 0 r.c 0)
  | none => readSrc L lk w f.c

/-- `n` consecutive registers of source 2 (R379, R424). -/
def srcCs (L : LCtx) (n : Nat) (f : Fields) : LaneM (List Word) :=
  match L.log with
  | some r => return r.c
  | none =>
    match f.c with
    | .uni i => return (List.range n).map fun j => getAt 0 L.s (i.toNat + j)
    | .vec i => do
      let th ← getTh
      return (List.range n).map fun j => th.vreg (i.toNat + j)
    | .cst i => (List.range n).mapM fun j => constWord L (i.toNat + j)
    | .lit i => return List.replicate n (DWord.lo (i.signExtend 64))

/-- Writes a result of one to four words to the destination of a lane (R46, R47, R70). -/
def writeDst (L : LCtx) (d : DUse) (dst : BitVec 7) (vals : List Word) : LaneM Unit :=
  match d with
  | .none => return ()
  | .pr => modTh fun th => th.setP dst.toNat (getAt 0 vals 0 != 0)
  | .r1 =>
    if 120 ≤ dst.toNat then pushQ L (dst.toNat - 124) (getAt 0 vals 0)
    else modTh fun th => th.setV dst.toNat (getAt 0 vals 0)
  | _ => modTh fun th => th.setVs dst.toNat vals

/-- Raises exceptions for the thread (R274 to R276): it traps where FPMODE enables one of them. -/
def raiseFp (flags : Nat) : LaneM Unit := do
  let th ← getTh
  match fpTrap th.fpmode flags with
  | some c => trapWith c (BitVec.ofNat 64 (flags % 32))
  | none => modTh fun th => { th with fpstat := addFlags th.fpstat flags }

/-! ### Operand checks 5 and 6 of R58 -/

/-- Where an instruction issues: what the checks depend on. -/
structure Site where
  uni : Bool
  accSlice : Bool
  lodestar : Bool
  hasAcc : Bool
  alloc : Nat
  deriving DecidableEq, Repr

/-- TVAL of OPERAND_KIND and REGISTER_RANGE (R58). -/
def opTval (idx pos : Nat) : DWord := BitVec.ofNat 64 (idx * 256 + pos)

/-- A queue named in a position (R46): as a source it must be q0 to q3, as a destination q4 to q7. -/
def queueCheck (st : Site) (asSrc : Bool) (i pos : Nat) : Option (Cause × DWord) :=
  if st.lodestar then some (.notOnLatencyCore, opTval i pos)
  else if !st.hasAcc || (asSrc && 124 ≤ i) || (!asSrc && i < 124) then some (.operandKind, opTval i pos)
  else none

/-- Check 5 on a source of width `n` registers (R45 to R47); the argument registers of a section are no queue (R379). A queue index on a Lodestar core in a position that does not
take kind 00 gives OPERAND_KIND, not NOT_ON_LATENCY_CORE: R45 and R46 both apply and the specification does not order them
(DESIGN CHOICE, log 83). -/
def srcCheck5 (st : Site) (u : SUse) (src : Src) (pos : Nat) : Option (Cause × DWord) :=
  let bad (i : BitVec 7) : Option (Cause × DWord) := some (.operandKind, opTval i.toNat pos)
  let kindOk : Bool :=
    match u, src with
    | .none, _ | .any _, _ => true
    | .regs _, .vec _ | .regs _, .uni _ => true
    | .uniLit _, .uni _ | .uniLit _, .lit _ => true
    | .uniOnly _, .uni _ => true
    | .vecOnly _, .vec _ => true
    | .litOnly, .lit _ => true
    | .regLit _, .vec _ | .regLit _, .uni _ | .regLit _, .lit _ => true
    | .range _, .vec _ | .range _, .uni _ => true
    | _, _ => false
  let n : Nat :=
    match u with
    | .any w | .regs w | .uniLit w | .uniOnly w | .vecOnly w | .regLit w => w.regs
    | .range n => n
    | _ => 1
  let isRange : Bool :=
    match u with
    | .range _ => true
    | _ => false
  let aligned (i : BitVec 7) : Bool := isRange || i.toNat % n == 0
  match u with
  | .none => none
  | _ =>
    match src with
    | .vec i =>
      if st.accSlice || !kindOk then bad i
      else if 120 ≤ i.toNat then (if n = 1 && !isRange then queueCheck st true i.toNat pos else
        if st.lodestar then some (.notOnLatencyCore, opTval i.toNat pos) else bad i)
      else if aligned i then none else bad i
    | .uni i => if !kindOk || 64 ≤ i.toNat || !aligned i || 64 < i.toNat + n then bad i else none
    | .cst i => if st.accSlice || !kindOk || !aligned i then bad i else none
    | .lit i => if kindOk then none else bad i

/-- Check 6 on a source (R46, R47). -/
def srcCheck6 (st : Site) (u : SUse) (src : Src) (pos : Nat) : Option (Cause × DWord) :=
  let n : Nat :=
    match u with
    | .any w | .regs w | .uniLit w | .uniOnly w | .vecOnly w | .regLit w => w.regs
    | .range n => n
    | _ => 0
  match src with
  | .vec i =>
    if u.used && i.toNat < 120 && st.alloc < i.toNat + n then some (.registerRange, opTval i.toNat pos) else none
  | _ => none

/-- Check 5 on the destination (R46 to R48, R70). -/
def dstCheck5 (st : Site) (d : DUse) (i : BitVec 7) : Option (Cause × DWord) :=
  let bad : Option (Cause × DWord) := some (.operandKind, opTval i.toNat 0)
  let n : Nat :=
    match d with
    | .r2 => 2
    | .r4 => 4
    | _ => 1
  match d with
  | .none => none
  | .pr => if 8 ≤ i.toNat then bad else none
  | _ =>
    if st.uni then (if 64 ≤ i.toNat || i.toNat % n != 0 then bad else none)
    else if 120 ≤ i.toNat then
      (if n = 1 then queueCheck st false i.toNat 0
       else if st.lodestar then some (.notOnLatencyCore, opTval i.toNat 0) else bad)
    else if i.toNat % n != 0 then bad
    else none

/-- Check 6 on the destination. -/
def dstCheck6 (st : Site) (d : DUse) (i : BitVec 7) : Option (Cause × DWord) :=
  let n : Nat :=
    match d with
    | .r2 => 2
    | .r4 => 4
    | _ => 1
  match d with
  | .none | .pr => none
  | _ =>
    if !st.uni && i.toNat < 120 && st.alloc < i.toNat + n then some (.registerRange, opTval i.toNat 0) else none

/-- The first of several checks that fails. -/
def firstOf : List (Option (Cause × DWord)) → Option (Cause × DWord)
  | [] => none
  | some e :: _ => some e
  | none :: r => firstOf r

/-- Checks 5 and 6 of R58 on formats A, B, L and X: every position is examined for check 5 before any is
examined for check 6. -/
def opChecks (st : Site) (sh : Shape) (f : Fields) : Option (Cause × DWord) :=
  firstOf
    [dstCheck5 st sh.d f.dst, srcCheck5 st sh.a f.a 1, srcCheck5 st sh.b f.b 2, srcCheck5 st sh.c f.c 3,
     dstCheck6 st sh.d f.dst, srcCheck6 st sh.a f.a 1, srcCheck6 st sh.b f.b 2, srcCheck6 st sh.c f.c 3]

/-- Register use of the data of a format-M access (R43). -/
def dataUse (m : MOps) (store : Bool) : DUse × SUse :=
  match store, m.size.width with
  | true, w => (.none, .any w)
  | false, .w32 => (.r1, .none)
  | false, .w64 => (.r2, .none)
  | false, .w128 => (.r4, .none)

/-- Checks 5 and 6 of R58 on format M (R44, R46, R47); the position of the base pair is 4, and the index in TVAL is the pair
number b that the field BP holds, not the register index 2b (DESIGN CHOICE, log 85). -/
def memChecks (st : Site) (m : MOps) (store usesData : Bool) : Option (Cause × DWord) :=
  let u := dataUse m store
  let b5 :=
    if (!m.bk && 60 ≤ m.bp.toNat) || (m.bk && 32 ≤ m.bp.toNat) || (st.accSlice && !m.bk) then
      some (Cause.operandKind, opTval m.bp.toNat 4) else none
  let b6 := if !m.bk && st.alloc < 2 * m.bp.toNat + 2 then some (Cause.registerRange, opTval m.bp.toNat 4) else none
  if usesData then
    firstOf [dstCheck5 st u.1 m.data, srcCheck5 st u.2 (.vec m.data) 0, b5,
      dstCheck6 st u.1 m.data, srcCheck6 st u.2 (.vec m.data) 0, b6]
  else firstOf [b5, b6]

/-- Vector registers an instruction reads or writes, and 120 + q for the queues it pushes (R55). -/
def srcRegs (u : SUse) (src : Src) : List Nat :=
  match u, src with
  | .none, _ => []
  | .range n, .vec i => List.range' i.toNat n
  | .any w, .vec i | .regs w, .vec i | .vecOnly w, .vec i | .regLit w, .vec i => List.range' i.toNat w.regs
  | _, _ => []

def dstRegs (uni : Bool) (d : DUse) (i : BitVec 7) : List Nat :=
  match uni, d with
  | true, _ | _, .none | _, .pr => []
  | _, .r1 => [i.toNat]
  | _, .r2 => [i.toNat, i.toNat + 1]
  | _, .r4 => List.range' i.toNat 4

end Sys2Proof.Machine
end

