-- ==== Sys2Proof/Machine/Issue.lean ====
section
/-! DEFINITION. The issue of one instruction by an issue group: what it waits for (R28, R54, R55, R57), the
checks it makes (R58), the threads it executes for (R51), and what the end of an instruction and of a run do
(R29, R30, R32, R56, R358). -/

namespace Sys2Proof.Machine

/-! ### Clause headers (R26) -/

def hdrCount (h : Word) : Nat := fld h.toNat 28 4
def hdrClass (h : Word) : Nat := fld h.toNat 25 3
def hdrRunEnd (h : Word) : Bool := fld h.toNat 24 1 == 1
def hdrWmask (h : Word) : Nat := fld h.toNat 16 8
def hdrWait (h : Word) (i : Nat) : Bool := i < 15 && fld h.toNat i 1 == 1

/-- The R28 wait of instruction `i` under a header holds a thread. -/
def waitHolds (h : Word) (i : Nat) (th : Thread) : Bool :=
  hdrWait h i && (List.range 8).any fun j => fld (hdrWmask h) j 1 == 1 && th.dcOf j != 0

/-! ### Issue groups -/

/-- An issue group at an instruction: its run and team, the active and the executing lanes, and the resume
addresses of this and of the next instruction. -/
structure Grp where
  k : Nat
  idx : Nat
  run : Run
  act : List Nat
  e : List Nat
  here : DWord
  after : DWord
  f : Fields
  deriving DecidableEq, Repr

def runAt (s : State) (i : Nat) : Option Run := s.runs[i]?

/-- The thread of a lane in the slice a run executes. -/
def threadIn (s : State) (k : Nat) (acc : Bool) (l : Nat) : Thread :=
  if acc then ((s.team k).acc.getD {}).th else (s.team k).thread l

def modThreadIn (s : State) (k : Nat) (acc : Bool) (l : Nat) (f : Thread → Thread) : State :=
  if acc then s.modTeam k fun t => { t with acc := t.acc.map fun a => { a with th := f a.th } }
  else s.modThread k l f

/-- The uniform registers of the slice a run executes (R244). -/
def uniformsIn (t : Team) (acc : Bool) : List Word := if acc then (t.acc.getD {}).s else t.s

def modUniforms (s : State) (k : Nat) (acc : Bool) (f : List Word → List Word) : State :=
  s.modTeam k fun t =>
    if acc then { t with acc := t.acc.map fun a => { a with s := f a.s } } else { t with s := f t.s }

def Grp.thread (g : Grp) (s : State) (l : Nat) : Thread := threadIn s g.k g.run.acc l

/-- The surroundings of a lane (R45, R244). -/
def Grp.lctx (g : Grp) (s : State) (l : Nat) : LCtx :=
  let t := s.team g.k
  { k := g.k, lane := l, team := t, s := uniformsIn t g.run.acc, acc := g.run.acc,
    launch := t.launch.map s.launch, log := (g.thread s l).replay.head?
    now := s.serial }

/-- Where the group's instruction issues. -/
def siteOf (t : Team) (acc uni : Bool) : Site :=
  { uni := uni, accSlice := acc, lodestar := t.kind == .lodestar, hasAcc := t.acc.isSome, alloc := t.alloc }

/-- Removes lanes from a run; a run without lanes ends (R32, R56). -/
def dropLanes (s : State) (idx : Nat) (ls : List Nat) : State :=
  match runAt s idx with
  | none => s
  | some r =>
    let rest := r.lanes.filter fun l => !ls.contains l
    if rest.isEmpty then { s with runs := s.runs.eraseIdx idx }
    else { s with runs := setAt s.runs idx { r with lanes := rest } }

/-! ### Traps inside a run -/

/-- The doomed instructions of a thread, in program order, each with the point at which it resumes (R56): one that the
operand log does not hold is executed anew (R111). -/
def doomedOf (th : Thread) : List Recorded :=
  th.ops.filterMap fun o => o.doomed.map fun r => { r with resume := if o.logged then th.pc else r.trap.tpc }

/-- An instruction of the thread in flight can still trap (R53). -/
def undecided (th : Thread) : Bool := th.ops.any fun o => !o.decided && o.doomed.isNone

def dropDoomed (th : Thread) : Thread := { th with ops := th.ops.filter fun o => o.doomed.isNone }

/-- Releases the operand-log entries of instructions that no thread of the team still holds (R111). -/
def releaseLog (s : State) (k : Nat) : State :=
  s.modTeam k fun t =>
    { t with opLog := t.opLog.filter fun id => t.threads.any fun th => th.ops.any fun o => o.id == id && (o.doomed.isSome || !o.decided) }

/-- A trap of the access slice (R254): a cause the supervisor may resolve parks its thread and is reported;
any other stops the access context, which records it. -/
def trapAccess (s : State) (k : Nat) (tr : TrapRec) : State :=
  let t := s.team k
  if tr.cause.route == .u then
    s.modTeam k fun t => { t with acc := t.acc.map fun a => { a with ended := true, cause := some tr } }
  else
    (s.modTeam k fun t =>
      { t with acc := t.acc.map fun a => { a with th := { a.th with status := .parked }, cause := some tr } }).postMail
      (s.mailCore t) (mboxWords t.ctx tr.cause tr.tval tr.tpc 0 t.slot 0 0 []) (.access k)

/-- A thread traps while an earlier instruction of it can still trap: its trap is recorded, and taken with that of the
earlier one, or once that is decided (R54, R56). -/
def holdTrap (s : State) (k : Nat) (p : Nat × TrapRec × Retain) : State :=
  ({ s with serial := s.serial + 1 } : State).modThread k p.1 fun th =>
    let th := p.2.2.apply th
    let rc : Recorded := { trap := p.2.1, log := none, resume := th.pc }
    { th with ops := th.ops ++ [{ id := s.serial, dsts := [], dc := 0, win := 0, decided := false, doomed := some rc, logged := false }] }

/-- Traps lanes of a group at its instruction: the earlier doomed instructions of each are recorded first,
and the lanes leave the run (R32, R56, R110, R112). -/
def trapLanes (s : State) (k idx : Nat) (acc : Bool) (all : List (Nat × TrapRec × Retain)) : State :=
  if all.isEmpty then s
  else if acc then
    match all with
    | (_, tr, _) :: _ => trapAccess (dropLanes s idx (all.map (·.1))) k tr
    | [] => s
  else
    let late := all.filter fun p => undecided (s.thread k p.1)
    let traps := all.filter fun p => !undecided (s.thread k p.1)
    let recs := traps.flatMap fun p =>
      let th := s.thread k p.1
      let rc : Recorded :=
        match th.replay with
        | [] => { trap := p.2.1, log := none, resume := th.pc }
        | lr :: _ => { trap := p.2.1, log := some lr, resume := th.replayResume }
      (doomedOf th ++ [rc]).map fun r => (p.1, r)
    let s1 := traps.foldl (fun s p => s.modThread k p.1 fun th =>
      dropDoomed { p.2.2.apply th with replay := th.replay.tail }) (late.foldl (fun s p => holdTrap s k p) s)
    releaseLog ((dropLanes s1 idx (all.map (·.1))).takeTraps k recs) k

/-- Takes the recorded traps of lanes that no earlier instruction can trap for any more (R56). -/
def takeDoomed (s : State) (k : Nat) (ls : List Nat) : State :=
  let go := ls.filter fun l => !undecided (s.thread k l)
  let recs := go.flatMap fun l => (doomedOf (s.thread k l)).map fun r => (l, r)
  releaseLog ((go.foldl (fun s l => s.modThread k l dropDoomed) s).takeTraps k recs) k

/-- Parks lanes whose doomed instruction's window is over (R56). -/
def parkDoomed (s : State) (k idx : Nat) (ls : List Nat) : State := takeDoomed (dropLanes s idx ls) k ls

/-! ### Before an instruction issues -/

/-- The predicate of format X and M (R51); a replayed instruction is one that has executed for the thread (R112). -/
def Fields.executes (f : Fields) (th : Thread) : Bool := !th.replay.isEmpty || th.pred f.pred.toNat != f.pneg

/-- The registers of an instruction that it touches for a thread: where it does not execute it reads no operand and has no
effect (R51). -/
def Fields.touches (f : Fields) (regs : List Nat) (th : Thread) : List Nat := if f.executes th then regs else []

/-- A doomed instruction's window ends here: it is used up, or this instruction needs its destination. -/
def windowOver (regs : List Nat) (th : Thread) : Bool :=
  th.ops.any fun o => o.doomed.isSome && (o.win == 0 || o.dsts.any regs.contains)

/-- The thread waits at this instruction: R54 for an undecided instruction whose window is used up, R55 for a
register that is still to be written. -/
def mustWait (regs : List Nat) (th : Thread) : Bool :=
  th.ops.any fun o => o.doomed.isNone && ((!o.decided && o.win == 0) || o.dsts.any regs.contains)

/-- The entry waits behind a placeholder of its lane (R113). -/
def behindHole (q : List StoreEntry) (e : StoreEntry) : Bool :=
  e.placeholder || (q.takeWhile fun x => x != e).any fun x => x.lane == e.lane && x.placeholder

/-- Where an operation stands in its thread's program order: at its first issue, also when it is replayed (R112, R146). -/
def TOp.order (o : TOp) : Nat := (o.log.map fun r => r.id).getD o.id

/-- A load or an atomic operation, whose value is fixed when it ends. -/
def OpKind.fixes : OpKind → Bool
  | .load _ _ _ _ | .lds _ _ | .atom _ _ _ _ _ _ _ _ => true
  | _ => false

/-- An instruction that reads memory, to be replayed (R112). -/
def readsMem : Instr → Bool
  | .ld _ | .ldro _ | .ldmon _ | .lds _ | .atom _ _ | .atoms _ _ | .bankop _ _ => true
  | _ => false

/-- An earlier load or atomic operation of the thread has trapped and still has to be replayed (R112). -/
def loadToReplay (th : Thread) (id : Nat) : Bool :=
  (th.ops.any fun o => o.order < id && o.doomed.isSome && (o.what.fixes || (o.log.any fun r => readsMem r.instr))) ||
    (th.recorded.any fun r => r.log.any fun r => r.id < id && readsMem r.instr) || th.replay.any fun r => r.id < id && readsMem r.instr

/-- A queued store does not perform yet though the queue has come to it: it stands behind a placeholder of its thread
(R113), or behind a load that its thread still has to replay, whose value comes first (R112, R158). -/
def heldStore (t : Team) (e : StoreEntry) : Bool := behindHole t.storeq e || loadToReplay (t.thread e.lane) e.op

/-- What an operation waits for can be a store of its own thread, and so stand behind that thread's placeholder; a load
waits for a RED of its thread and for a store that is translated again only (R153). -/
def OpKind.followsStores (w : OpKind) (red : Bool) : Bool :=
  match w with
  | .load _ _ _ _ => red
  | .lds _ _ | .flare _ | .pref _ _ | .got _ _ => false
  | _ => true

/-- A thread with a doomed store or load has nothing left that can complete before the replay: every store of it is held, and
so is what its operations wait for (R113, log 29). -/
def stuckBehindHole (t : Team) (l : Nat) : Bool :=
  let th := t.thread l
  (th.ops.any fun o => o.doomed.isSome) && (t.storeq.any fun e => e.lane == l && heldStore t e) &&
    (t.storeq.all fun e => e.lane != l || heldStore t e) &&
    th.ops.all fun o => o.doomed.isSome || o.what.followsStores (t.storeq.any fun e => e.lane == l && (e.red.isSome || e.again))

/-- A thread with a doomed CBLOAD and nothing else in flight: what it waits for in a run is the bank, which its replay loads
(R142, log 29). -/
def stuckAtBank (t : Team) (l : Nat) : Bool :=
  let th := t.thread l
  (th.ops.any fun o =>
    match o.what with
    | .cbload _ _ _ => o.doomed.isSome
    | _ => false) && (th.ops.all fun o => o.doomed.isSome) && t.storeq.all fun e => e.lane != l

/-- Lanes wait inside a run: the pipe is held (R32). A lane whose wait could end only by the replay of its doomed store or
CBLOAD parks, since its window can go no further (R56, R113, R142, log 29). -/
def waitFor (s : State) (k idx : Nat) (acc : Bool) (ls : List Nat) : Host.Outcome State Fault Refusal :=
  if acc then next s
  else
    match ls.filter fun l => stuckBehindHole (s.team k) l || stuckAtBank (s.team k) l with
    | [] => next s
    | d => next (parkDoomed s k idx d)

/-- What stands between the selection of an instruction and its effect: `inl` is the step in its place (the
pipe waits, threads leave the group, or a check of R58 traps), `inr` the group that executes; `one` where the lowest
executing thread alone reads operands (R48). -/
def prologue (s : State) (f : Fields) (chk : Site → Option (Cause × DWord)) (uni : Bool) (regs : List Nat)
    (trk : Bool) (one : Bool := uni) : Except (Host.Outcome State Fault Refusal) Grp :=
  match s.cur with
  | none => .error (.fault .noIssueGroup)
  | some idx =>
    match runAt s idx with
    | none => .error (.fault .noIssueGroup)
    | some r =>
      let t := s.team r.team
      let ths := r.lanes.map fun l => (l, threadIn s r.team r.acc l)
      let elected := (ths.filter fun p => f.executes p.2).head?.map (·.1)
      let uses := fun (p : Nat × Thread) => if one && elected != some p.1 then [] else f.touches regs p.2
      let done := (ths.filter fun p => windowOver (uses p) p.2).map (·.1)
      let held := (ths.filter fun p =>
        (r.off != 0 && waitHolds r.hdr r.idx p.2) || mustWait (uses p) p.2).map (·.1)
      if !done.isEmpty then .error (next (parkDoomed s r.team idx done))
      else if !held.isEmpty then .error (waitFor s r.team idx r.acc held)
      else
        let here := mkResume r.hdrAddr r.off
        match chk (siteOf t r.acc uni) with
        | some (c, v) =>
          .error (next (trapLanes s r.team idx r.acc
            (r.lanes.map fun l => (l, { cause := c, tval := v, tpc := here }, .nothing))))
        | none =>
          let e := (ths.filter fun p => f.executes p.2).map (·.1)
          let full := (ths.filter fun p => trk && f.executes p.2 && p.2.dcOf f.dc == Config.dcMax).map (·.1)
          if !full.isEmpty then .error (waitFor s r.team idx r.acc full)
          else
            let lastIn := r.idx + 1 == hdrCount r.hdr
            let after := if lastIn then mkResume (r.hdrAddr + BitVec.ofNat 64 (4 * (r.off + f.len))) 0
              else mkResume r.hdrAddr (r.off + f.len)
            .ok { k := r.team, idx := idx, run := r, act := r.lanes, e := e, here := here, after := after, f := f }

/-! ### After an instruction -/

/-- The end of a run for a thread (R29, R358): its stamp is now, and its windows are cut;
under single step it owes a SINGLE_STEP trap (R415). -/
def cutThread (now : Nat) (step : Bool) (th : Thread) : Thread :=
  { th with stamp := now, owedStep := th.owedStep || step, ops := th.ops.map fun o => if o.decided then o else { o with win := 0 } }

/-- Removes a run. -/
def dropRun (s : State) (idx : Nat) : State := { s with runs := s.runs.eraseIdx idx }

/-- The lanes of a team that hold a doomed instruction park, their run over (R56); a lane that waits at a run-ending
instruction parks when its wait is over, since it then has executed that instruction. -/
def parkAll (s : State) (k idx : Nat) (ls : List Nat) : State :=
  takeDoomed (dropRun s idx) k
    (ls.filter fun l => (s.thread k l).wait.isNone && (s.thread k l).ops.any fun o => o.doomed.isSome)

/-- A run's context is under single step (R429). -/
def stepped (s : State) (r : Run) : Bool :=
  let t := s.team r.team
  !r.acc && t.kind == .user && (s.debugOf t.core t.ctx).step

/-- A run ends for its group (R29, R358): the stamps are taken, windows are cut, doomed threads park. -/
def endRun (s : State) (idx : Nat) : State :=
  match runAt s idx with
  | none => s
  | some r =>
    let s1 := r.lanes.foldl (fun s' l => modThreadIn s' r.team r.acc l (cutThread s.cycles.toNat (stepped s r))) s
    if r.acc then dropRun s1 idx else parkAll s1 r.team idx r.lanes

/-- A thread passes one instruction: its PC moves and the windows in front of it shrink (R54). -/
def passOne (pc : DWord) (th : Thread) : Thread :=
  match th.replay with
  | [] =>
    { th with pc := pc, farPc := none, ops := th.ops.map fun o => if o.decided then o else { o with win := o.win - 1 } }
  | _ :: [] => { th with pc := th.replayResume, farPc := none, replay := [] }
  | _ :: r :: rest => { th with pc := r.at_, farPc := none, replay := r :: rest }

/-- The run goes on to the next instruction, to the next clause, or ends (R26, R29). -/
def advanceRun (s : State) (g : Grp) (r : Run) : State :=
  if r.idx + 1 == hdrCount r.hdr then
    if hdrRunEnd r.hdr then endRun s g.idx
    else
      { s with
        runs := setAt s.runs g.idx
          { r with
            hdrAddr := r.hdrAddr + BitVec.ofNat 64 (4 * (r.off + g.f.len)), needHdr := true, idx := 0, off := 1
            count := r.count + 1 } }
  else { s with runs := setAt s.runs g.idx { r with idx := r.idx + 1, off := r.off + g.f.len, count := r.count + 1 } }

/-- The end of an instruction for the lanes still in the run: their PCs move on, and so does the run; after a replayed
instruction it ends (R112). -/
def finish (s : State) (g : Grp) (pcs : Nat → DWord) : State :=
  match runAt s g.idx with
  | none => s
  | some r =>
    if r.team != g.k || r.acc != g.run.acc then s
    else
      let s1 := r.lanes.foldl (fun s l => modThreadIn s g.k r.acc l (passOne (pcs l))) s
      if r.lanes.isEmpty then dropRun s1 g.idx
      else if r.lanes.any fun l => !(threadIn s g.k r.acc l).replay.isEmpty then endRun s1 g.idx
      else advanceRun s1 g r

/-- The group whose lanes have not trapped goes on to the next instruction. -/
def finishNext (s : State) (g : Grp) : State := finish s g fun _ => g.after

/-! ### Results of lanes -/

/-- Runs an action for one lane. -/
def Grp.runLane {α : Type} (g : Grp) (s : State) (act : LCtx → LaneM α) (l : Nat) : Except LaneStop (α × Thread) :=
  act (g.lctx s l) (g.thread s l)

/-- Some lane holds the pipe. -/
def anyHold {α : Type} (rs : List (Nat × Except LaneStop α)) : Bool :=
  rs.any fun p =>
    match p.2 with
    | .error .hold => true
    | _ => false

/-- The lanes that must wait. -/
def holdsOf {α : Type} (rs : List (Nat × Except LaneStop α)) : List Nat :=
  (rs.filter fun p =>
    match p.2 with
    | .error .hold => true
    | _ => false).map (·.1)

/-- The lanes that completed, with their results. -/
def oksOf {α : Type} (rs : List (Nat × Except LaneStop α)) : List (Nat × α) :=
  rs.filterMap fun p =>
    match p.2 with
    | .ok v => some (p.1, v)
    | .error _ => none

/-- The lanes that trap at an instruction. -/
def trapsOf {α : Type} (here : DWord) (rs : List (Nat × Except LaneStop α)) : List (Nat × TrapRec × Retain) :=
  rs.filterMap fun p =>
    match p.2 with
    | .error (.trap c v keep) => some (p.1, { cause := c, tval := v, tpc := here }, keep)
    | _ => none

/-- Stores the threads of lanes. -/
def setThreads (s : State) (k : Nat) (acc : Bool) (ts : List (Nat × Thread)) : State :=
  ts.foldl (fun s p => modThreadIn s k acc p.1 fun _ => p.2) s

/-- What lanes have read stays in its queues: the instruction traps for them after it has read their operands (R5). -/
def undoLanes (s0 s : State) (g : Grp) (ls : List Nat) : State :=
  ls.foldl (fun s l => modThreadIn s g.k g.run.acc l fun th =>
    { th with inq := (g.thread s0 l).inq, vstale := (g.thread s0 l).vstale }) s

/-- Pairs of address and data now ready at lanes that pushed to queue `q` (R250). -/
def pairEvents (s : State) (k : Nat) (d : DUse) (dst : BitVec 7) (ls : List Nat) : State :=
  if d == .r1 && 124 ≤ dst.toNat then
    let q := dst.toNat - 124
    ls.foldl (fun s l =>
      let th := s.thread k l
      if (getAt [] th.addrq q).isEmpty then s else s.push (.affStPairStore k q l))
      { s with serial := s.serial + 1 }
  else s

/-- Completes an instruction: threads are stored, traps taken, and the group goes on. -/
def complete (s : State) (g : Grp) (ts : List (Nat × Thread)) (traps : List (Nat × TrapRec × Retain)) : State :=
  finishNext (trapLanes (setThreads s g.k g.run.acc ts) g.k g.idx g.run.acc traps) g

/-- Lanes that must wait at an instruction for something other than a register (R32, R56). -/
def waitLanes (s : State) (g : Grp) (ls : List Nat) : Host.Outcome State Fault Refusal := waitFor s g.k g.idx g.run.acc ls

/-- Writes a uniform destination once (R48). -/
def setUniform (us : List Word) (dst : Nat) : List Word → List Word
  | [] => us
  | w :: ws => setUniform (setAt us dst w) (dst + 1) ws

/-- An instruction that computes words for each executing thread and writes them to DST, or, as a uniform
variant, computes once from the lowest executing thread (R48, R51). A uniform variant with a queue source pops the queue of
that thread only, since it reads no other thread's operands: R46 says one element for each executing thread, and the
specification does not say which holds (DESIGN CHOICE, log 84). -/
def valueOp (s : State) (i : Instr) (f : Fields) (uni : Bool) (act : LCtx → LaneM (List Word)) :
    Host.Outcome State Fault Refusal :=
  let sh := i.shape
  let regs := srcRegs sh.a f.a ++ srcRegs sh.b f.b ++ srcRegs sh.c f.c ++ dstRegs uni sh.d f.dst
  match prologue s f (fun st => opChecks st sh f) uni regs false with
  | .error o => o
  | .ok g =>
    if uni then
      match g.e with
      | [] => next (finishNext s g)
      | l :: _ =>
        match g.runLane s act l with
        | .error .hold => waitLanes s g [l]
        | .error (.trap c v keep) =>
          next (complete s g [] [(l, { cause := c, tval := v, tpc := g.here }, keep)])
        | .ok (ws, th) =>
          next (complete (modUniforms s g.k g.run.acc fun us => setUniform us f.dst.toNat ws) g [(l, th)] [])
    else
      let rs := g.e.map fun l =>
        (l, g.runLane s (fun L => do let ws ← act L; writeDst L sh.d f.dst ws) l)
      if anyHold rs then waitLanes s g (holdsOf rs)
      else
        let s1 := complete s g ((oksOf rs).map fun p => (p.1, p.2.2)) (trapsOf g.here rs)
        next (pairEvents s1 g.k sh.d f.dst ((oksOf rs).map (·.1)))

/-! ### Tracked instructions (R53 to R57, R111) -/

/-- The source values a tracked instruction's log entry keeps (R111); queue elements are popped. A replay has them in
its log entry (R112). -/
def logOperands (i : Instr) (f : Fields) (sh : Shape) (here : DWord) (L : LCtx) : LaneM LogRec :=
  match L.log with
  | some r => return r
  | none => do
    let a ← rd sh.a f.a L
    let b ← match f.imm with
      | some v => pure v
      | none => rd sh.b f.b L
    let c ← match sh.c with
      | .range n => srcCs L n f
      | .vecOnly .w128 => srcCs L 4 f
      | u => do
        let v ← rd u f.c L
        pure [v.lo, v.hi]
    return { at_ := here, instr := i, a := a, b := b, c := c, base := 0, data := [] }
where
  /-- A literal of an atomic form is read as its TYPE says (R50, R193). -/
  lit : LitK :=
    match i with
    | .atom _ x | .red _ x | .atoms _ x | .bankop _ x => litOf x.ty
    | _ => .int
  rd (u : SUse) (src : Src) (L : LCtx) : LaneM DWord :=
    match u with
    | .none | .litOnly => return 0
    | .any w | .regs w | .uniLit w | .uniOnly w | .vecOnly w | .regLit w => readSrc L lit w src
    | .range _ => return 0

/-- The instruction is the last of its run: its window is empty whatever its lookahead (R54). -/
def Grp.lastOfRun (g : Grp) : Bool := g.run.idx + 1 == hdrCount g.run.hdr && hdrRunEnd g.run.hdr

/-- The lookahead a tracked instruction issues with: 0 while the operand log is full (R111), at the end of its run (R54),
at a replay (R112), and in an access slice. -/
def Grp.la (g : Grp) (s : State) : Nat :=
  if g.run.acc || g.lastOfRun || decide (Config.logEntries ≤ (s.team g.k).opLog.length) ||
      g.act.any (fun l => !(g.thread s l).replay.isEmpty) then 0 else g.f.la

/-- Lanes of a tracked instruction that trap at its decision point: with a window `la` and a log entry they
go on through the window before they park (R56, R111); otherwise they park at once. -/
def trapTracked (s : State) (g : Grp) (id la : Nat) (dsts : List Nat) (log : LCtx → LaneM LogRec)
    (traps : List (Nat × TrapRec × Retain)) : State :=
  if traps.isEmpty then s
  else if la = 0 then
    trapLanes s g.k g.idx g.run.acc traps
  else
    let s1 := s.modTeam g.k fun t => { t with opLog := if t.opLog.contains id then t.opLog else t.opLog ++ [id] }
    traps.foldl (fun s p =>
      let th := s.thread g.k p.1
      match log (g.lctx s p.1) th with
      | .error _ => trapLanes s g.k g.idx false [p]
      | .ok (lr, th') =>
        let op : TOp := { id := id, dsts := dsts, dc := g.f.dc, win := la + 1, decided := false,
                          doomed := some { trap := p.2.1, log := some { lr with id := id }, resume := g.after } }
        let th2 := p.2.2.apply th'
        s.modThread g.k p.1 fun _ => { th2 with ops := th2.ops ++ [op] }) s1

end Sys2Proof.Machine
end

