-- ==== Sys2Proof/Machine/Lines.lean ====
section
/-! DEFINITION. Lines of memory: regions and reach (R17, R88), marks (R119), update-only lines (R130, R131), tokens
(R123 to R127), software-managed copies (R165, R192, R465), view reads (R175), master writes (R173), monitors
(R204), and the write itself. -/

namespace Sys2Proof.Machine

/-! ### Regions and reach -/

/-- Memory type of a physical address (R88). -/
def regionOf (pa : Nat) : Option MemTy :=
  if pa < 0x8000000000 then some .dram
  else if pa < 0x8010000000 then some .bank
  else if pa < 0x4000000000000 then none
  else if pa < 0x8000000000000 then some .peer
  else if pa < 0x10000000000000 then some .host
  else none

/-- Device number of a PEER address (R88). -/
def peerDevice (pa : Nat) : Nat := pa / 2 ^ 41 % 512

/-- Whether a number's bits hi..lo are all zero. -/
def zeroBits (w lo len : Nat) : Bool := fld w lo len == 0

def bitOf (w i : Nat) : Bool := fld w i 1 == 1

/-- Die of a DRAM or BANK address (R18, R88). -/
def dieOfPa (pa : Nat) : Nat := if pa < 0x8000000000 then pa / 2 ^ 37 else fld pa 26 2

/-- The links of a path once round the ring from die `a`, `n` long, are all up. -/
def ringUp (up : List Bool) (a : Nat) : Nat → Bool
  | 0 => true
  | n + 1 => getAt true up (a % 4) && ringUp up (a + 1) n

/-- Both paths between two dies are lost (R17). -/
def State.cut (s : State) (a b : Nat) : Bool :=
  !ringUp s.links a ((b + 4 - a % 4) % 4) && !ringUp s.links b ((a + 4 - b % 4) % 4)

/-- Whether the target of an access from a die can be reached (R17, R88): otherwise what names it, a device or a die. -/
def State.unreachable (s : State) (die : Nat) (ty : MemTy) (pa : Nat) : Option Nat :=
  match ty with
  | .dram | .bank => if s.cut die (dieOfPa pa) then some (dieOfPa pa) else none
  | .peer => if s.peers.contains (peerDevice pa) then none else some (peerDevice pa)
  | .host => if s.heads.isEmpty || s.cut die 0 then some 0 else none

/-- TVAL of FABRIC_UNREACHABLE found before the decision point (R186). -/
def unreachableTval (ty : MemTy) (n : Nat) (va : DWord) : DWord :=
  match ty with
  | .peer => BitVec.ofNat 64 n
  | _ => va

/-- Puts a step at the end of the pending ones unless it waits there already. -/
def State.pushOnce (s : State) (e : Ev) : State := if s.flight.contains e then s else s.push e

/-- A Meridian port leads to a device: the topology of a domain is free (R437; log 5). -/
def State.portLeads (s : State) (d p : Nat) : Bool := ((aget s.ports p).getD {}).up && Config.freeNat 24 (p * 320 + d) % 2 == 1

/-- The Meridian paths to a device (R162, R437). -/
def State.pathsTo (s : State) (d : Nat) : List Nat := (List.range 36).filter (s.portLeads d)

/-! ### Homes, and what the home slice has (R121, R122, R126) -/

/-- Home die of a line (R18, R122). -/
def homeDie (line : Nat) : Nat :=
  match regionOf (line * 128) with
  | some .dram | some .bank => dieOfPa (line * 128)
  | _ => 0

/-- Channel of a line on its die, and so the slice of any die that may hold it (R18, R121, R122). -/
def channelOf (line : Nat) : Nat := Nat.xor (line % 64) (line / 64 % 64)

/-- Home slice of a line: its die and channel (R18, R122). -/
def homeSlice (line : Nat) : Nat := homeDie line * 64 + channelOf line

def State.entry (s : State) (line : Nat) : DirEntry := (aget s.dir line).getD {}
def State.setEntry (s : State) (line : Nat) (d : DirEntry) : State := { s with dir := aset s.dir line d }

/-- A line in its home slice (R121). -/
def L2Line.own (x : L2Line) : Bool := x.die == homeDie x.line

/-- The home slice's copy of a line is dirty (R121). -/
def State.homeDirty (s : State) (line : Nat) : State :=
  if s.l2.any fun x => x.line == line && x.own && !x.dirty then
    { s with l2 := s.l2.map fun x => if x.line == line && x.own then { x with dirty := true } else x }
  else s

/-! ### Update-only state (R130, R131) -/

/-- Bytes of a type in memory. -/
def tyBytes (ty : Ty) : Nat :=
  match ty with
  | .s64 | .n64 | .b64 | .f64 => 8
  | .s16 | .n16 | .f16 | .bf16 => 2
  | .s8 | .n8 | .e4m3 | .e5m2 | .e3m2 | .e2m3 | .e2m1 | .e8m0 | .s4 | .n4 => 1
  | _ => 4

/-- Whether a value of a type is negative or positive as a signed number. -/
def asInt (ty : Ty) (v : Nat) : Int :=
  match ty with
  | .s32 => (BitVec.ofNat 32 v).toInt
  | .s64 => (BitVec.ofNat 64 v).toInt
  | _ => (v : Int)

/-- The value an atomic operation writes (R194); values are patterns of the type. -/
def atomNew (op : AtomOp) (ty : Ty) (old b c : Nat) : Nat :=
  let f := fpOf ty
  let isF := ty == .f32 || ty == .f64
  let w := 2 ^ (8 * tyBytes ty)
  match op with
  | .add => if isF then (f.add .rne (f.decode old) (f.decode b)).bits else (old + b) % w
  | .min =>
    if isF then (f.minmax false old b).bits
    else if asInt ty b < asInt ty old then b else old
  | .max =>
    if isF then (f.minmax true old b).bits
    else if asInt ty old < asInt ty b then b else old
  | .and => old &&& b
  | .or => old ||| b
  | .xor => old ^^^ b
  | .exch => b
  | .cas => if old = b then c else old
  | .inc => if b ≤ old then 0 else old + 1
  | .dec => if old = 0 || b < old then b else old - 1
  | .mul => if isF then (f.mul .rne (f.decode old) (f.decode b)).bits else old * b % w
  | .fma => (f.fma .rne (f.decode old) (f.decode b) (f.decode c)).bits

/-- Combines the partial values of one U copy into memory. -/
def combineU (m : Mem) (u : UCopy) : Mem :=
  u.vals.foldl (fun m p =>
    let n := tyBytes u.ty
    m.write p.1 (leBytes n (atomNew u.op u.ty (m.nat p.1 n) p.2.toNat 0))) m

/-- Ends update-only mode of a line: the home gathers every U copy (R131).  The order of the copies is open
(R131); the model takes them in the order they were granted (log 14). -/
def State.endUmode (s : State) (line : Nat) : State :=
  let (mine, rest) := s.ucopies.partition fun u => u.line == line
  if mine.isEmpty then s
  else
    let d := (aget s.dir line).getD {}
    State.homeDirty { s with
      mem := mine.foldl combineU s.mem, ucopies := rest
      dir := aset s.dir line { d with umode := none } } line

/-- Memory as a read of a byte by the device itself meets it: update-only mode of the line ends (R131, R183). -/
def State.memAt (s : State) (a : Nat) : Mem := (s.endUmode (lineOf a)).mem

/-- Ends update-only mode of every line an access touches. -/
def State.endUmodes (s : State) (pa n : Nat) : State :=
  (s.endUmode (lineOf pa)).endUmode (lineOf (pa + n - 1))

/-! ### Tokens (R123, R125) -/

/-- A step that carries tokens of a line. -/
def carriesLine (line : Nat) : Ev → Bool
  | .tokenDataResponse _ ln _ => ln == line
  | _ => false

/-- The home's own copy of a line is not dirty any more: the receiver of the owner token is responsible for the data
(R123). -/
def State.homeClean (s : State) (line : Nat) : State :=
  if s.l2.any fun x => x.line == line && x.own && x.dirty then
    { s with l2 := s.l2.map fun x => if x.line == line && x.own then { x with dirty := false } else x }
  else s

/-- All tokens of a line go to one agent (a write), from every agent, from the home, and from the messages that
carry them; the other agents' copies are dropped. -/
def State.gatherAll (s : State) (a : AgentId) (line : Nat) : State :=
  let d := (aget s.dir line).getD {}
  State.homeClean { s with
    hold := { agent := a, line := line, tokens := Config.lineTokens, owner := true, dirty := true, valid := true } ::
      s.hold.filter fun h => h.line != line
    flight := s.flight.filter fun e => !carriesLine line e
    dir := if d.collecting.isSome then aset s.dir line { d with collecting := none } else s.dir } line

/-- All tokens of some lines return to their homes, from every agent and from the messages that carry them, for a write that
is made there (R123, R192). -/
def State.gatherHome (s : State) (lines : List Nat) : State :=
  { s with
    hold := s.hold.filter fun h => !lines.contains h.line
    flight := s.flight.filter fun e => !lines.any fun ln => carriesLine ln e }

/-- An agent whose persistent request is active has made its access (R129). -/
def State.serve (s : State) (a : AgentId) (line : Nat) : State :=
  match aget s.dir line with
  | some d => if d.active && d.persistent.head? == some a && !d.served then { s with dir := aset s.dir line { d with served := true } } else s
  | none => s

/-- Whether an agent holds a readable copy of a line. -/
def State.holdsLine (s : State) (a : AgentId) (line : Nat) : Bool :=
  s.hold.any fun h => h.agent == a && h.line == line && 0 < h.tokens && h.valid

/-- Tokens of a line that messages carry, and whether one of them is the owner token. -/
def carried (s : State) (line : Nat) : Nat × Bool :=
  s.flight.foldl (fun (r : Nat × Bool) e =>
    match e with
    | .tokenDataResponse _ ln t => if ln = line then (r.1 + t.tokens, r.2 || t.owner) else r
    | _ => r) (0, false)

/-- Tokens of a line that agents hold, and whether one of them is the owner token. -/
def heldTokens (s : State) (line : Nat) : Nat × Bool :=
  s.hold.foldl (fun (r : Nat × Bool) h => if h.line = line then (r.1 + h.tokens, r.2 || h.owner) else r) (0, false)

/-- Tokens the home slice of a line holds: all that neither an agent nor a message has (R123). -/
def homeTokens (s : State) (line : Nat) : Nat × Bool :=
  let a := carried s line
  let b := heldTokens s line
  (Config.lineTokens - (a.1 + b.1), !(a.2 || b.2))

/-- What an agent holds of a line. -/
def holdingOf (s : State) (a : AgentId) (line : Nat) : Option Holding :=
  s.hold.find? fun h => h.agent == a && h.line == line

/-- Takes an agent's holding away. -/
def dropHolding (s : State) (a : AgentId) (line : Nat) : State :=
  { s with hold := s.hold.filter fun h => !(h.agent == a && h.line == line) }

/-- Gives tokens to an agent; `data` says whether valid data comes with them. -/
def addTokens (s : State) (a : AgentId) (line : Nat) (t : TokenMsg) (data : Bool) : State :=
  let old : Holding := (holdingOf s a line).getD
    { agent := a, line := line, tokens := 0, owner := false, dirty := false, valid := false }
  let new : Holding := { old with
    tokens := old.tokens + t.tokens, owner := old.owner || t.owner, dirty := old.dirty || t.dirty
    valid := old.valid || data }
  { dropHolding s a line with hold := new :: (dropHolding s a line).hold }

/-! ### The directory entry (R126, R127) -/

/-- The translation agent of a die, and the instruction cache of a core of it: members of engine group 1 (R99, R124). -/
def walkerOf (die : Nat) : AgentId := { die := die, id := 177 }
def icacheOf (die core : Nat) : AgentId := { die := die, id := 512 + core }

/-- Identifier by which a line's directory names an agent: its own, or its die's proxy (R12, R124); the instruction
caches have that of their group (R124). -/
def dirId (line : Nat) (a : AgentId) : Nat :=
  let rel := (a.die + 4 - homeDie line) % 4
  if rel = 0 then (if 512 ≤ a.id then 177 else a.id) else 180 + rel

/-- Group of an identifier in the coarse vector (R127). -/
def dirGroup (id : Nat) : Nat :=
  if id < 160 then id / 4
  else if id < 176 then 40 + (id - 160) / 4
  else if id < 180 then 44 + (id - 176)
  else 48 + (id - 181)

/-- Pointer `i` of an entry, if valid. -/
def dirPointer (d : DirEntry) (i : Nat) : Option Nat := if fld d.body (40 + i) 1 = 1 then some (fld d.body (10 * i) 9) else none

def dirPointers (d : DirEntry) : List Nat := (List.range 4).filterMap (dirPointer d)

/-- The entry with pointers to some identifiers. -/
def pointBody (ids : List Nat) : Nat :=
  (mapAt (fun i id => 2 ^ (40 + i) + id * 2 ^ (10 * i)) 0 ids).foldl (· + ·) 0

/-- The entry names one more agent (R127). -/
def dirAdd (d : DirEntry) (id : Nat) : DirEntry :=
  if d.coarse then
    { d with body := if fld d.body (dirGroup id) 1 = 1 then d.body else d.body + 2 ^ dirGroup id }
  else
    let ps := dirPointers d
    if ps.contains id then d
    else if ps.length < 4 then { d with body := pointBody (ps ++ [id]) }
    else
      { d with coarse := true
               body := ((id :: ps).map dirGroup).eraseDups.foldl (fun b g => b + 2 ^ g) 0 }

/-- Whether an invalidation of the line goes to an agent (R127). -/
def dirNames (d : DirEntry) (id : Nat) : Bool :=
  if d.coarse then fld d.body (dirGroup id) 1 == 1 else (dirPointers d).contains id

/-- An entry returns to pointers, with none, when the home holds all tokens (R127). -/
def tidyEntry (s : State) (line : Nat) : State :=
  if (homeTokens s line).1 = Config.lineTokens then
    let d := s.entry line
    s.setEntry line { d with coarse := false, body := 0 }
  else s

/-- A persistent request of another agent is active on the line (R129). -/
def claimedByOther (d : DirEntry) (a : AgentId) : Bool :=
  d.active &&
    match d.persistent with
    | p :: _ => p != a
    | [] => false

/-! ### Storage of DRAM: keys, codes and tags (R118 to R120, R434) -/

/-- Granule of a line, and the partition that holds it (R23). -/
def granuleOf (line : Nat) : Nat := line / 2 ^ 23
def State.granuleOwner (s : State) (line : Nat) : Option Nat :=
  (s.parts.find? fun p => p.2.units.granules.contains (granuleOf line)).map (·.1)

/-- The key under which a line is read and written now: that of the partition that holds its granule, or the device's own
(R118, R434). -/
def State.heldKey (s : State) (line : Nat) : Nat := ((s.granuleOwner line).map fun p => (s.part p).key).getD 0

/-- The home sends tokens of a line: with the owner token it hands over the dirty state of its copy (R123). -/
def State.homeGive (s : State) (line n : Nat) (own : Bool) : TokenMsg × State :=
  ({ tokens := n, owner := own, dirty := own && s.l2.any fun x => x.line == line && x.own && x.dirty },
    if own then s.homeClean line else s)

/-- The key under which a line was last written to DRAM (R120). -/
def State.sealKey (s : State) (line : Nat) : Nat :=
  (aget s.lineSeals line).getD ((aget s.sealed (granuleOf line)).getD 0)

/-- What a read of a line from DRAM finds (R119, R120). -/
def State.dramCheck (s : State) (line : Nat) : Option Upset :=
  if s.sealKey line = s.heldKey line then aget s.upsets line else some .tag

/-- A line is written to DRAM: it is stored under the key of now with a fresh code and tag (R118). -/
def State.sealLine (s : State) (line : Nat) : State :=
  if regionOf (line * 128) != some .dram then s else
  { s with
    upsets := adel s.upsets line
    lineSeals :=
      if (aget s.sealed (granuleOf line)).getD 0 = s.heldKey line then adel s.lineSeals line
      else aset s.lineSeals line (s.heldKey line) }

/-- A line is read from DRAM: a corrected error is written back and counted, and any other marks the line (R119). -/
def State.readDram (s : State) (line : Nat) : State :=
  let s1 : State := { s with upsets := adel s.upsets line }
  match s.dramCheck line with
  | none => s
  | some .corrected =>
    { s1 with
      dev := { s1.dev with counters := { s1.dev.counters with
        soft := setAt s1.dev.counters.soft 0 (getAt 0 s1.dev.counters.soft 0 + 1) } } }
  | some .uncorrectable => if s.poison.contains line then s1 else { s1 with poison := line :: s1.poison }
  | some .tag => if s.integrity.contains line then s1 else { s1 with integrity := line :: s1.integrity }

/-- A read of bank memory checks the code of its units: one with an uncorrectable error becomes poisoned (R139). -/
def State.readBank (s : State) (pa n : Nat) : State :=
  let hit := ((List.range ((pa + n - 1) / 8 - pa / 8 + 1)).map (pa / 8 + ·)).filter s.bankUpsets.contains
  if hit.isEmpty then s
  else
    { s with
      bankUpsets := s.bankUpsets.filter fun u => !hit.contains u
      bankPoison := hit.filter (fun u => !s.bankPoison.contains u) ++ s.bankPoison }

/-! ### The L2 slices (R121, R140) -/

/-- Set of a slice's 1,024 in which a line falls (R121). DESIGN CHOICE (log 105): the address bits above those of the
channel. -/
def l2Index (line : Nat) : Nat := line / 64 % 1024

/-- Ways of a set for lines of the own die and of others (R121). -/
def l2Ways (own : Bool) : Nat := if own then 12 else 4

/-- What the set of a line holds in the slice of a die that takes it (R121), the oldest first. -/
def State.l2Set (s : State) (die line : Nat) : List L2Line :=
  s.l2.filter fun x => x.die == die && channelOf x.line == channelOf line && l2Index x.line == l2Index line

/-- Priority of a residency handle of the partition that holds a line (R140). -/
def State.handlePrio (s : State) (line : Nat) (h : Option Nat) : Nat :=
  match h, s.granuleOwner line with
  | some h, some p => ((aget (s.part p).handles h).map (·.prio)).getD 0
  | _, _ => 0

/-- The handle whose range covers a virtual address of a line with the highest priority (R140, R206). -/
def State.handleFor (s : State) (line : Nat) (va : Option DWord) : Option Nat :=
  match va, s.granuleOwner line with
  | some v, some p =>
    ((s.part p).handles.filter fun h => h.2.ranges.any fun r => decide (r.1 ≤ v.toNat) && decide (v.toNat < r.1 + r.2)).foldl
      (fun (b : Option Nat) h => if s.handlePrio line b < h.2.prio || b.isNone then some h.1 else b) none
  | _, _ => none

/-- The lines of a set with their priorities: of those with priority 3, no more than 12 count as such (R140). DESIGN CHOICE
(log 106): the oldest 12; a further one counts as priority 2. -/
def State.l2Ranks (s : State) : Nat → List L2Line → List (L2Line × Nat)
  | _, [] => []
  | n, x :: r =>
    let p := s.handlePrio x.line x.handle
    if p = 3 then (x, if n < 12 then 3 else 2) :: s.l2Ranks (n + 1) r else (x, p) :: s.l2Ranks n r

/-- The lines of a set that may be replaced for one of the same kind of die: those of the lowest priority among them (R140),
one that a prefetch wished short first, one that it wished long last (R202). DESIGN CHOICE (log 106): lines of the other
kind, which could make no room, are not counted. -/
def State.l2Victims (s : State) (own : Bool) (set : List L2Line) : List L2Line :=
  let ranks := (s.l2Ranks 0 set).filter fun x => x.1.own == own
  let low := (ranks.filter fun x => ranks.all fun y => decide (x.2 ≤ y.2)).map (·.1)
  let short := low.filter fun x => x.wish == 1
  let mid := low.filter fun x => x.wish != 2
  if short.isEmpty then (if mid.isEmpty then low else mid) else short

/-- A line leaves its home slice: update-only mode ends (R131), and dirty data goes to DRAM (R118, R121). -/
def State.l2Evict (s : State) (x : L2Line) : State :=
  let s1 := s.endUmode x.line
  let mine := fun (y : L2Line) => y.line == x.line && y.die == x.die
  let s2 : State := { s1 with l2 := s1.l2.filter fun y => !mine y }
  if s1.l2.any fun y => mine y && y.dirty then s2.sealLine x.line else s2

/-- A home slice holds the lines of stacked DRAM and of host pages of MODE COH (R121, R122). -/
def l2Holds (mode : PageMode) (line : Nat) : Bool :=
  match regionOf (line * 128) with
  | some .dram => true
  | some .host => mode == .coh
  | _ => false

/-- A line is served by its home slice, which takes it in where it does not hold it (R121): where the set is full one of
its lines goes, which one is open (R140; log 5), and a line of DRAM is read and checked (R119) unless the access writes
all of it. A line whose tokens are all with agents is not served by its home (R125). An access without an address of its own
goes by that of the last request for the line (R140). -/
def State.homeFill (s : State) (mode : PageMode) (line : Nat) (va : Option DWord) (wish : Nat) (full : Bool) : State :=
  if !l2Holds mode line || (homeTokens s line).1 = 0 || s.l2.any (fun x => x.line == line && x.own) then s
  else
    let set := s.l2Set (homeDie line) line
    let s1 :=
      if (set.filter L2Line.own).length < 12 then s
      else
        let vs := s.l2Victims true set
        let (n, s1) := s.free 56
        match vs[n % vs.length]? with
        | some v => s1.l2Evict v
        | none => s1
    let s2 := if full || regionOf (line * 128) != some .dram then s1 else s1.readDram line
    let at_ := va.orElse fun _ => (s2.entry line).va
    { s2 with l2 := s2.l2 ++ [{ die := homeDie line, line := line, handle := s2.handleFor line at_, wish := wish }] }

/-! ### Software-managed copies (R165, R192) -/

def State.swmCopy (s : State) (a : AgentId) (line : Nat) : Option SwmCopy :=
  s.swm.find? fun c => c.agent == a && c.line == line

/-- The agent that an L2 slice is for the software-managed lines of other dies that it holds (R121, R122). -/
def sliceOf (die line : Nat) : AgentId := { die := die, id := 256 + channelOf line }

/-- Lines of other dies leave the slices that hold them. -/
def State.awayDrop (s : State) (p : L2Line → Bool) : State :=
  let out := s.l2.filter fun x => !x.own && p x
  if out.isEmpty then s
  else
    { s with
      l2 := s.l2.filter fun x => !out.contains x
      swm := s.swm.filter fun c => !out.any fun x => c.line == x.line && c.agent == sliceOf x.die x.line }

/-- A line goes through the slice of a reader's die where that is not its home (R121): that slice takes it in, a
software-managed one with the bytes of the home copy. -/
def State.awayFill (s : State) (die : Nat) (mode : PageMode) (line : Nat) (va : Option DWord) (wish : Nat) : State :=
  if regionOf (line * 128) != some .dram || mode == .home || die == homeDie line ||
      s.l2.any (fun x => x.line == line && x.die == die) then s
  else
    let set := s.l2Set die line
    let s1 :=
      if (set.filter fun x => !x.own).length < l2Ways false then s
      else
        let vs := s.l2Victims false set
        let (n, s1) := s.free 57
        match vs[n % vs.length]? with
        | some v => s1.awayDrop fun x => x == v
        | none => s1
    { s1 with
      l2 := s1.l2 ++ [{ die := die, line := line, handle := s1.handleFor line (va.orElse fun _ => (s1.entry line).va), wish := wish }]
      swm :=
        if mode == .swm then
          s1.swm ++ [{ agent := sliceOf die line, line := line, bytes := s1.mem.read (line * 128) 128, mask := List.replicate 128 0
                       poison := s1.poison.contains line, integrity := s1.integrity.contains line }]
        else s1.swm }

/-- A line that no agent of a die holds a token of any more leaves that die's slice (R127; log 107). -/
def State.awayTidy (s : State) (line : Nat) : State :=
  s.awayDrop fun x => x.line == line && !s.hold.any fun h => h.line == line && h.agent.die == x.die

/-- Bytes of a software-managed line that a die has written home are in that die's slice too (R165; log 109). -/
def State.slicePatch (s : State) (die : Nat) (ws : List (Nat × Byte × Byte)) : State :=
  if s.swm.any fun c => 256 ≤ c.agent.id && c.agent.die == die && ws.any fun w => lineOf w.1 == c.line then
    { s with
      swm := s.swm.map fun c =>
        if c.agent == sliceOf die c.line then
          { c with bytes := ws.foldl (fun bs w =>
              if lineOf w.1 == c.line then setAt bs (w.1 % 128) ((getAt 0 bs (w.1 % 128) &&& ~~~w.2.2) ||| (w.2.1 &&& w.2.2))
              else bs) c.bytes }
        else c }
  else s

/-- A byte as an agent sees it on a page of a mode. -/
def State.byteFor (s : State) (a : Option AgentId) (mode : PageMode) (pa : Nat) : Byte :=
  match mode, a with
  | .swm, some ag =>
    match s.swmCopy ag (lineOf pa) with
    | some c => getAt 0 c.bytes (pa % 128)
    | none => s.mem.byte pa
  | _, _ => s.mem.byte pa

def State.bytesFor (s : State) (a : Option AgentId) (mode : PageMode) (pa n : Nat) : List Byte :=
  (List.range n).map fun i => s.byteFor a mode (pa + i)

/-! ### Marks (R119) -/

/-- Poison and integrity marks of a line as an agent meets them on a page of a mode: those of its own software-managed
copy, else the line's (R119). -/
def State.lineMarks (s : State) (a : Option AgentId) (mode : PageMode) (line : Nat) : Bool × Bool :=
  match mode, (a.map fun a => s.swmCopy a line).join with
  | .swm, some c => (c.poison, c.integrity)
  | _, _ => (s.poison.contains line, s.integrity.contains line)

/-- Poison and integrity marks on the bytes an access consumes: the integrity flag decides (R119, R139). -/
def State.memErrorFor (s : State) (a : Option AgentId) (mode : PageMode) (pa n : Nat) : Option Cause :=
  let ms := [lineOf pa, lineOf (pa + n - 1)].map (s.lineMarks a mode)
  let units := (List.range ((pa + n - 1) / 8 - pa / 8 + 1)).map (pa / 8 + ·)
  if ms.any (·.2) then some .integrityFailure
  else if ms.any (·.1) || units.any s.bankPoison.contains then some .memoryPoison
  else none

/-- The marks on bytes of memory itself. -/
def State.memError (s : State) (pa n : Nat) : Option Cause := s.memErrorFor none .home pa n

/-- A line has a poisoned byte (R119, R139). -/
def State.poisonedLine (s : State) (ln : Nat) : Bool :=
  s.poison.contains ln || s.integrity.contains ln || s.bankPoison.any fun u => u / 16 == ln

/-! ### Views (R173, R175, R231 to R233) -/

/-- Offset of a physical address inside segments. -/
def segOffset : Segs → Nat → Nat → Option Nat
  | [], _, _ => none
  | (a, n) :: r, base, pa => if a ≤ pa && pa < a + n then some (base + (pa - a)) else segOffset r (base + n) pa

/-- Physical address of an offset inside segments. -/
def segAddr : Segs → Nat → Nat
  | [], _ => 0
  | (a, n) :: r, o => if o < n then a + o else segAddr r (o - n)

/-- Bytes of a block's elements, and whether the view has scales (R231). -/
def viewBits (ty : Ty) : Nat :=
  match ty with
  | .e2m1 => 4
  | .e3m2 | .e2m3 => 6
  | .e4m3 | .e5m2 => 8
  | .f16 | .bf16 => 16
  | _ => 32

def View.blockBytes (v : View) : Nat := 4 * viewBits v.vtype
def View.scaled (v : View) : Bool :=
  match v.vtype with
  | .e2m1 | .e3m2 | .e2m3 | .e4m3 | .e5m2 => true
  | _ => false

/-- The block of a view whose element or scale area holds a physical address (R233). -/
def View.blockAt (v : View) (pa : Nat) : Option Nat :=
  v.shards.findSome? fun sh =>
    match segOffset sh.elems 0 pa with
    | some o => some (sh.first + o / v.blockBytes)
    | none => (segOffset sh.scales 0 pa).map (sh.first + ·)

/-- Physical address of the tag of a block (R231). -/
def View.tagAddr (v : View) (n : Nat) : Option Nat :=
  v.shards.findSome? fun sh =>
    if sh.first ≤ n && n < sh.first + sh.blocks then some (segAddr sh.tags (4 * (n - sh.first))) else none

/-- The tag of a block (R232). -/
def State.tagOf (s : State) (v : View) (n : Nat) : Nat :=
  match v.tagAddr n with
  | some a => (s.memAt a).nat a 4
  | none => 0

def tagFresh (t : Nat) : Bool := fld t 16 1 == 1
def tagPend (t : Nat) : Bool := fld t 17 1 == 1

/-- What a view read meets (R175, R178). -/
inductive ViewHit where
  | plain
  | stale
  | wait
  | trap (c : Cause)
  deriving DecidableEq, Repr

def ViewHit.worse : ViewHit → ViewHit → ViewHit
  | .trap c, _ => .trap c
  | _, .trap c => .trap c
  | .wait, _ | _, .wait => .wait
  | .stale, _ | _, .stale => .stale
  | _, _ => .plain

/-- The policy applied to a read of `n` bytes at a physical address. -/
def State.viewHit (s : State) (pa n : Nat) : ViewHit :=
  s.views.foldl (fun h v =>
    if !v.installed then h
    else
      ((List.range n).map fun i => pa + i).foldl (fun h a =>
        match v.blockAt a with
        | none => h
        | some b =>
          if v.faulted then h.worse (.trap .viewFaulted)
          else if tagFresh (s.tagOf v b) then h
          else
            match v.policy with
            | .block => h.worse .wait
            | .permit => h.worse .stale
            | .fault => h.worse (.trap .viewStale)) h) .plain

/-- Number of the master element at a byte offset of the master, and the view block it belongs to (R228,
R231): a row view's block runs along a row, a column view's down a column. -/
def View.blockOfElem (v : View) (r c : Nat) : Nat :=
  if v.column then c * (v.mrows / 32) + r / 32 else r * (v.mcols / 32) + c / 32

/-- Bytes of a master element. -/
def View.msize (v : View) : Nat := if v.mtype == .f32 then 4 else 2

/-- Byte offset of a physical address inside a master. -/
def masterOffset : List MasterSeg → Nat → Option Nat
  | [], _ => none
  | g :: r, pa => if g.pa ≤ pa && pa < g.pa + g.len then some (g.off + (pa - g.pa)) else masterOffset r pa

/-- Physical address of a byte offset of a master. -/
def masterAddr : List MasterSeg → Nat → Nat
  | [], _ => 0
  | g :: r, o => if g.off ≤ o && o < g.off + g.len then g.pa + (o - g.off) else masterAddr r o

/-- The view block that derives from a physical byte (R173). -/
def View.derived (v : View) (pa : Nat) : Option Nat :=
  (masterOffset v.master pa).map fun o => v.blockOfElem (o / v.mstr) (o % v.mstr / v.msize)

/-- A write that becomes visible moves armed monitors of other threads to FIRED (R204). -/
def State.fireMonitors (s : State) (line : Nat) (self : Option (Nat × Nat)) : State :=
  { s with
    teams := s.teams.map fun kt =>
      (kt.1, { kt.2 with
        threads := mapAt (fun l th =>
          if th.monitor == .armed line && self != some (kt.1, l) then { th with monitor := .fired } else th) 0 kt.2.threads }) }

/-- A block's tag after a master write: not fresh, pending (R173). -/
def tagCleared (t : Nat) : Nat := t % 2 ^ 16 + 2 ^ 17

/-- Clears a block's fresh bit and sets its pending bit; its recomputation begins (R173, R174). -/
def State.clearBlock (s : State) (v : View) (b : Nat) : State :=
  match v.tagAddr b with
  | some a =>
    let s0 := s.endUmode (lineOf a)
    let t := s0.mem.nat a 4
    let s1 := ({ s0 with mem := s0.mem.write a (leBytes 4 (tagCleared t)) } : State).fireMonitors (lineOf a) none
    if tagPend t then s1 else s1.push (.parallaxRecompute v.part v.slot b)
  | none => s

/-- A master write clears each derived block: a block held on this device at once, a block on another device by a
message (R173). -/
def State.masterWrite (s : State) (pa : Nat) : State :=
  s.views.foldl (fun s v =>
    match v.faulted || !v.installed, v.derived pa with
    | false, some b =>
      match v.tagAddr b with
      | some a =>
        if regionOf a == some .peer then
          (if s.flight.contains (.remoteViewBlockClear v.part v.slot b) then s
           else s.push (.remoteViewBlockClear v.part v.slot b))
        else s.clearBlock v b
      | none => s
    | _, _ => s) s

/-! ### Writing -/

/-- Marks a view FAULTED (R178); readers that wait on it meet the mark. -/
def State.faultView (s : State) (part slot : Nat) : State :=
  { s with views := s.views.map fun v => if v.part == part && v.slot == slot then { v with faulted := true } else v }

/-- A write to a page-table line removes every translation derived from it (R101, R102); a queued store that still goes
through one is translated again when it performs (log 90). -/
def State.dropTranslations (s : State) (line : Nat) : State :=
  let s1 := { s with tlb := s.tlb.filter fun e => !e.lines.contains line }
  if s.teams.any fun kt => kt.2.storeq.any fun e => e.lines.contains line && !e.again then
    { s1 with
      teams := s.teams.map fun kt =>
        (kt.1, { kt.2 with storeq := kt.2.storeq.map fun e => if e.lines.contains line then { e with again := true } else e }) }
  else s1

/-- Views whose translations a performed write has changed become FAULTED (R234). -/
def State.faultChanged (s : State) (lines : List Nat) : State :=
  { s with
    views := s.views.map fun v =>
      if v.watch.any fun w => lines.contains (lineOf w.1) && s.mem.nat w.1 8 != w.2 then { v with faulted := true } else v }

/-- A full-line write clears the marks of a poisoned line, and a write of all of an 8-byte unit of bank memory those of
the unit (R119, R139). -/
def State.clearMarks (s : State) (line : Nat) : State :=
  { s with poison := s.poison.filter (· != line), integrity := s.integrity.filter (· != line) }

def State.clearUnits (s : State) (ws : List (Nat × Byte × Byte)) : State :=
  let kept := fun (u : Nat) => (ws.filter fun w => w.1 / 8 == u && w.2.2 == 0xFF).length != 8
  if s.bankPoison.isEmpty && s.bankUpsets.isEmpty then s
  else { s with bankPoison := s.bankPoison.filter kept, bankUpsets := s.bankUpsets.filter kept }

/-- Lines that a write covers whole. -/
def fullLines (ws : List (Nat × Byte × Byte)) : List Nat :=
  ((ws.map fun w => lineOf w.1).eraseDups).filter fun ln =>
    (ws.filter fun w => lineOf w.1 == ln && w.2.2 == 0xFF).length == 128

/-- A write to an agent's own software-managed copies (R165, R192). -/
def State.cacheWrite (s : State) (a : AgentId) (ws : List (Nat × Byte × Byte)) : State :=
  let full := fullLines ws
  let put := fun (c : SwmCopy) (w : Nat × Byte × Byte) =>
    if lineOf w.1 == c.line then
      let i := w.1 % 128
      { c with
        bytes := setAt c.bytes i ((getAt 0 c.bytes i &&& ~~~w.2.2) ||| (w.2.1 &&& w.2.2))
        mask := setAt c.mask i (getAt 0 c.mask i ||| w.2.2) }
    else c
  let upd := fun (c : SwmCopy) =>
    if c.agent == a then
      let c1 := ws.foldl put c
      if full.contains c.line then { c1 with poison := false, integrity := false } else c1
    else c
  { s with swm := s.swm.map upd }

/-- A write that performs where the line is served, at its home or in the cache that holds all its tokens: update-only
mode ends (R131), monitors fire (R204), translations derived from the line go (R102), and so do other agents' tokens. -/
def State.homeWrite (s : State) (ag : Option AgentId) (mode : PageMode) (self : Option (Nat × Nat))
    (ws : List (Nat × Byte × Byte)) (va : Option DWord := none) : State :=
  match ws with
  | [] => s
  | _ :: _ =>
    let lines := (ws.map fun w => lineOf w.1).eraseDups
    let fill := fun (s : State) ln => (s.endUmode ln).homeFill mode ln va 0 ((fullLines ws).contains ln)
    let s0 := lines.foldl fill s
    let s1 := { s0 with mem := s0.mem.writeMasked ws }
    let s2 := (lines.foldl (fun s ln => (s.fireMonitors ln self).dropTranslations ln) s1).faultChanged lines
    let s3 :=
      match mode, ag with
      | .coh, some a => lines.foldl (fun (s : State) ln => ((s.gatherAll a ln).awayTidy ln).serve a ln) s2
      | _, _ => lines.foldl (fun (s : State) ln => s.homeDirty ln) (s2.gatherHome lines)
    ((fullLines ws).foldl (fun (s : State) ln => s.clearMarks ln) s3).clearUnits ws

/-! ### Accesses that a line has to wait for (R101, R103, R159) -/

/-- Operations of a thread whose value is still to be fixed (R159, R196). -/
def fixesValue (o : TOp) : Bool := o.doomed.isNone && o.what.fixes

/-- An earlier load or atomic operation of the thread is still in flight. -/
def earlierLoad (th : Thread) (id : Nat) : Bool := th.ops.any fun o => o.order < id && fixesValue o

/-- Data that a lane has pushed to q4 to q7 and that an address may still join: the store of each stands in program
order at its push (R253). -/
def pairable (t : Team) (l : Nat) : List (Nat × Word) :=
  let th := t.thread l
  [0, 1, 2, 3].flatMap fun q =>
    let ds := getAt [] th.outq q
    if (t.deadQueue (q + 4)).isNone then ds else ds.take (getAt [] th.addrq q).length

/-- An operation in flight will push to q4 to q7 data that an address may join. -/
def TOp.pushes (t : Team) (o : TOp) : Bool :=
  o.doomed.isNone && o.dsts.any fun d => decide (124 ≤ d) && (t.deadQueue (d - 120)).isNone

/-- A load or another operation of the thread still has to push to q4 to q7: its data stand in program order at that
instruction (R253). -/
def earlierPush (t : Team) (l id : Nat) : Bool := (t.thread l).ops.any fun o => o.order < id && o.pushes t

/-- Data pushed before an operation wait for their address, or are still to be pushed. -/
def earlierData (t : Team) (l id : Nat) : Bool := ((pairable t l).any fun d => d.1 < id) || earlierPush t l id

/-- A store of a lane older than an operation has not performed. -/
def earlierStore (t : Team) (l id : Nat) : Bool :=
  (t.storeq.any fun e => e.lane == l && e.op < id) || earlierData t l id

/-- A range instruction of the thread before an operation is not complete (R184). -/
def earlierRange (th : Thread) (id : Nat) : Bool :=
  th.ops.any fun o =>
    o.order < id && o.doomed.isNone &&
      match o.what with
      | .range _ _ _ _ => true
      | _ => false

/-- A queued store writes a page-table line through which some translation goes. -/
def ptStore (s : State) (e : StoreEntry) : Bool :=
  e.scratch.isNone && (e.writes.map fun w => lineOf w.1).any fun ln =>
    s.tlb.any (fun x => x.lines.contains ln) || s.teams.any fun kt => kt.2.storeq.any fun x => x.lines.contains ln

/-- The teams whose queued stores were translated through a line that a queued store of a team writes. -/
def ptWaits (s : State) (j : Nat) : List Nat :=
  let ls := ((s.team j).storeq.filter (ptStore s)).flatMap fun e => e.writes.map fun w => lineOf w.1
  (s.teams.filter fun kt => kt.1 != j && kt.2.storeq.any fun e => e.lines.any ls.contains).map (·.1)

/-- The teams that some teams' page-table stores wait for in so many steps. -/
def ptReach (s : State) : Nat → List Nat → List Nat
  | 0, js => js
  | n + 1, js => ptReach s n (js ++ js.flatMap (ptWaits s)).eraseDups

/-- The wait of a queued store can end only by something that may itself wait for a page-table store: another translation, an
address for earlier data, an atomic operation, or an engine's access to scratchpad. -/
def StoreEntry.unsure (s : State) (t : Team) (e : StoreEntry) : Bool :=
  e.again || earlierData t e.lane e.op || (e.scratch.isSome && !(s.core t.core).score.isEmpty) ||
    (t.thread e.lane).ops.any fun o => o.order < e.op && o.doomed.isNone &&
      match o.what with
      | .atom _ _ _ _ _ _ _ _ => true
      | _ => false

/-- A queued store was translated through a line that a write replaces: it performs first (R101, R102, R183); the write is a
store at the head of the queue of team `k`, or another agent's. DESIGN CHOICE (log 90): a store that may itself wait for the
write is not waited for (one in the same queue, one held for a replay, one behind such a wait or behind a page-table store
that may come to wait for team `k`): it is translated again when it performs, so that it never goes through the old
entry. -/
def derivesFrom (s : State) (k : Option Nat) (lines : List Nat) : Bool :=
  s.teams.any fun kt => some kt.1 != k &&
    ((kt.2.storeq.filter fun e => !heldStore kt.2 e).takeWhile fun e =>
      !e.unsure s kt.2 && !(ptStore s e && k.all fun k => (ptReach s s.teams.length [kt.1]).contains k)).any
      fun e => e.lines.any lines.contains

/-- A translation agent gives up a page-table line: every entry derived from it leaves its structures, and a queued store
of its die that still goes through one is translated again (R101; log 90). -/
def State.releaseLine (s : State) (die line : Nat) : State :=
  { s with
    tlb := s.tlb.filter fun e => !(e.die == die && e.lines.contains line)
    teams := s.teams.map fun kt =>
      if kt.2.die == die && kt.2.storeq.any (fun e => e.lines.contains line) then
        (kt.1, { kt.2 with storeq := kt.2.storeq.map fun e => if e.lines.contains line then { e with again := true } else e })
      else kt }

/-- Takes the holdings of agents away, the translation agents among them releasing the line first (R101). -/
def State.takeHoldings (s : State) (line : Nat) (hs : List Holding) : State :=
  let s1 := (hs.filter fun h => h.agent.id == 177).foldl (fun s h => s.releaseLine h.agent.die line) s
  ({ s1 with hold := s1.hold.filter fun h => !hs.contains h } : State).awayTidy line

/-- A translation agent among the holders has to wait for accesses that went through its entries (R101). -/
def releaseBusy (s : State) (line : Nat) (hs : List Holding) : Bool :=
  (hs.any fun h => h.agent.id == 177) && derivesFrom s none [line]

/-! ### Room in a cache (R128, R132) -/

/-- Sends tokens to an agent. -/
def sendTokens (s : State) (to_ : AgentId) (line : Nat) (t : TokenMsg) : State :=
  if t.tokens = 0 then s else s.push (.tokenDataResponse to_ line t)

/-- An agent gives the tokens of a holding back: the home keeps them, or sends them on to the writer that is collecting
(R128). Dirty data goes with the owner token, to the home slice (R123). -/
def State.giveBack (s : State) (h : Holding) : State :=
  let s1 := (dropHolding s h.agent h.line).awayTidy h.line
  match (s1.entry h.line).collecting with
  | some b => sendTokens s1 b h.line { tokens := h.tokens, owner := h.owner, dirty := h.dirty }
  | none => tidyEntry (if h.dirty then (s1.homeFill .coh h.line none 0 true).homeDirty h.line else s1) h.line

/-- Sets and ways of the cache of an agent (R132): an instruction cache, a Lodestar core's private cache, an L1; the engine
groups have none of their own. -/
def cacheShape (a : AgentId) : Option (Nat × Nat) :=
  if 512 ≤ a.id then some (128, 4)
  else if a.id < 160 then some (128, 8)
  else if a.id < 176 then some (1024, 16)
  else none

/-- What a cache can give up for another line of a set. -/
inductive Victim where
  | held (h : Holding)
  | ucopy (u : UCopy)
  | swm (c : SwmCopy)
  deriving DecidableEq, Repr

/-- Writes the stored bits of a software-managed copy to the home copy, with the marks it carries (R192, R199, R201). -/
def writeBackCopy (s : State) (master : Bool) (c : SwmCopy) : State :=
  let ws := (List.range 128).filterMap fun j =>
    let k := getAt 0 c.mask j
    if k = 0 then none else some (c.line * 128 + j, getAt 0 c.bytes j, k)
  let s1 := (s.homeWrite none .home none ws).slicePatch c.agent.die ws
  let s2 := if master then (ws.map fun w => w.1).foldl (fun s a => s.masterWrite a) s1 else s1
  { s2 with
    poison := if c.poison && !ws.isEmpty && !s2.poison.contains c.line then c.line :: s2.poison else s2.poison
    integrity := if c.integrity && !ws.isEmpty && !s2.integrity.contains c.line then c.line :: s2.integrity else s2.integrity }

def State.evict (s : State) : Victim → State
  | .held h => s.giveBack h
  | .ucopy u => s.endUmode u.line
  | .swm c => { writeBackCopy s true c with swm := (writeBackCopy s true c).swm.erase c }

/-- What an agent's cache holds in the set of a line (R132). -/
def State.inSet (s : State) (a : AgentId) (sets line : Nat) : List Victim :=
  let here := fun (b : AgentId) (ln : Nat) => b == a && ln % sets == line % sets
  (s.hold.filter fun h => here h.agent h.line).map Victim.held ++ (s.ucopies.filter fun u => here u.agent u.line).map Victim.ucopy ++
    (s.swm.filter fun c => here c.agent c.line).map Victim.swm

/-- A software-managed copy among what a set holds. -/
def Victim.isSwm : Victim → Bool
  | .swm _ => true
  | _ => false

/-- The write-back of a software-managed copy would have to wait for an access that was translated through the line (R103). -/
def Victim.busy (s : State) : Victim → Bool
  | .swm c => (c.mask.any fun k => k != 0) && derivesFrom s none [c.line]
  | _ => false

/-- An agent asks the home of a line for a token, or for all of them (R125); where no answer is complete in time the request
fails (R129). -/
def State.ask (s : State) (a : AgentId) (line : Nat) (write : Bool) : State :=
  let d := s.entry line
  let s1 :=
    if d.asks.any fun q => q.agent == a && (q.write || !write) then s
    else
      (s.setEntry line { d with asks := { agent := a, write := write, at_ := s.cycles.toNat } :: d.asks.filter fun q => q.agent != a }).pushOnce
        (.requestFailure a line)
  s1.pushOnce (if write then .writeMiss a line else .readMiss a line)

/-- Room for one more line in an agent's cache: where its set is full, a line of it is evicted, which one is open (R132;
log 5). DESIGN CHOICE (log 95): a software-managed line goes only where the set holds no other, since R122 lets only the
range instructions move it; and one whose write-back would have to wait under R103 goes only where there is no other. -/
def State.roomFor (s : State) (a : AgentId) (line : Nat) : State :=
  match cacheShape a with
  | none => s
  | some (sets, ways) =>
    let all := s.inSet a sets line
    let known := s.hold.any (fun h => h.agent == a && h.line == line) || s.swm.any fun c => c.agent == a && c.line == line
    if known || all.length < ways then s
    else
      let calm := all.filter fun v => !v.busy s
      let pool := if calm.isEmpty then all else calm
      let vs := if pool.all Victim.isSwm then pool else pool.filter fun v => !v.isSwm
      let (n, s1) := s.free 52
      match vs[n % vs.length]? with
      | some v => s1.evict v
      | none => s1

/-! ### Tokens, copies, and the write -/

/-- A page whose lines have tokens (R123). -/
def PageMode.tokened (m : PageMode) : Bool := m == .coh || m == .ros

/-- The remote access engine and the CXL.cache agent, and the Meridian port agents, of a die (R19, R124). -/
def raeOf (die : Nat) : AgentId := { die := die, id := 178 }
def portOf (die : Nat) : AgentId := { die := die, id := 179 }

/-- The Parallax engine of a die (R19, R124). -/
def parallaxOf (die : Nat) : AgentId := { die := die, id := 176 }

/-- How an agent that names a line of this device's memory by its physical address meets it: a line of DRAM by its tokens
(R19, R123). -/
def physMode (pa : Nat) : PageMode := if regionOf pa == some .dram then .coh else .home

/-- The tokens of a line are on their way, or promised to another agent (R125, R129): a write waits. -/
def State.writeBlocked (s : State) (a : AgentId) (mode : PageMode) (line : Nat) : Bool :=
  mode == .coh && (claimedByOther (s.entry line) a || (s.entry line).collecting.any (· != a) || (carried s line).1 != 0)

/-- An agent outside a core's loads and stores obtains a token of a line with its data: a walker, an instruction cache, an
engine, a device agent (R100, R124, R125). The home gives one, or the owner does; `none` where neither can now, or another
agent is collecting the line or has a persistent request for it (R129). DESIGN CHOICE (log 98): the messages of such an
access travel within its step. -/
def State.takeToken (s : State) (a : AgentId) (line : Nat) : Option State :=
  let s1 := s.endUmode line
  let d := s1.entry line
  if s1.holdsLine a line then some s1
  else if claimedByOther d a || d.collecting.any (· != a) then none
  else
    let s2 := ((s1.homeFill .coh line none 0 false).awayFill a.die .coh line none 0).setEntry line (dirAdd d (dirId line a))
    let (n, own) := homeTokens s1 line
    if 0 < n then
      let (t, s3) := s2.homeGive line 1 (own && n == 1)
      some (addTokens (s3.roomFor a line) a line t true)
    else
      match s1.hold.find? fun h => h.line == line && h.owner with
      | some h =>
        if h.tokens ≤ 1 && releaseBusy s1 line [h] then none
        else
        let s3 :=
          if h.tokens ≤ 1 then s2.takeHoldings line [h]
          else { s2 with hold := { h with tokens := h.tokens - 1 } :: s2.hold.erase h }
        let t : TokenMsg :=
          if h.tokens ≤ 1 then { tokens := h.tokens, owner := true, dirty := h.dirty } else { tokens := 1, owner := false, dirty := false }
        some (addTokens (s3.roomFor a line) a line t true)
      | none => none

/-- A token of each of several lines, or no change but the end of update-only mode. -/
def State.takeTokens (a : AgentId) : List Nat → State → Bool × State
  | [], s => (true, s)
  | ln :: r, s =>
    match s.takeToken a ln with
    | none => (false, (State.takeTokens a r (s.endUmode ln)).2)
    | some s1 => State.takeTokens a r s1

/-- A software-managed line comes to the slices on its way to an agent: the agent's die holds it already, or the home serves
it (R121, R122). -/
def State.swmReach (s : State) (die line : Nat) (va : Option DWord) (wish : Nat) : State :=
  if s.l2.any fun x => x.line == line && x.die == die then s
  else (s.homeFill .swm line va wish false).awayFill die .swm line va wish

/-- A clean copy of a line in an agent's private cache, from the slice of its die or from the home copy. -/
def State.swmFill (s : State) (a : AgentId) (line : Nat) (va : Option DWord := none) (wish : Nat := 0) : State :=
  match s.swmCopy a line with
  | some _ => s
  | none =>
    let s1 := (s.swmReach a.die line va wish).roomFor a line
    let c : SwmCopy :=
      match s1.swmCopy (sliceOf a.die line) line with
      | some c => { c with agent := a, mask := List.replicate 128 0 }
      | none =>
        { agent := a, line := line, bytes := s1.mem.read (line * 128) 128, mask := List.replicate 128 0
          poison := s1.poison.contains line, integrity := s1.integrity.contains line }
    { s1 with swm := s1.swm ++ [c] }

/-- Performs a write of bytes under bit masks on a page of a mode: `ag` is the private cache of the writer,
`own` whether a missing software-managed line is taken into it (R465), `self` the writing thread, `va` its address where it
has one (R206). -/
def State.performWrite (s : State) (ag : Option AgentId) (own : Bool) (mode : PageMode) (master : Bool)
    (self : Option (Nat × Nat)) (ws : List (Nat × Byte × Byte)) (va : Option DWord := none) : State :=
  let lines := (ws.map fun w => lineOf w.1).eraseDups
  let s1 :=
    match mode, ag with
    | .swm, some a =>
      let s0 := if own then lines.foldl (fun s ln => s.swmFill a ln va) s else s
      let mine := fun (w : Nat × Byte × Byte) => own || (s0.swmCopy a (lineOf w.1)).isSome
      let home := ws.filter fun w => !mine w
      let s2 := ((s0.cacheWrite a (ws.filter mine)).homeWrite none .home self home va).slicePatch a.die home
      lines.foldl (fun s ln => s.fireMonitors ln self) s2
    | _, _ => s.homeWrite ag mode self ws va
  if master then (ws.map fun w => w.1).foldl (fun s a => s.masterWrite a) s1 else s1

/-! ### Notify ports (R396) -/

/-- Some byte of an access is a notify port's. -/
def State.portIn (s : State) (pa n : Nat) : Bool :=
  s.parts.any fun p => p.2.ports.any fun w => decide (w < pa + n) && decide (pa < w + 4)

/-- The word a store of `v` leaves in a port that holds `old`. -/
def portNew (old v : Word) : Word :=
  let d := (v - old).toNat
  if 1 ≤ d && d < 2 ^ 31 then v else old

/-- Whole bytes as a masked write. -/
def wholeBytes (pa : Nat) (bs : List Byte) : List (Nat × Byte × Byte) := mapAt (fun i b => (pa + i, b, 0xFF)) 0 bs

end Sys2Proof.Machine
end

