-- ==== Sys2Proof/Machine/Paging.lean ====
section
/-! DEFINITION. From a virtual to a physical address: regions (R88), native tables (R90 to R93), host tables
(R97, R98), page modes (R104), the order of the checks (R106) and the dirty log (R107 to R109). -/

namespace Sys2Proof.Machine

/-- Why an address is translated: the permission R106 asks for, and what checks 6, 9 and 10 need to know;
`probeStore` is TLB.PROBE's store, which makes checks 2 to 8 only (R116). -/
inductive AccKind where
  | load
  | store
  | atomic (wide bankop : Bool)
  | fetch
  | range
  | probeStore
  deriving DecidableEq, Repr

/-- A translated address: where it lies, how its page is cached, what a cached entry covers, the page-table lines on its
walk from the leaf up, its leaf, and log2 of the bytes under each non-leaf entry from the lowest up. -/
structure Xlat where
  pa : Nat
  mode : PageMode
  ty : MemTy
  master : Bool
  log2 : Nat
  lines : List Nat
  pte : Nat
  host : Bool
  ups : List Nat := []
  deriving DecidableEq, Repr

/-- Check 8 of R106: the region, and a PEER device number of at most 319 that is not this device's. -/
def regionCheck (mnum : Word) (pa : Nat) : Option MemTy :=
  match regionOf pa with
  | some .peer => if peerDevice pa ≤ 319 && peerDevice pa != mnum.toNat then some .peer else none
  | r => r

/-- Whether a mode is allowed for a memory type (R104). -/
def modeAllowed (m : PageMode) (ty : MemTy) : Bool :=
  match m, ty with
  | .coh, .dram | .coh, .host => true
  | .home, _ => true
  | .ros, .dram | .ros, .peer => true
  | .swm, .dram | .swm, .peer | .swm, .host => true
  | _, _ => false

def modeOfCode : Nat → PageMode
  | 0 => .coh
  | 1 => .home
  | 2 => .ros
  | _ => .swm

def PageMode.code : PageMode → Nat
  | .coh => 0
  | .home => 1
  | .ros => 2
  | .swm => 3

/-- What a walk ends with: the cause and the level at which it stopped. -/
abbrev WalkStop := Cause × Nat

/-- A leaf a walk has found, with the lines on the path from it up and the spans of the non-leaf entries. -/
structure Leaf where
  pte : Nat
  addr : Nat
  log2 : Nat
  lines : List Nat
  ups : List Nat
  deriving DecidableEq, Repr

/-- A non-leaf entry obeys R91. -/
def nonLeafOk (e : Nat) : Bool :=
  zeroBits e 59 5 && zeroBits e 52 7 && zeroBits e 8 4 && zeroBits e 5 3 && zeroBits e 2 1

/-- Reserved bits of a leaf (R91). -/
def leafReservedOk (e : Nat) : Bool := zeroBits e 52 7 && zeroBits e 8 4 && zeroBits e 6 1 && zeroBits e 2 1

/-- The FRAME field (R91). -/
def frameOf (e : Nat) : Nat := fld e 12 40

/-- A page-table entry's bits outside FRAME. -/
def sansFrame (e : Nat) : Nat := fld e 0 12 + fld e 52 12 * 2 ^ 12

/-- Entry `e` is the entry of frame `f` of a contiguous group whose first entry is `e0` (R93). -/
def contigEntry (e0 e f : Nat) : Bool :=
  bitOf e 0 && bitOf e 1 && bitOf e 7 && decide (sansFrame e = sansFrame e0) && decide (frameOf e = f)

/-- The contiguous group of a line of sixteen entries (R93), `step` frames from one entry to the next. -/
def contigOk (m : Mem) (lineAddr step : Nat) : Bool :=
  let e0 := m.nat lineAddr 8
  decide (frameOf e0 % (16 * step) = 0) &&
    (List.range 16).all fun j => contigEntry e0 (m.nat (lineAddr + 8 * j) 8) (frameOf e0 + j * step)

/-- A leaf of level 0, 1 or 2 is well formed (R90, R92, R93, R104). -/
def leafOk (m : Mem) (lvl entryAddr e : Nat) : Bool :=
  let f := frameOf e
  let contig := bitOf e 7
  leafReservedOk e && f % 2 ^ (9 * lvl) == 0 && !(lvl == 2 && contig) &&
    (!contig || contigOk m (entryAddr / 128 * 128) (2 ^ (9 * lvl))) &&
    (match regionOf (f * 4096) with
     | some ty => modeAllowed (modeOfCode (fld e 61 2)) ty
     | none => true)

/-- Page size of a leaf (R90), as log2 of bytes. -/
def leafLog2 (lvl : Nat) (contig : Bool) : Nat := 12 + 9 * lvl + (if contig then 4 else 0)

/-- The walk of R90 to R93 from level `lvl` down, by a walker of a die (R17, R99). -/
def walk (s : State) (die va : Nat) : Nat → Nat → List Nat → List Nat → Except WalkStop Leaf
  | lvl, table, lines, ups =>
    let a := table + 8 * fld va (12 + 9 * lvl) 9
    if regionOf table != some .dram then .error (.pteMalformed, lvl)
    else if (s.unreachable die .dram a).isSome then .error (.fabricUnreachable, lvl)
    else
      match s.memError a 8 with
      | some c => .error (c, lvl)
      | none =>
        let m := s.memAt a
        let e := m.nat a 8
        let lines' := lineOf a :: lines
        if !bitOf e 0 then .error (.pageNotPresent, lvl)
        else if bitOf e 1 then
          if lvl ≤ 2 && leafOk m lvl a e then
            .ok { pte := e, addr := a, log2 := leafLog2 lvl (bitOf e 7), lines := lines', ups := ups }
          else .error (.pteMalformed, lvl)
        else
          match lvl with
          | 0 => .error (.pteMalformed, 0)
          | l + 1 =>
            if nonLeafOk e then walk s die va l (frameOf e * 4096) lines' ((12 + 9 * (l + 1)) :: ups)
            else .error (.pteMalformed, l + 1)

/-! ### Host tables (R97, R98) -/

/-- The format record (R97). -/
structure Fmtrec where
  levels : Nat
  bits : List Nat
  off : Nat
  vpos : Nat
  wpos : Nat
  xdpos : Nat
  usrpos : Nat
  apos : Nat
  dpos : Nat
  leafpos : Nat
  leaflvl : Nat
  flo : Nat
  fhi : Nat
  hdmBase : Nat
  hdmSize : Nat
  deriving DecidableEq, Repr

/-- Reads the format record; `none` where it is invalid. -/
def readFmtrec (m : Mem) (a : Nat) : Option Fmtrec :=
  let b := fun i => (m.byte (a + i)).toNat
  let bits := [b 2, b 3, b 4, b 5, b 6]
  let r : Fmtrec :=
    { levels := b 0, bits := bits, off := b 7, vpos := b 8, wpos := b 9, xdpos := b 10, usrpos := b 11,
      apos := b 12, dpos := b 13, leafpos := b 14, leaflvl := b 15, flo := b 16, fhi := b 17,
      hdmBase := m.nat (a + 24) 8, hdmSize := m.nat (a + 32) 8 }
  let used := bits.take r.levels
  if 2 ≤ r.levels && r.levels ≤ 5 && b 1 == 3 && (bits.drop r.levels).all (· == 0) &&
      12 ≤ r.off && r.off ≤ 16 && r.fhi ≤ 50 && r.flo ≤ r.fhi && m.nat (a + 18) 6 == 0 && m.nat (a + 40) 24 == 0 &&
      r.hdmSize ≤ 512 * 2 ^ 30 && r.off + used.foldl (· + ·) 0 ≤ 57 then some r
  else none

/-- Physical address of a host physical address (R98). -/
def hostPlace (r : Fmtrec) (h : Nat) : Nat :=
  if r.hdmBase ≤ h && h < r.hdmBase + r.hdmSize then h - r.hdmBase else 0x8000000000000 + h % 2 ^ 51

/-- Virtual-address bits below the index of a level. -/
def Fmtrec.shift (r : Fmtrec) (lvl : Nat) : Nat := r.off + (r.bits.take lvl).foldl (· + ·) 0

/-- A physical address cannot be reached from a die (R17, R88). -/
def State.placeBlocked (s : State) (die a : Nat) : Bool :=
  match regionOf a with
  | some ty => (s.unreachable die ty a).isSome
  | none => true

/-- Host memory or device memory at a physical address cannot be read by a walker of a die (R97, R17). -/
def State.hostBlocked (s : State) (die a n : Nat) : Bool := (s.memError a n).isSome || s.placeBlocked die a

/-- The host-table walk from level `lvl` down. DESIGN CHOICE (log 91): an entry whose page-size bit is set at a level that
LEAFLVL does not allow gives HOST_TABLE_FAULT; R97 names no cause for it. -/
def hostWalk (s : State) (die : Nat) (r : Fmtrec) (va : Nat) : Nat → Nat → List Nat → List Nat → Except WalkStop Leaf
  | lvl, table, lines, ups =>
    let a := hostPlace r (table + 8 * fld va (r.shift lvl) (getAt 0 r.bits lvl))
    if s.heads.isEmpty || s.hostBlocked die a 8 then .error (.hostTableFault, lvl)
    else
      let e := (s.memAt a).nat a 8
      if !bitOf e r.vpos then .error (.pageNotPresent, lvl)
      else
        let leaf := lvl == 0 || bitOf e r.leafpos
        if leaf then
          if lvl == 0 || bitOf r.leaflvl lvl then
            .ok { pte := e, addr := a, log2 := r.shift lvl, lines := lineOf a :: lines, ups := ups }
          else .error (.hostTableFault, lvl)
        else
          match lvl with
          | 0 => .error (.hostTableFault, 0)
          | l + 1 =>
            hostWalk s die r va l (e % 2 ^ (r.fhi + 1) / 2 ^ r.flo * 2 ^ r.flo) (lineOf a :: lines) (r.shift (l + 1) :: ups)

/-! ### The checks of R106 -/

def AccKind.writes : AccKind → Bool
  | .store | .atomic _ _ | .probeStore => true
  | _ => false

def AccKind.reads : AccKind → Bool
  | .load | .atomic _ _ | .range => true
  | _ => false

/-- Checks 6 to 10 of R106 on a translated address. -/
def lateChecks (s : State) (kind : AccKind) (sup : Bool) (trans rd w xd supPage : Bool) (mode : PageMode)
    (pa : Nat) : Except Cause MemTy :=
  if trans && kind != .range then .error .pageInTransition
  else if (kind.reads && !rd) || (kind.writes && !w) || (kind == .fetch && xd) || (supPage && !sup) then
    .error .pagePermission
  else
    match regionCheck s.mnum pa with
    | none => .error .addressRange
    | some ty =>
      if kind.writes && kind != .probeStore && mode == .ros then .error .roSharedWrite
      else
        match kind with
        | .atomic wide bankop =>
          if (wide && mode == .swm) || (bankop && ty != .bank) then .error .atomicUnsupported else .ok ty
        | _ => .ok ty

/-- The binding of a context is current (R95). -/
def State.bindingOk (s : State) (x : Xrec) : Bool :=
  let a := (aget s.asids x.asid).getD {}
  !a.retiring && a.gen == x.gen

/-- The format record as a walker of a die reads it; `none` where it is invalid or cannot be read (R97). -/
def State.fmtrec (s : State) (die : Nat) (x : Xrec) : Option Fmtrec :=
  if s.hostBlocked die x.fmtrec 64 then none else readFmtrec (s.memAt x.fmtrec) x.fmtrec

/-- The page-table lines that a walk from level `lvl` down reads, whether it ends at a leaf or not (R183). -/
def pathLines (s : State) (va : Nat) : Nat → Nat → List Nat
  | lvl, table =>
    let a := table + 8 * fld va (12 + 9 * lvl) 9
    let e := (s.memAt a).nat a 8
    lineOf a ::
      (if regionOf table != some .dram || !bitOf e 0 || bitOf e 1 then []
       else
         match lvl with
         | 0 => []
         | l + 1 => pathLines s va l (frameOf e * 4096))

/-- The lines that a walk of host tables reads. -/
def hostLines (s : State) (r : Fmtrec) (va : Nat) : Nat → Nat → List Nat
  | lvl, table =>
    let a := hostPlace r (table + 8 * fld va (r.shift lvl) (getAt 0 r.bits lvl))
    let e := (s.memAt a).nat a 8
    lineOf a ::
      (if !bitOf e r.vpos || bitOf e r.leafpos then []
       else
         match lvl with
         | 0 => []
         | l + 1 => hostLines s r va l (e % 2 ^ (r.fhi + 1) / 2 ^ r.flo * 2 ^ r.flo))

/-- The lines that the translation read of an access reads (R183). -/
def State.tableLines (s : State) (die : Nat) (x : Option Xrec) (va : DWord) : List Nat :=
  match x with
  | none => []
  | some x =>
    if x.hosttab then
      match s.fmtrec die x with
      | some r => hostLines s r (va.toNat % 2 ^ 57) (r.levels - 1) (x.root * 4096)
      | none => []
    else pathLines s va.toNat 4 (x.root * 4096)

/-- Checks 3 to 10 of R106 for an address under a translation record, by a walker of a die; the error keeps the level at
which a walk stopped. DESIGN CHOICE (log 92): in host-table mode the bits above the top index, which R97 puts under R87,
are checked once the format record that says where they lie has been read, after the binding. -/
def walkChecks (s : State) (die : Nat) (x : Xrec) (sup : Bool) (kind : AccKind) (va : DWord) :
    Except WalkStop Xlat :=
  if x.hosttab then
    match s.fmtrec die x with
    | none => .error (.hostTableFault, 0)
    | some r =>
      let n := r.shift r.levels
      let v := va.toNat % 2 ^ 57
      if v / 2 ^ (n - 1) != 0 && v / 2 ^ (n - 1) != 2 ^ (57 - (n - 1)) - 1 then .error (.addressRange, 0)
      else
        match hostWalk s die r v (r.levels - 1) (x.root * 4096) [] [] with
        | .error e => .error e
        | .ok lf =>
          let h := lf.pte % 2 ^ (r.fhi + 1) / 2 ^ r.flo * 2 ^ r.flo + v % 2 ^ lf.log2
          let pa := hostPlace r h
          let usr := r.usrpos == 255 || bitOf lf.pte r.usrpos
          match lateChecks s kind sup false usr (bitOf lf.pte r.wpos && usr)
              (!usr || (r.xdpos != 255 && bitOf lf.pte r.xdpos)) false .coh pa with
          | .error c => .error (c, ((List.range r.levels).find? fun l => r.shift l == lf.log2).getD 0)
          | .ok ty =>
            .ok { pa := pa, mode := .coh, ty := ty, master := false, log2 := lf.log2, lines := lf.lines,
                  pte := lf.addr, host := true, ups := lf.ups }
  else
    match walk s die va.toNat 4 (x.root * 4096) [] [] with
    | .error e => .error e
    | .ok lf =>
      let e := lf.pte
      let pa := frameOf e * 4096 / 2 ^ lf.log2 * 2 ^ lf.log2 + va.toNat % 2 ^ lf.log2
      let mode := modeOfCode (fld e 61 2)
      match lateChecks s kind sup (bitOf e 60) (bitOf e 3) (bitOf e 4) (bitOf e 63) (bitOf e 5) mode pa with
      | .error c => .error (c, (lf.log2 - 12) / 9)
      | .ok ty =>
        .ok { pa := pa, mode := mode, ty := ty, master := bitOf e 59, log2 := lf.log2, lines := lf.lines,
              pte := lf.addr, host := false, ups := lf.ups }

/-! ### Cached entries and the dirty log (R100, R107, R108) -/

/-- Size of a cached entry: a 1 GiB page is cached as 32 MiB fragments (R99). -/
def entryLog2 (n : Nat) : Nat := if n > 25 then 25 else n

def TEntry.covers (e : TEntry) (die : Nat) (a : TlbAt) (x : Xrec) (va : DWord) : Bool :=
  e.die == die && e.at_ == a && e.asid == x.asid && e.gen == x.gen && e.page == va.toNat / 2 ^ e.log2

/-- Span code of a log entry (R108). -/
def spanCode (log2 : Nat) : Nat :=
  if log2 < 16 then 0 else if log2 < 21 then 1 else if log2 < 25 then 2 else 3

/-- Claims a slot of the ring and writes the entry (R107, R108), as stores of an agent without a cache. DESIGN CHOICE (log
111): a ring descriptor is used as it stands, also where LOG2N, BASE or the reserved bits break their table, and a
descriptor or an entry that cannot be reached, or read without a memory error, gives FABRIC_UNREACHABLE; R108 names no
consequence. -/
def dirtyAppend (s : State) (die ring asid pa log2 : Nat) : Except Cause State :=
  if s.hostBlocked die ring 32 then .error .fabricUnreachable
  else
    let s0 := s.endUmodes ring 32
    let base := s0.mem.nat ring 8
    let lg := s0.mem.nat (ring + 8) 8 % 32
    let head := s0.mem.nat (ring + 16) 8
    let tail := s0.mem.nat (ring + 24) 8
    let slot := base + 8 * (head % 2 ^ lg)
    if 2 ^ lg ≤ (head + 2 ^ 64 - tail) % 2 ^ 64 then .error .dirtyLogFull
    else if s0.placeBlocked die slot then .error .fabricUnreachable
    else
      let frame := pa / 2 ^ log2 * 2 ^ log2 / 4096
      let e := 2 ^ 63 + spanCode log2 * 2 ^ 60 + asid % 2 ^ 16 * 2 ^ 40 + frame % 2 ^ 40
      let put := fun (s : State) (a v : Nat) => s.homeWrite none .home none (wholeBytes a (leBytes 8 v))
      .ok (put (put s0 (ring + 16) (head + 1)) slot e)

/-- Sets a bit of a host table entry (R98): a write of the device, which ends update-only mode of the line (R131) and which a
monitor on it sees (R204). -/
def State.setHostBit (s : State) (a i : Nat) : State :=
  let s0 := s.endUmode (lineOf (a + i / 8))
  ({ s0 with mem := s0.mem.put (a + i / 8) (s0.mem.byte (a + i / 8) ||| (1 <<< (i % 8))) } : State).fireMonitors (lineOf (a + i / 8)) none

/-- Entries of a structure (R99). -/
def TlbAt.capacity : TlbAt → Nat
  | .l1 _ => 256
  | .cluster _ => 4096
  | .last => 24576
  | .walk => 8192

/-- An entry is filled, its dirty state clear (R107); where the structure is full another of its entries is evicted, which
one is open (R99; log 5). DESIGN CHOICE (log 93): an entry is evicted only then. -/
def State.fillTlb (s : State) (e : TEntry) : State :=
  let same := s.tlb.filter fun o => o.die == e.die && o.at_ == e.at_
  if same.length < e.at_.capacity then { s with tlb := e :: s.tlb }
  else
    let (n, s1) := s.free 51
    { s1 with tlb := e :: s1.tlb.erase (getAt e same (n % same.length)) }

/-- Fills the structures on a path that hold no entry for an address. -/
def fillPath (die : Nat) (x : Xrec) (va : DWord) (xl : Xlat) : List TlbAt → State → State
  | [], s => s
  | a :: r, s =>
    let lg := entryLog2 xl.log2
    let s1 := fillPath die x va xl r s
    if s1.tlb.any fun e => e.covers die a x va then s1
    else
      s1.fillTlb { die := die, at_ := a, asid := x.asid, gen := x.gen, page := va.toNat / 2 ^ lg, log2 := lg
                   lines := xl.lines, dirty := false }

/-- Fills the walk cache with the non-leaf entries of a walk: each spans the addresses under it and derives from the
lines above the leaf (R99, R100). -/
def fillWalks (die : Nat) (x : Xrec) (va : DWord) : List Nat → List Nat → State → State
  | lg :: ups, lines, s =>
    let s1 := fillWalks die x va ups lines.tail s
    if s1.tlb.any fun e => e.log2 == lg && e.covers die .walk x va then s1
    else
      s1.fillTlb { die := die, at_ := .walk, asid := x.asid, gen := x.gen, page := va.toNat / 2 ^ lg, log2 := lg
                   lines := lines, dirty := false }
  | [], _, s => s

/-- The cached entries of a translation exist from here on in the structures of a path, while the agent holds a token of
each line of the walk (R99, R100); a host entry that the walk has read is marked accessed (R98). `none` while a token
cannot be had: the walk waits for it. -/
def State.cacheXlat (s : State) (die : Nat) (path : List TlbAt) (x : Xrec) (va : DWord) (xl : Xlat) : Option State :=
  if path.all fun a => s.tlb.any fun e => e.covers die a x va then some s
  else
    let walked := !s.tlb.any fun e => e.covers die .last x va
    let s1 :=
      match walked, xl.host, s.fmtrec die x with
      | true, true, some r => s.setHostBit xl.pte r.apos
      | _, _, _ => s
    match State.takeTokens (walkerOf die) xl.lines s1 with
    | (true, s2) => some (fillPath die x va xl path (fillWalks die x va xl.ups xl.lines.tail s2))
    | (false, _) => none

/-- The entry that an access goes through is dirty (R107). -/
def State.entryDirty (s : State) (die : Nat) (path : List TlbAt) (x : Xrec) (va : DWord) : Bool :=
  match path with
  | a :: _ => s.tlb.any fun e => e.covers die a x va && e.dirty
  | [] => false

/-- Sets the dirty state of the entry that an access goes through. -/
def State.setDirty (s : State) (die : Nat) (path : List TlbAt) (x : Xrec) (va : DWord) : State :=
  match path with
  | a :: _ => { s with tlb := s.tlb.map fun e => if e.covers die a x va then { e with dirty := true } else e }
  | [] => s

/-- Why a translation ends without an address: a cause of R106, or `none` where a walker waits for a token of a line of its
walk (R100, R123). -/
abbrev XStop := Option Cause

/-- The state after a translation: its entries are cached, and a store through a clean entry logs its page, check 11 of
R106 (R107), or sets the host's dirty bit (R98). -/
def State.touch (s : State) (die : Nat) (path : List TlbAt) (x : Xrec) (va : DWord) (xl : Xlat) (store : Bool) :
    Except XStop State :=
  match s.cacheXlat die path x va xl with
  | none => .error none
  | some s1 =>
    if !store || s1.entryDirty die path x va then .ok s1
    else if x.hosttab then
      match s1.fmtrec die x with
      | some r => .ok ((s1.setHostBit xl.pte r.dpos).setDirty die path x va)
      | none => .error (some .hostTableFault)
    else if x.dlog then
      match dirtyAppend s1 die x.dlring x.asid xl.pa (entryLog2 xl.log2) with
      | .ok s2 => .ok (s2.setDirty die path x va)
      | .error c => .error (some c)
    else .ok s1

/-- A store, ATOM or RED, which logs its page (R107); a BANKOP does not. -/
def AccKind.logs : AccKind → Bool
  | .store | .atomic _ false => true
  | _ => false

/-- Translates one address for an agent of a die through structures of its translation agent (R106): all checks in
order, then the cached entries; `bound` is whether the binding is checked. -/
def State.xlate (s : State) (die : Nat) (path : List TlbAt) (bound : Bool) (x : Option Xrec) (sup : Bool) (kind : AccKind)
    (va : DWord) : Except XStop (Xlat × State) :=
  if !isCanon va then .error (some .addressRange)
  else
    match x with
    | none => .error (some .asidRetired)
    | some x =>
      if bound && !s.bindingOk x then .error (some .asidRetired)
      else
        match walkChecks s die x sup kind va with
        | .error e => .error (some e.1)
        | .ok xl =>
          match s.touch die path x va xl kind.logs with
          | .error c => .error c
          | .ok s' => .ok (xl, s')

/-- The structures that an access of a team's core goes through (R99), from its L1 TLB on; its engines' go through its
cluster's. -/
def Team.tlbPath (t : Team) (engine : Bool) : List TlbAt :=
  match t.kind with
  | .lodestar => [.l1 t.agent.id, .last]
  | _ => if engine then [.cluster (t.agent.id / 4), .last] else [.l1 t.agent.id, .cluster (t.agent.id / 4), .last]

/-- The translation record a team's accesses use (R94, R378, R422). -/
def State.teamXrec (s : State) (t : Team) : Option Xrec :=
  match t.xrec with
  | some x => some x
  | none => (s.ctx t.ctx).xrec

/-- The device of a PEER address refuses an access of this device, outside every import window (R438): its windows are no state of
this device, so what they admit at a moment is free (log 123). -/
def State.peerRefuses (s : State) (pa : Nat) : Bool :=
  s.peers.contains (peerDevice pa) && Config.freeNat 60 (pa / 2 ^ 30 + 2 ^ 22 * s.cycles.toNat) % 2 == 1

/-- A refused PEER access traps ADDRESS_RANGE with its address (R438). -/
def State.admitPeer (s : State) (kind : AccKind) (r : Except XStop (Xlat × State)) : Except XStop (Xlat × State) :=
  match r with
  | .error e => .error e
  | .ok (xl, s1) => if xl.ty == .peer && kind != .range && s.peerRefuses xl.pa then .error (some .addressRange) else .ok (xl, s1)

/-- Translates for a team. -/
def State.xlateTeam (s : State) (t : Team) (kind : AccKind) (va : DWord) : Except XStop (Xlat × State) :=
  s.admitPeer kind (s.xlate t.die (t.tlbPath false) true (s.teamXrec t) (t.kind == .supervisor) kind va)

/-- Translates for an engine of a team's core, or for an engine group, which has the last-level TLB only (R99). -/
def State.xlateEngine (s : State) (t : Team) (ag : Option AgentId) (kind : AccKind) (va : DWord) : Except XStop (Xlat × State) :=
  s.admitPeer kind
    (s.xlate t.die (if ag.any fun a => 176 ≤ a.id then [.last] else t.tlbPath true) true (s.teamXrec t) (t.kind == .supervisor) kind va)

/-- Translates again for an access that was translated when its instruction issued: its binding was current then (R115). -/
def State.xlateAgain (s : State) (t : Team) (kind : AccKind) (va : DWord) : Except XStop (Xlat × State) :=
  s.xlate t.die (t.tlbPath false) false (s.teamXrec t) (t.kind == .supervisor) kind va

/-! ### Translation records (R94) -/

/-- Reads a translation record. -/
def xrecIn (m : Mem) (a : Nat) : Xrec :=
  let w0 := m.nat a 8
  let w1 := m.nat (a + 8) 8
  { root := fld w0 12 40, dlog := bitOf w0 3, hosttab := bitOf w0 2, pasid := fld w1 20 20, gen := fld w1 16 4
    asid := fld w1 0 16, fmtrec := m.nat (a + 16) 8, dlring := m.nat (a + 24) 8 }

/-- The device reads a translation record (R94): a record that an update-only line holds is read as a load reads it (R131). -/
def readXrec (s : State) (a : Nat) : Xrec := xrecIn (s.memAt a) a

/-- The device reads the translation records of an ASID again after its retirement (R94). DESIGN CHOICE (log 75): one on a die
that its reader on die 0 cannot reach is left as it was read last. -/
def reread (s : State) (asid : Nat) : State :=
  { s with
    ctxs := s.ctxs.map fun kc =>
      match kc.2.recAddr, kc.2.xrec with
      | some a, some x => if x.asid == asid && !s.placeBlocked 0 a then (kc.1, { kc.2 with xrec := some (readXrec s a) }) else kc
      | _, _ => kc }

end Sys2Proof.Machine
end

