-- ==== Sys2Proof/Machine/Access.lean ====
section
/-! DEFINITION. Reading at a translated address (R119, R123, R131, R175, R186), and scratchpad (R134, R135, R172). -/

namespace Sys2Proof.Machine

/-! ### Reading for one access -/

/-- The result of a read: bytes and whether a view read was stale under PERMIT; or a wait; or a trap. -/
inductive RdRes where
  | ok (bs : List Byte) (stale : Bool) (s : State)
  | wait (s : State)
  | trap (c : Cause) (v : DWord)
  deriving DecidableEq, Repr

/-- The lines of `n` bytes at a physical address. -/
def linesIn (pa n : Nat) : List Nat := (List.range (lineOf (pa + n - 1) - lineOf pa + 1)).map (lineOf pa + ·)

/-- A miss of an agent on a line goes through the slice of its die to the home slice (R121, R125, R206), whose directory
entry keeps the address for what the home does later for the request (R140). -/
def State.missFill (s : State) (ag : AgentId) (mode : PageMode) (line : Nat) (va : DWord) (wish : Nat) : State :=
  let s1 := (s.homeFill mode line (some va) wish false).awayFill ag.die mode line (some va) wish
  if mode.tokened then s1.setEntry line { s1.entry line with va := some va } else s1

/-- A token a read on a page must hold (R123, R125): of a line of MODE COH or ROS, by an agent with a cache. -/
def State.needRead (s : State) (ag : AgentId) (mode : PageMode) (line : Nat) : Bool :=
  (mode == .coh || mode == .ros) && !s.holdsLine ag line

/-- Lines of a read whose token its agent still has to obtain. -/
def State.readMisses (s : State) (ag : Option AgentId) (mode : PageMode) (pa n : Nat) : List (AgentId × Nat) :=
  match ag with
  | some a => ((linesIn pa n).filter fun ln => s.needRead a mode ln).map fun ln => (a, ln)
  | none => []

/-- A read reaches the storage level that serves it (R121, R131, R138): update-only mode ends; a line that no private cache of
the agent holds comes through the slices, `alloc` takes a missing software-managed line into its cache, and bank memory is
read at its bank. -/
def State.reach (s : State) (ag : Option AgentId) (alloc : Bool) (xl : Xlat) (va : DWord) (n : Nat) : State :=
  let s1 := s.endUmodes xl.pa n
  match xl.ty, xl.mode, ag with
  | .bank, _, _ => s1.readBank xl.pa n
  | _, .swm, some a =>
    (linesIn xl.pa n).foldl (fun (s : State) ln =>
      if alloc then s.swmFill a ln (some va) else if (s.swmCopy a ln).isSome then s else s.homeFill .swm ln (some va) 0 false) s1
  | _, .coh, some _ | _, .ros, some _ => s1
  | _, m, _ => (linesIn xl.pa n).foldl (fun (s : State) ln => s.homeFill m ln (some va) 0 false) s1

/-- Reads `n` bytes that an agent can reach (R119, R131, R175): `alloc` takes a missing software-managed line into its
cache. -/
def State.readHere (s : State) (ag : Option AgentId) (alloc : Bool) (xl : Xlat) (va : DWord) (n : Nat) : RdRes :=
  let s1 := s.reach ag alloc xl va n
  match s1.memErrorFor ag xl.mode xl.pa n with
  | some c => .trap c va
  | none =>
    match s.viewHit xl.pa n with
    | .trap c => .trap c va
    | .wait => .wait s
    | h => .ok (s1.bytesFor ag xl.mode xl.pa n) (h == .stale) s1

/-- Reads `n` bytes at a translated address for an agent, once it can reach them and holds a token of their lines (R17,
R123, R129, R186). -/
def State.readAt (s : State) (ag : Option AgentId) (alloc : Bool) (xl : Xlat) (va : DWord) (n : Nat) : RdRes :=
  match s.unreachable ((ag.map fun a => a.die).getD 0) xl.ty xl.pa, s.readMisses ag xl.mode xl.pa n with
  | some d, _ => .trap .fabricUnreachable (unreachableTval xl.ty d va)
  | none, m :: ms => .wait ((m :: ms).foldl (fun s q => (s.missFill q.1 xl.mode q.2 va 0).ask q.1 q.2 false) s)
  | none, [] =>
    let s1 :=
      match ag with
      | some a => (linesIn xl.pa n).foldl (fun (s : State) ln => s.serve a ln) s
      | none => s
    s1.readHere ag alloc xl va n

/-- Reads for an engine, a device agent, or an instruction outside the loads and stores: it obtains the tokens of its lines
in the same step, or waits (R123, R129; log 98). -/
def State.readNow (s : State) (ag : Option AgentId) (alloc : Bool) (xl : Xlat) (va : DWord) (n : Nat) : RdRes :=
  match ag, xl.mode.tokened && (s.unreachable ((ag.map fun a => a.die).getD 0) xl.ty xl.pa).isNone with
  | some a, true =>
    match State.takeTokens a (linesIn xl.pa n)
        (((linesIn xl.pa n).filter fun ln => !s.holdsLine a ln).foldl (fun s ln => s.missFill a xl.mode ln va 0) s) with
    | (true, s1) => s1.readAt ag alloc xl va n
    | (false, s1) => .wait s1
  | _, _ => s.readAt ag alloc xl va n

/-! ### Scratchpad (R134, R135, R191) -/

/-- The crew whose grant a scratch address of a team names: the grant's crew and the byte offset, or
`none` where R135 refuses it. -/
def State.scratchAt (s : State) (k : Nat) (a n : Nat) : Option (Nat × Nat) :=
  let t := s.team k
  match t.crew with
  | none => none
  | some c =>
    if a / 2 ^ 22 != 0 then none
    else
      let off := fld a 0 19
      let own := t.core % 4
      let target : Option Nat :=
        if fld a 21 1 == 0 || fld a 19 2 == own then some c
        else
          let g := (s.crew c).group
          let tc := t.core / 4 * 4 + fld a 19 2
          ((aget s.groups g).getD {}).crews.find? fun c' => (s.crew c').core == tc
      match target with
      | none => none
      | some c' =>
        if off + n ≤ (s.crew c').grant && s.teams.any (fun kt => kt.2.crew == some c' && kt.2.resident) then some (c', off) else none

def State.scratchRead (s : State) (c off n : Nat) : List Byte := (s.crew c).scratch.read off n

def State.scratchWrite (s : State) (c : Nat) (ws : List (Nat × Byte × Byte)) : State :=
  s.modCrew c fun cr => { cr with scratch := cr.scratch.writeMasked ws }

/-- An engine operation has begun, named by its acceptance order. -/
def State.engineBegun (s : State) (order : Nat) : Bool :=
  s.teams.any fun kt => kt.2.engq.any fun q => q.ops.any fun o => o.order == order && o.state != .queued

/-- Writes of one engine operation wait for an entry of another. -/
def State.scoreMeets (s : State) (a b : Nat) : Bool :=
  s.cores.any fun c => c.2.score.any fun x => x.order == a &&
    c.2.score.any fun y => y.order == b && !y.source && x.crew == y.crew && x.lo < y.hi && y.lo < x.hi

/-- The engine operations that are not complete, by acceptance order. -/
def State.engineOrders (s : State) : List Nat := (s.teams.flatMap fun kt => kt.2.engq.flatMap fun q => q.ops.map fun o => o.order).eraseDups

/-- Operations that stand before one in a queue (R209). -/
def State.aheadOf (s : State) (e : Nat) : List Nat :=
  s.teams.flatMap fun kt => kt.2.engq.flatMap fun q =>
    if q.ops.any fun o => o.order == e then (q.ops.takeWhile fun o => o.order != e).map fun o => o.order else []

/-- The operations that every engine which could run a queued operation is running (R210, R324); none while one is idle. -/
def State.enginesBusy (s : State) (e : Nat) : List Nat :=
  if s.engineBegun e then []
  else
    let head := fun (k q : Nat) => ((getAt {} (s.team k).engq q).ops.head?.map fun o => o.order).toList
    s.teams.flatMap fun kt =>
      let c := s.core kt.2.core
      (mapAt (fun q v => (q, v)) 0 kt.2.engq).flatMap fun q =>
        if !(q.2.ops.any fun o => o.order == e) then []
        else if q.1 < 4 then (if c.engines.length < 2 then [] else c.engines.flatMap fun x => head x.2.1 x.2.2)
        else if q.1 = 4 then (c.mxRunning.map fun k => head k 4).getD []
        else []

/-- The operations that cannot complete before one of some operations does: they stand behind it in a queue, their writes wait
for an entry of it, or every engine that could run them is held by such operations. -/
def State.stuckOn (s : State) : Nat → List Nat → List Nat
  | 0, on => on
  | n + 1, on =>
    let more := s.engineOrders.filter fun e => !on.contains e &&
      ((s.aheadOf e).any on.contains || (on.any fun f => s.scoreMeets f e) ||
        (!(s.enginesBusy e).isEmpty && (s.enginesBusy e).all on.contains))
    s.stuckOn n (on ++ more)

/-- An entry of another operation holds back a write of the engine operation with acceptance order `o` (R172). DEDUCED (log
15): an operation accepted later that could itself not complete before `o` does not hold it, since every accepted operation
completes (R210). -/
def State.entryHolds (s : State) (o e : Nat) : Bool :=
  e != o && (e < o || !(s.stuckOn s.engineOrders.length [o]).contains e)

/-- A scratchpad write meets an entry of the range scoreboard of its core (R172); `self` is the acceptance order
of the writing engine operation. -/
def State.scoreHolds (s : State) (c off n : Nat) (self : Option Nat) : Bool :=
  (s.core (s.crew c).core).score.any fun e =>
    e.crew == c && e.lo < off + n && off < e.hi &&
      match self with
      | some o => s.entryHolds o e.order
      | none => true

end Sys2Proof.Machine
end

