-- ==== Sys2Proof/Machine/Memory.lean ====
section
/-! DEFINITION. Loads, stores, atomic forms, fences and the store queue (R159, R161, R184 to R196, R202 to
R205).  A load or an atomic operation issues after its checks, and LOAD_DATA_RETURN ends it; a store enters its
team's queue, and STORE_PERFORM performs it. -/

namespace Sys2Proof.Machine

/-! ### Addresses and sizes (R43, R44) -/

/-- The base of a format-M access. -/
def baseOf (L : LCtx) (m : MOps) : LaneM DWord :=
  match L.log with
  | some r => return r.base
  | none => readSrc L .int .w64 (if m.bk then .uni (2 * m.bp.setWidth 7) else .vec (2 * m.bp.setWidth 7))

/-- The address of a format-M access (R44). -/
def addrOf (base : DWord) (m : MOps) : DWord := base + m.off.signExtend 64

/-- Bytes of a SIZE; a packed element counts none. -/
def sizeBytes : Size → Nat
  | .n8 | .s8 => 1
  | .n16 | .s16 => 2
  | .b32 => 4
  | .b64 => 8
  | .b128 => 16
  | .packed => 0

/-- Bits of a packed element (R192). -/
def packedBits (m : MOps) : Nat := if m.hint = 0 then 4 else 6

/-- Vector registers of a format-M instruction (R55). -/
def memRegs (m : MOps) (store usesData : Bool) : List Nat :=
  let base := if m.bk then [] else [2 * m.bp.toNat, 2 * m.bp.toNat + 1]
  if !usesData then base
  else if store then base ++ srcRegs (.any m.size.width) (.vec m.data)
  else base ++ dstRegs false (dataUse m false).1 m.data

/-- Registers that a load still has to write. -/
def loadDsts (m : MOps) : List Nat := dstRegs false (dataUse m false).1 m.data

/-- A translated part of an access: `n` bytes at a virtual address. -/
structure Piece where
  xl : Xlat
  va : DWord
  n : Nat
  deriving DecidableEq, Repr

/-- Why an access stops before its decision point: the pipe waits, or the lane traps. -/
abbrev AccStop := LaneStop

/-- SCOPE wider than .cluster: an SWM page does not support the operation (R106). -/
def wideScope (sc : Scope) : Bool :=
  match sc with
  | .die | .device | .domain | .system => true
  | _ => false

/-- The location that an atomic operation of a lane names: a crew's scratchpad and an offset, or a physical address (R143,
R150). -/
def atomPlace (s : State) (k : Nat) (o : OpKind) : Option (Option Nat × Nat) :=
  match o with
  | .atom _ ty scope bank scratch a _ _ =>
    if scratch then (s.scratchAt k a.toNat (tyBytes ty)).map fun p => (some p.1, p.2)
    else
      let t := s.team k
      match (s.teamXrec t).map fun x => walkChecks s t.die x (t.kind == .supervisor) (.atomic (wideScope scope) bank) a with
      | some (.ok xl) => some (none, xl.pa)
      | _ => none
  | _ => none

/-- A write to a line that the translation of a lane's access reads is not to be overlooked (R183): a queued store of the lane
before the access or, since the team's queue lets no later store pass it, of another lane, or an atomic operation of the lane;
`ord` is where an access in flight stands in program order. -/
def ptBusy (s : State) (k l : Nat) (ord : Option Nat) (lines : List Nat) : Bool :=
  let t := s.team k
  let before := fun (n : Nat) => ord.all fun o => n < o
  (t.storeq.any fun e => before e.op && (e.lane == l || !heldStore t e) && e.scratch.isNone &&
    e.writes.any fun w => lines.contains (lineOf w.1)) ||
  (t.thread l).ops.any fun o => before o.order && o.doomed.isNone &&
    match atomPlace s k o.what with
    | some (none, pa) => lines.contains (lineOf pa)
    | _ => false

/-- An access meets a watchpoint of its context (R415, R429; log 19). -/
def atWatchpoint (s : State) (t : Team) (va : DWord) (n : Nat) : Bool :=
  t.kind == .user && (s.debugOf t.core t.ctx).watch.any fun w => decide (va.toNat < w.1 + w.2) && decide (w.1 < va.toNat + n)

/-- Translates one part of an access of a lane; `again` for an access whose binding was checked when it was first
translated, with its place in program order (R115), and `lock` for the address of a lock, which is not accessed (R377). -/
def State.piece (s : State) (k l : Nat) (kind : AccKind) (va : DWord) (n : Nat) (again : Option Nat := none)
    (lock : Bool := false) : Except AccStop (Piece × State) :=
  let t := s.team k
  if ptBusy s k l again (s.tableLines t.die (s.teamXrec t) va) then .error .hold
  else
    match (if again.isSome then s.xlateAgain t kind va
        else if lock then s.xlate t.die (t.tlbPath false) true (s.teamXrec t) (t.kind == .supervisor) kind va
        else s.xlateTeam t kind va) with
    | .error none => .error .hold
    | .error (some c) => .error (.trap c va .nothing)
    | .ok (xl, s') =>
      if again.isNone && !lock && atWatchpoint s t va n then .error (.trap .watchpoint va .nothing)
      else .ok ({ xl := xl, va := va, n := n }, s')

/-- The byte address of a bit address (R192). -/
def byteOfBit (x : DWord) : DWord := x.sshiftRight 3

/-- The address of the first byte of an access at `a` (R192). -/
def byteAt (m : MOps) (a : DWord) : DWord :=
  match m.size with
  | .packed => byteOfBit a
  | _ => a

/-- Bytes that an access may reach from its first byte on. -/
def reachBytes (m : MOps) : Nat :=
  match m.size with
  | .packed => 2
  | _ => sizeBytes m.size

/-- Checks and translates an access of a lane at an address (R185, R189, R192). -/
def State.pieces (s : State) (k l : Nat) (kind : AccKind) (m : MOps) (a : DWord) (again : Option Nat := none) :
    Except AccStop (List Piece × State) :=
  match m.size with
  | .packed =>
    let w := packedBits m
    if a.toNat % (if w = 4 then 4 else 2) != 0 then .error (.trap .misalignedAccess a .nothing)
    else
      match s.piece k l kind (byteOfBit a) 1 again with
      | .error e => .error e
      | .ok (p, s1) =>
        if a.toNat % 8 + w ≤ 8 then .ok ([p], s1)
        else
          match s1.piece k l kind (byteOfBit a + 1) 1 again with
          | .error e => .error e
          | .ok (q, s2) =>
            if p.xl.ty == q.xl.ty && p.xl.mode == q.xl.mode then .ok ([p, q], s2)
            else .error (.trap .misalignedAccess a .nothing)
  | _ =>
    let n := sizeBytes m.size
    if a.toNat % n != 0 then .error (.trap .misalignedAccess a .nothing)
    else
      match s.piece k l kind a n again with
      | .error e => .error e
      | .ok (p, s1) => .ok ([p], s1)

/-- Scratch address of an access (R191, R134, R135): the crew that owns the bytes, and the offset. -/
def State.scratchPlace (s : State) (k : Nat) (a : DWord) (n : Nat) : Except AccStop (Nat × Nat) :=
  if a.toNat / 2 ^ 32 != 0 then .error (.trap .scratchRange a .nothing)
  else if a.toNat % n != 0 then .error (.trap .misalignedAccess a .nothing)
  else
    match s.scratchAt k a.toNat n with
    | none => .error (.trap .scratchRange a .nothing)
    | some p => .ok p

/-! ### Lanes that share the state -/

/-- Runs an action for each executing lane in ascending order; each sees the translations the ones before it
made. -/
def Grp.lanesS {α : Type} (g : Grp) (s : State) (act : State → LCtx → Thread → Except AccStop (α × Thread × State)) :
    List (Nat × Except AccStop (α × Thread)) × State :=
  g.e.foldl (fun (r : List (Nat × Except AccStop (α × Thread)) × State) l =>
    match act r.2 (g.lctx s l) (g.thread s l) with
    | .ok (a, th, s') => (r.1 ++ [(l, .ok (a, th))], s')
    | .error e => (r.1 ++ [(l, .error e)], r.2)) ([], s)

/-- A range instruction of the thread that covers part of an access is not complete (R184). -/
def rangeBusy (th : Thread) (a : DWord) (n : Nat) : Bool :=
  th.ops.any fun o =>
    match o.what with
    | .range _ st len _ => decide (st / 128 * 128 < a.toNat + n) && decide (a.toNat < (st + len + 127) / 128 * 128)
    | _ => false

/-- Reserves an operand-log entry for an instruction with a window (R111). -/
def reserveLog (s : State) (k id la : Nat) : State :=
  if la = 0 then s else s.modTeam k fun t => { t with opLog := t.opLog ++ [id] }

/-- An instruction of a lane that LOAD_DATA_RETURN ends: what the lane still has to do, and its log entry. -/
structure Started where
  what : OpKind
  lr : LogRec
  deriving DecidableEq, Repr

/-- Lanes that trap at a form that is decided at its issue: a tracked one goes on through its window (R56). -/
def trapForm (s : State) (g : Grp) (i : Instr) (f : Fields) (traps : List (Nat × TrapRec × Retain)) : State :=
  if traps.isEmpty then s
  else if i.shape.trk then
    trapTracked { s with serial := s.serial + 1 } g s.serial (g.la s) (dstRegs false i.shape.d f.dst)
      (logOperands i f i.shape g.here) traps
  else trapLanes s g.k g.idx g.run.acc traps

/-- A lane of an instruction that acts on the state and writes words to DST. -/
def effectLane (d : DUse) (dst : BitVec 7) (act : State → LCtx → Thread → Except AccStop (List Word × Thread × State))
    (s : State) (L : LCtx) (th : Thread) : Except AccStop (Unit × Thread × State) :=
  match act s L th with
  | .error e => .error e
  | .ok (ws, th1, s') =>
    match writeDst L d dst ws th1 with
    | .error e => .error e
    | .ok (u, th2) => .ok (u, th2, s')

/-- An instruction whose lanes act on the state in ascending order and write words to DST at once; a tracked one
is decided and complete at its issue. -/
def effectOp (s : State) (i : Instr) (f : Fields) (extra : Site → Option (Cause × DWord))
    (act : State → LCtx → Thread → Except AccStop (List Word × Thread × State)) : Host.Outcome State Fault Refusal :=
  let sh := i.shape
  let regs := srcRegs sh.a f.a ++ srcRegs sh.b f.b ++ srcRegs sh.c f.c ++ dstRegs false sh.d f.dst
  match prologue s f (fun st => firstOf [opChecks st sh f, extra st]) false regs sh.trk with
  | .error o => o
  | .ok g =>
    let (rs, s1) := g.lanesS s (effectLane sh.d f.dst act)
    match holdsOf rs with
    | _ :: _ => waitLanes s g (holdsOf rs)
    | [] =>
      let oks := oksOf rs
      let s2 := setThreads s1 g.k g.run.acc (oks.map fun p => (p.1, p.2.2))
      next (pairEvents (finishNext (trapForm s2 g i f (trapsOf g.here rs)) g) g.k sh.d f.dst (oks.map (·.1)))

/-- The queue elements that a thread has popped. -/
def popped (before after : Thread) : List (List QElem) :=
  mapAt (fun q es => es.take (es.length - (getAt [] after.inq q).length)) 0 before.inq

/-- A thread keeps what the instruction at an address has popped, for the case that it leaves its wait before the instruction
has had its effect. -/
def Thread.noting (after : Thread) (here : DWord) (before : Thread) : Thread := { after with backq := some (here, popped before after) }

/-- Where a thread that leaves its wait stands: at its waiting instruction, or after YIELD at its next one (R406, R421). -/
def standsAt (th : Thread) : DWord :=
  match th.wait with
  | none | some (.yield _) => th.pc
  | some _ => th.waitPc

/-- A thread leaves its wait: the waiting instruction will be executed again or has trapped, and what it popped is in its
queues again (R5, R406). -/
def Thread.leaveWait (th : Thread) : Thread :=
  let back := if standsAt th == th.waitPc then (th.backq.filter fun p => p.1 == th.waitPc).map (·.2) else none
  { th with
    pc := standsAt th, farPc := none, wait := none, backq := none
    inq := mapAt (fun q es => getAt [] (back.getD []) q ++ es) 0 th.inq }

/-- A thread with an operation in flight: its counter rises (R53, R57). One with a window has an entry of the operand log, and
a replayed one keeps its own; of another only the elements that it popped are kept (R111, R112). -/
def Thread.startOp (th : Thread) (id dc la : Nat) (dsts : List Nat) (decided : Bool) (st : Started) (pops : List (List QElem)) :
    Thread :=
  let th := th.incDc dc
  let logged := la != 0 || !th.replay.isEmpty
  { th with
    ops := th.ops ++ [({ id := id, dsts := dsts, dc := dc, win := la + 1, decided := decided, doomed := none, what := st.what
                         log := some { st.lr with id := if th.replay.isEmpty then id else st.lr.id }, logged := logged
                         back := if logged then [] else pops } : TOp)] }

/-- The state after operations of lanes have issued: each is in flight until its LOAD_DATA_RETURN. -/
def startedOps (s : State) (g : Grp) (id la : Nat) (dsts : List Nat) (decided : Bool)
    (oks : List (Nat × Started × Thread)) : State :=
  let s2 := setThreads s g.k g.run.acc (oks.map fun p => (p.1, p.2.2.startOp id g.f.dc la dsts decided p.2.1 (popped (g.thread s p.1) p.2.2)))
  let s3 := if decided || oks.isEmpty then s2 else reserveLog s2 g.k id la
  oks.foldl (fun s p => s.push (.loadDataReturn g.k p.1 id)) s3

/-- Issues a load or an atomic operation: every lane makes its checks, the passing lanes go on with the
operation in flight, and the failing ones trap (R89, R186, R195). -/
def startOps (s : State) (g : Grp) (dsts : List Nat) (decided : Bool)
    (act : State → LCtx → Thread → Except AccStop (Started × Thread × State)) (log : LCtx → LaneM LogRec) :
    Host.Outcome State Fault Refusal :=
  let la := g.la s
  let id := s.serial
  let (rs, s1) := g.lanesS ({ s with serial := s.serial + 1 } : State) act
  match holdsOf rs with
  | _ :: _ => waitLanes s g (holdsOf rs)
  | [] =>
    let oks := oksOf rs
    let s4 := startedOps s1 g id la dsts decided (oks.map fun p => (p.1, p.2.1, p.2.2))
    next (finishNext (trapTracked s4 g id la dsts log (trapsOf g.here rs)) g)

/-- The log entry of a format-M instruction (R111). -/
def memLog (i : Instr) (m : MOps) (here : DWord) (store : Bool) (L : LCtx) : LaneM LogRec := do
  let b ← baseOf L m
  let d ← if store then dataWords L m else pure []
  return { at_ := here, instr := i, a := 0, b := 0, c := [], base := b, data := d }
where
  /-- The words a store writes. -/
  dataWords (L : LCtx) (m : MOps) : LaneM (List Word) :=
    match L.log with
    | some r => return r.data
    | none =>
      match m.size.width with
      | .w32 => do
        let x ← readSrc L .int .w32 (.vec m.data)
        return [x.lo]
      | .w64 => do
        let x ← readSrc L .int .w64 (.vec m.data)
        return [x.lo, x.hi]
      | .w128 => do
        let th ← getTh
        return (List.range 4).map fun j => th.vreg (m.data.toNat + j)

/-! ### Loads -/

/-- A lane of LD, LDRO or LDMON at issue (R185, R189, R192). -/
def loadLane (i : Instr) (m : MOps) (ro mon : Bool) (k : Nat) (here : DWord) (s : State) (L : LCtx) (th : Thread) :
    Except AccStop (Started × Thread × State) :=
  match memLog i m here false L th with
  | .error e => .error e
  | .ok (lr, th) =>
    let a := addrOf lr.base m
    if rangeBusy th (byteAt m a) (reachBytes m) then .error .hold
    else
      match s.pieces k L.lane .load m a with
      | .error e => .error e
      | .ok (_, s') => .ok ({ what := .load m a ro mon, lr := lr }, th, s')

/-- LD, LDRO and LDMON at issue (R189, R190, R203). -/
def loadOp (i : Instr) (m : MOps) (ro mon : Bool) (s : State) : Host.Outcome State Fault Refusal :=
  match prologue s (ofM m) (fun st => memChecks st m false true) false (memRegs m false true) true with
  | .error o => o
  | .ok g => startOps s g (loadDsts m) false (loadLane i m ro mon g.k g.here) (memLog i m g.here false)

/-- A lane of LDS at issue (R191). -/
def ldsLane (i : Instr) (m : MOps) (k : Nat) (here : DWord) (s : State) (L : LCtx) (th : Thread) :
    Except AccStop (Started × Thread × State) :=
  match memLog i m here false L th with
  | .error e => .error e
  | .ok (lr, th) =>
    let a := addrOf lr.base m
    match s.scratchPlace k a (sizeBytes m.size) with
    | .error e => .error e
    | .ok _ => .ok ({ what := .lds m a, lr := lr }, th, s)

/-- LDS at issue (R191). -/
def ldsOp (i : Instr) (m : MOps) (s : State) : Host.Outcome State Fault Refusal :=
  match prologue s (ofM m) (fun st => memChecks st m false true) false (memRegs m false true) true with
  | .error o => o
  | .ok g => startOps s g (loadDsts m) true (ldsLane i m g.k g.here) (memLog i m g.here false)

/-! ### Stores and the store queue -/

/-- Bits of a packed element as masked writes (R192, R149). -/
def packedWrites (ps : List Piece) (x w v : Nat) : List (Nat × Byte × Byte) :=
  let sh := x % 8
  let val := v % 2 ^ w * 2 ^ sh
  let msk := (2 ^ w - 1) * 2 ^ sh
  mapAt (fun i (p : Piece) =>
    (p.xl.pa, BitVec.ofNat 8 (val / 2 ^ (8 * i)), BitVec.ofNat 8 (msk / 2 ^ (8 * i)))) 0 ps

/-- The bytes of words, lowest first. -/
def bytesOfWords (ws : List Word) : List Byte := ws.flatMap fun w => leBytes 4 w.toNat

/-- The masked writes of a store (R189, R192). -/
def storeWrites (m : MOps) (a : DWord) (ps : List Piece) (ws : List Word) : List (Nat × Byte × Byte) :=
  match m.size, ps with
  | _, [] => []
  | .packed, _ => packedWrites ps a.toNat (packedBits m) (getAt 0 ws 0).toNat
  | _, p :: _ => wholeBytes p.xl.pa ((bytesOfWords ws).take (sizeBytes m.size))

/-- Puts an entry into its team's queue, in place of the first placeholder of its lane where it replays
(R113). -/
def enqueueStore (s : State) (k : Nat) (replaying : Bool) (e : StoreEntry) : State :=
  s.modTeam k fun t =>
    if replaying && t.storeq.any (fun x => x.lane == e.lane && x.placeholder) then
      { t with storeq := fill e t.storeq }
    else { t with storeq := t.storeq ++ [e] }
where
  fill (e : StoreEntry) : List StoreEntry → List StoreEntry
    | [] => []
    | x :: r => if x.lane = e.lane && x.placeholder then { e with op := x.op } :: r else x :: fill e r

/-- The state after stores of lanes have issued: their entries are in the team's queue, in the order given, and each
waits for a STORE_PERFORM; a store outside scratchpad is a side effect of the phase (R159, R392). -/
def startedStores (s : State) (g : Grp) (replaying : Bool) (oks : List (Nat × StoreEntry × Thread)) : State :=
  let s2 := setThreads s g.k g.run.acc (oks.map fun p => (p.1, p.2.2.incDc g.f.dc))
  let s3 := if oks.any fun p => p.2.1.scratch.isNone then s2.sideEffect g.k else s2
  oks.foldl (fun s p => (enqueueStore s g.k replaying p.2.1).push (.storePerform g.k)) s3

/-- Issues a store or a RED: the passing lanes' entries enter the queue in ascending lane order, and a lane that
traps with a window leaves a placeholder (R113, R159, R186). -/
def startStores (s : State) (g : Grp) (act : State → LCtx → Thread → Nat → Except AccStop ((StoreEntry × LogRec) × Thread × State))
    (log : LCtx → LaneM LogRec) : Host.Outcome State Fault Refusal :=
  let la := g.la s
  let id := s.serial
  let (rs, s1) := g.lanesS ({ s with serial := s.serial + 1 } : State) fun s L th => act s L th id
  match holdsOf rs with
  | _ :: _ => waitLanes s g (holdsOf rs)
  | [] =>
    let oks := oksOf rs
    let replaying := g.act.any fun l => !(g.thread s l).replay.isEmpty
    let s3 := startedStores s1 g replaying (oks.map fun p => (p.1, p.2.1.1, p.2.2))
    let traps := trapsOf g.here rs
    let s4 :=
      if la = 0 then s3
      else traps.foldl (fun s p => s.modTeam g.k fun t => { t with storeq := t.storeq ++ [hole p.1 id] }) s3
    next (finishNext (trapTracked s4 g id la [] log traps) g)
where
  /-- The placeholder of a store that has trapped (R113). -/
  hole (l id : Nat) : StoreEntry :=
    { lane := l, op := id, dc := none, writes := [], va := 0, mode := .coh, ty := .dram, master := false,
      scratch := none, scope := .thread, placeholder := true, red := none }

/-- A release at .device or wider of a thread with a lost store traps (R186). -/
def lostTrap (th : Thread) (sc : Scope) : Option DWord :=
  match sc with
  | .device | .domain | .system => th.lost
  | _ => none

/-- A lane of ST at issue (R185, R186, R189, R192): the entry it puts into the store queue. -/
def storeLane (i : Instr) (m : MOps) (k : Nat) (here : DWord) (s : State) (L : LCtx) (th : Thread) (id : Nat) :
    Except AccStop ((StoreEntry × LogRec) × Thread × State) :=
  match memLog i m here true L th with
  | .error e => .error e
  | .ok (lr, th) =>
    let a := addrOf lr.base m
    if rangeBusy th (byteAt m a) (reachBytes m) then .error .hold
    else
      match s.pieces k L.lane .store m a with
      | .error e => .error e
      | .ok (ps, s') =>
        if m.size != .b32 && ps.any fun p => s.portIn p.xl.pa p.n then .error (.trap .atomicUnsupported a .nothing)
        else
        match ps.findSome? fun p => (s.unreachable (s.team k).die p.xl.ty p.xl.pa).map fun d => unreachableTval p.xl.ty d p.va with
        | some v => .error (.trap .fabricUnreachable v .nothing)
        | none =>
          match lostTrap th m.scope, ps with
          | some v, _ => .error (.trap .fabricUnreachable v .popLost)
          | none, [] => .error .hold
          | none, p :: _ =>
            .ok (({ lane := L.lane, op := id, dc := some m.dc.toNat, writes := storeWrites m a ps lr.data, va := byteAt m a,
                    mode := p.xl.mode, ty := p.xl.ty, master := ps.any fun p => p.xl.master, scratch := none,
                    scope := m.scope, placeholder := false, red := none, lines := ps.flatMap fun p => p.xl.lines
                    packed := m.size == .packed },
                  lr), th, s')

/-- ST at issue (R189, R192). -/
def storeOp (i : Instr) (m : MOps) (s : State) : Host.Outcome State Fault Refusal :=
  match prologue s (ofM m) (fun st => memChecks st m true true) false (memRegs m true true) true with
  | .error o => o
  | .ok g => startStores s g (storeLane i m g.k g.here) (memLog i m g.here true)

/-- A lane of STS at issue (R191). -/
def stsLane (i : Instr) (m : MOps) (k : Nat) (here : DWord) (s : State) (L : LCtx) (th : Thread) (id : Nat) :
    Except AccStop ((StoreEntry × LogRec) × Thread × State) :=
  match memLog i m here true L th with
  | .error e => .error e
  | .ok (lr, th) =>
    let a := addrOf lr.base m
    match s.scratchPlace k a (sizeBytes m.size) with
    | .error e => .error e
    | .ok (c, off) =>
      match lostTrap th m.scope with
      | some v => .error (.trap .fabricUnreachable v .popLost)
      | none =>
        .ok (({ lane := L.lane, op := id, dc := some m.dc.toNat,
                writes := wholeBytes off ((bytesOfWords lr.data).take (sizeBytes m.size)), va := a, mode := .home,
                ty := .dram, master := false, scratch := some c, scope := m.scope, placeholder := false, red := none },
              lr), th, s)

/-- STS at issue (R191). -/
def stsOp (i : Instr) (m : MOps) (s : State) : Host.Outcome State Fault Refusal :=
  match prologue s (ofM m) (fun st => memChecks st m true true) false (memRegs m true true) true with
  | .error o => o
  | .ok g => startStores s g (stsLane i m g.k g.here) (memLog i m g.here true)

/-- Drops a lane's placeholder and the stores held behind it, when the lane is not replayed (R113). -/
def discardStores (s : State) (k l : Nat) : State :=
  let t := s.team k
  let mine := t.storeq.filter fun e => e.lane == l
  let gone := mine.dropWhile fun e => !e.placeholder
  let s1 := s.modTeam k fun t => { t with storeq := t.storeq.filter fun e => !gone.contains e }
  gone.foldl (fun s e =>
    match e.dc with
    | some d => s.modThread k l fun th => th.decDc d
    | none => s) s1

/-! ### Ordering of what is in flight -/

/-- Scopes at which a release sends flush markers (R161). -/
def marksAt (sc : Scope) : Bool :=
  match sc with
  | .device | .domain | .system => true
  | _ => false

/-- Sends the flush markers of a release on a die: one on each path to each other die (R161), and at .domain and
.system one on each Meridian path to each device the context has sent traffic to (R162); device d is destination 4 + d. -/
def sendMarkers (s : State) (die ctx ticket : Nat) (sc : Scope) : State :=
  let far := if sc == .domain || sc == .system then (s.ctx ctx).traffic.filter s.peers.contains else []
  let ps := ([0, 1, 2, 3].flatMap fun d =>
    if d = die || s.cut die d then [] else [(die, d, 0), (die, d, 1)]) ++ far.flatMap fun d => (s.pathsTo d).map fun p => (die, 4 + d, p)
  let s1 := { s with markers := s.markers ++ ps.map fun p => (p.1, p.2.1, p.2.2, ticket) }
  ps.foldl (fun s p => s.push (.flushMarker p.1 p.2.1 p.2.2)) s1

/-- A marker of a release has not arrived. -/
def markersOut (s : State) (ticket : Nat) : Bool := s.markers.any fun m => m.2.2.2 == ticket

/-! ### Performing -/

/-- The pattern of `n` bytes at a physical place as an agent sees it. -/
def natFor (s : State) (ag : Option AgentId) (mode : PageMode) (pa n : Nat) : Nat := leNat (s.bytesFor ag mode pa n)

/-- The U copy in which a RED is combined (R130). -/
def State.uCopyFor (s : State) (ag : AgentId) (line : Nat) (op : AtomOp) (ty : Ty) : Option UCopy :=
  s.ucopies.find? fun u => u.agent == ag && u.line == line && u.op == op && u.ty == ty

/-- The identity a U copy starts at (R130). -/
def uIdentity (op : AtomOp) (ty : Ty) : Nat :=
  let w := 2 ^ (8 * tyBytes ty)
  let signed := ty == .s32 || ty == .s64
  match op with
  | .and => w - 1
  | .min => if ty == .f32 then 0x7F800000 else if signed then w / 2 - 1 else w - 1
  | .max => if ty == .f32 then 0xFF800000 else if signed then w / 2 else 0
  | _ => 0

/-- Operations and types that may be gathered (R130). -/
def uEligible (op : AtomOp) (ty : Ty) : Bool :=
  match op with
  | .add | .min | .max => [Ty.s32, .n32, .s64, .n64, .f32].contains ty
  | .and | .or | .xor => ty == .b32 || ty == .b64
  | _ => false

/-- Some thread watches a line (R203). -/
def watched (s : State) (line : Nat) : Bool :=
  s.teams.any fun kt => kt.2.threads.any fun th => th.monitor == .armed line

/-- The home may grant update-only copies of a line now (R130, R203): no request for its tokens is under way. -/
def State.mayGrant (s : State) (line : Nat) (op : AtomOp) (ty : Ty) : Bool :=
  let d := s.entry line
  uEligible op ty && !watched s line && !d.active && d.collecting.isNone && (carried s line).1 == 0

/-- A queued RED that may be gathered (R130). -/
def uAllowed (e : StoreEntry) : Bool :=
  match e.red, e.scope with
  | _, .domain | _, .system => false
  | some (op, ty, _), _ => uEligible op ty && e.mode == .coh && e.ty == .dram
  | none, _ => false

/-- The U copy that takes a queued RED, if there is one (R130). -/
def uTarget (s : State) (t : Team) (e : StoreEntry) : Option UCopy :=
  match e.red, uAllowed e with
  | some (op, ty, _), true => s.uCopyFor t.agent (lineOf ((e.writes.head?.map (·.1)).getD 0)) op ty
  | _, _ => none

/-- Combines an operand into a U copy. -/
def State.combineInto (s : State) (u : UCopy) (pa : Nat) (b : DWord) : State :=
  let n := tyBytes u.ty
  let old := ((aget u.vals pa).map BitVec.toNat).getD (uIdentity u.op u.ty)
  let v := BitVec.ofNat 64 (atomNew u.op u.ty old (b.toNat % 2 ^ (8 * n)) 0)
  { s with ucopies := s.ucopies.map fun x => if x == u then { u with vals := aset u.vals pa v } else x }

/-- A core's software-managed copy of a line goes home before an operation that is made there, and is dropped, so that the core
sees its own accesses in order (R153, R165). -/
def State.sendHome (s : State) (ag : AgentId) (line : Nat) : State :=
  match s.swmCopy ag line with
  | some c => { writeBackCopy s false c with swm := (writeBackCopy s false c).swm.erase c }
  | none => s

/-- The mode in which an atomic operation acts on a place: a HOST line is held exclusively by the CXL.cache agent of die 0,
whatever its page's mode (R195). DESIGN CHOICE (log 113): a PEER page of MODE SWM, which two rows of R195 name, acts in the
core's L1 as a software-managed line. -/
def atomMode (mode : PageMode) (pa : Nat) : PageMode := if regionOf pa == some .host then .home else mode

/-- An atomic operation on one place of memory: the old value and the state after the write (R150, R195). A bank reads its
unit for it, and a unit that is poisoned stays so, since the new value comes from the old one (R139; log 8). -/
def State.rmw (s : State) (ag : AgentId) (mode : PageMode) (master : Bool) (self : Option (Nat × Nat)) (op : AtomOp)
    (ty : Ty) (pa : Nat) (b c : DWord) (va : Option DWord) : DWord × State :=
  let n := tyBytes ty
  let s0 := s.endUmodes pa n
  let s1 := if regionOf pa == some .host then s0.sendHome ag (lineOf pa) else if regionOf pa == some .bank then s0.readBank pa n else s0
  let mode := atomMode mode pa
  let old := natFor s1 (some ag) mode pa n
  let new := atomNew op ty old (b.toNat % 2 ^ (8 * n)) (c.toNat % 2 ^ (8 * n))
  let s2 := s1.performWrite (some ag) true mode master self (wholeBytes pa (leBytes n new)) va
  (BitVec.ofNat 64 old, { s2 with bankPoison := s1.bankPoison })

/-- An atomic operation on scratchpad. -/
def State.rmwScratch (s : State) (c off : Nat) (op : AtomOp) (ty : Ty) (x y : DWord) : DWord × State :=
  let n := tyBytes ty
  let old := leNat (s.scratchRead c off n)
  let new := atomNew op ty old (x.toNat % 2 ^ (8 * n)) (y.toNat % 2 ^ (8 * n))
  (BitVec.ofNat 64 old, s.scratchWrite c (wholeBytes off (leBytes n new)))

/-- Remembers a device to which a context has sent something that its releases follow (R162). -/
def noteDevice (s : State) (ctx d : Nat) : State :=
  s.modCtx ctx fun c => { c with traffic := if c.traffic.contains d then c.traffic else d :: c.traffic }

/-- A store or an atomic operation of a context is traffic of it (R162). -/
def noteTraffic (s : State) (ctx : Nat) (ty : MemTy) (pa : Nat) : State :=
  match ty with
  | .peer => noteDevice s ctx (peerDevice pa)
  | _ => s

/-- Devices that hold a block of a view which derives from a written byte: its clearing is traffic of the context too
(R162, R173). -/
def noteViews (s : State) (ctx : Nat) (ws : List (Nat × Byte × Byte)) : State :=
  s.views.foldl (fun s v =>
    if v.faulted || !v.installed then s
    else
      match ws.findSome? fun w => (v.derived w.1).map fun b => (v.tagAddr b).getD 0 with
      | some a => if regionOf a == some .peer then noteTraffic s ctx .peer a else s
      | none => s) s

/-- A release at .domain or .system has performed: the context's traffic starts anew (R162). -/
def clearTraffic (s : State) (ctx : Nat) (sc : Scope) : State :=
  if sc == .domain || sc == .system then s.modCtx ctx fun c => { c with traffic := [] } else s

/-- Performs one queue entry (R149, R163, R186, R195): a RED that a U copy takes is a master write too (R131, R173), a packed
store to a COH line is made at its home slice (R192), and the store of a stream writes its core's copy of a software-managed
line only where there is one (R465). -/
def performEntry (s : State) (k : Nat) (e : StoreEntry) : State :=
  let t := s.team k
  let self := some (k, e.lane)
  let pa := (e.writes.head?.map (·.1)).getD 0
  let noted := fun (s : State) => noteTraffic (if e.master then noteViews s t.ctx e.writes else s) t.ctx e.ty pa
  let s1 :=
    match e.scratch with
    | some c => s.scratchWrite c e.writes
    | none =>
      match s.unreachable t.die e.ty pa with
      | some d => s.modThread k e.lane fun th => { th with lost := some (BitVec.ofNat 64 d) }
      | none =>
        match e.red with
        | some (op, ty, b) =>
          match uTarget s t e with
          | some u =>
            let s1 := s.combineInto u pa b
            noted (if e.master then (e.writes.map fun w => w.1).foldl (fun s a => s.masterWrite a) s1 else s1)
          | none => noted (s.rmw t.agent e.mode e.master self op ty pa b 0 (some e.va)).2
        | none =>
          let ws :=
            if e.writes.length = 4 && s.portIn pa 4 then
              wholeBytes pa (leBytes 4 (portNew (BitVec.ofNat 32 (s.mem.nat pa 4))
                (BitVec.ofNat 32 (leNat (e.writes.map fun w => w.2.1)))).toNat)
            else e.writes
          noted (s.performWrite (if e.packed && e.mode == .coh then none else some t.agent) e.dc.isSome e.mode e.master self ws
            (some e.va))
  match e.dc with
  | some d => s1.modThread k e.lane fun th => th.decDc d
  | none => s1

/-! ### Queued stores that are translated again (R101, R117) -/

/-- What translating a queued store again gives: the entry with its new places, a wait, or an access that can no longer be
made. -/
inductive Retrans where
  | ok (e : StoreEntry) (s : State)
  | wait (s : State)
  | lost (v : DWord)
  deriving DecidableEq, Repr

/-- Translates a queued store again. DESIGN CHOICE (log 90): a cause that a supervisor team resolves goes to the mailbox of
the team's core and the store waits; any other loses the store, which the thread's next release reports (R186). -/
def State.retranslate (s : State) (k : Nat) (e : StoreEntry) : Retrans :=
  let t := s.team k
  let n := e.writes.length
  let kind : AccKind := if e.red.isSome then .atomic (wideScope e.scope) false else .store
  let stop := fun (c : Cause) (v : DWord) =>
    if c.resolvable then .wait (s.mailOnce (s.mailCore t) (mboxWords t.ctx c v (s.thread k e.lane).pc 0 t.slot 0 0 []) .notice)
    else .lost v
  let last := e.va + BitVec.ofNat 64 (n - 1)
  match s.xlateAgain t kind e.va with
  | .error none => .wait s
  | .error (some c) => stop c e.va
  | .ok (x, s1) =>
    match s1.xlateAgain t kind last with
    | .error none => .wait s1
    | .error (some c) => stop c last
    | .ok (y, s2) =>
      let put := fun (i : Nat) (w : Nat × Byte × Byte) =>
        ((if (e.va.toNat + i) / 4096 = e.va.toNat / 4096 then x.pa + i else y.pa + i + 1 - n), w.2.1, w.2.2)
      .ok { e with
            writes := mapAt put 0 e.writes, mode := x.mode, ty := x.ty, master := x.master || y.master
            lines := (x.lines ++ y.lines).eraseDups, again := false } s2

/-- Tokens a write on a page must gather first (R123, R125). -/
def State.needWrite (s : State) (ag : AgentId) (mode : PageMode) (line : Nat) : Bool :=
  mode == .coh && !(s.hold.any fun h =>
    h.agent == ag && h.line == line && h.tokens == Config.lineTokens && h.owner && h.valid)

/-- The home cannot make a write of its own to a line now: tokens are on their way, or promised to an agent (R123, R125,
R129). -/
def State.homeBlocked (s : State) (line : Nat) : Bool :=
  let d := s.entry line
  d.active || d.collecting.isSome || (carried s line).1 != 0

/-- STORE_PERFORM (R133, R157, R159, R161, R172, R184): the oldest entry that nothing holds for a replay performs, once the
data that its thread has pushed before it have their addresses, the thread's earlier loads have their values, a release's earlier range instructions are complete and its flush markers
gathered, and the tokens of its line are held. A RED of the operation and type of a line in update-only mode asks for a
copy of its own; one that may start update-only mode does so or collects the tokens, which is open (R130; log 5). -/
def execStorePerform (k : Nat) (s : State) : Host.Outcome State Fault Refusal :=
  let t := s.team k
  match t.storeq.find? fun e => !heldStore t e with
  | none => next (if t.storeq.any fun e => !behindHole t.storeq e then s.push (.storePerform k) else s)
  | some e =>
    let wait := fun (s : State) => next (s.push (.storePerform k))
    let lines := (e.writes.map fun w => lineOf w.1).eraseDups
    let release := marksAt e.scope && e.red.isNone
    let home := e.packed && e.mode == .coh
    if earlierData t e.lane e.op || earlierLoad (t.thread e.lane) e.op then wait s
    else if e.red.isNone && e.scope != .thread && earlierRange (t.thread e.lane) e.op then wait s
    else if release && !e.sent then
      wait ((sendMarkers s t.die t.ctx e.op e.scope).modTeam k fun t =>
        { t with storeq := t.storeq.map fun x => if x == e then { e with sent := true } else x })
    else if release && markersOut s e.op then wait s
    else
      match e.scratch with
      | some c =>
        let lo := (e.writes.head?.map (·.1)).getD 0
        if s.scoreHolds c lo e.writes.length none then wait s else done e s
      | none =>
        if e.again then
          match s.retranslate k e with
          | .ok e1 s1 => wait (s1.modTeam k fun t => { t with storeq := t.storeq.map fun x => if x == e then e1 else x })
          | .wait s1 => wait s1
          | .lost v => next (loseStore s e v)
        else if derivesFrom s (some k) lines then wait s
        else if home && lines.any s.homeBlocked then wait s
        else
          let pa := (e.writes.head?.map (·.1)).getD 0
          match uTarget s t e, (lines.filter fun ln => !home && s.needWrite t.agent e.mode ln && (s.unreachable t.die e.ty pa).isNone) with
          | some _, _ | none, [] => done e s
          | none, miss => wait (askFor s t e miss)
where
  done (e : StoreEntry) (s : State) : Host.Outcome State Fault Refusal :=
    let s1 := performEntry (s.modTeam k fun t => { t with storeq := t.storeq.erase e }) k e
    next (if e.red.isNone then clearTraffic s1 (s.team k).ctx e.scope else s1)
  /-- A store that can no longer be made has no effect; the thread's next release reports it (R186). -/
  loseStore (s : State) (e : StoreEntry) (v : DWord) : State :=
    let s1 := (s.modTeam k fun t => { t with storeq := t.storeq.erase e }).modThread k e.lane fun th => { th with lost := some v }
    match e.dc with
    | some d => s1.modThread k e.lane fun th => th.decDc d
    | none => s1
  /-- Asks the home of the lines an entry still lacks tokens of. -/
  askFor (s : State) (t : Team) (e : StoreEntry) (miss : List Nat) : State :=
    let s := miss.foldl (fun s ln => s.missFill t.agent e.mode ln e.va 0) s
    match e.red, uAllowed e with
    | some (op, ty, _), true =>
      let ln := miss.headD 0
      if s.mayGrant ln op ty then
        if (s.entry ln).umode == some (op, ty) then s.pushOnce (.updateOnlyGrant t.agent ln op ty)
        else
          let (n, s1) := s.free 53
          if n % 2 = 0 then s1.pushOnce (.updateOnlyGrant t.agent ln op ty) else s1.ask t.agent ln true
      else s.ask t.agent ln true
    | _, _ => miss.foldl (fun s ln => s.ask t.agent ln true) s

/-! ### The end of loads and atomic operations -/

/-- A thread is in a run of its team. -/
def inRun (s : State) (k l : Nat) : Bool := s.runs.any fun r => r.team == k && !r.acc && r.lanes.contains l

/-- Takes the recorded traps of a thread that stands in no run and waits for nothing: a run-ending instruction of the window
ends its wait first (R56). -/
def parkIdle (s : State) (k l : Nat) : State :=
  if inRun s k l || (s.thread k l).wait.isSome || !((s.thread k l).ops.any fun o => o.doomed.isSome) then s
  else takeDoomed s k [l]

/-- An operation in flight traps at its decision point (R56, R57, R111): its counter falls, and the thread parks
at the end of the window. One that the operand log does not hold gives back what it popped: it reads its operands anew. -/
def doomOp (s : State) (k l id : Nat) (c : Cause) (v : DWord) : State :=
  let s1 := s.modThread k l fun th =>
    let upd := fun (o : TOp) =>
      if o.id = id then
        { o with doomed := some { trap := { cause := c, tval := v, tpc := (o.log.map (·.at_)).getD 0 },
                                  log := if o.logged then o.log else none, resume := 0 } }
      else o
    match th.ops.find? fun o => o.id == id with
    | some o => { th.decDc o.dc with ops := th.ops.map upd, inq := mapAt (fun q es => getAt [] o.back q ++ es) 0 th.inq }
    | none => th
  parkIdle s1 k l

/-- Ends an operation of a thread: its destination has been written (R57). -/
def Thread.endOp (th : Thread) (id : Nat) : Thread :=
  match th.ops.find? fun o => o.id == id with
  | some o => { th.decDc o.dc with ops := th.ops.filter fun o => o.id != id }
  | none => th

/-- The bytes of a load with the thread's own older queued stores laid over them (R159). -/
def overlay (t : Team) (l id : Nat) (scratch : Option Nat) (pa : Nat) (bs : List Byte) : List Byte :=
  let es := t.storeq.filter fun e => e.lane == l && e.op < id && e.scratch == scratch && e.red.isNone
  mapAt (fun i b =>
    es.foldl (fun (b : Byte) e =>
      e.writes.foldl (fun (b : Byte) w => if w.1 = pa + i then (b &&& ~~~w.2.2) ||| (w.2.1 &&& w.2.2) else b) b) b) 0 bs

/-- The words a load writes from the bytes it read (R189, R192). -/
def loadWords (m : MOps) (a : DWord) (bs : List Byte) : List Word :=
  let x := leNat bs
  match m.size with
  | .s8 => [(BitVec.ofNat 8 x).signExtend 32]
  | .s16 => [(BitVec.ofNat 16 x).signExtend 32]
  | .b64 => [BitVec.ofNat 32 x, BitVec.ofNat 32 (x / 2 ^ 32)]
  | .b128 => (List.range 4).map fun j => BitVec.ofNat 32 (x / 2 ^ (32 * j))
  | .packed => [BitVec.ofNat 32 (fld x (a.toNat % 8) (packedBits m))]
  | _ => [BitVec.ofNat 32 x]

/-- A memory error of a later part of an access: where one part has the integrity flag it decides (R119). -/
def worseError (c : Cause) (r : RdRes) : Cause :=
  match c, r with
  | .memoryPoison, .trap .integrityFailure _ => .integrityFailure
  | _, _ => c

/-- Reads the parts of an access in order. -/
def readPieces (s : State) (ag : AgentId) : List Piece → RdRes
  | [] => .ok [] false s
  | p :: r =>
    match s.readAt (some ag) true p.xl p.va p.n with
    | .ok bs st s1 =>
      match readPieces s1 ag r with
      | .ok bs2 st2 s2 => .ok (bs ++ bs2) (st || st2) s2
      | e => e
    | .trap c v => .trap (worseError c (readPieces s ag r)) v
    | e => e

/-- A line takes its place in a core's read-only cache of 64 KiB and 4 ways; which line of a full set goes is open (R132;
log 5). -/
def State.roFill (s : State) (core ln : Nat) (bs : List Byte) : State :=
  let same := (s.core core).ro.filter fun p => p.1 % 128 == ln % 128
  let put := fun (s : State) => s.modCore core fun c => { c with ro := aset c.ro ln bs }
  if same.length < 4 then put s
  else
    let (n, s1) := s.free 54
    put (s1.modCore core fun c => { c with ro := adel c.ro (getAt (ln, []) same (n % same.length)).1 })

/-- A line has bytes of a view's blocks. -/
def State.viewLine (s : State) (ln : Nat) : Bool :=
  s.views.any fun v => v.installed && (List.range 128).any fun i => (v.blockAt (ln * 128 + i)).isSome

/-- The read-only cache may hold a line of a page: not one of MODE HOME, which no private cache holds (R104, R122, R138),
nor one of a view, whose policy applies to every read (R175, R176). -/
def State.roHolds (s : State) (mode : PageMode) (ln : Nat) : Bool := mode != .home && !s.viewLine ln

/-- Reads a load through the read-only cache of its core, which is filled from the core's L1 or through the L2 slices and
takes part in no coherence: it takes no token (R119, R121, R132, R166, R190). -/
def readRo (s : State) (t : Team) (p : Piece) : RdRes :=
  let ln := lineOf p.xl.pa
  let held := s.roHolds p.xl.mode ln
  match (if held then aget (s.core t.core).ro ln else none), s.unreachable t.die p.xl.ty p.xl.pa with
  | some bs, _ => .ok ((bs.drop (p.xl.pa % 128)).take p.n) false s
  | none, some d => .trap .fabricUnreachable (unreachableTval p.xl.ty d p.va)
  | none, none =>
    let s1 := if s.needRead t.agent p.xl.mode ln then s.missFill t.agent p.xl.mode ln p.va 0 else s
    match s1.readHere (some t.agent) false p.xl p.va p.n with
    | .ok bs st s2 => .ok bs st (if held then s2.roFill t.core ln (s2.bytesFor (some t.agent) p.xl.mode (ln * 128) 128) else s2)
    | e => e

/-- Arms a thread's monitor (R203). DESIGN CHOICE (log 101): the line that the thread's own monitor gives up counts among the
256 lines of the core. -/
def armMonitor (s : State) (k l : Nat) (xl : Xlat) : State :=
  let t := s.team k
  let line := lineOf xl.pa
  let watched := (s.teams.flatMap fun kt =>
    if kt.2.core == t.core && (kt.2.kind == .lodestar) == (t.kind == .lodestar) then
      kt.2.threads.filterMap fun th =>
        match th.monitor with
        | .armed ln => some ln
        | _ => none
    else []).eraseDups
  let bad := xl.ty == .peer || xl.ty == .host || xl.mode == .swm || (256 ≤ watched.length && !watched.contains line)
  s.modThread k l fun th => { th with monitor := if bad then .fired else .armed line }

/-- The thread of a lane with the result of an operation written. -/
def resultIn (s : State) (k l id : Nat) (dsts : List Nat) (ws : List Word) : Except LaneStop Thread :=
  let t := s.team k
  let at_ := (((t.thread l).ops.find? fun o => o.id == id).map TOp.order).getD id
  let L : LCtx := { k := k, lane := l, team := t, s := t.s, acc := false, launch := none, log := none, now := at_ }
  let d : DUse :=
    match dsts.length with
    | 0 => .none
    | 1 => .r1
    | 2 => .r2
    | _ => .r4
  match writeDst L d (BitVec.ofNat 7 (dsts.head?.getD 0)) ws (t.thread l) with
  | .ok ((), th) => .ok th
  | .error e => .error e

/-- Writes the result of an operation of a lane and ends it; `none` where an operand queue is full. -/
def writeResult (s : State) (k l id : Nat) (dsts : List Nat) (ws : List Word) : Option State :=
  let d : DUse :=
    match dsts.length with
    | 0 => .none
    | 1 => .r1
    | 2 => .r2
    | _ => .r4
  match resultIn s k l id dsts ws with
  | .ok th => some (pairEvents (releaseLog (s.modThread k l fun _ => th.endOp id) k) k d (BitVec.ofNat 7 (dsts.head?.getD 0)) [l])
  | .error .hold => none
  | .error (.trap c v keep) => some (doomOp (s.modThread k l fun th => keep.apply th) k l id c v)

/-- The value of an operation is fixed while its operand queue is full: it keeps the words it has read, with their stale mark
(R187). -/
def keepWords (s : State) (k l id : Nat) (ws : List Word) (stale : Bool) : State :=
  releaseLog (s.modThread k l fun th =>
    { th with ops := th.ops.map fun o => if o.id = id then { o with what := .got ws stale, decided := true } else o }) k

/-- A view read of a thread under PERMIT was stale (R175). -/
def markStale (s : State) (k l : Nat) (stale : Bool) : State :=
  if stale then s.modThread k l fun th => { th with vstale := th.vstale ||| 1 } else s

/-- Lanes of a team with the same operation of one instruction. -/
def sameOp (t : Team) (id : Nat) (what : OpKind) : List Nat :=
  (mapAt (fun l th => (l, th)) 0 t.threads).filterMap fun p =>
    if p.2.ops.any fun o => o.id == id && o.doomed.isNone && o.what == what then some p.1 else none

/-- Address of an operation. -/
def OpKind.va : OpKind → DWord
  | .load _ a _ _ | .lds _ a | .atom _ _ _ _ _ a _ _ => a
  | .range _ a _ _ => BitVec.ofNat 64 a
  | .cbload _ a _ | .pref _ a => a
  | .flare _ | .got _ _ | .other => 0

def OpKind.isBank : OpKind → Bool
  | .atom _ _ _ b _ _ _ _ => b
  | _ => false

/-- The operation of a lane in flight. -/
def opOf (th : Thread) (id : Nat) : Option TOp := th.ops.find? fun o => o.id == id && o.doomed.isNone

/-- A lane's push of a result must wait for room in its operand queue. -/
def resultFull (s : State) (k l id : Nat) (dsts : List Nat) (ws : List Word) : Bool :=
  match resultIn s k l id dsts ws with
  | .error .hold => true
  | _ => false

/-- Ends a load for every lane that reads the same bytes (R187); a lane that traps has no other effect of it (R5). -/
def endLoads (s : State) (k id : Nat) (lanes : List Nat) (f : State → Nat → List Word) (stale : Bool)
    (mon : Option Xlat) : State :=
  lanes.foldl (fun s l =>
    match opOf (s.thread k l) id with
    | none => s
    | some o =>
      let armed := fun (s : State) =>
        match mon with
        | some xl => armMonitor s k l xl
        | none => s
      match resultIn s k l id o.dsts (f s l) with
      | .ok _ => (writeResult (armed (markStale s k l stale)) k l id o.dsts (f s l)).getD s
      | .error .hold => keepWords (armed s) k l id (f s l) stale
      | .error (.trap _ _ _) => (writeResult s k l id o.dsts (f s l)).getD s) s

/-- Performs an atomic operation for one lane at a translated place: the old value and the state (R195, R206). -/
def doAtom (s : State) (k l : Nat) (op : AtomOp) (ty : Ty) (xl : Xlat) (va b c : DWord) : DWord × State :=
  s.rmw (s.team k).agent xl.mode xl.master (some (k, l)) op ty xl.pa b c (some va)

/-- A load of a lane waits for its own older RED to the bytes it reads, and for an older store that is translated again
(R153, R159). -/
def ownBefore (t : Team) (l id : Nat) (ps : List Piece) : Bool :=
  t.storeq.any fun e => e.lane == l && e.op < id && (e.again || (e.red.isSome &&
    ps.any fun p => e.writes.any fun w => decide (p.xl.pa ≤ w.1) && decide (w.1 < p.xl.pa + p.n)))

/-- An earlier lane of the same instruction whose operation names the same location has not performed: lanes go in
ascending order (R150, R195). -/
def lanesBefore (s : State) (k l id : Nat) : Bool :=
  let place := fun (j : Nat) => ((opOf (s.thread k j) id).map fun o => atomPlace s k o.what).join
  match place l with
  | some q => (List.range l).any fun j => place j == some q
  | none => false

/-- The fill of one prefetch (R202): what it still waits for, or `none` where it is done or dropped. It changes which copies
exist and no value. DESIGN CHOICE (log 112): a PREF.wr with HINT 0b11, for which the specification states both a fill of the
L2 only and the gathering of all tokens, fills the L2 and gathers none; and whether a PREF.wr would trap is judged as for a
load, so that a page that may be read and not written is prefetched. -/
def prefetch (s : State) (k : Nat) (m : MOps) (a : DWord) : Option Ev × State :=
  let t := s.team k
  match s.xlateTeam t .load a with
  | .error none => (some (.pageTableWalk t.die t.ctx a), s)
  | .error (some _) => (none, s)
  | .ok (xl, s1) =>
    let ln := lineOf xl.pa
    let wish := if m.hint = 3 then 0 else m.hint.toNat
    if xl.ty != .dram || (s1.unreachable t.die xl.ty xl.pa).isSome then (none, s1)
    else
      match xl.mode with
      | .swm => (none, if m.hint = 3 then s1.swmReach t.die ln (some a) 0 else s1.swmFill t.agent ln (some a) wish)
      | .home => (none, if t.die = homeDie ln then s1.homeFill .home ln (some a) wish false else s1)
      | mode =>
        let s2 := s1.missFill t.agent mode ln a wish
        if m.hint = 3 then (none, s2)
        else if m.size == .s8 && mode == .coh then
          if s1.needWrite t.agent mode ln then (some (.writeMiss t.agent ln), s2.ask t.agent ln true) else (none, s1)
        else if s1.needRead t.agent mode ln then (some (.readMiss t.agent ln), s2.ask t.agent ln false)
        else (none, s1)

/-- The line of a prefetch. -/
def prefLine (s : State) (k : Nat) (a : DWord) : Nat :=
  match s.xlateTeam (s.team k) .load a with
  | .ok (xl, _) => lineOf xl.pa
  | .error _ => 0

/-- A load of a lane takes its value now: the thread's earlier loads have theirs, and the data it has pushed before have their
addresses, so that its own stores stand in the queue (R153, R159, R253). -/
def loadReady (t : Team) (l id : Nat) : Bool :=
  (opOf (t.thread l) id).all fun o => !earlierLoad (t.thread l) o.order && !earlierData t l o.order

/-- LOAD_DATA_RETURN (R186, R187, R195, R202): the oldest load or atomic operation of a thread takes its value; a prefetch
completes when its line is filled or it is dropped. -/
def execLoadDataReturn (k l id : Nat) (s : State) : Host.Outcome State Fault Refusal :=
  let t := s.team k
  match opOf (t.thread l) id with
  | none => next s
  | some o =>
    let wait := fun (s : State) => next (s.push (.loadDataReturn k l id))
    let at_ := fun (j : Nat) => ((opOf (t.thread j) id).map TOp.order).getD id
    match o.what with
    | .load m a ro mon =>
      let lanes := sameOp t id o.what
      if lanes.any fun j => !loadReady t j id then wait s
      else
        match s.pieces k l .load m a (some o.order) with
        | .error .hold => wait s
        | .error (.trap c v _) => next (lanes.foldl (fun s l => doomOp s k l id c v) s)
        | .ok (ps, s1) =>
          if lanes.any fun j => ownBefore t j (at_ j) ps then wait s1
          else
            let r :=
              match ro && t.kind != .lodestar, ps with
              | true, p :: _ => readRo s1 t p
              | _, _ => readPieces s1 t.agent ps
            match r with
            | .wait s2 => wait s2
            | .trap c v => next (lanes.foldl (fun s l => doomOp s k l id c v) s1)
            | .ok bs stale s2 =>
              let pa := (ps.head?.map fun p => p.xl.pa).getD 0
              let words := fun (s : State) (l : Nat) =>
                loadWords m a (match ps with
                  | [_, q] =>
                    overlay (s.team k) l (at_ l) none pa (bs.take 1) ++ overlay (s.team k) l (at_ l) none q.xl.pa (bs.drop 1)
                  | _ => overlay (s.team k) l (at_ l) none pa bs)
              let s3 := endLoads s2 k id lanes words stale (if mon then ps.head?.map fun p => p.xl else none)
              next (if (opOf (s3.thread k l) id).isSome then s3.push (.loadDataReturn k l id) else s3)
    | .got ws stale =>
      let s0 :=
        match resultIn s k l id o.dsts ws with
        | .ok _ => markStale s k l stale
        | .error _ => s
      match writeResult s0 k l id o.dsts ws with
      | some s1 => next s1
      | none => wait s
    | .pref m a =>
      match prefetch s k m a with
      | (some e, s1) => wait (s1.pushOnce e)
      | (none, s1) => next (releaseLog ((s1.serve t.agent (prefLine s k a)).modThread k l fun th => th.endOp id) k)
    | .lds m a =>
      let lanes := sameOp t id o.what
      if lanes.any fun j => !loadReady t j id then wait s
      else
        match s.scratchPlace k a (sizeBytes m.size) with
        | .error _ => wait s
        | .ok (c, off) =>
          let bs := s.scratchRead c off (sizeBytes m.size)
          let s1 := endLoads s k id lanes (fun s j => loadWords m a (overlay (s.team k) j (at_ j) (some c) off bs)) false none
          next (if (opOf (s1.thread k l) id).isSome then s1.push (.loadDataReturn k l id) else s1)
    | .atom op ty scope _ scratch a b c =>
      let xl := fun (x : Xlat) => ({ x with mode := atomMode x.mode x.pa } : Xlat)
      if earlierLoad (t.thread l) o.order || earlierStore t l o.order || earlierRange (t.thread l) o.order then wait s
      else
        match resultIn s k l id o.dsts [0, 0] with
        | .error .hold => wait s
        | .error (.trap c v keep) => next (doomOp (s.modThread k l fun th => keep.apply th) k l id c v)
        | .ok _ =>
          if marksAt scope && !o.sent then
            wait ((sendMarkers s t.die t.ctx id scope).modThread k l fun th =>
              { th with ops := th.ops.map fun x => if x.id = id then { x with sent := true } else x })
          else if marksAt scope && markersOut s id then wait s
          else if lanesBefore s k l id then wait s
          else if scratch then
            match s.scratchPlace k a (tyBytes ty) with
            | .error _ => wait s
            | .ok (cr, off) =>
              if s.scoreHolds cr off (tyBytes ty) none then wait s
              else
                let (old, s1) := s.rmwScratch cr off op ty b c
                finishAtom o old s1
          else
            match lostTrap (t.thread l) scope, s.piece k l (.atomic (wideScope scope) o.what.isBank) a (tyBytes ty) (some o.order) with
            | _, .error .hold => wait s
            | _, .error (.trap c v _) => next (doomOp s k l id c v)
            | some v, _ => next (doomOp (s.modThread k l fun th => Retain.popLost.apply th) k l id .fabricUnreachable v)
            | none, .ok (p, s1) =>
              let ln := lineOf p.xl.pa
              let reach := (s1.unreachable t.die p.xl.ty p.xl.pa).isNone
              if derivesFrom s1 none [ln] then wait s1
              else if p.xl.ty == .host && p.xl.mode == .coh && reach && s1.homeBlocked ln then wait s1
              else if s1.needWrite t.agent (xl p.xl).mode ln && reach then
                wait ((s1.missFill t.agent p.xl.mode ln a 0).ask t.agent ln true)
              else
                match s1.readAt (some t.agent) true (xl p.xl) a (tyBytes ty) with
                | .wait s2 => wait s2
                | .trap c v => next (doomOp s1 k l id c v)
                | .ok _ stale s2 =>
                  let s3 := markStale s2 k l stale
                  let (old, s4) := doAtom s3 k l op ty p.xl a b c
                  let s5 := if p.xl.master then noteViews s4 t.ctx (wholeBytes p.xl.pa [0]) else s4
                  finishAtom o old (noteTraffic s5 t.ctx p.xl.ty p.xl.pa)
    | _ => next s
where
  finishAtom (o : TOp) (old : DWord) (s : State) : Host.Outcome State Fault Refusal :=
    next ((writeResult s k l id o.dsts [old.lo, old.hi]).getD (s.modThread k l fun th => th.endOp id))

end Sys2Proof.Machine
end

