-- ==== Sys2Proof/Machine/Coherence.lean ====
section
/-! DEFINITION. The messages of token coherence (R123 to R131), flush markers (R161), and the steps of the
translation agents (R90, R96, R103). -/

namespace Sys2Proof.Machine

/-! ### Tokens -/

/-- The home ends update-only mode and gives up what a request needs (R131). -/
def openLine (s : State) (line : Nat) : State := s.endUmode line

/-- READ_MISS (R125): the home sends the data and one token, or forwards to the owner. -/
def execReadMiss (a : AgentId) (line : Nat) (s : State) : Host.Outcome State Fault Refusal :=
  if s.holdsLine a line then next s
  else
    let d := s.entry line
    if claimedByOther d a then next (s.push (.readMiss a line))
    else
      let s1 := ((openLine s line).homeFill .coh line none 0 false).awayFill a.die .coh line none 0
      let (n, own) := homeTokens s1 line
      if 0 < n then
        let (t, s2) := (s1.setEntry line (dirAdd (s1.entry line) (dirId line a))).homeGive line 1 (own && n == 1)
        next (sendTokens s2 a line t)
      else
        match s1.hold.find? fun h => h.line == line && h.owner with
        | some h =>
          if h.agent == a then next s1
          else
            next ((s1.setEntry line (dirAdd (s1.entry line) (dirId line a))).push (.forwardedRequest h.agent a line))
        | none => next (s1.push (.readMiss a line))

/-- FORWARDED_REQUEST (R125, R129): the owner sends the data and one token, unless another agent's persistent request is
active; a translation agent gives its last token up only when it has released the line (R101). -/
def execForwardedRequest (owner req : AgentId) (line : Nat) (s : State) : Host.Outcome State Fault Refusal :=
  match holdingOf s owner line with
  | none => next (s.pushOnce (.readMiss req line))
  | some h =>
    if !h.owner || claimedByOther (s.entry line) req then next (s.pushOnce (.readMiss req line))
    else if h.tokens ≤ 1 then
      if releaseBusy s line [h] then next (s.push (.forwardedRequest owner req line))
      else next (sendTokens (s.takeHoldings line [h]) req line { tokens := h.tokens, owner := true, dirty := h.dirty })
    else
      let h' := { h with tokens := h.tokens - 1 }
      let s1 := { dropHolding s owner line with hold := h' :: (dropHolding s owner line).hold }
      next (sendTokens s1 req line { tokens := 1, owner := false, dirty := false })

/-- Identifiers of the members of a group of the coarse vector (R127). -/
def groupMembers (g : Nat) : List Nat :=
  if g < 40 then [4 * g, 4 * g + 1, 4 * g + 2, 4 * g + 3]
  else if g < 44 then (List.range 4).map fun i => 160 + 4 * (g - 40) + i
  else if g < 48 then [176 + (g - 44)]
  else [181 + (g - 48)]

/-- Identifiers that a directory entry names: its pointers, or every member of every group whose bit is set (R127). -/
def namedIds (d : DirEntry) : List Nat :=
  if d.coarse then ((List.range 51).filter fun g => fld d.body g 1 == 1).flatMap groupMembers else dirPointers d

/-- WRITE_MISS (R125, R127): the home sends every token it holds, and invalidations to the agents its directory names. -/
def execWriteMiss (a : AgentId) (line : Nat) (s : State) : Host.Outcome State Fault Refusal :=
  let d := s.entry line
  if claimedByOther d a || d.collecting.any (· != a) then next (s.push (.writeMiss a line))
  else
    let s1 := (openLine s line).homeFill .coh line none 0 false
    let (n, own) := homeTokens s1 line
    let d1 := s1.entry line
    let s2 := s1.setEntry line { dirAdd d1 (dirId line a) with collecting := some a }
    let me := dirId line a
    let targets := (namedIds d1).filter fun id => id != me || 177 ≤ id
    let s3 := targets.foldl (fun s id => s.push (.invalidation { die := homeDie line, id := id } a line)) s2
    let (t, s4) := s3.homeGive line n own
    next (sendTokens s4 a line t)

/-- The agents for which an identifier of a die answers an invalidation: the translation agent answers for the instruction
caches of its die too, and a proxy for its whole die (R124, R127). -/
def answersFor (a b : AgentId) : Bool :=
  if 181 ≤ a.id && a.id < 184 then b.die == (a.die + (a.id - 180)) % 4
  else b.die == a.die && (b.id == a.id || (a.id == 177 && 512 ≤ b.id))

/-- All that some holdings hold, as one message. -/
def tokensOf (hs : List Holding) : TokenMsg :=
  hs.foldl (fun (t : TokenMsg) h => { tokens := t.tokens + h.tokens, owner := t.owner || h.owner, dirty := t.dirty || h.dirty })
    { tokens := 0, owner := false, dirty := false }

/-- INVALIDATION (R101, R125, R127, R129): the agent answers with every token it holds and drops its copy; a proxy answers
for its die; the tokens go to the agent whose persistent request is active, if there is one. -/
def execInvalidation (a req : AgentId) (line : Nat) (s : State) : Host.Outcome State Fault Refusal :=
  let mine := s.hold.filter fun h => h.line == line && h.agent != req && answersFor a h.agent
  if releaseBusy s line mine then next (s.push (.invalidation a req line))
  else
    let d := s.entry line
    let to_ := if claimedByOther d req then d.persistent.headD req else req
    next (sendTokens (s.takeHoldings line (mine.filter fun h => h.agent != to_)) to_ line
      (tokensOf (mine.filter fun h => h.agent != to_)))

/-- TOKEN_DATA_RESPONSE (R123, R128, R129, R132): tokens reach an agent, whose cache makes room for the line; while
another's persistent request is active they go on to it.  A message carries no more tokens than the line has outside its
agents. -/
def execTokenDataResponse (a : AgentId) (line : Nat) (t : TokenMsg) (s : State) : Host.Outcome State Fault Refusal :=
  let d := s.entry line
  let (n, own) := homeTokens s line
  let m : TokenMsg := { t with tokens := min t.tokens n, owner := t.owner && own }
  match claimedByOther d a, d.persistent with
  | true, p :: _ => next (sendTokens s p line m)
  | _, _ =>
    let s1 := if m.tokens = 0 then s else addTokens (s.roomFor a line) a line m (m.owner || d.collecting != some a)
    let d1 := s1.entry line
    let all := (holdingOf s1 a line).any fun h => h.tokens == Config.lineTokens
    let met := fun (q : Ask) => q.agent == a && (all || (!q.write && s1.holdsLine a line))
    next (s1.setEntry line { d1 with
      collecting := if all then none else d1.collecting
      asks := d1.asks.filter fun q => !met q })

/-- EVICTION_NOTICE (R101, R128): a cache gives its tokens back; the home keeps them or sends them on to the writer
that is collecting. A translation agent first releases the line. -/
def execEvictionNotice (a : AgentId) (line : Nat) (t : TokenMsg) (s : State) : Host.Outcome State Fault Refusal :=
  match holdingOf s a line with
  | none => next s
  | some h =>
    if t.tokens < h.tokens then next s
    else if releaseBusy s line [h] then next (s.push (.evictionNotice a line t))
    else next ((if a.id = 177 then s.releaseLine a.die line else s).giveBack h)

/-- The request of an agent for a line under way (R129). -/
def askOf (d : DirEntry) (a : AgentId) : Option Ask := d.asks.find? fun q => q.agent == a

/-- Failures of an agent's request for a line so far (R129). -/
def failsOf (d : DirEntry) (a : AgentId) : Nat := ((askOf d a).map (·.fails)).getD 0

/-- The requester has what it asked for: all tokens of the line, or one with its data (R129). -/
def Ask.met (s : State) (line : Nat) (q : Ask) : Bool :=
  if q.write then (holdingOf s q.agent line).any fun h => h.tokens == Config.lineTokens else s.holdsLine q.agent line

/-- REQUEST_FAILURE (R129): a request that is not met 2,048 cycles after its issue is issued again, or after the third failure
made persistent. -/
def execRequestFailure (a : AgentId) (line : Nat) (s : State) : Host.Outcome State Fault Refusal :=
  let d := s.entry line
  match askOf d a with
  | none => next s
  | some q =>
    let others := d.asks.filter fun q => q.agent != a
    let n := q.fails + 1
    let s1 := s.setEntry line { d with asks := { q with at_ := s.cycles.toNat, fails := n } :: others }
    if q.met s line then next (s.setEntry line { d with asks := others })
    else if s.cycles.toNat < q.at_ + 2048 then next (s.push (.requestFailure a line))
    else if 3 ≤ n then next (s1.pushOnce (.persistentRequest a line))
    else next ((s1.push (.requestFailure a line)).pushOnce (if q.write then .writeMiss a line else .readMiss a line))

/-- PERSISTENT_REQUEST (R129): an entry is installed, while the slice has one of its 8 free. -/
def execPersistentRequest (a : AgentId) (line : Nat) (s : State) : Host.Outcome State Fault Refusal :=
  let used := s.dir.foldl (fun n p => if homeSlice p.1 = homeSlice line then n + p.2.persistent.length else n) 0
  let d := s.entry line
  if d.persistent.contains a then next s
  else if 8 ≤ used then next (s.push (.persistentRequest a line))
  else
    let s1 := s.setEntry line { d with persistent := d.persistent ++ [a] }
    next (if d.active then s1 else s1.pushOnce (.persistentActivation line))

/-- PERSISTENT_ACTIVATION (R129): every agent sends its tokens of the line to the requester. -/
def execPersistentActivation (line : Nat) (s : State) : Host.Outcome State Fault Refusal :=
  let d := s.entry line
  match d.persistent with
  | [] => next s
  | p :: _ =>
    let others := s.hold.filter fun h => h.line == line && h.agent != p
    if d.active then next s
    else if releaseBusy s line others then next (s.push (.persistentActivation line))
    else
      let s1 := (openLine s line).setEntry line
        { (openLine s line).entry line with active := true, served := false, collecting := some p }
      let (n, own) := homeTokens s1 line
      let (t, s1) := s1.homeGive line n own
      let s2 := sendTokens s1 p line t
      let s3 := others.foldl (fun s h =>
        sendTokens (s.takeHoldings line [h]) p line { tokens := h.tokens, owner := h.owner, dirty := h.dirty }) s2
      next (s3.pushOnce (.persistentDeactivation line))

/-- Some access of an agent's core is under way. -/
def agentBusy (s : State) (a : AgentId) : Bool :=
  s.teams.any fun kt => kt.2.agent == a && (!kt.2.storeq.isEmpty || !kt.2.pending.isEmpty ||
    (kt.2.threads.any fun th => !th.ops.isEmpty) || (kt.2.engq.any fun q => !q.ops.isEmpty) ||
    (kt.2.acc.map fun a => !a.streams.isEmpty).getD false)

/-- PERSISTENT_DEACTIVATION (R129): once the requester has made its access, or makes none any more, the request ends and
the next one waiting becomes active. -/
def execPersistentDeactivation (line : Nat) (s : State) : Host.Outcome State Fault Refusal :=
  let d := s.entry line
  if !d.active then next s
  else if !d.served && d.persistent.any fun p => d.persistent.head? == some p && agentBusy s p then
    next (s.push (.persistentDeactivation line))
  else
    let s1 := s.setEntry line { d with
      persistent := d.persistent.tail, active := false, served := false, collecting := none
      asks := d.asks.filter fun q => d.persistent.head? != some q.agent }
    next (if d.persistent.tail.isEmpty then s1 else s1.pushOnce (.persistentActivation line))

/-! ### Update-only mode (R130, R131) -/

/-- UPDATE_ONLY_GRANT (R130): the home collects the line's tokens, sets UMODE and grants a U copy. -/
def execUpdateOnlyGrant (a : AgentId) (line : Nat) (op : AtomOp) (ty : Ty) (s : State) :
    Host.Outcome State Fault Refusal :=
  let d := s.entry line
  let holders := s.hold.filter fun h => h.line == line
  if !s.mayGrant line op ty then next s
  else if releaseBusy s line holders then next (s.push (.updateOnlyGrant a line op ty))
  else
    let s1 := if d.umode == some (op, ty) then s else openLine s line
    let s1 := (s1.takeHoldings line holders).homeFill .coh line none 0 false
    let s2 := if holders.any fun h => h.dirty then s1.homeDirty line else s1
    let d1 := s2.entry line
    let d2 := if d1.umode == some (op, ty) then d1 else { d1 with umode := some (op, ty), coarse := false, body := 0 }
    let s3 := s2.setEntry line (dirAdd d2 (dirId line a))
    if (s3.uCopyFor a line op ty).isSome then next s3
    else
      let s4 := s3.roomFor a line
      next { s4 with ucopies := s4.ucopies ++ [{ agent := a, line := line, op := op, ty := ty, vals := [] }] }

/-- UPDATE_ONLY_END (R131). -/
def execUpdateOnlyEnd (line : Nat) (s : State) : Host.Outcome State Fault Refusal :=
  let s1 := s.endUmode line
  next (s1.setEntry line { s1.entry line with umode := none })

/-! ### Markers and translation agents -/

/-- The first marker on a path, removed. -/
def dropMarker (src dst path : Nat) : List (Nat × Nat × Nat × Nat) → List (Nat × Nat × Nat × Nat)
  | [] => []
  | m :: r => if m.1 = src && m.2.1 = dst && m.2.2.1 = path then r else m :: dropMarker src dst path r

/-- A view update on its way to another device (R173). -/
def isViewClear : Ev → Bool
  | .remoteViewBlockClear _ _ _ => true
  | _ => false

/-- FLUSH_MARKER (R161, R162): the oldest marker on a path arrives, behind the view updates sent before it. -/
def execFlushMarker (src dst path : Nat) (s : State) : Host.Outcome State Fault Refusal :=
  if 4 ≤ dst && s.flight.any isViewClear then next (s.push (.flushMarker src dst path))
  else
  next { s with markers := dropMarker src dst path s.markers }

/-- PAGE_TABLE_WALK (R90, R99): a walker fills the last-level TLB and the walk cache of its die. -/
def execPageTableWalk (die ctx : Nat) (va : DWord) (s : State) : Host.Outcome State Fault Refusal :=
  match s.xlate die [.last] true (s.ctx ctx).xrec true .range va with
  | .ok (_, s') => next s'
  | .error none => next (s.push (.pageTableWalk die ctx va))
  | .error (some _) => next s

/-- HOST_SNOOP (R103): the answer comes once every access translated through the line has performed; the
translations and the device's copy of the line are dropped. -/
def execHostSnoop (line : Nat) (s : State) : Host.Outcome State Fault Refusal :=
  if derivesFrom s none [line] then next (s.push (.hostSnoop line))
  else
    let s1 := (s.endUmode line).dropTranslations line
    next { s1 with hold := s1.hold.filter fun h => h.line != line, l2 := s1.l2.filter fun x => x.line != line }

/-- ASID_FLUSH_COMPLETE (R94, R96): the entries of a RETIRING ASID are gone, it is ACTIVE with generation 0, and the records
of its contexts are read again. -/
def execAsidFlushComplete (asid : Nat) (s : State) : Host.Outcome State Fault Refusal :=
  match aget s.asids asid with
  | none => next s
  | some a =>
    if !a.retiring then next s
    else
      next (reread { s with tlb := s.tlb.filter fun e => e.asid != asid, asids := aset s.asids asid { gen := 0, retiring := false } } asid)

end Sys2Proof.Machine
end

