-- ==== Sys2Proof/Machine/Fetch.lean ====
section
/-! DEFINITION. Fetching a clause and its checks (R25 to R33), resume points inside a clause (R60), and the
checks on an instruction's opcode and place (checks 1 to 4 of R58, R67, R74, R245). -/

namespace Sys2Proof.Machine

/-- Home class of an opcode (R27); `none` where a clause of any class accepts it. -/
def homeClass (opc : Nat) : Option Nat :=
  if opc ≤ 0x33 then some 0
  else if opc ≤ 0x3D then none
  else if opc ≤ 0x4F then some 1
  else if opc ≤ 0x63 then some 2
  else if opc ≤ 0x6F then some 3
  else if opc ≤ 0x7E then some 4
  else none

/-- Run-ending instructions (R31). -/
def runEnding (opc sub : Nat) : Bool :=
  if 0x64 ≤ opc && opc ≤ 0x6C then true
  else
    match opc with
    | 0x4B => sub == 0
    | 0x51 => sub == 1
    | 0x53 => sub == 3
    | 0x5D => sub == 0
    | 0x70 => sub == 1 || sub == 2
    | 0x71 => sub == 0
    | 0x72 => decide (sub < 7)
    | 0x74 => sub == 0
    | 0x75 => sub == 0 || sub == 1
    | 0x79 => sub == 0
    | 0x7C => sub == 1 || sub == 2
    | 0x7D => sub == 5 || sub == 7
    | _ => false

/-- An instruction of a clause: its word offset from the header and its words. -/
structure Placed where
  off : Nat
  w0 : Word
  w1 : Word
  deriving DecidableEq, Repr

/-- The `n` instructions in the words after a header (R25, R27). -/
def placeAll : Nat → Nat → List Word → List Placed
  | 0, _, _ => []
  | n + 1, off, ws =>
    match ws with
    | [] => []
    | w0 :: r =>
      let len := instrWords w0.toNat
      { off := off, w0 := w0, w1 := getAt 0 r 0 } :: placeAll n (off + len) (ws.drop len)

def Placed.opc (p : Placed) : Nat := fld p.w0.toNat 25 7

/-- The instruction is run-ending (R31). -/
def Placed.ending (p : Placed) : Bool := runEnding p.opc (fld p.w1.toNat 0 4)

/-- Checks 1 to 3 of R33 on a header. -/
def headerCheck (h : Word) : Option (Cause × DWord) :=
  if hdrCount h = 0 then some (.illegalClause, 1)
  else if 5 ≤ hdrClass h then some (.illegalClause, 2)
  else if fld h.toNat 15 1 = 1 || fld h.toNat 0 15 / 2 ^ hdrCount h != 0 then some (.reservedField, h.zext)
  else none

/-- Checks 4 to 6 of R33 on the instructions of a clause. -/
def clauseCheck (h : Word) (ps : List Placed) : Option (Cause × DWord) :=
  let last := ps.getLast?
  if ps.any fun p => (homeClass p.opc).any (· != hdrClass h) then some (.illegalClause, 4)
  else if ps.dropLast.any Placed.ending then some (.illegalClause, 5)
  else if (last.any Placed.ending) && !hdrRunEnd h then some (.illegalClause, 6)
  else none

/-- The agent that keeps a team's code: the instruction cache of its core, or a Lodestar core's one cache (R132). -/
def Team.codeAgent (t : Team) : AgentId := if t.kind == .lodestar then t.agent else icacheOf t.die t.core

/-- A fetch reaches its line (R121, R131, R132): update-only mode ends, a tokened line gives the code cache a token where one
is to be had, and any other comes from its home slice. -/
def State.fetchReach (s : State) (t : Team) (xl : Xlat) (va : DWord) : State :=
  let ln := lineOf xl.pa
  let s1 := s.endUmode ln
  if !xl.mode.tokened then s1.homeFill xl.mode ln (some va) 0 false
  else if s1.holdsLine t.codeAgent ln then s1
  else ((s1.missFill t.codeAgent xl.mode ln va 0).takeToken t.codeAgent ln).getD s1

/-- Translates a code address (R106). Where the walker has still to obtain a token of a line of the walk nothing is cached, and
`State.codeWalks` holds the fetch (R100, R123). -/
def State.fetchXlate (s : State) (t : Team) (va : DWord) : Except Cause (Xlat × State) :=
  match s.xlateTeam t .fetch va, s.teamXrec t with
  | .ok r, _ => .ok r
  | .error (some c), _ => .error c
  | .error none, none => .error .asidRetired
  | .error none, some x =>
    match walkChecks s t.die x (t.kind == .supervisor) .fetch va with
    | .ok xl => .ok (xl, s)
    | .error e => .error e.1

/-- Fetches one code word (R87, R106, R119). -/
def fetchWord (s : State) (t : Team) (va : DWord) : Except (Cause × DWord) (Word × State) :=
  match s.fetchXlate t va with
  | .error c => .error (c, va)
  | .ok (xl, s1) =>
    match s1.unreachable t.die xl.ty xl.pa with
    | some d => .error (.fabricUnreachable, unreachableTval xl.ty d va)
    | none =>
      let s2 := s1.fetchReach t xl va
      match s2.memError xl.pa 4 with
      | some c => .error (c, va)
      | none => .ok (BitVec.ofNat 32 (s2.mem.nat xl.pa 4), s2)

/-- Fetches the words of `n` instructions that follow a header; `off` counts words from the header. A failing
fetch reports where it failed. -/
def fetchBody (t : Team) (hdr : DWord) : Nat → Nat → State → Except (Cause × DWord × Nat) (List Word × State)
  | 0, _, s => .ok ([], s)
  | n + 1, off, s =>
    match fetchWord s t (hdr + BitVec.ofNat 64 (4 * off)) with
    | .error (c, v) => .error (c, v, off)
    | .ok (w0, s1) =>
      if instrWords w0.toNat = 1 then
        match fetchBody t hdr n (off + 1) s1 with
        | .error e => .error e
        | .ok (ws, s2) => .ok (w0 :: ws, s2)
      else
        match fetchWord s1 t (hdr + BitVec.ofNat 64 (4 * (off + 1))) with
        | .error (c, v) => .error (c, v, off + 1)
        | .ok (w1, s2) =>
          match fetchBody t hdr n (off + 2) s2 with
          | .error e => .error e
          | .ok (ws, s3) => .ok (w0 :: w1 :: ws, s3)

/-- A clause as fetched: its header and the words after it. -/
structure Clause where
  hdr : Word
  words : List Word
  deriving DecidableEq, Repr

def Clause.placed (c : Clause) : List Placed := placeAll (hdrCount c.hdr) 1 c.words

/-- Fetches the clause at an address and makes checks 1 to 6 of R33 (R106 for the fetch itself). -/
def fetchClause (s : State) (t : Team) (addr : DWord) : Except TrapRec (Clause × State) :=
  match fetchWord s t addr with
  | .error (c, v) => .error { cause := c, tval := v, tpc := mkResume addr 0 }
  | .ok (h, s1) =>
    match headerCheck h with
    | some (c, v) => .error { cause := c, tval := v, tpc := mkResume addr 0 }
    | none =>
      match fetchBody t addr (hdrCount h) 1 s1 with
      | .error (c, v, off) => .error { cause := c, tval := v, tpc := mkResume addr off }
      | .ok (ws, s2) =>
        match clauseCheck h (placeAll (hdrCount h) 1 ws) with
        | some (c, v) => .error { cause := c, tval := v, tpc := mkResume addr 0 }
        | none => .ok ({ hdr := h, words := ws }, s2)

/-- Index in its clause of the instruction at a word offset. -/
def indexAt (ps : List Placed) (off : Nat) : Option Nat := ps.findIdx? fun p => p.off == off

/-- The clause header that governs a resume address (R60). -/
def governing (r : DWord) : DWord := resumeAddr r - BitVec.ofNat 64 (4 * resumeHoff r)

/-- The word offset at which a thread continues: the first instruction for HOFF 0 (R60). -/
def startOff (r : DWord) : Nat := if resumeHoff r = 0 then 1 else resumeHoff r

/-- Checks a resume address as TRET and FLARE.RET do (R60): HOFF and the alignment of ADDR, then the governing header's
clause, then that ADDR is a first word of it. DESIGN CHOICE (log 96): where the clause fails R33 and ADDR is no first word
either, R33's cause is reported; R60 does not order them. -/
def resumeCheck (s : State) (t : Team) (r : DWord) : Option (Cause × DWord) :=
  if 30 < resumeHoff r || (resumeAddr r).toNat % 4 != 0 then some (.misalignedPc, r)
  else if resumeHoff r = 0 then none
  else
    match fetchClause s t (governing r) with
    | .error tr => some (tr.cause, tr.tval)
    | .ok (c, _) => if (indexAt c.placed (resumeHoff r)).isNone then some (.misalignedPc, r) else none

/-! ### The instruction's opcode and place -/

/-- Opcodes a Lodestar core does not support (R67, R76, R83, R85). -/
def notOnLodestar (opc : Nat) : Bool :=
  [0x3D, 0x41, 0x42, 0x45, 0x50, 0x51, 0x52, 0x53, 0x5C, 0x5D, 0x5E, 0x6B, 0x74, 0x75].contains opc

/-- Opcodes of an access slice (R245). -/
def inAccessSlice (opc : Nat) : Bool :=
  [0x11, 0x13, 0x15, 0x16, 0x35, 0x37, 0x39, 0x3D, 0x64, 0x6A].contains opc

/-- SUB values that the slice does not list (R74, R245). -/
def subInSlice (acc : Bool) (opc sub : Nat) : Bool :=
  match opc with
  | 0x3D => if acc then decide (sub < 3) else sub == 3
  | 0x6A => !acc || decide (sub < 3)
  | _ => true

/-- Checks 1 to 4 of R58 on the words at the next instruction: the instruction, or the trap. -/
def wordChecks (t : Team) (acc : Bool) (w0 w1 : Word) : Except (Cause × DWord) Instr :=
  let opc := fld w0.toNat 25 7
  if fmtOf opc == .none || (acc && !inAccessSlice opc) then .error (.illegalOpcode, w0.zext)
  else if opc == 0x7D && t.kind != .supervisor then .error (.privileged, w0.zext)
  else if t.kind == .lodestar && notOnLodestar opc then .error (.notOnLatencyCore, w0.zext)
  else
    match decodeWords w0.toNat w1.toNat with
    | .ok i =>
      if subInSlice acc opc (fld w1.toNat 0 4) || instrWords w0.toNat = 1 then .ok i
      else .error (.reservedField, reservedTval true)
    | .error (.reserved inW1) => .error (.reservedField, reservedTval inW1)
    | .error _ => .error (.illegalOpcode, w0.zext)
where
  /-- TVAL of RESERVED_FIELD (R58): the word, and bit 32 for word 1. -/
  reservedTval (inW1 : Bool) : DWord := if inW1 then w1.zext + 0x100000000 else w0.zext

/-- A run whose clause has just been fetched: the instruction it continues at, or the trap (R30, R33, R60). -/
def enterClause (r : Run) (c : Clause) : Except TrapRec Run :=
  match indexAt c.placed r.off with
  | none =>
    .error { cause := .misalignedPc, tval := mkResume r.hdrAddr r.off, tpc := mkResume r.hdrAddr r.off }
  | some i =>
    if Config.runLimit < r.count + (hdrCount c.hdr - i) then
      .error { cause := .illegalClause, tval := 3, tpc := mkResume r.hdrAddr 0 }
    else .ok { r with hdr := c.hdr, words := c.words, idx := i, needHdr := false }

/-- The walker has still to obtain a token of a page-table line for a fetch of so many words after a header (R100, R123). -/
def State.codeWalks (s : State) (t : Team) (hdr : DWord) (words : Nat) : Bool :=
  (List.range (words + 1)).any fun i =>
    match s.xlateTeam t .fetch (hdr + BitVec.ofNat 64 (4 * i)) with
    | .error none => true
    | _ => false

/-- Lines of fetched code whose token the team's code cache still has to obtain (R123, R132). -/
def State.codeMisses (s : State) (t : Team) (hdr : DWord) (words : Nat) : List Nat :=
  ((List.range (words + 1)).filterMap fun i =>
    match s.xlateTeam t .fetch (hdr + BitVec.ofNat 64 (4 * i)) with
    | .ok (xl, _) => if xl.mode.tokened && !s.holdsLine t.codeAgent (lineOf xl.pa) then some (lineOf xl.pa) else none
    | .error _ => none).eraseDups

/-- A fetch asks the homes of the lines it lacks (R125). -/
def State.askCode (s : State) (t : Team) (lines : List Nat) : State :=
  lines.foldl (fun s ln => s.ask t.codeAgent ln false) s

/-- The clause of a run is at hand: it is fetched if the run has just reached it. -/
def State.openClause (s : State) (idx : Nat) (r : Run) : Except TrapRec (Run × State) :=
  if !r.needHdr then .ok (r, s)
  else
    match fetchClause s (s.team r.team) r.hdrAddr with
    | .error tr => .error tr
    | .ok (c, s1) =>
      match enterClause r c with
      | .error tr => .error tr
      | .ok r' => .ok (r', { s1 with runs := setAt s1.runs idx r' })

/-- Traps every lane of a run (R33, R58). -/
def State.trapRun (s : State) (idx : Nat) (r : Run) (tr : TrapRec) : State :=
  trapLanes s r.team idx r.acc (r.lanes.map fun l => (l, tr, .nothing))

/-- The lanes of the current run trap at checks 1 to 4 of R58; what an instruction waits for comes first. -/
def trapWord (s : State) (cv : Cause × DWord) : Host.Outcome State Fault Refusal :=
  match prologue s {} (fun _ => some cv) false [] false with
  | .error o => o
  | .ok _ => next s

end Sys2Proof.Machine
end

