-- ==== Sys2Proof/Machine/MemOps.lean ====
section
/-! DEFINITION. The memory instructions of 0x3E to 0x4D and their completions (R185 to R207). -/

namespace Sys2Proof.Machine

/-- A lane of ATOM, ATOMS or BANKOP at issue (R193, R195). DESIGN CHOICE (log 99): as at a store, the report of a lost store
comes after the access checks; R186 does not order them. -/
def atomLane (i : Instr) (op : AtomOp) (x : XOps) (bank scratch : Bool) (k : Nat) (here : DWord) (s : State) (L : LCtx)
    (th : Thread) : Except AccStop (Started × Thread × State) :=
  match logOperands i (ofX x) i.shape here L th with
  | .error e => .error e
  | .ok (lr, th) =>
    let a := if scratch then (DWord.lo lr.a).zext else lr.a
    let what : OpKind := .atom op x.ty x.scope bank scratch a lr.b (DWord.ofPair (getAt 0 lr.c 1) (getAt 0 lr.c 0))
    let place : Except AccStop State :=
      if scratch then (s.scratchPlace k a (tyBytes x.ty)).map fun _ => s
      else if a.toNat % tyBytes x.ty != 0 then .error (.trap .misalignedAccess a .nothing)
      else if rangeBusy th a 8 then .error .hold
      else
        match s.piece k L.lane (.atomic (wideScope x.scope) bank) a (tyBytes x.ty) with
        | .error e => .error e
        | .ok (p, s') =>
          if s.portIn p.xl.pa p.n then .error (.trap .atomicUnsupported a .nothing) else .ok (s'.sideEffect k)
    match place, lostTrap th x.scope with
    | .error e, _ => .error e
    | .ok _, some v => .error (.trap .fabricUnreachable v .popLost)
    | .ok s', none => .ok ({ what := what, lr := lr }, th, s')

/-- ATOM, ATOMS and BANKOP at issue (R193, R195). -/
def atomOp (i : Instr) (op : AtomOp) (x : XOps) (bank scratch : Bool) (s : State) : Host.Outcome State Fault Refusal :=
  let f := ofX x
  let sh := i.shape
  let regs := srcRegs sh.a f.a ++ srcRegs sh.b f.b ++ srcRegs sh.c f.c ++ dstRegs false sh.d f.dst
  match prologue s f (fun st => opChecks st sh f) false regs true with
  | .error o => o
  | .ok g =>
    startOps s g (dstRegs false sh.d f.dst) scratch (atomLane i op x bank scratch g.k g.here) (logOperands i f sh g.here)

/-- ATOM (R195). -/
def execAtom (op : AtomOp) (x : XOps) (s : State) : Host.Outcome State Fault Refusal :=
  atomOp (.atom op x) op x false false s

/-- ATOMS (R195). -/
def execAtoms (op : AtomOp) (x : XOps) (s : State) : Host.Outcome State Fault Refusal :=
  atomOp (.atoms op x) op x false true s

/-- BANKOP (R195, R138). -/
def execBankop (op : AtomOp) (x : XOps) (s : State) : Host.Outcome State Fault Refusal :=
  atomOp (.bankop op x) op x true false s

/-- The line of a RED comes where it is checked: to its home slice, or to the bank (R119, R121, R139); one that the core holds,
or that is in update-only mode, stays as it is. -/
def State.redReach (s : State) (ag : AgentId) (xl : Xlat) (va : DWord) (n : Nat) : State :=
  let ln := lineOf xl.pa
  if xl.ty == .bank then s.readBank xl.pa n
  else if s.ucopies.any (fun u => u.line == ln) || (s.swmCopy ag ln).isSome || s.holdsLine ag ln then s
  else s.missFill ag xl.mode ln va 0

/-- A lane of RED at issue (R193, R195): the entry it puts into the store queue. -/
def redLane (i : Instr) (op : AtomOp) (x : XOps) (k : Nat) (here : DWord) (s : State) (L : LCtx) (th : Thread) (id : Nat) :
    Except AccStop ((StoreEntry × LogRec) × Thread × State) :=
  match logOperands i (ofX x) i.shape here L th with
  | .error e => .error e
  | .ok (lr, th) =>
    let n := tyBytes x.ty
    if lr.a.toNat % n != 0 then .error (.trap .misalignedAccess lr.a .nothing)
    else if rangeBusy th lr.a 8 then .error .hold
    else
      match s.piece k L.lane (.atomic (wideScope x.scope) false) lr.a n with
      | .error e => .error e
      | .ok (p, s') =>
        if s.portIn p.xl.pa n then .error (.trap .atomicUnsupported lr.a .nothing)
        else
        match s.unreachable (s.team k).die p.xl.ty p.xl.pa with
        | some d => .error (.trap .fabricUnreachable (unreachableTval p.xl.ty d lr.a) .nothing)
        | none =>
          let s' := s'.redReach (s.team k).agent p.xl lr.a n
          match s'.memErrorFor (some (s.team k).agent) p.xl.mode p.xl.pa n with
          | some c => .error (.trap c lr.a .nothing)
          | none =>
            .ok (({ lane := L.lane, op := id, dc := some x.dc.toNat,
                    writes := wholeBytes p.xl.pa (leBytes n (lr.b.toNat % 2 ^ (8 * n))), va := lr.a, mode := p.xl.mode,
                    ty := p.xl.ty, master := p.xl.master, scratch := none, scope := x.scope, placeholder := false,
                    red := some (op, x.ty, lr.b), lines := p.xl.lines }, lr), th, s')

/-- RED (R195): a store that combines. -/
def execRed (op : AtomOp) (x : XOps) (s : State) : Host.Outcome State Fault Refusal :=
  let i : Instr := .red op x
  let f := ofX x
  let sh := i.shape
  let regs := srcRegs sh.a f.a ++ srcRegs sh.b f.b ++ srcRegs sh.c f.c
  match prologue s f (fun st => opChecks st sh f) false regs true with
  | .error o => o
  | .ok g => startStores s g (redLane i op x g.k g.here) (logOperands i f sh g.here)

/-- LD (R189, R192). -/
def execLd (m : MOps) (s : State) : Host.Outcome State Fault Refusal := loadOp (.ld m) m false false s

/-- LDRO (R190). -/
def execLdro (m : MOps) (s : State) : Host.Outcome State Fault Refusal := loadOp (.ldro m) m true false s

/-- LDMON (R203). -/
def execLdmon (m : MOps) (s : State) : Host.Outcome State Fault Refusal := loadOp (.ldmon m) m false true s

/-- LDS (R191). -/
def execLds (m : MOps) (s : State) : Host.Outcome State Fault Refusal := ldsOp (.lds m) m s

/-- ST (R189, R192). -/
def execSt (m : MOps) (s : State) : Host.Outcome State Fault Refusal := storeOp (.st m) m s

/-- STS (R191). -/
def execSts (m : MOps) (s : State) : Host.Outcome State Fault Refusal := stsOp (.sts m) m s

/-! ### PREF (R202) -/

/-- A lane of PREF at issue, its decision point (R186, R202). -/
def prefLane (i : Instr) (m : MOps) (here : DWord) (s : State) (L : LCtx) (th : Thread) :
    Except AccStop (Started × Thread × State) :=
  match memLog i m here false L th with
  | .error e => .error e
  | .ok (lr, th) => .ok ({ what := .pref m (addrOf lr.base m), lr := lr }, th, s)

/-- PREF (R202): it never traps for its address; LOAD_DATA_RETURN ends it when the line is filled or the prefetch dropped
(R186). -/
def execPref (m : MOps) (s : State) : Host.Outcome State Fault Refusal :=
  let i : Instr := .pref m
  match prologue s (ofM m) (fun st => memChecks st m false false) false (memRegs m false false) true with
  | .error o => o
  | .ok g => startOps s g [] true (prefLane i m g.here) (memLog i m g.here false)

/-! ### Fences (R196) -/

/-- A fence of a thread waits: an earlier store, load or range instruction is not complete, or data of it wait for their
address or are still to be pushed (R196, R253). -/
def fenceBusy (t : Team) (l : Nat) : Bool :=
  (t.storeq.any fun e => e.lane == l) || !(pairable t l).isEmpty || (t.thread l).ops.any fun o =>
    o.pushes t || (o.doomed.isNone &&
      match o.what with
      | .range _ _ _ _ => true
      | _ => fixesValue o)

/-- The flush markers of a release by lanes of a team: sent once, then waited for (R161, R196); an error is the state in
which the lanes wait. -/
def markersOf (s : State) (k : Nat) (ls : List Nat) (sc : Scope) : Except State State :=
  let t := s.team k
  if !marksAt sc then .ok s
  else
    match (t.thread (getAt 0 ls 0)).marker with
    | none =>
      let tk := s.serial
      let s1 := sendMarkers ({ s with serial := s.serial + 1 } : State) t.die t.ctx tk sc
      .error (ls.foldl (fun s l => s.modThread k l fun th => { th with marker := some tk }) s1)
    | some tk =>
      if markersOut s tk then .error s
      else .ok (clearTraffic (ls.foldl (fun s l => s.modThread k l fun th => { th with marker := none }) s) t.ctx sc)

/-- A release of the group at a scope (R146, R161): it performs after the lanes' earlier accesses, with its flush
markers gathered. A lane with a load that has trapped parks before it: that load's value, which the release follows, is fixed
at its replay (R112, R196; log 29). -/
def Grp.release (g : Grp) (s : State) (sc : Scope) : Except (Host.Outcome State Fault Refusal) State :=
  match g.e, sc with
  | [], _ | _, .thread => .ok s
  | _, _ =>
    match g.e.filter fun l => loadToReplay (g.thread s l) s.serial, g.e.filter fun l => fenceBusy (s.team g.k) l with
    | d :: ds, _ => .error (next (parkDoomed s g.k g.idx (d :: ds)))
    | [], b :: bs => .error (waitLanes s g (b :: bs))
    | [], [] =>
      match markersOf s g.k g.e sc with
      | .error s1 => .error (next s1)
      | .ok s1 => .ok s1

/-- The lanes of a group that trap at a release for a lost store (R186). -/
def Grp.lostOf (g : Grp) (s : State) (sc : Scope) : List (Nat × TrapRec × Retain) :=
  g.e.filterMap fun l => (lostTrap (g.thread s l) sc).map fun v =>
    (l, { cause := .fabricUnreachable, tval := v, tpc := g.here }, .popLost)

/-- FENCE and FENCE.ro (R196): a lane with a lost store traps at one of .device or wider, and the others go on to it (R186). -/
def fenceOp (x : XOps) (ro : Bool) (s : State) : Host.Outcome State Fault Refusal :=
  match prologue s (ofX x) (fun _ => none) false [] false with
  | .error o => o
  | .ok g =>
    match g.lostOf s x.scope with
    | tr :: trs => next (trapLanes s g.k g.idx g.run.acc (tr :: trs))
    | [] =>
      let t := s.team g.k
      match g.release s x.scope with
      | .error o => o
      | .ok s1 =>
        let s2 := if ro && t.kind != .lodestar && !g.e.isEmpty then s1.modCore t.core fun c => { c with ro := [] } else s1
        next (finishNext s2 g)

/-- FENCE (R196). -/
def execFence (x : XOps) (s : State) : Host.Outcome State Fault Refusal := fenceOp x false s

/-- FENCE.ro (R196, R166). -/
def execFenceRo (x : XOps) (s : State) : Host.Outcome State Fault Refusal := fenceOp x true s

/-! ### Range instructions (R197 to R201) -/

/-- ADDRESS_RANGE of a range instruction (R201). -/
def rangeBad (start len : DWord) : Bool :=
  let n := start.toNat + len.toNat
  !isCanon start || decide (2 ^ 48 < len.toNat) ||
    (if start.toNat < 2 ^ 56 then decide (2 ^ 56 < n) else decide (2 ^ 64 < n))

/-- The team's translation record is bound, and its ASID current (R94). -/
def teamBound (s : State) (k : Nat) : Bool :=
  match s.teamXrec (s.team k) with
  | some xr => s.bindingOk xr
  | none => false

/-- A lane of a range instruction at issue (R201): an empty range is complete with status 0 at once. -/
def rangeLane (i : Instr) (x : XOps) (k : Nat) (here : DWord) (s : State) (L : LCtx) (th : Thread) :
    Except AccStop (Option LogRec × Thread × State) :=
  match logOperands i (ofX x) i.shape here L th with
  | .error e => .error e
  | .ok (lr, th) =>
    if rangeBad lr.a lr.b then .error (.trap .addressRange lr.a .nothing)
    else if !teamBound s k then .error (.trap .asidRetired lr.a .nothing)
    else if lr.b = 0 then
      match writeDst L i.shape.d x.dst [0] th with
      | .error e => .error e
      | .ok (_, th') => .ok (none, th', s)
    else .ok (some lr, th, s)

/-- The state after range instructions of lanes have issued: each walk waits for its RANGE_WALK_COMPLETE. -/
def startedRanges (s : State) (g : Grp) (x : XOps) (sub id : Nat) (dsts : List Nat)
    (oks : List (Nat × Option LogRec × Thread)) : State :=
  let s2 := setThreads s g.k g.run.acc (oks.map fun p =>
    match p.2.1 with
    | none => (p.1, p.2.2)
    | some lr =>
      (p.1, { p.2.2.incDc x.dc.toNat with
        ops := p.2.2.ops ++ [({ id := id, dsts := dsts, dc := x.dc.toNat, win := 0, decided := true, doomed := none,
                                 what := .range sub lr.a.toNat lr.b.toNat x.scope, log := some { lr with id := id } } : TOp)] }))
  oks.foldl (fun s p => if p.2.1.isSome then s.push (.rangeWalkComplete g.k p.1 id) else s) s2

/-- FLUSH.RANGE, INV.RANGE and CLEAN.RANGE at issue (`sub` 0, 1, 2). -/
def rangeOp (i : Instr) (x : XOps) (sub : Nat) (s : State) : Host.Outcome State Fault Refusal :=
  let f := ofX x
  let sh := i.shape
  let regs := srcRegs sh.a f.a ++ srcRegs sh.b f.b ++ dstRegs false sh.d f.dst
  match prologue s f (fun st => opChecks st sh f) false regs true with
  | .error o => o
  | .ok g =>
    let id := s.serial
    let (rs, s1) := g.lanesS ({ s with serial := s.serial + 1 } : State) (rangeLane i x g.k g.here)
    match holdsOf rs with
    | _ :: _ => waitLanes s g (holdsOf rs)
    | [] =>
      let oks := oksOf rs
      let dsts := dstRegs false sh.d f.dst
      let s3 := startedRanges s1 g x sub id dsts (oks.map fun p => (p.1, p.2.1, p.2.2))
      next (finishNext (trapTracked s3 g id (g.la s) dsts (logOperands i f sh g.here) (trapsOf g.here rs)) g)

/-- FLUSH.RANGE (R199). -/
def execFlushRange (x : XOps) (s : State) : Host.Outcome State Fault Refusal := rangeOp (.flushRange x) x 0 s

/-- INV.RANGE (R199). -/
def execInvRange (x : XOps) (s : State) : Host.Outcome State Fault Refusal := rangeOp (.invRange x) x 1 s

/-- CLEAN.RANGE (R199). -/
def execCleanRange (x : XOps) (s : State) : Host.Outcome State Fault Refusal := rangeOp (.cleanRange x) x 2 s

/-- The agents whose copies a range instruction of a team acts on: private caches, from .die on the L2 slices with lines of
other dies, and never a read-only or an instruction cache nor an engine group (R198). -/
def inReach (me a : AgentId) (sc : Scope) : Bool :=
  (decide (a.id < 176) || (decide (256 ≤ a.id) && decide (a.id < 320))) &&
    match sc with
    | .thread | .team | .core => a == me
    | .cluster => a.die == me.die && (if me.id < 160 then a.id / 4 == me.id / 4 && a.id < 160 else a == me)
    | .die => a.die == me.die
    | _ => true

/-- A software-managed copy holds stored bits that its home does not. -/
def SwmCopy.stored (c : SwmCopy) : Bool := c.mask.any fun k => k != 0

/-- The home copy of a software-managed copy cannot be reached from its die (R201). -/
def State.stranded (s : State) (ty : MemTy) (c : SwmCopy) : Bool :=
  c.stored && (s.unreachable c.agent.die ty (c.line * 128)).isSome

/-- The dirty data of some holdings of a line is written to DRAM; they keep their tokens (R199). -/
def State.writeOut (s : State) (line : Nat) (hit : Holding → Bool) : State :=
  State.sealLine { s with hold := s.hold.map fun h => if hit h then { h with dirty := false } else h } line

/-- The walk on one line (R199): a copy whose target cannot be reached stays, which status bit 2 says; the tokens of a
dropped copy return as an eviction (R128). -/
def rangeLine (s : State) (me : AgentId) (sub : Nat) (sc : Scope) (xl : Xlat) (line : Nat) : State × Bool :=
  match xl.mode with
  | .swm =>
    let mine := s.swm.filter fun c => c.line == line && inReach me c.agent sc
    let away := fun (s : State) => if sub = 2 then s else s.awayDrop fun x => x.line == line && inReach me (sliceOf x.die line) sc
    if sub = 1 then (away { s with swm := s.swm.filter fun c => !mine.contains c }, false)
    else
      let go := mine.filter fun c => !s.stranded xl.ty c
      let s1 := (go.filter SwmCopy.stored).foldl (fun s c => writeBackCopy s xl.master c) s
      let clean := fun (c : SwmCopy) => if go.contains c then { c with mask := List.replicate 128 0 } else c
      (if sub = 0 then away { s1 with swm := s1.swm.filter fun c => !go.contains c }
       else { s1 with swm := s1.swm.map clean },
        go.length != mine.length)
  | .coh | .ros =>
    let s1 := s.endUmode line
    let hit := fun (h : Holding) => h.line == line && inReach me h.agent sc
    let s2 := if sub != 1 && s1.hold.any (fun h => hit h && h.dirty) then s1.writeOut line hit else s1
    if sub = 2 then (s2, false)
    else
      (((s2.hold.filter hit).foldl (fun s h => s.giveBack h) s2).awayDrop fun x => x.line == line && inReach me (sliceOf x.die line) sc,
        false)
  | .home => (s, false)

/-- The walk over the pages of a range (R201); the status bits gathered so far come and go with it. -/
def rangeWalk (t : Team) (sub : Nat) (sc : Scope) (lo hi : Nat) : Nat → Nat → State × Nat → State × Nat
  | 0, _, r => r
  | n + 1, page, (s, st) =>
    let va := page * 4096
    match s.xlateTeam t .range (canon va) with
    | .error _ => rangeWalk t sub sc lo hi n (page + 1) (s, st ||| 1)
    | .ok (xl, s1) =>
      let r := (List.range 32).foldl (fun (r : State × Nat) j =>
        let v := va + 128 * j
        if lo / 128 * 128 ≤ v && v < hi then
          let (s', left) := rangeLine r.1 t.agent sub sc xl (lineOf xl.pa + j)
          (s', if left then r.2 ||| 4 else r.2)
        else r) (s1, st)
      rangeWalk t sub sc lo hi n (page + 1) r

/-- A copy in reach of a range instruction holds page-table data through which a queued store goes: its write-back waits
for that store (R103). -/
def walkBusy (s : State) (k : Nat) (me : AgentId) (sc : Scope) : Bool :=
  s.swm.any fun c => inReach me c.agent sc && c.stored && derivesFrom s (some k) [c.line]

/-- A walk over a range waits for a token of a page-table line (R100). -/
def pagesWait (s : State) (t : Team) (start len : Nat) : Bool :=
  (List.range ((start + len + 4095) / 4096 - start / 4096)).any fun j =>
    match s.xlateTeam t .range (canon ((start / 4096 + j) * 4096)) with
    | .error none => true
    | _ => false

/-- What happens before a range instruction of a lane has performed: the team's stores before it, also those of data whose
address is still to come, and the lane's own atomic operations (R200, R253). -/
def rangeReady (t : Team) (l id : Nat) : Bool :=
  (t.storeq.all fun e => id ≤ e.op) && ((List.range t.threads.length).all fun j => !earlierData t j id) &&
    !earlierLoad (t.thread l) id && !loadToReplay (t.thread l) id

/-- The walk of a range instruction of a team and its status; it stops where the binding is not current (R201). -/
def rangeRun (s : State) (k sub start len : Nat) (sc : Scope) : State × Nat :=
  if teamBound s k then
    rangeWalk (s.team k) sub sc start (start + len) ((start + len + 4095) / 4096 - start / 4096) (start / 4096) (s, 0)
  else (s, 2)

/-- RANGE_WALK_COMPLETE (R200, R201): what happens before the instruction has performed, the walk is made, and the status is
written; a lane that traps at its status has no effect (R5). -/
def execRangeWalkComplete (k l id : Nat) (s : State) : Host.Outcome State Fault Refusal :=
  let t := s.team k
  match opOf (t.thread l) id with
  | none => next s
  | some o =>
    match o.what with
    | .range sub start len sc =>
      let wait := next (s.push (.rangeWalkComplete k l id))
      if !rangeReady t l o.order || walkBusy s k t.agent sc || pagesWait s t start len then wait
      else
        match resultIn s k l id o.dsts [0] with
        | .error .hold => wait
        | .error (.trap c v keep) => next (doomOp (s.modThread k l fun th => keep.apply th) k l id c v)
        | .ok _ =>
          let r := rangeRun s k sub start len sc
          next ((writeResult r.1 k l id o.dsts [BitVec.ofNat 32 r.2]).getD s)
    | _ => next s

/-! ### WAITMON (R205) -/

/-- A run-ending instruction with a wait first lets every earlier instruction of its threads reach its decision
point; a thread with a doomed one executes it all the same (R31, R54, R56). -/
def Grp.await (g : Grp) (s : State) : Option (Host.Outcome State Fault Refusal) :=
  match g.e.filter fun l => (g.thread s l).ops.any fun o => !o.decided && o.doomed.isNone with
  | [] => none
  | ls => some (waitLanes s g ls)

/-- An instruction after which a thread no longer continues where it stands (EXIT, SRET, PHASE.END, MIGRATE, QUIET) is
not executed by a thread with a doomed instruction: that thread parks before it, since a trap could not be taken after it
(R56, log 29). -/
def Grp.settle (g : Grp) (s : State) : Option (Host.Outcome State Fault Refusal) :=
  match g.e.filter fun l => (g.thread s l).ops.any fun o => !o.decided with
  | [] => none
  | ls =>
    match ls.filter fun l => (g.thread s l).ops.any fun o => o.doomed.isSome with
    | [] => some (waitLanes s g ls)
    | d => some (next (parkDoomed s g.k g.idx d))

/-- Puts the executing lanes into waits and goes on; the wait's end completes the instruction. -/
def startWaits (s : State) (g : Grp) (w : Nat → Option Wait) : State :=
  let s1 := g.e.foldl (fun s l =>
    match w l with
    | some x => s.modThread g.k l fun th => { th with wait := some x, waitPc := g.here }
    | none => s) s
  finishNext s1 g

/-- WAITMON (R205). -/
def execWaitmon (x : XOps) (s : State) : Host.Outcome State Fault Refusal :=
  match prologue s (ofX x) (fun _ => none) false [] false with
  | .error o => o
  | .ok g =>
    match g.await s with
    | some o => o
    | none => next (startWaits s g fun _ => some .monitor)

/-! ### Residency handles (R206) -/

/-- The range of RES.HINT is valid: it is not empty, and lies in one canonical half like that of a range instruction. -/
def resRangeOk (start len : DWord) : Bool := len != 0 && !rangeBad start len

/-- A handle with a range added: the seventeenth is refused (R206). -/
def ResHandle.add (h : ResHandle) (prio : Nat) (start len : DWord) : ResHandle :=
  { prio := prio
    ranges := if 16 ≤ h.ranges.length then h.ranges else h.ranges ++ [(start.toNat, len.toNat)] }

/-- A lane of RES.HINT (R206). DESIGN CHOICE (log 97): where the control word and the range are both invalid, the answer is
that of the control word. -/
def resHintLane (x : XOps) (s : State) (L : LCtx) (th : Thread) : Except AccStop (List Word × Thread × State) :=
  match (do
    let a ← srcA L .int .w32 (ofX x)
    let b ← srcB L .int .w64 (ofX x)
    let c ← srcC L .int .w64 (ofX x)
    return (a.lo, b, c) : LaneM (Word × DWord × DWord)) th with
  | .error e => .error e
  | .ok ((a, b, c), th) =>
    let h := fld a.toNat 0 6
    if fld a.toNat 6 2 != 0 || fld a.toNat 10 22 != 0 then .ok ([2], th, s)
    else if !resRangeOk b c then .ok ([3], th, s)
    else
      let old := (aget (s.part L.team.part).handles h).getD {}
      .ok ([if 16 ≤ old.ranges.length then 1 else 0], th,
        s.modPart L.team.part fun p => { p with handles := aset p.handles h (old.add (fld a.toNat 8 2) b c) })

/-- RES.HINT (R206). -/
def execResHint (x : XOps) (s : State) : Host.Outcome State Fault Refusal :=
  effectOp s (.resHint x) (ofX x) (fun _ => none) (resHintLane x)

/-- The L2 lines of a partition that a handle gave their priority lose it (R206). -/
def State.dropHandle (s : State) (part h : Nat) : State :=
  { s with l2 := s.l2.map fun x => if x.handle == some h && s.granuleOwner x.line == some part then { x with handle := none } else x }

/-- A lane of RES.EVICT (R206). -/
def resEvictLane (x : XOps) (s : State) (L : LCtx) (th : Thread) : Except AccStop (List Word × Thread × State) :=
  match srcA L .int .w32 (ofX x) th with
  | .error e => .error e
  | .ok (a, th) =>
    if fld a.toNat 6 26 != 0 then .ok ([2], th, s)
    else .ok ([0], th, (s.dropHandle L.team.part (fld a.toNat 0 6)).modPart L.team.part fun p =>
      { p with handles := adel p.handles (fld a.toNat 0 6) })

/-- RES.EVICT (R206). -/
def execResEvict (x : XOps) (s : State) : Host.Outcome State Fault Refusal :=
  effectOp s (.resEvict x) (ofX x) (fun _ => none) (resEvictLane x)

/-! ### CBLOAD (R207) -/

/-- Lane traps of CBLOAD before its work starts. -/
def cbloadBad (t : Team) (launch : Option Launch) (bank : Nat) (src len : DWord) : Option (Cause × DWord) :=
  let defd :=
    match launch with
    | some l => getAt false l.constDefined bank && t.kind != .lodestar
    | none => false
  if !defd then some (.constantBank, BitVec.ofNat 64 bank)
  else if len.toNat % 4 != 0 || len.toNat < 4 || 65536 < len.toNat then some (.constantBank, BitVec.ofNat 64 (256 + bank))
  else if src.toNat % 4 != 0 then some (.misalignedAccess, src)
  else none

/-- A replayed CBLOAD goes on under a new number for the whole issue group, and for the readers of its bank (R112, R142). -/
def resumeLoad (s : State) (k : Nat) (replay : Bool) (old id : Nat) : State :=
  if !replay then s
  else
    let s1 := s.modTeam k fun t =>
      { t with threads := t.threads.map fun th =>
          { th with ops := th.ops.map fun o => if o.id = old then { o with id := id } else o } }
    match (s.team k).launch with
    | some ln => s1.modLaunch ln fun v =>
        { v with cbPending := v.cbPending.map fun p => if p.1 = k ∧ p.2.2 = old then (k, p.2.1, id) else p }
    | none => s1

/-- CBLOAD at issue (R184, R207). DESIGN CHOICE (log 84): a queue as source 2 gives up the head of the elected lane's queue
only. -/
def execCbload (x : XOps) (s : State) : Host.Outcome State Fault Refusal :=
  let i : Instr := .cbload x
  let f := ofX x
  let sh := i.shape
  let regs := srcRegs sh.b f.b ++ srcRegs sh.c f.c
  match prologue s f (fun st => opChecks st sh f) false regs true true with
  | .error o => o
  | .ok g =>
    match g.e with
    | [] => next (finishNext s g)
    | l :: _ =>
      let L := g.lctx s l
      let bank := x.a.bits
      let id := s.serial
      let la := g.la s
      match logOperands i f sh g.here L (g.thread s l) with
      | .error .hold => waitLanes s g [l]
      | .error (.trap c v k) => next (complete s g [] [(l, { cause := c, tval := v, tpc := g.here }, k)])
      | .ok (lr, th) =>
        let len := (DWord.ofPair 0 (getAt 0 lr.c 0))
        match cbloadBad L.team L.launch bank lr.b len with
        | some (c, v) =>
          let tr := (l, ({ cause := c, tval := v, tpc := g.here } : TrapRec), Retain.nothing)
          next (finishNext (trapTracked ({ s with serial := s.serial + 1 } : State) g id la [] (logOperands i f sh g.here) [tr]) g)
        | none =>
          if rangeBusy th lr.b len.toNat then waitLanes s g [l]
          else
          let s0 := resumeLoad ({ s with serial := s.serial + 1 } : State) g.k L.log.isSome lr.id id
          let s1 := (setThreads s0 g.k false [(l, th)]).sideEffect g.k
          let op : TOp := { id := id, dsts := [], dc := f.dc, win := la + 1, decided := false, doomed := none,
                            what := .cbload bank lr.b len.toNat, log := some { lr with id := id } }
          let s2 := g.e.foldl (fun s l => s.modThread g.k l fun th => { th.incDc f.dc with ops := th.ops ++ [op] }) s1
          let s3 := reserveLog s2 g.k id la
          let s4 :=
            match L.team.launch with
            | some ln =>
              s3.modLaunch ln fun v =>
                { v with cbPending := if L.log.isSome then v.cbPending else v.cbPending ++ [(g.k, bank, id)] }
            | none => s3
          next (finishNext (s4.push (.cbloadComplete g.k id)) g)

/-- The parts of `n` bytes at an address that lie in one line each. -/
def chunks : Nat → Nat → Nat → List (Nat × Nat)
  | 0, _, _ => []
  | fuel + 1, a, n =>
    if n = 0 then []
    else
      let k := min n (128 - a % 128)
      (a, k) :: chunks fuel (a + k) (n - k)

/-- Reads `n` bytes of virtual memory for an engine of a team's core (R465). DESIGN CHOICE (log 114): where a part of it fails,
the address reported is the first byte of that part, the failing page or line. -/
def readVirtual (t : Team) (agent : Option AgentId) : List (Nat × Nat) → State → RdRes
  | [], s => .ok [] false s
  | (a, n) :: r, s =>
    match s.xlateEngine t agent .load (BitVec.ofNat 64 a) with
    | .error none => .wait s
    | .error (some c) => .trap c (BitVec.ofNat 64 a)
    | .ok (xl, s1) =>
      match s1.readNow agent false xl (BitVec.ofNat 64 a) n with
      | .ok bs st s2 =>
        match readVirtual t agent r s2 with
        | .ok bs2 st2 s3 => .ok (bs ++ bs2) (st || st2) s3
        | e => e
      | e => e

/-- A thread of the team still has the CBLOAD of a number to replay, or its trap to take (R112, R142). -/
def loadCarried (t : Team) (id : Nat) : Bool :=
  let named := fun (r : Option LogRec) => (r.map fun r => r.id == id).getD false
  t.threads.any fun th =>
    (th.ops.any fun o => o.id == id && o.doomed.isSome) || (th.recorded.any fun r => named r.log) ||
      (th.replay.any fun r => r.id == id) || (th.stopAt.map fun r => named r.log).getD false

/-- A CBLOAD is over: its bank's readers go on, and it is complete for every lane of its group. -/
def endCbload (s : State) (k id : Nat) (lanes : List Nat) : State :=
  let s1 :=
    match (s.team k).launch with
    | some ln => s.modLaunch ln fun v => { v with cbPending := v.cbPending.filter fun p => !(p.1 == k && p.2.2 == id) }
    | none => s
  releaseLog (lanes.foldl (fun s j => s.modThread k j fun th => th.endOp id) s1) k

/-- CBLOAD_COMPLETE (R207, R142, R167): once the team's earlier accesses are over the source is read and the bank's first
bytes are replaced. A trap is the lowest lane's; the bank's readers, and the other lanes, wait on for its replay, or until
it is not replayed (R142). -/
def execCbloadComplete (k id : Nat) (s : State) : Host.Outcome State Fault Refusal :=
  let t := s.team k
  let lanes := (List.range t.threads.length).filter fun l => (opOf (t.thread l) id).isSome
  let again := fun (s : State) => next (s.push (.cbloadComplete k id))
  match lanes.find? fun l => (opOf (t.thread l) id).any fun o => !o.decided with
  | none => if loadCarried t id then again s else next (endCbload s k id lanes)
  | some l =>
    match ((opOf (t.thread l) id).map fun o => o.what : Option OpKind) with
    | some (.cbload bank src len) =>
      if (List.range t.threads.length).any fun j => earlierLoad (t.thread j) id || earlierStore t j id || earlierRange (t.thread j) id then again s
      else
        match readVirtual t (some t.agent) (chunks 520 src.toNat len) s with
        | .wait s1 => again s1
        | .trap c v =>
          let s1 := lanes.foldl (fun s j => if j = l then s else s.modThread k j fun th =>
            { th with ops := th.ops.map fun o => if o.id = id then { o with decided := true } else o }) s
          again (doomOp s1 k l id c v)
        | .ok bs stale s1 =>
          let s2 := if stale then s1.modThread k l fun th => { th with vstale := th.vstale ||| 1 } else s1
          let put := fun (b : AList Word) => (mapAt (fun j w => (j, w)) 0 (wordsOf bs)).foldl (fun b p => aset b p.1 p.2) b
          let s3 :=
            match t.launch with
            | some ln => s2.modLaunch ln fun v => { v with consts := aset v.consts bank (put ((aget v.consts bank).getD [])) }
            | none => s2
          next (endCbload s3 k id lanes)
    | _ => next s

end Sys2Proof.Machine
end

