-- ==== Sys2Proof/Machine/Ready.lean ====
section
/-! DEFINITION. Which threads are ready (R32), the PC groups they form (R357), and the keys by which a pipe
selects one (R359). -/

namespace Sys2Proof.Machine

/-! ### Flare state (R399, R405) -/

/-- The 64 vectors of a context; a context that has never been enabled holds them at 0. -/
def Ctx.vectors (c : Ctx) : List Flare := if c.flares.isEmpty then List.replicate 64 {} else c.flares

def Ctx.vector (c : Ctx) (v : Nat) : Flare := getAt {} c.vectors v
def Ctx.setVector (c : Ctx) (v : Nat) (f : Flare) : Ctx := { c with flares := setAt c.vectors v f }

/-- The lowest pending unmasked vector. -/
def lowestFlare (c : Ctx) : Option Nat :=
  (List.range 64).find? fun v => (c.vector v).pending && !c.flareMask.getLsbD v

/-- The handler team is in its handler (R407), or still has to enter it. -/
def inHandler (t : Team) : Bool :=
  t.flareHeld || t.threads.any fun th => th.inFlare && th.status == .live && !th.inUser

/-- A flare is pending that a team's threads enter the handler for. -/
def flareDue (s : State) (k : Nat) : Bool :=
  let t := s.team k
  let c := s.ctx t.ctx
  t.kind == .user && c.flareTeam == some k && c.flareEntry != 0 && !inHandler t && (lowestFlare c).isSome

/-- A flare is deliverable while the handler team of its context is not resident (R408). -/
def flareUrgent (s : State) (ctx : Nat) : Bool :=
  let c := s.ctx ctx
  match c.flareTeam with
  | some k => !((aget s.teams k).map fun t => t.resident).getD false && c.flareEntry != 0 && (lowestFlare c).isSome
  | none => false

/-- A context becomes flare-urgent, or is no longer (R408). -/
def noteUrgent (s : State) (ctx : Nat) : State := s.modCtx ctx fun c => { c with urgent := flareUrgent s ctx }

/-- A team that CTX.LOAD has restored waits before its first run for the handler entry of a flare that has become deliverable
since: that entry is the first run of the handler team it was restored with (R408). -/
def awaitsEntry (s : State) (t : Team) : Bool :=
  match t.restoredWith with
  | some h => t.fresh && (s.team h).fresh && flareDue s h
  | none => false

/-- Where the thread of a lane continues. A replaying thread has a mark of its own, so that no other joins it (R112,
R357). -/
def whereOf (l : Nat) (th : Thread) : Where :=
  match th.replay, th.farPc with
  | lr :: _, _ => { hdr := governing lr.at_, off := startOff lr.at_, mark := l + 1 }
  | [], some a => { hdr := a, off := 1, mark := 0 }
  | [], none => { hdr := governing th.pc, off := startOff th.pc, mark := 0 }

/-- Address of the next instruction. -/
def Where.addr (w : Where) : Nat := (w.hdr + BitVec.ofNat 64 (4 * w.off)).toNat

/-- The teams of a launch that is ending start no run (R351); a saved team, a team that CTX.SAVE is stopping, a frozen
crew and a section before its entry check run nothing (R427, R381); a restored team waits for the flare entry of the
handler team it was restored with (R408). -/
def teamMayRun (s : State) (t : Team) : Bool :=
  t.resident && !t.entering && (t.kind != .user || !(s.core t.core).saving.contains t.ctx) && t.holdFor.isNone && !awaitsEntry s t &&
    (match t.launch with
     | some l => (s.launch l).stage == .running
     | none => true) &&
    match t.crew with
    | some c => (s.crew c).frozen.isNone
    | none => true

/-- A LAUNCH of the thread has captured its record and waits for room in its partition (R368, R4). -/
def launchWaits (s : State) (k l : Nat) : Bool :=
  (s.team k).pending.any fun q =>
    q.lanes.contains l && !q.op.block.isEmpty &&
      match q.op.instr with
      | .launch _ => true
      | _ => false

/-- The thread stands between two runs and waits for nothing of its own but the R28 wait, nor for its turn in the user handler
(R416). -/
def threadOpen (s : State) (k l : Nat) (th : Thread) : Bool :=
  th.status == .live && !th.userHeld && th.wait.isNone && (th.stopAt.isNone || !th.replay.isEmpty) && !inRun s k l && !launchWaits s k l &&
    th.ops.all fun o => o.decided

/-- The R28 wait of the first instruction of a thread's next run holds (R32): a clause that cannot be fetched
holds nothing, and its fetch traps. -/
def firstWait (s : State) (t : Team) (w : Where) (th : Thread) : Bool :=
  if w.mark != 0 then false
  else
    match fetchClause s t w.hdr with
    | .error _ => false
    | .ok (c, _) =>
      match indexAt c.placed w.off with
      | none => false
      | some i => waitHolds c.hdr i th

/-- The thread is ready for a run (R32). -/
def threadReady (s : State) (k l : Nat) (t : Team) (th : Thread) : Bool :=
  threadOpen s k l th && !firstWait s t (whereOf l th) th

/-- The ready threads of a PC group. -/
structure PcGroup where
  team : Nat
  at_ : Where
  lanes : List Nat
  stamp : Nat
  prio : Nat
  slot : Nat
  deriving DecidableEq, Repr

/-- Adds a ready thread to its group. -/
def addToGroup (k : Nat) (t : Team) (l : Nat) (th : Thread) : List PcGroup → List PcGroup
  | [] =>
    [{ team := k, at_ := whereOf l th, lanes := [l], stamp := th.stamp,
       prio := if t.kind == .supervisor then 4 else t.prio, slot := t.slot }]
  | g :: r =>
    if g.team = k && g.at_ == whereOf l th then { g with lanes := g.lanes ++ [l], stamp := min g.stamp th.stamp } :: r
    else g :: addToGroup k t l th r

/-- The groups of one team. -/
def teamGroups (s : State) (k : Nat) (t : Team) : List PcGroup :=
  if teamMayRun s t then
    (mapAt (fun l th => (l, th)) 0 t.threads).foldl (fun gs p =>
      if threadReady s k p.1 t p.2 then addToGroup k t p.1 p.2 gs else gs) []
  else []

/-- Whether a team's threads issue on a pipe: compute core `core`, pipe 0 to 3, or Lodestar context core - 640. -/
def onPipe (t : Team) (core pipe : Nat) : Bool :=
  match t.kind with
  | .lodestar => decide (Config.cores ≤ core) && t.core == core - Config.cores && pipe == 0
  | _ => t.core == core && t.pipe == pipe

/-- The PC groups with ready threads on a pipe. -/
def pipeGroups (s : State) (core pipe : Nat) : List PcGroup :=
  s.teams.flatMap fun kt => if onPipe kt.2 core pipe then teamGroups s kt.1 kt.2 else []

/-- The access context of a team has an instruction ready (R245). -/
def accReady (s : State) (k : Nat) (t : Team) : Bool :=
  match t.acc with
  | none => false
  | some a =>
    teamMayRun s t && !a.ended && a.th.status == .live && a.th.wait.isNone &&
      !(s.runs.any fun r => r.team == k && r.acc) && (a.th.ops.all fun o => o.decided) &&
      !firstWait s t (whereOf 0 a.th) a.th

/-- The teams whose access contexts are ready on a core. -/
def readyAccess (s : State) (core : Nat) : List (Nat × Nat) :=
  s.teams.filterMap fun kt =>
    if kt.2.kind == .user && kt.2.core == core && accReady s kt.1 kt.2 then some (kt.1, kt.2.slot) else none

/-- The order of R359: `a` is selected before `b`. -/
def PcGroup.before (a b : PcGroup) : Bool :=
  if a.prio ≠ b.prio then b.prio < a.prio
  else if a.stamp ≠ b.stamp then a.stamp < b.stamp
  else if a.at_.addr ≠ b.at_.addr then a.at_.addr < b.at_.addr
  else a.slot < b.slot

/-- The group a pipe selects. -/
def selectGroup : List PcGroup → Option PcGroup
  | [] => none
  | g :: r =>
    match selectGroup r with
    | none => some g
    | some b => if b.before g then some b else some g

end Sys2Proof.Machine
end

