-- ==== Sys2Proof/Machine/Control.lean ====
section
/-! DEFINITION. Control instructions: branches and calls (R364), reconvergence (R361, R365), and the ends of
runs (R360, R366). -/

namespace Sys2Proof.Machine

/-- Sends the lanes that have a target there, the others to the next instruction. -/
def jumpLanes (s : State) (g : Grp) (targets : List (Nat × DWord)) : State :=
  let find := fun (l : Nat) => (targets.find? fun p => p.1 == l).map (·.2)
  let s1 := finish s g fun l =>
    match find l with
    | some a => mkResume a 0
    | none => g.after
  targets.foldl (fun s p => modThreadIn s g.k g.run.acc p.1 fun th =>
    { th with farPc := if isCanon p.2 then none else some p.2 }) s1

/-- Address of the group's instruction. -/
def Grp.pc (g : Grp) : DWord := resumeAddr g.here

/-- Fields of BRA and CALL. -/
def ofBr : Fields := { len := 2 }

/-- The condition of BRA and CALL (R84). -/
def brTaken (o : BrOps) (th : Thread) : Bool := th.pred o.pred.toNat != o.pneg

/-- Traps of lanes at the group's instruction. -/
def trapAt (g : Grp) (l : Nat) (c : Cause) (v : DWord) : Nat × TrapRec × Retain :=
  (l, { cause := c, tval := v, tpc := g.here }, .nothing)

/-- Pushes a return address (R364). -/
def pushReturn (s : State) (g : Grp) (l : Nat) : State :=
  modThreadIn s g.k g.run.acc l fun th => { th with callStack := mkResume (resumeAddr g.after) 0 :: th.callStack }

/-- A transfer of the lanes that take it, to the target each names; a call pushes the return address first. A lane that
traps stands as in `s0`, the state before its operands were read (R5). -/
def transfer (s0 s : State) (g : Grp) (call : Bool) (targets : List (Nat × DWord)) : State :=
  let bad := targets.filterMap fun p =>
    if p.2.toNat % 4 != 0 then some (trapAt g p.1 .misalignedPc p.2)
    else if call && 16 ≤ (g.thread s p.1).callStack.length then some (trapAt g p.1 .callStack 1)
    else none
  let good := targets.filter fun p => !bad.any fun b => b.1 == p.1
  let s1 := if call then good.foldl (fun s p => pushReturn s g p.1) s else s
  jumpLanes (trapLanes (undoLanes s0 s1 g (bad.map (·.1))) g.k g.idx g.run.acc bad) g good

/-- BRA and CALL (R364, R84). -/
def branchOp (o : BrOps) (call : Bool) (s : State) : Host.Outcome State Fault Refusal :=
  match prologue s ofBr (fun _ => none) false [] false with
  | .error e => e
  | .ok g =>
    let target := g.pc + o.lit.sext
    next (transfer s s g call ((g.act.filter fun l => brTaken o (g.thread s l)).map fun l => (l, target)))

/-- BRA (R364). -/
def execBra (o : BrOps) (s : State) : Host.Outcome State Fault Refusal := branchOp o false s

/-- CALL (R364). -/
def execCall (o : BrOps) (s : State) : Host.Outcome State Fault Refusal := branchOp o true s

/-- A form that waits for nothing before it reads its operands. -/
def noWait (_ : Grp) (_ : State) : Option (Host.Outcome State Fault Refusal) := none

/-- A form of format X that reads operands for each executing lane and then acts for the group; `waits` says what it
waits for first. -/
def lanesThen {α : Type} (s : State) (i : Instr) (x : XOps) (waits : Grp → State → Option (Host.Outcome State Fault Refusal)) (rd : State → LCtx → Thread → Except AccStop (α × Thread × State))
    (k : State → Grp → List (Nat × α) → List (Nat × TrapRec × Retain) → Host.Outcome State Fault Refusal) :
    Host.Outcome State Fault Refusal :=
  let f := ofX x
  let sh := i.shape
  let regs := srcRegs sh.a f.a ++ srcRegs sh.b f.b ++ srcRegs sh.c f.c ++ dstRegs false sh.d f.dst
  match prologue s f (fun st => opChecks st sh f) false regs false with
  | .error o => o
  | .ok g =>
    match waits g s, g.lanesS s rd with
    | some o, _ => o
    | none, (rs, s1) =>
      match holdsOf rs with
      | _ :: _ => waitLanes s g (holdsOf rs)
      | [] =>
        let oks := oksOf rs
        let s2 := setThreads s1 g.k g.run.acc (oks.map fun p => (p.1, p.2.2.noting g.here (g.thread s p.1)))
        k s2 g (oks.map fun p => (p.1, p.2.1)) (trapsOf g.here rs)

/-- CALLX (R364). -/
def execCallx (x : XOps) (s : State) : Host.Outcome State Fault Refusal :=
  lanesThen s (.callx x) x noWait (fun s L th =>
    match srcA L .int .w64 (ofX x) th with
    | .error e => .error e
    | .ok (a, th) => .ok (a, th, s)) fun s1 g vals traps =>
      next (transfer s (trapLanes s1 g.k g.idx g.run.acc traps) g true vals)

/-- The table entry of BRX for one lane (R364). -/
def brxRead (x : XOps) (s : State) (L : LCtx) (th : Thread) : Except AccStop (Word × Thread × State) :=
  let f := ofX x
  match (do
      let a ← srcA L .int .w64 f
      let b ← srcB L .int .w32 f
      let c ← srcC L .int .w32 f
      return (a, b.lo, c.lo) : LaneM (DWord × Word × Word)) th with
  | .error e => .error e
  | .ok ((base, i, n), th) =>
    if n.toNat ≤ i.toNat then .error (.trap .jumpTableRange i.zext .nothing)
    else if base.toNat % 4 != 0 then .error (.trap .misalignedAccess base .nothing)
    else
      let va := base + BitVec.ofNat 64 (4 * i.toNat)
      let t := L.team
      if earlierLoad th s.serial then .error .hold
      else
        match s.piece L.k L.lane .load va 4 with
        | .error e => .error e
        | .ok (p, s1) =>
          if ownBefore t L.lane s.serial [p] then .error .hold
          else
          match s1.readNow (some t.agent) true p.xl va 4 with
          | .wait _ => .error .hold
          | .trap c v => .error (.trap c v .nothing)
          | .ok bs stale s2 =>
            let e := BitVec.ofNat 32 (leNat (overlay t L.lane s.serial none p.xl.pa bs))
            .ok (e, if stale then { th with vstale := th.vstale ||| 1 } else th, s2)

/-- BRX (R364). -/
def execBrx (x : XOps) (s : State) : Host.Outcome State Fault Refusal :=
  lanesThen s (.brx x) x noWait (brxRead x) fun s1 g vals traps =>
    next (transfer s (trapLanes s1 g.k g.idx g.run.acc traps) g false (vals.map fun p => (p.1, g.pc + p.2.sext)))

/-- RET (R364). -/
def execRet (s : State) : Host.Outcome State Fault Refusal :=
  match prologue s { len := 1 } (fun _ => none) false [] false with
  | .error o => o
  | .ok g =>
    let empty := g.act.filter fun l => (g.thread s l).callStack.isEmpty
    let go := g.act.filterMap fun l => (g.thread s l).callStack.head?.map fun r => (l, resumeAddr r)
    let s1 := go.foldl (fun s p => modThreadIn s g.k g.run.acc p.1 fun th => { th with callStack := th.callStack.tail }) s
    next (jumpLanes (trapLanes s1 g.k g.idx g.run.acc (empty.map fun l => trapAt g l .callStack 2)) g go)

/-! ### Reconvergence (R365) -/

/-- Changes a barrier of a team and makes the release check (R361). -/
def modJoin (s : State) (k b : Nat) (f : Word × Word → Word × Word) : State :=
  s.modTeam k fun t => ({ t with joins := setAt t.joins b (f (getAt (0, 0) t.joins b)) } : Team).joinCheck b

/-- Mask of lanes. -/
def laneMask (ls : List Nat) : Word := ls.foldl (fun m l => m ||| bit32 l) 0

/-- RJOIN.SET (R365). -/
def execRjoinSet (x : XOps) (s : State) : Host.Outcome State Fault Refusal :=
  match prologue s (ofX x) (fun st => opChecks st (Instr.shape (.rjoinSet x)) (ofX x)) false [] false with
  | .error o => o
  | .ok g =>
    let b := x.a.bits
    let part := (getAt ((0, 0) : Word × Word) (s.team g.k).joins b).1
    let bad := g.e.filter fun l => part.getLsbD l
    let good := g.e.filter fun l => !part.getLsbD l
    let s1 := trapLanes s g.k g.idx g.run.acc (bad.map fun l => trapAt g l .reconvergeMisuse (BitVec.ofNat 64 b))
    next (finishNext (modJoin s1 g.k b fun p => (p.1 ||| laneMask good, p.2)) g)

/-- RJOIN.WAIT (R365): the participants wait; the release makes them ready at the next instruction. -/
def execRjoinWait (x : XOps) (s : State) : Host.Outcome State Fault Refusal :=
  match prologue s (ofX x) (fun st => opChecks st (Instr.shape (.rjoinWait x)) (ofX x)) false [] false with
  | .error o => o
  | .ok g =>
    match g.await s with
    | some o => o
    | none =>
      let b := x.a.bits
      let part := (getAt ((0, 0) : Word × Word) (s.team g.k).joins b).1
      let mine := g.e.filter fun l => part.getLsbD l
      let s1 := startWaits s g fun l => if mine.contains l then some (.rjoin b) else none
      next (modJoin s1 g.k b fun p => (p.1, p.2 ||| laneMask mine))

/-- RJOIN.LEAVE (R365). -/
def execRjoinLeave (x : XOps) (s : State) : Host.Outcome State Fault Refusal :=
  match prologue s (ofX x) (fun st => opChecks st (Instr.shape (.rjoinLeave x)) (ofX x)) false [] false with
  | .error o => o
  | .ok g =>
    let m := ~~~(laneMask g.e)
    next (finishNext (modJoin s g.k x.a.bits fun p => (p.1 &&& m, p.2 &&& m)) g)

/-! ### The ends of runs (R360, R366) -/

/-- The core and pipe on which a team's threads issue. -/
def pipeOf (t : Team) : Nat × Nat :=
  match t.kind with
  | .lodestar => (Config.cores + t.core, 0)
  | _ => (t.core, t.pipe)

/-- NOP (R366). -/
def execNop (x : XOps) (s : State) : Host.Outcome State Fault Refusal :=
  match prologue s (ofX x) (fun _ => none) false [] false with
  | .error o => o
  | .ok g => next (finishNext s g)

/-- SLEEP (R366). -/
def execSleep (x : XOps) (s : State) : Host.Outcome State Fault Refusal :=
  lanesThen s (.sleep x) x Grp.await (fun s L th =>
    match srcA L .int .w32 (ofX x) th with
    | .error e => .error e
    | .ok (a, th) => .ok (a.toNat, th, s)) fun s g vals traps =>
      let s1 := startWaits (trapLanes s g.k g.idx g.run.acc traps) g fun l =>
        (vals.find? fun p => p.1 == l).map fun p => .sleep (s.cycles.toNat + p.2)
      next (vals.foldl (fun s p => s.push (.sleepExpiry g.k p.1)) s1)

/-- SLEEP_EXPIRY (R366): the thread becomes ready once CYCLES has reached the end of its sleep. -/
def execSleepExpiry (k l : Nat) (s : State) : Host.Outcome State Fault Refusal :=
  match (s.thread k l).wait with
  | some (.sleep till) =>
    if till ≤ s.cycles.toNat then next (s.modThread k l fun th => { th with wait := none })
    else next (s.push (.sleepExpiry k l))
  | _ => next s

end Sys2Proof.Machine
end

