-- ==== Sys2Proof/Machine/Engine.lean ====
section
/-! DEFINITION. Engine queues of a team: acceptance and completion of operations (R208 to R212, R217), completion
tokens (R374, R375), QFENCE and QWAIT (R226, R227), and the memory and scratchpad accesses of an engine (R165,
R171, R172). -/

namespace Sys2Proof.Machine

/-! ### Queues -/

def Team.queue (t : Team) (c : Nat) : EngQueue := getAt {} t.engq c
def Team.modQueue (t : Team) (c : Nat) (f : EngQueue → EngQueue) : Team := { t with engq := setAt t.engq c (f (t.queue c)) }
def State.modQueue (s : State) (k c : Nat) (f : EngQueue → EngQueue) : State := s.modTeam k fun t => t.modQueue c f

/-- The head of a queue. -/
def EngQueue.head (q : EngQueue) : Option EngOp := q.ops.head?

def EngOp.isFence (o : EngOp) : Bool :=
  match o.instr with
  | .qfence _ => true
  | _ => false

/-- LAUNCH waits beside the engine operations of its team and enters no queue (R368). -/
def EngOp.isLaunch (o : EngOp) : Bool :=
  match o.instr with
  | .launch _ => true
  | _ => false

/-- An engine may take the operation: it has not begun, or CTX.SAVE stopped it (R218, R328). -/
def EngState.waits (s : EngState) : Bool := s == .queued || s == .preempted

/-- The operation ended without its whole effect and a wait for it traps (R217). -/
def EngState.bad : EngState → Bool
  | .faulted _ _ | .cancelled => true
  | _ => false

/-- STATE of the progress word (R326). -/
def EngState.code : EngState → Nat
  | .queued => 1
  | .running => 2
  | .stopped _ _ | .preempted => 3
  | .done => 4
  | .faulted _ _ => 5
  | .aborted => 6
  | .cancelled => 7

/-- The progress word of an operation (R326): a copy, an ACC operation or SPC.CMP reports STATE alone. -/
def EngOp.word (o : EngOp) (st : EngState) (passes : Nat) : Word :=
  match o.instr with
  | .mxIssue _ =>
    match st with
    | .done => BitVec.ofNat 32 (4 * 2 ^ 29 + passes % 256 * 2 ^ 21)
    | _ => BitVec.ofNat 32 (st.code * 2 ^ 29 + o.row % 256 * 2 ^ 21 + o.chunk % 8192 * 2 ^ 8 + o.idx % 32 * 2 ^ 3)
  | _ => BitVec.ofNat 32 (st.code * 2 ^ 29)

/-- Changes an operation in the queues it entered. -/
def State.modOp (s : State) (k : Nat) (o : EngOp) (f : EngOp → EngOp) : State :=
  o.qs.foldl (fun s c => s.modQueue k c fun q =>
    { q with ops := q.ops.map fun x => if x.order = o.order then f x else x }) s

/-- The last 64 ends are kept, and those that no trap has reported yet (R217, R374). -/
def EngQueue.trim (q : EngQueue) : EngQueue :=
  { q with recent := q.recent.filter fun e => q.accepted ≤ e.seq + 64 || (e.state.bad && !e.reported) }

/-- The queue pair and the key of a remote operation, where a trap's TVAL holds them (R449). -/
def EngOp.remote (o : EngOp) : DWord :=
  match o.instr with
  | .rmaKey _ => (DWord.lo (getAt 0 o.args 0)).zext
  | .rmaPut _ | .rmaGet _ | .rmaAtom _ =>
    BitVec.ofNat 64 (leNat ((o.block.drop 20).take 4) % 2 ^ 18 * 2 ^ 32 + leNat ((o.block.drop 24).take 4))
  | _ => 0

/-- An operation leaves a queue. -/
def EngQueue.close (q : EngQueue) (order : Nat) (st : EngState) (w : Word) : EngQueue :=
  match q.ops.find? fun x => x.order == order with
  | none => q
  | some x =>
    ({ q with
      ops := q.ops.filter fun x => x.order != order
      recent := q.recent ++ [{ seq := x.seq, order := order, state := st, word := w, reported := false, remote := x.remote }] } :
      EngQueue).trim

/-- Removes the scoreboard entries of an operation (R171), those saved with a crew too (R172). -/
def State.freeScore (s : State) (order : Nat) : State :=
  { s with
    cores := s.cores.map fun c => (c.1, { c.2 with score := c.2.score.filter fun e => e.order != order })
    crews := s.crews.map fun c => (c.1, { c.2 with savedScore := c.2.savedScore.filter fun e => e.order != order }) }

/-- A crew's scratchpad can be reached: a team of it is on its core (R135, R172). -/
def State.crewPresent (s : State) (c : Nat) : Bool := s.teams.any fun kt => kt.2.crew == some c && kt.2.resident

/-- Adds a scoreboard entry on a core: for a crew whose context is saved, among what is saved with it (R172). -/
def State.addScore (s : State) (e : Nat × ScoreEntry) : State :=
  if s.crewPresent e.2.crew then s.modCore e.1 fun c => { c with score := c.score ++ [e.2] }
  else s.modCrew e.2.crew fun c => { c with savedScore := c.savedScore ++ [e.2] }

/-- Replaces the scoreboard entries of an operation: they shrink as it advances (R171). -/
def State.setScore (s : State) (order : Nat) (es : List (Nat × ScoreEntry)) : State :=
  es.foldl State.addScore (s.freeScore order)

/-- An operation leaves every queue it entered, and the issuing thread learns of a stale view read (R175). In vq no
operation is ever cancelled: a QFENCE cancelled in another queue has completed there (R227). -/
def State.closeOp (s : State) (k : Nat) (o : EngOp) (st : EngState) (w : Word) : State :=
  let s1 := o.qs.foldl (fun s c => s.modQueue k c fun q => q.close o.order (if c = 5 && st == .cancelled then .done else st) w) s
  let s2 := s1.freeScore o.order
  if o.stale then
    s2.modThread k o.lane fun th => if th.status == .exited then th else { th with vstale := th.vstale ||| 1 }
  else s2

/-- The operations behind a faulted one complete as cancelled, and the queue is FAULTED (R217). -/
def State.cancelBehind (s : State) (k : Nat) (o : EngOp) : State :=
  (o.qs.filter fun c => c != 5).foldl (fun s c =>
    let behind := ((s.team k).queue c).ops.filter fun x => x.state == .queued
    let s1 := behind.foldl (fun s x => s.closeOp k x .cancelled (x.word .cancelled 0)) s
    s1.modQueue k c fun q => { q with faulted := true }) s

/-- The QFENCE that stands at the head of every queue it names (R227). -/
def Team.readyFence (t : Team) : Option EngOp :=
  [0, 1, 2, 3, 4, 5, 6].findSome? fun c =>
    match (t.queue c).head with
    | some o => if o.isFence && o.qs.all fun d => ((t.queue d).head.map fun x => x.order) == some o.order then some o else none
    | none => none

/-- Completes the QFENCEs whose condition holds. -/
def State.settleFences (s : State) (k : Nat) : Nat → State
  | 0 => s
  | n + 1 =>
    match (s.team k).readyFence with
    | none => s
    | some o => (s.closeOp k o .done (o.word .done 0)).settleFences k n

/-- The engines that serve a team's queues look again (R210, R324). -/
def State.kick (s : State) (k : Nat) : State :=
  let t := s.team k
  let busy := fun (c : Nat) => !(t.queue c).ops.isEmpty
  let s1 := if t.pending.isEmpty then s else s.pushOnce (.engineOpAccept k)
  let s2 := if busy 0 || busy 1 || busy 2 || busy 3 then
    (s1.pushOnce (.copyEngineTake t.core 0)).pushOnce (.copyEngineTake t.core 1) else s1
  let s3 := if busy 4 then s2.pushOnce (.matrixEngineSelect t.core) else s2
  let s4 := if busy 5 then s3.pushOnce (.viewQueueOperation k) else s3
  let s5 := if busy 6 then s4.pushOnce (.rmaComplete k) else s4
  let s6 := if ((s5.core t.core).banks.any fun b => b.2.freeing) then s5.pushOnce (.accBankRelease t.core) else s5
  match t.launch with
  | some l => if t.threads.all fun th => th.status == .exited then s6.pushOnce (.launchEnd l) else s6
  | none => s6

/-- An operation ends (R169, R217). -/
def State.endEngineOp (s : State) (k : Nat) (o : EngOp) (st : EngState) (passes : Nat) : State :=
  let s1 := s.closeOp k o st (o.word st passes)
  let s2 :=
    match st with
    | .faulted _ _ => s1.cancelBehind k o
    | _ => s1
  (s2.settleFences k 128).kick k

/-! ### Acceptance (R167, R171, R208, R209, R212) -/

/-- Entries of the range scoreboard that are free on a core. -/
def scoreFits (s : State) (es : List (Nat × ScoreEntry)) : Bool :=
  es.all fun e => ((s.core e.1).score.length + (es.filter fun x => x.1 == e.1).length) ≤ 64

/-- An operation that has issued may enter its queues: there is room, the scoreboard has the entries it needs,
and the issuing thread's earlier accesses have performed. -/
def mayAccept (s : State) (k : Nat) (p : PendingOp) : Bool :=
  let t := s.team k
  (p.op.qs.all fun c => (t.queue c).ops.length < 16) && scoreFits s p.spans &&
    !earlierStore t p.op.lane p.id && !earlierLoad (t.thread p.op.lane) p.id

/-- The first operation that waits for acceptance and that nothing before it in its queues or its lane holds. -/
def nextPending (s : State) (k : Nat) : List PendingOp → List PendingOp → Option PendingOp
  | _, [] => none
  | before, p :: r =>
    if mayAccept s k p && !before.any fun q => q.op.lane == p.op.lane || q.op.qs.any p.op.qs.contains then some p
    else nextPending s k (before ++ [p]) r

/-- The operation with its numbers, and the state in which it has entered its queues. -/
def State.enter (s : State) (k : Nat) (p : PendingOp) : EngOp × State :=
  let t := s.team k
  let c0 := p.op.qs.foldl min 7
  let op := { p.op with
    order := s.serial, issued := p.id
    token := BitVec.ofNat 32 (c0 * 2 ^ 29 + (t.queue c0).accepted % 2 ^ 29), seq := (t.queue c0).accepted }
  let faulted := op.qs.any fun c => (t.queue c).faulted
  let s1 := ({ s with serial := s.serial + 1 } : State).modTeam k fun t =>
    { t with pending := t.pending.filter fun q => q.id != p.id }
  let s2 := op.qs.foldl (fun s c => s.modQueue k c fun q =>
    ({ q with ops := q.ops ++ [{ op with seq := q.accepted }], accepted := q.accepted + 1 } : EngQueue).trim) s1
  let s3 := if faulted then s2 else s2.setScore op.order (p.spans.map fun e => (e.1, { e.2 with order := op.order }))
  let s4 := if faulted then s3.closeOp k op .cancelled (op.word .cancelled 0) else s3
  (op, (s4.settleFences k 128).kick k)

/-- Writes the token, handle or status to DST of every lane of an accepted instruction; `none` where an operand
queue is full. -/
def writeLanes (s : State) (k id : Nat) (w : Word) : List Nat → Option State
  | [] => some s
  | l :: r =>
    match opOf (s.thread k l) id with
    | none => writeLanes s k id w r
    | some o =>
      match writeResult s k l id o.dsts [w] with
      | none => none
      | some s1 => writeLanes s1 k id w r

/-- The lanes of an instruction trap at its acceptance. -/
def doomLanes (s : State) (k id : Nat) (c : Cause) (v : DWord) (ls : List Nat) : State :=
  ls.foldl (fun s l => doomOp s k l id c v) s

/-- The log entry of an instruction that issues once for its group: the issuing lane keeps its operands (R111,
R212). -/
def onceLog (i : Instr) (f : Fields) (here : DWord) (lane : Nat) (L : LCtx) : LaneM LogRec :=
  if L.lane = lane then logOperands i f i.shape here L
  else pure { at_ := here, instr := i, a := 0, b := 0, c := [], base := 0, data := [] }

/-- What an engine instruction has checked at issue: its operation, and the scoreboard entries it takes. -/
structure Prepared where
  op : EngOp
  spans : List (Nat × ScoreEntry)
  deriving DecidableEq, Repr

/-- The state in which an engine operation has issued: each executing lane has the instruction in flight, and the
operation waits for acceptance (R57, R208, R212). -/
def issuedOp (s1 : State) (g : Grp) (i : Instr) (f : Fields) (id la l : Nat) (p : Prepared) (lr : LogRec) (th : Thread) :
    State :=
  let s2 := (setThreads s1 g.k g.run.acc [(l, th)]).sideEffect g.k
  let blank : LogRec := { at_ := g.here, instr := i, a := 0, b := 0, c := [], base := 0, data := [], id := id }
  let s3 := g.e.foldl (fun s j => s.modThread g.k j fun th =>
    { th.incDc f.dc with
      ops := th.ops ++ [({ id := id, dsts := dstRegs false i.shape.d f.dst, dc := f.dc, win := la + 1, decided := false,
                           doomed := none, what := .other, log := some (if j = l then { lr with id := id } else blank) } : TOp)] }) s2
  let s4 := (reserveLog s3 g.k id la).modTeam g.k fun t =>
    { t with pending := t.pending ++ [{ op := { p.op with lane := l }, lanes := g.e, id := id, spans := p.spans }] }
  s4.pushOnce (.engineOpAccept g.k)

/-- Issues an engine operation once for the group (R212, R336, R447): the lowest executing lane gives the operands;
a failing check traps every executing lane. -/
def engineOp (s : State) (i : Instr) (x : XOps)
    (mk : State → Grp → LCtx → LogRec → Thread → Except AccStop (Prepared × Thread × State)) :
    Host.Outcome State Fault Refusal :=
  let f := ofX x
  let sh := i.shape
  let regs := srcRegs sh.a f.a ++ srcRegs sh.b f.b ++ srcRegs sh.c f.c ++ dstRegs false sh.d f.dst
  match prologue s f (fun st => opChecks st sh f) false regs true with
  | .error o => o
  | .ok g =>
    match g.e with
    | [] => next (finishNext s g)
    | l :: _ =>
      let id := s.serial
      let la := g.la s
      let s0 := { s with serial := s.serial + 1 }
      let dsts := dstRegs false sh.d f.dst
      let log := onceLog i f g.here l
      let r : Except AccStop (Prepared × LogRec × Thread × State) :=
        match logOperands i f sh g.here (g.lctx s l) (g.thread s l) with
        | .error e => .error e
        | .ok (lr, th) =>
          match mk s0 g (g.lctx s l) lr th with
          | .error e => .error e
          | .ok (p, th1, s1) => .ok (p, lr, th1, s1)
      match r with
      | .error .hold => waitLanes s g g.e
      | .error (.trap c v keep) =>
        next (finishNext (trapTracked s0 g id la dsts log
          (g.e.map fun j => (j, { cause := c, tval := v, tpc := g.here }, if j = l then keep else .nothing))) g)
      | .ok (p, lr, th, s1) => next (finishNext (issuedOp s1 g i f id la l p lr th) g)

/-! ### What an engine reads and writes (R172, R216, R465) -/

/-- Where an access of several parts fails: the first byte that fails by itself, in the first part that does. -/
def badByte (go : List (Nat × Nat) → RdRes) (cs : List (Nat × Nat)) (v : DWord) : DWord :=
  let fails := fun (p : Nat × Nat) =>
    match go [p] with
    | .trap _ _ => true
    | _ => false
  match cs.find? fails with
  | none => v
  | some p => BitVec.ofNat 64 (((List.range p.2).find? fun j => fails (p.1 + j, 1)).getD 0 + p.1)

/-- The first scratch address of `n` bytes that lies in no grant (R135). -/
def badScratchByte (s : State) (k : Nat) (a : DWord) (n : Nat) : DWord :=
  (a + BitVec.ofNat 64 (((List.range n).find? fun j => (s.scratchAt k (a.toNat + j) 1).isNone).getD 0)).lo.zext

/-- Reads `n` bytes of memory (space 0) or scratchpad for an engine operation of a team; a failure is recorded with the address
of the element that fails, a scratch address zero-extended from its 32 bits (R217, R327). -/
def engineRead (s : State) (k space : Nat) (a : DWord) (n : Nat) : RdRes :=
  if space = 0 then
    let cs := chunks (n / 128 + 2) a.toNat n
    let go := fun (ps : List (Nat × Nat)) => readVirtual (s.team k) (some (s.team k).agent) ps s
    match go cs with
    | .trap c v => .trap c (badByte go cs v)
    | r => r
  else
    match s.scratchAt k a.toNat n with
    | none => .trap .scratchRange (badScratchByte s k a n)
    | some (c, off) => .ok (s.scratchRead c off n) false s

/-- Writes parts of memory, each inside a line, for an engine or a device agent: a write waits for stores that go through
a page-table line it replaces (R183), and for tokens that are on their way to another agent (R125, R129; log 98). -/
def writeVirtual (k : Nat) (t : Team) (agent : Option AgentId) : List (Nat × Nat) → List Byte → State → RdRes
  | [], _, s => .ok [] false s
  | (a, n) :: r, bs, s =>
    let va := BitVec.ofNat 64 a
    match s.xlateEngine t agent .store va with
    | .error none => .wait s
    | .error (some c) => .trap c va
    | .ok (xl, s1) =>
      match s1.unreachable t.die xl.ty xl.pa with
      | some d => .trap .fabricUnreachable (unreachableTval xl.ty d va)
      | none =>
        if derivesFrom s1 none [lineOf xl.pa] || agent.any (fun a => s1.writeBlocked a xl.mode (lineOf xl.pa)) then .wait s
        else
          let ws := wholeBytes xl.pa (bs.take n)
          let s2 := s1.performWrite agent false xl.mode xl.master none ws
          writeVirtual k t agent r (bs.drop n)
            (noteTraffic (if xl.master then noteViews s2 t.ctx ws else s2) t.ctx xl.ty xl.pa)

/-- Writes bytes to memory (space 0) or scratchpad for an engine operation; a scratchpad write waits for the range
scoreboard. -/
def engineWrite (s : State) (k space order : Nat) (a : DWord) (bs : List Byte) : RdRes :=
  if space = 0 then
    let cs := chunks (bs.length / 128 + 2) a.toNat bs.length
    let go := fun (ps : List (Nat × Nat)) => writeVirtual k (s.team k) (some (s.team k).agent) ps bs s
    match go cs with
    | .trap c v => .trap c (badByte go cs v)
    | r => r
  else
    match s.scratchAt k a.toNat bs.length with
    | none => .trap .scratchRange (badScratchByte s k a bs.length)
    | some (c, off) =>
      if s.scoreHolds c off bs.length (some order) then .wait s
      else .ok [] false (s.scratchWrite c (wholeBytes off bs))

/-- Writes several pieces in order; the state of a failed sequence is dropped (R217 leaves open which writes of the
stopped row performed). -/
def engineWrites (k space order : Nat) : List (DWord × List Byte) → State → RdRes
  | [], s => .ok [] false s
  | (a, bs) :: r, s =>
    match engineWrite s k space order a bs with
    | .ok _ _ s1 => engineWrites k space order r s1
    | e => e

/-- Bytes of scratchpad as a thread's own load would read them (R159, R323). -/
def ownScratch (s : State) (k l : Nat) (a : DWord) (n : Nat) : Option (List Byte) :=
  match s.scratchAt k a.toNat n with
  | none => none
  | some (c, off) => some (overlay (s.team k) l s.serial (some c) off (s.scratchRead c off n))

/-- A recorded cause and address as R217 lays them out. -/
def causeWord (c : Cause) (v : DWord) : DWord := codeWord c v

/-- An operation stops for its supervisor team, which receives an engine report (R216, R327, R423). -/
def stopEngineOp (s : State) (k : Nat) (o : EngOp) (report c : Cause) (v : DWord) (rqid : DWord) : State :=
  let t := s.team k
  (s.modOp k o fun x => { x with state := .stopped c v }).postMail (s.mailCore t)
    (mboxWords t.ctx report (causeWord c v) o.token.zext 0 t.slot rqid 0 []) (.engine k o.order)

/-! ### Tokens (R374, R375) -/

/-- How a token stands. -/
inductive TokSt where
  | notIssued
  | pending
  | complete
  | bad (e : Ended)
  deriving DecidableEq, Repr

def tokCode (w : Word) : Nat := w.toNat / 2 ^ 29

/-- The judgement of an engine token against a team (R374). -/
def engineToken (t : Team) (w : Word) : TokSt :=
  let q := t.queue (tokCode w)
  let d := (q.accepted + 2 ^ 29 - 1 - w.toNat % 2 ^ 29) % 2 ^ 29
  if 2 ^ 28 ≤ d then .notIssued
  else if 64 ≤ d then .complete
  else
    let seq := q.accepted - 1 - d
    if q.ops.any fun o => o.seq == seq then .pending
    else
      match q.recent.find? fun e => e.seq == seq with
      | some e => if e.state.bad then .bad e else .complete
      | none => .complete

/-- Cause and TVAL of the trap for a faulted or cancelled operation of a queue (R217, R227, R240, R327, R449). -/
def endedTrap (code : Nat) (e : Ended) : Cause × DWord :=
  let own : Cause := if code = 4 then .matrixFault else .copyFault
  match e.state with
  | .faulted c v => if code = 5 || code = 6 then (c, v) else (own, causeWord c v)
  | _ => if code = 6 then (.remoteAccess, 0xFF00000000000000 ||| e.remote) else (own, causeWord own 0)

/-- The progress word that a MATRIX_FAULT trap leaves in PIDX (R327). DEDUCED (log 115): that of the moment at which the
operation stopped, with STATE 3, as the worked programme of R464 requires; MX.PROG reports STATE 5 from then on (R326). -/
def Ended.stopWord (e : Ended) : Word :=
  match e.state with
  | .faulted _ _ => BitVec.ofNat 32 (3 * 2 ^ 29 + e.word.toNat % 2 ^ 29)
  | _ => e.word

/-- A trap reports a faulted operation: its queue is RUNNING again, and the operations cancelled before are reported
with it (R217). -/
def EngQueue.report (q : EngQueue) (code : Nat) (e : Ended) : EngQueue :=
  match e.state with
  | .faulted _ _ =>
    if e.reported then q
    else if code = 5 then
      { q with recent := q.recent.map fun x => if x.order = e.order then { x with reported := true } else x }
    else
      { q with
        faulted := false
        recent := q.recent.map fun x => if x.state == .cancelled || x.order == e.order then { x with reported := true } else x }
  | _ => q

/-- The operations that a queue has reported, by their acceptance order. -/
def EngQueue.reported (q : EngQueue) : List Nat := (q.recent.filter fun e => e.reported).map (·.order)

/-- Reports an ended operation to a thread that traps for it; an operation that stood in several queues is reported in
each of them (R217, R227), and a MATRIX_FAULT trap leaves the progress word in PIDX (R327). -/
def reportEnded (s : State) (k l code : Nat) (e : Ended) : State :=
  let s0 := s.modQueue k code fun q => q.report code e
  let told := ((s0.team k).queue code).reported
  let s1 := s0.modTeam k fun t =>
    { t with engq := t.engq.map fun q =>
        { q with recent := q.recent.map fun x => if told.contains x.order then { x with reported := true } else x } }
  if code = 4 then s1.modThread k l fun th => { th with pidx := e.stopWord } else s1

/-- A wait ends in a trap at the waiting instruction, which has no other effect: what it has popped is in its queues again
(R5). -/
def trapWait (s : State) (k l : Nat) (c : Cause) (v : DWord) : State :=
  let th := s.thread k l
  let rc : Recorded := { trap := { cause := c, tval := v, tpc := th.waitPc }, log := none, resume := th.waitPc }
  let recs := (doomedOf { th with pc := th.waitPc }) ++ [rc]
  releaseLog ((s.modThread k l fun th => dropDoomed th.leaveWait).takeTraps k (recs.map fun r => (l, r))) k

/-- A thread's wait ends. -/
def endWait (s : State) (k l : Nat) : State := s.modThread k l fun th => { th with wait := none }

/-- The queue codes of a mask (R226). -/
def maskCodes (m : Nat) : List Nat := (List.range 7).filter fun c => fld m c 1 == 1

/-- QFENCE (R226, R227). -/
def execQfence (x : XOps) (s : State) : Host.Outcome State Fault Refusal :=
  engineOp s (.qfence x) x fun s _ L _ th =>
    .ok ({ op := { qs := maskCodes x.a.bits, instr := .qfence x, lane := L.lane, block := [], args := [] }, spans := [] }, th, s)

/-- QWAIT (R226, R227). -/
def execQwait (x : XOps) (s : State) : Host.Outcome State Fault Refusal :=
  match prologue s (ofX x) (fun st => opChecks st (Instr.shape (.qwait x)) (ofX x)) false [] false with
  | .error o => o
  | .ok g =>
    match g.await s with
    | some o => o
    | none =>
      let t := s.team g.k
      let marks := (maskCodes x.a.bits).map fun c => (c, (t.queue c).accepted)
      next (startWaits { s with serial := s.serial + 1 } g fun _ => some (.qwait s.serial marks))

/-- Every operation accepted before a QWAIT has completed. -/
def qwaitDone (t : Team) (marks : List (Nat × Nat)) : Bool :=
  marks.all fun m => !(t.queue m.1).ops.any fun o => o.seq < m.2

/-- The oldest operation a QWAIT must trap for, with its queue. -/
def qwaitBad (t : Team) (marks : List (Nat × Nat)) : Option (Nat × Ended) :=
  (marks.flatMap fun m => ((t.queue m.1).recent.filter fun e =>
    e.seq < m.2 && e.state.bad && !e.reported).map fun e => (m.1, e)).foldl
    (fun (b : Option (Nat × Ended)) e =>
      match b with
      | none => some e
      | some y => if e.2.order < y.2.order then some e else some y) none

/-- Ends the QWAIT of one issue group of a team (R227). -/
def wakeQwait (s : State) (k id : Nat) (marks : List (Nat × Nat)) : State :=
  let t := s.team k
  if qwaitDone t marks then
    let ls := (List.range t.threads.length).filter fun l => (t.thread l).wait == some (.qwait id marks)
    match qwaitBad t marks with
    | none => ls.foldl (fun s l => endWait s k l) s
    | some (c, e) =>
      let tr := endedTrap c e
      ls.foldl (fun s l => trapWait (reportEnded s k l c e) k l tr.1 tr.2) s
  else s

/-! ### TOKEN.WAIT and TOKEN.TEST -/

/-- A section token names the slot of a request in progress (R374). -/
def slotOf (th : Thread) (w : Word) : Option Slot :=
  match aget th.slots (fld w.toNat 0 3) with
  | some sl => if decide (sl.seq % 2 ^ 26 = fld w.toNat 3 26) then some sl else none
  | none => none

/-- Cause and TVAL of a section that did not end in results (R381, R384). -/
def shipTrap : ShipEnd → Option (Cause × DWord)
  | .results _ => none
  | .refused r => some (.shipRefused, BitVec.ofNat 64 r)
  | .faulted v => some (.shipFaulted, v)

/-- Frees a result slot. -/
def freeSlot (s : State) (k l : Nat) (w : Word) : State :=
  s.modThread k l fun th => { th with slots := adel th.slots (fld w.toNat 0 3) }

/-- The 32-bit source 0 of a lane. -/
def readWord32 (x : XOps) (s : State) (L : LCtx) (th : Thread) : Except AccStop (Word × Thread × State) :=
  match srcA L .int .w32 (ofX x) th with
  | .error e => .error e
  | .ok (a, th) => .ok (DWord.lo a, th, s)

/-- TOKEN.WAIT (R375). -/
def execTokenWait (x : XOps) (s : State) : Host.Outcome State Fault Refusal :=
  lanesThen s (.tokenWait x) x Grp.await (readWord32 x) fun s g vals traps =>
      let st := trapLanes { s with serial := s.serial + 1 } g.k g.idx g.run.acc traps
      next (finishNext (vals.foldl (fun st p => st.modThread g.k p.1 fun th =>
        { th with wait := some (.token s.serial x.dst.toNat p.2), waitPc := g.here }) st) g)

/-- Ends the TOKEN.WAIT of a thread if its token allows it (R375); `t` is the team as the step finds it, so that the
threads of one group meet a fault together (R217). -/
def wakeToken (s : State) (k l : Nat) (t : Team) (dst : Nat) (w : Word) : State :=
  if tokCode w = 7 then
    match slotOf (t.thread l) w with
    | none => trapWait s k l .tokenInvalid w.zext
    | some sl =>
      match sl.result with
      | none => s
      | some (.results vs) =>
        (freeSlot s k l w).modThread k l fun th => { th.setVs dst (vs.take 4) with wait := none }
      | some r =>
        match shipTrap r with
        | some (c, v) => trapWait (freeSlot s k l w) k l c v
        | none => s
  else
    match engineToken t w with
    | .notIssued => trapWait s k l .tokenInvalid w.zext
    | .pending => s
    | .complete => endWait s k l
    | .bad e =>
      let tr := endedTrap (tokCode w) e
      trapWait (reportEnded s k l (tokCode w) e) k l tr.1 tr.2

/-- What TOKEN.TEST finds for one lane: the value, or the trap, and the state after. -/
def tokenTestOne (s : State) (k l : Nat) (w : Word) : Except (Cause × DWord) Word × State :=
  let t := s.team k
  if tokCode w = 7 then
    match slotOf (t.thread l) w with
    | none => (.ok 3, s)
    | some sl =>
      match sl.result with
      | none => (.ok 0, s)
      | some r =>
        match shipTrap r with
        | none => (.ok 1, s)
        | some e => (.error e, freeSlot s k l w)
  else
    match engineToken t w with
    | .notIssued => (.ok 3, s)
    | .pending => (.ok 0, s)
    | .complete => (.ok 1, s)
    | .bad e => (.error (endedTrap (tokCode w) e), reportEnded s k l (tokCode w) e)

/-- Writes one word per lane to DST; the lanes whose operand queue is full hold the pipe. -/
def writeEach (s : State) (i : Instr) (f : Fields) (g : Grp) (vals : List (Nat × Word)) :
    List (Nat × Except LaneStop (Unit × Thread)) :=
  vals.map fun p => (p.1, writeDst (g.lctx s p.1) i.shape.d f.dst [p.2] (g.thread s p.1))

/-- The words found, by lane. -/
def foundWords (vals : List (Nat × Except (Cause × DWord) Word)) : List (Nat × Word) :=
  vals.filterMap fun p =>
    match p.2 with
    | .ok w => some (p.1, w)
    | .error _ => none

/-- The traps found, by lane. -/
def foundTraps (g : Grp) (vals : List (Nat × Except (Cause × DWord) Word)) : List (Nat × TrapRec × Retain) :=
  vals.filterMap fun p =>
    match p.2 with
    | .ok _ => none
    | .error (c, v) => some (trapAt g p.1 c v)

/-- Completes an instruction that gives each lane one word or a trap. -/
def completeWords (s0 s : State) (i : Instr) (f : Fields) (g : Grp) (vals : List (Nat × Except (Cause × DWord) Word))
    (traps : List (Nat × TrapRec × Retain)) : Host.Outcome State Fault Refusal :=
  let rs := writeEach s i f g (foundWords vals)
  if anyHold rs then waitLanes s0 g (holdsOf rs)
  else
    let bad := foundTraps g vals ++ trapsOf g.here rs
    let s1 := complete (undoLanes s0 s g (bad.map (·.1))) g ((oksOf rs).map fun p => (p.1, p.2.2)) (traps ++ bad)
    next (pairEvents s1 g.k i.shape.d f.dst ((oksOf rs).map (·.1)))

/-- What a form finds for the token of each lane, in lane order. -/
def lookUp (k : Nat) (act : State → Nat → Nat → Word → Except (Cause × DWord) Word × State) :
    List (Nat × Word) → State → List (Nat × Except (Cause × DWord) Word) × State
  | [], s => ([], s)
  | p :: r, s =>
    let a := act s k p.1 p.2
    let q := lookUp k act r a.2
    ((p.1, a.1) :: q.1, q.2)

/-- A form that gives each lane one word, or a trap, for the token it reads; a lane whose destination queue reports a
fault traps before the form acts (R5, R252). -/
def tokenForm (i : Instr) (x : XOps) (s : State)
    (act : State → Nat → Nat → Word → Except (Cause × DWord) Word × State) : Host.Outcome State Fault Refusal :=
  lanesThen s i x noWait (readWord32 x) fun s1 g vals traps =>
    let bad := trapsOf g.here (writeEach s1 i (ofX x) g (vals.map fun p => (p.1, 0)))
    let q := lookUp g.k act (vals.filter fun p => !bad.any fun b => b.1 == p.1) s1
    completeWords s (undoLanes s q.2 g (bad.map (·.1))) i (ofX x) g q.1 (traps ++ bad)

/-- TOKEN.TEST (R375). -/
def execTokenTest (x : XOps) (s : State) : Host.Outcome State Fault Refusal := tokenForm (.tokenTest x) x s tokenTestOne

end Sys2Proof.Machine
end

