-- ==== Sys2Proof/Machine/Functions.lean ====
section
/-! DEFINITION. The functions of R301 and R302 by exact rational enclosures: an interval of integers in units
of 2^-q that holds the mathematical value; when both ends round to one result, that is the correctly rounded
one, and otherwise the enclosure is made twice as precise (log 87). -/

namespace Sys2Proof.Machine

/-- Division rounded up. -/
def ceilDiv (a b : Nat) : Nat := (a + b - 1) / b

/-- An interval of non-negative numbers in units of 2^-q. -/
structure Enc where
  lo : Nat
  hi : Nat
  deriving DecidableEq, Repr

/-- Terms x^k / k! of a power series, each enclosed; `step` says which factors a term gains. -/
def expTerms (q : Nat) (x : Enc) : Nat → Nat → Enc → List Enc
  | 0, _, _ => []
  | n + 1, k, t => t :: expTerms q x n (k + 1) ⟨t.lo * x.lo / (2 ^ q * (k + 1)), ceilDiv (t.hi * x.hi) (2 ^ q * (k + 1))⟩

/-- exp x: the sum of `n` terms, and a tail of at most twice the last one. -/
def expEnc (q n : Nat) (x : Enc) : Enc :=
  let ts := expTerms q x n 0 ⟨2 ^ q, 2 ^ q⟩
  ⟨ts.foldl (fun s t => s + t.lo) 0, ts.foldl (fun s t => s + t.hi) 0 + 2 * (ts.getLast?.map Enc.hi).getD 0⟩

/-- ln 2 = the sum of 1 / (k 2^k). -/
def ln2Enc (q : Nat) : Enc :=
  let s := (List.range q).foldl (fun s k => s + 2 ^ q / ((k + 1) * 2 ^ (k + 1))) 0
  ⟨s, s + q + 2⟩

/-- Terms of arctan (1/n): 2^q / (n^(2k+1) (2k+1)). -/
def atanInv (q n : Nat) : Nat → Nat → Nat → Int
  | 0, _, _ => 0
  | m + 1, k, p => (if k % 2 = 0 then (1 : Int) else -1) * ((p / (2 * k + 1) : Nat) : Int) + atanInv q n m (k + 1) (p / (n * n))

/-- π/2 by Machin's formula: 8 arctan(1/5) - 2 arctan(1/239). -/
def halfPiEnc (q : Nat) : Enc :=
  let a := 8 * atanInv q 5 q 0 (2 ^ q / 5) - 2 * atanInv q 239 q 0 (2 ^ q / 239)
  ⟨a.toNat - 40 * q, a.toNat + 40 * q⟩

/-- An interval of a signed value. -/
structure SEnc where
  lo : Int
  hi : Int
  deriving DecidableEq, Repr

/-- A value strictly inside an interval in units of 2^-q, correctly rounded: `none` where its ends round
differently. -/
def FpFmt.roundEnc (f : FpFmt) (mode : Rnd) (q : Int) (e : SEnc) : Option FpRes :=
  if 0 ≤ e.lo then
    let a := f.round false mode false e.lo.toNat (-q) true
    let b := f.round false mode false (e.hi - 1).toNat (-q) true
    if 0 < e.lo && a == b then some a else none
  else if e.hi ≤ 0 then
    let a := f.round false mode true (-e.hi).toNat (-q) true
    let b := f.round false mode true (-e.lo - 1).toNat (-q) true
    if e.hi < 0 && a == b then some a else none
  else none

/-- The correctly rounded value of a number whose enclosures `enc` gives, in units of 2^-s for the `s` beside each: the first
enclosure that decides the rounding, each twice as precise as the one before. The last one's middle is rounded if none
decides (log 87). -/
def FpFmt.roundBy (f : FpFmt) (mode : Rnd) (enc : Nat → Int × SEnc) : Nat → Nat → FpRes
  | 0, q =>
    let v := ((enc q).2.lo + (enc q).2.hi) / 2
    f.round false mode (decide (v < 0)) v.natAbs (-(enc q).1) true
  | n + 1, q =>
    match f.roundEnc mode (enc q).1 (enc q).2 with
    | some r => r
    | none => f.roundBy mode enc n (2 * q)

/-- Times that the precision is doubled. -/
def doublings : Nat := 8

/-- Integer part and fraction, in units of 2^-q, of (-1)^neg × m × 2^e; `e` is at least -q. -/
def splitInt (q : Nat) (neg : Bool) (m : Nat) (e : Int) : Int × Nat :=
  let v : Int := scaled neg m e (-(q : Int))
  (v / ((2 ^ q : Nat) : Int), (v % ((2 ^ q : Nat) : Int)).toNat)

/-- 2^a of a finite nonzero operand (R302). -/
def FpFmt.exp2 (f : FpFmt) (mode : Rnd) (neg : Bool) (m : Nat) (e : Int) : FpRes :=
  if 2 ^ 12 < m * 2 ^ e.toNat && 0 ≤ e then f.round false mode false 1 (if neg then -4096 else 4096) false
  else
    let (k0, fr0) := splitInt 320 neg m e
    let k : Int := if k0 < -4096 then -4096 else if 4096 < k0 then 4096 else k0
    if fr0 = 0 then f.round false mode false 1 k false
    else
      f.roundBy mode (fun q =>
        let l := ln2Enc q
        let fr := fr0 * 2 ^ (q - 320)
        let y := expEnc q (q / 4) ⟨fr * l.lo / 2 ^ q, ceilDiv (fr * l.hi) (2 ^ q)⟩
        (q - k, ⟨y.lo, y.hi⟩)) doublings 320

/-- artanh z: the sum of z^(2k+1) / (2k+1), with its tail. -/
def artanhSum (q : Nat) (z2 : Enc) : Nat → Nat → Enc → Enc
  | 0, _, p => ⟨0, 2 * p.hi⟩
  | n + 1, k, p =>
    let r := artanhSum q z2 n (k + 1) ⟨p.lo * z2.lo / 2 ^ q, ceilDiv (p.hi * z2.hi) (2 ^ q)⟩
    ⟨p.lo / (2 * k + 1) + r.lo, ceilDiv p.hi (2 * k + 1) + r.hi⟩

/-- log2 a of a finite positive operand (R302). -/
def FpFmt.log2 (f : FpFmt) (mode : Rnd) (m : Nat) (e : Int) : FpRes :=
  let t := Nat.log2 m
  let k : Int := e + t
  if m = 2 ^ t then f.round false mode (decide (k < 0)) k.natAbs 0 false
  else
    f.roundBy mode (fun q =>
      let num := (m - 2 ^ t) * 2 ^ q
      let den := m + 2 ^ t
      let z : Enc := ⟨num / den, num / den + 1⟩
      let z2 : Enc := ⟨z.lo * z.lo / 2 ^ q, ceilDiv (z.hi * z.hi) (2 ^ q)⟩
      let s := artanhSum q z2 (q * 3 / 8) 0 z
      let l := ln2Enc q
      let r : SEnc := ⟨((2 * s.lo * 2 ^ q / l.hi : Nat) : Int), ((ceilDiv (2 * s.hi * 2 ^ q) l.lo : Nat) : Int)⟩
      let b : Int := k * ((2 ^ q : Nat) : Int)
      (q, ⟨r.lo + b, r.hi + b⟩)) doublings 320

/-- Alternating sum of every second term: `off` 0 for cos, 1 for sin. -/
def trigSum : List Enc → Nat → Nat → SEnc
  | [], _, _ => ⟨0, 0⟩
  | t :: r, k, off =>
    let s := trigSum r (k + 1) off
    if k % 2 ≠ off then s
    else if k / 2 % 2 = 0 then ⟨s.lo + t.lo, s.hi + t.hi⟩
    else ⟨s.lo - t.hi, s.hi - t.lo⟩

def SEnc.neg (e : SEnc) : SEnc := ⟨-e.hi, -e.lo⟩

/-- An enclosure of sin or cos of m × 2^e radians in units of 2^-q: the argument less a multiple of π/2, and a power
series. -/
def trigEnc (isCos neg : Bool) (m : Nat) (e : Int) (q : Nat) : SEnc :=
  let x := m * 2 ^ (e + q).toNat
  let p := halfPiEnc q
  let k := x / p.hi
  let r : Enc := ⟨x - k * p.hi, x - k * p.lo⟩
  let ts := expTerms q r (q / 4 + 10) 0 ⟨2 ^ q, 2 ^ q⟩
  let tail : Int := 2 * (((ts.getLast?.map Enc.hi).getD 0 : Nat) : Int)
  let widen (v : SEnc) : SEnc := ⟨v.lo - tail, v.hi + tail⟩
  let sn := widen (trigSum ts 0 1)
  let cs := widen (trigSum ts 0 0)
  let v : SEnc :=
    match (k + if isCos then 1 else 0) % 4 with
    | 0 => sn
    | 1 => cs
    | 2 => sn.neg
    | _ => cs.neg
  if neg && !isCos then v.neg else v

/-- sin or cos of a finite nonzero operand in radians, with full argument reduction (R301). -/
def FpFmt.trig (f : FpFmt) (mode : Rnd) (isCos neg : Bool) (m : Nat) (e : Int) : FpRes :=
  f.roundBy mode (fun q => ((q : Int), trigEnc isCos neg m e q)) doublings 600

/-- tanh of a finite nonzero operand: (e^2x - 1) / (e^2x + 1). -/
def FpFmt.tanh (f : FpFmt) (mode : Rnd) (neg : Bool) (m : Nat) (e : Int) : FpRes :=
  f.roundBy mode (fun q =>
    let x := m * 2 ^ (e + q + 1).toNat
    let v : SEnc :=
      if 2 ^ (q + 7) < x then ⟨2 ^ q - 2 ^ (q - 120), 2 ^ q⟩
      else
        let y := expEnc q (q * 3 / 2) ⟨x, x⟩
        let one := 2 ^ q
        ⟨(((y.lo - one) * one / (y.lo + one) : Nat) : Int), ((ceilDiv ((y.hi - one) * one) (y.hi + one) : Nat) : Int)⟩
    ((q : Int), if neg then v.neg else v)) doublings 600

/-- 1 ÷ √a of a finite positive operand, rounded once. -/
def FpFmt.rsqrt (f : FpFmt) (mode : Rnd) (m : Nat) (e : Int) : FpRes :=
  let (m, e) := if e % 2 = 0 then (m, e) else (2 * m, e - 1)
  let k := 2 * f.fbits + 8 + Nat.log2 m
  let x := 2 ^ (2 * k) / m
  let r := isqrt x (Nat.log2 x / 2 + 1) 0
  f.round false mode false r (-(k : Int) - e / 2) (r * r * m != 2 ^ (2 * k))

/-- One of the rounding functions of R301. -/
inductive FpFun where
  | rcp | rsq | sqrt | exp2 | log2 | sin | cos | tanh
  deriving DecidableEq, Repr

/-- The value of a rounding function with its special operands (R302). -/
def FpFmt.apply (f : FpFmt) (g : FpFun) (mode : Rnd) (a : FpVal) : FpRes :=
  let one := f.ofInt 1
  match a with
  | .nan s => f.qnan.raise (if s then flIV else 0)
  | .inf n =>
    match g with
    | .rcp => ⟨f.signBit n, 0⟩
    | .rsq => if n then f.invalid else ⟨0, 0⟩
    | .sqrt | .log2 => if n then f.invalid else ⟨f.infBits false, 0⟩
    | .exp2 => if n then ⟨0, 0⟩ else ⟨f.infBits false, 0⟩
    | .sin | .cos => f.invalid
    | .tanh => ⟨f.signBit n + one, 0⟩
  | .fin n m e =>
    if m = 0 then
      match g with
      | .rcp | .rsq => ⟨f.infBits n, flDZ⟩
      | .sqrt | .sin | .tanh => ⟨f.signBit n, 0⟩
      | .exp2 | .cos => ⟨one, 0⟩
      | .log2 => ⟨f.infBits true, flDZ⟩
    else
      match g with
      | .rcp => f.div mode (.fin false 1 0) a
      | .rsq => if n then f.invalid else f.rsqrt mode m e
      | .sqrt => f.sqrt mode a
      | .exp2 => f.exp2 mode n m e
      | .log2 => if n then f.invalid else f.log2 mode m e
      | .sin => f.trig mode false n m e
      | .cos => f.trig mode true n m e
      | .tanh => f.tanh mode n m e

end Sys2Proof.Machine
end

