-- ==== Sys2Proof/Machine/Integer.lean ====
section
/-! DEFINITION. Integer arithmetic, bits and logic, and integer comparisons (R284 to R294). -/

namespace Sys2Proof.Machine

/-- Bits of an integer or bit-string type (R265). -/
def intBits : Ty → Nat
  | .s4 | .n4 => 4
  | .s8 | .n8 => 8
  | .s16 | .n16 => 16
  | .s64 | .n64 | .b64 | .f64 => 64
  | _ => 32

def isSigned : Ty → Bool
  | .s4 | .s8 | .s16 | .s32 | .s64 => true
  | _ => false

/-- The number that the low bits of a value stand for at a type (R265, R284). -/
def intVal (ty : Ty) (x : DWord) : Int :=
  let w := intBits ty
  let u := x.toNat % 2 ^ w
  if isSigned ty && decide (2 ^ (w - 1) ≤ u) then (u : Int) - (2 ^ w : Nat) else (u : Int)

/-- Smallest and largest value of a type (R265). -/
def tyMin (ty : Ty) : Int := if isSigned ty then -(2 ^ (intBits ty - 1) : Nat) else 0
def tyMax (ty : Ty) : Int :=
  if isSigned ty then (2 ^ (intBits ty - 1) : Nat) - 1 else (2 ^ intBits ty : Nat) - 1

/-- Clamp of R290. -/
def clamp (lo hi x : Int) : Int := if x < lo then lo else if hi < x then hi else x

/-- An integer modulo 2^64. -/
def ofInt64 (x : Int) : DWord := BitVec.ofInt 64 x

/-- A result at a type as the words of its destination (R284): a pair for 64-bit types. -/
def tyWords (ty : Ty) (x : DWord) : List Word :=
  match ty.width with
  | .w64 => [x.lo, x.hi]
  | _ => [x.lo]

/-- Reduction of an exact result (R290): modulo the width, or clamped. -/
def reduceInt (ty : Ty) (sat : Bool) (x : Int) : DWord := ofInt64 (if sat then clamp (tyMin ty) (tyMax ty) x else x)

/-! ### Values (R288, R290, R291, R293) -/

def mulHigh (ty : Ty) (a b : Int) : Int := a * b / ((2 ^ intBits ty : Nat) : Int)

/-- IDIV (R291): truncated division; division by zero gives all ones. -/
def divVal (ty : Ty) (sat : Bool) (a b : Int) : DWord :=
  if b = 0 then ofInt64 (-1) else reduceInt ty (sat && isSigned ty) (Int.tdiv a b)

/-- IREM (R291): the remainder has the sign of the dividend; by zero it is the dividend. -/
def remVal (a b : Int) : DWord := if b = 0 then ofInt64 a else ofInt64 (Int.tmod a b)

def minVal (a b : Int) : Int := if b < a then b else a
def maxVal (a b : Int) : Int := if a < b then b else a

/-- Shifts and rotations at a width (R293); `n` is the amount as .n32. -/
def shlVal (w a n : Nat) : Nat := if w ≤ n then 0 else a * 2 ^ n % 2 ^ w
def shrVal (w a n : Nat) : Nat := if w ≤ n then 0 else a % 2 ^ w / 2 ^ n
def shaVal (w a n : Nat) : Nat :=
  let neg := a / 2 ^ (w - 1) % 2 == 1
  if w ≤ n then (if neg then 2 ^ w - 1 else 0)
  else if neg then 2 ^ w - 1 - (2 ^ w - 1 - a % 2 ^ w) / 2 ^ n else a % 2 ^ w / 2 ^ n
def rotlVal (w a n : Nat) : Nat :=
  let k := n % w
  let a := a % 2 ^ w
  (a * 2 ^ k + a / 2 ^ (w - k)) % 2 ^ w

/-- Position and length of a bit field in a control word (R293). -/
def fieldPos (w ctl : Nat) : Nat := min (ctl % 256) w
def fieldLen (w ctl : Nat) : Nat := min (ctl / 256 % 256) (w - fieldPos w ctl)

def bfxVal (ty : Ty) (a ctl : Nat) : Int :=
  let w := intBits ty
  let l := fieldLen w ctl
  let x := fld a (fieldPos w ctl) l
  if l = 0 then 0
  else if isSigned ty && x / 2 ^ (l - 1) % 2 == 1 then (x : Int) - (2 ^ l : Nat) else (x : Int)

def bfiVal (w a b ctl : Nat) : Nat :=
  let p := fieldPos w ctl
  let l := fieldLen w ctl
  let a := a % 2 ^ w
  a / 2 ^ (p + l) * 2 ^ (p + l) + b % 2 ^ l * 2 ^ p + a % 2 ^ p

/-- Number of 1 bits among the low `w` bits. -/
def popVal : Nat → Nat → Nat
  | 0, _ => 0
  | w + 1, a => a % 2 + popVal w (a / 2)

/-- Zeros below the lowest 1 bit. -/
def ctzVal : Nat → Nat → Nat
  | 0, _ => 0
  | w + 1, a => if a % 2 = 1 then 0 else 1 + ctzVal w (a / 2)

/-- The bits of `a` in reverse order. -/
def brevVal : Nat → Nat → Nat
  | 0, _ => 0
  | w + 1, a => a % 2 * 2 ^ w + brevVal w (a / 2)

/-- Zeros above the highest 1 bit. -/
def clzVal (w a : Nat) : Nat := ctzVal w (brevVal w a)

/-- Conditions of ISET and ICMP (R78). -/
def iCondHolds (c : ICond) (a b : Int) : Bool :=
  match c with
  | .eq => decide (a = b)
  | .ne => decide (a ≠ b)
  | .lt => decide (a < b)
  | .le => decide (a ≤ b)
  | .gt => decide (b < a)
  | .ge => decide (b ≤ a)

/-! ### Shapes of meanings -/

/-- A one-word form on two 32-bit sources (R288). -/
def word2 (i : Instr) (f : Fields) (s : State) (v : Word → Word → Word) : Host.Outcome State Fault Refusal :=
  valueOp s i f false fun L => do
    let a ← srcA L .int .w32 f
    let b ← srcB L .int .w32 f
    return [v a.lo b.lo]

/-- A form on two sources at TYPE read as numbers, with a result at TYPE (R290). -/
def int2 (i : Instr) (u : Bool) (x : XOps) (s : State) (v : Int → Int → DWord) : Host.Outcome State Fault Refusal :=
  let f := ofX x
  valueOp s i f u fun L => do
    let a ← srcA L .int x.ty.width f
    let b ← srcB L .int x.ty.width f
    return tyWords x.ty (v (intVal x.ty a) (intVal x.ty b))

/-- A form on one source at TYPE (R290). -/
def int1 (i : Instr) (u : Bool) (x : XOps) (s : State) (v : Int → DWord) : Host.Outcome State Fault Refusal :=
  let f := ofX x
  valueOp s i f u fun L => do
    let a ← srcA L .int x.ty.width f
    return tyWords x.ty (v (intVal x.ty a))

/-- A form on bit strings: source 0 at TYPE and source 1 at a width (R292). -/
def bits2 (i : Instr) (u : Bool) (x : XOps) (w : Width) (s : State) (v : Nat → Nat → DWord) :
    Host.Outcome State Fault Refusal :=
  let f := ofX x
  valueOp s i f u fun L => do
    let a ← srcA L .int x.ty.width f
    let b ← srcB L .int w f
    return tyWords x.ty (v a.toNat b.toNat)

/-- A form on one bit string (R292). -/
def bits1 (i : Instr) (u : Bool) (x : XOps) (s : State) (v : Nat → List Word) : Host.Outcome State Fault Refusal :=
  let f := ofX x
  valueOp s i f u fun L => do
    let a ← srcA L .int x.ty.width f
    return v (a.toNat % 2 ^ intBits x.ty)

/-- Division and remainder (R291): FPMODE.TIDZ makes a zero divisor trap. -/
def divOp (i : Instr) (u : Bool) (x : XOps) (s : State) (v : Int → Int → DWord) : Host.Outcome State Fault Refusal :=
  let f := ofX x
  valueOp s i f u fun L => do
    let a ← srcA L .int x.ty.width f
    let b ← srcB L .int x.ty.width f
    let th ← getTh
    if intVal x.ty b = 0 && th.fpmode.getLsbD 3 then trapWith .intDivZero 0
    else return tyWords x.ty (v (intVal x.ty a) (intVal x.ty b))

/-! ### Meanings -/

/-- iaddA (R288). -/
def execIaddA (o : AOps) (s : State) : Host.Outcome State Fault Refusal :=
  word2 (.iaddA o) (ofA o) s fun a b => a + b

/-- isubA (R288). -/
def execIsubA (o : AOps) (s : State) : Host.Outcome State Fault Refusal :=
  word2 (.isubA o) (ofA o) s fun a b => a - b

/-- imulA (R288). -/
def execImulA (o : AOps) (s : State) : Host.Outcome State Fault Refusal :=
  word2 (.imulA o) (ofA o) s fun a b => a * b

/-- andA (R288). -/
def execAndA (o : AOps) (s : State) : Host.Outcome State Fault Refusal :=
  word2 (.andA o) (ofA o) s fun a b => a &&& b

/-- orA (R288). -/
def execOrA (o : AOps) (s : State) : Host.Outcome State Fault Refusal :=
  word2 (.orA o) (ofA o) s fun a b => a ||| b

/-- xorA (R288). -/
def execXorA (o : AOps) (s : State) : Host.Outcome State Fault Refusal :=
  word2 (.xorA o) (ofA o) s fun a b => a ^^^ b

/-- iaddB (R288, R293): IMM9 is sign-extended. -/
def execIaddB (o : BOps) (s : State) : Host.Outcome State Fault Refusal :=
  word2 (.iaddB o) (ofB o) s fun a b => a + b

/-- shlB (R288, R293): IMM9 is sign-extended. -/
def execShlB (o : BOps) (s : State) : Host.Outcome State Fault Refusal :=
  word2 (.shlB o) (ofB o) s fun a b => BitVec.ofNat 32 (shlVal 32 a.toNat b.toNat)

/-- shrB (R288, R293): IMM9 is sign-extended. -/
def execShrB (o : BOps) (s : State) : Host.Outcome State Fault Refusal :=
  word2 (.shrB o) (ofB o) s fun a b => BitVec.ofNat 32 (shrVal 32 a.toNat b.toNat)

/-- shaB (R288, R293): IMM9 is sign-extended. -/
def execShaB (o : BOps) (s : State) : Host.Outcome State Fault Refusal :=
  word2 (.shaB o) (ofB o) s fun a b => BitVec.ofNat 32 (shaVal 32 a.toNat b.toNat)

/-- iaddL (R288, R41). -/
def execIaddL (o : LOps) (s : State) : Host.Outcome State Fault Refusal :=
  word2 (.iaddL o) (ofL o) s fun a b => a + b

/-- andL (R288, R41). -/
def execAndL (o : LOps) (s : State) : Host.Outcome State Fault Refusal :=
  word2 (.andL o) (ofL o) s fun a b => a &&& b

/-- IMIN, one word (R288). -/
def execIminA (o : AOps) (s : State) : Host.Outcome State Fault Refusal :=
  word2 (.iminA o) (ofA o) s fun a b => if b.toInt < a.toInt then b else a

/-- IMAX, one word (R288). -/
def execImaxA (o : AOps) (s : State) : Host.Outcome State Fault Refusal :=
  word2 (.imaxA o) (ofA o) s fun a b => if a.toInt < b.toInt then b else a

/-- IADD.s64 on pairs (R288). -/
def execIaddS64A (o : AOps) (s : State) : Host.Outcome State Fault Refusal :=
  let f := ofA o
  valueOp s (.iaddS64A o) f false fun L => do
    let a ← srcA L .int .w64 f
    let b ← srcB L .int .w64 f
    return [(a + b).lo, (a + b).hi]

/-- iaddX (R290). -/
def execIaddX (u : Bool) (x : XOps) (s : State) : Host.Outcome State Fault Refusal :=
  int2 (.iaddX u x) u x s fun a b => reduceInt x.ty x.ovf (a + b)

/-- isubX (R290). -/
def execIsubX (u : Bool) (x : XOps) (s : State) : Host.Outcome State Fault Refusal :=
  int2 (.isubX u x) u x s fun a b => reduceInt x.ty x.ovf (a - b)

/-- imulX (R290). -/
def execImulX (u : Bool) (x : XOps) (s : State) : Host.Outcome State Fault Refusal :=
  int2 (.imulX u x) u x s fun a b => reduceInt x.ty x.ovf (a * b)

/-- IMULH (R290). -/
def execImulh (u : Bool) (x : XOps) (s : State) : Host.Outcome State Fault Refusal :=
  int2 (.imulh u x) u x s fun a b => ofInt64 (mulHigh x.ty a b)

/-- IMAD (R290). -/
def execImad (u : Bool) (x : XOps) (s : State) : Host.Outcome State Fault Refusal :=
  let f := ofX x
  valueOp s (.imad u x) f u fun L => do
    let a ← srcA L .int x.ty.width f
    let b ← srcB L .int x.ty.width f
    let c ← srcC L .int x.ty.width f
    return tyWords x.ty (reduceInt x.ty x.ovf (intVal x.ty a * intVal x.ty b + intVal x.ty c))

/-- IDIV (R291). -/
def execIdiv (u : Bool) (x : XOps) (s : State) : Host.Outcome State Fault Refusal :=
  divOp (.idiv u x) u x s (divVal x.ty x.ovf)

/-- IREM (R291). -/
def execIrem (u : Bool) (x : XOps) (s : State) : Host.Outcome State Fault Refusal :=
  divOp (.irem u x) u x s remVal

/-- IMIN (R290). -/
def execIminX (u : Bool) (x : XOps) (s : State) : Host.Outcome State Fault Refusal :=
  int2 (.iminX u x) u x s fun a b => ofInt64 (minVal a b)

/-- IMAX (R290). -/
def execImaxX (u : Bool) (x : XOps) (s : State) : Host.Outcome State Fault Refusal :=
  int2 (.imaxX u x) u x s fun a b => ofInt64 (maxVal a b)

/-- IABS (R290). -/
def execIabs (u : Bool) (x : XOps) (s : State) : Host.Outcome State Fault Refusal :=
  int1 (.iabs u x) u x s fun a => reduceInt x.ty x.ovf (if a < 0 then -a else a)

/-- INEG (R290). -/
def execIneg (u : Bool) (x : XOps) (s : State) : Host.Outcome State Fault Refusal :=
  int1 (.ineg u x) u x s fun a => reduceInt x.ty x.ovf (-a)

/-- IADDC (R290): the sum and the carry-out. -/
def execIaddc (u : Bool) (x : XOps) (s : State) : Host.Outcome State Fault Refusal :=
  let f := ofX x
  valueOp s (.iaddc u x) f u fun L => do
    let a ← srcA L .int .w32 f
    let b ← srcB L .int .w32 f
    let c ← srcC L .int .w32 f
    let sum := a.toNat % 2 ^ 32 + b.toNat % 2 ^ 32 + c.toNat % 2
    return [BitVec.ofNat 32 sum, BitVec.ofNat 32 (sum / 2 ^ 32)]

/-- ISAT (R290): source 0 is .s32, TYPE names the range. -/
def execIsat (u : Bool) (x : XOps) (s : State) : Host.Outcome State Fault Refusal :=
  let f := ofX x
  valueOp s (.isat u x) f u fun L => do
    let a ← srcA L .int .w32 f
    return [(ofInt64 (clamp (tyMin x.ty) (tyMax x.ty) (intVal .s32 a))).lo]

/-- LEA (R290). -/
def execLea (u : Bool) (x : XOps) (s : State) : Host.Outcome State Fault Refusal :=
  let f := ofX x
  valueOp s (.lea u x) f u fun L => do
    let a ← srcA L .int .w64 f
    let b ← srcB L .int .w32 f
    let r := a + ofInt64 (intVal x.ty b * ((2 ^ (f.c.bits % 8) : Nat) : Int))
    return [r.lo, r.hi]

/-- andX (R293). -/
def execAndX (u : Bool) (x : XOps) (s : State) : Host.Outcome State Fault Refusal :=
  bits2 (.andX u x) u x x.ty.width s fun a b => (fun (a b : DWord) => a &&& b) (BitVec.ofNat 64 a) (BitVec.ofNat 64 b)

/-- orX (R293). -/
def execOrX (u : Bool) (x : XOps) (s : State) : Host.Outcome State Fault Refusal :=
  bits2 (.orX u x) u x x.ty.width s fun a b => (fun (a b : DWord) => a ||| b) (BitVec.ofNat 64 a) (BitVec.ofNat 64 b)

/-- xorX (R293). -/
def execXorX (u : Bool) (x : XOps) (s : State) : Host.Outcome State Fault Refusal :=
  bits2 (.xorX u x) u x x.ty.width s fun a b => (fun (a b : DWord) => a ^^^ b) (BitVec.ofNat 64 a) (BitVec.ofNat 64 b)

/-- andn (R293). -/
def execAndn (u : Bool) (x : XOps) (s : State) : Host.Outcome State Fault Refusal :=
  bits2 (.andn u x) u x x.ty.width s fun a b => (fun (a b : DWord) => a &&& ~~~b) (BitVec.ofNat 64 a) (BitVec.ofNat 64 b)

/-- NOT (R293). -/
def execNot (u : Bool) (x : XOps) (s : State) : Host.Outcome State Fault Refusal :=
  bits1 (.not u x) u x s fun a => tyWords x.ty (~~~(BitVec.ofNat 64 a))

/-- shlX (R293). -/
def execShlX (u : Bool) (x : XOps) (s : State) : Host.Outcome State Fault Refusal :=
  bits2 (.shlX u x) u x .w32 s fun a n => BitVec.ofNat 64 (shlVal (intBits x.ty) a n)

/-- shrX (R293). -/
def execShrX (u : Bool) (x : XOps) (s : State) : Host.Outcome State Fault Refusal :=
  bits2 (.shrX u x) u x .w32 s fun a n => BitVec.ofNat 64 (shrVal (intBits x.ty) a n)

/-- shaX (R293). -/
def execShaX (u : Bool) (x : XOps) (s : State) : Host.Outcome State Fault Refusal :=
  bits2 (.shaX u x) u x .w32 s fun a n => BitVec.ofNat 64 (shaVal (intBits x.ty) a n)

/-- rotl (R293). -/
def execRotl (u : Bool) (x : XOps) (s : State) : Host.Outcome State Fault Refusal :=
  bits2 (.rotl u x) u x .w32 s fun a n => BitVec.ofNat 64 (rotlVal (intBits x.ty) a n)

/-- BFX (R293). -/
def execBfx (u : Bool) (x : XOps) (s : State) : Host.Outcome State Fault Refusal :=
  bits2 (.bfx u x) u x .w32 s fun a ctl => ofInt64 (bfxVal x.ty a ctl)

/-- BFI (R293). -/
def execBfi (u : Bool) (x : XOps) (s : State) : Host.Outcome State Fault Refusal :=
  let f := ofX x
  valueOp s (.bfi u x) f u fun L => do
    let a ← srcA L .int x.ty.width f
    let b ← srcB L .int x.ty.width f
    let c ← srcC L .int .w32 f
    return tyWords x.ty (BitVec.ofNat 64 (bfiVal (intBits x.ty) a.toNat b.toNat c.toNat))

/-- popc (R293). -/
def execPopc (u : Bool) (x : XOps) (s : State) : Host.Outcome State Fault Refusal :=
  bits1 (.popc u x) u x s fun a => [BitVec.ofNat 32 (popVal (intBits x.ty) a)]

/-- clz (R293). -/
def execClz (u : Bool) (x : XOps) (s : State) : Host.Outcome State Fault Refusal :=
  bits1 (.clz u x) u x s fun a => [BitVec.ofNat 32 (clzVal (intBits x.ty) a)]

/-- ctz (R293). -/
def execCtz (u : Bool) (x : XOps) (s : State) : Host.Outcome State Fault Refusal :=
  bits1 (.ctz u x) u x s fun a => [BitVec.ofNat 32 (ctzVal (intBits x.ty) a)]

/-- BREV (R293). -/
def execBrev (u : Bool) (x : XOps) (s : State) : Host.Outcome State Fault Refusal :=
  bits1 (.brev u x) u x s fun a => tyWords x.ty (BitVec.ofNat 64 (brevVal (intBits x.ty) a))

/-- SEL (R293). -/
def execSel (u : Bool) (x : XOps) (s : State) : Host.Outcome State Fault Refusal :=
  let f := ofX x
  valueOp s (.sel u x) f u fun L => do
    let a ← srcA L .int x.ty.width f
    let b ← srcB L .int x.ty.width f
    let c ← srcC L .int .w32 f
    return tyWords x.ty (if c.lo != 0 then a else b)

/-- ISET (R294). -/
def execIset (u : Bool) (c : ICond) (x : XOps) (s : State) : Host.Outcome State Fault Refusal :=
  let f := ofX x
  valueOp s (.iset u c x) f u fun L => do
    let a ← srcA L .int x.ty.width f
    let b ← srcB L .int x.ty.width f
    return [if iCondHolds c (intVal x.ty a) (intVal x.ty b) then 1 else 0]

/-- ICMP (R294). -/
def execIcmp (c : ICond) (x : XOps) (s : State) : Host.Outcome State Fault Refusal :=
  let f := ofX x
  valueOp s (.icmp c x) f false fun L => do
    let a ← srcA L .int x.ty.width f
    let b ← srcB L .int x.ty.width f
    return [if iCondHolds c (intVal x.ty a) (intVal x.ty b) then 1 else 0]

end Sys2Proof.Machine
end

