-- ==== Sys2Proof/Machine/Float.lean ====
section
/-! DEFINITION. Floating-point arithmetic, functions, comparisons, conversions and packed arithmetic (R295 to
R312). -/

namespace Sys2Proof.Machine

/-- The pattern of a type in the low bits of a value: a 16-bit type uses bits 15:0 (R284). -/
def patOf (ty : Ty) (x : DWord) : Nat := x.toNat % 2 ^ (fpOf ty).width

/-- A pattern as the words of its destination, zero-extended (R284). -/
def fpWords (ty : Ty) (bits : Nat) : List Word := tyWords ty (BitVec.ofNat 64 bits)

/-! ### Shapes of meanings -/

/-- A form on one pattern at TYPE. -/
def fp1 (i : Instr) (f : Fields) (u : Bool) (ty : Ty) (s : State) (v : Nat → FpRes) :
    Host.Outcome State Fault Refusal :=
  valueOp s i f u fun L => do
    let a ← srcA L (litOf ty) ty.width f
    let r := v (patOf ty a)
    raiseFp r.flags
    return fpWords ty r.bits

/-- A form on two patterns at TYPE. -/
def fp2 (i : Instr) (f : Fields) (u : Bool) (ty : Ty) (s : State) (v : Nat → Nat → FpRes) :
    Host.Outcome State Fault Refusal :=
  valueOp s i f u fun L => do
    let a ← srcA L (litOf ty) ty.width f
    let b ← srcB L (litOf ty) ty.width f
    let r := v (patOf ty a) (patOf ty b)
    raiseFp r.flags
    return fpWords ty r.bits

/-- A one-word .f32 form (R296). -/
def fpWord2 (i : Instr) (f : Fields) (s : State) (v : Nat → Nat → FpRes) : Host.Outcome State Fault Refusal :=
  fp2 i f false .f32 s v

/-! ### Values -/

def addBits (ty : Ty) (m : Rnd) (a b : Nat) : FpRes := (fpOf ty).add m ((fpOf ty).decode a) ((fpOf ty).decode b)
def subBits (ty : Ty) (m : Rnd) (a b : Nat) : FpRes :=
  (fpOf ty).add m ((fpOf ty).decode a) ((fpOf ty).decode b).neg
def mulBits (ty : Ty) (m : Rnd) (a b : Nat) : FpRes := (fpOf ty).mul m ((fpOf ty).decode a) ((fpOf ty).decode b)
def divBits (ty : Ty) (m : Rnd) (a b : Nat) : FpRes := (fpOf ty).div m ((fpOf ty).decode a) ((fpOf ty).decode b)
def fmaBits (ty : Ty) (m : Rnd) (a b c : Nat) : FpRes :=
  (fpOf ty).fma m ((fpOf ty).decode a) ((fpOf ty).decode b) ((fpOf ty).decode c)

/-- A scale exponent brought into a range beyond which every result is the same. -/
def clampExp (n : Int) : Int := clamp (-6000) 6000 n

/-- FSCALE (R298). -/
def scaleBits (ty : Ty) (m : Rnd) (a : Nat) (n : Int) : FpRes :=
  let f := fpOf ty
  match f.decode a with
  | .nan s => f.qnan.raise (if s then flIV else 0)
  | .inf _ => ⟨a, 0⟩
  | .fin neg k e => if k = 0 then ⟨a, 0⟩ else f.round false m neg k (e + clampExp n) false

/-- FRND (R298): inexact is never raised. -/
def rndBits (ty : Ty) (m : Rnd) (a : Nat) : FpRes :=
  let f := fpOf ty
  match f.decode a with
  | .nan s => f.qnan.raise (if s then flIV else 0)
  | .inf _ => ⟨a, 0⟩
  | .fin neg k e =>
    let (y, _) := roundInt m neg k e
    ⟨if y = 0 then f.signBit neg else (f.round false .rne neg y.natAbs 0 false).bits, 0⟩

/-- FSAT (R299). -/
def satBits (ty : Ty) (a : Nat) : FpRes :=
  let f := fpOf ty
  match f.decode a with
  | .nan s => ⟨0, if s then flIV else 0⟩
  | v =>
    if v.lt (.fin false 0 0) || v.isZero then ⟨0, 0⟩
    else if (FpVal.fin false 1 0).lt v then ⟨f.ofInt 1, 0⟩
    else ⟨a, 0⟩

/-- FSGN (R300): the sign bit that `v` gives for the two sign bits. -/
def sgnBits (ty : Ty) (v : Nat → Nat → Nat) (a b : Nat) : FpRes :=
  let h := 2 ^ ((fpOf ty).width - 1)
  ⟨a % h + v (a / h % 2) (b / h % 2) * h, 0⟩

/-- FREXP (R303): the mantissa pattern with its flags, and the exponent. -/
def frexpBits (ty : Ty) (a : Nat) : FpRes × Int :=
  let f := fpOf ty
  match f.decode a with
  | .nan s => (f.qnan.raise (if s then flIV else 0), 0)
  | .inf _ => (⟨a, 0⟩, 0)
  | .fin neg m e =>
    if m = 0 then (⟨a, 0⟩, 0)
    else (⟨(f.round false .rne neg m (-(Nat.log2 m : Int)) false).bits, 0⟩, e + Nat.log2 m)

/-- FCLASS (R303). -/
def classBit (ty : Ty) (a : Nat) : Nat :=
  let f := fpOf ty
  let sub := fld a f.fbits f.ebits == 0
  match f.decode a with
  | .nan s => if s then 8 else 9
  | .inf n => if n then 0 else 7
  | .fin n m _ =>
    if m = 0 then (if n then 3 else 4)
    else if sub then (if n then 2 else 5)
    else if n then 1 else 6

/-- Conditions of FSET (R78): a NaN makes an ordered one false and an unordered one true. -/
def fCondHolds (c : FCond) (a b : FpVal) : Bool :=
  let un := a.isNan || b.isNan
  match c with
  | .eq => !un && a.eqv b
  | .ne => !un && !a.eqv b
  | .lt => !un && a.lt b
  | .le => !un && !b.lt a
  | .gt => !un && b.lt a
  | .ge => !un && !a.lt b
  | .ord => !un
  | .unord => un
  | .equ => un || a.eqv b
  | .neu => un || !a.eqv b
  | .ltu => un || a.lt b
  | .leu => un || !b.lt a
  | .gtu => un || b.lt a
  | .geu => un || !a.lt b

/-- Invalid of FSET (R295). -/
def fCondFlags (c : FCond) (a b : FpVal) : Nat :=
  match c with
  | .lt | .le | .gt | .ge => if a.isNan || b.isNan then flIV else 0
  | _ => snanFlag [a, b]

/-- The pattern of a source element of a conversion: bits 5:0 of a 6-bit element (R266). -/
def elemVal (ty : Ty) (x : Nat) : FpVal :=
  match ty with
  | .e8m0 => decodeE8m0 x
  | _ => (fpOf ty).decode (x % 2 ^ (fpOf ty).width)

/-- A floating-point value converted to an integer type (R305): the number and its flags. -/
def floatToInt (ty : Ty) (m : Rnd) (v : FpVal) : Int × Nat :=
  match v with
  | .nan _ => (0, flIV)
  | .inf n => (if n then tyMin ty else tyMax ty, flIV)
  | .fin n k e =>
    let (y, ix) := roundInt m n k e
    if y < tyMin ty || tyMax ty < y then (clamp (tyMin ty) (tyMax ty) y, flIV) else (y, if ix then flNX else 0)

/-- FCVT of a pattern (R304): equal types keep the pattern but for NaNs. -/
def fcvtBits (src dst : Ty) (m : Rnd) (nosat : Bool) (x : Nat) : FpRes :=
  let v := elemVal src x
  if src == dst && v.isInf then ⟨x % 2 ^ (fpOf src).width, 0⟩ else (fpOf dst).roundVal nosat m v

/-- conv of R310 on one element. -/
def convElem (src dst : Ty) (m : Rnd) (nosat : Bool) (x : Nat) : FpRes :=
  let w := 2 ^ dst.container
  if src.isInt then
    let a := intVal src (BitVec.ofNat 64 x)
    if dst.isInt then ⟨(ofInt64 (clamp (tyMin dst) (tyMax dst) a)).toNat % w, 0⟩
    else (fpOf dst).round nosat m (decide (a < 0)) a.natAbs 0 false
  else if dst.isInt then
    let (y, fl) := floatToInt dst m (elemVal src x)
    ⟨(ofInt64 y).toNat % w, fl⟩
  else (fpOf dst).roundVal nosat m (elemVal src x)

/-- Element `i` of a register of packed elements (R266). -/
def elemOf (ty : Ty) (x : Word) (i : Nat) : Nat := fld x.toNat (ty.container * i) ty.container

/-- A register of packed elements, lowest first. -/
def packElems (w : Nat) : List Nat → Nat
  | [] => 0
  | x :: r => x % 2 ^ w + 2 ^ w * packElems w r

/-- PCVT (R310): the register and the flags. -/
def pcvtVal (src dst : Ty) (m : Rnd) (nosat : Bool) (pos : Nat) (a c : Word) : FpRes :=
  let ns := 32 / src.container
  let nd := 32 / dst.container
  let k := min ns nd
  let widen := decide (nd ≤ ns)
  let conv := fun (j : Nat) => convElem src dst m nosat (elemOf src a (if widen then pos + j else j))
  let rs := (List.range k).map conv
  let out :=
    if widen then packElems dst.container (rs.map FpRes.bits)
    else packElems dst.container ((List.range nd).map fun j =>
      if pos ≤ j && j < pos + k then (conv (j - pos)).bits else elemOf dst c j)
  ⟨out, rs.foldl (fun fl r => fl ||| r.flags) 0⟩

/-- One step of a sum tree: .f32 addition with .rne, the flags gathered. -/
def add32 (a b : FpRes) : FpRes := (addBits .f32 .rne a.bits b.bits).raise (a.flags ||| b.flags)

/-- One level of the pairwise tree (R307). -/
def pairUp : List FpRes → List FpRes
  | a :: b :: r => add32 a b :: pairUp r
  | r => r

/-- The floating-point dot product of `n` = 2^k elements (R307). -/
def dotFp (ty : Ty) (k : Nat) (a b c : Word) : FpRes :=
  let prods := (List.range (2 ^ k)).map fun i =>
    (fpOf .f32).mul .rne (elemVal ty (elemOf ty a i)) (elemVal ty (elemOf ty b i))
  let s := (Nat.repeat pairUp k prods).headD ⟨0, 0⟩
  add32 s ⟨c.toNat, 0⟩

/-- The integer dot product (R307). -/
def dotInt (ty : Ty) (n : Nat) (sat : Bool) (a b c : Word) : DWord :=
  let rt : Ty := if isSigned ty then .s32 else .n32
  let sum := (List.range n).foldl (fun (t : Int) i =>
    t + intVal ty (BitVec.ofNat 64 (elemOf ty a i)) * intVal ty (BitVec.ofNat 64 (elemOf ty b i))) (intVal rt c.zext)
  reduceInt rt sat sum

/-- DOT2, DOT4 and DOT8. -/
def dotOp (i : Instr) (x : XOps) (k : Nat) (s : State) : Host.Outcome State Fault Refusal :=
  let f := ofX x
  valueOp s i f false fun L => do
    let a ← srcA L .int .w32 f
    let b ← srcB L .int .w32 f
    let c ← srcC L (if x.ty.isInt then .int else .fp .f32) .w32 f
    if x.ty.isInt then return [(dotInt x.ty (2 ^ k) x.ovf a.lo b.lo c.lo).lo]
    else
      let r := dotFp x.ty k a.lo b.lo c.lo
      raiseFp r.flags
      return [BitVec.ofNat 32 r.bits]

/-- Packed arithmetic (R308): `fp` and `int` compute one element. -/
def packedOp (i : Instr) (x : XOps) (useC : Bool) (s : State) (fp : Nat → Nat → Nat → FpRes)
    (int : Int → Int → Int → Int) : Host.Outcome State Fault Refusal :=
  let f := ofX x
  valueOp s i f false fun L => do
    let a ← srcA L .int .w32 f
    let b ← srcB L .int .w32 f
    let c ← if useC then srcC L .int .w32 f else pure 0
    let el := fun (v : DWord) (j : Nat) => elemOf x.ty v.lo j
    let num := fun (v : DWord) (j : Nat) => intVal x.ty (BitVec.ofNat 64 (el v j))
    let rs := (List.range (32 / x.ty.container)).map fun j =>
      if x.ty.isInt then
        (⟨(reduceInt x.ty x.ovf (int (num a j) (num b j) (num c j))).toNat % 2 ^ x.ty.container, 0⟩ : FpRes)
      else fp (el a j) (el b j) (el c j)
    raiseFp (rs.foldl (fun fl r => fl ||| r.flags) 0)
    return [BitVec.ofNat 32 (packElems x.ty.container (rs.map FpRes.bits))]

/-- A function of R301. -/
def funOp (i : Instr) (u : Bool) (x : XOps) (g : FpFun) (s : State) : Host.Outcome State Fault Refusal :=
  fp1 i (ofX x) u x.ty s fun a =>
    (fpOf x.ty).apply g x.rnd ((fpOf x.ty).decode a)

/-- FSET in either destination (R295). -/
def fsetOp (i : Instr) (u : Bool) (c : FCond) (x : XOps) (s : State) : Host.Outcome State Fault Refusal :=
  let f := ofX x
  valueOp s i f u fun L => do
    let a ← srcA L (litOf x.ty) x.ty.width f
    let b ← srcB L (litOf x.ty) x.ty.width f
    let va := (fpOf x.ty).decode (patOf x.ty a)
    let vb := (fpOf x.ty).decode (patOf x.ty b)
    raiseFp (fCondFlags c va vb)
    return [if fCondHolds c va vb then 1 else 0]

/-! ### Quantising (R278, R312) -/

/-- QNT of a value under a scale: no flags. -/
def qntBits (ty : Ty) (v : FpVal) (sc : Nat) : Nat :=
  let f := fpOf ty
  if sc % 256 = 255 || v.isNan then (f.nan.getD 0)
  else
    match v with
    | .fin n m e => (f.round false .rne n m (e + (127 - (sc % 256 : Nat))) false).bits
    | v => (f.roundVal false .rne v).bits

/-- The value of an element that DQNT takes. -/
def dqntVal (ty : Ty) (e : Nat) : FpVal :=
  if ty.isInt then
    let n := intVal ty (BitVec.ofNat 64 e)
    .fin (decide (n < 0)) n.natAbs 0
  else elemVal ty e

/-- DQNT of a value under a scale. -/
def dqntRes (m : Rnd) (v : FpVal) (sc : Nat) : FpRes :=
  let g := fpOf .f32
  if sc = 255 || v.isNan then g.qnan.raise (snanFlag [v])
  else
    match v with
    | .fin n k e => g.round false m n k (e + ((sc : Int) - 127)) false
    | v => g.roundVal false m v

/-- The E8M0 scale for the largest magnitude m × 2^e of a block (R278). -/
def blockScale (ty : Ty) (m : Nat) (e : Int) : Nat :=
  if m = 0 then 0 else (clamp (-127) 127 (e + Nat.log2 m - (fpOf ty).emax) + 127).toNat

/-- The larger of two magnitudes. -/
def maxMag (p q : Nat × Int) : Nat × Int :=
  if (FpVal.fin false p.1 p.2).lt (.fin false q.1 q.2) then q else p

/-- The scale of a block of values (R278): 0xFF where one is a NaN or infinite. -/
def scaleOf (ty : Ty) (vs : List FpVal) : Nat :=
  if vs.any fun v => v.isNan || v.isInf then 255
  else
    let p := vs.foldl (fun (p : Nat × Int) v =>
      match v with
      | .fin _ m e => maxMag p (m, e)
      | _ => p) (0, 0)
    blockScale ty p.1 p.2

/-! ### Meanings -/

/-- FADD, one word (R296). -/
def execFaddA (o : AOps) (s : State) : Host.Outcome State Fault Refusal :=
  fpWord2 (.faddA o) (ofA o) s (addBits .f32 .rne)

/-- FSUB, one word (R296). -/
def execFsubA (o : AOps) (s : State) : Host.Outcome State Fault Refusal :=
  fpWord2 (.fsubA o) (ofA o) s (subBits .f32 .rne)

/-- FMUL, one word (R296). -/
def execFmulA (o : AOps) (s : State) : Host.Outcome State Fault Refusal :=
  fpWord2 (.fmulA o) (ofA o) s (mulBits .f32 .rne)

/-- FMIN, one word (R296, R299). -/
def execFminA (o : AOps) (s : State) : Host.Outcome State Fault Refusal :=
  fpWord2 (.fminA o) (ofA o) s ((fpOf .f32).minmax false)

/-- FMAX, one word (R296, R299). -/
def execFmaxA (o : AOps) (s : State) : Host.Outcome State Fault Refusal :=
  fpWord2 (.fmaxA o) (ofA o) s ((fpOf .f32).minmax true)

/-- FADD with a literal (R296, R41). -/
def execFaddL (o : LOps) (s : State) : Host.Outcome State Fault Refusal :=
  fpWord2 (.faddL o) (ofL o) s (addBits .f32 .rne)

/-- FMUL with a literal (R296, R41). -/
def execFmulL (o : LOps) (s : State) : Host.Outcome State Fault Refusal :=
  fpWord2 (.fmulL o) (ofL o) s (mulBits .f32 .rne)

/-- FADD (R298). -/
def execFaddX (u : Bool) (x : XOps) (s : State) : Host.Outcome State Fault Refusal :=
  fp2 (.faddX u x) (ofX x) u x.ty s (addBits x.ty x.rnd)

/-- FSUB (R298). -/
def execFsubX (u : Bool) (x : XOps) (s : State) : Host.Outcome State Fault Refusal :=
  fp2 (.fsubX u x) (ofX x) u x.ty s (subBits x.ty x.rnd)

/-- FMUL (R298). -/
def execFmulX (u : Bool) (x : XOps) (s : State) : Host.Outcome State Fault Refusal :=
  fp2 (.fmulX u x) (ofX x) u x.ty s (mulBits x.ty x.rnd)

/-- FMIN (R299). -/
def execFminX (u : Bool) (x : XOps) (s : State) : Host.Outcome State Fault Refusal :=
  fp2 (.fminX u x) (ofX x) u x.ty s ((fpOf x.ty).minmax false)

/-- FMAX (R299). -/
def execFmaxX (u : Bool) (x : XOps) (s : State) : Host.Outcome State Fault Refusal :=
  fp2 (.fmaxX u x) (ofX x) u x.ty s ((fpOf x.ty).minmax true)

/-- FDIV (R298). -/
def execFdiv (u : Bool) (x : XOps) (s : State) : Host.Outcome State Fault Refusal :=
  fp2 (.fdiv u x) (ofX x) u x.ty s (divBits x.ty x.rnd)

/-- FSGN.cpy (R300). -/
def execFsgnCpy (u : Bool) (x : XOps) (s : State) : Host.Outcome State Fault Refusal :=
  fp2 (.fsgnCpy u x) (ofX x) u x.ty s (sgnBits x.ty fun _ b => b)

/-- FSGN.neg (R300). -/
def execFsgnNeg (u : Bool) (x : XOps) (s : State) : Host.Outcome State Fault Refusal :=
  fp2 (.fsgnNeg u x) (ofX x) u x.ty s (sgnBits x.ty fun _ b => 1 - b)

/-- FSGN.xor (R300). -/
def execFsgnXor (u : Bool) (x : XOps) (s : State) : Host.Outcome State Fault Refusal :=
  fp2 (.fsgnXor u x) (ofX x) u x.ty s (sgnBits x.ty fun a b => (a + b) % 2)

/-- FFMA (R298). -/
def execFfma (u : Bool) (x : XOps) (s : State) : Host.Outcome State Fault Refusal :=
  let f := ofX x
  valueOp s (.ffma u x) f u fun L => do
    let a ← srcA L (litOf x.ty) x.ty.width f
    let b ← srcB L (litOf x.ty) x.ty.width f
    let c ← srcC L (litOf x.ty) x.ty.width f
    let r := fmaBits x.ty x.rnd (patOf x.ty a) (patOf x.ty b) (patOf x.ty c)
    raiseFp r.flags
    return fpWords x.ty r.bits

/-- FSCALE (R298): n is .s32 in one register. -/
def execFscale (u : Bool) (x : XOps) (s : State) : Host.Outcome State Fault Refusal :=
  let f := ofX x
  valueOp s (.fscale u x) f u fun L => do
    let a ← srcA L (litOf x.ty) x.ty.width f
    let n ← srcB L .int .w32 f
    let r := scaleBits x.ty x.rnd (patOf x.ty a) (intVal .s32 n)
    raiseFp r.flags
    return fpWords x.ty r.bits

/-- FRND (R298). -/
def execFrnd (u : Bool) (x : XOps) (s : State) : Host.Outcome State Fault Refusal :=
  fp1 (.frnd u x) (ofX x) u x.ty s (rndBits x.ty x.rnd)

/-- FSAT (R299). -/
def execFsat (u : Bool) (x : XOps) (s : State) : Host.Outcome State Fault Refusal :=
  fp1 (.fsat u x) (ofX x) u x.ty s (satBits x.ty)

/-- FRCP (R301, R302). -/
def execFrcp (u : Bool) (x : XOps) (s : State) : Host.Outcome State Fault Refusal :=
  funOp (.frcp u x) u x .rcp s

/-- FRSQ (R301, R302). -/
def execFrsq (u : Bool) (x : XOps) (s : State) : Host.Outcome State Fault Refusal :=
  funOp (.frsq u x) u x .rsq s

/-- FSQRT (R301, R302). -/
def execFsqrt (u : Bool) (x : XOps) (s : State) : Host.Outcome State Fault Refusal :=
  funOp (.fsqrt u x) u x .sqrt s

/-- FEXP2 (R301, R302). -/
def execFexp2 (u : Bool) (x : XOps) (s : State) : Host.Outcome State Fault Refusal :=
  funOp (.fexp2 u x) u x .exp2 s

/-- FLOG2 (R301, R302). -/
def execFlog2 (u : Bool) (x : XOps) (s : State) : Host.Outcome State Fault Refusal :=
  funOp (.flog2 u x) u x .log2 s

/-- FSIN (R301, R302). -/
def execFsin (u : Bool) (x : XOps) (s : State) : Host.Outcome State Fault Refusal :=
  funOp (.fsin u x) u x .sin s

/-- FCOS (R301, R302). -/
def execFcos (u : Bool) (x : XOps) (s : State) : Host.Outcome State Fault Refusal :=
  funOp (.fcos u x) u x .cos s

/-- FTANH (R301, R302). -/
def execFtanh (u : Bool) (x : XOps) (s : State) : Host.Outcome State Fault Refusal :=
  funOp (.ftanh u x) u x .tanh s

/-- FREXP (R303). -/
def execFrexp (u : Bool) (x : XOps) (s : State) : Host.Outcome State Fault Refusal :=
  let f := ofX x
  valueOp s (.frexp u x) f u fun L => do
    let a ← srcA L (litOf x.ty) x.ty.width f
    let r := frexpBits x.ty (patOf x.ty a)
    raiseFp r.1.flags
    return [BitVec.ofNat 32 r.1.bits, BitVec.ofInt 32 r.2]

/-- FCLASS (R303). -/
def execFclass (u : Bool) (x : XOps) (s : State) : Host.Outcome State Fault Refusal :=
  let f := ofX x
  valueOp s (.fclass u x) f u fun L => do
    let a ← srcA L (litOf x.ty) x.ty.width f
    return [1 <<< classBit x.ty (patOf x.ty a)]

/-- FSET to a register (R295). -/
def execFset (u : Bool) (c : FCond) (x : XOps) (s : State) : Host.Outcome State Fault Refusal :=
  fsetOp (.fset u c x) u c x s

/-- FSET to a predicate (R295, R70). -/
def execFsetPred (c : FCond) (x : XOps) (s : State) : Host.Outcome State Fault Refusal :=
  fsetOp (.fsetPred c x) false c x s

/-- FCVT (R304). -/
def execFcvt (k : FSrc) (x : XOps) (s : State) : Host.Outcome State Fault Refusal :=
  let f := ofX x
  valueOp s (.fcvt k x) f false fun L => do
    let a ← srcA L (litOf k.ty) k.ty.width f
    let r := fcvtBits k.ty x.ty x.rnd x.ovf a.toNat
    raiseFp r.flags
    return fpWords x.ty r.bits

/-- ICVT (R305). -/
def execIcvt (k : IcvtDir) (x : XOps) (s : State) : Host.Outcome State Fault Refusal :=
  let f := ofX x
  valueOp s (.icvt k x) f false fun L => do
    let a ← srcA L (litOf k.srcTy) k.srcTy.width f
    if k.toInt then
      let r := floatToInt x.ty x.rnd (elemVal k.srcTy a.toNat)
      raiseFp r.2
      return tyWords x.ty (ofInt64 r.1)
    else
      let v := intVal k.srcTy a
      let r := (fpOf x.ty).round false x.rnd (decide (v < 0)) v.natAbs 0 false
      raiseFp r.flags
      return fpWords x.ty r.bits

/-- DOT2 (R307). -/
def execDot2 (x : XOps) (s : State) : Host.Outcome State Fault Refusal :=
  dotOp (.dot2 x) x 1 s

/-- DOT4 (R307). -/
def execDot4 (x : XOps) (s : State) : Host.Outcome State Fault Refusal :=
  dotOp (.dot4 x) x 2 s

/-- DOT8 (R307). -/
def execDot8 (x : XOps) (s : State) : Host.Outcome State Fault Refusal :=
  dotOp (.dot8 x) x 3 s

/-- PADD (R308). -/
def execPadd (x : XOps) (s : State) : Host.Outcome State Fault Refusal :=
  packedOp (.padd x) x false s (fun a b _ => addBits x.ty x.rnd a b) fun a b _ => a + b

/-- PMUL (R308). -/
def execPmul (x : XOps) (s : State) : Host.Outcome State Fault Refusal :=
  packedOp (.pmul x) x false s (fun a b _ => mulBits x.ty x.rnd a b) fun a b _ => a * b

/-- PFMA (R308). -/
def execPfma (x : XOps) (s : State) : Host.Outcome State Fault Refusal :=
  packedOp (.pfma x) x true s (fun a b c => fmaBits x.ty x.rnd a b c) fun a b c => a * b + c

/-- PCVT (R309, R310). DESIGN CHOICE (log 120): an inline literal as the source of a conversion from one .f32 element is the
bit pattern that a packed-narrow operand has (R50). -/
def execPcvt (k : FSrc) (x : XOps) (s : State) : Host.Outcome State Fault Refusal :=
  let f := ofX x
  let src := (pcvtSrc k (x.b.bits / 8)).getD .f32
  valueOp s (.pcvt k x) f false fun L => do
    let a ← srcA L .int .w32 f
    let c ← if pcvtNarrows k x then srcC L .int .w32 f else pure 0
    let r := pcvtVal src x.ty x.rnd x.ovf (x.b.bits % 8) a.lo c.lo
    raiseFp r.flags
    return [BitVec.ofNat 32 r.bits]

/-- QNT (R312). -/
def execQnt (x : XOps) (s : State) : Host.Outcome State Fault Refusal :=
  let f := ofX x
  valueOp s (.qnt x) f false fun L => do
    let a ← srcA L (.fp .f32) .w32 f
    let b ← srcB L .int .w32 f
    return [BitVec.ofNat 32 (qntBits x.ty ((fpOf .f32).decode (patOf .f32 a)) b.toNat)]

/-- DQNT (R312). -/
def execDqnt (x : XOps) (s : State) : Host.Outcome State Fault Refusal :=
  let f := ofX x
  valueOp s (.dqnt x) f false fun L => do
    let a ← srcA L .int .w32 f
    let b ← srcB L .int .w32 f
    let c ← srcC L .int .w32 f
    let r := dqntRes x.rnd (dqntVal x.ty (elemOf x.ty a.lo (c.toNat % (32 / x.ty.container)))) (b.toNat % 256)
    raiseFp r.flags
    return [BitVec.ofNat 32 r.bits]

end Sys2Proof.Machine
end

