-- ==== Sys2Proof/Machine/Copy.lean ====
section
/-! DEFINITION. The six copies (R211 to R225): their blocks and checks, and the copy engines that run them row by
row (R210, R216, R217). -/

namespace Sys2Proof.Machine

/-- The copy block (R213, R214), with the element size E (R215). -/
structure CpyBlk where
  form : Nat
  ty : Ty
  src : Nat
  dsta : Nat
  rows : Nat
  cols : Nat
  sstr : Int
  dstr : Int
  ctrl : Nat
  aux : Nat
  aux2 : Nat
  aux3 : Nat
  deriving DecidableEq, Repr

/-- SUB of a copy. -/
def copyForm : Instr → Option (Nat × Ty)
  | .cpyTile x => some (0, x.ty)
  | .cpyGath x => some (1, x.ty)
  | .cpyScat x => some (2, x.ty)
  | .cpyMcast x => some (3, x.ty)
  | .cpyQnt x => some (4, x.ty)
  | .cpyFill x => some (5, x.ty)
  | _ => none

/-- A field of a block, little-endian. -/
def fieldAt (bs : List Byte) (off n : Nat) : Nat := leNat ((bs.drop off).take n)

def cpyBlock (form : Nat) (ty : Ty) (bs : List Byte) : CpyBlk :=
  { form := form, ty := ty, src := fieldAt bs 0 8, dsta := fieldAt bs 8 8, rows := fieldAt bs 16 4, cols := fieldAt bs 20 4
    sstr := (BitVec.ofNat 64 (fieldAt bs 24 8)).toInt, dstr := (BitVec.ofNat 64 (fieldAt bs 32 8)).toInt
    ctrl := fieldAt bs 40 4, aux := fieldAt bs 44 4, aux2 := fieldAt bs 48 8, aux3 := fieldAt bs 56 8 }

def CpyBlk.srct (b : CpyBlk) : Nat := fld b.ctrl 9 3
def CpyBlk.cb (b : CpyBlk) : Bool := fld b.ctrl 8 1 == 1
def CpyBlk.rb (b : CpyBlk) : Bool := fld b.ctrl 7 1 == 1
def CpyBlk.tr (b : CpyBlk) : Bool := fld b.ctrl 6 1 == 1
def CpyBlk.xspace (b : CpyBlk) : Nat := fld b.ctrl 4 2
def CpyBlk.dspace (b : CpyBlk) : Nat := fld b.ctrl 2 2
def CpyBlk.sspace (b : CpyBlk) : Nat := fld b.ctrl 0 2
def CpyBlk.mask (b : CpyBlk) : Nat := fld b.ctrl 12 4

/-- Source type of CPY.QNT (R214). -/
def CpyBlk.srcTy (b : CpyBlk) : Ty :=
  match b.srct with
  | 0 => .f32
  | 1 => .bf16
  | _ => .f16

/-- Bytes of an element (R215). -/
def CpyBlk.esize (b : CpyBlk) : Nat :=
  if b.form = 4 then (if b.srct = 0 then 4 else 2) else tyBytes b.ty

/-- Bits of an element of the quantised type. -/
def CpyBlk.width (b : CpyBlk) : Nat := viewBits b.ty

/-- An address field breaks R213 or the rule of its space (R214). -/
def badAddr (space a al : Nat) : Bool := a % al != 0 || (space == 1 && a / 2 ^ 32 != 0)

/-- Check 2 of R212: the offset of the first invalid field (R213 to R215, R220 to R222). -/
def CpyBlk.badField (b : CpyBlk) : Option Nat :=
  let e := b.esize
  let q := b.form == 4
  let w := b.width
  firstBad
    [(0, if b.form = 5 then b.src != 0 else badAddr b.sspace b.src e),
     (8, badAddr b.dspace b.dsta e || (b.form == 3 && fld b.dsta 21 1 == 1) || (q && b.dsta % 16 != 0) ||
        (q && !b.rb && b.dsta != 0)),
     (16, b.rows == 0 || decide (2 ^ 20 < b.rows) || (q && b.cb && b.rows % 32 != 0)),
     (20, b.cols == 0 || decide (2 ^ 20 < b.cols) || (q && b.rb && b.cols % 32 != 0)),
     (24, b.sstr % e != 0 || (b.form == 5 && b.sstr != 0)),
     (32, b.dstr % e != 0 || (q && b.rb && (b.dstr % (4 * w : Nat) != 0 || decide (b.dstr < (b.cols * w / 8 : Nat))))),
     (40, fld b.ctrl 16 16 != 0 || (if b.form = 3 then b.mask == 0 else b.mask != 0) ||
        (if q then decide (2 < b.srct) || !(b.rb || b.cb) else fld b.ctrl 7 5 != 0) || (b.form != 0 && b.tr) ||
        (if b.form = 1 || b.form = 2 then decide (1 < b.xspace) else b.xspace != 0) || decide (1 < b.dspace) ||
        (b.form == 3 && b.dspace != 1) || (if b.form = 5 then b.sspace != 0 else decide (1 < b.sspace))),
     (44, b.aux != 0),
     (48, if b.form = 1 || b.form = 2 then badAddr b.xspace b.aux2 (max 4 e)
        else if q then badAddr b.dspace b.aux2 e
        else b.form != 5 && b.aux2 != 0),
     (56, if q then badAddr b.dspace b.aux3 16 else b.aux3 != 0)]
where
  firstBad : List (Nat × Bool) → Option Nat
    | [] => none
    | (o, c) :: r => if c then some o else firstBad r

/-- An operand of a copy: its space, first row, row stride, rows and bytes of a row; `shrinks` for one that is used
up row by row, `indexed` for one that an index list addresses. -/
structure Operand where
  space : Nat
  base : Int
  stride : Int
  rows : Nat
  len : Nat
  source : Bool
  shrinks : Bool
  indexed : Bool
  deriving DecidableEq, Repr

/-- The span of an operand from a row on: its first byte and the byte after its last. -/
def Operand.span (o : Operand) (r : Nat) : Int × Int :=
  let a := o.base + (if o.shrinks then r else 0) * o.stride
  let z := o.base + (o.rows - 1 : Nat) * o.stride
  (min a z, max a z + o.len)

/-- Where the destination begins: CPY.MCAST names the target cores by MASK, and the CORE bits of DSTA are ignored, since
its PEER bit is 0 (R134, R221). -/
def CpyBlk.dstBase (b : CpyBlk) : Nat := if b.form = 3 then b.dsta / 2 ^ 21 * 2 ^ 21 + b.dsta % 2 ^ 19 else b.dsta

/-- The operands of a copy (R225). -/
def CpyBlk.operands (b : CpyBlk) : List Operand :=
  let n := b.cols * b.esize
  let src : Operand := { space := b.sspace, base := b.src, stride := b.sstr, rows := b.rows, len := n, source := true,
                         shrinks := true, indexed := false }
  let dst : Operand := { space := b.dspace, base := b.dstBase, stride := b.dstr, rows := b.rows, len := n, source := false,
                         shrinks := true, indexed := false }
  let idx : Operand := { space := b.xspace, base := b.aux2, stride := 4, rows := b.rows, len := 4, source := true,
                         shrinks := true, indexed := false }
  let w := b.width
  match b.form with
  | 0 =>
    [src, if b.tr then { dst with rows := b.cols, len := b.rows * b.esize, shrinks := false } else dst]
  | 1 => [{ src with indexed := true, shrinks := false }, idx, dst]
  | 2 => [src, idx, { dst with indexed := true, shrinks := false }]
  | 3 => [src, dst]
  | 4 =>
    [src] ++
      (if b.rb then
        [{ dst with len := b.cols * w / 8 },
         { dst with base := b.aux2, stride := (b.cols / 32 : Nat), len := b.cols / 32 }] else []) ++
      (if b.cb then
        [{ dst with base := b.aux3, stride := 0, rows := 1, len := b.cols * b.rows * w / 8 + b.cols * b.rows / 32,
                    shrinks := false }] else [])
  | _ => [dst]

/-- The scratch addresses at which an operand lies: one for each target core of CPY.MCAST (R221). DESIGN CHOICE (log 116): a
failing check 3 on a target core reports the PEER form of the address on that core. -/
def CpyBlk.places (b : CpyBlk) (o : Operand) (lo : Int) : List Int :=
  if b.form = 3 && !o.source then
    ([0, 1, 2, 3].filter fun j => fld b.mask j 1 == 1).map fun (j : Nat) => lo + (2 ^ 21 + j * 2 ^ 19 : Nat)
  else [lo]

def scratchAddr (i : Int) : DWord := (BitVec.ofInt 32 i).zeroExtend 64

/-- Check 3 of R212, for the operands whose span is known at issue. -/
def CpyBlk.badScratch (s : State) (k : Nat) (b : CpyBlk) : Option DWord :=
  b.operands.findSome? fun o =>
    if o.space != 1 || o.indexed then none
    else
      let (lo, hi) := o.span 0
      (b.places o lo).findSome? fun a =>
        if lo < 0 || (s.scratchAt k a.toNat (hi - lo).toNat).isNone then some (scratchAddr a) else none

/-- Check 4 of R212. -/
def CpyBlk.badMem (b : CpyBlk) : Option DWord :=
  b.operands.findSome? fun o =>
    if o.space != 0 || o.indexed then none
    else
      let (lo, hi) := o.span 0
      [BitVec.ofInt 64 lo, BitVec.ofInt 64 (hi - 1)].find? fun a => !isCanon a

/-- A span rounded outward to lines (R171). -/
def scoreEntry (core crew lo hi : Nat) (source : Bool) : Nat × ScoreEntry :=
  (core, { order := 0, crew := crew, lo := lo / 128 * 128, hi := (hi + 127) / 128 * 128, source := source })

/-- The scoreboard entries of a copy from a row on (R171, R225); an operand that an index list addresses takes the whole
grant on the core that its base address names, also where the base itself lies past the grant. -/
def CpyBlk.entries (s : State) (k : Nat) (b : CpyBlk) (r : Nat) : List (Nat × ScoreEntry) :=
  b.operands.flatMap fun o =>
    if o.space != 1 || (o.shrinks && o.rows ≤ r) then []
    else if o.indexed then
      match s.scratchAt k (o.base.toNat % 2 ^ 22 / 2 ^ 19 * 2 ^ 19) 0 with
      | some (c, _) => [scoreEntry (s.crew c).core c 0 (s.crew c).grant o.source]
      | none => []
    else
      let (lo, hi) := o.span r
      (b.places o lo).filterMap fun a =>
        match s.scratchAt k a.toNat (hi - lo).toNat with
        | some (c, off) => some (scoreEntry (s.crew c).core c off (off + (hi - lo).toNat) o.source)
        | none => none

/-- The checks of R212 and the operation of a copy. -/
def prepareCopy (i : Instr) (form : Nat) (x : XOps) (s : State) (g : Grp) (L : LCtx) (lr : LogRec) (th : Thread) :
    Except AccStop (Prepared × Thread × State) :=
  let a : DWord := (DWord.lo lr.a).zext
  if a.toNat % 64 != 0 then .error (.trap .misalignedAccess a .nothing)
  else
    match ownScratch s g.k L.lane a 64 with
    | none => .error (.trap .scratchRange a .nothing)
    | some bs =>
      let b := cpyBlock form x.ty bs
      match b.badField with
      | some o => .error (.trap .engineOperand (BitVec.ofNat 64 o) .nothing)
      | none =>
        match b.badScratch s g.k, b.badMem with
        | some v, _ => .error (.trap .scratchRange v .nothing)
        | none, some v => .error (.trap .addressRange v .nothing)
        | none, none =>
          let es := b.entries s g.k 0
          if es.any fun e => decide (4 < (es.filter fun y => y.1 == e.1).length) then
            .error (.trap .engineOperand 0x40 .nothing)
          else
            .ok ({ op := { qs := [x.b.bits], instr := i, lane := L.lane, block := bs, args := [] }, spans := es }, th, s)

/-- CPY.TILE (R219). -/
def execCpyTile (x : XOps) (s : State) : Host.Outcome State Fault Refusal :=
  engineOp s (.cpyTile x) x (prepareCopy (.cpyTile x) 0 x)

/-- CPY.GATH (R220). -/
def execCpyGath (x : XOps) (s : State) : Host.Outcome State Fault Refusal :=
  engineOp s (.cpyGath x) x (prepareCopy (.cpyGath x) 1 x)

/-- CPY.SCAT (R220). -/
def execCpyScat (x : XOps) (s : State) : Host.Outcome State Fault Refusal :=
  engineOp s (.cpyScat x) x (prepareCopy (.cpyScat x) 2 x)

/-- CPY.MCAST (R221). -/
def execCpyMcast (x : XOps) (s : State) : Host.Outcome State Fault Refusal :=
  engineOp s (.cpyMcast x) x (prepareCopy (.cpyMcast x) 3 x)

/-- CPY.QNT (R222). -/
def execCpyQnt (x : XOps) (s : State) : Host.Outcome State Fault Refusal :=
  engineOp s (.cpyQnt x) x (prepareCopy (.cpyQnt x) 4 x)

/-- CPY.FILL (R223). -/
def execCpyFill (x : XOps) (s : State) : Host.Outcome State Fault Refusal :=
  engineOp s (.cpyFill x) x (prepareCopy (.cpyFill x) 5 x)

/-! ### Quantising blocks (R222, R236) -/

/-- The elements of a byte sequence, `e` bytes each. -/
def elemsOf (e : Nat) : Nat → List Byte → List Nat
  | 0, _ => []
  | n + 1, bs => leNat (bs.take e) :: elemsOf e n (bs.drop e)

/-- A quantised block of values: its element bytes, packed, and its scale byte. -/
def quantBlock (ty : Ty) (vs : List FpVal) : List Byte × Byte :=
  let sc := scaleOf ty vs
  let w := viewBits ty
  (leBytes (vs.length * w / 8) (packElems w (vs.map fun v => qntBits ty v sc)), BitVec.ofNat 8 sc)

/-- The groups of `n` elements of a list. -/
def groupsOf {α : Type} (n : Nat) : Nat → List α → List (List α)
  | 0, _ => []
  | m + 1, xs => xs.take n :: groupsOf n m (xs.drop n)

/-- Column `c` of a list of rows. -/
def columnOf (rows : List (List FpVal)) (c : Nat) : List FpVal := rows.map fun r => getAt (.fin false 0 0) r c

/-- The writes of CPY.QNT for the rows from `r` on (R222). -/
def CpyBlk.qntWrites (b : CpyBlk) (r : Nat) (rows : List (List FpVal)) : List (DWord × List Byte) :=
  let w := b.width
  let at_ := fun (i : Int) => (BitVec.ofInt 64 i : DWord)
  let rowW := (mapAt (fun j vs => (r + j, vs)) 0 rows).flatMap fun p =>
    let bl := (groupsOf 32 (b.cols / 32) p.2).map (quantBlock b.ty)
    [(at_ (b.dsta + p.1 * b.dstr), bl.flatMap (·.1)), (at_ (b.aux2 + p.1 * (b.cols / 32) : Nat), bl.map (·.2))]
  let colW := (List.range b.cols).flatMap fun c =>
    let (es, sc) := quantBlock b.ty (columnOf rows c)
    [(at_ (b.aux3 + c * b.rows * w / 8 + r / 32 * 4 * w : Nat), es),
     (at_ (b.aux3 + b.cols * b.rows * w / 8 + c * b.rows / 32 + r / 32 : Nat), [sc])]
  (if b.rb then rowW else []) ++ (if b.cb then colW else [])

/-! ### One step of a copy engine (R216, R219 to R224) -/

/-- Rows that one step of a copy moves. -/
def CpyBlk.unit (b : CpyBlk) : Nat := if b.form = 4 && b.cb then 32 else 1

/-- Reads rows of CPY.QNT. -/
def readRows (k : Nat) (b : CpyBlk) : Nat → Nat → State → Except RdRes (List (List FpVal) × Bool × State)
  | 0, _, s => .ok ([], false, s)
  | n + 1, r, s =>
    match engineRead s k b.sspace (BitVec.ofInt 64 (b.src + r * b.sstr)) (b.cols * b.esize) with
    | .ok bs st s1 =>
      let vs := (elemsOf b.esize b.cols bs).map fun x => (fpOf b.srcTy).decode x
      match readRows k b n (r + 1) s1 with
      | .ok (rs, st2, s2) => .ok (vs :: rs, st || st2, s2)
      | .error e => .error e
    | e => .error e

/-- Moves the rows of one step. -/
def copyStep (s : State) (k order : Nat) (b : CpyBlk) (r : Nat) : RdRes :=
  let e := b.esize
  let n := b.cols * e
  let at_ := fun (i : Int) => (BitVec.ofInt 64 i : DWord)
  let finish := fun (stale : Bool) (w : List (DWord × List Byte)) (s : State) =>
    match engineWrites k b.dspace order w s with
    | .ok _ st s1 => RdRes.ok [] (stale || st) s1
    | e => e
  if b.form = 4 then
    match readRows k b b.unit r s with
    | .error e => e
    | .ok (rows, stale, s1) => finish stale (b.qntWrites r rows) s1
  else if b.form = 5 then
    finish false [(at_ (b.dsta + r * b.dstr), (List.replicate b.cols (leBytes e b.aux2)).flatten)] s
  else
    let ix : Except RdRes (Int × Bool × State) :=
      if b.form = 1 || b.form = 2 then
        match engineRead s k b.xspace (BitVec.ofNat 64 (b.aux2 + 4 * r)) 4 with
        | .ok bs st s1 => .ok ((BitVec.ofNat 32 (leNat bs)).toInt, st, s1)
        | e => .error e
      else .ok (r, false, s)
    match ix with
    | .error e => e
    | .ok (i, old, s0) =>
      match engineRead s0 k b.sspace (at_ (b.src + (if b.form = 1 then i else r) * b.sstr)) n with
      | .ok bs stale s1 =>
        let w : List (DWord × List Byte) :=
          match b.form with
          | 0 =>
            if b.tr then
              (List.range b.cols).map fun (c : Nat) => (at_ (b.dsta + c * b.dstr + (r * e : Nat)), (bs.drop (c * e)).take e)
            else [(at_ (b.dsta + r * b.dstr), bs)]
          | 2 => [(at_ (b.dsta + i * b.dstr), bs)]
          | 3 =>
            ([0, 1, 2, 3].filter fun j => fld b.mask j 1 == 1).map fun (j : Nat) =>
              (at_ (b.dstBase + r * b.dstr + (2 ^ 21 + j * 2 ^ 19 : Nat)), bs)
          | _ => [(at_ (b.dsta + r * b.dstr), bs)]
        finish (old || stale) w s1
      | e => e

/-- The operation a copy engine runs: its team and the operation. -/
def copyRunning (s : State) (core eng : Nat) : Option (Nat × EngOp) :=
  match aget (s.core core).engines eng with
  | some (k, c) =>
    match ((s.team k).queue c).head with
    | some o => if o.state == .running then some (k, o) else none
    | none => none
  | none => none

/-- A copy engine is idle again; the engines look for work. -/
def freeEngine (s : State) (core eng : Nat) : State :=
  ((s.modCore core fun c => { c with engines := adel c.engines eng }).pushOnce (.copyEngineTake core 0)).pushOnce
    (.copyEngineTake core 1)

/-- The address that a faulted copy records (R217): for FABRIC_UNREACHABLE the device number or die that cannot be reached. -/
def faultAddr (s : State) (t : Team) (c : Cause) (v : DWord) : DWord :=
  if c != .fabricUnreachable then v
  else
    let far : Option Nat := [AccKind.load, .store].findSome? fun kind =>
      match s.xlateEngine t (some t.agent) kind v with
      | .ok (xl, s1) => s1.unreachable t.die xl.ty xl.pa
      | .error _ => none
    let table := (s.tableLines t.die (s.teamXrec t) v).findSome? fun ln =>
      (regionOf (ln * 128)).bind fun ty => s.unreachable t.die ty (ln * 128)
    ((far.orElse fun _ => table).map fun d => BitVec.ofNat 64 d).getD v

/-- COPY_ROW (R216, R217, R219 to R224). -/
def execCopyRow (core eng : Nat) (s : State) : Host.Outcome State Fault Refusal :=
  match copyRunning s core eng with
  | none => next s
  | some (k, o) =>
    match copyForm o.instr with
    | none => next s
    | some (form, ty) =>
      let b := cpyBlock form ty o.block
      if b.rows ≤ o.row then next (s.push (.copyComplete core eng))
      else
        match copyStep s k o.order b o.row with
        | .wait _ => next (s.push (.copyRow core eng))
        | .trap c v =>
          if c.resolvable then next (stopEngineOp s k o .copyFault c v (BitVec.ofNat 64 o.row))
          else next (freeEngine (s.endEngineOp k o (.faulted c (faultAddr s (s.team k) c v)) 0) core eng)
        | .ok _ stale s1 =>
          let r := o.row + b.unit
          let s2 := s1.modOp k o fun x => { x with row := r, stale := x.stale || stale }
          let s3 := s2.setScore o.order ((b.entries s2 k r).map fun e => (e.1, { e.2 with order := o.order }))
          next (s3.push (if b.rows ≤ r then .copyComplete core eng else .copyRow core eng))

/-- COPY_COMPLETE (R169, R210): the token completes, and the engine is idle. -/
def execCopyComplete (core eng : Nat) (s : State) : Host.Outcome State Fault Refusal :=
  match copyRunning s core eng with
  | none => next s
  | some (k, o) =>
    let b := match copyForm o.instr with
      | some (form, ty) => cpyBlock form ty o.block
      | none => cpyBlock 0 .n8 []
    if o.row < b.rows then next (s.push (.copyRow core eng))
    else next (freeEngine (s.endEngineOp k o .done 0) core eng)

/-- The copy queues of a core that an engine could serve: the place in the rotation, the team and the queue. -/
def copyWork (s : State) (core : Nat) : List (Nat × Nat × Nat) :=
  s.teams.flatMap fun kt =>
    if kt.2.kind != .lodestar && kt.2.core == core && kt.2.resident then
      [0, 1, 2, 3].filterMap fun c =>
        match (kt.2.queue c).head with
        | some o => if !o.isFence && o.state.waits then some (kt.2.slot * 4 + c, kt.1, c) else none
        | none => none
    else []

/-- The candidate that comes first after place `last` in a rotation of `n` places. -/
def nextInTurn (n last : Nat) : List (Nat × Nat × Nat) → Option (Nat × Nat × Nat)
  | [] => none
  | p :: r =>
    match nextInTurn n last r with
    | none => some p
    | some q => if (p.1 + n - 1 - last % n) % n < (q.1 + n - 1 - last % n) % n then some p else some q

/-- COPY_ENGINE_TAKE (R210): an idle engine takes the head of the next queue in the rotation. -/
def execCopyEngineTake (core eng : Nat) (s : State) : Host.Outcome State Fault Refusal :=
  let stale :=
    match aget (s.core core).engines eng with
    | none => true
    | some (k, c) =>
      match ((s.team k).queue c).head with
      | some o => o.state.waits || o.isFence
      | none => true
  if !stale then next s
  else
    match nextInTurn 256 (s.core core).engineRot (copyWork s core) with
    | none => next (s.modCore core fun v => { v with engines := adel v.engines eng })
    | some (p, k, c) =>
      match ((s.team k).queue c).head with
      | none => next s
      | some o =>
        next (((s.modOp k o fun x => { x with state := .running }).modCore core fun v =>
          { v with engines := aset v.engines eng (k, c), engineRot := p }).push (.copyRow core eng))

end Sys2Proof.Machine
end

