-- ==== Sys2Proof/Machine/Keys.lean ====
section
/-! DEFINITION. The key tables of the partitions (R443, R451, R452). -/

namespace Sys2Proof.Machine

/-- A slot of a partition's key table. -/
def State.keySlot (s : State) (part slot : Nat) : KeySlot := (aget (s.part part).keys slot).getD {}

def State.setKey (s : State) (part slot : Nat) (v : KeySlot) : State :=
  s.modPart part fun p => { p with keys := aset p.keys slot v }

def keyIndex (k : Word) : Nat := k.toNat % 65536
def keyTag (k : Word) : Nat := k.toNat / 65536

/-- A key record (R451) in its 32 bytes, as the values that register a slot; `none` where it breaks the table. -/
def readKeyRec (bs : List Byte) : Option KeySlot :=
  let f := fun (o n : Nat) => leNat ((bs.drop o).take n)
  let sel : Word := BitVec.ofNat 32 (f 20 4)
  if f 8 8 = 0 || 2 ^ 48 < f 8 8 || 8 ≤ f 16 4 || f 24 8 != 0 || (sel != BitVec.allOnes 32 && 2 ^ 18 ≤ sel.toNat) then none
  else some { base := BitVec.ofNat 64 (f 0 8), len := f 8 8, rights := f 16 4, qpsel := sel }

/-- Op 0 of RMA.KEY (R451): the status, and the state after. -/
def keyRegister (s : State) (part ctx : Nat) (k : Word) (bs : List Byte) : Word × State :=
  let i := keyIndex k
  match readKeyRec bs with
  | none => (2, s)
  | some v =>
    if (s.keySlot part i).state != .invalid then (1, s)
    else (0, s.setKey part i { v with state := .valid, tag := keyTag k, ctx := ctx })

/-- Op 2 of RMA.KEY (R451). -/
def keyWord (s : State) (part : Nat) (k : Word) : Word :=
  let v := s.keySlot part (keyIndex k)
  let st :=
    match v.state with
    | .invalid => 0
    | .valid => 1
    | .revoking => 2
  BitVec.ofNat 32 (st * 2 ^ 30 + v.tag % 65536)

end Sys2Proof.Machine
end

