-- ==== Sys2Proof/Machine/Views.lean ====
section
/-! DEFINITION. Parallax views: registration, dropping, fences and status (R228 to R241), recomputation and
publication (R173 to R178), and the acceptance of engine operations (R212, R237, R239, R240). -/

namespace Sys2Proof.Machine

/-! ### The view record (R229, R230, R231) -/

/-- The view record as read (R229). -/
structure ViewRec where
  mbase : Nat
  mrows : Nat
  mcols : Nat
  mstr : Nat
  vctrl : Nat
  shlen : Nat
  sbase : List Nat
  rest : List Byte
  deriving DecidableEq, Repr

def readViewRec (bs : List Byte) : ViewRec :=
  { mbase := fieldAt bs 0 8, mrows := fieldAt bs 8 4, mcols := fieldAt bs 12 4, mstr := fieldAt bs 16 8
    vctrl := fieldAt bs 24 4, shlen := fieldAt bs 28 4, sbase := (List.range 8).map fun i => fieldAt bs (32 + 8 * i) 8
    rest := bs.drop 96 }

def ViewRec.shards (r : ViewRec) : Nat := fld r.vctrl 15 3 + 1
def ViewRec.column (r : ViewRec) : Bool := fld r.vctrl 12 1 == 1

/-- MTYPE (R230). -/
def ViewRec.mtype (r : ViewRec) : Ty :=
  match fld r.vctrl 10 2 with
  | 0 => .f32
  | 1 => .bf16
  | _ => .f16

/-- VTYPE (R230): the view types by their codes of R39. -/
def ViewRec.vtype (r : ViewRec) : Option Ty :=
  match tyOfCode (fld r.vctrl 5 5) with
  | some ty => if [Ty.e4m3, .e5m2, .e3m2, .e2m3, .e2m1, .f32, .f16, .bf16].contains ty then some ty else none
  | none => none

def ViewRec.policy (r : ViewRec) : Policy :=
  match fld r.vctrl 13 2 with
  | 0 => .block
  | 1 => .permit
  | _ => .fault

/-- Bytes of a master element. -/
def ViewRec.msize (r : ViewRec) : Nat := if r.mtype == .f32 then 4 else 2

/-- The sharded dimension, and the blocks along the other (R229, R231). -/
def ViewRec.dim (r : ViewRec) : Nat := if r.column then r.mcols else r.mrows
def ViewRec.per (r : ViewRec) : Nat := (if r.column then r.mrows else r.mcols) / 32

/-- Reasons 1 to 3 of R238. -/
def ViewRec.badField (r : ViewRec) : Option Nat :=
  if fld r.vctrl 18 14 != 0 || fld r.vctrl 0 5 != 0 || r.rest.any (· != 0) || fld r.vctrl 13 2 == 3 || fld r.vctrl 10 2 == 3 ||
      r.vtype.isNone then some 1
  else if r.mbase % r.msize != 0 || r.mrows == 0 || decide (2 ^ 24 < r.mrows) || r.mcols == 0 || decide (2 ^ 24 < r.mcols) ||
      r.mstr % r.msize != 0 || decide (r.mstr < r.mcols * r.msize) || r.shlen == 0 || decide (r.shards * r.shlen < r.dim) ||
      decide (r.dim ≤ (r.shards - 1) * r.shlen) || (if r.column then r.mrows else r.mcols) % 32 != 0 then some 2
  else if (r.sbase.take r.shards).any (fun a => a % 128 != 0) || (r.sbase.drop r.shards).any (fun a => a != 0) then some 3
  else none

/-! ### Translating a range (R233, R238) -/

/-- The pieces of a range inside 4 KiB pages: offset from the start, address, bytes. -/
def pagePieces : Nat → Nat → Nat → Nat → List (Nat × Nat × Nat)
  | 0, _, _, _ => []
  | fuel + 1, off, a, n =>
    if n = 0 then []
    else
      let k := min n (4096 - a % 4096)
      (off, a, k) :: pagePieces fuel (off + k) (a + k) (n - k)

/-- A translated piece of a range. -/
structure VSeg where
  off : Nat
  va : Nat
  xl : Xlat
  len : Nat
  deriving DecidableEq, Repr

/-- Translates pieces as loads; `none` where a check of R106 fails. -/
def translateAll (t : Team) : List (Nat × Nat × Nat) → State → Option (List VSeg × State)
  | [], s => some ([], s)
  | (off, a, n) :: r, s =>
    match s.xlateTeam t .load (BitVec.ofNat 64 a) with
    | .error _ => none
    | .ok (xl, s1) =>
      match translateAll t r s1 with
      | none => none
      | some (vs, s2) => some ({ off := off, va := a, xl := xl, len := n } :: vs, s2)

/-- The pieces of a master, row by row. -/
def ViewRec.masterPieces (r : ViewRec) : List (Nat × Nat × Nat) :=
  (List.range r.mrows).flatMap fun i =>
    pagePieces (r.mcols * r.msize / 4096 + 2) (i * r.mstr) (r.mbase + i * r.mstr) (r.mcols * r.msize)

/-- Rounded up to a line (R231). -/
def upLine (n : Nat) : Nat := (n + 127) / 128 * 128

/-- One shard's layout (R231): blocks, offsets of scales and tags, and size. -/
structure Layout where
  blocks : Nat
  scales : Nat
  tags : Nat
  size : Nat
  deriving DecidableEq, Repr

def ViewRec.layout (r : ViewRec) (vty : Ty) (i : Nat) : Layout :=
  let nb := min r.shlen (r.dim - i * r.shlen) * r.per
  let so := upLine (nb * 4 * viewBits vty)
  let scaled := viewBits vty ≤ 8
  let tg := if scaled then upLine (so + nb) else so
  { blocks := nb, scales := so, tags := tg, size := tg + 4 * nb }

/-- Physical segments of the bytes lo to hi-1 of a translated range. -/
def cutSegs (lo hi : Nat) (vs : List VSeg) : Segs :=
  vs.filterMap fun v =>
    let a := max lo v.off
    let z := min hi (v.off + v.len)
    if a < z then some (v.xl.pa + (a - v.off), z - a) else none

/-- Two physical ranges meet. -/
def meets (a b : Nat × Nat) : Bool := decide (a.1 < b.1 + b.2) && decide (b.1 < a.1 + a.2)

def segsMeet (a b : Segs) : Bool := a.any fun x => b.any fun y => meets x y

/-- Some segment of a list meets a later one. -/
def selfMeets : Segs → Bool
  | [] => false
  | x :: r => r.any (meets x) || selfMeets r

def View.areas (v : View) : Segs := v.shards.flatMap fun sh => sh.elems ++ sh.scales ++ sh.tags
def View.masterSegs (v : View) : Segs := v.master.map fun g => (g.pa, g.len)

/-- Registered views whose master holds a physical byte. -/
def viewsOver (s : State) (pa : Nat) : Nat := (s.views.filter fun v => v.masterSegs.any fun g => meets g (pa, 1)).length

/-- Eight registered views derive from some byte of a master (R228): the count can only rise where a range starts. -/
def masterFull (s : State) (m : Segs) : Bool :=
  let starts := m.map (·.1) ++ (s.views.flatMap fun v => v.masterSegs.map (·.1)).filter fun a => m.any fun g => meets g (a, 1)
  starts.any fun a => 8 ≤ viewsOver s a

/-- The entries that a leaf's translation rests on: itself, or the sixteen of its contiguous group (R93). -/
def leafEntries (s : State) (a e : Nat) : List (Nat × Nat) :=
  if bitOf e 7 then (List.range 16).map fun j => (a / 128 * 128 + 8 * j, s.mem.nat (a / 128 * 128 + 8 * j) 8) else [(a, e)]

/-- The page-table entries on a walk, with their values (R234). -/
def walkEntries (s : State) (va : Nat) : Nat → Nat → List (Nat × Nat)
  | lvl, table =>
    let a := table + 8 * fld va (12 + 9 * lvl) 9
    let e := s.mem.nat a 8
    match lvl with
    | 0 => leafEntries s a e
    | l + 1 => if bitOf e 0 && !bitOf e 1 then (a, e) :: walkEntries s va l (frameOf e * 4096) else leafEntries s a e

/-- A leaf that a view's areas may use (R233): RD = 1, which the load has checked, W = 0 and MASTER = 0. -/
def areaLeafOk (s : State) (xl : Xlat) : Bool :=
  !xl.host && !xl.master && !bitOf (s.mem.nat xl.pte 8) 4 && (xl.ty == .dram || xl.ty == .peer)

/-- The registration checks of R238 after the record has been read: the reason, or the view. -/
def buildView (s : State) (t : Team) (r : ViewRec) : Except Nat (View × State) :=
  match r.badField, r.vtype with
  | some n, _ => .error n
  | none, none => .error 1
  | none, some vty =>
    match translateAll t r.masterPieces s with
    | none => .error 4
    | some (ms, s1) =>
      if ms.any fun v => !v.xl.master || v.xl.ty != .dram then .error 4
      else
        let lays := (List.range r.shards).map fun i => (getAt 0 r.sbase i, r.layout vty i)
        let pieces := lays.map fun (p : Nat × Layout) => pagePieces (p.2.size / 4096 + 2) 0 p.1 p.2.size
        match translateEach pieces s1 with
        | none => .error 5
        | some (as_, s2) =>
          if as_.any fun vs => vs.any fun v => !areaLeafOk s2 v.xl then .error 5
          else
            let master := ms.map fun v => ({ off := v.off, pa := v.xl.pa, len := v.len } : MasterSeg)
            let mine : Segs := as_.flatMap fun vs => vs.map fun v => (v.xl.pa, v.len)
            let msegs : Segs := master.map fun g => (g.pa, g.len)
            if selfMeets mine || segsMeet mine msegs || s2.views.any (fun o =>
                segsMeet mine o.areas || segsMeet mine o.masterSegs || segsMeet msegs o.areas) then .error 6
            else if decide (1024 ≤ (s2.views.filter fun o => o.part == t.part).length) || masterFull s2 msegs then .error 7
            else if as_.any fun vs => vs.any fun v => (s2.unreachable t.die v.xl.ty v.xl.pa).isSome then .error 8
            else
              let root := ((s2.teamXrec t).map fun x => x.root).getD 0
              let watch := ((ms ++ as_.flatten).flatMap fun v => walkEntries s2 v.va 4 (root * 4096)).eraseDups
              let shards := mapAt (fun i (p : (Nat × Layout) × List VSeg) =>
                ({ elems := cutSegs 0 (p.1.2.blocks * 4 * viewBits vty) p.2
                   scales := if p.1.2.tags = p.1.2.scales then [] else cutSegs p.1.2.scales (p.1.2.scales + p.1.2.blocks) p.2
                   tags := cutSegs p.1.2.tags p.1.2.size p.2
                   first := i * r.shlen * r.per, blocks := p.1.2.blocks } : Shard)) 0 (lays.zip as_)
              .ok ({ slot := 0, serial := 0, part := t.part, mrows := r.mrows, mcols := r.mcols, mtype := r.mtype,
                     vtype := vty, column := r.column, policy := r.policy, master := master, mstr := r.mstr,
                     shards := shards, watch := watch, faulted := false, dropped := false, installed := false }, s2)
where
  translateEach : List (List (Nat × Nat × Nat)) → State → Option (List (List VSeg) × State)
    | [], s => some ([], s)
    | p :: r, s =>
      match translateAll t p s with
      | none => none
      | some (v, s1) =>
        match translateEach r s1 with
        | none => none
        | some (vs, s2) => some (v :: vs, s2)

/-! ### Handles (R237) -/

def View.handle (v : View) : Word := BitVec.ofNat 32 (v.serial % 2 ^ 16 * 2 ^ 16 + v.slot)

/-- The view a handle names; a stale handle names none (R237). -/
def State.viewOf (s : State) (part : Nat) (h : Word) : Option View :=
  s.views.find? fun v => v.part == part && v.handle == h && !v.dropped

/-- Slots of a partition that hold no view. -/
def freeSlots (s : State) (part : Nat) : List Nat :=
  (List.range 1024).filter fun i => !s.views.any fun v => v.part == part && v.slot == i

/-- Registers a view at acceptance (R237, R238): which free slot it takes, and its new serial, are open (log 5). -/
def registerView (s : State) (part : Nat) (v : View) : Option (View × State) :=
  match freeSlots s part with
  | [] => none
  | sl =>
    let (r, s1) := s.free 20
    let slot := getAt 0 sl (r % sl.length)
    let (q, s2) := s1.free 21
    let old := (aget (s2.part part).viewSerials slot).getD 0
    let serial := (old + 1 + q % 65535) % 65536
    let v' := { v with slot := slot, serial := serial }
    some (v', { s2.modPart part (fun p => { p with viewSerials := aset p.viewSerials slot serial }) with
                views := s2.views ++ [v'] })

/-- Reasons 6 and 7 of R238, judged again at acceptance for a view that others may have been registered before since its
issue: the limits of R228 hold of registered views (DESIGN CHOICE, log 86). -/
def regLate (s : State) (v : View) : Option Nat :=
  if s.views.any fun o => segsMeet v.areas o.areas || segsMeet v.areas o.masterSegs || segsMeet v.masterSegs o.areas then some 6
  else if decide (1024 ≤ (s.views.filter fun o => o.part == v.part).length) || masterFull s v.masterSegs then some 7
  else none

/-! ### Instructions -/

/-- What VIEW.REG checks at issue: the record is read and judged (R237, R238). -/
def prepareViewReg (i : Instr) (s : State) (g : Grp) (L : LCtx) (lr : LogRec) (th : Thread) :
    Except AccStop (Prepared × Thread × State) :=
  let a := lr.a
  let t := L.team
  if a.toNat % 128 != 0 then .error (.trap .misalignedAccess a .nothing)
  else if earlierLoad th s.serial then .error .hold
  else
    match s.piece g.k L.lane .load a 128 with
    | .error e => .error e
    | .ok (p, s1) =>
      if ownBefore t L.lane s.serial [p] then .error .hold
      else
      match s1.readNow (some t.agent) true p.xl a 128 with
      | .wait _ => .error .hold
      | .trap c v => .error (.trap c v .nothing)
      | .ok bs stale s2 =>
        let th' := if stale then { th with vstale := th.vstale ||| 1 } else th
        match buildView s2 t (readViewRec (overlay t L.lane s.serial none p.xl.pa bs)) with
        | .error n => .error (.trap .viewRegistration (BitVec.ofNat 64 n) .nothing)
        | .ok (v, s3) =>
          .ok ({ op := { qs := [5], instr := i, lane := L.lane, block := [], args := [], view := some v }, spans := [] }, th', s3)

/-- An operation of the view queue with the handle it reads (R237, R239, R240). -/
def prepareHandle (i : Instr) (s : State) (_ : Grp) (L : LCtx) (lr : LogRec) (th : Thread) :
    Except AccStop (Prepared × Thread × State) :=
  .ok ({ op := { qs := [5], instr := i, lane := L.lane, block := [], args := [low32 lr.a] }, spans := [] }, th, s)

/-- VIEW.REG (R237, R238). -/
def execViewReg (x : XOps) (s : State) : Host.Outcome State Fault Refusal :=
  engineOp s (.viewReg x) x (prepareViewReg (.viewReg x))

/-- VIEW.DROP (R237, R239). -/
def execViewDrop (x : XOps) (s : State) : Host.Outcome State Fault Refusal :=
  engineOp s (.viewDrop x) x (prepareHandle (.viewDrop x))

/-- VIEW.FENCE (R237, R240). -/
def execViewFence (x : XOps) (s : State) : Host.Outcome State Fault Refusal :=
  engineOp s (.viewFence x) x (prepareHandle (.viewFence x))

/-- Blocks of a view. -/
def View.blocks (v : View) : Nat := v.shards.foldl (fun n sh => n + sh.blocks) 0

/-- The report of VIEW.STAT (R241). -/
def viewStat (s : State) (part : Nat) (h n : Word) : Word :=
  match s.viewOf part h with
  | none => 0x40000000
  | some v =>
    let f : Nat := if v.faulted then 2 ^ 29 else 0
    if v.blocks ≤ n.toNat then BitVec.ofNat 32 (2 ^ 31 + f) else BitVec.ofNat 32 (f + s.tagOf v n.toNat % 2 ^ 18)

/-- One lane of VIEW.STAT. -/
def viewStatLane (x : XOps) (s : State) (L : LCtx) (th : Thread) : Except AccStop (List Word × Thread × State) :=
  let f := ofX x
  match (do
    let a ← srcA L .int .w32 f
    let b ← srcB L .int .w32 f
    return (a.lo, b.lo) : LaneM (Word × Word)) th with
  | .error e => .error e
  | .ok ((h, n), th) => .ok ([viewStat s L.team.part h n], th, s)

/-- VIEW.STAT (R241). -/
def execViewStat (x : XOps) (s : State) : Host.Outcome State Fault Refusal :=
  effectOp s (.viewStat x) (ofX x) (fun _ => none) (viewStatLane x)

/-! ### Acceptance -/

/-- Removes an instruction that waited for acceptance. -/
def dropPending (s : State) (k id : Nat) : State :=
  s.modTeam k fun t => { t with pending := t.pending.filter fun q => q.id != id }

/-- Accepts one operation (R167, R171, R208, R209, R237, R239, R240, R451): `none` while there is no free view slot, or no
room for what it writes to its lanes. -/
def acceptOp (k : Nat) (p : PendingOp) (s : State) : Option State :=
  let t := s.team k
  let answer := fun (w : Word) (s1 : State) => writeLanes s1 k p.id w p.lanes
  let refuse := fun (n : Nat) => doomLanes (dropPending s k p.id) k p.id .viewRegistration (BitVec.ofNat 64 n) p.lanes
  let h := DWord.lo (getAt 0 p.op.args 0)
  match p.op.instr with
  | .viewReg _ =>
    match p.op.view with
    | none => some (dropPending s k p.id)
    | some v =>
      match regLate s v, registerView s t.part v with
      | some n, _ => some (refuse n)
      | none, none => none
      | none, some (v', s1) =>
        answer v'.handle (s1.enter k { p with op := { p.op with view := some v', args := [v'.handle.zext] } }).2
  | .viewDrop _ =>
    match s.viewOf t.part h with
    | none => answer 1 (dropPending s k p.id)
    | some v =>
      let s1 := { s with views := s.views.map fun o => if o == v then { o with dropped := true } else o }
      answer 0 (s1.enter k p).2
  | .viewFence _ =>
    if h != BitVec.allOnes 32 && (s.viewOf t.part h).isNone then some (refuse 9)
    else
      let (o, s1) := s.enter k p
      answer o.token s1
  | .rmaKey x =>
    if x.a == .lit 0 then
      let r := keyRegister s t.part t.ctx h p.op.block
      answer r.1 (dropPending r.2 k p.id)
    else if x.a == .lit 2 then answer (keyWord s t.part h) (dropPending s k p.id)
    else
      let (o, s1) := s.enter k p
      answer o.token s1
  | _ =>
    let (o, s1) := s.enter k p
    answer o.token s1

/-! ### The Parallax engine -/

/-- Physical places of a block: its elements, its scale and its tag. -/
def View.place (v : View) (n : Nat) : Option (Nat × Option Nat × Nat) :=
  v.shards.findSome? fun sh =>
    if sh.first ≤ n && n < sh.first + sh.blocks then
      let j := n - sh.first
      some (segAddr sh.elems (j * v.blockBytes), if v.scaled then some (segAddr sh.scales j) else none, segAddr sh.tags (4 * j))
    else none

/-- Byte offsets of the master elements of a block, in order (R228, R231). -/
def View.blockElems (v : View) (n : Nat) : List Nat :=
  let per := (if v.column then v.mrows else v.mcols) / 32
  (List.range 32).map fun j =>
    let along := 32 * (n % per) + j
    if v.column then along * v.mstr + n / per * v.msize else n / per * v.mstr + along * v.msize

/-- Writes bytes of a view's areas: the engine of a die writes them regardless of W (R233). -/
def areaWrite (s : State) (die pa : Nat) (bs : List Byte) : State :=
  s.performWrite (some (parallaxOf die)) false (physMode pa) false none (wholeBytes pa bs)

/-- A Parallax write waits for tokens on their way to another agent (R125, R129). -/
def areaBusy (s : State) (die pa n : Nat) : Bool :=
  (linesIn pa n).any fun ln => s.writeBlocked (parallaxOf die) (physMode pa) ln

/-- Some page of a list cannot be read or written (R178). -/
def pageLost (s : State) (die pa n : Nat) : Bool :=
  (s.memError pa n).isSome || (s.unreachable die ((regionOf pa).getD .dram) pa).isSome

/-- Elements and scale of a block from its master values (R174, R231, R236). -/
def View.quant (v : View) (vs : List FpVal) : List Byte × Option Byte :=
  if v.scaled then
    let (es, sc) := quantBlock v.vtype vs
    (es, some sc)
  else
    (vs.flatMap fun x => leBytes (viewBits v.vtype / 8) ((fpOf v.vtype).roundVal false .rne x).bits, none)

/-- The operations of the view queues look again: a fence that waits, or a faulted view. -/
def pokeFences (s : State) : State :=
  s.teams.foldl (fun s kt => if (kt.2.queue 5).ops.isEmpty then s else s.pushOnce (.viewQueueOperation kt.1)) s

/-- A publication takes a block from the fences that wait for it (R177). -/
def publishTo (s : State) (part slot block : Nat) : State :=
  let key := BitVec.ofNat 64 (slot * 2 ^ 48 + block)
  let upd := fun (o : EngOp) =>
    match o.instr with
    | .viewFence _ => { o with args := o.args.take 1 ++ (o.args.drop 1).filter fun a => a != key }
    | _ => o
  pokeFences { s with teams := s.teams.map fun kt =>
    if kt.2.part == part then (kt.1, kt.2.modQueue 5 fun q => { q with ops := q.ops.map upd }) else kt }

/-- PARALLAX_RECOMPUTE (R174, R178): the steps of one recomputation, from clearing the pending bit to publication, by the
engine of the die that homes the master block's first element. -/
def execParallaxRecompute (part slot block : Nat) (s : State) : Host.Outcome State Fault Refusal :=
  match s.views.find? fun v => v.part == part && v.slot == slot && v.installed with
  | none => next s
  | some v =>
    match v.place block with
    | none => next s
    | some (ep, sp, tp) =>
      let t := s.mem.nat tp 4
      if v.faulted || !tagPend t then next s
      else
        let offs := (v.blockElems block).map fun o => masterAddr v.master o
        let die := dieOfPa (getAt 0 offs 0)
        if pageLost s die ep v.blockBytes || pageLost s die tp 4 || (sp.map fun a => pageLost s die a 1) == some true ||
            offs.any fun a => pageLost s die a v.msize then
          let s0 := if pageLost s die tp 4 then s else areaWrite s die tp (leBytes 4 (t - 2 ^ 17))
          next (pokeFences (s0.faultView part slot))
        else if areaBusy s die ep v.blockBytes || areaBusy s die tp 4 || sp.any fun a => areaBusy s die a 1 then
          next (s.push (.parallaxRecompute part slot block))
        else
          match State.takeTokens (parallaxOf die) ((offs.filter fun a => physMode a == .coh).map lineOf).eraseDups s with
          | (false, s0) => next (s0.push (.parallaxRecompute part slot block))
          | (true, s0) =>
            let (es, sc) := v.quant (offs.map fun a => (fpOf v.mtype).decode (s0.mem.nat a v.msize))
            let s1 := areaWrite s0 die ep es
            let s2 :=
              match sp, sc with
              | some a, some b => areaWrite s1 die a [b]
              | _, _ => s1
            let s3 := areaWrite s2 die tp (leBytes 4 ((t + 1) % 2 ^ 16 + 2 ^ 16))
            next (publishTo s3 part slot block)

/-- VIEW_PUBLISH_MESSAGE (R174): another device publishes one block of a view held here: elements, scale, version and
fresh bit in one step. -/
def execViewPublishMessage (m : ViewMsg) (s : State) : Host.Outcome State Fault Refusal :=
  let die := dieOfPa m.elemPa
  if areaBusy s die m.elemPa m.elems.length || areaBusy s die m.tagPa 4 || m.scalePa.any fun a => areaBusy s die a 1 then
    next (s.push (.viewPublishMessage m))
  else
    let s1 := areaWrite s die m.elemPa m.elems
    let s2 :=
      match m.scalePa with
      | some a => areaWrite s1 die a [m.scale]
      | none => s1
    next (areaWrite s2 die m.tagPa (leBytes 4 (m.version.toNat + 2 ^ 16)))

/-- REMOTE_VIEW_BLOCK_CLEAR (R173): a master write reaches a derived block held on another device. -/
def execRemoteViewBlockClear (part slot block : Nat) (s : State) : Host.Outcome State Fault Refusal :=
  match s.views.find? fun v => v.part == part && v.slot == slot && v.installed with
  | none => next s
  | some v => next (if v.faulted then s else s.clearBlock v block)

/-- The engine's work of VIEW.REG, in order: zeros, tags, ranges, and the first recomputations (R238). -/
def installView (s : State) (v : View) : State :=
  let s1 := v.shards.foldl (fun s sh =>
    let z := fun (s : State) (g : Nat × Nat) => areaWrite s (dieOfPa g.1) g.1 (List.replicate g.2 0)
    let s1 := sh.scales.foldl z (sh.elems.foldl z s)
    (List.range sh.blocks).foldl (fun s j =>
      areaWrite s (dieOfPa (segAddr sh.tags (4 * j))) (segAddr sh.tags (4 * j)) (leBytes 4 (2 ^ 17))) s1) s
  let s2 := { s1 with views := s1.views.map fun o => if o.part == v.part && o.slot == v.slot then { o with installed := true } else o }
  (List.range v.blocks).foldl (fun s b => s.push (.parallaxRecompute v.part v.slot b)) s2

/-- The blocks a fence waits for: every block of the views it names with its pending bit set, or on its way to it; of a view
whose registration has been accepted and whose engine has not yet installed it, every block (R177, R238). -/
def fenceBlocks (s : State) (vs : List View) : List DWord :=
  vs.flatMap fun v => ((List.range v.blocks).filter fun b =>
    !v.installed || tagPend (s.tagOf v b) || s.flight.contains (.remoteViewBlockClear v.part v.slot b)).map fun b =>
      BitVec.ofNat 64 (v.slot * 2 ^ 48 + b)

/-- VIEW_QUEUE_OPERATION (R168, R177, R238 to R240): the head of a team's view queue. -/
def execViewQueueOperation (k : Nat) (s : State) : Host.Outcome State Fault Refusal :=
  let t := s.team k
  match (t.queue 5).head with
  | none => next s
  | some o =>
    let h := DWord.lo (getAt 0 o.args 0)
    match o.instr with
    | .viewReg _ =>
      let s1 :=
        match s.views.find? fun v => v.part == t.part && v.handle == h with
        | some v => installView s v
        | none => s
      next (s1.endEngineOp k o .done 0)
    | .viewDrop _ =>
      let s1 := { s with views := s.views.filter fun v => !(v.part == t.part && v.handle == h) }
      next (pokeFences (s1.endEngineOp k o .done 0))
    | .viewFence _ =>
      let all := h == BitVec.allOnes 32
      let vs := s.views.filter fun v => v.part == t.part && (all || v.handle == h)
      if vs.any fun v => v.faulted then next (s.endEngineOp k o (.faulted .viewFaulted h.zext) 0)
      else
        let present := fun (a : DWord) => vs.any fun v => v.slot == a.toNat / 2 ^ 48
        let wait := if o.state == .queued then fenceBlocks s vs else (o.args.drop 1).filter present
        if wait.isEmpty then next (s.endEngineOp k o .done 0)
        else next ((s.modOp k o fun x => { x with state := .running, args := h.zext :: wait }).push (.viewQueueOperation k))
    | _ => next s

end Sys2Proof.Machine
end

