-- ==== Sys2Proof/Machine/Matrix.lean ====
section
/-! DEFINITION. The matrix engine (R314 to R332), the block-aligned integer form (R279 to R282), accumulator banks
(R333, R334) and the instructions of 0x5C to 0x5E (R335 to R341). -/

namespace Sys2Proof.Machine

/-! ### Formats (R314 to R317) -/

def mxFloats : List Ty := [.e2m1, .e2m3, .e3m2, .e4m3, .e5m2, .bf16, .f16]
def mxScaled : List Ty := [.e2m1, .e2m3, .e3m2, .e4m3, .e5m2]
def mxInts : List Ty := [.s4, .s8]

/-- The format word (R316). -/
structure MxFmt where
  a : Option Ty
  b : Option Ty
  sparse : Nat
  acct : Nat
  rest : Nat
  deriving DecidableEq, Repr

def mxFmt (w : Word) : MxFmt :=
  { a := tyOfCode (fld w.toNat 27 5), b := tyOfCode (fld w.toNat 22 5), sparse := fld w.toNat 20 2, acct := fld w.toNat 18 2
    rest := fld w.toNat 0 18 }

def tyIn (t : Option Ty) (l : List Ty) : Bool :=
  match t with
  | some x => l.contains x
  | none => false

/-- A format word is supported (R317). -/
def MxFmt.supported (f : MxFmt) (wload : Bool) : Bool :=
  f.sparse != 3 && f.rest == 0 &&
    (if wload then tyIn f.b (mxFloats ++ mxInts)
     else (tyIn f.a mxFloats && tyIn f.b mxFloats && f.acct == 0) ||
       (tyIn f.a mxInts && tyIn f.b mxInts && (f.acct == 1 || f.acct == 2)))

def MxFmt.aTy (f : MxFmt) : Ty := f.a.getD .e4m3
def MxFmt.bTy (f : MxFmt) : Ty := f.b.getD .e4m3
def MxFmt.wA (f : MxFmt) : Nat := f.aTy.container
def MxFmt.wB (f : MxFmt) : Nat := f.bTy.container

/-- Element width in bits (R320). -/
def mxWidth (ty : Ty) : Nat :=
  match ty with
  | .e2m1 | .s4 => 4
  | .e2m3 | .e3m2 => 6
  | .e4m3 | .e5m2 | .s8 => 8
  | _ => 16

/-- N span (R314). -/
def nSpan (ty : Ty) : Nat :=
  match ty with
  | .e2m1 | .s4 => 512
  | .bf16 | .f16 => 128
  | _ => 256

/-- K span of a chunk (R314). -/
def kChunk (sparse : Nat) : Nat := if sparse = 0 then 256 else 512

/-! ### The parameter block (R318 to R321) -/

structure MxBlk where
  baddr : Nat
  bscl : Nat
  oaddr : Nat
  aaddr : Nat
  astr : Nat
  ascl : Nat
  bcol : Nat
  ostr : Nat
  meta_ : Nat
  k : Nat
  m : Nat
  n : Nat
  banks : Nat
  ctrl : Nat
  deriving DecidableEq, Repr

def mxBlk (bs : List Byte) : MxBlk :=
  { baddr := fieldAt bs 0 8, bscl := fieldAt bs 8 8, oaddr := fieldAt bs 16 8, aaddr := fieldAt bs 24 4
    astr := fieldAt bs 28 4, ascl := fieldAt bs 32 4, bcol := fieldAt bs 36 4, ostr := fieldAt bs 40 4
    meta_ := fieldAt bs 44 4, k := fieldAt bs 48 4, m := fieldAt bs 52 2, n := fieldAt bs 54 2, banks := fieldAt bs 56 4
    ctrl := fieldAt bs 60 4 }

def MxBlk.bsrc (p : MxBlk) : Nat := fld p.ctrl 12 2
def MxBlk.otype (p : MxBlk) : Nat := fld p.ctrl 10 2
def MxBlk.ospace (p : MxBlk) : Nat := fld p.ctrl 9 1
def MxBlk.zero (p : MxBlk) : Bool := fld p.ctrl 8 1 == 1
def MxBlk.bsc (p : MxBlk) : Bool := fld p.ctrl 7 1 == 1
def MxBlk.asc (p : MxBlk) : Bool := fld p.ctrl 6 1 == 1

/-- Bytes of an output element (R320). -/
def MxBlk.osize (p : MxBlk) : Nat := if p.otype = 1 then 4 else 2

/-- The banks a mask names, ascending. -/
def bankList (m : Nat) : List Nat := (List.range 32).filter fun i => fld m i 1 == 1

def MxBlk.list (p : MxBlk) : List Nat := bankList p.banks
def MxBlk.groups (p : MxBlk) : Nat := p.n / 64

/-- Rows of a pass, passes, and chunks (R322). -/
def MxBlk.passRows (p : MxBlk) : Nat := 32 * (p.list.length / p.groups)
def MxBlk.passes (p : MxBlk) : Nat := (p.m + p.passRows - 1) / p.passRows
def MxBlk.chunks (p : MxBlk) (f : MxFmt) : Nat :=
  if p.bsrc = 0 then 1 else (p.k + kChunk f.sparse - 1) / kChunk f.sparse

/-- Bytes of a stored K-block of B (R320). -/
def MxFmt.unitB (f : MxFmt) : Nat := if f.sparse = 0 then 4 * mxWidth f.bTy else 2 * mxWidth f.bTy

/-- The first field that breaks R321, by offset (check 4 of R336). DESIGN CHOICE (log 129): a block of several passes with
OTYPE = 0 or ZERO = 0 breaks the condition at BANKS, offset 56, which makes it several passes. -/
def MxBlk.badField (p : MxBlk) (f : MxFmt) (wload : Bool) : Option Nat :=
  let wa := mxWidth f.aTy
  let u := f.unitB
  let s := p.osize
  let isc := !wload
  let g := max 1 p.groups
  let passes := if p.list.length / g = 0 then 2 else (p.m + 32 * (p.list.length / g) - 1) / (32 * (p.list.length / g))
  CpyBlk.badField.firstBad
    [(0, ((p.bsrc == 1 || p.bsrc == 2) && p.baddr % 8 != 0) || (decide (p.bsrc < 2) && p.baddr / 2 ^ 32 != 0)),
     (8, (if p.bsc && p.bsrc != 0 then p.bscl == 0 else p.bscl != 0) || (p.bsrc == 1 && p.bscl / 2 ^ 32 != 0)),
     (16, isc && (if p.otype = 0 then p.oaddr != 0 else p.oaddr % s != 0 || (p.ospace == 1 && p.oaddr / 2 ^ 32 != 0))),
     (24, isc && p.aaddr % 8 != 0),
     (28, isc && (p.astr % (4 * wa) != 0 || decide (p.astr < p.k * wa / 8))),
     (32, isc && (if p.asc then p.ascl == 0 else p.ascl != 0)),
     (36, if p.bsrc = 0 then p.bcol != 0
          else (p.bsrc == 1 || p.bsrc == 2) && (p.bcol % u != 0 || decide (p.bcol < p.k / 32 * u))),
     (40, isc && (if p.otype = 0 then p.ostr != 0 else p.ostr % 4 != 0 || decide (p.ostr < p.n * s))),
     (44, if f.sparse = 0 then p.meta_ != 0 else p.meta_ == 0 || p.meta_ % 8 != 0),
     (48, p.k % 32 != 0 || decide (p.k < 32) || decide (2 ^ 20 < p.k) ||
        ((p.bsrc == 0 || wload) && decide (kChunk f.sparse < p.k))),
     (52, isc && (p.m == 0 || decide (4096 < p.m))),
     (54, p.n % 64 != 0 || p.n == 0 || decide (nSpan f.bTy < p.n)),
     (56, isc && (decide (p.list.length < p.groups) || (passes != 1 && !(p.otype != 0 && p.zero)))),
     (60, fld p.ctrl 14 18 != 0 || fld p.ctrl 0 6 != 0 || p.bsrc == 3 || (wload && p.bsrc != 1) ||
        (f.sparse != 0 && p.bsrc == 2) || (p.bsc && !mxScaled.contains f.bTy) ||
        (isc && ((p.asc && !mxScaled.contains f.aTy) || (decide (1 < p.otype) && f.acct != 0) ||
          (p.otype == 0 && p.ospace == 1))))]

/-! ### Spans (R323, R331, R336) -/

/-- The metadata record (R330). -/
structure MetaRec where
  pat : Nat
  reserved : Nat
  cols : Nat
  kblk : Nat
  addr : Nat
  deriving DecidableEq, Repr

def metaRec (n : Nat) : MetaRec :=
  { pat := fld n 62 2, reserved := fld n 61 1, cols := fld n 48 13, kblk := fld n 32 16, addr := fld n 0 32 }

/-- Bytes of a metadata entry (R331). -/
def entryBytes (sparse : Nat) : Nat := if sparse = 1 then 4 else 8

/-- Address of the entry of column j and K-block b (R331). -/
def entryAddr (m : MetaRec) (sparse j b : Nat) : Nat :=
  m.addr + (b / 16 * m.cols + j) * 16 * entryBytes sparse + b % 16 * entryBytes sparse

/-- A metadata record serves an operation (R330). -/
def MetaRec.ok (r : MetaRec) (p : MxBlk) (f : MxFmt) : Bool :=
  r.pat == f.sparse && r.reserved == 0 && decide (1 ≤ r.cols) && decide (r.cols ≤ 4096) && decide (1 ≤ r.kblk) &&
    decide (r.kblk ≤ 32768) && r.addr % 256 == 0 && decide (p.n ≤ r.cols) && decide (p.k / 32 ≤ r.kblk)

/-- A scratch span of an operation, and the entry it belongs to: 0 A, 1 B, 2 output. -/
structure MxSpan where
  entry : Nat
  lo : Nat
  len : Nat
  deriving DecidableEq, Repr

/-- The scratch spans of an operation (R320, R323). -/
def mxSpans (p : MxBlk) (f : MxFmt) (r : MetaRec) (wload : Bool) : List MxSpan :=
  let wa := mxWidth f.aTy
  let u := f.unitB
  let kb := p.k / 32
  (if wload then [] else
    [{ entry := 0, lo := p.aaddr, len := (p.m - 1) * p.astr + p.k * wa / 8 }] ++
      (if p.asc then [{ entry := 0, lo := p.ascl, len := (p.m - 1) * (p.astr / (4 * wa)) + kb }] else [])) ++
    (if p.bsrc = 1 then
      [{ entry := 1, lo := p.baddr, len := (p.n - 1) * p.bcol + kb * u }] ++
        (if p.bsc then [{ entry := 1, lo := p.bscl, len := (p.n - 1) * (p.bcol / u) + kb }] else []) ++
        (if f.sparse = 0 then [] else
          [{ entry := 1, lo := r.addr, len := entryAddr r f.sparse (p.n - 1) (kb - 1) + entryBytes f.sparse - r.addr }])
     else []) ++
    (if !wload && p.otype != 0 && p.ospace == 1 then
      [{ entry := 2, lo := p.oaddr, len := (p.m - 1) * p.ostr + p.n * p.osize }] else [])

/-- A scratch span lies in the crew's own grant (R135, R336). -/
def ownSpan (s : State) (k lo len : Nat) : Option (Nat × Nat) :=
  match s.scratchAt k lo len with
  | some (c, off) => if (s.team k).crew = some c then some (c, off) else none
  | none => none

/-- Memory spans of an operation: first and last bytes (check 8 of R336). -/
def mxMemSpans (p : MxBlk) (f : MxFmt) (wload : Bool) : List (Nat × Nat) :=
  let u := f.unitB
  let kb := p.k / 32
  (if p.bsrc = 2 then
    (p.baddr, (p.n - 1) * p.bcol + kb * u) :: (if p.bsc then [(p.bscl, (p.n - 1) * (p.bcol / u) + kb)] else []) else []) ++
    (if !wload && p.otype != 0 && p.ospace == 0 then [(p.oaddr, (p.m - 1) * p.ostr + p.n * p.osize)] else [])

/-- One entry that covers several spans, from the lowest to the highest byte of the grant: scratch addresses that differ
in ignored bits only name one place (R134). -/
def coverEntry (s : State) (k : Nat) (sp : List MxSpan) (e : Nat) : List (Nat × ScoreEntry) :=
  match sp.filter fun x => x.entry == e with
  | [] => []
  | l =>
    match l.filterMap fun x => (ownSpan s k x.lo x.len).map fun p => (p.1, p.2, p.2 + x.len) with
    | [] => []
    | (c, a, z) :: r =>
      [scoreEntry (s.crew c).core c (r.foldl (fun m y => min m y.2.1) a) (r.foldl (fun m y => max m y.2.2) z) (e != 2)]

/-- The scoreboard entries an operation still needs (R323): `a`, `b` say whether A and B are still to be captured,
`row` is the first output row still to be written. -/
def mxEntries (s : State) (k : Nat) (p : MxBlk) (f : MxFmt) (r : MetaRec) (wload a b : Bool) (row : Nat) :
    List (Nat × ScoreEntry) :=
  let sp := (mxSpans p f r wload).map fun x =>
    if x.entry = 2 then { x with lo := x.lo + row * p.ostr, len := x.len - row * p.ostr } else x
  (if a then coverEntry s k sp 0 else []) ++ (if b then coverEntry s k sp 1 else []) ++
    (if row < p.m then coverEntry s k sp 2 else [])

/-! ### Issue (R336) -/

/-- A crew holds a bank (R333). -/
def holdsBank (s : State) (k i : Nat) : Bool :=
  match (s.team k).crew, aget (s.core (s.team k).core).banks i with
  | some c, some b => b.owner == some c && !b.freeing
  | _, _ => false

/-- Format words of the executing lanes, lowest first; the operand queues give up an element each. -/
def formatWords (s : State) (g : Grp) (f : Fields) : List Nat → Except AccStop (List (Nat × Word) × State)
  | [] => .ok ([], s)
  | l :: r =>
    match srcA (g.lctx s l) .int .w32 f (g.thread s l) with
    | .error e => .error e
    | .ok (w, th) =>
      match formatWords (setThreads s g.k g.run.acc [(l, th)]) g f r with
      | .error e => .error e
      | .ok (ws, s') => .ok ((l, DWord.lo w) :: ws, s')

/-- Checks 3 to 8 of R336. -/
def prepareMx (i : Instr) (wload : Bool) (s : State) (k l : Nat) (w : Word) (a : DWord) : Except AccStop Prepared :=
  let f := mxFmt w
  let trap := fun (c : Cause) (n : Nat) => (Except.error (.trap c (BitVec.ofNat 64 n) .nothing) : Except AccStop Prepared)
  if a.toNat % 64 != 0 then trap .misalignedAccess a.toNat
  else if fld a.toNat 21 1 == 1 then trap .scratchRange a.toNat
  else
    match ownScratch s k l a 64 with
    | none => trap .scratchRange a.toNat
    | some bs =>
      let p := mxBlk bs
      match p.badField f wload with
      | some o => trap .engineOperand o
      | none =>
        if !wload && p.list.any fun b => !holdsBank s k b then trap .accumBank p.banks
        else
          let rec_ := if f.sparse = 0 then some [] else
            match ownSpan s k p.meta_ 8 with
            | some _ => ownScratch s k l (BitVec.ofNat 64 p.meta_) 8
            | none => none
          match rec_ with
          | none => trap .sparsityMetadata p.meta_
          | some rb =>
            let r := metaRec (leNat rb)
            if f.sparse != 0 && !r.ok p f then trap .sparsityMetadata p.meta_
            else
              match (mxSpans p f r wload).find? fun x => (ownSpan s k x.lo x.len).isNone with
              | some x => trap .scratchRange x.lo
              | none =>
                match ((mxMemSpans p f wload).flatMap fun x => [x.1, x.1 + x.2 - 1]).find? fun v =>
                    !isCanon (BitVec.ofNat 64 v) with
                | some v => trap .addressRange v
                | none =>
                  .ok { op := { qs := [4], instr := i, lane := l, block := bs,
                                args := [w.zext, BitVec.ofNat 64 (leNat rb), BitVec.ofNat 64 (((s.team k).crew).getD 0)] },
                        spans := mxEntries s k p f r wload true true 0 }

/-- What MX.WLOAD and MX.ISSUE check at issue (R336). -/
def prepareMatrix (i : Instr) (wload : Bool) (x : XOps) (s : State) (g : Grp) (L : LCtx) (lr : LogRec) (th : Thread) :
    Except AccStop (Prepared × Thread × State) :=
  match formatWords s g (ofX x) g.e.tail with
  | .error e => .error e
  | .ok (ws, s1) =>
    let w := DWord.lo lr.a
    match ws.find? fun p => p.2 != w with
    | some p => .error (.trap .formatDivergence (BitVec.ofNat 64 (p.1 * 2 ^ 32 + w.toNat)) .nothing)
    | none =>
      if !(mxFmt w).supported wload then .error (.trap .formatUnsupported w.zext .nothing)
      else
        match prepareMx i wload s1 g.k L.lane w (low32 lr.b) with
        | .error e => .error e
        | .ok p => .ok (p, th, s1)

/-- MX.WLOAD and MX.ISSUE at issue (R336). -/
def mxOp (i : Instr) (wload : Bool) (x : XOps) (s : State) : Host.Outcome State Fault Refusal :=
  engineOp s i x (prepareMatrix i wload x)

/-- MX.WLOAD (R325, R336). -/
def execMxWload (x : XOps) (s : State) : Host.Outcome State Fault Refusal := mxOp (.mxWload x) true x s

/-- MX.ISSUE (R322, R336). -/
def execMxIssue (x : XOps) (s : State) : Host.Outcome State Fault Refusal := mxOp (.mxIssue x) false x s

/-! ### The block-aligned integer form (R279 to R282) -/

/-- A K-block of one operand: signed magnitudes, the exponent of its alignment factor, and its values. -/
structure Aligned where
  q : List Int
  g : Int
  vals : List FpVal
  deriving DecidableEq, Repr

def mxIsInt (ty : Ty) : Bool := mxInts.contains ty

/-- Magnitude width W (R279). -/
def mxW (ty : Ty) : Nat :=
  match ty with
  | .e2m1 | .s4 => 4
  | .e2m3 => 6
  | .bf16 | .f16 => 16
  | _ => 8

/-- A signed integer element. -/
def signedElem (ty : Ty) (x : Nat) : Int := if ty == .s4 then (BitVec.ofNat 4 x).toInt else (BitVec.ofNat 8 x).toInt

/-- The alignment of a K-block (R279). -/
def alignBlock (ty : Ty) (pats : List Nat) : Aligned :=
  if mxIsInt ty then
    { q := pats.map (signedElem ty), g := 0, vals := pats.map fun x =>
        let v := signedElem ty x
        FpVal.fin (decide (v < 0)) v.natAbs 0 }
  else
    let vs := pats.map fun x => (fpOf ty).decode x
    let tops := vs.filterMap fun v =>
      match v with
      | .fin _ m e => if m = 0 then none else some (e + (Nat.log2 m : Int))
      | _ => none
    match tops with
    | [] => { q := vs.map fun _ => 0, g := 0, vals := vs }
    | t :: r =>
      let b := r.foldl max t
      let w : Int := mxW ty
      { q := vs.map fun v =>
          match v with
          | .fin n m e =>
            let q := (roundInt .rne false m (e + (w - 1 - b))).1
            if n then -q else q
          | _ => 0
        g := b - w + 1, vals := vs }

/-- Scale exponent of an operand; 0xFF makes the block NaN (R277, R281). -/
def scaleExp (sc : Nat) : Int := (sc : Int) - 127

/-- v of a block with a NaN or infinite element, or a NaN scale (R281). -/
def specialV (a b : Aligned) (sa sb : Nat) : Option FpVal :=
  let ps := a.vals.zip b.vals
  let odd := sa == 255 || sb == 255 || ps.any fun p => p.1.isNan || p.2.isNan || p.1.isInf || p.2.isInf
  if !odd then none
  else
    let infs := (ps.filter fun p => p.1.isInf || p.2.isInf).map fun p => p.1.sign != p.2.sign
    let nan := sa == 255 || sb == 255 || (ps.any fun p => p.1.isNan || p.2.isNan ||
      (p.1.isInf && p.2.isZero) || (p.2.isInf && p.1.isZero)) || (infs.contains true && infs.contains false)
    some (if nan then .nan false else .inf (infs.contains true))

/-- Exact sum of products (step 1 of R280). -/
def dotAligned (a b : Aligned) : Int := ((a.q.zip b.q).map fun p => p.1 * p.2).foldl (· + ·) 0

/-- One K-block into an accumulator (R280, R281): `acct` 0 binary32, 1 wrapping, 2 saturating. -/
def mxStep (acct : Nat) (acc : Word) (a b : Aligned) (sa sb : Nat) : Word :=
  if acct = 0 then
    let f := fpOf .f32
    let v :=
      match specialV a b sa sb with
      | some v => v
      | none =>
        let t := dotAligned a b
        match f.decode (f.round false .rne (decide (t < 0)) t.natAbs 0 false).bits with
        | .fin n m e => .fin n m (e + a.g + b.g + scaleExp sa + scaleExp sb)
        | v => v
    BitVec.ofNat 32 (f.add .rne (f.decode acc.toNat) v).bits
  else
    let t := acc.toInt + dotAligned a b
    if acct = 1 then BitVec.ofInt 32 t else BitVec.ofInt 32 (max (-(2 ^ 31)) (min (2 ^ 31 - 1) t))

/-! ### Chunks of B -/

/-- The dense positions a valid metadata entry names (R331); `none` for an invalid entry. -/
def entryPlaces (sparse n : Nat) : Option (List Nat) :=
  let per := if sparse = 1 then 2 else 4
  let size := if sparse = 1 then 4 else 8
  let bits := if sparse = 1 then 2 else 4
  let fs := (List.range 16).map fun i => fld n (bits * i) bits
  let groups := groupsOf per (16 / per) fs
  let up := fun (l : List Nat) => (l.zip l.tail).all fun p => decide (p.1 < p.2)
  if groups.all fun g => up g && g.all fun v => v < size then
    some (mapAt (fun i v => i / per * size + v) 0 fs)
  else none

/-- The elements of a stored block placed at their dense positions (R331). -/
def densify (places kept : List Nat) : List Nat :=
  (List.range 32).map fun k =>
    match (places.zip kept).find? fun p => p.1 == k with
    | some p => p.2
    | none => 0

/-- Element patterns packed in bytes (R222, R320). -/
def unpack (w n : Nat) (bs : List Byte) : List Nat :=
  let x := leNat bs
  (List.range n).map fun i => fld x (w * i) w

/-- What stops a chunk load. -/
inductive MxStop where
  | wait
  | trap (c : Cause) (v : DWord)
  deriving DecidableEq, Repr

/-- Reads bytes of an operand of B. -/
def readB (s : State) (k space a n : Nat) : Except MxStop (List Byte × Bool × State) :=
  match engineRead s k space (BitVec.ofNat 64 a) n with
  | .ok bs st s' => .ok (bs, st, s')
  | .wait _ => .error .wait
  | .trap c v => .error (.trap c v)

/-- Captures the K-blocks b0 to b0+nb-1 of one column (R170, R320). -/
def loadColumn (k : Nat) (p : MxBlk) (f : MxFmt) (r : MetaRec) (j b0 nb : Nat) (s : State) :
    Except MxStop (List BBlock × Bool × State) :=
  let u := f.unitB
  let w := mxWidth f.bTy
  let sp := if p.bsrc = 1 then 1 else 0
  match readB s k sp (p.baddr + j * p.bcol + b0 * u) (nb * u) with
  | .error e => .error e
  | .ok (bs, st, s1) =>
    match (if p.bsc then readB s1 k sp (p.bscl + j * (p.bcol / u) + b0) nb else .ok (List.replicate nb 0x7F, false, s1)) with
    | .error e => .error e
    | .ok (sc, st2, s2) =>
      let raw := mapAt (fun i g => (i, g)) 0 (groupsOf u nb bs)
      let one := fun (q : Nat × List Byte) =>
        let scale := (getAt 0 sc q.1).toNat
        if f.sparse = 0 then Except.ok ({ pats := unpack w 32 q.2, scale := scale } : BBlock)
        else
          let ea := entryAddr r f.sparse j (b0 + q.1)
          match engineRead s2 k 1 (BitVec.ofNat 64 ea) (entryBytes f.sparse) with
          | .ok eb _ _ =>
            match entryPlaces f.sparse (leNat eb) with
            | some pl => .ok { pats := densify pl (unpack w 16 q.2), scale := scale }
            | none => .error (MxStop.trap .sparsityMetadata (BitVec.ofNat 64 ea))
          | .wait _ => .error .wait
          | .trap c v => .error (.trap c v)
      match raw.mapM one with
      | .error e => .error e
      | .ok bl => .ok (bl, st || st2, s2)

/-- Captures a chunk: the K-blocks of columns j to N-1. -/
def loadColumns (k : Nat) (p : MxBlk) (f : MxFmt) (r : MetaRec) (b0 nb : Nat) :
    List Nat → State → Except MxStop (List (List BBlock) × Bool × State)
  | [], s => .ok ([], false, s)
  | j :: js, s =>
    match loadColumn k p f r j b0 nb s with
    | .error e => .error e
    | .ok (c, st, s1) =>
      match loadColumns k p f r b0 nb js s1 with
      | .error e => .error e
      | .ok (cs, st2, s2) => .ok (c :: cs, st || st2, s2)

/-! ### Banks -/

def bankWord (c : CoreS) (b i : Nat) : Word := (aget ((aget c.banks b).getD {}).data i).getD 0

def setBankWord (c : CoreS) (b i : Nat) (w : Word) : CoreS :=
  let bk := (aget c.banks b).getD {}
  { c with banks := aset c.banks b { bk with data := if w = 0 then adel bk.data i else aset bk.data i w } }

def zeroBank (c : CoreS) (b : Nat) : CoreS := { c with banks := aset c.banks b { (aget c.banks b).getD {} with data := [] } }

/-! ### One step of an operation (R322, R324, R327) -/

/-- What an operation was issued with. -/
def opFmt (o : EngOp) : MxFmt := mxFmt (DWord.lo (getAt 0 o.args 0))
def opMeta (o : EngOp) : MetaRec := metaRec (getAt 0 o.args 1).toNat
def opCrew (o : EngOp) : Nat := (getAt 0 o.args 2).toNat

/-- The engine's operation on a core: its team and the operation. -/
def mxCurrent (s : State) (core : Nat) : Option (Nat × EngOp) :=
  match (s.core core).mxRunning with
  | none => none
  | some k =>
    match ((s.team k).queue 4).head with
    | some o => if o.state == .running then some (k, o) else none
    | none => none

/-- The engine is free. -/
def mxFree (s : State) (core : Nat) : State :=
  (s.modCore core fun c => { c with mxRunning := none }).pushOnce (.matrixEngineSelect core)

/-- Ends the running operation. -/
def mxEnd (s : State) (core k : Nat) (o : EngOp) (st : EngState) : State :=
  mxFree (s.endEngineOp k o st (mxBlk o.block).passes) core

/-- A step of the running operation cannot be made (R327): an operation on the resident set keeps what it has captured of
it, so that it goes on as if it had not stopped (R329). -/
def mxFault (s : State) (core k : Nat) (o : EngOp) (c : Cause) (v : DWord) : State :=
  if c.resolvable then
    if o.abort then mxEnd s core k o .aborted
    else
      let keep := (mxBlk o.block).bsrc == 0
      let o' := { o with loaded := o.loaded && keep }
      mxFree (stopEngineOp (s.modOp k o fun x => { x with loaded := x.loaded && keep }) k o' .matrixFault c v
        (o.word (.stopped c v) 0).zext) core
  else mxEnd s core k o (.faulted c v)

/-- The step that a running MX.ISSUE makes next (R322). -/
def mxNext (core : Nat) (o : EngOp) : Ev :=
  let p := mxBlk o.block
  let nch := p.chunks (opFmt o)
  if o.row < p.passes && o.chunk < nch then
    (if p.bsrc != 0 && !o.loaded then .matrixChunkLoad core else .matrixAccumulateStep core)
  else .matrixOutputStep core

/-- Goes on after a step, unless an abort is recorded (R337). -/
def mxGoOn (s : State) (core k : Nat) (o : EngOp) : State :=
  if o.abort then mxEnd s core k o .aborted else s.push (mxNext core o)

/-- Rows of a pass and its row groups (R322). -/
def passRange (p : MxBlk) (pass : Nat) : Nat × Nat × Nat :=
  let r0 := pass * p.passRows
  let r1 := min p.m (r0 + p.passRows)
  (r0, r1, (r1 - r0 + 31) / 32)

/-- Zeroes the banks of a pass, once (R322). -/
def mxZero (s : State) (core k : Nat) (o : EngOp) (p : MxBlk) : EngOp × State :=
  if p.zero && o.zeroed ≤ o.row then
    let (_, _, ng) := passRange p o.row
    let o' := { o with zeroed := o.row + 1 }
    (o', (s.modOp k o fun _ => o').modCore core fun c => (p.list.take (ng * p.groups)).foldl zeroBank c)
  else (o, s)

/-- The scoreboard entries of a running operation after a change (R323). -/
def mxRescore (s : State) (k : Nat) (o : EngOp) : State :=
  let p := mxBlk o.block
  let f := opFmt o
  let last := decide (p.passes ≤ o.row + 1)
  let nch := p.chunks f
  let spent := decide (p.passes ≤ o.row)
  let bDone := spent || (last && (decide (nch ≤ o.chunk) || (o.chunk + 1 == nch && o.loaded)))
  let aDone := spent || (last && decide (nch ≤ o.chunk))
  let (r0, r1, _) := passRange p o.row
  let row := if o.chunk < nch then r0 else min r1 (r0 + 32 * o.idx)
  s.setScore o.order ((mxEntries s k p f (opMeta o) false (!aDone) (!bDone) (if p.otype = 0 then 0 else row)).map fun e =>
    (e.1, { e.2 with order := o.order }))

/-- Replaces the running operation. -/
def mxPut (s : State) (k : Nat) (o : EngOp) : State := mxRescore (s.modOp k o fun _ => o) k o

/-- MATRIX_CHUNK_LOAD (R170, R322, R325, R336): the macros take a chunk of B, of an MX.ISSUE or of an MX.WLOAD. -/
def execMatrixChunkLoad (core : Nat) (s : State) : Host.Outcome State Fault Refusal :=
  match mxCurrent s core with
  | none => next s
  | some (k, o) =>
    let p := mxBlk o.block
    let f := opFmt o
    let s0 := s.modCore core fun c => { c with resident := none }
    match o.instr with
    | .mxWload _ =>
      match loadColumns k p f (opMeta o) 0 (p.k / 32) (List.range p.n) s0 with
      | .error .wait => next (s.push (.matrixChunkLoad core))
      | .error (.trap c v) => next (mxFault s0 core k o c v)
      | .ok (cols, st, s1) =>
        let set : ResidentSet := { crew := opCrew o, token := o.token, btype := f.bTy, sparse := f.sparse, k := p.k, n := p.n, cols := cols }
        let o' := { o with stale := o.stale || st }
        next (mxEnd ((s1.modOp k o fun _ => o').modCore core fun c => { c with resident := some set }) core k o' .done)
    | .mxIssue _ =>
      if p.passes ≤ o.row || p.chunks f ≤ o.chunk || p.bsrc == 0 then next (s.push (mxNext core o))
      else
        let (o1, s1) := mxZero s0 core k o p
        let b0 := o.chunk * (kChunk f.sparse / 32)
        let nb := min (p.k / 32) (b0 + kChunk f.sparse / 32) - b0
        match loadColumns k p f (opMeta o) b0 nb (List.range p.n) s1 with
        | .error .wait => next (s1.push (.matrixChunkLoad core))
        | .error (.trap c v) => next (mxFault s1 core k o1 c v)
        | .ok (cols, st, s2) =>
          let o2 := { o1 with cols := cols, loaded := true, stale := o1.stale || st }
          next ((mxPut s2 k o2).push (.matrixAccumulateStep core))
    | _ => next s

/-- The rows of A that a step reads (R315, R320): for each row its K-blocks, aligned, with their scales. -/
def readA (s : State) (k : Nat) (p : MxBlk) (f : MxFmt) (b0 nb r : Nat) : List (List Nat × Nat) :=
  let wa := mxWidth f.aTy
  let bytes := fun (a n : Nat) =>
    match s.scratchAt k a n with
    | some (c, off) => s.scratchRead c off n
    | none => List.replicate n 0
  let raw := groupsOf (4 * wa) nb (bytes (p.aaddr + r * p.astr + b0 * 4 * wa) (nb * 4 * wa))
  let sc := if p.asc then bytes (p.ascl + r * (p.astr / (4 * wa)) + b0) nb else List.replicate nb 0x7F
  mapAt (fun i g => (unpack wa 32 g, (getAt 0 sc i).toNat)) 0 raw

/-- The accumulator element of a row and column after the K-blocks of a chunk (R280, R282). -/
def accumulate (acct : Nat) (acc : Word) (row : List (Aligned × Nat)) (col : List (Aligned × Nat)) : Word :=
  (row.zip col).foldl (fun a p => mxStep acct a p.1.1 p.2.1 p.1.2 p.2.2) acc

/-- One fill of the row buffer (R315): K-blocks `at_` to `at_` + 7 of a chunk for the rows of a group, accumulated against
the captured columns. -/
def accumulateFill (s : State) (core k : Nat) (o : EngOp) (at_ : Nat) : State :=
  let p := mxBlk o.block
  let f := opFmt o
  let (r0, r1, _) := passRange p o.row
  let b0 := (if p.bsrc = 0 then 0 else o.chunk * (kChunk f.sparse / 32)) + at_
  let nb := min (min (p.k / 32) (b0 - at_ + kChunk f.sparse / 32)) (b0 + 8) - b0
  let rows := (List.range 32).filter fun i => r0 + 32 * o.idx + i < r1
  let raw := rows.map fun i => (i, readA s k p f b0 nb (r0 + 32 * o.idx + i))
  let as_ := raw.map fun x => (x.1, x.2.map fun b => (alignBlock f.aTy b.1, b.2))
  let bs := mapAt (fun n c => (n, ((c.drop at_).take nb).map fun b => (alignBlock f.bTy b.pats, if p.bsc then b.scale else 0x7F))) 0
    (o.cols.take p.n)
  let upd := fun (c : CoreS) =>
    as_.foldl (fun c a =>
      bs.foldl (fun c b =>
        let bank := getAt 0 p.list (o.idx * p.groups + b.1 / 64)
        let i := a.1 * 64 + b.1 % 64
        setBankWord c bank i (accumulate f.acct (bankWord c bank i) a.2 b.2)) c) c
  s.modCore core fun c => { upd c with rowBuf := raw.map fun x => x.2.flatMap fun b => b.1 }

/-- One accumulate step: row group g against the captured chunk (R322); a sparse chunk of more than 256 K takes two fills
of the row buffer (R315). -/
def accumulateGroup (s : State) (core k : Nat) (o : EngOp) : State :=
  let p := mxBlk o.block
  let n := kChunk (opFmt o).sparse / 32
  let left := p.k / 32 - (if p.bsrc = 0 then 0 else o.chunk * n)
  let s1 := accumulateFill s core k o 0
  if 8 < min left n then accumulateFill s1 core k o 8 else s1

/-! ### ACC operations and SPC.CMP: one step each (R324, R339, R340) -/

/-- The control word of ACC.LD, ACC.ST and ACC.CVT (R339). -/
structure AccCtl where
  rows : Nat
  space : Nat
  stride : Nat
  rest : Nat
  deriving DecidableEq, Repr

def accCtl (w : Nat) : AccCtl := { rows := fld w 25 5 + 1, space := fld w 24 1, stride := fld w 0 24, rest := fld w 30 2 }

/-- Bytes of a row (R339). -/
def accRowSize (i : Instr) : Nat :=
  match i with
  | .accCvt x => if x.ty == .f16 || x.ty == .bf16 then 128 else 8 * mxWidth x.ty
  | _ => 256

/-- Bytes an ACC operation spans. -/
def accSpan (i : Instr) (c : AccCtl) : Nat :=
  match i with
  | .accCvt x => if x.ty == .f16 || x.ty == .bf16 then (c.rows - 1) * c.stride + 128 else c.rows * c.stride + 2 * c.rows
  | _ => (c.rows - 1) * c.stride + 256

/-- The words of a bank row. -/
def bankRow (c : CoreS) (b r : Nat) : List Word := (List.range 64).map fun j => bankWord c b (64 * r + j)

/-- The writes of ACC.ST and ACC.CVT (R339). -/
def accWrites (i : Instr) (c : CoreS) (bank a : Nat) (ctl : AccCtl) : List (DWord × List Byte) :=
  (List.range ctl.rows).flatMap fun r =>
    let row := bankRow c bank r
    let ra := BitVec.ofNat 64 (a + r * ctl.stride)
    match i with
    | .accCvt x =>
      let vs := row.map fun w => (fpOf .f32).decode w.toNat
      if x.ty == .f16 || x.ty == .bf16 then
        [(ra, vs.flatMap fun v => leBytes 2 ((fpOf x.ty).roundVal false x.rnd v).bits)]
      else
        let bl := (groupsOf 32 2 vs).map (quantBlock x.ty)
        [(ra, bl.flatMap (·.1)), (BitVec.ofNat 64 (a + ctl.rows * ctl.stride + 2 * r), bl.map (·.2))]
    | _ => [(ra, bytesOfWords row)]

/-- Reads rows of ACC.LD. -/
def accReads (k : Nat) (a : Nat) (ctl : AccCtl) : Nat → Nat → State → Except MxStop (List (List Word) × Bool × State)
  | 0, _, s => .ok ([], false, s)
  | n + 1, r, s =>
    match readB s k ctl.space (a + r * ctl.stride) 256 with
    | .error e => .error e
    | .ok (bs, st, s1) =>
      match accReads k a ctl n (r + 1) s1 with
      | .error e => .error e
      | .ok (rs, st2, s2) => .ok (wordsOf bs :: rs, st || st2, s2)

/-- The magnitude key of SPC.CMP (R332). -/
def magKey (ty : Ty) (x : Nat) : Nat :=
  if mxIsInt ty then (signedElem ty x).natAbs
  else if ((fpOf ty).decode x).isNan then 2 ^ 20 else x % 2 ^ (mxWidth ty - 1)

/-- The positions SPC.CMP keeps of a group (R332): those with fewer than `keep` elements before them in the order of
falling key and rising position. -/
def keptOf (keep : Nat) (keys : List Nat) : List Nat :=
  let ks := mapAt (fun i k => (i, k)) 0 keys
  (ks.filter fun p => (ks.filter fun q => decide (p.2 < q.2) || (decide (q.2 = p.2) && decide (q.1 < p.1))).length < keep).map (·.1)

/-- Compresses a K-block (R331, R332): the kept patterns and the metadata entry. -/
def compressBlock (ty : Ty) (sparse : Nat) (pats : List Nat) : List Nat × Nat :=
  let size := if sparse = 1 then 4 else 8
  let keep := if sparse = 1 then 2 else 4
  let bits := if sparse = 1 then 2 else 4
  let kept := (groupsOf size (32 / size) pats).map fun g => (g, keptOf keep (g.map (magKey ty)))
  (kept.flatMap fun p => p.2.map fun i => getAt 0 p.1 i, packElems bits (kept.flatMap (·.2)))

/-- The SPC block (R340). -/
structure SpcBlk where
  src : Nat
  scol : Nat
  dstc : Nat
  dcol : Nat
  mtile : Nat
  k : Nat
  n : Nat
  rec_ : Nat
  deriving DecidableEq, Repr

def spcBlk (bs : List Byte) : SpcBlk :=
  { src := fieldAt bs 0 4, scol := fieldAt bs 4 4, dstc := fieldAt bs 8 4, dcol := fieldAt bs 12 4, mtile := fieldAt bs 16 4
    k := fieldAt bs 20 4, n := fieldAt bs 24 4, rec_ := fieldAt bs 28 4 }

def SpcBlk.badField (p : SpcBlk) (ty : Ty) : Option Nat :=
  let w := mxWidth ty
  CpyBlk.badField.firstBad
    [(4, p.scol % (4 * w) != 0 || decide (p.scol < p.k / 32 * (4 * w))),
     (12, p.dcol % (2 * w) != 0 || decide (p.dcol < p.k / 32 * (2 * w))),
     (16, p.mtile % 256 != 0), (20, p.k % 32 != 0 || decide (p.k < 32) || decide (2 ^ 20 < p.k)),
     (24, p.n == 0 || decide (4096 < p.n)), (28, p.rec_ % 8 != 0)]

def SpcBlk.metaRec (p : SpcBlk) (sparse : Nat) : MetaRec :=
  { pat := sparse, reserved := 0, cols := p.n, kblk := p.k / 32, addr := p.mtile }

/-- The scratch spans of SPC.CMP; entry 1 is the source, 2 the compressed output, 3 the tile with the record. -/
def SpcBlk.spans (p : SpcBlk) (ty : Ty) (sparse : Nat) : List MxSpan :=
  let w := mxWidth ty
  let kb := p.k / 32
  [{ entry := 1, lo := p.src, len := (p.n - 1) * p.scol + kb * (4 * w) },
   { entry := 2, lo := p.dstc, len := (p.n - 1) * p.dcol + kb * (2 * w) },
   { entry := 3, lo := p.mtile,
     len := entryAddr (p.metaRec sparse) sparse (p.n - 1) (kb - 1) + entryBytes sparse - p.mtile },
   { entry := 3, lo := p.rec_, len := 8 }]

/-- One column of SPC.CMP: its writes. -/
def spcColumn (s : State) (k : Nat) (p : SpcBlk) (ty : Ty) (sparse j : Nat) : List (DWord × List Byte) :=
  let w := mxWidth ty
  let kb := p.k / 32
  let bs :=
    match s.scratchAt k (p.src + j * p.scol) (kb * (4 * w)) with
    | some (c, off) => s.scratchRead c off (kb * (4 * w))
    | none => []
  let blocks := (groupsOf (4 * w) kb bs).map fun g => compressBlock ty sparse (unpack w 32 g)
  (BitVec.ofNat 64 (p.dstc + j * p.dcol), blocks.flatMap fun b => leBytes (2 * w) (packElems w b.1)) ::
    mapAt (fun b (x : List Nat × Nat) => (BitVec.ofNat 64 (entryAddr (p.metaRec sparse) sparse j b), leBytes (entryBytes sparse) x.2))
      0 blocks

/-- SPC.CMP, column by column (R340). -/
def spcRun (k order : Nat) (p : SpcBlk) (ty : Ty) (sparse : Nat) : List Nat → State → RdRes
  | [], s =>
    let r := sparse * 2 ^ 62 + p.n * 2 ^ 48 + p.k / 32 * 2 ^ 32 + p.mtile
    engineWrite s k 1 order (BitVec.ofNat 64 p.rec_) (leBytes 8 r)
  | j :: js, s =>
    match engineWrites k 1 order (spcColumn s k p ty sparse j) s with
    | .ok _ _ s1 => spcRun k order p ty sparse js s1
    | e => e

/-- The step of an ACC operation or SPC.CMP. -/
def accStep (s : State) (core k : Nat) (o : EngOp) : State :=
  let again := s.push (.matrixAccumulateStep core)
  let bank := (getAt 0 o.args 0).toNat
  let a := (getAt 0 o.args 1).toNat
  let ctl := accCtl (getAt 0 o.args 2).toNat
  match o.instr with
  | .accZero _ => mxEnd (s.modCore core fun c => (bankList bank).foldl zeroBank c) core k o .done
  | .accLd _ =>
    match accReads k a ctl ctl.rows 0 s with
    | .error .wait => again
    | .error (.trap c v) => mxFault s core k o c v
    | .ok (rows, st, s1) =>
      let o' := { o with stale := st }
      let put := fun (c : CoreS) => (mapAt (fun r ws => (r, ws)) 0 rows).foldl (fun c p =>
        (mapAt (fun j w => (j, w)) 0 p.2).foldl (fun c q => setBankWord c bank (64 * p.1 + q.1) q.2) c) c
      mxEnd ((s1.modOp k o fun _ => o').modCore core put) core k o' .done
  | .spcCmp x =>
    let p := spcBlk o.block
    match spcRun k o.order p x.ty x.b.bits (List.range p.n) s with
    | .ok _ _ s1 => mxEnd s1 core k o .done
    | .wait _ => again
    | .trap c v => mxFault s core k o c v
  | _ =>
    match engineWrites k ctl.space o.order (accWrites o.instr (s.core core) bank a ctl) s with
    | .ok _ _ s1 => mxEnd s1 core k o .done
    | .wait _ => again
    | .trap c v => mxFault s core k o c v

/-- MATRIX_ACCUMULATE_STEP (R322, R324): one row group against one chunk; an ACC operation or SPC.CMP is one step. -/
def execMatrixAccumulateStep (core : Nat) (s : State) : Host.Outcome State Fault Refusal :=
  match mxCurrent s core with
  | none => next s
  | some (k, o) =>
    match o.instr with
    | .mxWload _ => next (s.push (.matrixChunkLoad core))
    | .mxIssue _ =>
      let p := mxBlk o.block
      let nch := p.chunks (opFmt o)
      if p.passes ≤ o.row || nch ≤ o.chunk || (p.bsrc != 0 && !o.loaded) then next (s.push (mxNext core o))
      else
        let (o1, s1) := mxZero s core k o p
        let (_, _, ng) := passRange p o.row
        let s2 := accumulateGroup s1 core k o1
        let o2 :=
          if o.idx + 1 < ng then { o1 with idx := o.idx + 1 }
          else { o1 with idx := 0, chunk := o.chunk + 1, loaded := p.bsrc == 0 }
        let o3 := if nch ≤ o2.chunk && p.otype == 0 then { o2 with row := o.row + 1, chunk := 0 } else o2
        next (mxGoOn (mxPut s2 k o3) core k o3)
    | _ => next (accStep s core k o)

/-- The stored element of an output (R322). -/
def mxConv (otype : Nat) (w : Word) : List Byte :=
  let v := (fpOf .f32).decode w.toNat
  match otype with
  | 1 => leBytes 4 w.toNat
  | 2 => leBytes 2 ((fpOf .f16).roundVal false .rne v).bits
  | _ => leBytes 2 ((fpOf .bf16).roundVal false .rne v).bits

/-- The writes of an output step: the rows of group g (R322). -/
def outputWrites (c : CoreS) (p : MxBlk) (o : EngOp) : List (DWord × List Byte) :=
  let (r0, r1, _) := passRange p o.row
  ((List.range 32).filter fun i => r0 + 32 * o.idx + i < r1).map fun i =>
    (BitVec.ofNat 64 (p.oaddr + (r0 + 32 * o.idx + i) * p.ostr),
     (List.range p.n).flatMap fun n => mxConv p.otype (bankWord c (getAt 0 p.list (o.idx * p.groups + n / 64)) (i * 64 + n % 64)))

/-- MATRIX_OUTPUT_STEP (R322): one row group is written out; after the last pass the operation is complete. -/
def execMatrixOutputStep (core : Nat) (s : State) : Host.Outcome State Fault Refusal :=
  match mxCurrent s core with
  | none => next s
  | some (k, o) =>
    match o.instr with
    | .mxIssue _ =>
      let p := mxBlk o.block
      if p.passes ≤ o.row then next (mxEnd s core k o .done)
      else if o.chunk < p.chunks (opFmt o) then next (s.push (mxNext core o))
      else
        let (_, _, ng) := passRange p o.row
        match engineWrites k p.ospace o.order (outputWrites (s.core core) p o) s with
        | .wait _ => next (s.push (.matrixOutputStep core))
        | .trap c v => next (mxFault s core k o c v)
        | .ok _ _ s1 =>
          let o1 := if o.idx + 1 < ng then { o with idx := o.idx + 1 } else { o with idx := 0, chunk := 0, row := o.row + 1 }
          next (mxGoOn (mxPut s1 k o1) core k o1)
    | .mxWload _ => next (s.push (.matrixChunkLoad core))
    | _ => next (s.push (.matrixAccumulateStep core))

/-- The matrix queues of a core with work: slot and team. -/
def mxWork (s : State) (core : Nat) : List (Nat × Nat × Nat) :=
  s.teams.filterMap fun kt =>
    if kt.2.kind != .lodestar && kt.2.core == core && kt.2.resident then
      match (kt.2.queue 4).head with
      | some o => if !o.isFence && o.state.waits then some (kt.2.slot, kt.1, 4) else none
      | none => none
    else none

/-- The check of a BSRC = 0 operation when it starts (R325): the code, or the columns. -/
def residentCheck (c : CoreS) (o : EngOp) : Except Nat (List (List BBlock)) :=
  let p := mxBlk o.block
  let f := opFmt o
  match c.resident with
  | none => .error 1
  | some r =>
    if r.crew != opCrew o || r.token != BitVec.ofNat 32 p.baddr then .error 1
    else if r.btype != f.bTy || r.sparse != f.sparse || decide (r.k < p.k) || decide (r.n < p.n) then .error 2
    else .ok r.cols

/-- The resident set that CTX.LOAD brought back with a crew goes into the macros before the crew's next operation with
BSRC = 0 (R325, R328). -/
def reloadSet (s : State) (core crew : Nat) : State :=
  match (s.crew crew).savedResident with
  | none => s
  | some r => (s.modCore core fun c => { c with resident := some r }).modCrew crew fun v => { v with savedResident := none }

/-- MATRIX_ENGINE_SELECT (R324, R325): a free engine takes the head of the next team's queue and begins it. -/
def execMatrixEngineSelect (core : Nat) (s : State) : Host.Outcome State Fault Refusal :=
  if (mxCurrent s core).isSome then next s
  else
    match nextInTurn 64 (s.core core).mxRot (mxWork s core) with
    | none => next (s.modCore core fun c => { c with mxRunning := none })
    | some (slot, k, _) =>
      match ((s.team k).queue 4).head with
      | none => next s
      | some o =>
        let s1 := (s.modOp k o fun x => { x with state := .running }).modCore core fun c =>
          { c with mxRunning := some k, mxRot := slot }
        let o1 := { o with state := .running }
        match o.instr with
        | .mxWload _ =>
          next (((s1.modCore core fun c => { c with resident := none }).modCrew (opCrew o) fun v =>
            { v with savedResident := none }).push (.matrixChunkLoad core))
        | .mxIssue _ =>
          if (mxBlk o.block).bsrc = 0 && !o.loaded then
            let s2 := reloadSet s1 core (opCrew o)
            match residentCheck (s2.core core) o with
            | .error n => next (mxEnd s2 core k o1 (.faulted .engineOperand (BitVec.ofNat 64 n)))
            | .ok cols =>
              let o2 := { o1 with cols := cols, loaded := true }
              next ((s2.modOp k o fun _ => o2).push (mxNext core o2))
          else next (s1.push (mxNext core o1))
        | _ => next (s1.push (.matrixAccumulateStep core))

/-! ### Instructions on tokens (R337) -/

/-- An mq operation that has not ended, by its token. -/
def mxLive (t : Team) (w : Word) : Option EngOp :=
  let q := t.queue 4
  let d := (q.accepted + 2 ^ 29 - 1 - w.toNat % 2 ^ 29) % 2 ^ 29
  if d < 64 then q.ops.find? fun o => o.seq == q.accepted - 1 - d else none

def mxEnded (t : Team) (w : Word) : Option Ended :=
  let q := t.queue 4
  let d := (q.accepted + 2 ^ 29 - 1 - w.toNat % 2 ^ 29) % 2 ^ 29
  if d < 64 then q.recent.find? fun o => o.seq == q.accepted - 1 - d else none

/-- A form that acts for each thread on its own mq token. -/
def mxTokenOne (act : State → Nat → Nat → Word → Word × State) (s : State) (k l : Nat) (w : Word) :
    Except (Cause × DWord) Word × State :=
  if tokCode w != 4 then (.error (.tokenInvalid, w.zext), s)
  else
    let a := act s k l w
    (.ok a.1, a.2)

/-- The status that MX.TEST gives. -/
def mxTestOne (s : State) (k _l : Nat) (w : Word) : Word × State :=
  (match engineToken (s.team k) w with
   | .notIssued => 3
   | .pending => 0
   | .complete => 1
   | .bad _ => 2, s)

/-- MX.TEST (R337). -/
def execMxTest (x : XOps) (s : State) : Host.Outcome State Fault Refusal := tokenForm (.mxTest x) x s (mxTokenOne mxTestOne)

/-- The progress word that MX.PROG gives and leaves in PIDX. -/
def mxProgOne (s : State) (k l : Nat) (w : Word) : Word × State :=
  let t := s.team k
  let r : Word :=
    match engineToken t w, mxLive t w, mxEnded t w with
    | .notIssued, _, _ => 0
    | _, some o, _ => o.word o.state 0
    | _, none, some e => e.word
    | _, none, none => 0x80000000
  (r, s.modThread k l fun th => { th with pidx := r })

/-- MX.PROG (R326, R337). -/
def execMxProg (x : XOps) (s : State) : Host.Outcome State Fault Refusal := tokenForm (.mxProg x) x s (mxTokenOne mxProgOne)

/-- What MX.ABORT does to the operation of a token, and its status. -/
def mxAbortOne (s : State) (k _l : Nat) (w : Word) : Word × State :=
  let t := s.team k
  match engineToken t w, mxLive t w with
  | .notIssued, _ => (3, s)
  | .pending, some o =>
    match o.state with
    | .running =>
      match o.instr with
      | .mxIssue _ => (0, s.modOp k o fun y => { y with abort := true })
      | _ => (0, s)
    | _ => (0, s.endEngineOp k o .aborted 0)
  | _, _ => (1, s)

/-- MX.ABORT (R337). -/
def execMxAbort (x : XOps) (s : State) : Host.Outcome State Fault Refusal := tokenForm (.mxAbort x) x s (mxTokenOne mxAbortOne)

/-! ### Accumulator banks (R333, R338) -/

/-- Banks a crew holds on a core, and the banks that are free. -/
def banksOf (c : CoreS) (crew : Nat) : List Nat :=
  (List.range 32).filter fun i =>
    match aget c.banks i with
    | some b => b.owner == some crew && !b.freeing
    | none => false
def freeBanks (c : CoreS) : List Nat :=
  (List.range 32).filter fun i =>
    match aget c.banks i with
    | some b => b.owner.isNone
    | none => true

/-- Mask of bank numbers. -/
def bankMask (bs : List Nat) : Word := bs.foldl (fun m i => m ||| bit32 i) 0

/-- Gives banks to a crew. -/
def giveBanks (c : CoreS) (crew : Nat) (bs : List Nat) : CoreS :=
  bs.foldl (fun c i => { c with banks := aset c.banks i { (aget c.banks i).getD {} with owner := some crew } }) c

/-- ACC.ALLOC (R333, R338). -/
def execAccAlloc (x : XOps) (s : State) : Host.Outcome State Fault Refusal :=
  let i : Instr := .accAlloc x
  let f := ofX x
  let sh := i.shape
  match prologue s f (fun st => opChecks st sh f) false (srcRegs sh.a f.a ++ dstRegs false sh.d f.dst) false with
  | .error o => o
  | .ok g =>
    match g.e with
    | [] => next (finishNext s g)
    | l :: _ =>
      match g.await s with
      | some o => o
      | none =>
        match srcA (g.lctx s l) .int .w32 f (g.thread s l) with
        | .error .hold => waitLanes s g [l]
        | .error (.trap c v keep) =>
          next (finishNext (trapLanes s g.k g.idx g.run.acc (g.e.map fun j =>
            (j, { cause := c, tval := v, tpc := g.here }, if j = l then keep else .nothing))) g)
        | .ok (a, th) =>
          let s1 := setThreads s g.k g.run.acc [(l, th)]
          let n := (DWord.lo a).toNat
          let t := s.team g.k
          let c := s.core t.core
          match t.crew with
          | none => next (complete s g [] (g.e.map fun j => trapAt g j .accumBank (low32 a)))
          | some crew =>
            if n < 1 || 32 - (banksOf c crew).length < n then
              next (complete s g [] (g.e.map fun j => trapAt g j .accumBank (low32 a)))
            else if x.b.bits = 1 then
              let bs := if c.bankWaiters.isEmpty && n ≤ (freeBanks c).length then (freeBanks c).take n else []
              let vals := g.e.map fun j => (j, Except.ok (bankMask bs))
              let given := if (oksOf (writeEach s1 i f g (foundWords vals))).isEmpty then [] else bs
              completeWords s (s1.modCore t.core fun c => giveBanks c crew given) i f g vals []
            else
              let s2 := ({ s1 with serial := s.serial + 1 } : State).modCore t.core fun c =>
                { c with bankWaiters := c.bankWaiters ++ [{ id := s.serial, team := g.k, n := n }] }
              let s3 := g.e.foldl (fun (st : State) j => st.modThread g.k j fun after => after.noting g.here (g.thread s j)) s2
              next ((startWaits s3 g fun _ => some (.bank s.serial x.dst.toNat)).push (.accBankGrant t.core))

/-- Threads of a team that wait for a bank request. -/
def bankLanes (t : Team) (id : Nat) : List Nat :=
  (List.range t.threads.length).filter fun l =>
    match (t.thread l).wait with
    | some (.bank i _) => i == id
    | _ => false

/-- The DST of the ACC.ALLOC at which a thread waits. -/
def bankDst (th : Thread) : BitVec 7 :=
  match th.wait with
  | some (.bank _ d) => BitVec.ofNat 7 d
  | _ => 0

/-- A lane of a granted ACC.ALLOC writes the mask to its DST (R338). -/
def bankLane (s : State) (k now l : Nat) (mask : Word) : Except LaneStop (Unit × Thread) :=
  let t := s.team k
  let th := s.thread k l
  let L : LCtx := { k := k, lane := l, team := t, s := t.s, acc := false, launch := none, log := none, now := now }
  writeDst L .r1 (bankDst th) [mask] { th with wait := none }

/-- What a granted ACC.ALLOC leaves at its lanes: the mask in DST, or a trap at the waiting instruction (R5, R252). -/
def bankAnswers (s : State) (k : Nat) (rs : List (Nat × Except LaneStop (Unit × Thread))) : State :=
  rs.foldl (fun (s : State) r =>
    match r.2 with
    | .ok (_, th) => pairEvents (s.modThread k r.1 fun _ => th) k .r1 (bankDst (s.thread k r.1)) [r.1]
    | .error .hold => s
    | .error (.trap c v keep) => trapWait (s.modThread k r.1 keep.apply) k r.1 c v) s

/-- ACC_BANK_GRANT (R333): the oldest blocking request receives the lowest free banks; where every lane of it traps at its
DST, no bank is granted (R5). -/
def execAccBankGrant (core : Nat) (s : State) : Host.Outcome State Fault Refusal :=
  let c := s.core core
  match c.bankWaiters with
  | [] => next s
  | r :: rest =>
    let t := s.team r.team
    let ls := bankLanes t r.id
    match t.crew, ls with
    | none, _ | _, [] => next ((s.modCore core fun c => { c with bankWaiters := rest }).push (.accBankGrant core))
    | some crew, _ =>
      if (freeBanks c).length < r.n then next (s.push (.accBankGrant core))
      else
        let bs := (freeBanks c).take r.n
        let rs := ls.map fun l => (l, bankLane s r.team r.id l (bankMask bs))
        if anyHold rs then next (s.push (.accBankGrant core))
        else
          let given := if (oksOf rs).isEmpty then [] else bs
          let s1 := s.modCore core fun c => giveBanks { c with bankWaiters := rest } crew given
          let s2 := bankAnswers s1 r.team rs
          next (if rest.isEmpty then s2 else s2.push (.accBankGrant core))

/-- ACC.FREE (R333, R338). -/
def execAccFree (x : XOps) (s : State) : Host.Outcome State Fault Refusal :=
  let i : Instr := .accFree x
  let f := ofX x
  let sh := i.shape
  match prologue s f (fun st => opChecks st sh f) false (srcRegs sh.a f.a) false with
  | .error o => o
  | .ok g =>
    match g.e with
    | [] => next (finishNext s g)
    | l :: _ =>
      match srcA (g.lctx s l) .int .w32 f (g.thread s l) with
      | .error .hold => waitLanes s g [l]
      | .error (.trap c v keep) =>
        next (finishNext (trapLanes s g.k g.idx g.run.acc (g.e.map fun j =>
          (j, { cause := c, tval := v, tpc := g.here }, if j = l then keep else .nothing))) g)
      | .ok (a, th) =>
        let s1 := setThreads s g.k g.run.acc [(l, th)]
        let bs := bankList (DWord.lo a).toNat
        if bs.any fun b => !holdsBank s g.k b then next (complete s g [] (g.e.map fun j => trapAt g j .accumBank (low32 a)))
        else
          let core := (s.team g.k).core
          let s2 := s1.modCore core fun c =>
            bs.foldl (fun c b => { c with banks := aset c.banks b { (aget c.banks b).getD {} with freeing := true } }) c
          next (finishNext (s2.pushOnce (.accBankRelease core)) g)

/-- Banks an operation names (R333). -/
def opBanks (o : EngOp) : List Nat :=
  match o.instr with
  | .mxIssue _ => (mxBlk o.block).list
  | .accLd _ | .accSt _ | .accCvt _ => [(getAt 0 o.args 0).toNat]
  | .accZero _ => bankList (getAt 0 o.args 0).toNat
  | _ => []

/-- ACC_BANK_RELEASE (R137, R333): freed banks that no operation of a team on the core names any more return at +0.0; the
banks of a saved crew have left with it (R328). -/
def execAccBankRelease (core : Nat) (s : State) : Host.Outcome State Fault Refusal :=
  let named := s.teams.flatMap fun kt =>
    if kt.2.core == core && kt.2.kind != .lodestar && kt.2.resident then
      ((kt.2.queue 4).ops ++ kt.2.pending.map fun p => p.op).flatMap opBanks
    else []
  let s1 := s.modCore core fun c =>
    { c with banks := c.banks.filter fun b => !(b.2.freeing && !named.contains b.1) }
  let s2 := if (s1.core core).bankWaiters.isEmpty then s1 else s1.pushOnce (.accBankGrant core)
  next (if (s2.core core).banks.any fun b => b.2.freeing then s2.push (.accBankRelease core) else s2)

/-! ### ACC operations, SPC.CMP and SPC.META (R339 to R341) -/

/-- The checks of ACC.LD, ACC.ST and ACC.CVT (R339). -/
def prepareAcc (i : Instr) (s : State) (g : Grp) (L : LCtx) (lr : LogRec) (th : Thread) :
    Except AccStop (Prepared × Thread × State) :=
  let bank := (DWord.lo lr.a).toNat
  let a := lr.b
  let cw := (getAt 0 lr.c 0).toNat
  let ctl := accCtl cw
  let n := accSpan i ctl
  let last := a + BitVec.ofNat 64 (n - 1)
  let reads :=
    match i with
    | .accLd _ => true
    | _ => false
  if 31 < bank || !holdsBank s g.k bank then .error (.trap .accumBank (BitVec.ofNat 64 bank) .nothing)
  else if ctl.rest != 0 || ctl.stride % 4 != 0 || ctl.stride < accRowSize i then
    .error (.trap .engineOperand (BitVec.ofNat 64 cw) .nothing)
  else if a.toNat % 4 != 0 then .error (.trap .misalignedAccess a .nothing)
  else
    let spans : Option (List (Nat × ScoreEntry)) :=
      if ctl.space = 1 then
        if a.toNat / 2 ^ 32 != 0 then none
        else (ownSpan s g.k a.toNat n).map fun p => [scoreEntry (s.crew p.1).core p.1 p.2 (p.2 + n) reads]
      else if isCanon a && isCanon last then some [] else none
    match spans with
    | none => .error (.trap (if ctl.space = 1 then .scratchRange else .addressRange) a .nothing)
    | some sp =>
      .ok ({ op := { qs := [4], instr := i, lane := L.lane, block := [], args := [BitVec.ofNat 64 bank, a, BitVec.ofNat 64 cw] },
             spans := sp }, th, s)

/-- ACC.LD (R339). -/
def execAccLd (x : XOps) (s : State) : Host.Outcome State Fault Refusal := engineOp s (.accLd x) x (prepareAcc (.accLd x))

/-- ACC.ST (R339). -/
def execAccSt (x : XOps) (s : State) : Host.Outcome State Fault Refusal := engineOp s (.accSt x) x (prepareAcc (.accSt x))

/-- ACC.CVT (R339). -/
def execAccCvt (x : XOps) (s : State) : Host.Outcome State Fault Refusal := engineOp s (.accCvt x) x (prepareAcc (.accCvt x))

/-- What ACC.ZERO checks at issue (R339). -/
def prepareZero (i : Instr) (s : State) (g : Grp) (L : LCtx) (lr : LogRec) (th : Thread) :
    Except AccStop (Prepared × Thread × State) :=
  let m := DWord.lo lr.a
  if (bankList m.toNat).any fun b => !holdsBank s g.k b then .error (.trap .accumBank m.zext .nothing)
  else .ok ({ op := { qs := [4], instr := i, lane := L.lane, block := [], args := [m.zext] }, spans := [] }, th, s)

/-- ACC.ZERO (R339). -/
def execAccZero (x : XOps) (s : State) : Host.Outcome State Fault Refusal :=
  engineOp s (.accZero x) x (prepareZero (.accZero x))

/-- What SPC.CMP checks at issue (R340). -/
def prepareSpc (i : Instr) (x : XOps) (s : State) (g : Grp) (L : LCtx) (lr : LogRec) (th : Thread) :
    Except AccStop (Prepared × Thread × State) :=
  let a := low32 lr.a
  if a.toNat % 32 != 0 then .error (.trap .misalignedAccess a .nothing)
  else if fld a.toNat 21 1 == 1 then .error (.trap .scratchRange a .nothing)
  else
    match ownScratch s g.k L.lane a 32 with
    | none => .error (.trap .scratchRange a .nothing)
    | some bs =>
      let p := spcBlk bs
      match p.badField x.ty with
      | some o => .error (.trap .engineOperand (BitVec.ofNat 64 o) .nothing)
      | none =>
        let sp := p.spans x.ty x.b.bits
        match sp.find? fun y => (ownSpan s g.k y.lo y.len).isNone with
        | some y => .error (.trap .scratchRange (BitVec.ofNat 64 y.lo) .nothing)
        | none =>
          let es := coverEntry s g.k sp 1 ++ coverEntry s g.k sp 2 ++
            (coverEntry s g.k sp 3).map fun e => (e.1, { e.2 with source := false })
          .ok ({ op := { qs := [4], instr := i, lane := L.lane, block := bs, args := [] }, spans := es }, th, s)

/-- SPC.CMP (R340). -/
def execSpcCmp (x : XOps) (s : State) : Host.Outcome State Fault Refusal :=
  engineOp s (.spcCmp x) x (prepareSpc (.spcCmp x) x)

/-- The entry that keeps the positions of a mask (R341): `none` for an invalid mask. -/
def encodeMask (sparse : Nat) (m : Word) : Option Nat :=
  let size := if sparse = 1 then 4 else 8
  let keep := if sparse = 1 then 2 else 4
  let bits := if sparse = 1 then 2 else 4
  let gs := (List.range (32 / size)).map fun g => (List.range size).filter fun i => m.getLsbD (g * size + i)
  if gs.all fun g => g.length == keep then some (packElems bits gs.flatten) else none

/-- SPC.META (R341). -/
def execSpcMeta (x : XOps) (s : State) : Host.Outcome State Fault Refusal :=
  let f := ofX x
  let sparse := if x.ty == .b32 then 1 else 2
  valueOp s (.spcMeta x) f false fun L => do
    if x.b.bits = 1 then
      let a ← srcA L .int .w32 f
      let e : DWord :=
        match encodeMask sparse a.lo with
        | some n => BitVec.ofNat 64 n
        | none => BitVec.allOnes 64
      return if sparse = 1 then [e.lo] else [e.lo, e.hi]
    else
      let a ← srcA L .int (if sparse = 1 then .w32 else .w64) f
      return [match entryPlaces sparse a.toNat with
        | some ps => ps.foldl (fun m i => m ||| bit32 i) 0
        | none => 0]

end Sys2Proof.Machine
end

