-- ==== Sys2Proof/Machine/Record.lean ====
section
/-! DEFINITION. The fields of a launch record (R344, R345), the work identifier (R342), and what a team, a crew
and a launch are made of. -/

namespace Sys2Proof.Machine

/-- A captured launch record: 64 words. -/
abbrev LRec := List Word

def recW (r : LRec) (off : Nat) : Nat := (getAt 0 r (off / 4)).toNat
def recB (r : LRec) (off : Nat) : Nat := fld (recW r off) (8 * (off % 4)) 8
def recH (r : LRec) (off : Nat) : Nat := fld (recW r off) (8 * (off % 4)) 16
def recD (r : LRec) (off : Nat) : DWord := DWord.ofPair (getAt 0 r (off / 4 + 1)) (getAt 0 r (off / 4))

/-- Width of field `i` of the work identifier, 0 to 5. -/
def recWidth (r : LRec) (i : Nat) : Nat := recB r (32 + i)

/-- Extent of field `i`, 1 to 5. -/
def recExtent (r : LRec) (i : Nat) : Nat := recW r (36 + 4 * i)

/-- First bit of field `i` of the work identifier. -/
def recShift (r : LRec) : Nat → Nat
  | 0 => 0
  | i + 1 => recShift r i + recWidth r i

def recCtrl (r : LRec) : Nat := recW r 24
def recPhased (r : LRec) : Bool := fld (recCtrl r) 23 1 == 1
def recPrio (r : LRec) : Nat := fld (recCtrl r) 21 2
def recProg (r : LRec) : Nat := fld (recCtrl r) 19 2
def recRegs (r : LRec) : Nat := 8 * (fld (recCtrl r) 12 4 + 1)
def recCarryN (r : LRec) : Nat := fld (recCtrl r) 7 5
def recNedge (r : LRec) : Nat := fld (recCtrl r) 0 5
def recScratch (r : LRec) : Nat := recW r 28

/-- The carry set: vector registers that a phase record keeps (R344). -/
def recCarry (r : LRec) : List Nat := (List.range (recCarryN r)).map fun i => recB r (96 + i)

/-- The progress class a launch is served under (R387). -/
def recClass (r : LRec) : Nat := if recPhased r then 0 else recProg r

/-- Threads of a team, and teams, crews and groups of a launch (R342). -/
def recLanes (r : LRec) : Nat := 2 ^ recWidth r 0
def recTeams (r : LRec) : Nat := recExtent r 1
def recCrews (r : LRec) : Nat := recExtent r 2
def recGroups (r : LRec) : Nat := recExtent r 3 * recExtent r 4 * recExtent r 5

/-- The work identifier of a thread: `g` counts the launch's cluster groups in ascending order of bits 63 : o3. -/
def workIdOf (r : LRec) (lane team crew g : Nat) : DWord :=
  let e3 := recExtent r 3
  let e4 := recExtent r 4
  BitVec.ofNat 64 (lane + team * 2 ^ recShift r 1 + crew * 2 ^ recShift r 2 + g % e3 * 2 ^ recShift r 3 +
    g / e3 % e4 * 2 ^ recShift r 4 + g / (e3 * e4) * 2 ^ recShift r 5)

/-- The record of a team's launch. -/
def State.recOf (s : State) (t : Team) : LRec :=
  match t.launch with
  | some l => (s.launch l).record
  | none => []

/-- The number of a core as CORE_ID holds it (R13). -/
def coreIdOf (t : Team) : Word :=
  match t.kind with
  | .lodestar => BitVec.ofNat 32 (2 ^ 11 + t.die * 2 ^ 9 + t.core % 64)
  | _ => BitVec.ofNat 32 (t.die * 2 ^ 9 + t.core % 160)

/-- Every thread of a team has exited. -/
def Team.allExited (t : Team) : Bool := t.threads.all fun th => th.status == .exited

/-- The teams of a crew, of a group and of a launch that hold a place. -/
def State.crewTeams (s : State) (c : Nat) : List (Nat × Team) := s.teams.filter fun kt => kt.2.crew == some c
def State.launchTeams (s : State) (l : Nat) : List (Nat × Team) := s.teams.filter fun kt => kt.2.launch == some l

end Sys2Proof.Machine
end

