-- ==== Sys2Proof/Machine/Special.lean ====
section
/-! DEFINITION. System registers (R81, R257 to R260, R400, R413, R418) and the translation forms of the supervisor
team (R94 to R96, R114 to R117). -/

namespace Sys2Proof.Machine

/-! ### Reading a system register -/

/-- TEAMSLOT (R260). -/
def teamSlot (t : Team) (lane : Nat) : Word :=
  match t.kind with
  | .lodestar => 0
  | _ => BitVec.ofNat 32 (lane % 32 * 2 ^ 8 + t.slot / 16 % 4 * 2 ^ 6 + t.slot % 64)

/-- Number of Lodestar contexts of a partition (R376). -/
def lockCount (p : Part) : Nat := 4 * p.units.lodestars.length

/-- LOCKMAP (R376). -/
def lockmap (p : Part) : DWord := BitVec.ofNat 64 (p.lockTable.toNat / 1024 * 1024 + (lockCount p - 1) % 256)

/-- FLARE_PEND (R400). -/
def flarePend (c : Ctx) : DWord :=
  (mapAt (fun v (f : Flare) => if f.pending then (1 <<< v : DWord) else 0) 0 c.flares).foldl (· ||| ·) 0

/-- The value of a system register for a thread (R258). -/
def readSys (s : State) (k : Nat) (lane : Nat) (th : Thread) (n : Nat) : DWord :=
  let t := s.team k
  let c := s.ctx t.ctx
  match n with
  | 0 => if t.kind == .lodestar then 0 else th.workid
  | 1 => (teamSlot t lane).zext
  | 2 => (coreIdOf t).zext
  | 3 => BitVec.ofNat 64 (t.die * 5)
  | 4 => s.cycles
  | 5 => t.teamtime
  | 6 => t.deadline
  | 7 => th.pidx.zext
  | 8 => th.tcause.zext
  | 9 => th.tval
  | 10 => th.tpc
  | 11 => t.trapbase
  | 12 => th.fpstat.zext
  | 13 => th.fpmode.zext
  | 14 => th.cwin.zext
  | 15 => th.vstale.zext
  | 16 => flarePend c
  | 17 => c.flareMask
  | 18 => c.flareEntry
  | 19 => BitVec.ofNat 64 ((if c.flareTeam.isSome then 2 ^ 31 else 0) + (if c.flareTeam == some k then 2 ^ 30 else 0))
  | 20 => th.flareRpc
  | _ => lockmap (s.part t.part)

/-- Registers 64 bits wide (R81). -/
def sysIs64 (n : Nat) : Bool := [0, 4, 5, 6, 9, 10, 11, 16, 17, 18, 20, 21].contains n

/-- MOVS (R257, R258): in an access slice lane 0's WORKID and TEAMSLOT, and CYCLES. DESIGN CHOICE
(log 128): another register there traps OPERAND_KIND where the instruction executes, not whatever its predicate. -/
def execMovs (u : Bool) (x : XOps) (s : State) : Host.Outcome State Fault Refusal :=
  let n := x.b.bits
  valueOp s (.movs u x) (ofX x) u fun L th =>
    if L.acc && !(n == 0 || n == 1 || n == 4) then .error (.trap .operandKind (opTval n 2) .nothing)
    else
      let v := if L.acc then readSys s L.k 0 (L.team.thread 0) n else readSys s L.k L.lane th n
      .ok (if sysIs64 n then [v.lo, v.hi] else [v.lo], th)

/-! ### Writing a system register -/

/-- Bits that R257 lets no thread write as 1. -/
def sysReserved (n : Nat) : DWord :=
  match n with
  | 8 => 0xFFFFFF80
  | 10 | 11 | 18 => 3
  | 12 => 0xFFFFFFE0
  | 13 => 0xFFFFFFF0
  | 14 => 0xFFFFFC00
  | 15 => 0xFFFFFFFE
  | _ => 0

/-- Registers that no user team writes (R11, R13, R257, R259, R260, R326, R376, R400, R418). -/
def sysReadOnly (n : Nat) : Bool := [0, 1, 2, 3, 4, 7, 16, 21].contains n

/-- FLARE_TEAM (R400): a team designates itself, or withdraws its own designation; a section designates none. -/
def setFlareTeam (s : State) (k : Nat) (en : Bool) : State :=
  let t := s.team k
  if t.kind == .lodestar then s
  else
    s.modCtx t.ctx fun c =>
      { c with flareTeam := if en then some k else if c.flareTeam == some k then none else c.flareTeam }

/-- Writes a system register for a thread. -/
def writeSys (s : State) (k : Nat) (th : Thread) (n : Nat) (v : DWord) : Thread × State :=
  let c := (s.team k).ctx
  match n with
  | 5 => (th, s.modTeam k fun t => { t with teamtime := v })
  | 6 => (th, s.modTeam k fun t => { t with deadline := v })
  | 8 => ({ th with tcause := v.lo }, s)
  | 9 => ({ th with tval := v }, s)
  | 10 => ({ th with tpc := v }, s)
  | 11 => (th, s.modTeam k fun t => { t with trapbase := v })
  | 12 => ({ th with fpstat := v.lo }, s)
  | 13 => ({ th with fpmode := v.lo }, s)
  | 14 => ({ th with cwin := v.lo }, s)
  | 15 => ({ th with vstale := v.lo }, s)
  | 17 => (th, noteUrgent (s.modCtx c fun x => { x with flareMask := v }) c)
  | 18 => (th, noteUrgent (s.modCtx c fun x => { x with flareEntry := v }) c)
  | 19 => (th, noteUrgent (setFlareTeam s k (v.getLsbD 31)) c)
  | 20 => ({ th with flareRpc := v }, s)
  | _ => (th, s)

/-- A lane of SETS (R257). -/
def setsLane (x : XOps) (s : State) (L : LCtx) (th : Thread) : Except AccStop (List Word × Thread × State) :=
  let n := x.b.bits
  if sysReadOnly n && L.team.kind != .supervisor then
    .error (.trap .privileged (BitVec.ofNat 64 (getAt 0 (Instr.encode (.sets x)) 0)) .nothing)
  else
    match srcA L .int (if sysIs64 n then .w64 else .w32) (ofX x) th with
    | .error e => .error e
    | .ok (v, th) =>
      if v &&& sysReserved n != 0 then .error (.trap .reservedField v .nothing)
      else
        let r := writeSys s L.k th n v
        .ok ([], r.1, r.2)

/-- SETS (R257): lanes write in ascending order. -/
def execSets (x : XOps) (s : State) : Host.Outcome State Fault Refusal :=
  effectOp s (.sets x) (ofX x) (fun _ => none) (setsLane x)

/-! ### Translation records (R94) -/

/-- A record that breaks its table, that a confidential partition refuses, whose binding is not current, or that its
reader cannot reach (R17, R94, R433; log 75). -/
def xrecRefused (s : State) (part : Nat) (a : Nat) : Bool :=
  let m := s.memAt a
  let w0 := m.nat a 8
  let w1 := m.nat (a + 8) 8
  let x := readXrec s a
  s.placeBlocked 0 a || a % 32 != 0 || regionOf a != some .dram || !zeroBits w0 52 12 || !zeroBits w0 4 8 || !zeroBits w0 0 2 || !zeroBits w1 40 24 ||
    (if x.hosttab then x.fmtrec % 64 != 0 else x.pasid != 0 || x.fmtrec != 0) ||
    (if x.dlog then x.dlring % 32 != 0 else x.dlring != 0) ||
    (x.hosttab && (s.part part).conf) || !s.bindingOk x

/-! ### ASID.RETIRE, TLB.PROBE, PAGE.SCAN -/

/-- ASID.RETIRE for one thread (R115): the status word and the state after. -/
def asidRetire (s : State) (a : Word) (query : Bool) : Word × State :=
  if a.toNat / 2 ^ 16 != 0 then (0x20, s)
  else
    let n := a.toNat
    let e := (aget s.asids n).getD {}
    let word := BitVec.ofNat 32 ((if e.retiring then 16 else 0) + e.gen % 16)
    if query || e.retiring then (word, s)
    else
      let g := (e.gen + 1) % 16
      if g = 0 then
        (0x10, (reread { s with asids := aset s.asids n { gen := 0, retiring := true } } n).push (.asidFlushComplete n))
      else (BitVec.ofNat 32 g, reread { s with asids := aset s.asids n { e with gen := g } } n)

/-- A lane of ASID.RETIRE. -/
def asidRetireLane (x : XOps) (s : State) (L : LCtx) (th : Thread) : Except AccStop (List Word × Thread × State) :=
  match srcA L .int .w32 (ofX x) th with
  | .error e => .error e
  | .ok (a, th) =>
    let r := asidRetire s a.lo (x.b.bits == 1)
    .ok ([r.1], th, r.2)

/-- ASID.RETIRE (R114, R115). -/
def execAsidRetire (x : XOps) (s : State) : Host.Outcome State Fault Refusal :=
  effectOp s (.asidRetire x) (ofX x) (fun _ => none) (asidRetireLane x)

/-- Size code of a page (R116). -/
def sizeCode (log2 : Nat) : Nat := if log2 < 16 then 0 else if log2 < 21 then 1 else if log2 < 25 then 2 else if log2 < 30 then 3 else 4

/-- What TLB.PROBE finds (R116): checks 1 to 8 of R106 as an access of a user team would make them. DESIGN CHOICE (log 94):
where a check fails before any walk, SIZE is 0, and a host page size that the code list does not name has the code of the
next smaller size. -/
def tlbProbe (s : State) (die : Nat) (va : DWord) (acc : Nat) (rec : Nat) : DWord :=
  let fail := fun (c : Cause) (lvl : Nat) => BitVec.ofNat 64 (c.code * 2 ^ 57 + lvl % 8 * 2 ^ 54)
  let x := readXrec s rec
  let kind : AccKind := if acc = 0 then .load else if acc = 1 then .probeStore else .fetch
  if !isCanon va then fail .addressRange 0
  else if !s.bindingOk x then fail .asidRetired 0
  else
    match walkChecks s die x false kind va with
    | .error e => fail e.1 e.2
    | .ok xl => BitVec.ofNat 64 (sizeCode xl.log2 * 2 ^ 54 + xl.mode.code * 2 ^ 52 + xl.pa % 2 ^ 52)

/-- A lane of TLB.PROBE. -/
def tlbProbeLane (x : XOps) (s : State) (L : LCtx) (th : Thread) : Except AccStop (List Word × Thread × State) :=
  match (do
      let a ← srcA L .int .w64 (ofX x)
      let c ← srcC L .int .w64 (ofX x)
      return (a, c) : LaneM (DWord × DWord)) th with
  | .error e => .error e
  | .ok ((a, c), th) =>
    if c.toNat % 32 != 0 then .error (.trap .misalignedAccess c .nothing)
    else if regionOf c.toNat != some .dram then .error (.trap .addressRange c .nothing)
    else if s.placeBlocked L.team.die c.toNat then .error (.trap .fabricUnreachable c .nothing)
    else
      match s.memError c.toNat 32 with
      | some e => .error (.trap e c .nothing)
      | none =>
      let r := tlbProbe s L.team.die a x.b.bits c.toNat
      .ok ([r.lo, r.hi], th, s)

/-- TLB.PROBE (R114, R116). -/
def execTlbProbe (x : XOps) (s : State) : Host.Outcome State Fault Refusal :=
  effectOp s (.tlbProbe x) (ofX x) (fun _ => none) (tlbProbeLane x)

/-- The dirty marks of a range's translations are gone, so that the next store to each page logs it again; a queued store
of the address space is translated again when it performs, and so logs its page again (R117). -/
def scanned (s : State) (asid lo hi : Nat) : State :=
  let gen := ((aget s.asids asid).getD {}).gen
  { s with
    tlb := s.tlb.map fun e =>
      if e.asid == asid && e.gen == gen && e.page * 2 ^ e.log2 < hi && lo < (e.page + 1) * 2 ^ e.log2 then
        { e with dirty := false }
      else e
    teams := s.teams.map fun kt =>
      if ((s.teamXrec kt.2).map fun x => x.asid == asid).getD false then
        (kt.1, { kt.2 with storeq := kt.2.storeq.map fun e => { e with again := e.again || e.scratch.isNone } })
      else kt }

/-- A lane of PAGE.SCAN. -/
def pageScanLane (x : XOps) (s : State) (L : LCtx) (th : Thread) : Except AccStop (List Word × Thread × State) :=
  match (do
      let a ← srcA L .int .w32 (ofX x)
      let b ← srcB L .int .w64 (ofX x)
      let c ← srcC L .int .w64 (ofX x)
      return (a.lo, b, c) : LaneM (Word × DWord × DWord)) th with
  | .error e => .error e
  | .ok ((a, lo, hi), th) =>
    if a.toNat / 2 ^ 16 != 0 then .ok ([2], th, s)
    else if !isCanon lo || !isCanon hi || hi.toNat ≤ lo.toNat then .ok ([3], th, s)
    else .ok ([0], th, scanned s a.toNat lo.toNat hi.toNat)

/-- PAGE.SCAN (R114, R117). -/
def execPageScan (x : XOps) (s : State) : Host.Outcome State Fault Refusal :=
  effectOp s (.pageScan x) (ofX x) (fun _ => none) (pageScanLane x)

end Sys2Proof.Machine
end

