-- ==== Sys2Proof/Machine/Sync.lean ====
section
/-! DEFINITION. Barriers (R369 to R373), the end of a thread (R366, R371, R388), and QUIET (R394, R395). -/

namespace Sys2Proof.Machine

/-! ### Barriers -/

/-- The marker that EXP holds for "live" (R371): no count reaches it. -/
def liveMark : Nat := 2 ^ 32

/-- The barrier a form names; `none` where the level is not available (R371). -/
def barKey (s : State) (k : Nat) (sc : Scope) (n : Nat) : Option BarKey :=
  let t := s.team k
  match sc, t.kind with
  | .team, _ => some (.team k n)
  | _, .lodestar => none
  | .core, _ => t.crew.map fun c => .crew c n
  | .cluster, _ => t.crew.map fun c => .group (s.crew c).group n
  | .device, _ =>
    match t.launch with
    | some l => if recClass (s.launch l).record = 2 then some (.launch l n) else none
    | none => none
  | _, _ => none

def BarKey.idx : BarKey → Nat
  | .team _ i | .crew _ i | .group _ i | .launch _ i => i

/-- A barrier; a barrier that nothing has used is 0. -/
def State.bar (s : State) (b : BarKey) : Barrier :=
  getAt { gen := 0, arr := 0, exp := 0 }
    (match b with
     | .team t _ => (s.team t).bars
     | .crew c _ => (s.crew c).bars
     | .group g _ => ((aget s.groups g).getD {}).bars
     | .launch l _ => (s.launch l).bars) b.idx

def State.setBar (s : State) (b : BarKey) (v : Barrier) : State :=
  match b with
  | .team t i => s.modTeam t fun x => { x with bars := setAt x.bars i v }
  | .crew c i => s.modCrew c fun x => { x with bars := setAt x.bars i v }
  | .group g i => s.modGroup g fun x => { x with bars := setAt x.bars i v }
  | .launch l i => s.modLaunch l fun x => { x with bars := setAt x.bars i v }

/-- The teams of a barrier's instance. -/
def barTeams (s : State) (b : BarKey) : List Team :=
  match b with
  | .team t _ => [s.team t]
  | .crew c _ => (s.crewTeams c).map (·.2)
  | .group g _ => (s.teams.filter fun kt =>
      match kt.2.crew with
      | some c => (s.crew c).group == g
      | none => false).map (·.2)
  | .launch l _ => (s.launchTeams l).map (·.2)

/-- Threads of the instance that have not executed EXIT: live(b). -/
def barLive (s : State) (b : BarKey) : Nat :=
  (barTeams s b).foldl (fun n t => n + (t.threads.filter fun th => th.status != .exited).length) 0

/-- Threads of the instance. -/
def barThreads (s : State) (b : BarKey) : Nat :=
  match b with
  | .team t _ => (s.team t).threads.length
  | .crew c _ =>
    let r := (s.launch (s.crew c).launch).record
    recTeams r * recLanes r
  | .group g _ =>
    let r := (s.launch ((aget s.groups g).getD {}).launch).record
    recCrews r * recTeams r * recLanes r
  | .launch l _ =>
    let r := (s.launch l).record
    recGroups r * recCrews r * recTeams r * recLanes r

/-- The pending sync is that of the BAR.SYNC at a place (R373). -/
def syncOf (b : BarKey) (here : DWord) (p : BarKey × Word × DWord) : Bool := p.1 == b && p.2.2 == here

/-- The waits of a barrier whose generation has gone end; a BAR.SYNC whose wait passes has no pending sync any more (R371,
R373). -/
def wakeBar (s : State) (b : BarKey) (gen : Word) : State :=
  { s with
    teams := s.teams.map fun kt =>
      (kt.1, { kt.2 with
        threads := kt.2.threads.map fun th =>
          match th.wait with
          | some (.barrier b' g _) =>
            if b' == b && g != gen then
              { th with wait := none, pendingSync := th.pendingSync.filter fun p => !syncOf b th.waitPc p }
            else th
          | _ => th }) }

/-- The release check (R371). -/
def barCheck (s : State) (b : BarKey) : State :=
  let v := s.bar b
  let need := if v.exp = liveMark then barLive s b else v.exp
  if v.exp ≠ 0 ∧ need ≤ v.arr then wakeBar (s.setBar b { gen := v.gen + 1, arr := 0, exp := 0 }) b (v.gen + 1) else s

/-- The arrival step (R371): the generation arrived in. -/
def barArrive (s : State) (b : BarKey) (c : Word) : Except (Cause × DWord) (Word × State) :=
  let v := s.bar b
  let n := b.idx
  let e := if c = 0 then liveMark else c.toNat
  if barThreads s b < c.toNat then .error (.reconvergeMisuse, BitVec.ofNat 64 (0x100 + n))
  else if v.exp ≠ 0 ∧ v.exp ≠ e then .error (.reconvergeMisuse, BitVec.ofNat 64 (0x200 + n))
  else .ok (v.gen, barCheck (s.setBar b { v with exp := e, arr := v.arr + 1 }) b)

/-- A lane with a lost store traps at a release at .device or wider (R186). -/
def lostStop (th : Thread) (sc : Scope) : Option AccStop :=
  (lostTrap th sc).map fun v => .trap .fabricUnreachable v .popLost

/-- The barrier of a form for a lane, or the trap of an unavailable level. -/
def barFor (s : State) (k : Nat) (x : XOps) : Except AccStop BarKey :=
  match barKey s k x.scope x.a.bits with
  | some b => .ok b
  | none => .error (.trap .reconvergeMisuse (BitVec.ofNat 64 (0x400 + x.a.bits)) .nothing)

/-- A lane of BAR.ARRIVE (R371). -/
def barArriveLane (x : XOps) (k : Nat) (s : State) (L : LCtx) (th : Thread) : Except AccStop (Unit × Thread × State) :=
  match lostStop th x.scope, barFor s k x with
  | some e, _ => .error e
  | none, .error e => .error e
  | none, .ok b =>
    match srcB L .int .w32 (ofX x) th with
    | .error e => .error e
    | .ok (c, th) =>
      match barArrive s b (DWord.lo c) with
      | .error (c, v) => .error (.trap c v .nothing)
      | .ok (gen, s') =>
        match writeDst L (Instr.shape (.barArrive x)).d x.dst [gen] th with
        | .error e => .error e
        | .ok (u, th) => .ok (u, th, s')

/-- BAR.ARRIVE (R371, R372). -/
def execBarArrive (x : XOps) (s : State) : Host.Outcome State Fault Refusal :=
  let f := ofX x
  let sh := Instr.shape (.barArrive x)
  match prologue s f (fun st => opChecks st sh f) false (srcRegs sh.b f.b ++ dstRegs false sh.d f.dst) false with
  | .error o => o
  | .ok g =>
    match g.release s x.scope with
    | .error o => o
    | .ok s0 =>
      let (rs, s1) := g.lanesS s0 (barArriveLane x g.k)
      match holdsOf rs with
      | _ :: _ => waitLanes s g (holdsOf rs)
      | [] =>
        let oks := oksOf rs
        next (pairEvents (complete s1 g (oks.map fun p => (p.1, p.2.2)) (trapsOf g.here rs)) g.k sh.d f.dst (oks.map (·.1)))

/-- The lanes wait until the generation of each has gone. -/
def barWaits (s : State) (g : Grp) (ws : List (Nat × BarKey × Word)) : State :=
  ws.foldl (fun s w =>
    if (s.bar w.2.1).gen = w.2.2 then
      s.modThread g.k w.1 fun th => { th with wait := some (.barrier w.2.1 w.2.2 true), waitPc := g.here }
    else s.modThread g.k w.1 fun th => { th with pendingSync := th.pendingSync.filter fun p => !syncOf w.2.1 g.here p }) s

/-- The generation in which a thread has arrived by the BAR.SYNC at this place (R373). -/
def heldSync (th : Thread) (here : DWord) (b : BarKey) : Option Word :=
  (th.pendingSync.filter (syncOf b here)).map fun p => p.2.1

/-- A lane of BAR.WAIT, or of BAR.SYNC (`sync`): the barrier and the generation it waits for (R371, R373). -/
def barWaitLane (x : XOps) (sync : Bool) (k : Nat) (here : DWord) (s : State) (L : LCtx) (th : Thread) :
    Except AccStop ((BarKey × Word) × Thread × State) :=
  match barFor s k x with
  | .error e => .error e
  | .ok b =>
    match srcB L .int .w32 (ofX x) th with
    | .error e => .error e
    | .ok (c, th) =>
      if sync then
        match heldSync th here b, lostStop th x.scope with
        | some gen, _ => .ok ((b, gen), th, s)
        | none, some e => .error e
        | none, none =>
          match barArrive s b (DWord.lo c) with
          | .error (c, v) => .error (.trap c v .nothing)
          | .ok (gen, s') => .ok ((b, gen), { th with pendingSync := some (b, gen, here) }, s')
      else
        let d := (DWord.lo c - (s.bar b).gen).toNat
        if 0 < d && d < 2 ^ 31 then .error (.trap .reconvergeMisuse (BitVec.ofNat 64 (0x300 + b.idx)) .nothing)
        else .ok ((b, DWord.lo c), th, s)

/-- A BAR.SYNC some lane of which has not arrived yet is a release (R372, R373). -/
def syncFresh (s : State) (g : Grp) (x : XOps) : Bool :=
  g.e.any fun l =>
    match barKey s g.k x.scope x.a.bits with
    | some b => (heldSync (g.thread s l) g.here b).isNone
    | none => false

/-- BAR.WAIT and BAR.SYNC: what each lane waits for (R371, R373). -/
def barWaitOp (i : Instr) (x : XOps) (sync : Bool) (s : State) : Host.Outcome State Fault Refusal :=
  let f := ofX x
  let sh := i.shape
  match prologue s f (fun st => opChecks st sh f) false (srcRegs sh.b f.b) false with
  | .error o => o
  | .ok g =>
    match g.await s with
    | some o => o
    | none =>
      match (if sync && syncFresh s g x then g.release s x.scope else .ok s) with
      | .error o => o
      | .ok s0 =>
        let (rs, s1) := g.lanesS s0 (barWaitLane x sync g.k g.here)
        match holdsOf rs with
        | _ :: _ => waitLanes s g (holdsOf rs)
        | [] =>
          let oks := oksOf rs
          let s2 := trapLanes (setThreads s1 g.k g.run.acc (oks.map fun p => (p.1, p.2.2.noting g.here (g.thread s p.1)))) g.k g.idx g.run.acc (trapsOf g.here rs)
          next (finishNext (barWaits s2 g (oks.map fun p => (p.1, p.2.1))) g)

/-- BAR.WAIT (R371, R372). -/
def execBarWait (x : XOps) (s : State) : Host.Outcome State Fault Refusal := barWaitOp (.barWait x) x false s

/-- BAR.SYNC (R371 to R373). -/
def execBarSync (x : XOps) (s : State) : Host.Outcome State Fault Refusal := barWaitOp (.barSync x) x true s

/-- The release check of the barriers with EXP "live" of every level a team belongs to (R371). -/
def liveChecks (s : State) (k : Nat) : State :=
  let t := s.team k
  let keys := (List.range 16).map (BarKey.team k) ++
    (match t.crew with
     | some c => (List.range 16).map (BarKey.crew c) ++ (List.range 8).map (BarKey.group (s.crew c).group)
     | none => []) ++
    (match t.launch with
     | some l => (List.range 4).map (BarKey.launch l)
     | none => [])
  keys.foldl (fun s b => if (s.bar b).exp = liveMark then barCheck s b else s) s

/-! ### The end of a thread (R366) -/

/-- A fault of an AFF.ST address that the thread must report at EXIT, PHASE.END or QUIET (R252): one of a pair already
made, or a faulted address for which data wait. -/
def lateFault (th : Thread) : Option (Cause × DWord × Retain) :=
  match th.lateFaults with
  | p :: _ => some (p.2.1, p.2.2, .popLate p.1)
  | [] =>
    [0, 1, 2, 3].findSome? fun q =>
      match firstBad 0 (getAt [] th.addrq q) with
      | some (i, c, v) => if i < (getAt [] th.outq q).length then some (c, v, .popPair q i) else none
      | none => none

/-- The traps of lanes with late faults. -/
def lateTraps (s : State) (g : Grp) : List (Nat × TrapRec × Retain) :=
  g.e.filterMap fun l => (lateFault (g.thread s l)).map fun e => (l, { cause := e.1, tval := e.2.1, tpc := g.here }, e.2.2)

/-- The access context ends with its team's threads, and the run it is in (R254): AFF.LD streams stop and their elements are discarded;
AFF.ST addresses and data that have no partner are discarded, once the pairs are gone. -/
def endAccess (s : State) (k : Nat) : State :=
  ({ s with runs := s.runs.filter fun r => !(r.team == k && r.acc) } : State).modTeam k fun t =>
    match t.acc with
    | none => t
    | some a =>
      { t with
        acc := some { a with ended := true, streams := [] }
        threads := t.threads.map fun th =>
          { th with
            inq := th.inq.map fun _ => [], feed := []
            addrq := mapAt (fun q es => es.take (getAt [] th.outq q).length) 0 th.addrq
            outq := mapAt (fun q ws => ws.take (getAt [] th.addrq q).length) 0 th.outq } }

/-- Every thread of a crew has executed PHASE.END or EXIT (R387). -/
def phaseOver (s : State) (c : Nat) : Bool :=
  (s.crewTeams c).all fun kt => kt.2.threads.all fun th => th.status == .exited || th.wait == some .phaseEnd

/-- What follows when a thread has ended or waits for its phase to end: a migration, the end of the phase, and the end
of the team's launch may now come about (R367, R387, R351). -/
def afterThread (s : State) (k : Nat) : State :=
  let t := s.team k
  let waitsMove := t.threads.any fun th =>
    match th.wait with
    | some (.migrate _) => true
    | _ => false
  let s1 := if waitsMove then s.pushOnce (.migrateMove k) else s
  let s2 :=
    match t.crew, t.launch with
    | some c, some l => if recPhased (s1.launch l).record && phaseOver s1 c then s1.pushOnce (.phaseRecordEnqueue c) else s1
    | _, _ => s1
  let s3 :=
    if t.allExited then
      let s4 := endAccess s2 k
      s4.modCtx t.ctx fun c => { c with flareTeam := if c.flareTeam == some k then none else c.flareTeam }
    else s2
  match t.launch with
  | some l => s3.pushOnce (.launchEnd l)
  | none => s3

/-- A thread ends: it leaves its convergence sets, and the barriers that wait for the live threads are checked (R362,
R366, R371). -/
def exitThread (s : State) (k l : Nat) : State :=
  let s1 := s.modTeam k fun t =>
    (t.modThread l fun th =>
      { th with status := .exited, wait := none, pendingSync := none, inUser := false, inFlare := false, monitor := .idle
                owedDeadline := none, owedTimer := false, owedStep := false }).leaveSets l
  afterThread (liveChecks s1 k) k

/-- A section ends with its results, once what it has issued has performed (R382, R146). -/
def sectionDone (s : State) (k : Nat) : State :=
  let t := s.team k
  if t.sectionEnd.isSome then s
  else
    (s.modTeam k fun t => { t with sectionEnd := some (.results (((t.thread 0).v).take 4)) }).push (.sectionStart t.core)

/-- The scope at which a section's end releases: .device, or .domain for a sender on another device (R181). -/
def sectionScope (t : Team) : Scope :=
  match (t.sectionReq.map (·.sender) : Option ShipSender) with
  | some (.remote _ _) => .domain
  | _ => .device

/-- SRET, and EXIT in a section: a release (R181, R382). -/
def sectionReturn (s : State) (g : Grp) : Host.Outcome State Fault Refusal :=
  let sc := sectionScope (s.team g.k)
  match g.settle s with
  | some o => o
  | none =>
    match g.release s sc with
    | .error o => o
    | .ok s1 =>
      match g.lostOf s sc with
      | [] =>
        if g.e.isEmpty then next (finishNext s1 g)
        else
          let s2 := sectionDone s1 g.k
          next ((dropLanes s2 g.idx g.run.lanes).modThread g.k 0 fun th => { th with status := .exited })
      | tr => next (trapLanes s1 g.k g.idx false tr)

/-- EXIT (R366, R254). -/
def execExit (x : XOps) (s : State) : Host.Outcome State Fault Refusal :=
  match prologue s (ofX x) (fun _ => none) false [] false with
  | .error o => o
  | .ok g =>
    let t := s.team g.k
    if g.run.acc then
      if g.e.isEmpty then next (finishNext s g)
      else next (dropLanes (s.modTeam g.k fun t => { t with acc := t.acc.map fun a => { a with ended := true } }) g.idx g.run.lanes)
    else if t.kind == .lodestar then sectionReturn s g
    else
      match g.settle s with
      | some o => o
      | none =>
        let late := lateTraps s g
        let go := g.e.filter fun l => !late.any fun p => p.1 == l
        let s1 := trapLanes s g.k g.idx false late
        let s2 := finishNext s1 g
        next (go.foldl (fun s l => exitThread s g.k l) s2)

/-! ### QUIET (R394, R395) -/

/-- Requests to homes, engine operations, stores and atomic operations of a context that issued before a moment and
are not drained; the store of data for an access stream issues at its push (R253). -/
def trafficBefore (s : State) (ctx mark : Nat) : Bool :=
  ((s.ctx ctx).ships.any fun p => p.1 < mark) ||
    s.teams.any fun kt =>
      kt.2.ctx == ctx &&
        (kt.2.storeq.any (fun e => e.op < mark) ||
          ((List.range kt.2.threads.length).any fun l => earlierData kt.2 l mark) ||
          (kt.2.engq.any fun q => q.ops.any fun o => o.issued < mark) ||
          (kt.2.pending.any fun p => p.id < mark) ||
          kt.2.threads.any fun th => th.ops.any fun o => o.id < mark && drains o.what)
where
  /-- An operation that R394 counts as traffic. -/
  drains : OpKind → Bool
    | .atom _ _ _ _ _ _ _ _ | .cbload _ _ _ | .flare _ | .other => true
    | _ => false

/-- QUIET (R395): the elected lane decides for its issue group. -/
def execQuiet (x : XOps) (s : State) : Host.Outcome State Fault Refusal :=
  match prologue s (ofX x) (fun _ => none) false [] false with
  | .error o => o
  | .ok g =>
    match g.settle s with
    | some o => o
    | none =>
      match g.e with
      | [] => next (finishNext s g)
      | m :: _ =>
        let late := lateTraps s g
        let c := s.ctx (s.team g.k).ctx
        let w : Wait := .quiet s.serial c.epochStart ((g.thread s m).pidx != 1)
        let s1 := trapLanes { s with serial := s.serial + 1 } g.k g.idx false late
        next (startWaits s1 g fun l => if late.any fun p => p.1 == l then none else some w)

/-- Ends a step of the QUIET of one issue group of a team: the epoch advances when no traffic of the epoch before is
left, and the wait ends when none of the epoch before the advance is left. QUIETs of one epoch advance it in turn, so that the first
wait is for the epoch before the one that stands when it is judged. -/
def wakeQuiet (s : State) (k id mark : Nat) (advance : Bool) : State :=
  let t := s.team k
  let ls := (List.range t.threads.length).filter fun l => (t.thread l).wait == some (.quiet id mark advance)
  if trafficBefore s t.ctx (if advance then (s.ctx t.ctx).epochStart else mark) then s
  else if advance then
    let now := s.serial
    let s1 := ({ s with serial := now + 1 } : State).modCtx t.ctx fun c => { c with epoch := c.epoch + 1, epochStart := now }
    ls.foldl (fun s l => s.modThread k l fun th => { th with pidx := 1, wait := some (.quiet id now false) }) s1
  else
    ls.foldl (fun s l =>
      match (s.thread k l).lost with
      | some v => trapWait (s.modThread k l fun th => { th with pidx := 0, lost := none }) k l .fabricUnreachable v
      | none => s.modThread k l fun th => { th with pidx := 0, wait := none }) s

end Sys2Proof.Machine
end

