-- ==== Sys2Proof/Machine/Ship.lean ====
section
/-! DEFINITION. Shipped sections: where a lock lives (R376 to R378), requests (R379, R380), the home contexts (R381,
R382, R384 to R386), SENTRY and SRET. -/

namespace Sys2Proof.Machine

/-! ### Homes (R377) -/

/-- Inserts a number into a rising list. -/
def insertNat (n : Nat) : List Nat → List Nat
  | [] => [n]
  | m :: r => if n ≤ m then n :: m :: r else m :: insertNat n r

def sortNats (l : List Nat) : List Nat := l.foldl (fun r n => insertNat n r) []

/-- Entry `i` of a partition's lock map: the context's number die * 64 + INDEX; the contexts stand in ascending
CORE_ID order (R376). -/
def lockHome (p : Part) (i : Nat) : Nat := 4 * getAt 0 (sortNats p.units.lodestars) (i / 4) + i % 4

/-- The hash of a lock address (R377). -/
def lockHash (a : DWord) : Nat :=
  let x := fld a.toNat 7 41
  Nat.xor (Nat.xor (Nat.xor (Nat.xor (fld x 0 8) (fld x 8 8)) (fld x 16 8)) (fld x 24 8)) (fld x 32 9)

/-- The entry of a partition's lock map that a lock hashes to (R377). -/
def lockEntry (p : Part) (lock : DWord) : Nat := lockHome p (lockHash lock % lockCount p)

/-- The partition that holds the memory a lock of another device's sender lies in. DESIGN CHOICE (log 118): it is the one
whose partition table R377 names for the lock. -/
def partOfPlace (s : State) (a : Nat) : Part :=
  ((s.parts.find? fun p => p.2.units.granules.contains (granuleOf (lineOf a))).map (·.2)).getD {}

/-- The partition of a home context. -/
def partOfHome (s : State) (h : Nat) : Nat :=
  ((s.parts.find? fun p => p.2.units.lodestars.contains (h / 4)).map (·.1)).getD 0

/-- Sends a result to where its sender waits. -/
def sendResult (s : State) (r : ShipResult) : State := s.push (.sectionResultArrival r)

/-! ### Requests (R380) -/

/-- A request of one lane with the device it goes to, if it leaves this device. -/
structure Sending where
  req : ShipReq
  device : Option Nat
  deriving DecidableEq, Repr

/-- The checks of one lane's request and the request itself. -/
def prepareShip (async : Bool) (n grp : Nat) (s : State) (L : LCtx) (lr : LogRec) (sender : ShipSender) :
    Except AccStop (Sending × State) :=
  let t := L.team
  if !isCanon lr.a then .error (.trap .addressRange lr.a .nothing)
  else if !isCanon lr.b then .error (.trap .addressRange lr.b .nothing)
  else if lr.a.toNat % 4 != 0 then .error (.trap .misalignedAccess lr.a .nothing)
  else if t.kind == .lodestar && !async then .error (.trap .shipRefused 1 .nothing)
  else
    match s.piece L.k L.lane .load lr.b 1 (lock := true) with
    | .error e => .error e
    | .ok (p, s1) =>
      let th := t.thread L.lane
      let sec := t.kind == .lodestar
      let part := s.part t.part
      let dev := if p.xl.ty == .peer then some (peerDevice p.xl.pa) else none
      .ok ({ device := dev
             req :=
              { home := lockEntry part lr.b, entry := lr.a, lock := lr.b, args := lr.c.take n
                sender := sender, workid := if sec then 0 else th.workid, coreId := coreIdOf t, device := s.mnum
                ctx := t.ctx, asid := ((s.teamXrec t).map fun x => x.asid).getD 0
                origin := if sec then (t.sectionReq.map fun r => r.origin).join else some (L.k, L.lane)
                fromHome := if sec && dev.isNone then some t.core else none
                rrec := if sec && dev.isNone then (t.sectionReq.map fun r => r.rrec).join else none
                group := grp, order := s.serial, place := p.xl.pa % 2 ^ 41
                originDev := if sec then ((t.sectionReq.map fun r => r.originDev) : Option Word).getD s.mnum else s.mnum } }, s1)

/-- Sends a request (R162, R380, R394): it is traffic of its context until its results arrive. -/
def sendShip (s : State) (k : Nat) (sd : Sending) : State :=
  let s1 := (({ s with serial := s.serial + 1 } : State).modCtx sd.req.ctx fun c =>
    { c with ships := c.ships ++ [(s.serial, sd.req.sender, sd.device)] }).sideEffect k
  match sd.device with
  | none => s1.push (.sectionRequestArrival sd.req)
  | some d =>
    if s.peers.contains d then { noteDevice s1 sd.req.ctx d with out := (noteDevice s1 sd.req.ctx d).out ++ [.shipReq d sd.req] }
    else sendResult s1 { sender := sd.req.sender, result := .faulted (codeWord .fabricUnreachable (BitVec.ofNat 64 d)) }

/-- The scope of a request's release (R146, R181): .domain when a lock lies in another device's memory. -/
def shipScope (i : Instr) (f : Fields) (s : State) (g : Grp) : Scope :=
  let far := g.e.any fun l =>
    match logOperands i f i.shape g.here (g.lctx s l) (g.thread s l) with
    | .error _ => false
    | .ok (lr, _) =>
      match s.piece g.k l .load lr.b 1 (lock := true) with
      | .ok (p, _) => p.xl.ty == .peer
      | .error _ => false
  if far then .domain else .device

/-- One lane of SHIP: its request is sent; its number tells its results apart. -/
def shipLane (n : BitVec 3) (x : XOps) (sc : Scope) (k grp : Nat) (here : DWord) (s : State) (L : LCtx) (th : Thread) :
    Except AccStop (Nat × Thread × State) :=
  match lostStop th sc with
  | some e => .error e
  | none =>
    match logOperands (.ship n x) (ofX x) (Instr.shape (.ship n x)) here L th with
    | .error e => .error e
    | .ok (lr, th) =>
      match prepareShip false n.toNat grp s L lr (.thread k L.lane none s.serial) with
      | .error e => .error e
      | .ok (sd, s') => .ok (s.serial, th, sendShip s' k sd)

/-- SHIP (R379, R380): each thread sends its request and waits for its results. -/
def execShip (n : BitVec 3) (x : XOps) (s : State) : Host.Outcome State Fault Refusal :=
  let i : Instr := .ship n x
  let f := ofX x
  let sh := i.shape
  let regs := srcRegs sh.a f.a ++ srcRegs sh.b f.b ++ srcRegs sh.c f.c ++ dstRegs false sh.d f.dst
  match prologue s f (fun st => opChecks st sh f) false regs false with
  | .error o => o
  | .ok g =>
    match g.await s with
    | some o => o
    | none =>
      let sc := shipScope i f s g
      match g.release s sc with
      | .error o => o
      | .ok s0 =>
        let (rs, s1) := g.lanesS s0 (shipLane n x sc g.k s0.serial g.here)
        match holdsOf rs with
        | _ :: _ => waitLanes s g (holdsOf rs)
        | [] =>
          let oks := oksOf rs
          let s2 := trapLanes (setThreads s1 g.k g.run.acc (oks.map fun p => (p.1, p.2.2.noting g.here (g.thread s p.1))))
            g.k g.idx g.run.acc (trapsOf g.here rs)
          next (startWaits s2 g fun l => (oks.find? fun p => p.1 == l).map fun p => .ship x.dst.toNat p.2.1)

/-- The lowest free result slot of a thread. -/
def freeSlotOf (th : Thread) : Option Nat := (List.range 8).find? fun j => (aget th.slots j).isNone

/-- A section token (R374). -/
def sectionToken (seq slot : Nat) : Word := BitVec.ofNat 32 (7 * 2 ^ 29 + seq % 2 ^ 26 * 8 + slot)

/-- One lane of SHIP.A: its request is sent, a slot is taken and the token is written. -/
def shipALane (n : BitVec 3) (x : XOps) (sc : Scope) (k grp : Nat) (here : DWord) (s : State) (L : LCtx) (th : Thread) :
    Except AccStop (Unit × Thread × State) :=
  match lostStop th sc with
  | some e => .error e
  | none =>
    match logOperands (.shipA n x) (ofX x) (Instr.shape (.shipA n x)) here L th with
    | .error e => .error e
    | .ok (lr, th) =>
      let slot := (freeSlotOf th).getD 0
      match prepareShip true n.toNat grp s L lr (.thread k L.lane (some slot) th.shipCount) with
      | .error e => .error e
      | .ok (sd, s') =>
        if (freeSlotOf th).isNone then .error .hold
        else
          match writeDst L (Instr.shape (.shipA n x)).d x.dst [sectionToken th.shipCount slot] th with
          | .error e => .error e
          | .ok (u, th) =>
            .ok (u, { th with slots := aset th.slots slot { seq := th.shipCount, result := none }, shipCount := th.shipCount + 1 },
              sendShip s' k sd)

/-- SHIP.A (R379, R380). -/
def execShipA (n : BitVec 3) (x : XOps) (s : State) : Host.Outcome State Fault Refusal :=
  let i : Instr := .shipA n x
  let f := ofX x
  let sh := i.shape
  let regs := srcRegs sh.a f.a ++ srcRegs sh.b f.b ++ srcRegs sh.c f.c ++ dstRegs false sh.d f.dst
  match prologue s f (fun st => opChecks st sh f) false regs true with
  | .error o => o
  | .ok g =>
    let sc := shipScope i f s g
    match g.release s sc with
    | .error o => o
    | .ok s0 =>
      let (rs, s1) := g.lanesS s0 (shipALane n x sc g.k s0.serial g.here)
      match holdsOf rs with
      | _ :: _ => waitLanes s g (holdsOf rs)
      | [] =>
        let oks := oksOf rs
        let s2 := setThreads s1 g.k g.run.acc (oks.map fun p => (p.1, p.2.2))
        next (pairEvents (finishNext (trapForm s2 g i f (trapsOf g.here rs)) g) g.k sh.d f.dst (oks.map (·.1)))

/-! ### The home context (R381, R382) -/

def State.home (s : State) (h : Nat) : Home := (aget s.homes h).getD {}
def State.modHome (s : State) (h : Nat) (f : Home → Home) : State := { s with homes := aset s.homes h (f (s.home h)) }

/-- A die that cannot be reached (R17): a request to a home on it completes as faulted (R386). -/
def homeDead (s : State) (r : ShipReq) : Bool :=
  match r.sender with
  | .remote _ _ => s.cut 0 (r.home / 64)
  | _ => s.cut (fld r.coreId.toNat 9 2) (r.home / 64)

/-- Two requests of one thread (R180). -/
def sameSender (a b : ShipReq) : Bool :=
  match a.sender, b.sender with
  | .thread k l _ _, .thread k' l' _ _ => k == k' && l == l'
  | .remote d _, .remote d' _ => d == d' && a.coreId == b.coreId && a.workid == b.workid
  | _, _ => false

/-- A request sent before this one is on its way to the home and comes first: one of the same thread to the same lock, or
one of the same instruction (R180). -/
def overtakes (s : State) (r : ShipReq) : Bool :=
  s.flight.any fun e =>
    match e with
    | .sectionRequestArrival q =>
      q.home == r.home && q.device == r.device && decide (q.order < r.order) &&
        ((sameSender q r && q.lock == r.lock) || q.group == r.group)
    | _ => false

/-- The number of the context that a request's originating thread belongs to, as this device counts contexts: those of other
devices stand above its own 256, so that nothing of them is taken for the state of a context here (R384, R398). -/
def ctxOf (s : State) (r : ShipReq) : Nat :=
  if r.originDev == s.mnum then r.ctx % 256 else 256 * (1 + r.originDev.toNat % 512) + r.ctx % 256

/-- A request as its home device takes it in: one from another device goes to the home that this device's partition table
gives for its lock (R377), and its originating thread counts only where that runs here (R384). -/
def arrived (s : State) (r : ShipReq) : ShipReq :=
  match r.sender with
  | .thread _ _ _ _ => r
  | .remote _ _ =>
    { r with
      home := lockEntry (partOfPlace s r.place) r.lock, fromHome := none, rrec := none, ctx := ctxOf s r
      origin := if r.originDev == s.mnum then r.origin else none }

/-- SECTION_REQUEST_ARRIVAL (R180, R380, R381): the request enters its home's queue after the requests that it may not
overtake, or waits for room in it. -/
def execSectionRequestArrival (r0 : ShipReq) (s : State) : Host.Outcome State Fault Refusal :=
  let r := arrived s r0
  if overtakes s r then next (s.push (.sectionRequestArrival r0))
  else if homeDead s r then
    next (sendResult s { sender := r.sender, result := .faulted (codeWord .fabricUnreachable (BitVec.ofNat 64 (r.home / 64))) })
  else
    let s1 := s.modHome r.home fun h =>
      if h.waiting.isEmpty && h.queue.length < 1024 then { h with queue := h.queue ++ [r] } else { h with waiting := h.waiting ++ [r] }
    next (s1.pushOnce (.sectionStart r.home))

/-- The region that admits a request's entry (R378, R381). -/
def regionFor (p : Part) (r : ShipReq) : Option Region :=
  let far :=
    match r.sender with
    | .remote _ _ => true
    | _ => false
  p.regions.find? fun g => g.start ≤ r.entry.toNat && r.entry.toNat < g.stop && (if far then g.remote else g.asid == r.asid)

/-- The one-thread team of a section (R382); the record it runs under is the sender's, or that of the region a remote
request enters (R378); a request of its own runs under the same record. -/
def sectionTeam (s : State) (h : Nat) (r : ShipReq) (g : Region) : Team :=
  let rrec :=
    match r.sender with
    | .remote _ _ => some g.rrec
    | _ => r.rrec
  let us := [DWord.lo r.lock, DWord.hi r.lock, DWord.lo r.workid, DWord.hi r.workid, r.coreId, r.device &&& 0x1FF]
  { kind := .lodestar, core := h, slot := 0, ctx := r.ctx, part := partOfHome s h, alloc := 120
    threads := [{ v := r.args ++ List.replicate (120 - r.args.length) 0, p := List.replicate 8 false, dc := List.replicate 8 0
                  pc := mkResume r.entry 0, stamp := s.cycles.toNat }]
    s := us ++ List.replicate (64 - us.length) 0, joins := List.replicate 16 (0, 0)
    bars := List.replicate 16 { gen := 0, arr := 0, exp := 0 }, engq := List.replicate 7 {}
    xrec := rrec.map fun a => readXrec s a, sectionReq := some { r with rrec := rrec }, entering := true }

/-- Removes a team and its runs. -/
def removeTeam (s : State) (k : Nat) : State :=
  { s with teams := adel s.teams k, runs := s.runs.filter fun r => r.team != k }

/-- The section of a home ends: its team goes, its sender receives the result, and the home takes its next request. -/
def endSection (s : State) (h k : Nat) (e : ShipEnd) : State :=
  let s1 := removeTeam s k
  let s2 :=
    match (s.team k).sectionReq with
    | some r => sendResult s1 { sender := r.sender, result := e }
    | none => s1
  (s2.modHome h fun v => { v with team := none }).pushOnce (.sectionStart h)

/-- Check 2 of R381 on a section whose clause can be fetched: the refusal or the fault, or `none` where SENTRY stands
first. A page fault parks the section's thread, and the check is made again after it is resolved (R384). -/
inductive EntryCheck where
  | pass
  | refuse (reason : Nat)
  | fault (c : Cause) (v : DWord)
  | page (tr : TrapRec)
  deriving DecidableEq, Repr

def entryCheck (s : State) (k : Nat) (r : ShipReq) : EntryCheck :=
  let t := s.team k
  match (t.sectionReq.map fun r => r.rrec).join.bind fun a => if s.placeBlocked t.die a then some a else none with
  | some a => .fault .fabricUnreachable (BitVec.ofNat 64 a)
  | none =>
  match fetchClause s t r.entry with
  | .error tr => if tr.cause.keepsSets then .page tr else .fault tr.cause tr.tval
  | .ok (c, _) =>
    match c.words with
    | [] => .refuse 3
    | w0 :: ws =>
      match wordChecks t false w0 (getAt 0 ws 0) with
      | .error (c, v) => .fault c v
      | .ok (.sentry _) => if r.fromHome == some r.home then .refuse 4 else .pass
      | .ok _ => .refuse 3

/-- Makes the entry check for the section of a home. -/
def enterSection (s : State) (h k : Nat) (r : ShipReq) : State :=
  match entryCheck s k r with
  | .pass => s.modTeam k fun t => { t with entering := false }
  | .refuse n => endSection s h k (.refused n)
  | .fault c v => endSection s h k (.faulted (codeWord c v))
  | .page tr => s.takeTraps k [(0, { trap := tr, log := none, resume := mkResume r.entry 0 })]

/-- The head request of a home's queue, and the queue after: a request that waits for room moves up. -/
def takeRequest (v : Home) : Option (ShipReq × Home) :=
  match v.queue, v.waiting with
  | [], _ => none
  | r :: q, [] => some (r, { v with queue := q })
  | r :: q, w :: ws => some (r, { v with queue := q ++ [w], waiting := ws })

/-- A section has nothing in flight that can still perform. -/
def sectionQuiet (s : State) (k : Nat) : Bool :=
  let t := s.team k
  t.storeq.isEmpty && t.threads.all fun th => th.ops.isEmpty

/-- A section that a fault ends releases as SRET would (R182): its flush markers are sent and gathered; an error is the
state in which it waits for them. -/
def faultRelease (s : State) (k : Nat) (e : ShipEnd) : Except State State :=
  match e with
  | .faulted _ => markersOf s k [0] (sectionScope (s.team k))
  | _ => .ok s

/-- SECTION_START (R381, R382, R384): an ended section leaves once its accesses have performed and its release is made; then the home takes its
head request. -/
def execSectionStart (h : Nat) (s : State) : Host.Outcome State Fault Refusal :=
  let v := s.home h
  match v.team with
  | some k =>
    match (s.team k).sectionEnd with
    | some e =>
      if sectionQuiet s k then
        match faultRelease s k e with
        | .ok s1 => next (endSection s1 h k e)
        | .error s1 => next (s1.push (.sectionStart h))
      else
        let s1 := if (s.thread k 0).status == .parked then discardStores s k 0 else s
        next (s1.push (.sectionStart h))
    | none =>
      match (s.team k).entering && (s.thread k 0).status == .live, (s.team k).sectionReq with
      | true, some r => next (enterSection s h k r)
      | _, _ => next s
  | none =>
    match takeRequest v with
    | none => next s
    | some (r, v1) =>
      let s0 := { s with homes := aset s.homes h v1 }
      match regionFor (s.part (partOfHome s h)) r with
      | none => next ((sendResult s0 { sender := r.sender, result := .refused 2 }).pushOnce (.sectionStart h))
      | some g =>
        let (k, s1) := s0.fresh
        let s2 := ({ s1 with teams := s1.teams ++ [(k, sectionTeam s1 h r g)] } : State).modHome h fun v => { v with team := some k }
        next (enterSection s2 h k r)

/-- Delivers a result to a thread of this device (R375, R380): a slot that is gone discards it. -/
def deliverResult (s : State) (k l : Nat) (slot : Option Nat) (seq : Nat) (e : ShipEnd) : State :=
  let th := s.thread k l
  match slot with
  | some j =>
    match aget th.slots j with
    | some sl =>
      if sl.seq = seq then s.modThread k l fun th => { th with slots := aset th.slots j { sl with result := some e } } else s
    | none => s
  | none =>
    match th.wait with
    | some (.ship dst id) =>
      if id ≠ seq then s
      else
        match e with
        | .results vs => s.modThread k l fun th => { th.setVs dst (vs.take 4) with wait := none }
        | .refused n => trapWait s k l .shipRefused (BitVec.ofNat 64 n)
        | .faulted v => trapWait s k l .shipFaulted v
    | _ => s

/-- SECTION_RESULT_ARRIVAL (R380): the results reach their sender; those of a request of another device leave. -/
def execSectionResultArrival (r : ShipResult) (s : State) : Host.Outcome State Fault Refusal :=
  match r.sender with
  | .thread k l slot seq =>
    let s1 := { s with ctxs := s.ctxs.map fun c => (c.1, { c.2 with ships := c.2.ships.filter fun p => p.2.1 != r.sender }) }
    next (deliverResult s1 k l slot seq r.result)
  | .remote _ _ => next { s with out := s.out ++ [.shipResult r] }

/-- SECTION_BUDGET_EXPIRY (R385): 2^24 Lodestar cycles after its SENTRY the section ends as faulted. -/
def execSectionBudgetExpiry (h : Nat) (s : State) : Host.Outcome State Fault Refusal :=
  match (s.home h).team with
  | none => next s
  | some k =>
    let t := s.team k
    let th := t.thread 0
    if t.sentry && 2 ^ 24 ≤ t.sectionCycles && t.sectionEnd.isNone && th.status == .live then
      let rc : Recorded := { trap := { cause := .teamTimer, tval := t.teamtime, tpc := th.pc }, log := none, resume := th.pc }
      next (State.takeTraps { s with runs := s.runs.filter fun r => r.team != k } k [(0, rc)])
    else next s

/-! ### SENTRY and SRET -/

/-- SENTRY (R382): only as the first instruction of a section. -/
def execSentry (x : XOps) (s : State) : Host.Outcome State Fault Refusal :=
  match prologue s (ofX x) (fun _ => none) false [] false with
  | .error o => o
  | .ok g =>
    let t := s.team g.k
    if t.kind != .lodestar || t.sentry then
      next (finishNext (trapLanes s g.k g.idx g.run.acc (g.e.map fun l => trapAt g l .shipRefused 5)) g)
    else next (finishNext (s.modTeam g.k fun t => { t with sentry := true }) g)

/-- SRET (R382). -/
def execSret (x : XOps) (s : State) : Host.Outcome State Fault Refusal :=
  match prologue s (ofX x) (fun _ => none) false [] false with
  | .error o => o
  | .ok g =>
    if (s.team g.k).kind != .lodestar then
      next (finishNext (trapLanes s g.k g.idx g.run.acc (g.e.map fun l => trapAt g l .shipRefused 5)) g)
    else sectionReturn s g

end Sys2Proof.Machine
end

