-- ==== Sys2Proof/Machine/Launches.lean ====
section
/-! DEFINITION. The dispatcher: launch records and their checks (R344 to R350), submission queues (R349), edges
(R353), placement (R354 to R356), LAUNCH (R368) and the end of a launch (R347, R348, R351). -/

namespace Sys2Proof.Machine

/-! ### Memory accesses of the dispatcher -/

/-- The dispatcher and the remote access engine's responder act for a context through engine group 2 of die 0 (log 16). -/
def agentTeam (c part : Nat) : Team := { kind := .user, core := 0, ctx := c, part := part }

/-- A failed access of the dispatcher or of the remote access engine: a page fault goes to the supervisor team of
compute core 0 of die 0 and the access waits, unless that team has passed the address on (R349, R444). -/
def agentFault (s : State) (c : Nat) (cause : Cause) (v : DWord) : RdRes :=
  if cause.resolvable then
    if (s.ctx c).passed.contains v then .trap cause v
    else .wait (s.mailOnce 0 (mboxWords c cause v 0 0 0 0 0 []) (.agent c))
  else .trap cause v

def agentRead (s : State) (c part : Nat) (va : DWord) (n : Nat) : RdRes :=
  match readVirtual (agentTeam c part) (some (raeOf 0)) (chunks (n / 128 + 2) va.toNat n) s with
  | .trap e v => agentFault s c e v
  | r => r

def agentWrite (s : State) (c part : Nat) (va : DWord) (bs : List Byte) : RdRes :=
  match writeVirtual s.serial (agentTeam c part) (some (raeOf 0)) (chunks (bs.length / 128 + 2) va.toNat bs.length) bs s with
  | .trap e v => agentFault s c e v
  | r => r

/-! ### The checks of R350 -/

/-- The lowest offset among the fields that fail. -/
def lowestBad : List (Nat × Bool) → Option Nat
  | [] => none
  | (o, b) :: r =>
    match b, lowestBad r with
    | true, some m => some (min o m)
    | true, none => some o
    | false, m => m

/-- The first width at which the running sum of widths exceeds 64. -/
def widthSum (r : LRec) : Option Nat := ((List.range 6).find? fun i => 64 < recShift r (i + 1)).map fun i => 32 + i

/-- Entry address fields (check 2). -/
def badEntry (a : DWord) (zeroOk : Bool) : Bool :=
  !(isCanon a && a.toNat % 4 == 0 && (zeroOk || a != 0)) && !(zeroOk && a == 0)

/-- Checks 1 to 9: the offset reported. -/
def recordBad (r : LRec) (hasCluster : Bool) : Option Nat :=
  let c := recCtrl r
  let n := recRegs r
  let carry := (List.range 16).map fun i => recB r (96 + i)
  let k := recCarryN r
  let rising := (List.range 15).all fun i => !(i + 1 < k) || getAt 0 carry i < getAt 0 carry (i + 1)
  let chain : List (Option Nat) :=
    [lowestBad
      [(24, fld c 24 8 != 0 || fld c 16 3 != 0 || fld c 5 2 != 0 || recProg r == 3 || fld c 12 4 == 15 || decide (16 < k) ||
          (k != 0 && !recPhased r)),
       (38, recB r 38 != 0), (39, recB r 39 != 0), (60, recW r 60 != 0)],
     lowestBad [(0, badEntry (recD r 0) false), (8, badEntry (recD r 8) true), (16, badEntry (recD r 16) true)],
     lowestBad
      ([(32, decide (5 < recWidth r 0)), (34, decide (2 < recWidth r 2))] ++
        (match widthSum r with
         | some o => [(o, true)]
         | none => []) ++
        [1, 2, 3, 4, 5].map fun i => (36 + 4 * i, recExtent r i == 0 || decide (2 ^ recWidth r i < recExtent r i))),
     lowestBad [(28, recScratch r % 128 != 0 || decide (Config.scratchBytes < recScratch r))],
     lowestBad [(96, !rising || (carry.take k).any (fun i => decide (n ≤ i)) || (carry.drop k).any (fun i => i != 0))],
     lowestBad [(40, decide (62 < recTeams r) || decide (Config.rows < recTeams r * n))],
     lowestBad [(40, !hasCluster)],
     lowestBad [(24, decide (16 < recNedge r)), (72, if recNedge r = 0 then recD r 72 != 0 else (recD r 72).toNat % 32 != 0)],
     lowestBad ((List.range 8).flatMap fun i =>
      [(176 + 2 * i, decide (16384 < recH r (176 + 2 * i))),
       (112 + 8 * i, (recD r (112 + 8 * i)).toNat % 4 != 0 || (recH r (176 + 2 * i) == 0 && recD r (112 + 8 * i) != 0))])]
  chain.findSome? fun x => x

/-- What reading the data that a record names gives: the edges with their ranges and the banks, a wait, or the offset
reported (check 10). -/
inductive DataRes where
  | ok (edges : List (DWord × List (Nat × Nat))) (banks : List (Nat × List Word)) (s : State)
  | wait (s : State)
  | bad (off : Nat)

/-- Ranges of an edge. -/
def readRanges (c part : Nat) (a : DWord) : Nat → List (Nat × Nat) → State → Except (Option State) (List (Nat × Nat) × State)
  | 0, acc, s => .ok (acc.reverse, s)
  | n + 1, acc, s =>
    match agentRead s c part a 16 with
    | .ok bs _ s1 => readRanges c part (a + 16) n ((leNat (bs.take 8), leNat (bs.drop 8)) :: acc) s1
    | .wait s1 => .error (some s1)
    | .trap _ _ => .error none

/-- The edge list: `none` in an error is a failure, a state is a wait. -/
def readEdges (c part : Nat) (a : DWord) :
    Nat → List (DWord × List (Nat × Nat)) → State → Except (Option State) (List (DWord × List (Nat × Nat)) × State)
  | 0, acc, s => .ok (acc.reverse, s)
  | n + 1, acc, s =>
    match agentRead s c part a 32 with
    | .wait s1 => .error (some s1)
    | .trap _ _ => .error none
    | .ok bs _ s1 =>
      let pc := BitVec.ofNat 64 (leNat (bs.take 8))
      let rl := BitVec.ofNat 64 (leNat ((bs.drop 8).take 8))
      let nr := leNat ((bs.drop 16).take 4)
      if pc.toNat % 32 != 0 || decide (256 < nr) || (if nr = 0 then rl != 0 else rl.toNat % 16 != 0) ||
          leNat (bs.drop 20) != 0 then .error none
      else
        match readRanges c part rl nr [] s1 with
        | .error e => .error e
        | .ok (rs, s2) => readEdges c part (a + 32) n ((pc, rs) :: acc) s2

/-- The initial contents of the banks. -/
def readBanks (c part : Nat) (r : LRec) : List Nat → List (Nat × List Word) → State → DataRes
  | [], acc, s => .ok [] acc.reverse s
  | i :: is, acc, s =>
    let n := recH r (176 + 2 * i)
    if n = 0 then readBanks c part r is acc s
    else
      match agentRead s c part (recD r (112 + 8 * i)) (4 * n) with
      | .ok bs _ s1 => readBanks c part r is ((i, wordsOf bs) :: acc) s1
      | .wait s1 => .wait s1
      | .trap _ _ => .bad (112 + 8 * i)

def readData (s : State) (c part : Nat) (r : LRec) : DataRes :=
  match readEdges c part (recD r 72) (recNedge r) [] s with
  | .error (some s1) => .wait s1
  | .error none => .bad 72
  | .ok (es, s1) =>
    match readBanks c part r (List.range 8) [] s1 with
    | .ok _ bs s2 => .ok es bs s2
    | e => e

/-! ### The progress class (R356) -/

/-- Cores of a partition by cluster: the first core of each. -/
def clustersOf (p : Part) : List Nat := p.units.coreUnits.flatMap fun u => [8 * u, 8 * u + 4]

/-- Crews of a launch that one empty core holds. -/
def crewsPerCore (r : LRec) : Nat :=
  let m := min (62 / recTeams r) (Config.rows / (recTeams r * recRegs r))
  if recScratch r = 0 then m else min m (Config.scratchBytes / recScratch r)

/-- The groups of a launch could all be placed at once on an empty partition. -/
def fitsEmpty (p : Part) (r : LRec) : Bool :=
  decide (recGroups r ≤ (clustersOf p).length * (4 * crewsPerCore r / recCrews r))

/-! ### The completion record (R347) -/

/-- COMPL can hold a completion record. -/
def complOk (r : LRec) : Bool := isCanon (recD r 64) && (recD r 64).toNat % 32 == 0

/-- The word at offset 24. -/
def complWord (code cause : Nat) : Nat := 2 ^ 31 + cause % 256 * 2 ^ 8 + code % 256

/-- The 32 bytes of a completion record. -/
def complBytes (v : Launch) : List Byte :=
  leBytes 8 (recD v.record 88).toNat ++ leBytes 8 v.tpc.toNat ++ leBytes 8 v.tval.toNat ++ leBytes 4 (complWord v.code v.cause) ++
    leBytes 4 0

/-! ### Acceptance -/

/-- How a record was received. -/
inductive AcceptRes where
  | done (status : Nat) (compl : Bool) (s : State)
  | wait (s : State)

/-- A launch that ends before it runs. -/
def rejected (s : State) (c part : Nat) (dev : Bool) (r : LRec) (code : Nat) (tval : DWord) : State :=
  let (l, s1) := s.fresh
  ({ s1 with launches := s1.launches ++ [(l,
      { ctx := c, part := part, device := dev, record := r, stage := .ending, code := code, tval := tval, order := l })] } :
    State).push (.launchEnd l)

/-- Receives a captured record (R350, R356, R347): the status is 0 accepted, 1 for the progress class, 2 for R350. -/
def acceptRecord (s : State) (c : Nat) (dev : Bool) (r : LRec) : AcceptRes :=
  let part := ((s.ctx c).part).getD 0
  let p := s.part part
  match recordBad r (!p.units.coreUnits.isEmpty) with
  | some off => .done 2 (complOk r) (rejected s c part dev r 2 (BitVec.ofNat 64 off))
  | none =>
    match readData s c part r with
    | .wait s1 => .wait s1
    | .bad off => .done 2 (complOk r) (rejected s c part dev r 2 (BitVec.ofNat 64 off))
    | .ok es bs s1 =>
      if recProg r = 2 && (recPhased r || !fitsEmpty p r) then .done 1 (complOk r) (rejected s1 c part dev r 1 0)
      else
        let w := if complOk r then agentWrite s1 c part (recD r 64 + 24) (leBytes 4 0) else .trap .misalignedAccess 0
        let go := fun (s : State) (ok : Bool) =>
          let (l, s2) := s.fresh
          let v : Launch :=
            { ctx := c, part := part, device := dev, record := r, stage := if es.isEmpty then .ready else .edges, edges := es, order := l
              consts := bs.map fun b => (b.1, mapAt (fun i w => (i, w)) 0 b.2)
              constDefined := (List.range 8).map fun i => recH r (176 + 2 * i) != 0
              bars := List.replicate 4 { gen := 0, arr := 0, exp := 0 } }
          let s3 := { s2 with launches := s2.launches ++ [(l, v)] }
          AcceptRes.done 0 ok (if es.isEmpty then s3.pushOnce (.placeClusterGroup part) else s3.push (.edgeSatisfied l))
        match w with
        | .wait s2 => .wait s2
        | .trap _ _ => go s1 false
        | .ok _ _ s2 => go s2 true

/-! ### The submission queue (R349) -/

/-- Records a ring holds. -/
def ringSize (c : Ctx) : Nat := 2 ^ (c.sqLog2n + 4)

/-- LAUNCH_DOORBELL (R349). -/
def doorbell (s : State) (vf : Nat) (tail : Word) : State :=
  let c := s.ctx vf
  if ringSize c < (tail - c.sqhead).toNat then s.modCtx vf fun c => { c with sqErr := true }
  else (s.modCtx vf fun c => { c with sqtail := tail }).pushOnce (.recordCapture vf)

def execLaunchDoorbell (vf : Nat) (tail : Word) (s : State) : Host.Outcome State Fault Refusal := next (doorbell s vf tail)

/-- LAUNCH_QUEUE_CONTROL (R349): a write of word 0x08. -/
def queueControl (s : State) (vf : Nat) (w : Word) : State :=
  let n := fld w.toNat 0 4
  if 12 ≤ n then s.modCtx vf fun c => { c with sqErr := true }
  else
    let on := w.getLsbD 31
    let c := s.ctx vf
    let s1 := s.setCtx vf
      { c with
        sqErr := c.sqErr && !w.getLsbD 30, sqEnable := on
        sqLog2n := if c.sqEnable then c.sqLog2n else n
        sqStuck := if on && !c.sqEnable then false else c.sqStuck }
    if on then s1.pushOnce (.recordCapture vf) else s1

def execLaunchQueueControl (vf : Nat) (w : Word) (s : State) : Host.Outcome State Fault Refusal := next (queueControl s vf w)

/-- Receives the captured record of a queue (R350). -/
def receiveCaptured (s : State) (vf : Nat) (r : LRec) : State :=
  match acceptRecord s vf false r with
  | .wait s1 => s1.push (.recordCapture vf)
  | .done _ ok s1 => (s1.modCtx vf fun c => { c with captured := none, sqErr := c.sqErr || !ok }).pushOnce (.recordCapture vf)

/-- RECORD_CAPTURE (R349, R350): the next record of a queue is read under the function's context, which advances SQHEAD,
and the record captured is received; nothing happens while ENABLE is 0. -/
def execRecordCapture (vf : Nat) (s : State) : Host.Outcome State Fault Refusal :=
  let c := s.ctx vf
  if !c.sqEnable then next s
  else
    match c.captured with
    | some r => next (receiveCaptured s vf r)
    | none =>
      if c.sqStuck || c.sqhead == c.sqtail then next s
      else
        let va := c.sqbase + BitVec.ofNat 64 (256 * (c.sqhead.toNat % ringSize c))
        match agentRead s vf (c.part.getD 0) va 256 with
        | .wait s1 => next (s1.push (.recordCapture vf))
        | .trap _ _ => next (s.modCtx vf fun c => { c with sqErr := true, sqStuck := true })
        | .ok bs _ s1 =>
          next ((s1.modCtx vf fun c => { c with sqhead := c.sqhead + 1, captured := some (wordsOf bs) }).pushOnce (.recordCapture vf))

/-! ### LAUNCH (R368) -/

/-- Launches made by LAUNCH in a partition that have not ended. -/
def deviceLaunches (s : State) (part : Nat) : Nat := (s.launches.filter fun l => l.2.device && l.2.part == part).length

/-- What LAUNCH checks at issue (R368). -/
def prepareLaunch (i : Instr) (s : State) (_ : Grp) (L : LCtx) (lr : LogRec) (th : Thread) :
    Except AccStop (Prepared × Thread × State) :=
  if lr.a.toNat % 256 != 0 then .error (.trap .misalignedAccess lr.a .nothing)
  else .ok ({ op := { qs := [], instr := i, lane := L.lane, block := [], args := [lr.a] }, spans := [] }, th, s)

/-- LAUNCH (R368, R212): once for the issue group, from the lowest executing lane. -/
def execLaunch (x : XOps) (s : State) : Host.Outcome State Fault Refusal := engineOp s (.launch x) x (prepareLaunch (.launch x))

/-- The LAUNCHes of a team that may go on: the first of each lane, once the accesses before it have performed (R352). -/
def launchesDue (t : Team) : List PendingOp → List PendingOp → List PendingOp
  | _, [] => []
  | before, p :: r =>
    let rest := launchesDue t (before ++ [p]) r
    if before.any (fun q => q.op.lane == p.op.lane) || earlierStore t p.op.lane p.id || earlierLoad (t.thread p.op.lane) p.id then rest
    else p :: rest

/-- The record of a LAUNCH has been read: every lane has passed its decision point (R368). -/
def captureLaunch (s : State) (k : Nat) (p : PendingOp) (bs : List Byte) (stale : Bool) : State :=
  let s1 := s.modTeam k fun t =>
    { t with pending := t.pending.map fun q => if q.id == p.id then { q with op := { q.op with block := bs } } else q }
  let s2 := p.lanes.foldl (fun s l => s.modThread k l fun th =>
    { th with ops := th.ops.map fun o => if o.id == p.id then { o with decided := true } else o }) s1
  let s3 := if stale then s2.modThread k p.op.lane fun th => { th with vstale := th.vstale ||| 1 } else s2
  releaseLog s3 k

/-- The acceptance step looks again while anything waits for it. -/
def lookAgain (s : State) (k : Nat) : State := if (s.team k).pending.isEmpty then s else s.pushOnce (.engineOpAccept k)

/-- One step of a LAUNCH after its issue (R368): its record is read, and then, once the partition holds fewer than 1,024
device launches and the record's data has been read, the record is accepted and the status goes to the lanes. -/
def launchStep (k : Nat) (p : PendingOp) (s : State) : State :=
  let t := s.team k
  match p.op.block with
  | [] =>
    match readVirtual t (some t.agent) (chunks 4 (getAt 0 p.op.args 0).toNat 256) s with
    | .wait s1 => lookAgain s1 k
    | .trap c v => lookAgain (doomLanes (dropPending s k p.id) k p.id c v p.lanes) k
    | .ok bs stale s1 => lookAgain (captureLaunch s1 k p bs stale) k
  | bs =>
    if 1024 ≤ deviceLaunches s t.part then lookAgain s k
    else
      match acceptRecord s t.ctx true (wordsOf bs) with
      | .wait s1 => lookAgain s1 k
      | .done st _ s1 =>
        match writeLanes (dropPending s1 k p.id) k p.id (BitVec.ofNat 32 st) p.lanes with
        | some s2 => lookAgain s2 k
        | none => lookAgain s k

/-- The step of one of the LAUNCHes that may go on, which one is open (log 1). -/
def launchesStep (k : Nat) (s : State) : State :=
  match launchesDue (s.team k) [] ((s.team k).pending.filter fun p => p.op.isLaunch) with
  | [] => lookAgain s k
  | [p] => launchStep k p s
  | p :: ps =>
    let (n, s1) := s.free 41
    launchStep k (getAt p (p :: ps) (n % (ps.length + 1))) s1

/-- ENGINE_OP_ACCEPT (R167, R171, R208, R209, R212, R237, R239, R240, R368, R451): the first operation that may enter its
queues does; while none may, a LAUNCH goes on. -/
def execEngineOpAccept (k : Nat) (s : State) : Host.Outcome State Fault Refusal :=
  match (nextPending s k [] ((s.team k).pending.filter fun p => !p.op.isLaunch)).bind fun p => acceptOp k p s with
  | some s1 => next (lookAgain s1 k)
  | none => next (launchesStep k s)

/-! ### Edges (R353) -/

/-- What the words of a launch's predecessors say. -/
inductive EdgeRes where
  | done (s : State)
  | failed (s : State)
  | wait (s : State)

def edgeState (c part : Nat) : List (DWord × List (Nat × Nat)) → Bool → State → EdgeRes
  | [], true, s => .done s
  | [], false, s => .wait s
  | e :: r, ok, s =>
    match agentRead s c part (e.1 + 24) 4 with
    | .ok bs _ s1 =>
      let w := leNat bs
      if bitOf w 31 && fld w 0 8 != 0 then .failed s1 else edgeState c part r (ok && bitOf w 31) s1
    | .wait s1 => edgeState c part r false s1
    | .trap _ _ => edgeState c part r false s

/-- FLUSH.RANGE at .device over the ranges of the edges. -/
def flushEdges (t : Team) (es : List (DWord × List (Nat × Nat))) (s : State) : State :=
  (es.flatMap fun e => e.2).foldl (fun s r =>
    if r.2 = 0 then s
    else (rangeWalk t 0 .device r.1 (r.1 + r.2) ((r.1 + r.2 + 4095) / 4096 - r.1 / 4096) (r.1 / 4096) (s, 0)).1) s

/-- EDGE_SATISFIED (R353). -/
def execEdgeSatisfied (l : Nat) (s : State) : Host.Outcome State Fault Refusal :=
  match aget s.launches l with
  | none => next s
  | some v =>
    match v.stage with
    | .edges =>
      match edgeState v.ctx v.part v.edges true s with
      | .wait s1 => next (s1.push (.edgeSatisfied l))
      | .failed s1 => next ((s1.modLaunch l fun v => { v with stage := .ending, code := 5 }).push (.launchEnd l))
      | .done s1 =>
        let s2 := flushEdges (agentTeam v.ctx v.part) v.edges s1
        next ((s2.modLaunch l fun v => { v with stage := .ready }).pushOnce (.placeClusterGroup v.part))
    | _ => next s

/-! ### Placement (R354) -/

/-- Teams in the slots 0 to 61 of a core. -/
def slotTeams (s : State) (core : Nat) : List Team :=
  (s.teams.filter fun kt => kt.2.kind == .user && kt.2.resident && kt.2.core == core && kt.2.slot < 62).map (·.2)

/-- The parts of a core's scratchpad that are granted: first byte and size (R134). -/
def grantsOn (s : State) (core : Nat) : List (Nat × Nat) :=
  (s.crews.filter fun c => c.2.core == core && s.crewPresent c.1).map fun c => (c.2.base, c.2.grant)

/-- The lowest place of `n` contiguous bytes of scratchpad beside the parts granted (R134; which place is taken is the
model's choice, log 88). -/
def grantPlace (used : List (Nat × Nat)) (n : Nat) : Option Nat :=
  let free := fun (b : Nat) => decide (b + n ≤ Config.scratchBytes) && used.all fun u => decide (u.2 = 0 ∨ b + n ≤ u.1 ∨ u.1 + u.2 ≤ b)
  if n = 0 then some 0
  else
    (0 :: used.map fun u => u.1 + u.2).foldl (fun (m : Option Nat) b =>
      if free b then some (min b (m.getD b)) else m) none

/-- How many grants of `n` bytes find a place, up to a number. -/
def grantRoom (n : Nat) : Nat → List (Nat × Nat) → Nat
  | 0, _ => 0
  | m + 1, used =>
    match grantPlace used n with
    | none => 0
    | some b => grantRoom n m ((b, n) :: used) + 1

/-- How many crews of a launch a core can take now. -/
def crewRoom (s : State) (core : Nat) (r : LRec) : Nat :=
  let ts := slotTeams s core
  if s.cut 0 (core / 160) then 0
  else
    grantRoom (recScratch r)
      (min ((62 - ts.length) / recTeams r) ((Config.rows - ts.foldl (fun n t => n + t.alloc) 0) / (recTeams r * recRegs r)))
      (grantsOn s core)

/-- A crew of a launch fits a core now. -/
def crewFits (s : State) (core : Nat) (r : LRec) : Bool :=
  let ts := slotTeams s core
  !s.cut 0 (core / 160) && ts.length + recTeams r ≤ 62 &&
    ts.foldl (fun n t => n + t.alloc) 0 + recTeams r * recRegs r ≤ Config.rows &&
    (grantPlace (grantsOn s core) (recScratch r)).isSome

/-- The lowest free slot of a pipe. -/
def freeSlotIn (used : List Nat) (pipe : Nat) : Option Nat :=
  (List.range 16).findSome? fun i => if 16 * pipe + i < 62 && !used.contains (16 * pipe + i) then some (16 * pipe + i) else none

/-- The slot of the next team of a crew: the lowest free one of the pipe that holds the fewest of its teams, among the
pipes with a free slot. -/
def nextSlot (used mine : List Nat) : Nat :=
  let score := fun (p : Nat) => (mine.filter fun i => i / 16 == p).length
  let best := ([0, 1, 2, 3].filter fun p => (freeSlotIn used p).isSome).foldl
    (fun (b : Option Nat) p =>
      match b with
      | none => some p
      | some q => if score p < score q then some p else b) none
  ((best.map fun p => freeSlotIn used p).join).getD 0

/-- The slots of a crew's teams, in ascending level-1 order. -/
def crewSlots (used : List Nat) : Nat → List Nat → List Nat
  | 0, mine => mine
  | n + 1, mine =>
    let sl := nextSlot (used ++ mine) mine
    crewSlots used n (mine ++ [sl])

/-- A new team of a launch. -/
def newTeam (s : State) (l : Nat) (v : Launch) (core slot crew : Nat) (ids : List DWord) : Team :=
  let r := v.record
  let us := (List.range 64).map fun i => if i < 16 then BitVec.ofNat 32 (recW r (192 + 4 * i)) else (0 : Word)
  let thread := fun (pc w : DWord) =>
    ({ v := List.replicate (recRegs r) 0, p := List.replicate 8 false, dc := List.replicate 8 0, pc := mkResume pc 0, workid := w
       stamp := s.cycles.toNat, inq := List.replicate 4 [], outq := List.replicate 4 [], addrq := List.replicate 4 [] } : Thread)
  { core := core, slot := slot, crew := some crew, launch := some l, ctx := v.ctx, part := v.part, prio := recPrio r, alloc := recRegs r
    threads := ids.map (thread (recD r 0)), s := us, joins := List.replicate 16 (0, 0)
    bars := List.replicate 16 { gen := 0, arr := 0, exp := 0 }, trapbase := recD r 16, deadline := recD r 80
    engq := List.replicate 7 {}
    acc := if recD r 8 = 0 then none else some ({ s := us, th := scalar (thread (recD r 8) 0), loops := List.replicate 4 (0, 0) } : Access) }
where
  /-- The scalar thread of an access context (R244). -/
  scalar (th : Thread) : Thread := { th with v := [], inq := [], outq := [], addrq := [] }

/-- The phase record of a crew as it stands (R389): its teams with their exited lanes, resume points and carry
registers. -/
def phaseOf (s : State) (c level2 n : Nat) (first : Bool) : PhaseRec :=
  let v := s.crew c
  let r := (s.launch v.launch).record
  { launch := v.launch, first := first, work := [level2, n], deps := 0
    teams := (s.crewTeams c).map fun kt =>
      { team := kt.1, flareRec := kt.2.flareRec, s := kt.2.s, trapbase := kt.2.trapbase, deadline := kt.2.deadline, teamtime := kt.2.teamtime
        threads := kt.2.threads.map fun th =>
          { exited := th.status == .exited, pc := th.pc, carry := (recCarry r).map th.vreg, fpstat := th.fpstat, fpmode := th.fpmode
            vstale := th.vstale, workid := th.workid } } }

/-- The crew's phase has a record from which it began. -/
def keepPhase (s : State) (c : Nat) (pr : PhaseRec) : State :=
  let (n, s1) := s.fresh
  let part := (s.launch pr.launch).part
  (s1.modPart part fun p => { p with phases := p.phases ++ [(n, pr)] }).modCrew c fun v => { v with phase := some n }

/-- Places a crew on a core: its grant, its slots and its teams. -/
def placeCrew (s : State) (l g core level2 n : Nat) : State :=
  let v := s.launch l
  let r := v.record
  let (c, s1) := s.fresh
  let used := (slotTeams s core).map fun t => t.slot
  let sl := crewSlots used (recTeams r) []
  let crew : Crew :=
    { launch := l, group := g, core := core, level2 := level2, grant := recScratch r
      base := (grantPlace (grantsOn s core) (recScratch r)).getD 0
      bars := List.replicate 16 { gen := 0, arr := 0, exp := 0 } }
  let s2 := { s1 with crews := s1.crews ++ [(c, crew)] }
  let s3 := (List.range (recTeams r)).foldl (fun s j =>
    let (k, s') := s.fresh
    let ids := (List.range (recLanes r)).map fun lane => workIdOf r lane j level2 n
    { s' with teams := s'.teams ++ [(k, newTeam s' l v core (getAt 0 sl j) c ids)] }) s2
  let s4 := (s3.modCore core fun k => { k with ro := [] }).modGroup g fun x => { x with crews := x.crews ++ [c] }
  if recPhased r then keepPhase s4 c (phaseOf s4 c level2 n true) else s4

/-- The timers of a team that is due (R419, R420): each thread that takes part owes the trap. -/
def owe (f : Thread → Thread) (t : Team) : Team :=
  { t with threads := t.threads.map fun th => if th.status == .live then f th else th }

/-- DEADLINE_REACHED (R420). -/
def deadlineReached (s : State) (k : Nat) : State :=
  let t := s.team k
  if t.resident && t.deadline != 0 && t.deadline.toNat ≤ s.cycles.toNat then
    s.modTeam k fun t => { owe (fun th => { th with owedDeadline := some t.deadline }) t with deadline := 0 }
  else s

/-- Where the crews of a group may stand: a cluster and x (R354). -/
def groupPlaces (s : State) (p : Part) (r : LRec) : List (Nat × Nat) :=
  (clustersOf p).flatMap fun c =>
    ([0, 1, 2, 3].filter fun x => (List.range (recCrews r)).all fun j => crewFits s (c + Nat.xor j x) r).map fun x => (c, x)

/-- Places group `n` of a launch at a place. -/
def placeGroupAt (s : State) (l n : Nat) (c x : Nat) : State :=
  let (g, s1) := s.fresh
  let s2 := { s1 with groups := s1.groups ++ [(g, { launch := l, n := n, bars := List.replicate 8 { gen := 0, arr := 0, exp := 0 } })] }
  let s3 := (List.range (recCrews (s.launch l).record)).foldl (fun s j => placeCrew s l g (c + Nat.xor j x) j n) s2
  let new := (s3.launchTeams l).map (·.1)
  let s4 := new.foldl (fun s k => deadlineReached s k) s3
  s4.modLaunch l fun v => { v with stage := .running, nextGroup := n + 1, placedAll := decide (recGroups v.record ≤ n + 1) }

/-- The cluster and x of the next group are the dispatcher's choice: a free value (log 5). -/
def placeNext (s : State) (l : Nat) : Option State :=
  let v := s.launch l
  match groupPlaces s (s.part v.part) v.record with
  | [] => none
  | p :: ps =>
    let (n, s1) := s.free 7
    let q := getAt p (p :: ps) (n % (ps.length + 1))
    some (placeGroupAt s1 l v.nextGroup q.1 q.2)

/-- Places the groups left of a concurrent launch at one moment, each at a free choice; `level` chooses the place whose
cores have the most room instead, with which every group finds a place where all can be placed (R356). -/
def placeAll' (level : Bool) : Nat → Nat → State → Option State
  | 0, _, s => some s
  | n + 1, l, s =>
    let v := s.launch l
    let pick :=
      if level then
        match groupPlaces s (s.part v.part) v.record with
        | [] => none
        | p :: ps =>
          let room := fun (q : Nat × Nat) =>
            (List.range (recCrews v.record)).foldl (fun m j => m + crewRoom s (q.1 + Nat.xor j q.2) v.record) 0
          let q := ps.foldl (fun b q => if room b < room q then q else b) p
          some (placeGroupAt s l v.nextGroup q.1 q.2)
      else placeNext s l
    match pick with
    | none => none
    | some s1 => placeAll' level n l s1

/-- A saved team of a parallel launch is restored before any further group of the launch is placed (R356). -/
def heldBack (s : State) (l : Nat) : Bool :=
  recClass (s.launch l).record == 1 && (s.launchTeams l).any fun kt => !kt.2.resident

/-- Places what a launch may place now. -/
def placeLaunch (s : State) (l : Nat) : Option State :=
  let v := s.launch l
  if heldBack s l then none
  else if recClass v.record = 2 then
    match placeAll' false (recGroups v.record) l s with
    | some s1 => some s1
    | none => placeAll' true (recGroups v.record) l s
  else placeNext s l

/-- The launches of a partition with groups to place, of one priority, in acceptance order. -/
def waitingLaunches (s : State) (part prio : Nat) : List Nat :=
  (s.launches.filter fun l =>
    l.2.part == part && recPrio l.2.record == prio && (l.2.stage == .ready || (l.2.stage == .running && !l.2.placedAll))).map (·.1)

/-- PLACE_CLUSTER_GROUP (R354, R355): of each priority only the launch accepted first may place; the highest priority
that can place does. -/
def execPlaceClusterGroup (part : Nat) (s : State) : Host.Outcome State Fault Refusal :=
  let firsts := [3, 2, 1, 0].filterMap fun p => (waitingLaunches s part p).head?
  match firsts.findSome? fun l => placeLaunch s l with
  | some s1 => next (s1.pushOnce (.placeClusterGroup part))
  | none => next s

/-! ### The end of a launch (R351) -/

/-- The operations of a killed team are discarded (R210): they leave their queues, and the engines that ran them are
free. -/
def discardEngine (s : State) (k : Nat) : State :=
  let t := s.team k
  let ops := (t.engq.flatMap fun q => q.ops).eraseDups
  let s1 := ops.foldl (fun s o => s.closeOp k o .cancelled (o.word .cancelled 0)) s
  let s2 := s1.modCore t.core fun c =>
    { c with
      engines := c.engines.filter fun e => e.2.1 != k
      mxRunning := if c.mxRunning == some k then none else c.mxRunning
      bankWaiters := c.bankWaiters.filter fun b => b.team != k }
  let s3 := s2.modTeam k fun t => { t with pending := [] }
  if t.kind == .user then
    ((s3.pushOnce (.copyEngineTake t.core 0)).pushOnce (.copyEngineTake t.core 1)).pushOnce (.matrixEngineSelect t.core)
  else s3

/-- Nothing of a team is in flight any more (R351, R366). -/
def teamDrained (s : State) (k : Nat) : Bool :=
  let t := s.team k
  (t.storeq.all fun e => heldStore t e) && (t.engq.all fun q => q.ops.isEmpty) && t.pending.isEmpty &&
    !(s.runs.any fun r => r.team == k)

/-- An atomic operation or a range instruction of a team has issued and not performed (R351). -/
def accessesOut (t : Team) : Bool :=
  t.threads.any fun th => th.ops.any fun o =>
    o.doomed.isNone &&
      match o.what with
      | .atom _ _ _ _ _ _ _ _ | .range _ _ _ _ => true
      | _ => false

/-- Every thread has exited and every access and operation of the team is done (R366, R254). -/
def teamOver (s : State) (k : Nat) : Bool :=
  let t := s.team k
  t.allExited && teamDrained s k && (t.threads.all fun th => th.ops.isEmpty) &&
    match t.acc with
    | some a => a.ended && a.streams.isEmpty && t.threads.all fun th => th.addrq.all fun q => q.isEmpty
    | none => true

/-- A crew without teams gives up its grant and banks (R351, R388); a group without crews goes. -/
def endCrew (s : State) (c : Nat) : State :=
  match aget s.crews c with
  | none => s
  | some v =>
    if (s.crewTeams c).isEmpty then
      let s0 := s.modPart (s.launch v.launch).part fun p =>
        { p with phases := p.phases.filter fun r => some r.1 != v.phase }
      let s1 := { s0 with crews := adel s0.crews c }
      let s2 := (s1.modCore v.core fun k =>
        { k with
          banks := k.banks.map fun b => if b.2.owner == some c then (b.1, { b.2 with freeing := true }) else b
          resident := if (k.resident.map fun x => x.crew) == some c then none else k.resident }).pushOnce (.accBankRelease v.core)
      let s3 := s2.modGroup v.group fun g => { g with crews := g.crews.filter (· != c) }
      { s3 with groups := s3.groups.filter fun g => g.1 != v.group || !g.2.crews.isEmpty }
    else s

/-- The designation of a handler team ends (R400). -/
def undesignate (s : State) (ctx k : Nat) : State :=
  s.modCtx ctx fun c => { c with flareTeam := if c.flareTeam == some k then none else c.flareTeam }

/-- A team gives up its slot and rows; it is no handler team any more, unless its phase has a record from which it goes on
(R388, R400). -/
def dropTeam (s : State) (k : Nat) (kept : Bool := false) : State :=
  let s1 := removeTeam s k
  let s2 := if kept then noteUrgent s1 (s.team k).ctx else undesignate s1 (s.team k).ctx k
  { s2 with
    parts := s2.parts.map fun p => (p.1, { p.2 with
      futures := p.2.futures.filter fun f =>
        match f.2 with
        | .thread k' _ => k' != k
        | .phase _ => true }) }

/-- A team goes, and its crew with its last team; what waits for room may be placed. -/
def reapTeam (s : State) (k : Nat) : State :=
  let t := s.team k
  let s3 := dropTeam s k
  ((match t.crew with
    | some c => endCrew s3 c
    | none => s3).pushOnce (.placeClusterGroup t.part)).pushOnce (.phaseResume t.part)

/-- The head of a context's logical device is down (R432). -/
def headLost (s : State) (ctx : Nat) : Bool := !s.heads.contains ((getAt {} s.dev.lds (s.ctx ctx).ld).head)

/-- The completion record of a launch lies in host memory (R432). -/
def complInHost (s : State) (v : Launch) : Bool :=
  match s.xlateTeam (agentTeam v.ctx v.part) .store (recD v.record 64) with
  | .ok (xl, _) => xl.ty == .host
  | .error _ => false

/-- Writes the completion record and forgets the launch: a write that fails leaves no record, which for a host record sets
ERR (R350); one that a lost host link stops is kept, also while
the other head's link is up (R432). -/
def completeLaunch (s : State) (l : Nat) (v : Launch) : State :=
  let gone := fun (s : State) => ({ s with launches := adel s.launches l } : State).pushOnce (.placeClusterGroup v.part)
  let lost := fun (s : State) => gone (if v.device then s else s.modCtx v.ctx fun c => { c with sqErr := true })
  let keep := fun (s : State) (bs : List Byte) =>
    if 4096 ≤ s.held.length then s.push (.launchEnd l) else gone { s with held := s.held ++ [(v.ctx, recD v.record 64, bs)] }
  if !complOk v.record then gone s
  else if headLost s v.ctx && complInHost s v then keep s (complBytes v)
  else
    let bs := complBytes v
    match agentWrite s v.ctx v.part (recD v.record 64) (bs.take 24) with
    | .wait s1 => s1.push (.launchEnd l)
    | .trap c _ =>
      if c == .fabricUnreachable && headLost s v.ctx then keep s bs else lost s
    | .ok _ _ s1 =>
      match agentWrite s1 v.ctx v.part (recD v.record 64 + 24) (bs.drop 24) with
      | .ok _ _ s2 => gone s2
      | .wait s2 => s2.push (.launchEnd l)
      | .trap _ _ => lost s1

/-- LAUNCH_END (R351): teams whose threads have all exited leave once they are drained; a launch that is ending ends
when none is left in a run and every access they issued has performed, for which the values that wait in their operand
queues are dropped; the record is written when every team has gone. -/
def execLaunchEnd (l : Nat) (s : State) : Host.Outcome State Fault Refusal :=
  match aget s.launches l with
  | none => next s
  | some v =>
    match v.stage with
    | .ending =>
      let ks := (s.launchTeams l).map (·.1)
      let s1 := ks.foldl (fun s k =>
        if s.runs.any fun r => r.team == k then s
        else
          let s' := (List.range (s.team k).threads.length).foldl (fun s j => discardStores s k j) (discardEngine s k)
          if teamDrained s' k && !accessesOut (s'.team k) then reapTeam s' k
          else s'.modTeam k fun t => { t with threads := t.threads.map fun th => { th with outq := th.outq.map fun _ => [] } }) s
      if (s1.launchTeams l).isEmpty then
        let s2 := s1.modPart v.part fun p => { p with phases := p.phases.filter fun r => r.2.launch != l
                                                      phaseReady := p.phaseReady.filter fun r =>
                                                        match aget p.phases r with
                                                        | some x => x.launch != l
                                                        | none => false }
        let gone := ((s1.part v.part).phases.filter fun r => r.2.launch == l).flatMap fun r => r.2.teams.map fun t => t.team
        next (completeLaunch (gone.foldl (fun s k => undesignate s v.ctx k) s2) l v)
      else next (s1.push (.launchEnd l))
    | .running =>
      let ks := (s.launchTeams l).map (·.1)
      let s1 := ks.foldl (fun s k => if teamOver s k then reapTeam s k else s) s
      let open_ := !(s1.launchTeams l).isEmpty || !v.placedAll || (s1.part v.part).phases.any fun r => r.2.launch == l
      if open_ then
        next (if (s1.launchTeams l).any fun kt => kt.2.allExited then s1.push (.launchEnd l) else s1)
      else next ((s1.modLaunch l fun v => { v with stage := .ending, code := 0 }).push (.launchEnd l))
    | _ => next s

end Sys2Proof.Machine
end

