-- ==== Sys2Proof/Machine/Phases.lean ====
section
/-! DEFINITION. Futures (R390 to R393), phases (R387 to R389) and migration (R164, R367). -/

namespace Sys2Proof.Machine

/-! ### Futures -/

/-- The future that a lane names (R390, R391): translated as an atomic, in DRAM of this device on a COH or HOME page. -/
def futureAt (s : State) (k l : Nat) (a : DWord) : Except AccStop (Piece × State) :=
  if a.toNat % 16 != 0 then .error (.trap .misalignedAccess a .nothing)
  else
    match s.piece k l (.atomic true false) a 16 with
    | .error e => .error e
    | .ok (p, s1) =>
      if p.xl.ty != .dram || p.xl.mode == .ros || p.xl.mode == .swm then .error (.trap .atomicUnsupported a .nothing)
      else .ok (p, s1)

/-- A future's value and state word as an access finds them, once its line can be written too (R125, R183). -/
def readFuture (s : State) (k : Nat) (p : Piece) : Except AccStop (DWord × Nat × State) :=
  let t := s.team k
  if derivesFrom s k [lineOf p.xl.pa] || s.writeBlocked t.agent p.xl.mode (lineOf p.xl.pa) then .error .hold
  else
  match s.readNow (some t.agent) true p.xl p.va 16 with
  | .wait _ => .error .hold
  | .trap c v => .error (.trap c v .nothing)
  | .ok bs _ s1 => .ok (BitVec.ofNat 64 (leNat (bs.take 8)), leNat (bs.drop 8), s1)

def futFull (st : Nat) : Bool := bitOf st 63

/-- Writes part of a future in the step of its read-modify-write (R150). -/
def writeFuture (s : State) (k l : Nat) (p : Piece) (off : Nat) (bs : List Byte) : State :=
  let ws := wholeBytes (p.xl.pa + off) bs
  (if p.xl.master then noteViews s (s.team k).ctx ws else s).performWrite (some (s.team k).agent) true p.xl.mode p.xl.master
    (some (k, l)) ws

/-- Sets WAIT (R390). -/
def markWaited (s : State) (k l : Nat) (p : Piece) (st : Nat) : State :=
  if bitOf st 62 then s else writeFuture s k l p 8 (leBytes 8 (st + 2 ^ 62))

/-- Room in the future table (R390). -/
def futureRoom (s : State) (part n : Nat) : Bool := (s.part part).futures.length + n ≤ 65536

/-- Where a future stands for a lane. -/
structure FutUse where
  p : Piece
  val : DWord
  st : Nat
  deriving DecidableEq, Repr

/-- The phase of a crew is squashed (R392): its teams and their runs go, its banks are freed, and its record stays. A
team with threads that have not exited keeps its designation as handler team (R399, R400). -/
def squashCrew (s : State) (c : Nat) : State :=
  let v := s.crew c
  let part := (s.launch v.launch).part
  let s1 := (s.crewTeams c).foldl (fun s kt => dropTeam s kt.1 (!kt.2.allExited)) (s.modCrew c fun v => { v with phase := none })
  ((endCrew s1 c).pushOnce (.placeClusterGroup part)).pushOnce (.phaseResume part)

/-- Futures named by an instruction that are empty, each once. -/
def emptyFutures (us : List (Nat × FutUse)) : List (Nat × FutUse) :=
  us.foldl (fun acc u => if futFull u.2.st || acc.any fun a => a.2.p.xl.pa == u.2.p.xl.pa then acc else acc ++ [u]) []

/-- The decision of FUT.LD in a phased launch (R392); `s0` is the state before it. -/
def futLdPhased (s0 s : State) (g : Grp) (x : XOps) (c : Nat) (us : List (Nat × FutUse)) : Host.Outcome State Fault Refusal :=
  let v := s.crew c
  let part := (s.team g.k).part
  let open_ := fun (s : State) => s.modCrew c fun v => { v with frozen := none }
  let es := emptyFutures us
  if v.sideEffects then
    next (finishNext (trapLanes (undoLanes s0 (open_ s) g (us.map (·.1))) g.k g.idx false (us.map fun u => trapAt g u.1 .lateFutureWait u.2.p.va)) g)
  else if es.isEmpty then
    next (finishNext (us.foldl (fun s u => s.modThread g.k u.1 fun th => th.setVs x.dst.toNat [u.2.val.lo, u.2.val.hi]) (open_ s)) g)
  else
    match v.phase, futureRoom s part es.length with
    | some rec, true =>
      let s1 := es.foldl (fun s u => markWaited s g.k u.1 u.2.p u.2.st) (open_ s)
      let s2 := s1.modPart part fun p =>
        { p with
          futures := p.futures ++ es.map fun u => (u.2.p.xl.pa, Waiter.phase rec)
          phases := p.phases.map fun r => if r.1 = rec then (r.1, { r.2 with deps := r.2.deps + es.length }) else r }
      next (squashCrew s2 c)
    | _, _ => next (s.modCrew c fun v => { v with frozen := some g.k })

/-- FUT.LD outside a phased launch (R392): a lane with an empty future waits for it. -/
def futLdPlain (s : State) (g : Grp) (x : XOps) (us : List (Nat × FutUse)) : Host.Outcome State Fault Refusal :=
  let part := (s.team g.k).part
  let waits := us.filter fun u => !futFull u.2.st
  if !futureRoom s part waits.length then next s
  else
    let s1 := us.foldl (fun s u =>
      if futFull u.2.st then s.modThread g.k u.1 fun th => th.setVs x.dst.toNat [u.2.val.lo, u.2.val.hi]
      else
        (markWaited s g.k u.1 u.2.p u.2.st).modPart part fun p =>
          { p with futures := p.futures ++ [(u.2.p.xl.pa, Waiter.thread g.k u.1)] }) s
    next (startWaits s1 g fun l => (waits.find? fun u => u.1 == l).map fun u => .future x.dst.toNat u.2.p.va)

/-- One lane of FUT.LD: where its future stands (R391). -/
def futLdLane (x : XOps) (k : Nat) (s : State) (L : LCtx) (th : Thread) : Except AccStop (FutUse × Thread × State) :=
  match srcA L .int .w64 (ofX x) th with
  | .error e => .error e
  | .ok (a, th) =>
    match futureAt s k L.lane a with
    | .error e => .error e
    | .ok (p, s1) =>
      match readFuture s1 L.k p with
      | .error e => .error e
      | .ok (v, st, s2) => .ok (({ p := p, val := v, st := st } : FutUse), th, s2)

/-- FUT.LD (R391, R392): it performs after the earlier accesses of its threads, as a release at .core, so that it returns their
own stores (R153, R158, R159). -/
def execFutLd (x : XOps) (s : State) : Host.Outcome State Fault Refusal :=
  let i : Instr := .futLd x
  let f := ofX x
  let sh := i.shape
  match prologue s f (fun st => opChecks st sh f) false (srcRegs sh.a f.a ++ dstRegs false sh.d f.dst) false with
  | .error o => o
  | .ok g =>
    match g.await s with
    | some o => o
    | none =>
      match g.release s .core with
      | .error o => o
      | .ok s0 =>
      let (rs, s1) := g.lanesS s0 (futLdLane x g.k)
      match holdsOf rs with
      | _ :: _ => waitLanes s g (holdsOf rs)
      | [] =>
        let oks := oksOf rs
        let us := oks.map fun p => (p.1, p.2.1)
        let s2 := trapLanes (setThreads s1 g.k g.run.acc (oks.map fun p => (p.1, p.2.2.noting g.here (g.thread s p.1))))
          g.k g.idx false (trapsOf g.here rs)
        let t := s.team g.k
        match t.crew, recPhased (s.recOf t) && !us.isEmpty with
        | some c, true =>
          if (s.crew c).frozen.isSome && (s.crew c).frozen != some g.k then next s else futLdPhased s s2 g x c us
        | _, _ => futLdPlain s2 g x us

/-- The waiters of a future leave the table (R393): a phase counts down and is enqueued at 0, a thread reads the value. -/
def wakeFuture (s : State) (pa : Nat) (v : DWord) : State :=
  s.parts.foldl (fun s kp =>
    let mine := kp.2.futures.filter fun f => f.1 == pa
    let s0 := if mine.isEmpty then s else s.modPart kp.1 fun p => { p with futures := p.futures.filter fun f => f.1 != pa }
    mine.foldl (fun s f =>
      match f.2 with
      | .thread k l =>
        s.modThread k l fun th =>
          match th.wait with
          | some (.future dst _) => { th.setVs dst [v.lo, v.hi] with wait := none }
          | _ => th
      | .phase rec =>
        let s1 := s.modPart kp.1 fun p =>
          { p with phases := p.phases.map fun r => if r.1 = rec then (r.1, { r.2 with deps := r.2.deps - 1 }) else r }
        match aget (s1.part kp.1).phases rec with
        | some pr =>
          if pr.deps = 0 then (s1.modPart kp.1 fun p => { p with phaseReady := p.phaseReady ++ [rec] }).pushOnce (.phaseResume kp.1)
          else s1
        | none => s1) s0) s

/-- One lane of FUT.ST: the status and the state after (R393). -/
def fillFuture (s : State) (k l : Nat) (p : Piece) (st : Nat) (v : DWord) : Word × State :=
  if futFull st then (1, s)
  else
    let s1 := writeFuture s k l p 0 (leBytes 8 v.toNat ++ leBytes 8 (2 ^ 63 + st % 2 ^ 62))
    (0, wakeFuture s1 p.xl.pa v)

/-- One lane of FUT.ST: the future is filled and the status written (R393). -/
def futStLane (x : XOps) (k : Nat) (here : DWord) (s : State) (L : LCtx) (th : Thread) :
    Except AccStop (Unit × Thread × State) :=
  match lostStop th .device with
  | some e => .error e
  | none =>
    match logOperands (.futSt x) (ofX x) (Instr.shape (.futSt x)) here L th with
    | .error e => .error e
    | .ok (lr, th) =>
      match futureAt s k L.lane lr.a with
      | .error e => .error e
      | .ok (p, s1) =>
        match readFuture s1 L.k p with
        | .error e => .error e
        | .ok (_, st, s2) =>
          let r := fillFuture (s2.sideEffect k) k L.lane p st lr.b
          match writeDst L (Instr.shape (.futSt x)).d x.dst [r.1] th with
          | .error e => .error e
          | .ok (u, th) => .ok (u, th, r.2)

/-- FUT.ST (R391, R393). -/
def execFutSt (x : XOps) (s : State) : Host.Outcome State Fault Refusal :=
  let i : Instr := .futSt x
  let f := ofX x
  let sh := i.shape
  let regs := srcRegs sh.a f.a ++ srcRegs sh.b f.b ++ dstRegs false sh.d f.dst
  match prologue s f (fun st => opChecks st sh f) false regs true with
  | .error o => o
  | .ok g =>
    match g.release s .device with
    | .error o => o
    | .ok s0 =>
      let (rs, s1) := g.lanesS s0 (futStLane x g.k g.here)
      match holdsOf rs with
      | _ :: _ => waitLanes s g (holdsOf rs)
      | [] =>
        let oks := oksOf rs
        let s2 := setThreads s1 g.k g.run.acc (oks.map fun p => (p.1, p.2.2))
        next (pairEvents (finishNext (trapForm s2 g i f (trapsOf g.here rs)) g) g.k sh.d f.dst (oks.map (·.1)))

/-! ### Phases -/

/-- The first condition of PHASE.END that fails for a thread (R388); a team without a crew is in no phase (log 17). -/
def phaseCarry (s : State) (t : Team) (th : Thread) : Option Nat :=
  if !th.callStack.isEmpty then some 1
  else if (t.crew.map fun c => !(banksOf (s.core t.core) c).isEmpty).getD false then some 2
  else if !recPhased (s.recOf t) || t.crew.isNone then some 3
  else if t.acc.isSome then some 4
  else none

/-- PHASE.END (R388). -/
def execPhaseEnd (x : XOps) (s : State) : Host.Outcome State Fault Refusal :=
  match prologue s (ofX x) (fun _ => none) false [] false with
  | .error o => o
  | .ok g =>
    match g.settle s with
    | some o => o
    | none =>
      let t := s.team g.k
      let bad := g.e.filterMap fun l =>
        match lateFault (g.thread s l), phaseCarry s t (g.thread s l) with
        | some e, _ => some (l, ({ cause := e.1, tval := e.2.1, tpc := g.here } : TrapRec), e.2.2)
        | none, some c => some (trapAt g l .phaseCarry (BitVec.ofNat 64 c))
        | none, none => none
      let s1 := trapLanes s g.k g.idx false bad
      let s2 := startWaits s1 g fun l => if bad.any fun p => p.1 == l then none else some .phaseEnd
      next (if g.e.isEmpty then s2 else afterThread s2 g.k)

/-- Every record of the phase pool is in use; the pool holds at least one record, and its size is the supervisor's
reservation, a free value (log 18). -/
def poolFull (s : State) (part : Nat) : Bool :=
  Config.freeNat 8 part + 1 ≤ ((s.part part).phases.filter fun r => !r.2.first).length

/-- PHASE_RECORD_ENQUEUE (R388): after every access and operation of the phase the record is written, the crew gives up
its place, and the record is enqueued. -/
def execPhaseRecordEnqueue (c : Nat) (s : State) : Host.Outcome State Fault Refusal :=
  match aget s.crews c with
  | none => next s
  | some v =>
    let ts := s.crewTeams c
    if !phaseOver s c || (ts.all fun kt => kt.2.allExited) then next s
    else if (ts.any fun kt => !teamDrained s kt.1 || kt.2.threads.any fun th => !th.ops.isEmpty) || poolFull s (s.launch v.launch).part then
      next (s.push (.phaseRecordEnqueue c))
    else
      let part := (s.launch v.launch).part
      let n := (s.groups.find? fun g => g.1 == v.group).map fun g => g.2.n
      let pr := phaseOf s c v.level2 (n.getD 0) false
      let (rec, s1) := s.fresh
      let s2 := s1.modPart part fun p =>
        { p with
          phases := (p.phases.filter fun r => some r.1 != v.phase) ++ [(rec, pr)]
          phaseReady := p.phaseReady ++ [rec] }
      next (squashCrew s2 c)

/-- A thread of a resumed phase (R389). -/
def resumeThread (r : LRec) (fresh : Thread) (p : PhaseThread) : Thread :=
  let vs := ((recCarry r).zip p.carry).foldl (fun (th : Thread) cv => th.setV cv.1 cv.2) fresh
  { vs with
    status := if p.exited then .exited else .live
    pc := p.pc, fpstat := p.fpstat, fpmode := p.fpmode, vstale := p.vstale }

/-- The cores of a partition on which a crew fits. -/
def crewCores (s : State) (p : Part) (r : LRec) : List Nat :=
  (clustersOf p).flatMap fun c => [c, c + 1, c + 2, c + 3].filter fun core => crewFits s core r

/-- Places the crew of a phase record on a core (R389); its teams have the numbers that they had. -/
def resumeCrew (s : State) (rec : Nat) (pr : PhaseRec) (core : Nat) : State :=
  let l := pr.launch
  let v := s.launch l
  let r := v.record
  let n := getAt 0 pr.work 1
  let ng : Group := { launch := l, n := n, bars := List.replicate 8 { gen := 0, arr := 0, exp := 0 } }
  let gs : Nat × State :=
    match s.groups.find? fun g => g.2.launch == l && g.2.n == n with
    | some g => (g.1, s)
    | none =>
      let (g, s') := s.fresh
      (g, ({ s' with groups := s'.groups ++ [(g, ng)] } : State))
  let g := gs.1
  let s1 := gs.2
  let (c, s2) := s1.fresh
  let crew : Crew :=
    { launch := l, group := g, core := core, level2 := getAt 0 pr.work 0, grant := recScratch r
      base := (grantPlace (grantsOn s core) (recScratch r)).getD 0
      bars := List.replicate 16 { gen := 0, arr := 0, exp := 0 }, phase := some rec }
  let sl := crewSlots ((slotTeams s2 core).map fun t => t.slot) pr.teams.length []
  let s3 := { s2 with crews := s2.crews ++ [(c, crew)] }
  let s4 := (mapAt (fun j p => (j, p)) 0 pr.teams).foldl (fun s jp =>
    let k := jp.2.team
    let t := newTeam s l v core (getAt 0 sl jp.1) c (jp.2.threads.map fun p => p.workid)
    let t' := { t with
      flareRec := jp.2.flareRec, s := jp.2.s, trapbase := jp.2.trapbase, deadline := jp.2.deadline, teamtime := jp.2.teamtime
      threads := (t.threads.zip jp.2.threads).map fun p => resumeThread r p.1 p.2
      acc := if pr.first then t.acc else none }
    deadlineReached { s with teams := s.teams ++ [(k, t')] } k) s3
  (s4.modCore core fun k => { k with ro := [] }).modGroup g fun x => { x with crews := x.crews ++ [c] }

/-- PHASE_RESUME (R389): the records with DEPS 0 are placed in the order they were enqueued. -/
def execPhaseResume (part : Nat) (s : State) : Host.Outcome State Fault Refusal :=
  let p := s.part part
  match p.phaseReady with
  | [] => next s
  | rec :: rest =>
    match aget p.phases rec with
    | none => next ((s.modPart part fun p => { p with phaseReady := rest }).push (.phaseResume part))
    | some pr =>
      match crewCores s p (s.launch pr.launch).record with
      | [] => next s
      | core :: cs =>
        let (n, s1) := (s.modPart part fun p => { p with phaseReady := rest }).free 9
        next ((resumeCrew s1 rec pr (getAt core (core :: cs) (n % (cs.length + 1)))).pushOnce (.phaseResume part))

/-! ### Migration -/

/-- The die that an address names for MIGRATE (R367). -/
def migrateDie (s : State) (k l : Nat) (a : DWord) : Except AccStop (Nat × State) :=
  match s.piece k l .load a 1 with
  | .error e => .error e
  | .ok (p, s1) =>
    match p.xl.ty with
    | .dram | .bank => .ok (dieOfPa p.xl.pa, s1)
    | _ => .error (.trap .migrateFault 1 .nothing)

/-- One lane of MIGRATE: the die it names. -/
def migrateLane (x : XOps) (s : State) (L : LCtx) (th : Thread) : Except AccStop (Nat × Thread × State) :=
  match srcA L .int .w64 (ofX x) th with
  | .error e => .error e
  | .ok (a, th) =>
    match migrateDie s L.k L.lane a with
    | .error e => .error e
    | .ok (d, s1) => .ok (d, th, s1)

/-- MIGRATE (R367): the thread waits for its team. -/
def execMigrate (x : XOps) (s : State) : Host.Outcome State Fault Refusal :=
  lanesThen s (.migrate x) x Grp.settle (migrateLane x) fun s g vals traps =>
        let s1 := trapLanes s g.k g.idx false traps
        let s2 := startWaits (if vals.isEmpty then s1 else s1.sideEffect g.k) g fun l =>
          (vals.find? fun p => p.1 == l).map fun p => .migrate p.2
        next (if vals.isEmpty then s2 else s2.pushOnce (.migrateMove g.k))

/-- The die of the lowest lane of a team whose threads all wait in MIGRATE or have exited. -/
def migrateTo (t : Team) : Option Nat :=
  let ds := t.threads.filterMap fun th =>
    match th.wait with
    | some (.migrate d) => some d
    | _ => none
  if t.threads.all fun th => th.status == .exited ||
      (match th.wait with
       | some (.migrate _) => true
       | _ => false) then ds.head? else none

/-- The threads of a team go on after their MIGRATE. -/
def resumeMigrated (t : Team) : Team :=
  { t with
    threads := t.threads.map fun th =>
      match th.wait with
      | some (.migrate _) => { th with wait := none }
      | _ => th }

/-- A pending sync at a barrier of a former crew is gone. -/
def leaveCrewSync (th : Thread) : Thread :=
  { th with
    monitor := .idle
    pendingSync := th.pendingSync.filter fun p =>
      match p.1 with
      | .crew _ _ | .group _ _ => false
      | _ => true }

/-- Moves a team to a landing slot (R367): it belongs to no crew from then on, and the read-only cache it comes to holds
nothing older than its launch (R166). -/
def moveTeam (s : State) (k core : Nat) : State :=
  let t := s.team k
  let s1 := s.modTeam k fun t =>
    let t := resumeMigrated t
    { t with core := core, slot := Config.landingSlot, crew := none, threads := t.threads.map leaveCrewSync }
  let keys :=
    match t.crew with
    | some c => (List.range 16).map (BarKey.crew c) ++ (List.range 8).map (BarKey.group (s.crew c).group)
    | none => []
  let s2 := keys.foldl (fun s b => if (s.bar b).exp = liveMark then barCheck s b else s) s1
  let s3 :=
    match t.crew with
    | some c => endCrew s2 c
    | none => s2
  let s4 := s3.modCore core fun v => { v with ro := [] }
  (s4.pushOnce (.landingSlotMove k)).pushOnce (.placeClusterGroup t.part)

/-- Cores of a partition on a die. -/
def coresOnDie (p : Part) (d : Nat) : List Nat :=
  (clustersOf p).flatMap fun c => if c / 160 = d then [c, c + 1, c + 2, c + 3] else []

/-- MIGRATE_MOVE (R164, R367). -/
def execMigrateMove (k : Nat) (s : State) : Host.Outcome State Fault Refusal :=
  let t := s.team k
  match migrateTo t with
  | none => next s
  | some d =>
    let wait := next (s.push (.migrateMove k))
    if !teamDrained s k || (t.threads.any fun th => !th.ops.isEmpty) ||
        ((List.range t.threads.length).any fun l => !(pairable t l).isEmpty) then wait
    else if d = t.die then next (s.modTeam k resumeMigrated)
    else
      match coresOnDie (s.part t.part) d with
      | [] =>
        next ((List.range t.threads.length).foldl (fun s l =>
          match (s.thread k l).wait with
          | some (.migrate _) => trapWait s k l .migrateFault 2
          | _ => s) s)
      | cs =>
        match cs.filter fun c => !(s.teams.any fun kt => kt.2.kind == .user && kt.2.resident && kt.2.core == c && kt.2.slot == Config.landingSlot) with
        | [] => wait
        | c :: r =>
          let (n, s1) := s.free 10
          next (moveTeam s1 k (getAt c (c :: r) (n % (r.length + 1))))

/-- LANDING_SLOT_MOVE (R367): into a free slot of the core, once its rows are free and the team stands between runs. -/
def execLandingSlotMove (k : Nat) (s : State) : Host.Outcome State Fault Refusal :=
  let t := s.team k
  if t.slot ≠ Config.landingSlot then next s
  else if !t.resident then next (s.push (.landingSlotMove k))
  else
    let ts := slotTeams s t.core
    let used := ts.map fun t => t.slot
    let free := (List.range 62).filter fun i => !used.contains i
    let rows := ts.foldl (fun n t => n + t.alloc) 0
    match free, rows + t.alloc ≤ Config.rows && !(s.runs.any fun r => r.team == k) with
    | i :: r, true =>
      let (n, s1) := s.free 11
      next (s1.modTeam k fun t => { t with slot := getAt i (i :: r) (n % (r.length + 1)) })
    | _, _ => next (s.push (.landingSlotMove k))

end Sys2Proof.Machine
end

