-- ==== Sys2Proof/Machine/Streams.lean ====
section
/-! DEFINITION. The access unit's streams (R247 to R254): AFF.LOOP, AFF.LD, AFF.ST and AFF.FEED, the points of a
stream, and the stores of paired addresses and data. -/

namespace Sys2Proof.Machine

/-! ### The instructions -/

/-- Word 0 of an instruction, as RESERVED_FIELD reports it (R58). -/
def word0 (i : Instr) : DWord := BitVec.ofNat 64 (getAt 0 i.encode 0)

/-- What AFF.LOOP does (R248): a level's count and stride. -/
def affLoopLane (x : XOps) (s : State) (L : LCtx) (th : Thread) : Except AccStop (List Word × Thread × State) :=
  let f := ofX x
  match (do
      let n ← srcA L .int .w32 f
      let d ← srcC L .int .w32 f
      return (n.lo, d.lo) : LaneM (Word × Word)) th with
  | .error e => .error e
  | .ok ((n, d), th) =>
    if 2 ^ 24 < n.toNat then .error (.trap .reservedField (word0 (.affLoop x)) .nothing)
    else
      .ok ([], th, s.modTeam L.k fun t =>
        { t with acc := t.acc.map fun a => { a with loops := setAt a.loops x.b.bits (n.toNat, d.sext) } })

/-- AFF.LOOP (R248). -/
def execAffLoop (x : XOps) (s : State) : Host.Outcome State Fault Refusal :=
  effectOp s (.affLoop x) (ofX x) (fun _ => none) (affLoopLane x)

/-- The stream an AFF.LD or AFF.ST starts (R247, R249): its queue, and its levels as they stand. -/
def newStream (a : Access) (x : XOps) (store : Bool) (base ls : DWord) : Stream :=
  let c := x.b.bits
  let levels := ([0, 1, 2, 3].filter fun n => fld c (2 + n) 1 == 1).map fun n => getAt ((0, 0) : Nat × DWord) a.loops n
  { q := fld c 0 2 + (if store then 4 else 0), base := base, ls := ls, levels := levels, point := 0, lane := 0
    total := (levels.map fun p => p.1).foldl (· * ·) 1, ty := x.ty, fb := fld c 6 1 == 1 }

/-- What AFF.LD and AFF.ST do (R247, R248): the stream is accepted once no stream of its queue is generating. DESIGN CHOICE
(log 117): a lane stride from a 32-bit register is extended with its sign, as the level strides are. -/
def streamLane (x : XOps) (store : Bool) (s : State) (L : LCtx) (th : Thread) :
    Except AccStop (List Word × Thread × State) :=
  let f := ofX x
  match (do
      let b ← srcA L .int .w64 f
      let d ← srcC L .int .w32 f
      return (b, d.lo) : LaneM (DWord × Word)) th with
  | .error e => .error e
  | .ok ((b, d), th) =>
    match (s.team L.k).acc with
    | none => .ok ([], th, s)
    | some a =>
      let st := newStream a x store b d.sext
      if a.generating st.q then .error .hold
      else if st.total = 0 then .ok ([], th, s)
      else
        .ok ([], th, (s.modTeam L.k fun t => { t with acc := some { a with streams := a.streams ++ [st] } }).push
          (.accessStreamPoint L.k st.q))

/-- AFF.LD and AFF.ST (R247, R248). -/
def streamOp (i : Instr) (x : XOps) (store : Bool) (s : State) : Host.Outcome State Fault Refusal :=
  effectOp s i (ofX x) (fun _ => none) (streamLane x store)

/-- AFF.LD (R248). -/
def execAffLd (x : XOps) (s : State) : Host.Outcome State Fault Refusal := streamOp (.affLd x) x false s

/-- AFF.ST (R248). -/
def execAffSt (x : XOps) (s : State) : Host.Outcome State Fault Refusal := streamOp (.affSt x) x true s

/-- What AFF.FEED does (R251): the value enters the lane's feedback FIFO. -/
def affFeedLane (x : XOps) (s : State) (L : LCtx) (th : Thread) : Except AccStop (List Word × Thread × State) :=
  match srcA L .int .w32 (ofX x) th with
  | .error e => .error e
  | .ok (v, th) =>
    if Config.queueDepth ≤ th.feed.length then .error .hold
    else .ok ([], { th with feed := th.feed ++ [(L.now, v.lo)] }, s)

/-- AFF.FEED (R251). -/
def execAffFeed (x : XOps) (s : State) : Host.Outcome State Fault Refusal :=
  effectOp { s with serial := s.serial + 1 } (.affFeed x) (ofX x)
    (fun st => if st.hasAcc then none else some (.operandKind, opTval x.dst.toNat 0)) (affFeedLane x)

/-! ### Points -/

/-- Address of a lane at a point of a stream, before its feedback element (R247). -/
def Stream.addr (st : Stream) : DWord :=
  let terms := st.levels.foldl (fun (r : Nat × DWord) p =>
    (r.1 / p.1, r.2 + BitVec.ofNat 64 (r.1 % p.1) * p.2)) (st.point, st.base)
  terms.2 + BitVec.ofNat 64 st.lane * st.ls

/-- The stream after one address: the next lane, the next point, or its end. -/
def Stream.advance (st : Stream) (lanes : Nat) : Option Stream :=
  if st.lane + 1 < lanes then some { st with lane := st.lane + 1, stopped := none }
  else if st.point + 1 < st.total then some { st with lane := 0, point := st.point + 1, stopped := none }
  else none

/-- Changes the stream of a queue. -/
def setStream (s : State) (k q : Nat) (f : Stream → Option Stream) : State :=
  s.modTeam k fun t =>
    { t with acc := t.acc.map fun a => { a with streams := a.streams.filterMap fun st => if st.q = q then f st else some st } }

/-- The value of a stream's element: the bytes extended as LD extends them (R189, R250). -/
def streamValue (ty : Ty) (bs : List Byte) : Word :=
  let x := leNat bs
  match ty with
  | .s8 => (BitVec.ofNat 8 x).signExtend 32
  | .s16 => (BitVec.ofNat 16 x).signExtend 32
  | _ => BitVec.ofNat 32 x

/-- What the access unit finds at an address (R252): nothing yet, a failure for the supervisor team, a failure that the
thread meets, or the bytes and whether they are stale. -/
inductive PointRes where
  | wait (s : State)
  | stop (c : Cause)
  | bad (c : Cause) (v : DWord)
  | ok (bs : List Byte) (stale : Bool) (s : State)
  deriving DecidableEq, Repr

/-- A failing check: the supervisor team resolves it as for a copy (R216), or the element carries it. -/
def PointRes.ofCause (c : Cause) (v : DWord) : PointRes := if c.resolvable then .stop c else .bad c v

/-- Checks an address of a stream, and reads it for AFF.LD (R252, R253). -/
def pointAt (s : State) (k l : Nat) (load : Bool) (a : DWord) (n : Nat) : PointRes :=
  let t := s.team k
  if a.toNat % n != 0 then .bad .misalignedAccess a
  else
    match s.piece k l (if load then .load else .store) a n with
    | .error .hold => .wait s
    | .error (.trap c _ _) => PointRes.ofCause c a
    | .ok (p, s1) =>
      if !load then
        match s1.unreachable t.die p.xl.ty p.xl.pa with
        | some _ => .bad .fabricUnreachable a
        | none => if n != 4 && s1.portIn p.xl.pa n then .bad .atomicUnsupported a else .ok [] false s1
      else
        match s1.readAt (some t.agent) false p.xl a n with
        | .wait s2 => .wait s2
        | .trap c _ => PointRes.ofCause c a
        | .ok bs stale s2 => .ok bs stale s2

/-- A stream stops for the supervisor team, which receives an engine report (R216, R252, R423); `lane` names the lane whose
paired store stopped, where the stream itself did not. -/
def stopStream (s : State) (k q : Nat) (lane : Option Nat) (c : Cause) (a : DWord) (point : Nat) : State :=
  let t := s.team k
  s.postMail (s.mailCore t) (mboxWords t.ctx .copyFault (causeWord c a) 0 0 t.slot (BitVec.ofNat 64 point) 0 [])
    (.stream k q lane)

/-- Appends an element or an address to its lane's FIFO, and moves the stream on. -/
def giveElem (s : State) (k : Nat) (st : Stream) (f : Thread → Thread) : State :=
  let n := (s.team k).threads.length
  let s1 := (setStream s k st.q fun x => x.advance n).modThread k st.lane fun th =>
    f (if st.fb then { th with feed := th.feed.tail } else th)
  let more := (st.advance n).isSome
  let s2 := if more then s1.push (.accessStreamPoint k st.q) else s1
  if 4 ≤ st.q && !(getAt [] (s.thread k st.lane).outq (st.q - 4)).isEmpty then
    s2.push (.affStPairStore k (st.q - 4) st.lane)
  else s2

def pushElem (th : Thread) (q : Nat) (e : QElem) : Thread := { th with inq := setAt th.inq q (getAt [] th.inq q ++ [e]) }
def pushAddr (th : Thread) (q : Nat) (e : AddrElem) : Thread :=
  { th with addrq := setAt th.addrq (q - 4) (getAt [] th.addrq (q - 4) ++ [e]) }

/-- ACCESS_STREAM_POINT (R247, R250, R252, R253): a stream generates its next address. -/
def execAccessStreamPoint (k q : Nat) (s : State) : Host.Outcome State Fault Refusal :=
  let t := s.team k
  let again := fun (s : State) => next (s.push (.accessStreamPoint k q))
  match t.acc.bind fun a => a.streams.find? fun st => st.q == q with
  | none => next s
  | some st =>
    let th := t.thread st.lane
    let load := decide (st.q < 4)
    let full := if load then decide (Config.queueDepth ≤ (getAt [] th.inq st.q).length)
      else decide (Config.queueDepth ≤ (getAt [] th.addrq (st.q - 4)).length)
    if st.stopped.isSome then next s
    else if !t.resident || full then again s
    else
      match st.fb, th.feed with
      | true, [] => again s
      | fb, feed =>
        let fe : Nat × Word := if fb then getAt (0, 0) feed 0 else (0, 0)
        if fb && load && earlierStore t st.lane fe.1 then again s
        else
          let a := st.addr + (if fb then fe.2.sext else 0)
          let n := tyBytes st.ty
          match pointAt s k st.lane load a n with
          | .wait s1 => again s1
          | .stop c =>
            next (stopStream (setStream s k q fun x => some { x with stopped := some (c, a) }) k q none c a st.point)
          | .bad c v =>
            next (giveElem s k st fun th =>
              if load then pushElem th q { val := 0, err := some (c, v), stale := false }
              else pushAddr th q { addr := a, bytes := n, err := some (c, v) })
          | .ok bs stale s1 =>
            next (giveElem s1 k st fun th =>
              if load then pushElem th q { val := streamValue st.ty bs, err := none, stale := stale }
              else pushAddr th q { addr := a, bytes := n, err := none })

/-! ### Stores -/

/-- Puts a store at its place in its lane's program order (R253). -/
def insertStore (e : StoreEntry) : List StoreEntry → List StoreEntry
  | [] => [e]
  | x :: r => if x.lane = e.lane && decide (e.op < x.op) then e :: x :: r else x :: insertStore e r

/-- Changes the first address of a lane's address FIFO. -/
def Thread.modAddr (th : Thread) (q : Nat) (f : AddrElem → AddrElem) : Thread :=
  match getAt [] th.addrq q with
  | [] => th
  | e :: r => { th with addrq := setAt th.addrq q (f e :: r) }

/-- AFF_ST_PAIR_STORE (R250, R252): the heads of a lane's address and data FIFOs are removed, and the store enters the
team's queue; a failing address leaves its failure for the thread. -/
def execAffStPairStore (k q l : Nat) (s : State) : Host.Outcome State Fault Refusal :=
  let t := s.team k
  let th := t.thread l
  let again := fun (s : State) => s.push (.affStPairStore k q l)
  match getAt [] th.addrq q, getAt [] th.outq q with
  | e :: es, d :: ds =>
    let pop := fun (th : Thread) => { th with addrq := setAt th.addrq q es, outq := setAt th.outq q ds }
    let goOn := fun (s : State) => if es.isEmpty || ds.isEmpty then s else again s
    let late := fun (c : Cause) (v : DWord) =>
      goOn (s.modThread k l fun th => { pop th with lateFaults := th.lateFaults ++ [(q, c, v)] })
    if !t.resident then next (again s)
    else if e.stop.isSome then next s
    else
      match e.err with
      | some (c, v) => next (late c v)
      | none =>
        match s.piece k l .store e.addr e.bytes (again := some d.1) with
        | .error .hold => next (again s)
        | .error (.trap c v _) =>
          if c.resolvable then
            next (stopStream (s.modThread k l fun th => th.modAddr q fun x => { x with stop := some c }) k (q + 4) (some l) c v 0)
          else next (late c v)
        | .ok (p, s1) =>
          match s1.unreachable t.die p.xl.ty p.xl.pa, e.bytes != 4 && s1.portIn p.xl.pa e.bytes with
          | some _, _ => next (late .fabricUnreachable e.addr)
          | none, true => next (late .atomicUnsupported e.addr)
          | none, false =>
            let st : StoreEntry :=
              { lane := l, op := d.1, dc := none, writes := wholeBytes p.xl.pa (leBytes e.bytes (d.2.toNat % 2 ^ (8 * e.bytes)))
                va := e.addr, mode := p.xl.mode, ty := p.xl.ty, master := p.xl.master, scratch := none, scope := .thread
                placeholder := false, red := none, lines := p.xl.lines }
            next (goOn (((s1.modTeam k fun t => { t.modThread l pop with storeq := insertStore st t.storeq }).sideEffect k).push
              (.storePerform k)))
  | _, _ => next s

/-- The supervisor team's answer for an access stream (R426): the stopped stream, or the lane whose paired store stopped,
goes on, or its stopped address becomes a faulted one; what stopped under another entry waits for its own answer. -/
def resumeStream (s : State) (k q : Nat) (lane : Option Nat) (fault : Bool) : State :=
  let t := s.team k
  match lane with
  | none =>
    match (t.acc.getD {}).streams.find? fun st => st.q == q with
    | none => s
    | some st =>
      match st.stopped with
      | none => s
      | some (c, a) =>
        if fault then
          giveElem s k st fun th =>
            if q < 4 then pushElem th q { val := 0, err := some (c, a), stale := false }
            else pushAddr th q { addr := a, bytes := tyBytes st.ty, err := some (c, a) }
        else (setStream s k q fun x => some { x with stopped := none }).push (.accessStreamPoint k q)
  | some l =>
    match getAt [] (s.thread k l).addrq (q - 4) with
    | [] => s
    | e :: _ =>
      match e.stop with
      | none => s
      | some c =>
        (s.modThread k l fun th => th.modAddr (q - 4) fun x =>
          { x with stop := none, err := if fault then some (c, x.addr) else none }).push (.affStPairStore k (q - 4) l)

end Sys2Proof.Machine
end

