-- ==== Sys2Proof/Machine/Flares.lean ====
section
/-! DEFINITION. Flares (R398 to R412): the flare state of a context, raises and who may make them, delivery to the
handler team, and the flare instructions. -/

namespace Sys2Proof.Machine

/-- The flare state at the enabling of the function and at its binding (R399). -/
def clearFlares (s : State) (ctx : Nat) : State :=
  let s1 := s.modCtx ctx fun c =>
    { c with flares := List.replicate 64 {}, flareMask := 0, flareEntry := 0, flareTeam := none, urgent := false }
  { s1 with
    teams := s1.teams.map fun kt =>
      if kt.2.ctx == ctx && kt.2.kind == .user then (kt.1, { kt.2 with flareRec := none, flareHeld := false }) else kt }

/-- VIRTUAL_FUNCTION_ENABLE (R399). -/
def execVirtualFunctionEnable (vf : Nat) (on : Bool) (s : State) : Host.Outcome State Fault Refusal :=
  next (if on then clearFlares (s.modCtx vf fun c => { c with enabled := true }) vf
    else s.modCtx vf fun c => { c with enabled := false })

/-! ### Raises (R401, R402) -/

/-- A permission-table entry as R401 lays it out. -/
def PermEntry.sender (e : PermEntry) : Word := getAt 0 e.words 0
def PermEntry.vmask (e : PermEntry) : DWord := DWord.ofPair (getAt 0 e.words 3) (getAt 0 e.words 2)
def PermEntry.mode (e : PermEntry) (v : Nat) : Nat :=
  let m := if v < 32 then DWord.ofPair (getAt 0 e.words 5) (getAt 0 e.words 4) else DWord.ofPair (getAt 0 e.words 7) (getAt 0 e.words 6)
  fld m.toNat (2 * (v % 32)) 2

/-- The combine mode of an allowed raise. -/
def raiseMode (c : Ctx) (sender : Word) (v : Nat) : Option Nat :=
  match c.perms.find? fun e => e.sender != 0 && e.sender == sender with
  | none => none
  | some e => if e.vmask.getLsbD v && e.mode v != 3 then some (e.mode v) else none

/-- The combining step (R402). -/
def Flare.combine (f : Flare) (mode : Nat) (sender : Word) (p : DWord) : Flare :=
  let payload : DWord :=
    match mode with
    | 0 => f.payload ||| p
    | 1 => if 2 ^ 64 ≤ f.payload.toNat + p.toNat then BitVec.allOnes 64 else f.payload + p
    | _ => p
  { pending := true, payload := payload, count := min 255 (f.count + 1), mode := mode, sender := sender }

/-- A raise reaches a context: its outcome (R410) and the state after. -/
def raiseFlare (s : State) (ctx : Nat) (sender : Word) (v : Nat) (p : DWord) : Nat × State :=
  let c := s.ctx ctx
  if 256 ≤ ctx || !c.enabled then (3, s)
  else
    match raiseMode c sender v with
    | none => (2, s)
    | some m =>
      let f := c.vector v
      (if f.pending then 1 else 0, noteUrgent (s.setCtx ctx (c.setVector v (f.combine m sender p))) ctx)

/-- FLARE_RAISE_MESSAGE (R402, R410): the outcome goes back to the sender. -/
def execFlareRaiseMessage (r : RaiseMsg) (s : State) : Host.Outcome State Fault Refusal :=
  let (st, s1) := raiseFlare s r.ctx r.sender r.vector r.payload
  match r.reply with
  | none => next s1
  | some (k, l, id) =>
    match r.device with
    | some d => next { s1 with out := s1.out ++ [.raiseOutcome d (k, l, id) st] }
    | none => next (s1.push (.flareSendOutcome k l id st))

/-- The flare window of a virtual function (R404): only an 8-byte write to RAISE acts. -/
def flareWindow (s : State) (vf off size : Nat) (val : DWord) : State :=
  if size = 8 && off < 0x200 && off % 8 = 0 then
    let (st, s1) := raiseFlare s vf (BitVec.ofNat 32 (2 ^ 30 + (s.ctx vf).ld % 256)) (off / 8) val
    if st = 2 then s1.modCtx vf fun c => { c with denied := c.denied + 1 } else s1
  else s

/-- FLARE_WINDOW_RAISE (R404). -/
def execFlareWindowRaise (vf off size : Nat) (val : DWord) (s : State) : Host.Outcome State Fault Refusal :=
  next (flareWindow s vf off size val)

/-! ### Delivery (R405 to R408) -/

/-- Waits that a flare entry and a timer trap end (R406, R421); the waiting instruction is executed again. -/
def Wait.yields (w : Wait) : Bool :=
  match w with
  | .rjoin _ | .barrier _ _ _ | .sleep _ | .yield _ | .monitor | .migrate _ | .qwait _ _ | .token _ _ _ | .rmaToken _ | .bank _ _
  | .quiet _ _ _ => true
  | .ship _ _ | .svc _ _ | .mbox _ _ _ | .future _ _ | .phaseEnd | .halted => false

/-- Where a thread that leaves its wait for a flare goes on (R406). -/
def flareReturn (th : Thread) : DWord :=
  match th.wait with
  | none | some (.monitor) | some (.sleep _) | some (.yield _) => th.pc
  | some _ => th.waitPc

/-- A thread's wait is withdrawn: it leaves the arrived threads of its barrier, and its bank request goes (R362, R406). -/
def withdrawWait (s : State) (k l : Nat) : State :=
  match (s.thread k l).wait with
  | some (.rjoin b) =>
    s.modTeam k fun t =>
      let p := getAt ((0, 0) : Word × Word) t.joins b
      { t with joins := setAt t.joins b (p.1, p.2 &&& ~~~(bit32 l)) }
  | some (.bank id _) =>
    s.modCore (s.team k).core fun c => { c with bankWaiters := c.bankWaiters.filter fun r => r.id != id || r.team != k }
  | _ => s

/-- A team stands between two runs and may start one. -/
def atBoundary (s : State) (k : Nat) : Bool :=
  (aget s.teams k).isSome && teamMayRun s (s.team k) && !(s.runs.any fun r => r.team == k && !r.acc)

/-- The thread can leave for a handler or a timer trap now, ready or not (R406, R421): it has no trap recorded, and a replay
is not interrupted (log 49). -/
def canLeave (th : Thread) : Bool :=
  th.status == .live && th.replay.isEmpty && th.stopAt.isNone && (th.ops.all fun o => o.doomed.isNone) &&
    match th.wait with
    | none => true
    | some w => w.yields

/-- The thread waits in a wait that a flare does not end (R406). -/
def keepsWait (th : Thread) : Bool :=
  th.status == .live && !th.inUser &&
    match th.wait with
    | some w => !w.yields
    | none => !th.replay.isEmpty

/-- A thread enters the flare handler (R405, R406). -/
def enterFlare (s : State) (k l : Nat) (entry : DWord) : State :=
  (withdrawWait s k l).modThread k l fun th =>
    let back :=
      match th.wait with
      | some (.monitor) | some (.sleep _) => { th with backq := none }
      | _ => th.leaveWait
    ({ back with wait := none, flareRpc := flareReturn th, stamp := s.cycles.toNat, inFlare := true, owesFlare := false } : Thread).jump entry

/-- The threads of a team that enter at this boundary. -/
def entering (t : Team) : List Nat :=
  (List.range t.threads.length).filter fun l => canLeave (t.thread l) && !(t.thread l).inUser

/-- Threads enter the handler for the team's delivery record; the monitors of the team are idle (R204), and the threads
that keep their waits enter when these end. A sleep of a thread that does not enter ends too (R366). -/
def enterAll (s : State) (k : Nat) (entry : DWord) : State :=
  let t := s.team k
  match entering t with
  | [] => s.modTeam k fun t => { t with flareHeld := true }
  | ls =>
    let s1 := ls.foldl (fun s l => enterFlare s k l entry) s
    s1.modTeam k fun t =>
      { t with
        flareHeld := false
        threads := t.threads.map fun th =>
          { th with
            monitor := .idle, owesFlare := th.owesFlare || keepsWait th
            wait := match th.wait with
                    | some (.sleep _) => none
                    | w => w } }

/-- A handler team that has not run since its restore enters its handler: the teams restored beside it wait for that run
(R408). -/
def holdRestored (s : State) (k : Nat) : State :=
  if (s.team k).fresh && inHandler (s.team k) then
    { s with teams := s.teams.map fun kt => if kt.2.fresh && kt.2.restoredWith == some k then (kt.1, { kt.2 with holdFor := some k }) else kt }
  else s

/-- Flare entries of a team at a run boundary (R405 to R407). -/
def flareBoundary (s : State) (k : Nat) : State :=
  let t := s.team k
  let c := s.ctx t.ctx
  if t.kind != .user then s
  else if t.flareHeld then enterAll s k c.flareEntry
  else
    let late := (entering t).filter fun l => (t.thread l).owesFlare
    match late with
    | _ :: _ => late.foldl (fun s l => enterFlare s k l c.flareEntry) s
    | [] =>
      if c.flareTeam == some k && c.flareEntry != 0 && !inHandler t then
        match lowestFlare c with
        | none => s
        | some v =>
          let f := c.vector v
          let s1 := (s.setCtx t.ctx (c.setVector v {})).modTeam k fun t => { t with flareRec := some (v, f) }
          holdRestored (enterAll s1 k c.flareEntry) k
      else s

/-- FLARE_DELIVERY (R405): at a run boundary of the handler team. -/
def execFlareDelivery (ctx : Nat) (s : State) : Host.Outcome State Fault Refusal :=
  match (s.ctx ctx).flareTeam with
  | some k => next (if atBoundary s k then flareBoundary s k else s)
  | none => next s

/-! ### FLARE.SEND (R409, R410) -/

/-- A target word that obeys R410. -/
def targetOk (w v : Word) : Bool :=
  zeroBits w.toNat 28 3 && zeroBits w.toNat 8 9 && fld w.toNat 26 2 ≤ 1 &&
    (if fld w.toNat 26 2 = 0 then zeroBits w.toNat 17 9 else fld w.toNat 17 9 ≤ 319) && v.toNat ≤ 63

/-- The device a target word names; none for a context of this device. -/
def targetDevice (s : State) (w : Word) : Option Nat :=
  if fld w.toNat 26 2 = 1 && fld w.toNat 17 9 != s.mnum.toNat then some (fld w.toNat 17 9) else none

/-- The sender's identity (R401, R410): a section raises as its sender's context, also where that is a context of another
device (R398). -/
def senderId (s : State) (t : Team) (far : Bool) : Word :=
  let origin : Word := if t.ctx < 256 then s.mnum else ((t.sectionReq.map fun r => r.originDev) : Option Word).getD s.mnum
  if far || origin != s.mnum then BitVec.ofNat 32 (2 * 2 ^ 30 + origin.toNat % 512 * 2 ^ 17 + t.ctx % 256)
  else BitVec.ofNat 32 (3 * 2 ^ 30 + t.ctx % 256)

/-- Sends the raise of one lane. -/
def sendRaise (s : State) (k l id : Nat) (w v : Word) (p : DWord) : State :=
  let dev := targetDevice s w
  let r : RaiseMsg :=
    { ctx := fld w.toNat 0 8, sender := senderId s (s.team k) dev.isSome, vector := v.toNat, payload := p, reply := some (k, l, id)
      device := if dev.isSome then some (s.mnum.toNat % 512) else none }
  match dev with
  | none => s.push (.flareRaiseMessage r)
  | some d => if s.peers.contains d then { s with out := s.out ++ [.raise d r] } else s.push (.flareSendOutcome k l id 4)

/-- One lane of FLARE.SEND: its target is checked (R410). -/
def flareSendLane (x : XOps) (sc : Scope) (here : DWord) (s : State) (L : LCtx) (th : Thread) :
    Except AccStop (LogRec × Thread × State) :=
  match lostStop th sc with
  | some e => .error e
  | none =>
    match logOperands (.flareSend x) (ofX x) (Instr.shape (.flareSend x)) here L th with
    | .error e => .error e
    | .ok (lr, th) =>
      if targetOk lr.a.lo lr.b.lo then .ok (lr, th, s) else .error (.trap .flareTarget (DWord.lo lr.a).zext .nothing)

/-- The state in which the flares of a group's lanes are on their way: a synchronous send waits for its outcome. -/
def sentFlares (s1 : State) (g : Grp) (id la : Nat) (dsts : List Nat) (oks : List (Nat × LogRec × Thread)) : State :=
  let sync := fun (lr : LogRec) => (DWord.lo lr.a).getLsbD 31
  let ths := oks.map fun p =>
    let th := p.2.2.incDc g.f.dc
    (p.1, { th with
      ops := th.ops ++ [({ id := id, dsts := dsts, dc := g.f.dc, win := la + 1, decided := !sync p.2.1, doomed := none,
                           what := .flare (DWord.lo p.2.1.a), log := some { p.2.1 with id := id } } : TOp)] })
  let s2 := setThreads s1 g.k g.run.acc ths
  let s3 := if oks.any fun p => sync p.2.1 then reserveLog s2 g.k id la else s2
  oks.foldl (fun s p => sendRaise s g.k p.1 id (DWord.lo p.2.1.a) (DWord.lo p.2.1.b)
    (DWord.ofPair (getAt 0 p.2.1.c 1) (getAt 0 p.2.1.c 0))) s3

/-- The scope of a raise's release (R403): .domain when a target is on another device. -/
def flareScope (x : XOps) (s : State) (g : Grp) : Scope :=
  let far := g.e.any fun l =>
    match logOperands (.flareSend x) (ofX x) (Instr.shape (.flareSend x)) g.here (g.lctx s l) (g.thread s l) with
    | .ok (lr, _) => (targetDevice s lr.a.lo).isSome
    | .error _ => false
  if far then .domain else .device

/-- FLARE.SEND (R409, R410). -/
def execFlareSend (x : XOps) (s : State) : Host.Outcome State Fault Refusal :=
  let i : Instr := .flareSend x
  let f := ofX x
  let sh := i.shape
  let regs := srcRegs sh.a f.a ++ srcRegs sh.b f.b ++ srcRegs sh.c f.c ++ dstRegs false sh.d f.dst
  match prologue s f (fun st => opChecks st sh f) false regs true with
  | .error o => o
  | .ok g =>
    let log := logOperands i f sh g.here
    let sc := flareScope x s g
    match g.release s sc with
    | .error o => o
    | .ok s0 =>
      let la := g.la s0
      let id := s0.serial
      let dsts := dstRegs false sh.d f.dst
      let (rs, s1) := g.lanesS ({ s0 with serial := s0.serial + 1 } : State) (flareSendLane x sc g.here)
      match holdsOf rs with
      | _ :: _ => waitLanes s0 g (holdsOf rs)
      | [] =>
        let s2 := if (oksOf rs).isEmpty then s1 else s1.sideEffect g.k
        next (finishNext (trapTracked (sentFlares s2 g id la dsts (oksOf rs)) g id la dsts log (trapsOf g.here rs)) g)

/-- FLARE_SEND_OUTCOME (R410): the status is written, or a synchronous send traps. -/
def execFlareSendOutcome (k l id st : Nat) (s : State) : Host.Outcome State Fault Refusal :=
  match opOf (s.thread k l) id with
  | none => next s
  | some o =>
    match o.what with
    | .flare w =>
      match w.getLsbD 31, st with
      | true, 2 => next (doomOp s k l id .flareDenied w.zext)
      | true, 3 => next (doomOp s k l id .flareTarget w.zext)
      | true, 4 => next (doomOp s k l id .fabricUnreachable (BitVec.ofNat 64 (fld w.toNat 17 9)))
      | _, _ => next ((writeResult s k l id o.dsts [BitVec.ofNat 32 st]).getD (s.push (.flareSendOutcome k l id st)))
    | _ => next s

/-! ### FLARE.MASK, FLARE.READ, FLARE.ACK, FLARE.RET (R409, R411, R412) -/

/-- The trap of the receiving forms in a section (R409). -/
def flareInSection (L : LCtx) : Bool := L.team.kind == .lodestar

/-- One lane of FLARE.MASK. -/
def flareMaskLane (x : XOps) (s : State) (L : LCtx) (th : Thread) : Except AccStop (List Word × Thread × State) :=
  if flareInSection L then .error (.trap .flareTarget 0 .nothing)
  else
    match srcA L .int .w64 (ofX x) th with
    | .error e => .error e
    | .ok (m, th) =>
      let old := (s.ctx L.team.ctx).flareMask
      let new := if x.b.bits = 0 then old ||| m else if x.b.bits = 1 then old &&& ~~~m else m
      .ok ([old.lo, old.hi], th, noteUrgent (s.modCtx L.team.ctx fun c => { c with flareMask := new }) L.team.ctx)

/-- FLARE.MASK (R412). -/
def execFlareMask (x : XOps) (s : State) : Host.Outcome State Fault Refusal :=
  effectOp s (.flareMask x) (ofX x) (fun _ => none) (flareMaskLane x)

/-- The quad that describes a vector or the delivery record (R411). -/
def flareQuad (v : Nat) (f : Flare) : List Word :=
  [f.payload.lo, f.payload.hi,
   BitVec.ofNat 32 ((if f.pending then 2 ^ 31 else 0) + f.mode % 4 * 2 ^ 16 + v % 64 * 2 ^ 8 + f.count % 256), f.sender]

/-- One lane of FLARE.READ or FLARE.ACK (R411). -/
def flareLookLane (x : XOps) (ack : Bool) (s : State) (L : LCtx) (th : Thread) :
    Except AccStop (List Word × Thread × State) :=
  if flareInSection L then .error (.trap .flareTarget 0 .nothing)
  else
    match srcA L .int .w32 (ofX x) th with
    | .error e => .error e
    | .ok (a, th) =>
      let n := (DWord.lo a).toInt
      let c := s.ctx L.team.ctx
      if n = -1 then
        let r := (s.team L.k).flareRec
        let q := match r with
          | some (v, f) => flareQuad v { f with pending := true }
          | none => [0, 0, 0, 0]
        .ok (q, th, if ack then s.modTeam L.k fun t => { t with flareRec := none } else s)
      else if 0 ≤ n && n ≤ 63 then
        let v := n.toNat
        .ok (flareQuad v (c.vector v), th, if ack then s.setCtx L.team.ctx (c.setVector v {}) else s)
      else .error (.trap .flareTarget (DWord.lo a).sext .nothing)

/-- FLARE.READ (R411). -/
def execFlareRead (x : XOps) (s : State) : Host.Outcome State Fault Refusal :=
  effectOp s (.flareRead x) (ofX x) (fun _ => none) (flareLookLane x false)

/-- FLARE.ACK (R411). -/
def execFlareAck (x : XOps) (s : State) : Host.Outcome State Fault Refusal :=
  effectOp s (.flareAck x) (ofX x) (fun _ => none) (flareLookLane x true)

/-- FLARE.RET (R412, R60): the thread continues at FLARE_RPC; a thread in the user handler is not in the flare handler until its
TRET (R407). -/
def execFlareRet (x : XOps) (s : State) : Host.Outcome State Fault Refusal :=
  match prologue s (ofX x) (fun _ => none) false [] false with
  | .error o => o
  | .ok g =>
    match g.await s with
    | some o => o
    | none =>
      let t := s.team g.k
      let bad := fun (l : Nat) =>
        let th := g.thread s l
        if t.kind == .lodestar then some (trapAt g l .flareTarget 0)
        else if !th.inFlare || th.inUser then some (trapAt g l .reconvergeMisuse 0x600)
        else (resumeCheck s t th.flareRpc).map fun p => trapAt g l p.1 p.2
      let traps := g.e.filterMap bad
      let go := g.e.filter fun l => (bad l).isNone
      let s1 := go.foldl (fun s l => s.modThread g.k l fun th => { th with inFlare := false })
        (trapLanes s g.k g.idx g.run.acc traps)
      next (finish s1 g fun l => if go.contains l then (g.thread s l).flareRpc else g.after)

end Sys2Proof.Machine
end

