-- ==== Sys2Proof/Machine/Traps.lean ====
section
/-! DEFINITION. TRAP, BKPT and TRET (R417), the user handler (R416), the timers (R418 to R421), and what happens at a
run boundary of a team (R405, R416, R421). -/

namespace Sys2Proof.Machine

/-! ### TRAP, BKPT, TRET (R417) -/

/-- Every executing thread traps with its operand. -/
def softTrap (i : Instr) (x : XOps) (c : Cause) (s : State) : Host.Outcome State Fault Refusal :=
  lanesThen s i x noWait (readWord32 x) fun s1 g vals traps =>
      next (finishNext (trapLanes (undoLanes s s1 g (vals.map (·.1))) g.k g.idx g.run.acc
        (vals.map (fun p => trapAt g p.1 c p.2.zext) ++ traps)) g)

/-- TRAP (R417). -/
def execTrap (x : XOps) (s : State) : Host.Outcome State Fault Refusal := softTrap (.trap x) x .softwareTrap s

/-- BKPT (R417). -/
def execBkpt (x : XOps) (s : State) : Host.Outcome State Fault Refusal := softTrap (.bkpt x) x .breakpoint s

/-- TRET (R417, R60): the return from a trap. -/
def execTret (x : XOps) (s : State) : Host.Outcome State Fault Refusal :=
  match prologue s (ofX x) (fun _ => none) false [] false with
  | .error o => o
  | .ok g =>
    match g.await s with
    | some o => o
    | none =>
      let t := s.team g.k
      let bad := fun (l : Nat) =>
        let th := g.thread s l
        if !th.inUser then some (trapAt g l .reconvergeMisuse 0x500)
        else (resumeCheck s t th.tpc).map fun p => trapAt g l p.1 p.2
      let traps := g.e.filterMap bad
      let go := g.e.filter fun l => (bad l).isNone
      let s1 := go.foldl (fun s l => s.modThread g.k l fun th => th.returnFromTrap s.cycles.toNat)
        (trapLanes s g.k g.idx g.run.acc traps)
      next (finish s1 g fun l => if go.contains l then (g.thread s l).tpc else g.after)

/-! ### The user handler (R416) -/

/-- A parked thread waits for the user handler: the trap it stands at follows route U. -/
def wantsHandler (th : Thread) : Bool :=
  th.status == .parked &&
    match th.recorded with
    | rc :: _ => rc.trap.cause.route == .u || rc.passed
    | [] => false

/-- The thread that trapped first. -/
def firstTrapped (t : Team) : List Nat → Option Nat
  | [] => none
  | l :: r =>
    match firstTrapped t r with
    | none => some l
    | some m => if (t.thread m).trapSeq < (t.thread l).trapSeq then some m else some l

/-- One parked thread enters the user handler while no other is in it; its later logged instructions are discarded
(R112, R113). A thread that parks in the handler leaves it to the next one (R457); where its fault is resolved meanwhile, it
goes on once the handler is free again, before another thread enters (R416; log 119). The entering thread's stamp is the cycle of
the boundary (R457). -/
def userBoundary (s : State) (k : Nat) : State :=
  let t := s.team k
  let held := (List.range t.threads.length).find? fun l => (t.thread l).userHeld && (t.thread l).status == .live
  if t.kind == .lodestar || t.trapbase = 0 || t.threads.any (fun th => th.inUser && th.status == .live && !th.userHeld) then s
  else
    match held with
    | some l => s.modThread k l fun th => { th with userHeld := false }
    | none =>
    match firstTrapped t ((List.range t.threads.length).filter fun l => wantsHandler (t.thread l)) with
    | none => s
    | some l => (discardStores s k l).modThread k l fun th => ({ th with stamp := s.cycles.toNat } : Thread).enterHandler t.trapbase

/-- USER_HANDLER_ENTRY (R416). -/
def execUserHandlerEntry (k : Nat) (s : State) : Host.Outcome State Fault Refusal :=
  next (if atBoundary s k then userBoundary s k else s)

/-! ### Timers (R418 to R421) -/

/-- TEAMTIME_OVERFLOW (R419): every thread that is neither exited nor parked owes a TEAM_TIMER trap. -/
def teamtimeOverflow (s : State) (k : Nat) : State :=
  s.modTeam k fun t =>
    { t with threads := t.threads.map fun th => if th.status == .live then { th with owedTimer := true } else th }

/-- TEAMTIME_OVERFLOW (R419). -/
def execTeamtimeOverflow (k : Nat) (s : State) : Host.Outcome State Fault Refusal := next (teamtimeOverflow s k)

/-- DEADLINE_REACHED (R420). -/
def execDeadlineReached (k : Nat) (s : State) : Host.Outcome State Fault Refusal := next (deadlineReached s k)

/-- Takes the trap that a thread owes: a timer's, DEADLINE first (R421), or after a run under single step SINGLE_STEP with the
address of its next run (R415; log 19). Behind an instruction that can still trap it is recorded,
and taken with the trap of that one or once it is decided (R56, R112). -/
def owedTrap (s : State) (k l : Nat) : State :=
  let th := s.thread k l
  let tr : Option (Cause × DWord × (Thread → Thread)) :=
    match th.owedDeadline, th.owedTimer with
    | some v, _ => some (.deadline, v, fun th => { th with owedDeadline := none })
    | none, true => some (.teamTimer, (s.team k).teamtime, fun th => { th with owedTimer := false })
    | none, false =>
      if th.owedStep && th.wait.isNone then some (.singleStep, standsAt th, fun th => { th with owedStep := false }) else none
  match tr with
  | none => s
  | some (c, v, clear) =>
    let here := standsAt th
    let tr : TrapRec := { cause := c, tval := v, tpc := here }
    let s1 := (withdrawWait s k l).modThread k l fun th => (clear th).leaveWait
    if undecided th then holdTrap s1 k (l, tr, .nothing)
    else s1.takeTraps k [(l, { trap := tr, log := none, resume := here })]

/-- The thread owes a timer trap, or SINGLE_STEP, which waits for the end of the thread's wait (R421; log 19). -/
def owesTrap (th : Thread) : Bool := th.owedDeadline.isSome || th.owedTimer || (th.owedStep && th.wait.isNone)

/-- The owed traps of a team at a run boundary. -/
def timerBoundary (s : State) (k : Nat) : State :=
  let t := s.team k
  ((List.range t.threads.length).filter fun l =>
    canLeave (t.thread l) && owesTrap (t.thread l)).foldl (fun s l => owedTrap s k l) s

/-- OWED_TIMER_TRAP (R421). -/
def execOwedTimerTrap (k : Nat) (s : State) : Host.Outcome State Fault Refusal :=
  next (if atBoundary s k then timerBoundary s k else s)

/-! ### A run boundary -/

/-- A thread stops at a trap of its replay that the supervisor team does not resolve (R112); it keeps its place in the order
in which the threads trapped (R416). -/
def stopThread (s : State) (k l : Nat) (rc : Recorded) : State :=
  let seq := (s.thread k l).trapSeq
  (((discardStores s k l).modThread k l fun th =>
    { th with recorded := [], replay := [], stopAt := none, pc := rc.trap.tpc, farPc := none }).takeTraps k
      [(l, { rc with passed := true })]).modThread k l fun th => { th with trapSeq := seq }

/-- Threads whose replay has ended at such a trap. -/
def stopBoundary (s : State) (k : Nat) : State :=
  let t := s.team k
  (List.range t.threads.length).foldl (fun s l =>
    let th := t.thread l
    match th.stopAt with
    | some rc => if th.status == .live && th.replay.isEmpty then stopThread s k l rc else s
    | none => s) s

/-- A thread that has executed the window of its doomed instruction parks between two runs (R32, R56): its wait at the
last instruction of the run is over, or a flare or a timer trap is due and its wait is one that they end (R406, R421). -/
def doomBoundary (s : State) (k : Nat) : State :=
  let due := fun (th : Thread) =>
    (s.team k).flareHeld || th.owesFlare || th.owedDeadline.isSome || th.owedTimer || flareDue s k
  (List.range (s.team k).threads.length).foldl (fun s l =>
    let th := s.thread k l
    if !(th.status == .live && th.ops.any fun o => o.doomed.isSome) then s
    else
      match th.wait with
      | none => parkIdle s k l
      | some w =>
        if w.yields && due th then
          parkIdle ((withdrawWait s k l).modThread k l Thread.leaveWait) k l
        else s) s

/-- What a team does between two runs, in order (R56, R112, R421, R405, R416). -/
def boundary (s : State) (k : Nat) : State :=
  if atBoundary s k then
    let s1 := stopBoundary (doomBoundary s k) k
    let s2 := if atBoundary s1 k then timerBoundary s1 k else s1
    let s3 := if atBoundary s2 k then flareBoundary s2 k else s2
    if atBoundary s3 k then userBoundary s3 k else s3
  else s

end Sys2Proof.Machine
end

