-- ==== Sys2Proof/Machine/Mailbox.lean ====
section
/-! DEFINITION. The supervisor team and its mailbox (R422 to R426): SVC and its services, MBOX.TAKE, MBOX.PUT and HALT;
what a disposal does; and the killing of a context. -/

namespace Sys2Proof.Machine

/-! ### Posting (R422, R423) -/

/-- The lowest entry index that no entry of a mailbox has. -/
def freeTicket (c : CoreS) : Option Nat :=
  (List.range Config.mailboxEntries).find? fun i => !(c.mailbox.any fun e => e.ticket % 64 == i)

/-- MAILBOX_POST (R422, R423): the oldest waiting event enters the mailbox once there is room. -/
def execMailboxPost (core : Nat) (s : State) : Host.Outcome State Fault Refusal :=
  let c := s.core core
  match c.mailboxWait, freeTicket c with
  | [], _ => next s
  | _, none => next (s.push (.mailboxPost core))
  | e :: rest, some i =>
    let t := c.mailboxSeq % 2 ^ 26 * 64 + i
    let e' : MboxEntry := { e with ticket := t, words := BitVec.ofNat 32 t :: e.words.tail }
    let s1 := s.setCore core { c with mailbox := c.mailbox ++ [e'], mailboxWait := rest, mailboxSeq := c.mailboxSeq + 1 }
    match e.src with
    | .svc k l =>
      next (s1.modThread k l fun th =>
        match th.wait with
        | some (.svc d none) => { th with wait := some (.svc d (some t)) }
        | _ => th)
    | _ => next s1

/-! ### SVC (R424) -/

/-- The request ID, the service number and the arguments of one lane. -/
def svcOperands (x : XOps) (L : LCtx) : LaneM (DWord × Word × List Word) := do
  let f := ofX x
  let r ← srcA L .int .w64 f
  let k ← srcB L .int .w32 f
  let a ← srcCs L 4 f
  return (r, k.lo, a)

/-- One lane of SVC: its operands. -/
def svcLane (x : XOps) (s : State) (L : LCtx) (th : Thread) : Except AccStop ((DWord × Word × List Word) × Thread × State) :=
  match svcOperands x L th with
  | .error e => .error e
  | .ok (r, th) => .ok (r, th, s)

/-- The entries of the lanes' calls are posted: the thread in bit form, its place and the call (R423, R424). -/
def postCalls (s : State) (g : Grp) (vals : List (Nat × DWord × Word × List Word)) (t : Team) : State :=
  vals.foldl (fun s p =>
    (s.postMail (s.mailCore t)
      (mboxWords t.ctx .svcRequest 0 g.here (bit32 p.1) t.slot p.2.1 p.2.2.1 p.2.2.2) (.svc g.k p.1)).push
      (.mailboxFullTimeout g.k p.1)) s

/-- SVC (R424): each thread posts an entry and waits for its results. -/
def execSvc (x : XOps) (s : State) : Host.Outcome State Fault Refusal :=
  lanesThen s (.svc x) x Grp.await (svcLane x) fun s1 g vals traps =>
    next (startWaits (postCalls (trapLanes s1 g.k g.idx g.run.acc traps) g vals (s1.team g.k)) g fun l =>
      if vals.any fun p => p.1 == l then some (.svc x.dst.toNat none) else none)

/-- Cycles that an SVC waits for a full mailbox (R424). -/
def svcLimit : Nat := 2 ^ 20

/-- MAILBOX_FULL_TIMEOUT (R424): the entry that never found room is withdrawn, and the thread traps. -/
def execMailboxFullTimeout (k l : Nat) (s : State) : Host.Outcome State Fault Refusal :=
  let th := s.thread k l
  match th.wait with
  | some (.svc _ none) =>
    if s.cycles.toNat < th.stamp + svcLimit then next (s.push (.mailboxFullTimeout k l))
    else
      let core := s.mailCore (s.team k)
      let no := ((s.core core).mailboxWait.find? fun e => e.src == .svc k l).map fun e => getAt 0 e.words 10
      let s1 := s.modCore core fun c => { c with mailboxWait := c.mailboxWait.filter fun e => e.src != .svc k l }
      next (trapWait s1 k l .mailboxFull (no.getD 0).zext)
  | _ => next s

/-- SUPERVISOR_FIRMWARE_RESTART (R425): every thread that waits in SVC on the core executes its SVC again. -/
def execSupervisorFirmwareRestart (core : Nat) (s : State) : Host.Outcome State Fault Refusal :=
  let hit := fun (t : Team) => s.mailCore t == core
  let svc := fun (th : Thread) =>
    match th.wait with
    | some (.svc _ _) => true
    | _ => false
  let s1 := s.modCore core fun c =>
    { c with mailboxWait := c.mailboxWait.filter fun e =>
        match e.src with
        | .svc _ _ => false
        | _ => true }
  next { s1 with
    teams := s1.teams.map fun kt =>
      if hit kt.2 then
        (kt.1, { kt.2 with threads := kt.2.threads.map fun th => if svc th then th.leaveWait else th })
      else kt }

/-! ### Killing a context (R348, R426) -/

/-- A context is killed: its launches, and the record its queue has captured, end KILLED, and the mailbox records
CONTEXT_KILLED. A captured record without a usable COMPL sets ERR (R349, R350). -/
def killContext (s0 : State) (ctx core : Nat) : State :=
  let s :=
    match (s0.ctx ctx).captured with
    | some r =>
      (rejected s0 ctx (((s0.ctx ctx).part).getD 0) false r 4 0).modCtx ctx fun c =>
        { c with captured := none, sqErr := c.sqErr || !complOk r }
    | none => s0
  let mine := (s.launches.filter fun l => l.2.ctx == ctx).map (·.1)
  let s1 := mine.foldl (fun s l =>
    match (s.launch l).stage with
    | .ending | .ended => s
    | _ => (s.modLaunch l fun x => { x with stage := .ending, code := 4, cause := 0, tpc := 0, tval := 0 }).push (.launchEnd l)) s
  let s2 := (s1.teams.filter fun kt => kt.2.kind == .lodestar && kt.2.ctx == ctx).foldl (fun s kt =>
    if (s.team kt.1).sectionEnd.isSome then s
    else (s.modTeam kt.1 fun t => { t with sectionEnd := some (.faulted (codeWord .contextKilled 0)) }).push (.sectionStart kt.2.core)) s1
  s2.postMail core (mboxWords ctx .contextKilled 0 0 0 0 0 0 []) .notice

/-- MACHINE_CHECK (R415): recorded in the mailbox of compute core 0 of die 0, and the context is killed (log 16). -/
def execMachineCheck (ctx : Nat) (code : DWord) (s : State) : Host.Outcome State Fault Refusal :=
  let s1 := { s with dev := { s.dev with counters := { s.dev.counters with uncorrectable := s.dev.counters.uncorrectable + 1 } } }
  next (killContext (s1.postMail 0 (mboxWords ctx .machineCheck code 0 0 0 0 0 []) .notice) ctx 0)

/-! ### The services with an effect of their own (R378, R397, R401, R435) -/

/-- A context's function is in CONFIG_LOCKED or RUN (R435). -/
def tdiHeld (c : Ctx) : Bool := c.tdi == .locked || c.tdi == .run

/-- Groups of `n` words. -/
def wordGroups (n : Nat) : Nat → List Word → List (List Word)
  | 0, _ => []
  | m + 1, ws => ws.take n :: wordGroups n m (ws.drop n)

/-- The address in ARG0 and ARG1, and the count in ARG2. -/
def svcList (args : List Word) : DWord × Nat := (DWord.ofPair (getAt 0 args 1) (getAt 0 args 0), (getAt 0 args 2).toNat)

/-- Service 1 (R401): the device captures the table. -/
def installPerms (s : State) (t : Team) (args : List Word) : State :=
  let (a, n) := svcList args
  if 4096 < n then s
  else
    match readVirtual t none (chunks (n + 2) a.toNat (32 * n)) s with
    | .ok bs _ s1 => s1.modCtx t.ctx fun c => { c with perms := (wordGroups 8 n (wordsOf bs)).map fun ws => { words := ws } }
    | _ => s

/-- A section region entry (R378). -/
def regionOfWords (ws : List Word) : Option Region :=
  let w := fun (i : Nat) => getAt 0 ws i
  if (w 4).getLsbD 16 then
    some { start := (DWord.ofPair (w 1) (w 0)).toNat, stop := (DWord.ofPair (w 3) (w 2)).toNat, asid := fld (w 4).toNat 0 16
           remote := (w 4).getLsbD 17, rrec := (DWord.ofPair (w 7) (w 6)).toNat }
  else none

/-- Service 2 (R378): the table lies in memory of the supervisor team. -/
def installRegions (s : State) (sup : Team) (part : Nat) (args : List Word) : State :=
  let (a, n) := svcList args
  if 16 < n then s
  else
    match readVirtual sup none (chunks (n + 2) a.toNat (32 * n)) s with
    | .ok bs _ s1 => s1.modPart part fun p => { p with regions := (wordGroups 8 n (wordsOf bs)).filterMap regionOfWords }
    | _ => s

/-- A partition holds the bank-memory unit of a bank address (R23, R88). -/
def inBankUnits (p : Part) (pa : Nat) : Bool :=
  regionOf pa == some .bank && p.units.bankUnits.contains ((pa - 0x8000000000) / 2 ^ 26 * 8 + (pa - 0x8000000000) % 2 ^ 26 / 2 ^ 23)

/-- The bank word that an entry of services 5 and 6 names, if it may be a port (R397). -/
def portWord (s : State) (t : Team) (a : DWord) : Option Nat :=
  if a.toNat % 4 != 0 then none
  else
    match s.xlateTeam t (.atomic false false) a with
    | .ok (xl, _) => if xl.ty == .bank && inBankUnits (s.part t.part) xl.pa then some xl.pa else none
    | .error _ => none

/-- Designates ports in list order up to the first entry that fails: how many of the entries are designated, from `n` on, and
the index of that entry (R397). -/
def addPorts (t : Team) (n : Nat) : List DWord → State → Nat × Option Nat × State
  | [], s => (n, none, s)
  | a :: r, s =>
    match portWord s t a with
    | none => (n, some n, s)
    | some w =>
      let ps := (s.part t.part).ports
      if ps.contains w then addPorts t (n + 1) r s
      else if 4096 ≤ ps.length then (n, some n, s)
      else addPorts t (n + 1) r (s.modPart t.part fun p => { p with ports := p.ports ++ [w] })

/-- Removes the designation of the listed words that are ports, and counts them (R397). -/
def removePorts (t : Team) (n : Nat) : List DWord → State → Nat × State
  | [], s => (n, s)
  | a :: r, s =>
    match portWord s t a with
    | none => removePorts t n r s
    | some w =>
      if (s.part t.part).ports.contains w then
        removePorts t (n + 1) r (s.modPart t.part fun p => { p with ports := p.ports.filter (· != w) })
      else removePorts t n r s

/-- The list of services 5 and 6 as the device reads it; none for a count that the services do not take. -/
def portList (s : State) (t : Team) (args : List Word) : Option RdRes :=
  let (a, n) := svcList args
  if n = 0 || 4096 < n then none else some (readVirtual t none (chunks (n + 2) a.toNat (8 * n)) s)

/-- Services 5 and 6 (R397): the state after, and the result's first two registers. DESIGN CHOICE (log 121): with a count outside 1 to 4,096, or a list that cannot be read, nothing changes and the result is the supervisor's. -/
def notifyPorts (s : State) (t : Team) (add : Bool) (args : List Word) : State × Option (Nat × Word) :=
  let n := (svcList args).2
  match portList s t args with
  | some (.ok bs _ s1) =>
    let ws := (wordGroups 2 n (wordsOf bs)).map fun p => DWord.ofPair (getAt 0 p 1) (getAt 0 p 0)
    if add then
      let r := addPorts t 0 ws s1
      (r.2.2, some (r.1, (r.2.1.map fun i => BitVec.ofNat 32 i).getD (BitVec.allOnes 32)))
    else
      let r := removePorts t 0 ws s1
      (r.2, some (r.1, BitVec.allOnes 32))
  | _ => (s, none)

/-- What a service changes when the supervisor team answers the call, and the call's results (R424): services 0, 3, 4 and every
other number change nothing that the answer itself does not, services 5 and 6 return what R397 says, and a number that names
no service returns all ones. -/
def serviceEffect (s : State) (sup t : Team) (core no : Nat) (args quad : List Word) : State × List Word :=
  let ports := fun (add : Bool) =>
    match notifyPorts s t add args with
    | (s1, some (n, i)) => (s1, [BitVec.ofNat 32 n, i] ++ quad.drop 2)
    | (s1, none) => (s1, quad)
  match no with
  | 1 =>
    if tdiHeld (s.ctx t.ctx) then (s.postMail core (mboxWords t.ctx .resourceReject 0 0 0 t.slot 0 0 []) .notice, quad)
    else (installPerms s t args, quad)
  | 2 => (installRegions s sup t.part args, quad)
  | 5 => ports true
  | 6 => ports false
  | _ => (s, if 7 ≤ no then [BitVec.allOnes 32] ++ quad.drop 1 else quad)

/-- The memory that a service reads cannot be read yet: the answer waits. -/
def serviceWaits (s : State) (sup t : Team) (no : Nat) (args : List Word) : Bool :=
  let (a, n) := svcList args
  let r : Option RdRes :=
    match no with
    | 1 => if 4096 < n then none else some (readVirtual t none (chunks (n + 2) a.toNat (32 * n)) s)
    | 2 => if 16 < n then none else some (readVirtual sup none (chunks (n + 2) a.toNat (32 * n)) s)
    | 5 | 6 => portList s t args
    | _ => none
  match r with
  | some (.wait _) => true
  | _ => false

/-! ### Disposals (R426) -/

/-- The traps of a thread that a mailbox entry is about, marked as the supervisor team answers (R112, R414). -/
def answerTrap (c : Nat) (v tpc : DWord) (pass : Bool) (r : Recorded) : Recorded :=
  if r.trap.cause.code = c && r.trap.tval == v && r.trap.tpc == tpc && r.trap.cause.route == .s && !r.solved && !r.passed then
    { r with solved := !pass, passed := pass }
  else r

/-- A parked thread goes on once every trap before the first unresolved one is resolved (R112, R358, R414): it replays, or
it stops at the trap that is passed on. -/
def settleThread (s : State) (k l : Nat) : State :=
  let th := s.thread k l
  let pre := th.recorded.takeWhile fun r => (s.team k).routeOf r.trap.cause != .u && !r.passed
  let stop := (th.recorded.drop pre.length).head?
  if th.status != .parked || pre.any (fun r => !r.solved) then s
  else
    match pre.getLast?, stop with
    | none, none => s
    | none, some rc =>
      if rc.passed then
        stopThread (s.modThread k l fun th =>
          match th.savedRegs with
          | some (c, v, p) => { th with tcause := c, tval := v, tpc := p }
          | none => th) k l rc
      else s
    | some last, _ =>
      s.modThread k l fun th =>
        let logs := pre.filterMap fun r => r.log
        let back :=
          match th.savedRegs with
          | some (c, v, p) => { th with tcause := c, tval := v, tpc := p }
          | none => th
        let rest := logs ++ th.replay
        { back with
          status := .live, userHeld := th.inUser && (s.team k).threads.any fun x => x.inUser && x.status == .live
          stamp := s.cycles.toNat, recorded := [], savedRegs := none, replay := rest
          replayResume := if logs.isEmpty then th.replayResume else last.resume
          pc := match rest with
                | [] => last.resume
                | lr :: _ => lr.at_
          farPc := none, stopAt := match stop with
                                   | some rc => some rc
                                   | none => th.stopAt }

/-- The lanes of a mask. -/
def lanesOf (m : Word) : List Nat := (List.range 32).filter fun l => m.getLsbD l

/-- Answers a thread fault. -/
def answerThreads (s : State) (k : Nat) (e : MboxEntry) (pass : Bool) : State :=
  let w := fun (i : Nat) => getAt 0 e.words i
  let c := (w 1).toNat % 256
  let v := DWord.ofPair (w 3) (w 2)
  let tpc := DWord.ofPair (w 5) (w 4)
  (lanesOf (w 6)).foldl (fun s l =>
    let s1 := s.modThread k l fun th => { th with recorded := th.recorded.map (answerTrap c v tpc pass) }
    let s2 := settleThread s1 k l
    match (s2.team k).kind == .lodestar, (s2.team k).entering with
    | true, true => s2.push (.sectionStart (s2.team k).core)
    | _, _ => s2) s

/-- Answers a trap of an access slice (R254): the instruction issues again, or the context ends. -/
def answerAccess (s : State) (k : Nat) (pass : Bool) : State :=
  s.modTeam k fun t =>
    { t with acc := t.acc.map fun a =>
        if pass then { a with ended := true }
        else { a with cause := none, th := { a.th with status := .live, stamp := s.cycles.toNat } } }

/-- The stopped operation of a team. -/
def stoppedOp (t : Team) (order : Nat) : Option EngOp :=
  (t.engq.flatMap fun q => q.ops).find? fun o => o.order == order &&
    match o.state with
    | .stopped _ _ => true
    | _ => false

/-- The engine of a core that holds a team's queue. -/
def engineOf (c : CoreS) (k q : Nat) : Option Nat := (c.engines.find? fun e => e.2 == (k, q)).map (·.1)

/-- Answers an engine report (R216, R327, R449): the operation goes on, or it completes as faulted. -/
def answerEngine (s : State) (k order : Nat) (fault : Bool) : State :=
  let t := s.team k
  match stoppedOp t order with
  | none => s
  | some o =>
    let q := getAt 0 o.qs 0
    let eng := engineOf (s.core t.core) k q
    if fault then
      match o.state with
      | .stopped c v =>
        let s1 := s.endEngineOp k o (.faulted c v) (if q = 4 then (mxBlk o.block).passes else 0)
        match eng with
        | some e => if q < 4 then freeEngine s1 t.core e else s1
        | none => s1
      | _ => s
    else if q < 4 then
      match eng with
      | some e => (s.modOp k o fun x => { x with state := .running }).push (.copyRow t.core e)
      | none => (s.modOp k o fun x => { x with state := .queued }).kick k
    else (s.modOp k o fun x => { x with state := if q = 6 then .running else .queued }).kick k

/-- Answers a service call (R424, R425): the recorded results of the request ID, or the effect and its results, which the
outcome record keeps. -/
def answerSvc (s : State) (sup k l core : Nat) (e : MboxEntry) (quad : List Word) : State :=
  let w := fun (i : Nat) => getAt 0 e.words i
  let rq := DWord.ofPair (w 9) (w 8)
  let t := s.team k
  let old := (s.ctx t.ctx).outcomes.find? fun p => p.1 == rq
  let r : State × List Word :=
    match old with
    | some p => (s, p.2)
    | none =>
      let r := serviceEffect s (s.team sup) t core (w 10).toNat (e.words.drop 12) quad
      (r.1.modCtx t.ctx fun c => { c with outcomes := c.outcomes ++ [(rq, r.2)] }, r.2)
  let s1 := r.1
  let res := r.2
  match (s1.thread k l).wait with
  | some (.svc d (some tk)) =>
    if tk = e.ticket then s1.modThread k l fun th => { th.setVs d (res.take 4) with wait := none } else s1
  | _ => s1

/-- Removes an entry from a mailbox. -/
def dropEntry (s : State) (core ticket : Nat) : State :=
  s.modCore core fun c => { c with mailbox := c.mailbox.filter fun e => e.ticket != ticket }

/-- The context that an entry is about: that of the team it is for, which for a section of another device's sender is none of
this device's (R384). -/
def entryCtx (s : State) (e : MboxEntry) : Nat :=
  let word := (getAt 0 e.words 1).toNat / 256 % 256
  match e.src with
  | .threads k | .access k | .svc k _ => ((aget s.teams k).map fun t => t.ctx).getD word
  | _ => word

/-- The entry of a ticket is a service call whose answer has to wait. -/
def disposeWaits (s : State) (sup core ticket disp : Nat) : Bool :=
  match (s.core core).mailbox.find? fun e => e.ticket == ticket with
  | none => false
  | some e =>
    match e.src, disp with
    | .svc k _, 0 =>
      let t := s.team k
      let rq := DWord.ofPair (getAt 0 e.words 9) (getAt 0 e.words 8)
      !((s.ctx t.ctx).outcomes.any fun p => p.1 == rq) &&
        serviceWaits s (s.team sup) t (getAt 0 e.words 10).toNat (e.words.drop 12)
    | _, _ => false

/-- Disposes of an entry: the status of MBOX.PUT and the state after (R426). -/
def dispose (s : State) (sup core ticket disp : Nat) (quad : List Word) : Nat × State :=
  match (s.core core).mailbox.find? fun e => e.ticket == ticket with
  | none => (1, s)
  | some e =>
    let s1 := dropEntry s core ticket
    let w1 := (getAt 0 e.words 1).toNat
    let kill := (0, killContext s1 (entryCtx s e) core)
    match e.src, disp with
    | .notice, 0 => (0, s1)
    | .notice, _ => (2, s)
    | .svc k l, 0 => (0, answerSvc s1 sup k l core e quad)
    | .svc _ _, 2 => kill
    | .svc _ _, _ => (2, s)
    | .threads k, 0 => (0, answerThreads s1 k e false)
    | .threads k, 1 => if w1 % 256 = Cause.dirtyLogFull.code then (2, s) else (0, answerThreads s1 k e true)
    | .access k, 0 => (0, answerAccess s1 k false)
    | .access k, 1 => if w1 % 256 = Cause.dirtyLogFull.code then (2, s) else (0, answerAccess s1 k true)
    | .engine k o, 0 => (0, answerEngine s1 k o false)
    | .engine k o, 1 => (0, answerEngine s1 k o true)
    | .stream k q l, 0 => (0, resumeStream s1 k q l false)
    | .stream k q l, 1 => (0, resumeStream s1 k q l true)
    | .agent _, 0 => (0, s1)
    | .agent c, 1 =>
      (0, s1.modCtx c fun x => { x with passed := x.passed ++ [DWord.ofPair (getAt 0 e.words 3) (getAt 0 e.words 2)] })
    | _, _ => kill

/-- One lane of MBOX.PUT: its ticket and result quad, and the disposal (R426). -/
def mboxPutLane (x : XOps) (s : State) (L : LCtx) (th : Thread) : Except AccStop (List Word × Thread × State) :=
  let f := ofX x
  match (do
      let a ← srcA L .int .w32 f
      let q ← srcCs L 4 f
      return (a.lo, q) : LaneM (Word × List Word)) th with
  | .error e => .error e
  | .ok ((tk, q), th) =>
    if disposeWaits s L.k L.team.core tk.toNat x.b.bits then .error .hold
    else
    let r := dispose s L.k L.team.core tk.toNat x.b.bits q
    .ok ([BitVec.ofNat 32 r.1], th, r.2)

/-- MBOX.PUT (R426). -/
def execMboxPut (x : XOps) (s : State) : Host.Outcome State Fault Refusal :=
  effectOp s (.mboxPut x) (ofX x) (fun _ => none) (mboxPutLane x)

/-- The oldest untaken entry of a core's mailbox. -/
def untaken (c : CoreS) : Option MboxEntry := c.mailbox.find? fun e => !e.taken

/-- MBOX.TAKE (R426): issued once for the group, which waits for an untaken entry. -/
def execMboxTake (x : XOps) (s : State) : Host.Outcome State Fault Refusal :=
  let f := ofX x
  let i : Instr := .mboxTake x
  let sh := i.shape
  match prologue s f (fun st => opChecks st sh f) false (srcRegs sh.a f.a ++ dstRegs false sh.d f.dst) false with
  | .error o => o
  | .ok g =>
    match g.await s with
    | some o => o
    | none =>
      match g.e with
      | [] => next (finishNext s g)
      | m :: _ =>
        match srcA (g.lctx s m) .int .w64 f (g.thread s m) with
        | .error .hold => waitLanes s g [m]
        | .error (.trap c v keep) =>
          next (finishNext (trapLanes s g.k g.idx g.run.acc (g.e.map fun l =>
            (l, ({ cause := c, tval := v, tpc := g.here } : TrapRec), keep))) g)
        | .ok (a, th) =>
          if a.toNat % 64 != 0 then
            next (finishNext (trapLanes s g.k g.idx g.run.acc (g.e.map fun l => trapAt g l .misalignedAccess a)) g)
          else
            let s1 := setThreads s g.k g.run.acc (g.e.map fun l => (l, (if l = m then th else g.thread s l).noting g.here (g.thread s l)))
            next (startWaits { s1 with serial := s.serial + 1 } g fun _ => some (.mbox s.serial x.dst.toNat a))

/-- Ends the MBOX.TAKE of one issue group: the entry is stored and its ticket written. -/
def wakeMbox (s : State) (k id dst : Nat) (a : DWord) : State :=
  let t := s.team k
  match untaken (s.core t.core) with
  | none => s
  | some e =>
    let ls := (List.range t.threads.length).filter fun l => (t.thread l).wait == some (.mbox id dst a)
    match writeVirtual k t (some t.agent) (chunks 3 a.toNat 64) (bytesOfWords e.words) s with
    | .wait _ => s
    | .trap c v => ls.foldl (fun s l => trapWait s k l c v) s
    | .ok _ _ s1 =>
      let s2 := s1.modCore t.core fun c => { c with mailbox := c.mailbox.map fun x => if x.ticket = e.ticket then { x with taken := true } else x }
      ls.foldl (fun s l => s.modThread k l fun th => { th.setV dst (BitVec.ofNat 32 e.ticket) with wait := none }) s2

/-- HALT (R426). -/
def execHalt (x : XOps) (s : State) : Host.Outcome State Fault Refusal :=
  match prologue s (ofX x) (fun _ => none) false [] false with
  | .error o => o
  | .ok g =>
    match g.await s with
    | some o => o
    | none => next (startWaits s g fun _ => some .halted)

/-- The device controller wakes a core's supervisor team (R426). -/
def wakeCore (s : State) (core : Nat) : State :=
  { s with
    teams := s.teams.map fun kt =>
      if kt.2.kind == .supervisor && kt.2.core == core then
        (kt.1, { kt.2 with threads := kt.2.threads.map fun th => if th.wait == some .halted then { th with wait := none } else th })
      else kt }

/-- PAGE_REQUEST_RESPONSE (R98): the host's answer to the page request for a mailbox entry is at hand, and the device
controller wakes the core, whose supervisor team replays the access or passes the cause on by MBOX.PUT. -/
def execPageRequestResponse (core ticket : Nat) (ok : Bool) (s : State) : Host.Outcome State Fault Refusal :=
  next (wakeCore (s.modCore core fun c => { c with pageAnswers := c.pageAnswers ++ [(ticket, ok)] }) core)

end Sys2Proof.Machine
end

