-- ==== Sys2Proof/Machine/Switch.lean ====
section
/-! DEFINITION. The context switch (R427 to R429, R408): CTX.SAVE and CTX.LOAD.  The bytes of an image have no layout in
the specification: they are free values, and what the image holds stays in the records of the saved teams and crews
(log 19). -/

namespace Sys2Proof.Machine

/-- A byte of an image: a free value (log 5, log 19). -/
def imgByte (seed i : Nat) : Byte := BitVec.ofNat 8 (Config.freeNat 23 (seed + i))

def imgBytes (seed n : Nat) : List Byte := (List.range n).map (imgByte seed)

/-- The teams of a context on a core (R428). -/
def ctxTeams (s : State) (core c : Nat) : List Nat :=
  (s.teams.filter fun kt => kt.2.kind == .user && kt.2.resident && kt.2.core == core && kt.2.ctx == c).map (·.1)

/-- A team has reached a point at which it can be saved: no run, no store on its way, no load without its value (R427). -/
def teamStopped (s : State) (k : Nat) : Bool :=
  let t := s.team k
  !(s.runs.any fun r => r.team == k) && (t.storeq.all fun e => heldStore t e) &&
    t.threads.all fun th => th.ops.all fun o => !fixesValue o

/-- A granule of a partition holds a DRAM address (R428). -/
def inGranules (p : Part) (pa : Nat) : Bool := regionOf pa == some .dram && p.units.granules.contains (pa / 2 ^ 30)

/-- The physical pages of a save area, translated for the supervisor team; a page that its core cannot reach traps (R17). -/
def areaPages (t : Team) (kind : AccKind) : Nat → DWord → State → Except AccStop (List Nat × State)
  | 0, _, s => .ok ([], s)
  | n + 1, a, s =>
    match s.xlateTeam t kind a with
    | .error none => .error .hold
    | .error (some c) => .error (.trap c a .nothing)
    | .ok (xl, s1) =>
      match s1.unreachable t.die xl.ty xl.pa with
      | some d => .error (.trap .fabricUnreachable (unreachableTval xl.ty d a) .nothing)
      | none =>
      match areaPages t kind n (a + 4096) s1 with
      | .error e => .error e
      | .ok (ps, s2) => .ok (xl.pa :: ps, s2)

/-- A saved thread: it stands at its waiting instruction, and its monitor is idle (R204, R427); a section, a service call and
a wait for a future or a phase stay (R380, R425). A sleep stays until the restore, which tells whether it has expired meanwhile. -/
def saveThread (th : Thread) : Thread :=
  let keep :=
    match th.wait with
    | none | some (.sleep _) => true
    | some w => !w.yields
  { (if keep then th else th.leaveWait) with monitor := .idle }

/-- A restored thread (R366, R427): one whose sleep has expired while it was saved is ready after its SLEEP, and any other
executes its SLEEP again. -/
def restoreThread (now : Nat) (th : Thread) : Thread :=
  match th.wait with
  | some (.sleep till) => if till ≤ now then { th with wait := none } else th.leaveWait
  | _ => th

/-- Takes a crew off its core: its banks, its resident set and its scoreboard entries go into its record. -/
def saveCrew (s : State) (core c : Nat) : State :=
  let v := s.core core
  let mine := v.banks.filter fun b => b.2.owner == some c
  let s1 := s.setCore core
    { v with
      banks := v.banks.filter fun b => b.2.owner != some c
      resident := if (v.resident.map fun x => x.crew) == some c then none else v.resident
      score := v.score.filter fun e => e.crew != c }
  s1.modCrew c fun x =>
    { x with
      savedBanks := mine, savedResident := if (v.resident.map fun y => y.crew) == some c then v.resident else x.savedResident
      savedScore := v.score.filter fun e => e.crew == c }

/-- Takes a team off its core: its running engine operations stand at their next step (R218, R328). -/
def saveTeam (s : State) (core k : Nat) : State :=
  let s0 := (List.range (s.team k).threads.length).foldl (fun s l => withdrawWait s k l) s
  let s1 := s0.modTeam k fun t =>
    { t with
      resident := false, threads := t.threads.map saveThread
      acc := t.acc.map fun a => { a with th := saveThread a.th }
      engq := t.engq.map fun q => { q with ops := q.ops.map fun o => if o.state == .running && !o.qs.contains 5 && !o.qs.contains 6 then { o with state := .preempted } else o } }
  s1.modCore core fun c =>
    { c with
      engines := c.engines.filter fun e => e.2.1 != k, mxRunning := if c.mxRunning == some k then none else c.mxRunning
      bankWaiters := c.bankWaiters.filter fun b => b.team != k }

/-- What may take the room that a save has left. -/
def roomFreed (s : State) (core part : Nat) : State :=
  (((((s.pushOnce (.placeClusterGroup part)).pushOnce (.phaseResume part)).pushOnce (.copyEngineTake core 0)).pushOnce
    (.copyEngineTake core 1)).pushOnce (.matrixEngineSelect core)).pushOnce (.accBankGrant core)

/-- CTX.SAVE for one thread of the supervisor team, once the teams have stopped: the status word and the state after. -/
def ctxSaveOne (s : State) (sup : Team) (k c : Nat) (a len : DWord) : Except AccStop (Word × State) :=
  let core := sup.core
  if 256 ≤ c || a.toNat % 4096 != 0 then .ok (3, s)
  else
    let ks := ctxTeams s core c
    let part := (s.team (ks.head?.getD 0)).part
    if ks.isEmpty then .ok (1, s)
    else
      let (x, s0) := s.free 22
      let need := x + 1
      if len.toNat < need * 4096 then .ok (BitVec.ofNat 32 (need * 256 + 2), s0)
      else
        match areaPages sup .store need a s0 with
        | .error e => .error e
        | .ok (ps, s1) =>
          if !ps.all (inGranules (s.part part)) then .ok (3, s)
          else
            let n := need * 4096
            let seed := s1.freeCtr
            match writeVirtual k sup none (chunks (n / 128 + 1) a.toNat n) (imgBytes seed n) s1 with
            | .wait _ => .error .hold
            | .trap e v => .error (.trap e v .nothing)
            | .ok _ _ s2 =>
              let crews := (ks.filterMap fun k => (s.team k).crew).eraseDups
              let img : SavedImg := { core := core, pages := ps, seed := seed, teams := ks, crews := crews, debug := s.debugOf sup.core c }
              let s3 := ({ s2 with freeCtr := s2.freeCtr + n } : State).modCtx c fun v =>
                { v with saved := v.saved ++ [img], debug := adel v.debug core }
              let s4 := crews.foldl (fun s cr => saveCrew s core cr) s3
              .ok (0, noteUrgent (roomFreed (ks.foldl (fun s k => saveTeam s core k) s4) core part) c)

/-- Context number, area and length of a thread of the supervisor team. -/
def ctxOperands (x : XOps) (L : LCtx) : LaneM (Nat × DWord × DWord) := do
  let f := ofX x
  let c ← srcA L .int .w32 f
  let a ← srcB L .int .w64 f
  let n ← srcC L .int .w64 f
  return (c.lo.toNat, a, n)

/-- One lane of CTX.SAVE, once the teams have stopped (R428). -/
def ctxSaveLane (x : XOps) (s : State) (L : LCtx) (th : Thread) : Except AccStop (List Word × Thread × State) :=
  match ctxOperands x L th with
  | .error e => .error e
  | .ok ((c, a, n), th) =>
    match ctxSaveOne s L.team L.k c a n with
    | .error e => .error e
    | .ok (w, s1) => .ok ([w], th, s1)

/-- The contexts that the lanes of a group name. -/
def ctxsNamed (x : XOps) (s : State) (g : Grp) : List Nat :=
  g.e.filterMap fun l =>
    match ctxOperands x (g.lctx s l) (g.thread s l) with
    | .ok ((c, _, _), _) => some c
    | .error _ => none

/-- CTX.SAVE (R427, R428): it stops the teams of the context on its core and holds the pipe until they have stopped. -/
def execCtxSave (x : XOps) (s : State) : Host.Outcome State Fault Refusal :=
  let i : Instr := .ctxSave x
  let f := ofX x
  let sh := i.shape
  match prologue s f (fun st => opChecks st sh f) false (srcRegs sh.a f.a ++ srcRegs sh.b f.b ++ srcRegs sh.c f.c ++ dstRegs false sh.d f.dst) false with
  | .error o => o
  | .ok g =>
    let core := (s.team g.k).core
    let cs := ctxsNamed x s g
    if !(cs.all fun c => (s.core core).saving.contains c) then
      next (s.modCore core fun v => { v with saving := cs })
    else if cs.any fun c => (ctxTeams s core c).any fun k => !teamStopped s k then next s
    else
      match effectOp s i f (fun _ => none) (ctxSaveLane x) with
      | .next s1 => if s1.runs == s.runs then .next s1 else .next (s1.modCore core fun v => { v with saving := [] })
      | o => o

/-! ### CTX.LOAD -/

/-- Places for the grants of an image's crews beside those of a core (R134, R428). -/
def placesFor (s : State) : List Nat → List (Nat × Nat) → Option (List (Nat × Nat))
  | [], _ => some []
  | c :: cs, used =>
    match grantPlace used (s.crew c).grant with
    | none => none
    | some b => (placesFor s cs ((b, (s.crew c).grant) :: used)).map fun r => (c, b) :: r

def loadPlaces (s : State) (core : Nat) (img : SavedImg) : Option (List (Nat × Nat)) := placesFor s img.crews (grantsOn s core)

/-- The slots, rows, scratchpad and banks that an image needs are free (R428). -/
def loadFits (s : State) (core : Nat) (img : SavedImg) : Bool :=
  let ts := slotTeams s core
  let here := (s.teams.filter fun kt => kt.2.kind == .user && kt.2.resident && kt.2.core == core).map fun kt => kt.2.slot
  (img.teams.all fun k => !here.contains (s.team k).slot) &&
    decide ((ts.foldl (fun n t => n + t.alloc) 0) +
      ((img.teams.filter fun k => (s.team k).slot < 62).foldl (fun n k => n + (s.team k).alloc) 0) ≤ Config.rows) &&
    (loadPlaces s core img).isSome &&
    img.crews.all fun c => (s.crew c).savedBanks.all fun b =>
      match aget (s.core core).banks b.1 with
      | some x => x.owner.isNone && !x.freeing
      | none => true

/-- Puts a crew back onto its core. Its resident set stays with it until its next operation with BSRC = 0 begins: another
crew's set is not displaced by the load (R325). -/
def loadCrew (s : State) (core c base : Nat) : State :=
  let x := s.crew c
  let s1 := s.modCore core fun v =>
    { v with
      banks := x.savedBanks.foldl (fun bs b => aset bs b.1 b.2) v.banks
      score := v.score ++ x.savedScore, ro := [] }
  s1.modCrew c fun x => { x with base := base, savedBanks := [], savedScore := [] }

/-- The context is bound again to its record (R94, R96): `none` where the record is refused. -/
def rebind (s : State) (c part : Nat) : Option State :=
  match (s.ctx c).recAddr with
  | some a => if xrecRefused s part a then none else some (s.modCtx c fun v => { v with xrec := some (readXrec s a) })
  | none =>
    match (s.ctx c).xrec with
    | some x => if s.bindingOk x then some s else none
    | none => some s

/-- The restored teams have yet to run, and the flare entry of a handler team among them comes before any run of the others
(R408). -/
def residencyPoint (s : State) (c : Nat) (ks : List Nat) : State :=
  let s0 := ks.foldl (fun s k => s.modTeam k fun t => { t with fresh := true, restoredWith := none }) s
  match (s.ctx c).flareTeam with
  | none => s0
  | some h =>
    if !ks.contains h then s0
    else
      boundary (noteUrgent (ks.foldl (fun s k =>
        if k = h then s else s.modTeam k fun t => { t with restoredWith := some h }) s0) c) h

/-- The bytes of a page, with every line of it out of update-only mode (R131). -/
def pageBytes (s : State) (p : Nat) : List Byte :=
  ((List.range 32).foldl (fun (s : State) j => s.endUmode (p + 128 * j)) s).mem.read p 4096

/-- The saved image that an area holds (R428): the last one whose first page stands there, wherever it was saved, or else the
last one saved there, whose first page has been changed. -/
def findImage (s : State) (core c p : Nat) : Option SavedImg :=
  let mine := ((s.ctx c).saved.filter fun i => i.core == core).reverse
  match mine.find? fun i => pageBytes s p == imgBytes i.seed 4096 with
  | some i => some i
  | none => mine.find? fun i => i.pages.head? == some p

/-- The translation-record address in the image of a context without teams that an area's first page may hold: whether its
bytes are such an image, and what they name, is free, since the layout of an image is not given (R429, log 19). -/
def bareImage (s : State) (core c p : Nat) : Option Nat :=
  let n := leNat (pageBytes s p)
  if Config.freeNat 31 n % 2 == 1 && Config.freeNat 32 n == c && Config.freeNat 33 n == core then some (Config.freeNat 34 n)
  else none

/-- The debug control in the header of such an image: free, since its layout is not given (R429, log 19). -/
def bareDebug (n : Nat) : Debug :=
  { step := Config.freeNat 35 n % 2 == 1
    watch := (List.range (Config.freeNat 36 n % 5)).map fun i => (Config.freeNat 37 (4 * n + i), Config.freeNat 38 (4 * n + i)) }

/-- CTX.LOAD of an area in which CTX.SAVE has left no image: the binding of a record to a context without teams on the
core (R94, log 22), or status 1. -/
def loadBare (s : State) (core c p : Nat) : Word × State :=
  match bareImage s core c p with
  | none => (1, s)
  | some a =>
    if (List.range 32).any fun j => (s.memError (p + 128 * j) 128).isSome then (2, s)
    else if xrecRefused s ((s.ctx c).part.getD 0) a then (4, s)
    else (0, s.modCtx c fun v =>
      { v with recAddr := some a, xrec := some (readXrec s a), debug := aset v.debug core (bareDebug (leNat (pageBytes s p))) })

/-- CTX.LOAD for one thread of the supervisor team: the status word and the state after. -/
def ctxLoadOne (s : State) (sup : Team) (c : Nat) (a len : DWord) : Except AccStop (Word × State) :=
  let core := sup.core
  if 256 ≤ c || a.toNat % 4096 != 0 then .ok (1, s)
  else
    match areaPages sup .load 1 a s with
    | .error e => .error e
    | .ok (p, s0) =>
      match findImage s0 core c (p.head?.getD 0) with
      | none => if len.toNat < 4096 then .ok (1, s0) else .ok (loadBare s0 core c (p.head?.getD 0))
      | some img =>
        let need := img.pages.length
        match areaPages sup .load need a s0 with
        | .error e => .error e
        | .ok (ps, s1) =>
          let part := (s1.team (img.teams.head?.getD 0)).part
          let bad := ps.any (fun q => (List.range 32).any fun j => (s1.memError (q + 128 * j) 128).isSome) ||
            (ps.flatMap fun q => pageBytes s1 q) != imgBytes img.seed (need * 4096)
          if decide (len.toNat < need * 4096) || bad then .ok (2, s1)
          else if !loadFits s1 core img then .ok (3, s1)
          else
            match rebind s1 c part with
            | none => .ok (4, s1)
            | some s2 =>
              let s3 := s2.modCtx c fun v =>
                { v with saved := v.saved.filter (· != img), debug := aset v.debug core img.debug }
              let s4 := ((loadPlaces s3 core img).getD []).foldl (fun s cb => loadCrew s core cb.1 cb.2) s3
              let s5 := img.teams.foldl (fun s k =>
                (deadlineReached (s.modTeam k fun t =>
                  { t with
                    resident := true, threads := t.threads.map (restoreThread s.cycles.toNat)
                    acc := t.acc.map fun a => { a with th := restoreThread s.cycles.toNat a.th } }) k).kick k) s4
              .ok (0, residencyPoint s5 c img.teams)

/-- One lane of CTX.LOAD (R428). -/
def ctxLoadLane (x : XOps) (s : State) (L : LCtx) (th : Thread) : Except AccStop (List Word × Thread × State) :=
  match ctxOperands x L th with
  | .error e => .error e
  | .ok ((c, a, n), th) =>
    match ctxLoadOne s L.team c a n with
    | .error e => .error e
    | .ok (w, s1) => .ok ([w], th, s1)

/-- CTX.LOAD (R428, R408). -/
def execCtxLoad (x : XOps) (s : State) : Host.Outcome State Fault Refusal :=
  effectOp s (.ctxLoad x) (ofX x) (fun _ => none) (ctxLoadLane x)

end Sys2Proof.Machine
end

