-- ==== Sys2Proof/Machine/Host.lean ====
section
/-! DEFINITION. The device outside its cores (R16, R17, R23, R24, R120, R430 to R438, R453 to R456): host windows and the
management mailbox, partitions, handover, host and peer accesses, die-to-die and Meridian links, attestation, start-up,
counters and power. -/

namespace Sys2Proof.Machine

def State.modDev (s : State) (f : Dev → Dev) : State := { s with dev := f s.dev }

/-! ### Windows and registers (R349, R404, R431, R438, R454) -/

/-- Sets SQBASE: it has no effect while ENABLE is 1 (R349). -/
def setSqbase (s : State) (vf : Nat) (v : DWord) : State :=
  s.modCtx vf fun c => if c.sqEnable then c else { c with sqbase := v / 4096 * 4096 }

/-- A write to BAR0 of a virtual function (R431). -/
def barWrite (s : State) (vf off size : Nat) (v : DWord) : State :=
  if 256 ≤ vf || !s.dev.started || s.dev.minimal then s
  else if off = 0 && size = 8 then setSqbase s vf v
  else if off = 8 && size = 4 then queueControl s vf v.lo
  else if off = 16 && size = 4 then doorbell s vf v.lo
  else if 0x400 ≤ off && off < 0x800 then flareWindow s vf (off - 0x400) size v
  else s

/-- REGISTER_WRITE (R349, R431): SQBASE, or an offset whose writes are ignored. -/
def execRegisterWrite (vf off size : Nat) (v : DWord) (s : State) : Host.Outcome State Fault Refusal :=
  next (barWrite s vf off size v)

/-- The 32-bit word that a host reads at an offset of BAR0 of a virtual function (R349, R404, R431): RAISE and what is not
listed read 0; what a read of the write-only SQTAIL returns is a free value (log 125). -/
def barWord (s : State) (vf off : Nat) : Word :=
  let c := s.ctx vf
  if off = 0 then c.sqbase.lo
  else if off = 4 then c.sqbase.hi
  else if off = 8 then
    BitVec.ofNat 32 ((if c.sqEnable then 2 ^ 31 else 0) + (if c.sqErr then 2 ^ 30 else 0) + c.sqLog2n % 16)
  else if off = 16 then BitVec.ofNat 32 (Config.freeNat 61 (256 * s.tick + vf))
  else if off = 20 then c.sqhead
  else if off = 0x600 then c.denied
  else 0

/-- MNUM (R438). -/
def mnumReg (s : State) : Word := BitVec.ofNat 32 (s.mnum.toNat % 512)

/-- MINSTATE (R454). -/
def minstate (s : State) : Word :=
  let n := s.dev.nor
  BitVec.ofNat 32 ((if s.dev.minimal then 2 ^ 31 else 0) + n.fails % 256 * 2 ^ 16 + n.stage % 256 * 2 ^ 8 + n.reason % 256)

/-! ### The management mailbox (R431) -/

/-- A command completes: its status, and the buffer with the first word and what follows it. -/
def answerCmd (s : State) (cmd status reason : Nat) (result : List Byte) : State :=
  s.modDev fun d => { d with mgmt := { cmd := BitVec.ofNat 64 cmd, status := BitVec.ofNat 32 status, buf := leBytes 4 reason ++ result } }

def cmdDone (s : State) (cmd : Nat) : Host.Outcome State Fault Refusal := next (answerCmd s cmd 0 0 [])

/-- A refused command: reason 62 for a request that breaks a rule of the device, otherwise 0. -/
def cmdRefused (s : State) (cmd : Nat) (rule : Bool) : Host.Outcome State Fault Refusal :=
  next (answerCmd s cmd 1 (if rule then Cause.resourceReject.code else 0) [])

/-- Runs a command: nothing happens before the device has started, and minimal mode accepts CMD 6 and CMD 7 alone
(R454). -/
def command (s : State) (cmd : Nat) (act : State → Host.Outcome State Fault Refusal) : Host.Outcome State Fault Refusal :=
  if !s.dev.started then next s
  else if s.dev.minimal && cmd != 6 && cmd != 7 then cmdRefused s cmd false
  else act s

/-- CMD_UNKNOWN (R431). -/
def execCmdUnknown (code : DWord) (s : State) : Host.Outcome State Fault Refusal :=
  if !s.dev.started then next s else next (answerCmd s code.toNat 2 0 [])

/-- A command of the management mailbox. -/
def isCommand : Ev → Bool
  | .cmdAssignPartition _ | .cmdBindFunction _ _ _ | .cmdSetMeridianNumber _ | .cmdQueuePair _ | .cmdAdopt _ _ | .cmdReadCounters
  | .cmdWriteFirmware _ | .cmdReadHandover | .cmdUnknown _ => true
  | _ => false

/-- STATUS (R431): bit 31 is 1 while a command that has been written stands before its completion. -/
def mgmtStatus (s : State) : Word :=
  (s.dev.mgmt.status &&& 0xFF) ||| (if s.flight.any isCommand then 0x80000000 else 0)

/-- The 32-bit word that a host reads at an offset of BAR0 of the management physical function (R431): CMD, STATUS and the
message buffer. -/
def mgmtWord (s : State) (off : Nat) : Word :=
  let m := s.dev.mgmt
  if off = 0 then m.cmd.lo
  else if off = 4 then m.cmd.hi
  else if off = 8 then mgmtStatus s
  else if 0x1000 ≤ off && off < 0x2000 then BitVec.ofNat 32 (leNat ((List.range 4).map fun i => getAt 0 m.buf (off - 0x1000 + i)))
  else 0

/-! ### CMD 1: partition units (R23, R24, R120, R139, R433, R434) -/

def unionNats (a b : List Nat) : List Nat := (a ++ b).eraseDups
def minusNats (a b : List Nat) : List Nat := a.filter fun x => !b.contains x

def noUnits (u : Units) : Bool := u.coreUnits.isEmpty && u.lodestars.isEmpty && u.granules.isEmpty && u.bankUnits.isEmpty

def unitsAdd (a b : Units) : Units :=
  { coreUnits := unionNats a.coreUnits b.coreUnits, lodestars := unionNats a.lodestars b.lodestars
    granules := unionNats a.granules b.granules, bankUnits := unionNats a.bankUnits b.bankUnits }

def unitsSub (a b : Units) : Units :=
  { coreUnits := minusNats a.coreUnits b.coreUnits, lodestars := minusNats a.lodestars b.lodestars
    granules := minusNats a.granules b.granules, bankUnits := minusNats a.bankUnits b.bankUnits }

/-- Every unit has a number that exists. -/
def unitsExist (u : Units) : Bool :=
  u.coreUnits.all (· < 80) && u.lodestars.all (· < 64) && u.granules.all (· < 512) && u.bankUnits.all (· < 32)

/-- Two sets of units share one. -/
def unitsMeet (a b : Units) : Bool :=
  a.coreUnits.any b.coreUnits.contains || a.lodestars.any b.lodestars.contains || a.granules.any b.granules.contains ||
    a.bankUnits.any b.bankUnits.contains

/-- The Lodestar units of a partition stand as R24 says. -/
def lodestarsOk (l : List Nat) : Bool :=
  let dies := (l.map fun u => u / 16).eraseDups
  if 4 ≤ l.length then dies.length == 4 else dies.length == l.length

/-- A partition's units meet R23 and R24. -/
def unitsOk (u : Units) : Bool :=
  !u.coreUnits.isEmpty && !u.lodestars.isEmpty && !u.granules.isEmpty && lodestarsOk u.lodestars

/-- A function bound to a partition is in CONFIG_LOCKED or RUN (R435). -/
def partHeld (s : State) (p : Nat) : Bool := s.ctxs.any fun c => c.2.part == some p && tdiHeld c.2

/-- The memory without the bytes of a range: they read 0. -/
def Mem.zero (m : Mem) (lo n : Nat) : Mem := m.filter fun c => c.1 < lo || lo + n ≤ c.1

/-- Fills a range with zeros: no line of it has a mark, an error or a copy (R120, R139). -/
def zeroRange (s : State) (lo n : Nat) : State :=
  let out := fun (ln : Nat) => decide (128 * ln < lo) || decide (lo + n ≤ 128 * ln)
  { s with
    upsets := s.upsets.filter fun u => out u.1, lineSeals := s.lineSeals.filter fun u => out u.1
    bankUpsets := s.bankUpsets.filter fun u => decide (8 * u < lo) || decide (lo + n ≤ 8 * u)
    l2 := s.l2.filter fun x => out x.line
    mem := s.mem.zero lo n, poison := s.poison.filter out, integrity := s.integrity.filter out
    bankPoison := s.bankPoison.filter fun u => decide (8 * u < lo) || decide (lo + n ≤ 8 * u)
    hold := s.hold.filter fun h => out h.line, dir := s.dir.filter fun d => out d.1
    ucopies := s.ucopies.filter fun u => out u.line, swm := s.swm.filter fun c => out c.line }

def granuleBase (g : Nat) : Nat := g * 2 ^ 30

/-- First byte of a bank-memory unit (R23, R88). -/
def bankUnitBase (u : Nat) : Nat := 0x8000000000 + u / 8 * 2 ^ 26 + u % 8 * 2 ^ 23

/-- A granule is written with zeros under a key (R120). -/
def zeroGranule (s : State) (key g : Nat) : State :=
  { zeroRange s (granuleBase g) (2 ^ 30) with sealed := aset s.sealed g key }

/-- Units that come to a partition are filled with zeros, memory granules under its key (R120, R139). -/
def zeroUnits (s : State) (key : Nat) (u : Units) : State :=
  u.bankUnits.foldl (fun s b => zeroRange s (bankUnitBase b) (2 ^ 23)) (u.granules.foldl (fun s g => zeroGranule s key g) s)

/-- Lines of granules that leave a partition leave the L2, written under its key (R118, R121; log 110). -/
def flushGranules (s : State) (gs : List Nat) : State :=
  (s.l2.filter fun x => gs.contains (granuleOf x.line)).foldl (fun s x =>
    if x.own then s.l2Evict x else s.awayDrop fun y => y == x) s

/-- Ports in bank units that leave a partition are ports no more (R397). -/
def dropPorts (p : Part) (u : Units) : Part :=
  { p with ports := p.ports.filter fun w => !u.bankUnits.any fun b => decide (bankUnitBase b ≤ w) && decide (w < bankUnitBase b + 2 ^ 23) }

/-- A partition is gone: its key, its tables and its views with it; the contexts bound to it are killed (log 20). -/
def releasePart (s : State) (p : Nat) : State :=
  let mine := (s.ctxs.filter fun c => c.2.part == some p).map (·.1)
  let s1 := mine.foldl (fun s c => (killContext s c 0).modCtx c fun x => { x with part := none }) s
  { flushGranules s1 (s.part p).units.granules with parts := adel s1.parts p, views := s1.views.filter fun v => v.part != p }

/-- CMD_ASSIGN_PARTITION (R23, R24, R376, R431, R433): units come to a partition or leave it; its Lodestar units and its
lock table do not change while it stands. -/
def execCmdAssignPartition (a : AssignCmd) (s : State) : Host.Outcome State Fault Refusal :=
  command s 1 fun s =>
    let old := s.part a.part
    let u := if a.release then unitsSub old.units a.units else unitsAdd old.units a.units
    let others := s.parts.filter fun p => p.1 != a.part
    let locks := u.lodestars != old.units.lodestars || (!a.release && a.lockTable != old.lockTable)
    let stands := (aget s.parts a.part).isSome && !(a.release && noUnits u)
    if 20 ≤ a.part || !unitsExist a.units || (!a.release && a.units.granules.any s.dev.own.contains) || (!a.release && others.any fun p => unitsMeet p.2.units a.units) ||
        !(unitsOk u || (a.release && noUnits u)) || ((stands || partHeld s a.part) && locks) then cmdRefused s 1 true
    else if a.release then
      if noUnits u then next (answerCmd (releasePart s a.part) 1 0 0 [])
      else next (answerCmd ((flushGranules s a.units.granules).modPart a.part fun p => { dropPorts p a.units with units := u }) 1 0 0 [])
    else
      let key := if (aget s.parts a.part).isSome then old.key else 20 * s.serial + a.part + 1
      let s1 := zeroUnits { s with serial := s.serial + 1 } key (unitsSub a.units old.units)
      let s2 := s1.modPart a.part fun p =>
        { p with
          key := key, units := u, conf := if (aget s.parts a.part).isSome then p.conf else a.conf, lockTable := a.lockTable, windows := a.windows }
      next (answerCmd (s2.pushOnce (.placeClusterGroup a.part)) 1 0 0 [])

/-! ### CMD 2, 3, 5 to 8 -/

/-- A function whose record translates through the host's tables comes to a confidential partition (R433). -/
def hosttabRefused (s : State) (vf part : Nat) : Bool := part != 31 && (s.part part).conf && (s.ctx vf).xrec.any fun x => x.hosttab

/-- CMD_BIND_FUNCTION (R399, R431, R433, R435): partition 31 leaves the function unbound. -/
def execCmdBindFunction (vf part ld : Nat) (s : State) : Host.Outcome State Fault Refusal :=
  command s 2 fun s =>
    if tdiHeld (s.ctx vf) || hosttabRefused s vf part then cmdRefused s 2 true
    else if 256 ≤ vf || 16 ≤ ld || (part != 31 && (aget s.parts part).isNone) then cmdRefused s 2 false
    else
      let s1 := s.modCtx vf fun c => { c with part := if part = 31 then none else some part, ld := ld }
      next (answerCmd (clearFlares s1 vf) 2 0 0 [])

/-- The devices that a route over an up port leads to. -/
def reachable (s : State) : List Nat :=
  (List.range 320).filter fun d => d != s.mnum.toNat && !(s.pathsTo d).isEmpty

/-- CMD_SET_MERIDIAN_NUMBER (R438): Meridian traffic flows from then on. -/
def execCmdSetMeridianNumber (n : Nat) (s : State) : Host.Outcome State Fault Refusal :=
  command s 3 fun s =>
    if 320 ≤ n then cmdRefused s 3 false
    else
      let s1 := { s with mnum := BitVec.ofNat 32 n }
      next (answerCmd { s1 with peers := reachable s1 } 3 0 0 [])

/-- CMD_ADOPT (R432). -/
def execCmdAdopt (lds : List Nat) (head : Nat) (s : State) : Host.Outcome State Fault Refusal :=
  command s 5 fun s =>
    if !s.heads.contains head || lds.any fun l => 16 ≤ l || !(getAt {} s.dev.lds l).orphaned then cmdRefused s 5 false
    else
      next (answerCmd (s.modDev fun d => { d with lds := mapAt (fun i x => if lds.contains i then { head := head, orphaned := false } else x) 0 d.lds })
        5 0 0 [])

/-- The counters as numbers. -/
def Counters.nums (c : Counters) : List Nat :=
  c.temps.flatten ++ [c.excursions] ++ c.soft ++ [c.uncorrectable] ++ c.lanes ++ [c.failedStarts, c.hours]

/-- CMD_READ_COUNTERS (R455): their layout is a free value. -/
def execCmdReadCounters (s : State) : Host.Outcome State Fault Refusal :=
  command s 6 fun s => next (answerCmd s 6 0 0 (Config.freeImage 0 s.dev.counters.nums))

/-- Whether an image carries a signature that holds under the root is a free value: the specification gives neither (R436). -/
def signatureHolds (image : List Byte) : Bool := Config.freeNat 39 (leNat image) % 2 == 1

/-- CMD_WRITE_FIRMWARE (R454). -/
def execCmdWriteFirmware (image : List Byte) (s : State) : Host.Outcome State Fault Refusal :=
  command s 7 fun s =>
    next (answerCmd (s.modDev fun d => { d with nor := { d.nor with firmware := image, signed := signatureHolds image, fails := 0 } }) 7 0 0 [])

/-- The entry of a virtual function in the handover area (R432). -/
def handoverEntry (s : State) (vf : Nat) : List Byte :=
  let c := s.ctx vf
  let w := (if c.sqEnable then 2 ^ 31 else 0) + c.ld % 16 * 2 ^ 8 + (getAt {} s.dev.lds c.ld).head % 2 * 2 ^ 7 + (c.part.getD 31) % 32
  leBytes 8 c.sqbase.toNat ++ leBytes 4 c.sqhead.toNat ++ leBytes 4 c.sqtail.toNat ++ leBytes 4 w ++
    leBytes 4 (s.held.filter fun h => h.1 == vf).length ++ leBytes 8 0

/-- A pending completion (R432): the record, its address and its function; the rest of its 64 bytes is 0. -/
def pendingEntry (h : Nat × DWord × List Byte) : List Byte :=
  let bs := h.2.2 ++ leBytes 8 h.2.1.toNat ++ leBytes 4 h.1
  bs ++ List.replicate (64 - bs.length) 0

/-- The handover area. -/
def handoverArea (s : State) : List Byte :=
  (List.range 256).flatMap (handoverEntry s) ++ s.held.flatMap pendingEntry

/-- CMD_READ_HANDOVER (R432): the pending completions it returns are discarded. -/
def execCmdReadHandover (s : State) : Host.Outcome State Fault Refusal :=
  command s 8 fun s => next { answerCmd s 8 0 0 (handoverArea s) with held := [] }

/-! ### Host links (R430, R432) -/

/-- HOST_LINK_DOWN (R432). -/
def execHostLinkDown (head : Nat) (s : State) : Host.Outcome State Fault Refusal :=
  next { s with
    heads := s.heads.filter (· != head)
    dev := { s.dev with lds := s.dev.lds.map fun l => if l.head = head then { l with orphaned := true } else l } }

/-- Adds to a lifetime counter of a kind of link: 0 die-to-die, 1 Meridian, 2 CXL, 3 Ethernet (R455). -/
def countLink (s : State) (kind n : Nat) : State :=
  s.modDev fun d => { d with counters := { d.counters with lanes := setAt d.counters.lanes kind (getAt 0 d.counters.lanes kind + n) } }

/-- HOST_LINK_TRAINING (R430): only the widths and rates the port has. -/
def execHostLinkTraining (head width rate : Nat) (s : State) : Host.Outcome State Fault Refusal :=
  if 2 ≤ head || !([16, 8, 4].contains width && [128, 64, 32].contains rate) then next s
  else
    let again := (aget s.dev.trained head).isSome
    let s1 := { s with
      heads := if s.heads.contains head then s.heads else s.heads ++ [head]
      dev := { s.dev with trained := aset s.dev.trained head (width, rate) } }
    next (if again then countLink s1 2 1 else s1)

/-! ### Accesses from outside (R433, R438) -/

/-- Bytes that the specification does not give (log 5). -/
def freeBytes (s : State) (n : Nat) : List Byte × State :=
  ((List.range n).map fun i => BitVec.ofNat 8 (Config.freeNat 55 (s.freeCtr + i)), { s with freeCtr := s.freeCtr + n })

/-- A read of this device's memory by a host or a peer, through the agent that makes it: it meets the home copy, and a view
read waits as its policy says (R175, R233, R465); `none` where it waits. What an outside reader receives for bytes whose read
a thread would trap on is free (log 100). -/
def outsideRead (s : State) (ag : AgentId) (pa n : Nat) : Option (List Byte × State) :=
  match s.viewHit pa n, (if physMode pa == .coh then State.takeTokens ag (linesIn pa n) s else (true, s.readBank pa n)) with
  | .wait, _ | _, (false, _) => none
  | .trap _, (true, s1) => some (freeBytes s1 n)
  | _, (true, s1) => some (if (s1.memError pa n).isSome then freeBytes s1 n else (s1.mem.read pa n, s1))

/-- A write from outside waits for stores that go through a page-table line it replaces, and for tokens on their way to
another agent (R102, R125, R183). -/
def outsideBusy (s : State) (ag : AgentId) (pa n : Nat) : Bool :=
  (linesIn pa n).any fun ln => derivesFrom s none [ln] || s.writeBlocked ag (physMode pa) ln

/-- A write of this device's memory by a host or a peer: it is a master write where a view derives from it (R173). -/
def outsideWrite (s : State) (ag : AgentId) (pa : Nat) (bs : List Byte) : State :=
  s.performWrite (some ag) false (physMode pa) true none (wholeBytes pa bs)

/-- The granules of a partition hold the bytes of an access. -/
def accessInside (p : Part) (pa n : Nat) : Bool := inGranules p pa && inGranules p (pa + n - 1)

/-- CXL_MEM_ACCESS (R430, R433), by the host's agent on die 0; one to a die that cannot be reached has no effect and no answer
(R17; log 75). -/
def execCxlMemAccess (a : HostAccess) (s : State) : Host.Outcome State Fault Refusal :=
  let c := s.ctx a.vf
  match c.part with
  | none => next s
  | some k =>
    let p := s.part k
    let n := if a.write then a.bytes.length else a.len
    if n = 0 || s.dev.minimal || !accessInside p a.pa n || !s.heads.contains (getAt {} s.dev.lds c.ld).head || s.cut 0 (dieOfPa a.pa) || s.cut 0 (dieOfPa (a.pa + n - 1)) then next s
    else
      let served := !p.conf || (c.tdi == .run && a.trusted)
      if !served then next (if a.write then s else { s with out := s.out ++ [.host (List.replicate n 0xFF)] })
      else if a.write then
        next (if outsideBusy s (raeOf 0) a.pa n then s.push (.cxlMemAccess a) else outsideWrite s (raeOf 0) a.pa a.bytes)
      else
        match outsideRead s (raeOf 0) a.pa n with
        | none => next (s.push (.cxlMemAccess a))
        | some (bs, s1) => next { s1 with out := s1.out ++ [.host bs] }

/-- The import windows admit an access of a device's partition (R438). -/
def admitted (s : State) (a : PeerAccess) (n : Nat) : Bool :=
  s.parts.any fun p => accessInside p.2 a.pa n && p.2.windows.any fun w =>
    w.device == a.device && w.partition == a.partition && w.granules.contains (a.pa / 2 ^ 30) &&
      w.granules.contains ((a.pa + n - 1) / 2 ^ 30)

/-! ### Loss of a device or a die (R17, R178, R386, R410, R437) -/

/-- Places whose loss leaves a view without an update: its dies and devices. -/
def placesOf (g : Segs) : List Nat := g.map fun x => if regionOf x.1 == some .peer then 4 + peerDevice x.1 else dieOfPa x.1

/-- A view can no longer be updated: a part of it is cut off from another part, or lies on a device that cannot be
reached. -/
def viewLost (s : State) (v : View) : Bool :=
  let ps := placesOf (v.areas ++ v.masterSegs)
  ps.any fun a => if 4 ≤ a then !s.peers.contains (a - 4) else ps.any fun b => decide (b < 4) && s.cut a b

def faultLostViews (s : State) : State :=
  pokeFences { s with views := s.views.map fun v => if viewLost s v then { v with faulted := true } else v }

/-- The end of a request whose home cannot be reached (R386). -/
def lostEnd (n : Nat) : ShipEnd := .faulted (codeWord .fabricUnreachable (BitVec.ofNat 64 n))

/-- Requests to homes on dies that their senders cannot reach complete as faulted: those that wait and the one that
runs. -/
def failLostHomes (s : State) : State :=
  let bad := fun (h : Nat × Home) => (h.2.queue ++ h.2.waiting).filter fun r => homeDead s r
  let gone := s.homes.flatMap bad
  let s1 := { s with
    homes := s.homes.map fun h =>
      (h.1, { h.2 with queue := h.2.queue.filter fun r => !homeDead s r, waiting := h.2.waiting.filter fun r => !homeDead s r }) }
  let s2 := gone.foldl (fun s r => sendResult s { sender := r.sender, result := lostEnd (r.home / 64) }) s1
  (s2.teams.filter fun kt => ((kt.2.sectionReq.map fun r => homeDead s r) == some true) && kt.2.sectionEnd.isNone).foldl (fun s kt =>
    (s.modTeam kt.1 fun t => { t with sectionEnd := some (lostEnd (t.core / 64)) }).push (.sectionStart kt.2.core)) s2

/-- Markers between dies that have lost both paths, and to devices that are lost, arrive no more; a release behind them
finds its lost stores (R17, R161, R186). -/
def dropLostMarkers (s : State) : State :=
  { s with
    markers := s.markers.filter fun m => if 4 ≤ m.2.1 then s.peers.contains (m.2.1 - 4) else !s.cut m.1 m.2.1
    flight := s.flight.filter fun e =>
      match e with
      | .flushMarker a b _ => if 4 ≤ b then s.peers.contains (b - 4) else !s.cut a b
      | _ => true }

/-- The flares in flight to devices that are lost end with status 4 (R410). -/
def failLostFlares (s : State) : State :=
  s.teams.foldl (fun s kt =>
    (mapAt (fun l (th : Thread) => (l, th)) 0 kt.2.threads).foldl (fun s p =>
      p.2.ops.foldl (fun (s : State) (o : TOp) =>
        match o.what with
        | .flare w =>
          match targetDevice s w with
          | some d => if s.peers.contains d then s else s.pushOnce (.flareSendOutcome kt.1 p.1 o.id 4)
          | none => s
        | _ => s) s) s) s

/-- The requests to homes on devices that are lost complete as faulted. -/
def failLostShips (s : State) : State :=
  s.ctxs.foldl (fun s c => c.2.ships.foldl (fun s p =>
    match p.2.2 with
    | some d => if s.peers.contains d then s else sendResult s { sender := p.2.1, result := lostEnd d }
    | none => s) s) s

/-- What follows once paths are lost. -/
def pathsLost (s : State) : State := failLostShips (failLostFlares (dropLostMarkers (failLostHomes (faultLostViews s))))

/-- D2D_LINK_FAILURE (R17): the NEXT link of a die fails; while a path is left every flit is resent over it. -/
def execD2dLinkFailure (die : Nat) (s : State) : Host.Outcome State Fault Refusal :=
  if 4 ≤ die || s.dev.minimal then next s else next (pathsLost { s with links := setAt s.links die false })

/-- The records of both sides, from the NEXT side's: lane i of a NEXT link meets lane 4,095 − i of the neighbour's PREV
link (R15, R16). -/
def D2d.ofNext (l : LinkSide) : D2d :=
  { next := l, prev := { first := 4096 - (l.first + l.count), count := l.count, replaced := l.replaced.map fun i => 4095 - i } }

/-- D2D_LINK_TRAINING (R16): the NEXT link of a die trains; `failed` are its failed lanes in NEXT numbering. DESIGN CHOICE
(log 89): the spares that are left serve the half width too, and a link that cannot train on lanes 0 to 2,047 either has
failed (R17). -/
def execD2dLinkTraining (die : Nat) (failed : List Nat) (s : State) : Host.Outcome State Fault Refusal :=
  if 4 ≤ die || s.dev.minimal then next s
  else
    let low := failed.filter (· < 2048)
    let set := fun (l : LinkSide) (n : Nat) =>
      next (countLink { s with links := setAt s.links die true, dev := { s.dev with d2d := setAt s.dev.d2d die (D2d.ofNext l) } } 0 n)
    if failed.length ≤ 64 then set { replaced := failed } failed.length
    else if low.length ≤ 64 then set { count := 2048, replaced := low } (low.length + 1)
    else next (pathsLost { s with links := setAt s.links die false })

/-! ### Meridian ports (R437) -/

def State.port (s : State) (p : Nat) : Port := (aget s.ports p).getD {}

/-- Cycles of a second, and of the 10 minutes of a key (R22, R437). -/
def secondCycles : Nat := 3300000000
def keyCycles : Nat := 600 * secondCycles

/-- A port is down: its traffic moves to the paths that are left. -/
def portDown (s : State) (p : Nat) : State :=
  let s1 := { s with ports := aset s.ports p { s.port p with up := false } }
  pathsLost { s1 with peers := s1.peers.filter (reachable s1).contains }

/-- MERIDIAN_LINK_LOSS (R437). -/
def execMeridianLinkLoss (p : Nat) (s : State) : Host.Outcome State Fault Refusal :=
  if 36 ≤ p || s.dev.minimal then next s else next (portDown s p)

/-- The key of a direction is due for replacement. -/
def keyDue (s : State) (d : PortDir) : Bool := 2 ^ 32 ≤ d.group - d.keyGroup || keyCycles ≤ s.cycles.toNat - d.keyCycle

/-- The nonce of a group (R437): the 32-bit port identity, which is the port's number (log 124), and the 64-bit group counter. -/
def groupNonce (p : Nat) (d : PortDir) : Nat := p % 2 ^ 32 * 2 ^ 64 + d.group % 2 ^ 64

/-- MERIDIAN_FLIT_GROUP (R437): the 15 flits of a group whose tag checks can be delivered; a group whose tag fails is discarded
and comes again under the same number, and the fourth failure within a second takes the link down. -/
def execMeridianFlitGroup (p : Nat) (tagOk : Bool) (s : State) : Host.Outcome State Fault Refusal :=
  let v := s.port p
  if 36 ≤ p || !v.up || s.dev.minimal then next s
  else if tagOk then
    let rx := { v.rx with group := v.rx.group + 1, flits := v.rx.flits + 15 }
    let s1 := { s with ports := aset s.ports p { v with rx := rx, resend := v.resend - 1 } }
    next (if keyDue s1 rx then s1.pushOnce (.meridianKeyRotation p) else s1)
  else
    let now := s.cycles.toNat
    let fs := (v.fails.filter fun f => decide (now < f + secondCycles)) ++ [now]
    let s1 := countLink { s with ports := aset s.ports p { v with fails := fs, resend := v.resend + 1 } } 1 1
    next (if 4 ≤ fs.length then portDown s1 p else s1)

/-- A new key for a direction where one is due, at a group boundary: a group that has begun is closed first. -/
def newKey (s : State) (closes : Bool) (d : PortDir) : PortDir :=
  if keyDue s d then
    let g := if closes && d.flits != 0 then d.group + 1 else d.group
    { d with group := g, flits := if closes then 0 else d.flits, key := d.key + 1, keyGroup := g, keyCycle := s.cycles.toNat }
  else d

/-- MERIDIAN_KEY_ROTATION (R437). -/
def execMeridianKeyRotation (p : Nat) (s : State) : Host.Outcome State Fault Refusal :=
  let v := s.port p
  if 36 ≤ p || s.dev.minimal then next s
  else next { s with ports := aset s.ports p { v with tx := newKey s true v.tx, rx := newKey s false v.rx } }

/-- The ports one of whose keys is due. -/
def portsDue (s : State) : List Nat := (s.ports.filter fun p => p.2.up && (keyDue s p.2.tx || keyDue s p.2.rx)).map (·.1)

/-! ### PEER accesses (R437, R438) -/

/-- One flit of a checked group is delivered. -/
def takeFlit (v : Port) : Port := { v with rx := { v.rx with flits := v.rx.flits - 1 } }

/-- One flit is sent: the 15th closes its group. -/
def sendFlit (v : Port) : Port :=
  { v with tx := if v.tx.flits = 14 then { v.tx with group := v.tx.group + 1, flits := 0 } else { v.tx with flits := v.tx.flits + 1 } }

/-- PEER_ACCESS (R438), by the port agent of the die that holds its target: an access outside every window is refused. It is
delivered from a group of its port whose tag has checked, and answered on that port (R437; log 124). -/
def execPeerAccess (a : PeerAccess) (s : State) : Host.Outcome State Fault Refusal :=
  let n := if a.write then a.bytes.length else a.len
  let v := s.port a.port
  let say := fun (s : State) (refused : Bool) (bs : List Byte) =>
    let m : OutMsg := .peer a.device refused bs
    next { s with out := s.out ++ [m], ports := aset s.ports a.port (sendFlit (takeFlit v)) }
  if !s.peers.contains a.device || n = 0 || 36 ≤ a.port || !v.up then next s
  else if v.rx.flits = 0 then next (s.push (.peerAccess a))
  else if !admitted s a n then say s true []
  else if a.write then
    if outsideBusy s (portOf (dieOfPa a.pa)) a.pa n then next (s.push (.peerAccess a))
    else say (outsideWrite s (portOf (dieOfPa a.pa)) a.pa a.bytes) false []
  else
    match outsideRead s (portOf (dieOfPa a.pa)) a.pa n with
    | none => next (s.push (.peerAccess a))
    | some (bs, s1) => say s1 false bs

/-! ### Attestation (R435, R436) -/

/-- An answer of the responder: its SPDM response code and free contents (log 21). -/
def doe (s : State) (code : Nat) (nums : List Nat) : State :=
  let m : OutMsg := .doe code (Config.freeImage code nums)
  { s with out := s.out ++ [m] }

/-- The digests and the certificate chain belong to the identity key, and its signatures are made with it (R436). -/
def identityNums (s : State) : List Nat := s.dev.identity.map fun b => b.toNat

/-- The responder is up with the device. -/
def spdm (s : State) (act : State → State) : Host.Outcome State Fault Refusal :=
  next (if s.dev.started && !s.dev.minimal then act s else s)

def execGetVersion (s : State) : Host.Outcome State Fault Refusal :=
  spdm s fun s => doe (s.modDev fun d => { d with spdm := { versioned := true } }) 0x04 [0x13]

/-- A request that the responder takes only after others (PRESUMED, log 127: the order of SPDM 1.3): an error before them. -/
def spdmAfter (ok : Spdm → Bool) (s : State) (act : State → State) : Host.Outcome State Fault Refusal :=
  spdm s fun s => if ok s.dev.spdm then act s else doe s 0x7F []

def execGetCapabilities (s : State) : Host.Outcome State Fault Refusal := spdmAfter Spdm.versioned s fun s => doe s 0x61 []

/-- NEGOTIATE_ALGORITHMS (R436): the one signing algorithm and the one hash, where the requester offers them. -/
def execNegotiateAlgorithms (n : SpdmAlgs) (s : State) : Host.Outcome State Fault Refusal :=
  spdmAfter Spdm.versioned s fun s =>
    let ok := n.slhDsaShake256s && n.shake256x64
    doe (s.modDev fun d => { d with spdm := { d.spdm with negotiated := ok } }) 0x63 [if ok then 1 else 0]

def execGetDigests (s : State) : Host.Outcome State Fault Refusal := spdmAfter Spdm.negotiated s fun s => doe s 0x01 (identityNums s)

def execGetCertificate (s : State) : Host.Outcome State Fault Refusal :=
  spdmAfter Spdm.negotiated s fun s => doe s 0x02 (identityNums s)

/-- CHALLENGE (R436): the requester's nonce, signed under the identity key with the algorithm negotiated. -/
def execChallenge (nonce : List Byte) (s : State) : Host.Outcome State Fault Refusal :=
  spdmAfter Spdm.negotiated s fun s => doe s 0x03 (identityNums s ++ nonce.map fun b => b.toNat)

/-- What a measurement block measures (R436). -/
def measured (s : State) (i : Nat) : List Nat :=
  match i with
  | 1 | 2 | 3 => (getAt [] s.dev.measured (i - 1)).map fun b => b.toNat
  | 4 =>
    (s.parts.flatMap fun p =>
      [p.1, if p.2.conf then 1 else 0] ++ p.2.units.coreUnits ++ p.2.units.lodestars ++ p.2.units.granules ++ p.2.units.bankUnits) ++
      s.ctxs.flatMap fun c => [c.1, c.2.part.getD 31, c.2.ld]
  | 5 => s.mnum.toNat :: s.ports.flatMap fun p => [p.1, p.2.tx.key, p.2.rx.key]
  | _ => []

/-- GET_MEASUREMENTS (R436): a block of the table, or an error. -/
def execGetMeasurements (i : Nat) (s : State) : Host.Outcome State Fault Refusal :=
  spdmAfter Spdm.negotiated s fun s => if 1 ≤ i && i ≤ 5 then doe s 0x60 (i :: measured s i) else doe s 0x7F [i]

def execKeyExchange (s : State) : Host.Outcome State Fault Refusal :=
  spdmAfter Spdm.negotiated s fun s => doe (s.modDev fun d => { d with spdm := { d.spdm with session := 1 } }) 0x64 (identityNums s)

/-- FINISH (R436): the session is established when the requester's proof holds. -/
def execFinish (ok : Bool) (s : State) : Host.Outcome State Fault Refusal :=
  spdm s fun s =>
    if s.dev.spdm.session = 1 && ok then doe (s.modDev fun d => { d with spdm := { d.spdm with session := 2 } }) 0x65 []
    else doe (s.modDev fun d => { d with spdm := { d.spdm with session := 0 } }) 0x7F []

def execEndSession (s : State) : Host.Outcome State Fault Refusal :=
  spdm s fun s => doe (s.modDev fun d => { d with spdm := { d.spdm with session := 0 } }) 0x6C []

/-- A TDI in ERROR kills its context (R435). -/
def tdiError (s : State) (vf : Nat) : State := killContext (s.modCtx vf fun c => { c with tdi := .error }) vf 0

/-- TDISP_MESSAGE (R435): within a session only; a message that its state does not take is answered with an error. -/
def execTdispMessage (vf : Nat) (m : TdispMsg) (s : State) : Host.Outcome State Fault Refusal :=
  spdm s fun s =>
    let set := fun (x : Tdi) => doe (s.modCtx vf fun c => { c with tdi := x }) 0x7E [vf]
    if 256 ≤ vf || s.dev.spdm.session != 2 then doe s 0x7F [vf]
    else
      match m, (s.ctx vf).tdi with
      | .lock, .unlocked => set .locked
      | .start, .locked => set .run
      | .stop, _ => set .unlocked
      | .report, .locked | .report, .run => doe s 0x7E [vf, 0, 0x20, 0x400, 0x400]
      | .error, _ => tdiError s vf
      | _, _ => doe s 0x7F [vf]

/-- IDE_KEY_MANAGEMENT (R436): 1 once a key is programmed, 2 while it is in use. -/
def execIdeKeyManagement (m : IdeMsg) (s : State) : Host.Outcome State Fault Refusal :=
  spdm s fun s =>
    let set := fun (n : Nat) => doe (s.modDev fun d => { d with ideKeys := n }) 0x7E [n]
    if s.dev.spdm.session != 2 then doe s 0x7F []
    else
      match m with
      | .query => doe s 0x7E [s.dev.ideKeys]
      | .keyProg => set 1
      | .keyGo => if s.dev.ideKeys = 0 then doe s 0x7F [] else set 2
      | .keyStop => set 0

/-! ### Start-up, counters and power (R453 to R456) -/

/-- A supervisor team as stage 4 leaves it (R355, R453): its entry and its record belong to the firmware and are free
(log 5). -/
def supervisorTeam (core : Nat) : Team :=
  let pc := BitVec.ofNat 64 (Config.freeNat 26 (2 * core) % 2 ^ 56 / 4 * 4)
  let x : Xrec := { root := Config.freeNat 26 (2 * core + 1) % 2 ^ 40 }
  { kind := .supervisor, core := core, slot := Config.supervisorSlot, ctx := 256 + core, alloc := 64
    threads := List.replicate 32
      { v := List.replicate 64 0, p := List.replicate 8 false, dc := List.replicate 8 0, pc := mkResume pc 0 }
    s := List.replicate 64 0, joins := List.replicate 16 (0, 0), bars := List.replicate 16 { gen := 0, arr := 0, exp := 0 }
    engq := List.replicate 7 {}, xrec := some x }

/-- Stage 4: the supervisor teams, numbered by their cores below every other team. -/
def startTeams (s : State) : State :=
  { s with serial := s.serial + Config.cores
           teams := s.teams ++ (List.range Config.cores).map fun c => (s.serial + c, supervisorTeam c) }

/-- The secret fused into the part, and the boot ROM and the supervisor firmware: none is given (R436; log 5). -/
def fusedSecret : List Byte := Config.freeImage 0x102 []
def bootRom : List Byte := Config.freeImage 0x100 []
def supervisorFirmware : List Byte := Config.freeImage 0x101 []

/-- Stage 1 (R453): the identity key is derived from the fused secret. -/
def deriveIdentity (s : State) : State :=
  s.modDev fun d => { d with identity := Config.freeImage 0x103 (fusedSecret.map fun b => b.toNat) }

/-- Stage 2: the die-to-die links train, and dies 1 to 3 come up. -/
def trainDies (s : State) : State :=
  { s with links := List.replicate 4 true, dev := { s.dev with d2d := List.replicate 4 {} } }

/-- Stage 3: the device's own granules are zeroed under its own key (R434). -/
def zeroOwn (s : State) : State := s.dev.own.foldl (fun s g => zeroGranule s 0 g) s

/-- Stage 5: the measurements of boot ROM and firmware (R436). -/
def measureStart (d : Dev) : Dev := { d with measured := [bootRom, d.nor.firmware, supervisorFirmware] }

/-- Stage 6: the Meridian and Ethernet ports come up; the CXL ports train (R430), and what they train to the host says. -/
def bringPorts (s : State) : State := { s with ports := s.ports.map fun p => (p.1, { p.2 with up := true }) }

/-- A reason of the table of R454. -/
def bootReason (r : Nat) : Nat := if r < 8 then r else 255

/-- What a start comes to: firmware whose signature does not hold ends it in stage 1 (R453, R454). -/
def bootEnd (s : State) (r : BootOutcome) : BootOutcome :=
  match r with
  | .failure st re => .failure st re
  | .success => if s.dev.nor.signed then .success else .failure 1 1

/-- BOOT (R453, R454): a start begins; it runs its six stages, fails at one of them, or, where the count stands at 3 or more,
brings up minimal mode on die 0 alone. -/
def execBoot (r : BootOutcome) (s : State) : Host.Outcome State Fault Refusal :=
  if s.dev.started then next s
  else
    let n := s.dev.nor
    let s1 := s.modDev fun d => { d with nor := { d.nor with fails := min 255 (n.fails + 1) } }
    if 3 ≤ n.fails then next { s1 with links := List.replicate 4 false, dev := { s1.dev with started := true, minimal := true } }
    else
      match bootEnd s r with
      | .success =>
        next (bringPorts ((startTeams (zeroOwn (trainDies (deriveIdentity s1)))).modDev fun d =>
          measureStart { d with started := true, minimal := false, nor := { d.nor with fails := 0 } }))
      | .failure st re =>
        next (s1.modDev fun d =>
          { d with
            nor := { d.nor with stage := st, reason := bootReason re }
            counters := { d.counters with failedStarts := d.counters.failedStarts + 1 } })

/-- The counters are written to flash. -/
def saveCounters (s : State) : State := s.modDev fun d => { d with nor := { d.nor with counters := d.counters } }

/-- LIFETIME_COUNTER_SAVE (R455). -/
def execLifetimeCounterSave (s : State) : Host.Outcome State Fault Refusal := next (saveCounters s)

/-- ORDERLY_SHUTDOWN (R455). -/
def execOrderlyShutdown (s : State) : Host.Outcome State Fault Refusal := next (saveCounters s)

/-- POWER_LOSS (R456): only the NOR flash is kept. -/
def execPowerLoss (s : State) : Host.Outcome State Fault Refusal :=
  next { State.reset with dev := { nor := s.dev.nor, counters := s.dev.nor.counters }, inputs := s.inputs }

/-- POWER_LIMIT (R456): idle cycles are inserted into issue while the limit is passed. -/
def execPowerLimit (on : Bool) (s : State) : Host.Outcome State Fault Refusal := next (s.modDev fun d => { d with powerLimit := on })

end Sys2Proof.Machine
end

