-- ==== Sys2Proof/Machine/Rma.lean ====
section
/-! DEFINITION. The remote access engine (R439 to R452): queue pairs (CMD 4), the remote access instructions, the
requester and the responder, and the revocation of keys. -/

namespace Sys2Proof.Machine

/-! ### Queue pairs (R433, R435, R440) -/

def State.qp (s : State) (n : Nat) : Qp := (aget s.qps n).getD {}
def State.modQp (s : State) (n : Nat) (f : Qp → Qp) : State := { s with qps := aset s.qps n (f (s.qp n)) }

/-- The UDP port of transport packets (R439). -/
def rmaUdpPort : Nat := 7436

/-- A packet as it stands on the wire (R439): its 32-byte header and its payload. The length that a GET asks for has no place in
the header (log 70). -/
def wireOf (p : Packet) : List Byte :=
  [BitVec.ofNat 8 (p.ver % 16 * 16 + p.op % 16), BitVec.ofNat 8 ((if p.first then 1 else 0) + if p.last then 2 else 0)] ++
    leBytes 2 p.payload.length ++ leBytes 4 (p.qpn % 2 ^ 18) ++ leBytes 4 (p.psn % 2 ^ 24) ++ leBytes 4 p.rkey.toNat ++
    leBytes 8 p.raddr.toNat ++ leBytes 4 p.credit ++ leBytes 4 p.aux.toNat ++ p.payload

/-- The packet that bytes on the wire are (R439): none for another version or operation code, a reserved bit, or a length that is
not that of the payload. -/
def packetOf (bs : List Byte) : Option Packet :=
  let b0 := fieldAt bs 0 1
  let fl := fieldAt bs 1 1
  let n := fieldAt bs 2 2
  if b0 / 16 != 1 || 8 ≤ b0 % 16 || 4 ≤ fl || 2 ^ 18 ≤ fieldAt bs 4 4 || 2 ^ 24 ≤ fieldAt bs 8 4 || 4096 < n || bs.length != 32 + n then none
  else
    some { ver := 1, op := b0 % 16, first := fld fl 0 1 == 1, last := fld fl 1 1 == 1, qpn := fieldAt bs 4 4, psn := fieldAt bs 8 4
           rkey := BitVec.ofNat 32 (fieldAt bs 12 4), raddr := BitVec.ofNat 64 (fieldAt bs 16 8), credit := fieldAt bs 24 4
           aux := BitVec.ofNat 32 (fieldAt bs 28 4), payload := bs.drop 32, len := n }

/-- Sends a packet of a queue pair to its remote queue pair. -/
def sendPacket (s : State) (n : Nat) (p : Packet) : State :=
  let m : OutMsg := .packet n { p with ver := 1, qpn := (s.qp n).remoteQp }
  { s with out := s.out ++ [m] }

def blankPacket : Packet :=
  { ver := 1, op := 0, first := true, last := true, qpn := 0, psn := 0, rkey := 0, raddr := 0, credit := 0, aux := 0, payload := []
    len := 0 }

/-- The teams with operations in xq look again (R448). -/
def kickRma (s : State) : State :=
  s.teams.foldl (fun s kt => if (kt.2.queue 6).ops.isEmpty then s else s.pushOnce (.rmaComplete kt.1)) s

/-- A queue pair becomes READY: it starts at PSN 0 and grants 16 units of credit (R441). -/
def readyQp (s : State) (n : Nat) : State :=
  sendPacket (s.modQp n fun q =>
    { q with state := .ready, sendPsn := 0, credit := 0, sent := [], acked := none, recvPsn := 0, done := [], waiting := [], atoms := [] })
    n { blankPacket with op := 7, credit := 16 }

/-- The Ethernet ports with active MACsec (R433): the command reports what the port has negotiated. -/
def setMacsec (d : Dev) (port : Nat) (on : Bool) : Dev :=
  { d with macsec := if on then insertNat port (d.macsec.filter (· != port)) else d.macsec.filter (· != port) }

/-- CMD_QUEUE_PAIR (R433, R435, R440): while a TDI is locked or runs, no queue pair comes to its context or leaves it. -/
def execCmdQueuePair (q : QpCmd) (s : State) : Host.Outcome State Fault Refusal :=
  command s 4 fun s =>
    let old := aget s.qps q.qpn
    let owners :=
      match q.op, old with
      | 0, _ => [q.ctx]
      | 1, some o => if o.ctx = q.ctx then [] else [q.ctx, o.ctx]
      | _, _ => []
    let d := setMacsec s.dev q.port q.macsec
    if owners.any (fun c => tdiHeld (s.ctx c)) || ((s.part q.part).conf && q.op != 2 && !d.macsec.contains q.port) then
      cmdRefused (s.modDev fun _ => d) 4 true
    else if 2 ^ 18 ≤ q.qpn || 4 ≤ q.port || 2 < q.op || (q.op == 0) == old.isSome || (s.ctx q.ctx).part != some q.part then
      cmdRefused (s.modDev fun _ => d) 4 false
    else if q.op = 2 then
      next (answerCmd (kickRma ((s.modDev fun _ => d).modQp q.qpn fun o => { o with state := .reset, sent := [], waiting := [] })) 4 0 0 [])
    else
      let was := (s.qp q.qpn).state
      let s1 := (s.modDev fun _ => d).modQp q.qpn fun o =>
        { o with ctx := q.ctx, part := q.part, port := q.port, remoteQp := q.remoteQp, ips := q.ips, udp := q.udp }
      let s2 := if q.ready && was != .ready then readyQp s1 q.qpn else s1
      next (answerCmd s2 4 0 0 [])

/-! ### The RMA block and its checks (R446, R447) -/

/-- The RMA block (R446). -/
structure RmaBlk where
  laddr : DWord
  raddr : DWord
  len : Nat
  qpn : Nat
  rkey : Word
  ctrl : Nat
  opa : DWord
  opb : DWord
  deriving DecidableEq, Repr

def rmaBlock (bs : List Byte) : RmaBlk :=
  let d := fun (o : Nat) => BitVec.ofNat 64 (fieldAt bs o 8)
  { laddr := d 0, raddr := d 8, len := fieldAt bs 16 4, qpn := fieldAt bs 20 4, rkey := BitVec.ofNat 32 (fieldAt bs 24 4)
    ctrl := fieldAt bs 28 4, opa := d 32, opb := d 40 }

/-- The lowest offset of a field that breaks R446. -/
def rmaBad (i : Instr) (bs : List Byte) : Option Nat :=
  let b := rmaBlock bs
  let atom : Option Ty :=
    match i with
    | .rmaAtom x => some x.ty
    | _ => none
  let tests : List (Nat × Bool) :=
    [(0, atom.isSome && b.laddr.toNat % 8 != 0),
     (16, if atom.isSome then b.len != 8 else b.len == 0 || decide (2 ^ 30 < b.len)),
     (20, decide (2 ^ 18 ≤ b.qpn)),
     (28, match atom with
          | none => b.ctrl != 0
          | some ty => decide (3 ≤ b.ctrl) || (ty == .n64) != (b.ctrl == 0)),
     (40, b.opb != 0 && !(atom.isSome && b.ctrl == 1)),
     (48, fieldAt bs 48 8 != 0), (56, fieldAt bs 56 8 != 0)]
  (tests.find? fun t => t.2).map (·.1)

/-- A reason with its queue pair and key (R447, R449). -/
def rmaTval (reason qpn : Nat) (rkey : Word) : DWord :=
  BitVec.ofNat 64 (reason % 256 * 2 ^ 56 + qpn % 2 ^ 18 * 2 ^ 32 + rkey.toNat)

/-- The checks of R447 and the operation. -/
def prepareRma (i : Instr) (s : State) (g : Grp) (L : LCtx) (lr : LogRec) (th : Thread) : Except AccStop (Prepared × Thread × State) :=
  let a : DWord := (DWord.lo lr.a).zext
  if a.toNat % 64 != 0 then .error (.trap .misalignedAccess a .nothing)
  else
    match ownScratch s g.k L.lane a 64 with
    | none => .error (.trap .scratchRange a .nothing)
    | some bs =>
      let b := rmaBlock bs
      let q := s.qp b.qpn
      let last := b.laddr + BitVec.ofNat 64 (b.len - 1)
      match rmaBad i bs with
      | some o => .error (.trap .engineOperand (BitVec.ofNat 64 o) .nothing)
      | none =>
        if q.ctx != L.team.ctx || q.state != .ready || (aget s.qps b.qpn).isNone then
          .error (.trap .remoteAccess (rmaTval 8 b.qpn 0) .nothing)
        else if !isCanon b.laddr then .error (.trap .addressRange b.laddr .nothing)
        else if !isCanon last then .error (.trap .addressRange last .nothing)
        else .ok ({ op := { qs := [6], instr := i, lane := L.lane, block := bs, args := [] }, spans := [] }, th, s)

/-- RMA.PUT (R445, R447). -/
def execRmaPut (x : XOps) (s : State) : Host.Outcome State Fault Refusal := engineOp s (.rmaPut x) x (prepareRma (.rmaPut x))

/-- RMA.GET (R445, R447). -/
def execRmaGet (x : XOps) (s : State) : Host.Outcome State Fault Refusal := engineOp s (.rmaGet x) x (prepareRma (.rmaGet x))

/-- RMA.ATOM (R445, R447). -/
def execRmaAtom (x : XOps) (s : State) : Host.Outcome State Fault Refusal := engineOp s (.rmaAtom x) x (prepareRma (.rmaAtom x))

/-- What RMA.KEY checks at issue (R445, R451): op 0 reads the key record as a load. -/
def prepareKey (i : Instr) (x : XOps) (s : State) (_ : Grp) (L : LCtx) (lr : LogRec) (th : Thread) :
    Except AccStop (Prepared × Thread × State) :=
  let op : EngOp := { qs := if x.a == .lit 1 then [6] else [], instr := i, lane := L.lane, block := [], args := [low32 lr.b] }
  if x.a == .lit 0 then
    let a := DWord.ofPair (getAt 0 lr.c 1) (getAt 0 lr.c 0)
    if earlierStore L.team L.lane s.serial || earlierLoad th s.serial then .error .hold
    else
      match readVirtual L.team (some L.team.agent) (chunks 3 a.toNat 32) s with
      | .wait _ => .error .hold
      | .trap c v => .error (.trap c v .nothing)
      | .ok bs stale s1 =>
        let th' := if stale then { th with vstale := th.vstale ||| 1 } else th
        .ok ({ op := { op with block := bs }, spans := [] }, th', s1)
  else .ok ({ op := op, spans := [] }, th, s)

/-- RMA.KEY (R445, R451). -/
def execRmaKey (x : XOps) (s : State) : Host.Outcome State Fault Refusal :=
  engineOp s (.rmaKey x) x (prepareKey (.rmaKey x) x)

/-- The token that a lane of RMA.WAIT reads (R450). -/
def rmaToken (x : XOps) (s : State) (L : LCtx) (th : Thread) : Except AccStop (Word × Thread × State) :=
  match srcA L .int .w32 (ofX x) th with
  | .error e => .error e
  | .ok (a, th) =>
    if tokCode a.lo != 6 then .error (.trap .tokenInvalid a.lo.zext .nothing) else .ok (DWord.lo a, th, s)

/-- RMA.WAIT (R450). -/
def execRmaWait (x : XOps) (s : State) : Host.Outcome State Fault Refusal :=
  lanesThen s (.rmaWait x) x Grp.await (rmaToken x) fun s g vals traps =>
    let st := trapLanes s g.k g.idx g.run.acc traps
    next (startWaits st g fun l => (vals.find? fun p => p.1 == l).map fun p => .rmaToken p.2)

/-- Ends the RMA.WAIT of a thread if its token allows it (R450); `t` is the team as the step finds it. -/
def wakeRma (s : State) (k l : Nat) (t : Team) (w : Word) : State :=
  match engineToken t w with
  | .notIssued => trapWait s k l .tokenInvalid w.zext
  | .pending => s
  | .complete => endWait s k l
  | .bad e =>
    let tr := endedTrap 6 e
    trapWait (reportEnded s k l 6 e) k l tr.1 tr.2

/-! ### Operations in xq -/

/-- The operation of a team's xq with an acceptance order. -/
def rmaOp (s : State) (k order : Nat) : Option EngOp := ((s.team k).queue 6).ops.find? fun o => o.order == order

/-- Forgets the packets of operations. -/
def dropSent (s : State) (k : Nat) (orders : List Nat) : State :=
  { s with qps := s.qps.map fun q => (q.1, { q.2 with sent := q.2.sent.filter fun x => x.team != k || !orders.contains x.order }) }

/-- An operation faults: those behind it complete cancelled, sent or not (R217, R449). -/
def faultRma (s : State) (k : Nat) (o : EngOp) (c : Cause) (v : DWord) : State :=
  let behind := ((s.team k).queue 6).ops.filter fun x => o.order < x.order
  let sent := behind.filter fun x => x.state != .queued
  let s1 := dropSent s k (o.order :: behind.map fun x => x.order)
  let s2 := sent.foldl (fun s x => s.closeOp k x .cancelled (x.word .cancelled 0)) s1
  s2.endEngineOp k o (.faulted c v) 0

/-- The packets of a queue pair that are not acknowledged (R441). -/
def Qp.unacked (q : Qp) : List Sent := q.sent.filter fun x => !x.acked

/-- A local access of an operation fails: its supervisor team resolves a page fault, any other cause faults it (R449). -/
def localFault (s : State) (k : Nat) (o : EngOp) (c : Cause) (v : DWord) : State :=
  if c.resolvable then stopEngineOp s k o .copyFault c v 0 else faultRma s k o c v

/-- The cause at the requester of a reason (R444, R449). -/
def reasonCause (r : Nat) : Cause := if r = 6 then .keyRevoked else if r = 7 then .remoteTimeout else .remoteAccess

/-- The queue pair of an operation has left READY, or a NAK has named the operation. -/
def failRma (s : State) (k : Nat) (o : EngOp) (reason : Nat) : State :=
  let b := rmaBlock o.block
  faultRma s k o (reasonCause reason) (rmaTval reason b.qpn b.rkey)

/-- Packets of an operation. -/
def rmaPackets (o : EngOp) : Nat :=
  match o.instr with
  | .rmaPut _ => ((rmaBlock o.block).len + 4095) / 4096
  | _ => 1

/-- The queue pair may send one more packet of an operation (R441). -/
def mayTransmit (q : Qp) (o : EngOp) : Bool :=
  q.unacked.length < 1024 &&
    match o.instr with
    | .rmaGet _ => true
    | .rmaAtom _ => decide ((q.unacked.filter fun x => x.pkt.op == 3).length < 64) && decide (1 ≤ q.credit)
    | _ => decide (1 ≤ q.credit)

/-- The next packet of an operation without its payload. -/
def nextPacket (q : Qp) (o : EngOp) : Packet :=
  let b := rmaBlock o.block
  let off := o.row * 4096
  let p : Packet := { blankPacket with psn := q.sendPsn, rkey := b.rkey, raddr := b.raddr }
  match o.instr with
  | .rmaGet _ => { p with op := 1, len := b.len }
  | .rmaAtom _ => { p with op := 3, len := 8, payload := leBytes 8 b.opb.toNat ++ leBytes 8 b.opa.toNat ++ leBytes 4 b.ctrl }
  | _ =>
    { p with
      op := 0, raddr := b.raddr + BitVec.ofNat 64 off, len := min 4096 (b.len - off), first := o.row == 0
      last := decide (b.len ≤ off + 4096) }

/-- A packet goes to the wire: it is kept until it is acknowledged, and the operation notes its PSN. -/
def transmit (s : State) (k : Nat) (o : EngOp) (p : Packet) : State :=
  let n := (rmaBlock o.block).qpn
  let s1 := s.modQp n fun q =>
    { q with
      sendPsn := (q.sendPsn + 1) % 2 ^ 24, credit := if p.payload.isEmpty then q.credit else q.credit - 1
      sent := q.sent ++ [{ pkt := p, team := k, order := o.order, tries := 0, at_ := s.cycles.toNat }] }
  let s2 := s1.modOp k o fun x => { x with state := .running, row := x.row + 1, args := [BitVec.ofNat 64 p.psn] ++ x.args.drop 1 }
  (sendPacket s2 n p).pushOnce (.rmaRetransmitTimeout n)

/-- An earlier operation of a team's xq still has to write its answer at LADDR: later operations neither read memory nor
write it before that (R168, R448). -/
def earlierLands (s : State) (k : Nat) (o : EngOp) : Bool :=
  (((s.team k).queue 6).ops.takeWhile fun x => x.order != o.order).any fun x =>
    match x.instr with
    | .rmaGet _ | .rmaAtom _ => true
    | _ => false

/-- One move of the engine for an operation whose turn it is: the state after, or `none` where it can only wait. -/
def sendNext (s : State) (k : Nat) (o : EngOp) : Option State :=
  let b := rmaBlock o.block
  let q := s.qp b.qpn
  if q.state != .ready then some (failRma s k o 8)
  else if rmaPackets o ≤ o.row || !mayTransmit q o then none
  else
    let p := nextPacket q o
    match o.instr with
    | .rmaPut _ =>
      let va := b.laddr + BitVec.ofNat 64 (o.row * 4096)
      if earlierLands s k o then none
      else
      let cs := chunks (p.len / 128 + 2) va.toNat p.len
      let go := fun (cs : List (Nat × Nat)) => readVirtual (s.team k) (some (raeOf 0)) cs s
      match go cs with
      | .wait _ => none
      | .trap c v => some (localFault s k o c (badByte go cs v))
      | .ok bs stale s1 => some (transmit (s1.modOp k o fun x => { x with stale := x.stale || stale }) k o { p with payload := bs })
    | _ => some (transmit s k o p)

/-- `a` is `b` or comes after it among packet sequence numbers. -/
def psnReached (a b : Nat) : Bool := decide ((a + 2 ^ 24 - b % 2 ^ 24) % 2 ^ 24 < 2 ^ 23)

/-- An operation is complete (R448): the ACK covers the last packet of a PUT, every byte of a GET is written, the old
value of an ATOM is written. -/
def rmaDone (s : State) (o : EngOp) : Bool :=
  let b := rmaBlock o.block
  match o.instr with
  | .rmaPut _ =>
    rmaPackets o ≤ o.row &&
      match (s.qp b.qpn).acked with
      | some c => psnReached c (getAt 0 o.args 0).toNat
      | none => false
  | _ => decide (b.len ≤ o.chunk)

/-- A revoke at the head of xq (R452). -/
def startRevoke (s : State) (k : Nat) (o : EngOp) : State :=
  let t := s.team k
  let key := DWord.lo (getAt 0 o.args 0)
  let i := keyIndex key
  let v := s.keySlot t.part i
  if v.state == .valid && v.tag == keyTag key then
    ((s.setKey t.part i { v with state := .revoking, holder := some (k, o.order) }).modOp k o fun x => { x with state := .running }).push
      (.keyRevokeComplete t.part i)
  else s.endEngineOp k o .done 0

/-- Walks the operations of a team's xq in queue order (R448, R452): each may move when it is the head, or when every
operation before it is on the same queue pair and has sent its packets. -/
def pump (s : State) (k : Nat) (before : Option Nat) : List EngOp → Option State
  | [] => none
  | o :: r =>
    let b := rmaBlock o.block
    let onward : Option State :=
      match o.instr, o.state with
      | .qfence _, _ | .rmaKey _, _ | _, .stopped _ _ => none
      | _, _ => if rmaPackets o ≤ o.row then pump s k (some b.qpn) r else none
    if before.isSome && (before != some b.qpn || o.isFence) then none
    else
      match o.instr, o.state with
      | .qfence _, _ | _, .stopped _ _ => none
      | .rmaKey _, .queued => if before.isNone then some (startRevoke s k o) else none
      | .rmaKey _, _ => none
      | _, _ =>
        if rmaDone s o then some (s.endEngineOp k o .done 0)
        else
          match sendNext s k o with
          | some s1 => some s1
          | none => onward

/-- RMA_COMPLETE (R448, R452): one move for the operations of a team's xq. -/
def execRmaComplete (k : Nat) (s : State) : Host.Outcome State Fault Refusal :=
  match pump s k none ((s.team k).queue 6).ops with
  | none => next s
  | some s1 => next (if ((s1.team k).queue 6).ops.isEmpty then s1 else s1.pushOnce (.rmaComplete k))

/-- KEY_REVOKE_COMPLETE (R452): every packet that passed its checks has performed, so the slot becomes INVALID and the
revoke completes. -/
def execKeyRevokeComplete (part slot : Nat) (s : State) : Host.Outcome State Fault Refusal :=
  let v := s.keySlot part slot
  if v.state != .revoking then next s
  else
    let s1 := s.setKey part slot { v with state := .invalid, holder := none }
    match v.holder with
    | none => next s1
    | some (k, order) =>
      match rmaOp s1 k order with
      | some o => next (s1.endEngineOp k o .done 0)
      | none => next s1

/-! ### Packets that arrive (R439, R440) -/

/-- Bytes of a packet on the wire. -/
def packetBytes (p : Packet) : Nat := 32 + p.payload.length

/-- A packet whose context is not cached waits in the miss buffer of its port while the context is fetched; one that finds
it full is dropped (R440). -/
def missPacket (s : State) (p : Packet) : State :=
  let port := (s.qp p.qpn).port
  let buf := (aget s.dev.missed port).getD []
  if 65536 < buf.foldl (fun n q => n + packetBytes q) (packetBytes p) then s
  else (s.modDev fun d => { d with missed := aset d.missed port (buf ++ [p]) }).pushOnce (.qpContextFetch p.qpn)

/-- Receives a packet of an operation code: another version is dropped. DESIGN CHOICE (log 122): so is one whose header has a
reserved bit set or a payload above 4,096 bytes. -/
def receive (s : State) (p : Packet) (op : Nat) (act : State → State) : Host.Outcome State Fault Refusal :=
  if p.ver != 1 || p.op != op || 2 ^ 18 ≤ p.qpn || 2 ^ 24 ≤ p.psn || 4096 < p.payload.length || !s.dev.started || s.dev.minimal then next s
  else if !(s.qp p.qpn).cached then next (missPacket s p)
  else next (act s)

/-- The event that a packet is. -/
def packetEvent (p : Packet) : Ev :=
  match p.op with
  | 0 => .put p
  | 1 => .getRequest p
  | 2 => .getResponse p
  | 3 => .atomRequest p
  | 4 => .atomResponse p
  | 5 => .ack p
  | 6 => .nak p
  | _ => .credit p

/-- The bitmap of PSNs accepted or performed beyond the cumulative one (R439). -/
def ackBitmap (q : Qp) : Nat :=
  (List.range 64).foldl (fun m i =>
    let n := (q.recvPsn + i) % 2 ^ 24
    if q.done.contains n || q.waiting.any fun p => p.psn == n then m + 2 ^ i else m) 0

/-- Acknowledges what has performed; `credit` units are granted again (R441, R448). -/
def sendAck (s : State) (n credit : Nat) : State :=
  let q := s.qp n
  sendPacket s n { blankPacket with
    op := 5, credit := credit, aux := BitVec.ofNat 32 ((q.recvPsn + 2 ^ 24 - 1) % 2 ^ 24), payload := leBytes 8 (ackBitmap q) }

def sendNak (s : State) (n psn reason : Nat) : State :=
  sendPacket s n { blankPacket with op := 6, aux := BitVec.ofNat 32 (reason * 2 ^ 24 + psn % 2 ^ 24) }

/-- QP_CONTEXT_FETCH (R440): the context is cached, in the place of another when 8,192 are, and its packets go on. The context of
a queue pair that no command has created is in RESET, and its requests fail check 1 of R444. -/
def execQpContextFetch (n : Nat) (s : State) : Host.Outcome State Fault Refusal :=
  let here := s.dev.missed.flatMap fun b => b.2.filter fun p => p.qpn == n
  if (aget s.qps n).isNone then
    next ((here.filter fun p => p.op == 0 || p.op == 1 || p.op == 3).foldl (fun s p => sendNak s n p.psn 8)
      (s.modDev fun d => { d with missed := d.missed.map fun b => (b.1, b.2.filter fun p => p.qpn != n) }))
  else
  let cachedNow := s.qps.filter fun q => q.2.cached
  let s0 :=
    match cachedNow with
    | [] => s
    | (m, _) :: _ => if 8192 ≤ cachedNow.length && m != n then s.modQp m fun q => { q with cached := false } else s
  let s1 := s0.modQp n fun q => { q with cached := true }
  let mine := s1.dev.missed.flatMap fun b => b.2.filter fun p => p.qpn == n
  let s2 := s1.modDev fun d => { d with missed := d.missed.map fun b => (b.1, b.2.filter fun p => p.qpn != n) }
  next (mine.foldl (fun s p => s.push (packetEvent p)) s2)

/-! ### The responder (R441 to R444, R448) -/

/-- The cumulative PSN moves over what has performed. -/
def advance (q : Qp) : Nat → Qp
  | 0 => q
  | n + 1 =>
    if q.done.contains q.recvPsn then
      advance { q with recvPsn := (q.recvPsn + 1) % 2 ^ 24, done := q.done.filter (· != q.recvPsn) } n
    else q

/-- A packet has performed: the accepted packet that comes next is checked. -/
def performed (s : State) (n psn : Nat) : State :=
  let q0 := s.qp n
  let q := advance { q0 with done := q0.done ++ [psn] } (q0.done.length + 1)
  let s1 := s.modQp n fun _ => { q with waiting := q.waiting.filter fun p => p.psn != q.recvPsn }
  (q.waiting.filter fun p => p.psn == q.recvPsn).foldl (fun s p => s.push (packetEvent p)) s1

/-- Checks 2 to 6 of R444: the reason of the first that fails. -/
def keyCheck (v : KeySlot) (p : Packet) : Option Nat :=
  let tag := keyTag p.rkey
  if v.state == .revoking || (v.state == .invalid && v.tag == tag) then some 6
  else if v.state != .valid || v.tag != tag then some 1
  else if v.qpsel != BitVec.allOnes 32 && v.qpsel.toNat != p.qpn then some 4
  else if fld v.rights (if p.op = 1 then 0 else if p.op = 0 then 1 else 2) 1 = 0 then some 3
  else if v.len < p.raddr.toNat + p.len || (p.op = 3 && (v.base + p.raddr).toNat % 8 != 0) then some 2
  else none

/-- What check 7 and the access of a request give: the state after with what is sent back, a wait, or a failure. -/
inductive Served where
  | ok (back : List Packet) (s : State)
  | wait (s : State)
  | bad

/-- Answers of a GET: packets of at most 4,096 bytes (R448). -/
def getAnswers (p : Packet) (bs : List Byte) : List Packet :=
  (List.range ((bs.length + 4095) / 4096)).map fun i =>
    let part := (bs.drop (4096 * i)).take 4096
    { blankPacket with op := 2, psn := p.psn, rkey := p.rkey, raddr := p.raddr + BitVec.ofNat 64 (4096 * i), payload := part
                       len := part.length, first := i == 0, last := decide (bs.length ≤ 4096 * (i + 1)) }

/-- The new value of an ATOM (R448). -/
def atomValue (ctrl : Nat) (old opa opb : DWord) : DWord :=
  match ctrl with
  | 0 => old + opa
  | 1 => if old == opb then opa else old
  | _ => opa

def atomAnswer (p : Packet) (old : DWord) : Packet :=
  { blankPacket with op := 4, psn := p.psn, rkey := p.rkey, raddr := p.raddr, payload := leBytes 8 old.toNat, len := 8 }

/-- One RMW at .system (R150, R448). -/
def serveAtom (s : State) (v : KeySlot) (part : Nat) (p : Packet) : Served :=
  let va := v.base + p.raddr
  let t := agentTeam v.ctx part
  let fail := fun (c : Cause) (a : DWord) =>
    match agentFault s v.ctx c a with
    | .wait s1 => Served.wait s1
    | _ => .bad
  match s.xlateEngine t (some (raeOf 0)) (.atomic true false) va with
  | .error none => .wait s
  | .error (some c) => fail c va
  | .ok (xl, s1) =>
    if s1.portIn xl.pa 8 then .bad
    else
      if derivesFrom s1 none [lineOf xl.pa] || s1.writeBlocked (raeOf 0) xl.mode (lineOf xl.pa) then .wait s
      else
      match s1.readNow (some (raeOf 0)) false xl va 8 with
      | .wait s2 => .wait s2
      | .trap c a => fail c a
      | .ok bs _ s2 =>
        let old := BitVec.ofNat 64 (leNat bs)
        let new := atomValue (fieldAt p.payload 16 4) old (BitVec.ofNat 64 (fieldAt p.payload 8 8)) (BitVec.ofNat 64 (fieldAt p.payload 0 8))
        let s3 := noteTraffic (s2.performWrite (some (raeOf 0)) false xl.mode xl.master none (wholeBytes xl.pa (leBytes 8 new.toNat))) v.ctx xl.ty xl.pa
        .ok [atomAnswer p old]
          (s3.modQp p.qpn fun q => { q with atoms := (q.atoms ++ [(p.psn, old)]).drop (q.atoms.length + 1 - 64) })

/-- Check 7 and the access of a request (R444, R448). -/
def serve (s : State) (v : KeySlot) (part : Nat) (p : Packet) : Served :=
  let va := v.base + p.raddr
  match p.op with
  | 0 =>
    match agentWrite s v.ctx part va p.payload with
    | .ok _ _ s1 => .ok [] s1
    | .wait s1 => .wait s1
    | .trap _ _ => .bad
  | 1 =>
    match agentRead s v.ctx part va p.len with
    | .ok bs _ s1 => .ok (getAnswers p bs) s1
    | .wait s1 => .wait s1
    | .trap _ _ => .bad
  | _ => serveAtom s v part p

/-- A packet that has been accepted before is acknowledged again and not performed again; an ATOM is answered from the cache
of results (R441, R442; log 71). -/
def repeated (s : State) (p : Packet) : State :=
  let s1 := sendAck s p.qpn 0
  match p.op with
  | 3 =>
    match (s.qp p.qpn).atoms.find? fun a => a.1 == p.psn with
    | some a => sendPacket s1 p.qpn (atomAnswer p a.2)
    | none => s1
  | _ => s1

/-- A request packet reaches its responder (R441 to R444, R448). Packets are accepted in any order within the window and
perform in the order of their PSNs, the order in which their operations entered the sender's queue (R168). -/
def respond (s : State) (p : Packet) : State :=
  let q := s.qp p.qpn
  let d := (p.psn + 2 ^ 24 - q.recvPsn) % 2 ^ 24
  if q.state != .ready then sendNak s p.qpn p.psn 8
  else if 2 ^ 23 ≤ d || q.done.contains p.psn || q.waiting.any (fun w => w.psn == p.psn) then repeated s p
  else if 1024 ≤ d then s
  else if d != 0 then sendAck (s.modQp p.qpn fun q => { q with waiting := q.waiting ++ [p] }) p.qpn 0
  else
    let v := s.keySlot q.part (keyIndex p.rkey)
    match keyCheck v p with
    | some r => sendNak s p.qpn p.psn r
    | none =>
      match serve s v q.part p with
      | .wait s1 => s1.pushOnce (packetEvent p)
      | .bad => sendNak s p.qpn p.psn 5
      | .ok back s1 =>
        let s2 := back.foldl (fun s a => sendPacket s p.qpn a) s1
        sendAck (performed s2 p.qpn p.psn) p.qpn (if p.payload.isEmpty then 0 else 1)

/-- PUT (R444, R448). -/
def execPut (p : Packet) (s : State) : Host.Outcome State Fault Refusal := receive s p 0 fun s => respond s { p with len := p.payload.length }

/-- GET_REQUEST (R444, R448). -/
def execGetRequest (p : Packet) (s : State) : Host.Outcome State Fault Refusal := receive s p 1 fun s => respond s p

/-- ATOM_REQUEST (R442, R444, R448). -/
def execAtomRequest (p : Packet) (s : State) : Host.Outcome State Fault Refusal := receive s p 3 fun s => respond s { p with len := 8 }

/-! ### The requester (R441, R448, R449) -/

/-- The packet of a queue pair that an answer names, with its operation. -/
def answered (s : State) (n psn : Nat) : Option (Sent × EngOp) :=
  match (s.qp n).sent.find? fun x => x.pkt.psn == psn with
  | none => none
  | some x => (rmaOp s x.team x.order).map fun o => (x, o)

/-- Writes a part of an answer at LADDR, after the answers of earlier operations (R168); the operation counts its bytes. -/
def landData (s : State) (p : Packet) (x : Sent) (o : EngOp) (va : DWord) (mark : Nat) : State :=
  match o.state with
  | .stopped _ _ => s.pushOnce (packetEvent p)
  | _ =>
    if earlierLands s x.team o then s.pushOnce (packetEvent p)
    else
    let cs := chunks (p.payload.length / 128 + 2) va.toNat p.payload.length
    let go := fun (cs : List (Nat × Nat)) => writeVirtual x.team (s.team x.team) (some (raeOf 0)) cs p.payload s
    match go cs with
    | .wait s1 => s1.pushOnce (packetEvent p)
    | .trap c v0 =>
      let v := badByte go cs v0
      (if c.resolvable then (localFault s x.team o c v).pushOnce (packetEvent p) else localFault s x.team o c v)
    | .ok _ _ s1 =>
      let n := o.chunk + p.payload.length
      let s2 := s1.modOp x.team o fun y => { y with chunk := n, args := y.args ++ [BitVec.ofNat 64 mark] }
      let s3 := if (rmaBlock o.block).len ≤ n then dropSent s2 x.team [o.order] else s2
      s3.pushOnce (.rmaComplete x.team)

/-- GET_RESPONSE (R448): each part is written once. -/
def execGetResponse (p : Packet) (s : State) : Host.Outcome State Fault Refusal :=
  receive s p 2 fun s =>
    match answered s p.qpn p.psn with
    | none => s
    | some (x, o) =>
      let b := rmaBlock o.block
      let off := (p.raddr - b.raddr).toNat
      if b.len < off + p.payload.length || p.payload.isEmpty || (o.args.drop 1).contains (BitVec.ofNat 64 off) then s
      else landData s p x o (b.laddr + BitVec.ofNat 64 off) off

/-- ATOM_RESPONSE (R448). -/
def execAtomResponse (p : Packet) (s : State) : Host.Outcome State Fault Refusal :=
  receive s p 4 fun s =>
    match answered s p.qpn p.psn with
    | none => s
    | some (x, o) => if p.payload.length != 8 then s else landData s p x o (rmaBlock o.block).laddr 0

/-- Credit comes to a queue pair, and its operations go on. -/
def grant (s : State) (n units : Nat) : State := kickRma (s.modQp n fun q => { q with credit := q.credit + units })

/-- ACK (R439, R441): the packets that the cumulative PSN or the bitmap covers are acknowledged and not resent. A PUT packet
that the cumulative PSN covers has performed and is kept no longer; the others may still be answered or refused. -/
def execAck (p : Packet) (s : State) : Host.Outcome State Fault Refusal :=
  receive s p 5 fun s =>
    let cum := p.aux.toNat % 2 ^ 24
    let map := fieldAt p.payload 0 8
    let got := fun (x : Sent) =>
      psnReached cum x.pkt.psn || (let i := (x.pkt.psn + 2 ^ 24 - (cum + 1)) % 2 ^ 24; decide (i < 64) && fld map i 1 == 1)
    let gone := fun (x : Sent) => x.pkt.op == 0 && psnReached cum x.pkt.psn
    let s1 := s.modQp p.qpn fun q =>
      let ahead :=
        match q.acked with
        | some c => psnReached cum c
        | none => true
      { q with sent := (q.sent.filter fun x => !gone x).map fun x => if got x then { x with acked := true } else x, acked := if ahead then some cum else q.acked }
    grant s1 p.qpn p.credit

/-- CREDIT (R441). -/
def execCredit (p : Packet) (s : State) : Host.Outcome State Fault Refusal := receive s p 7 fun s => grant s p.qpn p.credit

/-- NAK (R449). -/
def execNak (p : Packet) (s : State) : Host.Outcome State Fault Refusal :=
  receive s p 6 fun s =>
    match answered s p.qpn (p.aux.toNat % 2 ^ 24) with
    | none => s
    | some (x, o) => failRma s x.team o (p.aux.toNat / 2 ^ 24)

/-- A queue pair in ERROR faults its operations with REMOTE_TIMEOUT (R449). -/
def errorQp (s : State) (n : Nat) : Nat → State
  | 0 => s
  | f + 1 =>
    match (s.qp n).sent with
    | [] => s
    | x :: _ =>
      match rmaOp s x.team x.order with
      | some o => errorQp (failRma s x.team o 7) n f
      | none => errorQp (dropSent s x.team [x.order]) n f

/-- Cycles after which a packet resent `tries` times is resent: 20 microseconds, doubled at each retry (R441). -/
def retryCycles (tries : Nat) : Nat := 66000 * 2 ^ tries

/-- RMA_RETRANSMIT_TIMEOUT (R441). -/
def execRmaRetransmitTimeout (n : Nat) (s : State) : Host.Outcome State Fault Refusal :=
  let q := s.qp n
  let now := s.cycles.toNat
  if q.unacked.isEmpty then next s
  else
    match q.unacked.find? fun x => x.at_ + retryCycles x.tries ≤ now with
    | none => next (s.pushOnce (.rmaRetransmitTimeout n))
    | some x =>
      if 7 ≤ x.tries then next (kickRma (errorQp (s.modQp n fun q => { q with state := .error }) n q.sent.length))
      else
        let upd := fun (y : Sent) => if y == x then { y with tries := y.tries + 1, at_ := now } else y
        next ((sendPacket (s.modQp n fun q => { q with sent := q.sent.map upd }) n x.pkt).pushOnce (.rmaRetransmitTimeout n))

end Sys2Proof.Machine
end

