-- ==== Sys2Proof/Machine/Select.lean ====
section
/-! DEFINITION. The selection of a pipe and of an access unit (R245, R359, R360): the run boundary of its teams, the
waits that end there, and the run that starts. -/

namespace Sys2Proof.Machine

/-! ### Waits that end (R204, R205, R227, R366, R375, R395, R426, R450) -/

/-- Ends the wait of a thread where what it waits for has come; `t` is the team as the step finds it.  The waits that
another agent's step ends are left to it. -/
def wakeOne (s : State) (k l : Nat) (t : Team) : State :=
  let th := t.thread l
  if th.status != .live || (s.thread k l).wait != th.wait then s
  else
    match th.wait with
    | some (.qwait id marks) => wakeQwait s k id marks
    | some (.token _ dst w) => wakeToken s k l t dst w
    | some (.rmaToken w) => wakeRma s k l t w
    | some (.quiet id mark adv) => wakeQuiet s k id mark adv
    | some (.mbox id dst a) => wakeMbox s k id dst a
    | some .halted => if (untaken (s.core t.core)).isSome then endWait s k l else s
    | some .monitor =>
      match th.monitor with
      | .armed ln => if s.poisonedLine ln then s.modThread k l fun th => { th with wait := none, monitor := .idle } else s
      | _ => s.modThread k l fun th => { th with wait := none, monitor := .idle }
    | some (.sleep till) => if till ≤ s.cycles.toNat then endWait s k l else s
    | _ => s

/-- Ends the waits of a team's threads, in lane order. -/
def wakeTeam (s : State) (k : Nat) : State :=
  let t := s.team k
  if t.resident then (List.range t.threads.length).foldl (fun s l => wakeOne s k l t) s else s

/-- The handler team has begun to run, or has left its handler: the teams restored with it go on (R408). -/
def releaseHold (s : State) (k : Nat) : State :=
  match (s.team k).holdFor with
  | none => s
  | some h => if (aget s.teams h).isSome && inHandler (s.team h) && (s.team h).resident then s else s.modTeam k fun t => { t with holdFor := none }

/-- What a team does when its pipe looks at it between runs. -/
def visit (s : State) (k : Nat) : State := wakeTeam (boundary (releaseHold s k) k) k

/-! ### YIELD (R360) -/

/-- Removes from the groups that a yielding thread waits for those that have no ready thread; a thread that waits for
none is ready. -/
def pruneYield (gs : List (Nat × Where)) (th : Thread) : Thread :=
  match th.wait with
  | some (.yield ps) =>
    match ps.filter gs.contains with
    | [] => { th with wait := none }
    | qs => { th with wait := some (.yield qs) }
  | _ => th

/-- A group has been selected: a thread that waited for it last is ready. -/
def passYield (g : Nat × Where) (th : Thread) : Thread :=
  match th.wait with
  | some (.yield ps) =>
    match ps.filter (· != g) with
    | [] => { th with wait := none }
    | qs => { th with wait := some (.yield qs) }
  | _ => th

/-- Changes the threads of the teams on a pipe. -/
def modPipe (s : State) (core pipe : Nat) (f : Thread → Thread) : State :=
  { s with teams := s.teams.map fun kt => if onPipe kt.2 core pipe then (kt.1, { kt.2 with threads := kt.2.threads.map f }) else kt }

/-- Changes the scalar threads of the access contexts of a core. -/
def modAccess (s : State) (core : Nat) (f : Thread → Thread) : State :=
  { s with teams := s.teams.map fun kt =>
      if kt.2.kind == .user && kt.2.core == core then (kt.1, { kt.2 with acc := kt.2.acc.map fun a => { a with th := f a.th } }) else kt }

/-! ### Selection -/

/-- The run of a group. -/
def startRun (s : State) (team : Nat) (acc : Bool) (w : Where) (lanes : List Nat) (core pipe : Nat) : State :=
  let free := fun (kt : Nat × Team) =>
    if kt.1 == team then (kt.1, { kt.2 with fresh := false, restoredWith := none })
    else if kt.2.holdFor == some team then (kt.1, { kt.2 with holdFor := none }) else kt
  let r : Run :=
    { team := team, acc := acc, lanes := lanes, core := core, pipe := pipe, hdrAddr := w.hdr, hdr := 0, words := [], idx := 0
      off := w.off, count := 0, needHdr := true }
  { s with teams := s.teams.map free, runs := s.runs ++ [r] }

/-- The pipe number that stands for the access unit of a core. -/
def accessPipe : Nat := 4

def pipeBusy (s : State) (core pipe : Nat) : Bool := s.runs.any fun r => r.core == core && r.pipe == pipe

/-- The state after a free pipe has visited its teams: boundaries are taken, waits have ended (R359, R360). -/
def visited (s : State) (core pipe : Nat) : State :=
  let ks := (s.teams.filter fun kt => onPipe kt.2 core pipe).map (·.1)
  let s1 := ks.foldl visit s
  modPipe s1 core pipe (pruneYield ((pipeGroups s1 core pipe).map fun g => (g.team, g.at_)))

/-- Ends the waits of the teams on a pipe. -/
def wakePipe (s : State) (core pipe : Nat) : State :=
  ((s.teams.filter fun kt => onPipe kt.2 core pipe).map (·.1)).foldl wakeTeam s

/-- YIELD (R360, R245): the threads wait behind the groups that are ready now, those among them whose waits
have just ended. -/
def execYield (x : XOps) (s : State) : Host.Outcome State Fault Refusal :=
  match prologue s (ofX x) (fun _ => none) false [] false with
  | .error o => o
  | .ok g =>
    let t := s.team g.k
    let s1 := finishNext s g
    if g.run.acc then
      let others := ((readyAccess s1 t.core).filter fun p => p.1 != g.k).map fun p =>
        (p.1, ({ hdr := 0, off := 0, mark := 0 } : Where))
      if g.e.isEmpty || others.isEmpty then next s1
      else next (modThreadIn s1 g.k true 0 fun th => { th with wait := some (.yield others), waitPc := g.here })
    else
      let (core, pipe) := pipeOf t
      let hide := g.e.foldl (fun s l => s.modThread g.k l fun th => { th with wait := some (.yield []) }) s1
      let woken := wakePipe hide core pipe
      let gs := (pipeGroups woken core pipe).map fun q => (q.team, q.at_)
      next (g.e.foldl (fun s l => s.modThread g.k l fun th =>
        if th.status == .live then
          { th with wait := if gs.isEmpty then none else some (.yield gs), waitPc := g.here }
        else th) woken)

/-- Selection on a pipe that is free (R359). -/
def selectPipe (s : State) (core pipe : Nat) : State :=
  let s2 := visited s core pipe
  match selectGroup (pipeGroups s2 core pipe) with
  | none => s2
  | some g => startRun (modPipe s2 core pipe (passYield (g.team, g.at_))) g.team false g.at_ g.lanes core pipe

/-- The slot that comes first after `last` in ascending order round the slots. -/
def nextSlotAfter (last : Nat) : List (Nat × Nat) → Option (Nat × Nat)
  | [] => none
  | p :: r =>
    match nextSlotAfter last r with
    | none => some p
    | some q => if (p.2 + 63 - last % 64) % 64 < (q.2 + 63 - last % 64) % 64 then some p else some q

/-- Selection of the access unit of a core (R245). -/
def selectAccess (s : State) (core : Nat) : State :=
  let blank : Where := { hdr := 0, off := 0, mark := 0 }
  let s1 := modAccess s core (pruneYield ((readyAccess s core).map fun p => (p.1, blank)))
  match nextSlotAfter (s1.core core).accRot (readyAccess s1 core) with
  | none => s1
  | some (k, slot) =>
    let s2 := (modAccess s1 core (passYield (k, blank))).modCore core fun c => { c with accRot := slot }
    startRun s2 k true (whereOf 0 ((s2.team k).acc.getD {}).th) [0] core accessPipe

/-- RUN_SELECTION (R359): nothing happens on a pipe that has a run in progress. -/
def execRunSelection (core pipe : Nat) (s : State) : Host.Outcome State Fault Refusal :=
  if pipeBusy s core pipe then next s
  else next (if pipe = accessPipe then selectAccess s core else selectPipe s core pipe)

end Sys2Proof.Machine
end

