-- ==== Sys2Proof/Machine/Agents.lean ====
section
/-! DEFINITION. The steps of the agents as the state holds them while they wait: each is the meaning of its
instruction; and the passing of time (R418 to R420). -/

namespace Sys2Proof.Machine

/-- Runs a step that has waited. -/
def runEvent (e : Ev) (s : State) : Host.Outcome State Fault Refusal :=
  match e with
  | .runSelection core pipe => execRunSelection core pipe s
  | .loadDataReturn team lane op => execLoadDataReturn team lane op s
  | .storePerform team => execStorePerform team s
  | .pageTableWalk die ctx va => execPageTableWalk die ctx va s
  | .readMiss a line => execReadMiss a line s
  | .writeMiss a line => execWriteMiss a line s
  | .forwardedRequest owner req line => execForwardedRequest owner req line s
  | .tokenDataResponse a line t => execTokenDataResponse a line t s
  | .invalidation a req line => execInvalidation a req line s
  | .evictionNotice a line t => execEvictionNotice a line t s
  | .requestFailure a line => execRequestFailure a line s
  | .persistentRequest a line => execPersistentRequest a line s
  | .persistentActivation line => execPersistentActivation line s
  | .persistentDeactivation line => execPersistentDeactivation line s
  | .updateOnlyGrant a line op ty => execUpdateOnlyGrant a line op ty s
  | .updateOnlyEnd line => execUpdateOnlyEnd line s
  | .flushMarker src dst path => execFlushMarker src dst path s
  | .hostSnoop line => execHostSnoop line s
  | .asidFlushComplete asid => execAsidFlushComplete asid s
  | .rangeWalkComplete team lane op => execRangeWalkComplete team lane op s
  | .engineOpAccept team => execEngineOpAccept team s
  | .copyEngineTake core eng => execCopyEngineTake core eng s
  | .copyRow core eng => execCopyRow core eng s
  | .copyComplete core eng => execCopyComplete core eng s
  | .cbloadComplete team op => execCbloadComplete team op s
  | .matrixEngineSelect core => execMatrixEngineSelect core s
  | .matrixChunkLoad core => execMatrixChunkLoad core s
  | .matrixAccumulateStep core => execMatrixAccumulateStep core s
  | .matrixOutputStep core => execMatrixOutputStep core s
  | .accBankGrant core => execAccBankGrant core s
  | .accBankRelease core => execAccBankRelease core s
  | .parallaxRecompute part view block => execParallaxRecompute part view block s
  | .viewPublishMessage m => execViewPublishMessage m s
  | .accessStreamPoint team q => execAccessStreamPoint team q s
  | .affStPairStore team q lane => execAffStPairStore team q lane s
  | .userHandlerEntry team => execUserHandlerEntry team s
  | .mailboxPost core => execMailboxPost core s
  | .mailboxFullTimeout team lane => execMailboxFullTimeout team lane s
  | .teamtimeOverflow team => execTeamtimeOverflow team s
  | .deadlineReached team => execDeadlineReached team s
  | .owedTimerTrap team => execOwedTimerTrap team s
  | .sleepExpiry team lane => execSleepExpiry team lane s
  | .flareRaiseMessage r => execFlareRaiseMessage r s
  | .flareDelivery ctx => execFlareDelivery ctx s
  | .sectionRequestArrival r => execSectionRequestArrival r s
  | .sectionStart home => execSectionStart home s
  | .sectionResultArrival r => execSectionResultArrival r s
  | .sectionBudgetExpiry home => execSectionBudgetExpiry home s
  | .phaseRecordEnqueue crew => execPhaseRecordEnqueue crew s
  | .phaseResume part => execPhaseResume part s
  | .migrateMove team => execMigrateMove team s
  | .landingSlotMove team => execLandingSlotMove team s
  | .launchDoorbell vf tail => execLaunchDoorbell vf tail s
  | .launchQueueControl vf w => execLaunchQueueControl vf w s
  | .recordCapture vf => execRecordCapture vf s
  | .edgeSatisfied launch => execEdgeSatisfied launch s
  | .placeClusterGroup part => execPlaceClusterGroup part s
  | .launchEnd launch => execLaunchEnd launch s
  | .registerWrite vf off size val => execRegisterWrite vf off size val s
  | .flareWindowRaise vf off size val => execFlareWindowRaise vf off size val s
  | .cmdAssignPartition a => execCmdAssignPartition a s
  | .cmdBindFunction vf part ld => execCmdBindFunction vf part ld s
  | .cmdSetMeridianNumber n => execCmdSetMeridianNumber n s
  | .cmdQueuePair q => execCmdQueuePair q s
  | .cmdAdopt lds head => execCmdAdopt lds head s
  | .cmdReadCounters => execCmdReadCounters s
  | .cmdWriteFirmware image => execCmdWriteFirmware image s
  | .cmdReadHandover => execCmdReadHandover s
  | .cmdUnknown code => execCmdUnknown code s
  | .hostLinkDown head => execHostLinkDown head s
  | .cxlMemAccess a => execCxlMemAccess a s
  | .peerAccess a => execPeerAccess a s
  | .d2dLinkFailure die => execD2dLinkFailure die s
  | .d2dLinkTraining die failed => execD2dLinkTraining die failed s
  | .meridianFlitGroup port tagOk => execMeridianFlitGroup port tagOk s
  | .meridianKeyRotation port => execMeridianKeyRotation port s
  | .put p => execPut p s
  | .getRequest p => execGetRequest p s
  | .getResponse p => execGetResponse p s
  | .atomRequest p => execAtomRequest p s
  | .atomResponse p => execAtomResponse p s
  | .ack p => execAck p s
  | .nak p => execNak p s
  | .credit p => execCredit p s
  | .rmaRetransmitTimeout qpn => execRmaRetransmitTimeout qpn s
  | .qpContextFetch qpn => execQpContextFetch qpn s
  | .keyRevokeComplete part slot => execKeyRevokeComplete part slot s
  | .rmaComplete team => execRmaComplete team s
  | .getVersion => execGetVersion s
  | .getCapabilities => execGetCapabilities s
  | .negotiateAlgorithms n => execNegotiateAlgorithms n s
  | .getDigests => execGetDigests s
  | .getCertificate => execGetCertificate s
  | .challenge nonce => execChallenge nonce s
  | .getMeasurements index => execGetMeasurements index s
  | .keyExchange => execKeyExchange s
  | .finish ok => execFinish ok s
  | .endSession => execEndSession s
  | .tdispMessage vf m => execTdispMessage vf m s
  | .ideKeyManagement m => execIdeKeyManagement m s
  | .boot r => execBoot r s
  | .lifetimeCounterSave => execLifetimeCounterSave s
  | .orderlyShutdown => execOrderlyShutdown s
  | .powerLoss => execPowerLoss s
  | .powerLimit on => execPowerLimit on s
  | .machineCheck ctx code => execMachineCheck ctx code s
  | .virtualFunctionEnable vf on => execVirtualFunctionEnable vf on s
  | .supervisorFirmwareRestart core => execSupervisorFirmwareRestart core s
  | .meridianLinkLoss port => execMeridianLinkLoss port s
  | .hostLinkTraining head width rate => execHostLinkTraining head width rate s
  | .flareSendOutcome team lane op status => execFlareSendOutcome team lane op status s
  | .pageRequestResponse core ticket ok => execPageRequestResponse core ticket ok s
  | .remoteViewBlockClear part view block => execRemoteViewBlockClear part view block s
  | .viewQueueOperation team => execViewQueueOperation team s

/-! ### Time (R418, R419, R420, R385) -/

/-- TEAMTIME after `n` cycles: bit 63 changing from 0 to 1 owes the TEAM_TIMER trap (R419). -/
def countTeam (s : State) (n : Nat) (k : Nat) : State :=
  let t := s.team k
  if !t.resident then s
  else
    let tt := t.teamtime + BitVec.ofNat 64 n
    let s1 := s.modTeam k fun t => { t with teamtime := tt }
    let s2 := if !t.teamtime.getLsbD 63 && tt.getLsbD 63 then teamtimeOverflow s1 k else s1
    deadlineReached s2 k

/-- Lodestar cycles of a section since its SENTRY, without those in which it stands stopped for a supervisor team (R384, R385). -/
def countSection (n : Nat) (t : Team) : Team :=
  if t.sentry && (t.thread 0).status != .parked then { t with sectionCycles := t.sectionCycles + n } else t

/-- The homes whose sections have used up their budget. -/
def spentHomes (s : State) : List Nat :=
  (s.teams.filter fun kt => kt.2.sentry && decide (2 ^ 24 ≤ kt.2.sectionCycles) && kt.2.sectionEnd.isNone).map fun kt => kt.2.core

/-- A corrected soft error of a structure beside DRAM: the L2, bank memory, a register file, a scratchpad, a private cache (R455). -/
def countSoft (i : Nat) (c : Counters) : Counters := { c with soft := setAt c.soft i (getAt 0 c.soft i + 1) }

/-- A temperature sample of a die falls into a bin of its histogram (R455). -/
def countTemp (die bin : Nat) (c : Counters) : Counters :=
  let h := getAt [] c.temps die
  let h1 := h ++ List.replicate (bin + 1 - h.length) 0
  { c with temps := setAt c.temps die (setAt h1 bin (getAt 0 h1 bin + 1)) }

/-- Cycles of an hour, and of the 10 minutes between two saves of the counters (R22, R455). -/
def hourCycles : Nat := 3600 * secondCycles
def saveCycles : Nat := 600 * secondCycles

/-- Time since the start of the device is counted in hours, the counters are saved every 10 minutes, and keys that have become
due are replaced (R437, R455). -/
def elapsed (s : State) (before : Nat) : State :=
  let now := s.cycles.toNat
  let s1 := s.modDev fun d => { d with counters := { d.counters with hours := d.counters.hours + (now / hourCycles - before / hourCycles) } }
  let s2 := if now / saveCycles = before / saveCycles then s1 else s1.pushOnce .lifetimeCounterSave
  (portsDue s2).foldl (fun s p => s.pushOnce (.meridianKeyRotation p)) s2

/-- A physical event may strike: an error, a temperature sample, a voltage excursion, the replacement of an Ethernet lane or its
retraining. Whether, where and how is free (R119, R139, R455; log 9). -/
def strike (s : State) : State :=
  let n := Config.freeNat 58 s.tick
  let at_ := Config.freeNat 59 s.tick
  match n % 9 with
  | 1 => { s with upsets := aset s.upsets (at_ % 2 ^ 32) .corrected }
  | 2 => { s with upsets := aset s.upsets (at_ % 2 ^ 32) .uncorrectable }
  | 3 => { s with upsets := aset s.upsets (at_ % 2 ^ 32) .tag }
  | 4 => { s with bankUpsets := (0x8000000000 / 8 + at_ % 2 ^ 25) :: s.bankUpsets }
  | 5 => s.modDev fun d => { d with counters := countSoft (at_ % 5 + 1) d.counters }
  | 6 => s.modDev fun d => { d with counters := countTemp (at_ % 4) (at_ / 4 % 256) d.counters }
  | 7 => s.modDev fun d => { d with counters := { d.counters with excursions := d.counters.excursions + 1 } }
  | 8 => countLink s 3 1
  | _ => s

/-- Cycles pass: one and a free number more, and a free number of Lodestar cycles (log 7). -/
def clock (s : State) : State :=
  let n := 1 + Config.freeCycles (2 * s.tick)
  let m := 1 + Config.freeCycles (2 * s.tick + 1)
  let s1 : State :=
    { strike s with
      cycles := s.cycles + BitVec.ofNat 64 n
      teams := s.teams.map fun kt => (kt.1, countSection m kt.2) }
  let s2 := elapsed ((s1.teams.map (·.1)).foldl (fun s k => countTeam s n k) s1) s.cycles.toNat
  (spentHomes s2).foldl (fun s h => s.pushOnce (.sectionBudgetExpiry h)) s2

/-! ### The run of a word (R26, R29) -/

/-- The run at a place belongs to a team of a crew that a FUT.LD of another team has frozen: nothing of it issues until that
decision is made (R392). -/
def frozenOut (s : State) (idx : Nat) : Bool :=
  match runAt s idx with
  | none => false
  | some r =>
    match (s.team r.team).crew with
    | none => false
    | some c => (s.crew c).frozen.any fun k => k != r.team

/-- The outcome of a start that nothing has forced is free (log 5). -/
def freeBoot (s : State) : BootOutcome :=
  if Config.freeNat 25 s.freeCtr % 2 = 0 then .success
  else .failure (Config.freeNat 25 (s.freeCtr + 1) % 6 + 1) (Config.freeNat 25 (s.freeCtr + 2) % 8)

/-- Takes the element of a list at a position out of it. -/
def takeAt {α : Type} : List α → Nat → Option (α × List α)
  | [], _ => none
  | x :: r, 0 => some (x, r)
  | x :: r, n + 1 => (takeAt r n).map fun p => (p.1, x :: p.2)

/-- The pipes that have a team, and the access units of cores with an access context. -/
def pipesInUse (s : State) : List (Nat × Nat) :=
  s.teams.flatMap fun kt => pipeOf kt.2 :: (if kt.2.acc.isSome then [(kt.2.core, accessPipe)] else [])

/-- A header of a run of one instruction of an opcode. -/
def soloHeader (opc : Nat) : Word := BitVec.ofNat 32 (2 ^ 28 + (homeClass opc).getD 0 * 2 ^ 25 + 2 ^ 24)

/-- Bytes of a word at an address. -/
def putWord (m : Mem) (a : Nat) (w : Nat) : Mem := m.write a (leBytes 4 w)

/-- Page tables that map the first GiB of virtual addresses onto the first GiB of DRAM: two levels of tables above a
leaf of level 2 with every permission (R90, R91). -/
def identityTables (m : Mem) : Mem :=
  let nonLeaf := fun (f : Nat) => leBytes 8 (f * 4096 + 1)
  ((m.write 0x1000 (nonLeaf 2)).write 0x2000 (nonLeaf 3)).write 0x3000 (leBytes 8 0x1B)

/-- Where the model places a word to run. -/
def soloAddr : Nat := 0x10000

/-- A team for one run: one thread with 120 registers, all zero, and an access context. -/
def soloTeam (kind : TeamKind) : Team :=
  let th : Thread :=
    { v := List.replicate 120 0, p := List.replicate 8 false, dc := List.replicate 8 0, pc := mkResume (BitVec.ofNat 64 soloAddr) 0
      inq := List.replicate 4 [], outq := List.replicate 4 [], addrq := List.replicate 4 [] }
  { kind := kind, core := 0, slot := if kind == .supervisor then Config.supervisorSlot else 0, alloc := 120
    threads := [th], s := List.replicate 64 0, joins := List.replicate 16 (0, 0)
    bars := List.replicate 16 { gen := 0, arr := 0, exp := 0 }, engq := List.replicate 7 {}
    acc := some ({ s := List.replicate 64 0, th := { th with v := [], inq := [], outq := [], addrq := [] }, loops := List.replicate 4 (0, 0) } : Access)
    xrec := some { root := 1 } }

/-- A device that has started, with the words of one instruction in memory behind a header, one team, and the run that
comes to them. -/
def placeWords (s : State) (w0 w1 : Nat) : State :=
  let opc := fld w0 25 7
  let acc := opc == 0x3D && decide (fld w1 0 4 < 3)
  let kind : TeamKind := if opc == 0x7D then .supervisor else .user
  let k := s.serial
  let m := putWord (putWord (putWord (identityTables s.mem) soloAddr (soloHeader opc).toNat) (soloAddr + 4) w0) (soloAddr + 8) w1
  let r : Run :=
    { team := k, acc := acc, lanes := [0], core := 0, pipe := if acc then accessPipe else (soloTeam kind).pipe
      hdrAddr := BitVec.ofNat 64 soloAddr, hdr := 0, words := [], idx := 0, off := 1, count := 0, needHdr := true }
  { s with
    mem := m, serial := k + 1, teams := s.teams ++ [(k, soloTeam kind)], runs := r :: s.runs, turns := [.issue 0]
    dev := { s.dev with started := true } }

end Sys2Proof.Machine
end

