-- ==== Sys2Proof/Machine/Lanes.lean ====
section
/-! DEFINITION. Moves and lane operations (R256, R261 to R264), and BSCALE (R313). -/

namespace Sys2Proof.Machine

/-- An instruction that is collective over E, the executing threads (R261): every source is read for each of
them, a thread that traps leaves E before the result is formed, and `res` gives the words each remaining
thread writes; a uniform variant writes the words of the lowest one once (R264). -/
def collectOp {α : Type} (s : State) (i : Instr) (f : Fields) (uni : Bool) (rd : LCtx → LaneM α)
    (res : List (Nat × α) → Nat → α → List Word) : Host.Outcome State Fault Refusal :=
  let sh := i.shape
  let regs := srcRegs sh.a f.a ++ srcRegs sh.b f.b ++ srcRegs sh.c f.c ++ dstRegs uni sh.d f.dst
  match prologue s f (fun st => opChecks st sh f) uni regs false with
  | .error o => o
  | .ok g =>
    let trial := fun (L : LCtx) => do
      let a ← rd L
      let th ← getTh
      if uni then return a
      else do
        writeDst L sh.d f.dst [0, 0]
        modTh fun _ => th
        return a
    let rs := g.e.map fun l => (l, g.runLane s trial l)
    if anyHold rs then waitLanes s g (holdsOf rs)
    else
      let oks := oksOf rs
      let vals : List (Nat × α) := oks.map fun p => (p.1, p.2.1)
      let traps := trapsOf g.here rs
      if uni then
        let s1 :=
          match vals with
          | [] => s
          | (m, a) :: _ => modUniforms s g.k g.run.acc fun us => setUniform us f.dst.toNat (res vals m a)
        next (complete s1 g (oks.map fun p => (p.1, p.2.2)) traps)
      else
        let ths := oks.map fun p =>
          match writeDst (g.lctx s p.1) sh.d f.dst (res vals p.1 p.2.1) p.2.2 with
          | .ok ((), th) => (p.1, th)
          | .error _ => (p.1, p.2.2)
        next (pairEvents (complete s g ths traps) g.k sh.d f.dst (oks.map (·.1)))

/-- What a movement form reads of a lane: source 0, the naming source 1, and the fill. -/
structure MoveSrc where
  a : DWord
  b : DWord
  c : DWord
  deriving DecidableEq, Repr

def readMove (f : Fields) (w : Width) (L : LCtx) : LaneM MoveSrc := do
  let a ← srcA L .int w f
  let b ← srcB L .int .w32 f
  let c ← srcC L .int w f
  return { a := a, b := b, c := c }

/-- The value a lane draws from lane `j`, or its own fill (R262). -/
def drawFrom (vals : List (Nat × MoveSrc)) (j : Int) (fill : DWord) : DWord :=
  match vals.find? fun p => decide ((p.1 : Int) = j) with
  | some p => p.2.a
  | none => fill

/-- PICK, ROT, SLIDE and SWAP with the lane each thread names (R262). -/
def moveOp (i : Instr) (x : XOps) (name : Nat → Nat → Int) (s : State) : Host.Outcome State Fault Refusal :=
  let f := ofX x
  collectOp s i f false (readMove f x.ty.width) fun vals l m =>
    tyWords x.ty (drawFrom vals (name l m.b.toNat) m.c)

/-- Lane that ROT names (R262). -/
def rotLane (l b : Nat) : Int :=
  let g := 2 ^ min (fld b 8 3) 5
  let base := l / g * g
  ((base + (l - base + fld b 0 5) % g : Nat) : Int)

/-- Reads source 0 as 32 bits. -/
def readA32 (f : Fields) (L : LCtx) : LaneM Word := do
  let a ← srcA L .int .w32 f
  return a.lo

/-- Mask of the lanes whose value satisfies a condition. -/
def maskWhere {α : Type} (vals : List (Nat × α)) (p : α → Bool) : Word :=
  vals.foldl (fun m v => if p v.2 then m ||| bit32 v.1 else m) 0

/-- POLL forms: one word from the values of E (R263). -/
def pollOp (i : Instr) (u : Bool) (x : XOps) (v : List (Nat × Word) → Word) (s : State) :
    Host.Outcome State Fault Refusal :=
  let f := ofX x
  collectOp s i f u (readA32 f) fun vals _ _ => [v vals]

/-- FOLD forms: an operation over the values of E (R263). -/
def foldOp (i : Instr) (u : Bool) (x : XOps) (op : Word → Word → Word) (s : State) :
    Host.Outcome State Fault Refusal :=
  let f := ofX x
  collectOp s i f u (readA32 f) fun vals _ _ =>
    match vals with
    | [] => [0]
    | (_, a) :: r => [r.foldl (fun t p => op t p.2) a]

/-- The smaller or larger word at a type (R263). -/
def minWord (ty : Ty) (a b : Word) : Word := if intVal ty b.zext < intVal ty a.zext then b else a
def maxWord (ty : Ty) (a b : Word) : Word := if intVal ty a.zext < intVal ty b.zext then b else a

/-- Bytes of SPLICE (R262). -/
def spliceVal (a b c : Word) : Word :=
  let y : Word := DWord.lo (DWord.ofPair b a >>> (8 * fld c.toNat 0 3))
  (List.range 4).foldl (fun (y : Word) i => if fld c.toNat (8 + i) 1 = 1 then y &&& ~~~((0xFF : Word) <<< (8 * i)) else y) y

/-! ### Meanings -/

/-- MOV (R256). -/
def execMov (o : AOps) (s : State) : Host.Outcome State Fault Refusal :=
  valueOp s (.mov o) (ofA o) false fun L => do
    let a ← srcA L .int .w32 (ofA o)
    return [a.lo]

/-- MOV, uniform variant (R256, R48). -/
def execMovUniform (o : AOps) (s : State) : Host.Outcome State Fault Refusal :=
  valueOp s (.movUniform o) (ofA o) true fun L => do
    let a ← srcA L .int .w32 (ofA o)
    return [a.lo]

/-- MOVI (R256). -/
def execMovi (u : Bool) (o : LOps) (s : State) : Host.Outcome State Fault Refusal :=
  valueOp s (.movi u o) (ofL o) u fun _ => return [o.lit]

/-- PICK (R262). -/
def execPick (x : XOps) (s : State) : Host.Outcome State Fault Refusal :=
  moveOp (.pick x) x (fun _ b => (b : Int)) s

/-- ROT (R262). -/
def execRot (x : XOps) (s : State) : Host.Outcome State Fault Refusal :=
  moveOp (.rot x) x rotLane s

/-- SLIDE (R262). -/
def execSlide (x : XOps) (s : State) : Host.Outcome State Fault Refusal :=
  moveOp (.slide x) x (fun l b => (l : Int) - intVal .s32 (BitVec.ofNat 64 b)) s

/-- SWAP (R262). -/
def execSwap (x : XOps) (s : State) : Host.Outcome State Fault Refusal :=
  moveOp (.swap x) x (fun l b => ((Nat.xor l (fld b 0 5) : Nat) : Int)) s

/-- POLL.all (R263, R264). -/
def execPollAll (u : Bool) (x : XOps) (s : State) : Host.Outcome State Fault Refusal :=
  pollOp (.pollAll u x) u x (fun vals => if vals.all fun p => p.2 != 0 then 1 else 0) s

/-- POLL.any (R263, R264). -/
def execPollAny (u : Bool) (x : XOps) (s : State) : Host.Outcome State Fault Refusal :=
  pollOp (.pollAny u x) u x (fun vals => if vals.any fun p => p.2 != 0 then 1 else 0) s

/-- POLL.mask (R263). -/
def execPollMask (u : Bool) (x : XOps) (s : State) : Host.Outcome State Fault Refusal :=
  pollOp (.pollMask u x) u x (fun vals => maskWhere vals fun w => w != 0) s

/-- FIRST (R263); its uniform variant writes the lowest lane (R264). -/
def execFirst (u : Bool) (x : XOps) (s : State) : Host.Outcome State Fault Refusal :=
  collectOp s (.first u x) (ofX x) u (fun _ => (return () : LaneM Unit)) fun vals l _ =>
    let low := (vals.head?.map (·.1)).getD 0
    [if u then BitVec.ofNat 32 low else if l = low then 1 else 0]

/-- SPREAD (R262): every thread takes the value of the lane that the lowest lane names. -/
def execSpread (u : Bool) (x : XOps) (s : State) : Host.Outcome State Fault Refusal :=
  let f := ofX x
  collectOp s (.spread u x) f u (readMove f x.ty.width) fun vals _ _ =>
    match vals with
    | [] => []
    | (_, m) :: _ => tyWords x.ty (drawFrom vals (m.b.toNat : Int) m.c)

/-- PEERS (R262). -/
def execPeers (u : Bool) (x : XOps) (s : State) : Host.Outcome State Fault Refusal :=
  let f := ofX x
  collectOp s (.peers u x) f u (fun L => srcA L .int x.ty.width f) fun vals _ a =>
    [maskWhere vals fun b => b == a]

/-- SPLICE (R262). -/
def execSplice (x : XOps) (s : State) : Host.Outcome State Fault Refusal :=
  let f := ofX x
  valueOp s (.splice x) f false fun L => do
    let a ← srcA L .int .w32 f
    let b ← srcB L .int .w32 f
    let c ← srcC L .int .w32 f
    return [spliceVal a.lo b.lo c.lo]

/-- FOLD.add (R263). -/
def execFoldAdd (u : Bool) (x : XOps) (s : State) : Host.Outcome State Fault Refusal :=
  foldOp (.foldAdd u x) u x (fun a b => a + b) s

/-- FOLD.min (R263). -/
def execFoldMin (u : Bool) (x : XOps) (s : State) : Host.Outcome State Fault Refusal :=
  foldOp (.foldMin u x) u x (minWord x.ty) s

/-- FOLD.max (R263). -/
def execFoldMax (u : Bool) (x : XOps) (s : State) : Host.Outcome State Fault Refusal :=
  foldOp (.foldMax u x) u x (maxWord x.ty) s

/-- FOLD.and (R263). -/
def execFoldAnd (u : Bool) (x : XOps) (s : State) : Host.Outcome State Fault Refusal :=
  foldOp (.foldAnd u x) u x (fun a b => a &&& b) s

/-- FOLD.or (R263). -/
def execFoldOr (u : Bool) (x : XOps) (s : State) : Host.Outcome State Fault Refusal :=
  foldOp (.foldOr u x) u x (fun a b => a ||| b) s

/-- BSCALE (R313): one scale over the executing threads. -/
def execBscale (x : XOps) (s : State) : Host.Outcome State Fault Refusal :=
  let f := ofX x
  collectOp s (.bscale x) f false (fun L => srcA L (.fp .f32) .w32 f) fun vals _ _ =>
    [BitVec.ofNat 32 (scaleOf x.ty (vals.map fun p => (fpOf .f32).decode (patOf .f32 p.2)))]

end Sys2Proof.Machine
end

