-- ==== Sys2Proof/Machine/Dispatch.lean ====
section
/-! DEFINITION. The meaning of each instruction, one arm per constructor. -/

namespace Sys2Proof.Machine

def exec (i : Instr) (s : State) : Host.Outcome State Fault Refusal :=
  match i with
  | .iaddA o => Sys2Proof.Machine.execIaddA o s
  | .iaddB o => Sys2Proof.Machine.execIaddB o s
  | .iaddL o => Sys2Proof.Machine.execIaddL o s
  | .isubA o => Sys2Proof.Machine.execIsubA o s
  | .imulA o => Sys2Proof.Machine.execImulA o s
  | .andA o => Sys2Proof.Machine.execAndA o s
  | .orA o => Sys2Proof.Machine.execOrA o s
  | .xorA o => Sys2Proof.Machine.execXorA o s
  | .andL o => Sys2Proof.Machine.execAndL o s
  | .shlB o => Sys2Proof.Machine.execShlB o s
  | .shrB o => Sys2Proof.Machine.execShrB o s
  | .shaB o => Sys2Proof.Machine.execShaB o s
  | .iminA o => Sys2Proof.Machine.execIminA o s
  | .imaxA o => Sys2Proof.Machine.execImaxA o s
  | .iaddS64A o => Sys2Proof.Machine.execIaddS64A o s
  | .iaddX u x => Sys2Proof.Machine.execIaddX u x s
  | .isubX u x => Sys2Proof.Machine.execIsubX u x s
  | .imulX u x => Sys2Proof.Machine.execImulX u x s
  | .imulh u x => Sys2Proof.Machine.execImulh u x s
  | .imad u x => Sys2Proof.Machine.execImad u x s
  | .idiv u x => Sys2Proof.Machine.execIdiv u x s
  | .irem u x => Sys2Proof.Machine.execIrem u x s
  | .iminX u x => Sys2Proof.Machine.execIminX u x s
  | .imaxX u x => Sys2Proof.Machine.execImaxX u x s
  | .iabs u x => Sys2Proof.Machine.execIabs u x s
  | .ineg u x => Sys2Proof.Machine.execIneg u x s
  | .iaddc u x => Sys2Proof.Machine.execIaddc u x s
  | .isat u x => Sys2Proof.Machine.execIsat u x s
  | .lea u x => Sys2Proof.Machine.execLea u x s
  | .andX u x => Sys2Proof.Machine.execAndX u x s
  | .orX u x => Sys2Proof.Machine.execOrX u x s
  | .xorX u x => Sys2Proof.Machine.execXorX u x s
  | .andn u x => Sys2Proof.Machine.execAndn u x s
  | .not u x => Sys2Proof.Machine.execNot u x s
  | .shlX u x => Sys2Proof.Machine.execShlX u x s
  | .shrX u x => Sys2Proof.Machine.execShrX u x s
  | .shaX u x => Sys2Proof.Machine.execShaX u x s
  | .rotl u x => Sys2Proof.Machine.execRotl u x s
  | .bfx u x => Sys2Proof.Machine.execBfx u x s
  | .bfi u x => Sys2Proof.Machine.execBfi u x s
  | .popc u x => Sys2Proof.Machine.execPopc u x s
  | .clz u x => Sys2Proof.Machine.execClz u x s
  | .ctz u x => Sys2Proof.Machine.execCtz u x s
  | .brev u x => Sys2Proof.Machine.execBrev u x s
  | .sel u x => Sys2Proof.Machine.execSel u x s
  | .iset u c x => Sys2Proof.Machine.execIset u c x s
  | .icmp c x => Sys2Proof.Machine.execIcmp c x s
  | .faddA o => Sys2Proof.Machine.execFaddA o s
  | .fsubA o => Sys2Proof.Machine.execFsubA o s
  | .fmulA o => Sys2Proof.Machine.execFmulA o s
  | .fminA o => Sys2Proof.Machine.execFminA o s
  | .fmaxA o => Sys2Proof.Machine.execFmaxA o s
  | .faddL o => Sys2Proof.Machine.execFaddL o s
  | .fmulL o => Sys2Proof.Machine.execFmulL o s
  | .faddX u x => Sys2Proof.Machine.execFaddX u x s
  | .fsubX u x => Sys2Proof.Machine.execFsubX u x s
  | .fmulX u x => Sys2Proof.Machine.execFmulX u x s
  | .ffma u x => Sys2Proof.Machine.execFfma u x s
  | .fminX u x => Sys2Proof.Machine.execFminX u x s
  | .fmaxX u x => Sys2Proof.Machine.execFmaxX u x s
  | .fdiv u x => Sys2Proof.Machine.execFdiv u x s
  | .fscale u x => Sys2Proof.Machine.execFscale u x s
  | .frnd u x => Sys2Proof.Machine.execFrnd u x s
  | .fsat u x => Sys2Proof.Machine.execFsat u x s
  | .fsgnCpy u x => Sys2Proof.Machine.execFsgnCpy u x s
  | .fsgnNeg u x => Sys2Proof.Machine.execFsgnNeg u x s
  | .fsgnXor u x => Sys2Proof.Machine.execFsgnXor u x s
  | .frcp u x => Sys2Proof.Machine.execFrcp u x s
  | .frsq u x => Sys2Proof.Machine.execFrsq u x s
  | .fsqrt u x => Sys2Proof.Machine.execFsqrt u x s
  | .fexp2 u x => Sys2Proof.Machine.execFexp2 u x s
  | .flog2 u x => Sys2Proof.Machine.execFlog2 u x s
  | .fsin u x => Sys2Proof.Machine.execFsin u x s
  | .fcos u x => Sys2Proof.Machine.execFcos u x s
  | .ftanh u x => Sys2Proof.Machine.execFtanh u x s
  | .frexp u x => Sys2Proof.Machine.execFrexp u x s
  | .fclass u x => Sys2Proof.Machine.execFclass u x s
  | .fset u c x => Sys2Proof.Machine.execFset u c x s
  | .fsetPred c x => Sys2Proof.Machine.execFsetPred c x s
  | .fcvt f x => Sys2Proof.Machine.execFcvt f x s
  | .icvt d x => Sys2Proof.Machine.execIcvt d x s
  | .dot2 x => Sys2Proof.Machine.execDot2 x s
  | .dot4 x => Sys2Proof.Machine.execDot4 x s
  | .dot8 x => Sys2Proof.Machine.execDot8 x s
  | .padd x => Sys2Proof.Machine.execPadd x s
  | .pmul x => Sys2Proof.Machine.execPmul x s
  | .pfma x => Sys2Proof.Machine.execPfma x s
  | .pcvt f x => Sys2Proof.Machine.execPcvt f x s
  | .qnt x => Sys2Proof.Machine.execQnt x s
  | .dqnt x => Sys2Proof.Machine.execDqnt x s
  | .bscale x => Sys2Proof.Machine.execBscale x s
  | .mov o => Sys2Proof.Machine.execMov o s
  | .movUniform o => Sys2Proof.Machine.execMovUniform o s
  | .movi u o => Sys2Proof.Machine.execMovi u o s
  | .movs u x => Sys2Proof.Machine.execMovs u x s
  | .sets x => Sys2Proof.Machine.execSets x s
  | .pick x => Sys2Proof.Machine.execPick x s
  | .rot x => Sys2Proof.Machine.execRot x s
  | .slide x => Sys2Proof.Machine.execSlide x s
  | .swap x => Sys2Proof.Machine.execSwap x s
  | .pollAll u x => Sys2Proof.Machine.execPollAll u x s
  | .pollAny u x => Sys2Proof.Machine.execPollAny u x s
  | .pollMask u x => Sys2Proof.Machine.execPollMask u x s
  | .first u x => Sys2Proof.Machine.execFirst u x s
  | .spread u x => Sys2Proof.Machine.execSpread u x s
  | .peers u x => Sys2Proof.Machine.execPeers u x s
  | .splice x => Sys2Proof.Machine.execSplice x s
  | .foldAdd u x => Sys2Proof.Machine.execFoldAdd u x s
  | .foldMin u x => Sys2Proof.Machine.execFoldMin u x s
  | .foldMax u x => Sys2Proof.Machine.execFoldMax u x s
  | .foldAnd u x => Sys2Proof.Machine.execFoldAnd u x s
  | .foldOr u x => Sys2Proof.Machine.execFoldOr u x s
  | .affLoop x => Sys2Proof.Machine.execAffLoop x s
  | .affLd x => Sys2Proof.Machine.execAffLd x s
  | .affSt x => Sys2Proof.Machine.execAffSt x s
  | .affFeed x => Sys2Proof.Machine.execAffFeed x s
  | .ld m => Sys2Proof.Machine.execLd m s
  | .st m => Sys2Proof.Machine.execSt m s
  | .ldro m => Sys2Proof.Machine.execLdro m s
  | .lds m => Sys2Proof.Machine.execLds m s
  | .sts m => Sys2Proof.Machine.execSts m s
  | .atom op x => Sys2Proof.Machine.execAtom op x s
  | .red op x => Sys2Proof.Machine.execRed op x s
  | .atoms op x => Sys2Proof.Machine.execAtoms op x s
  | .bankop op x => Sys2Proof.Machine.execBankop op x s
  | .fence x => Sys2Proof.Machine.execFence x s
  | .fenceRo x => Sys2Proof.Machine.execFenceRo x s
  | .flushRange x => Sys2Proof.Machine.execFlushRange x s
  | .invRange x => Sys2Proof.Machine.execInvRange x s
  | .cleanRange x => Sys2Proof.Machine.execCleanRange x s
  | .pref m => Sys2Proof.Machine.execPref m s
  | .ldmon m => Sys2Proof.Machine.execLdmon m s
  | .waitmon x => Sys2Proof.Machine.execWaitmon x s
  | .resHint x => Sys2Proof.Machine.execResHint x s
  | .resEvict x => Sys2Proof.Machine.execResEvict x s
  | .cbload x => Sys2Proof.Machine.execCbload x s
  | .cpyTile x => Sys2Proof.Machine.execCpyTile x s
  | .cpyGath x => Sys2Proof.Machine.execCpyGath x s
  | .cpyScat x => Sys2Proof.Machine.execCpyScat x s
  | .cpyMcast x => Sys2Proof.Machine.execCpyMcast x s
  | .cpyQnt x => Sys2Proof.Machine.execCpyQnt x s
  | .cpyFill x => Sys2Proof.Machine.execCpyFill x s
  | .qfence x => Sys2Proof.Machine.execQfence x s
  | .qwait x => Sys2Proof.Machine.execQwait x s
  | .viewReg x => Sys2Proof.Machine.execViewReg x s
  | .viewDrop x => Sys2Proof.Machine.execViewDrop x s
  | .viewFence x => Sys2Proof.Machine.execViewFence x s
  | .viewStat x => Sys2Proof.Machine.execViewStat x s
  | .rmaPut x => Sys2Proof.Machine.execRmaPut x s
  | .rmaGet x => Sys2Proof.Machine.execRmaGet x s
  | .rmaAtom x => Sys2Proof.Machine.execRmaAtom x s
  | .rmaWait x => Sys2Proof.Machine.execRmaWait x s
  | .rmaKey x => Sys2Proof.Machine.execRmaKey x s
  | .mxWload x => Sys2Proof.Machine.execMxWload x s
  | .mxIssue x => Sys2Proof.Machine.execMxIssue x s
  | .mxTest x => Sys2Proof.Machine.execMxTest x s
  | .mxProg x => Sys2Proof.Machine.execMxProg x s
  | .mxAbort x => Sys2Proof.Machine.execMxAbort x s
  | .accAlloc x => Sys2Proof.Machine.execAccAlloc x s
  | .accFree x => Sys2Proof.Machine.execAccFree x s
  | .accLd x => Sys2Proof.Machine.execAccLd x s
  | .accSt x => Sys2Proof.Machine.execAccSt x s
  | .accZero x => Sys2Proof.Machine.execAccZero x s
  | .accCvt x => Sys2Proof.Machine.execAccCvt x s
  | .spcCmp x => Sys2Proof.Machine.execSpcCmp x s
  | .spcMeta x => Sys2Proof.Machine.execSpcMeta x s
  | .bra o => Sys2Proof.Machine.execBra o s
  | .brx x => Sys2Proof.Machine.execBrx x s
  | .call o => Sys2Proof.Machine.execCall o s
  | .callx x => Sys2Proof.Machine.execCallx x s
  | .ret => Sys2Proof.Machine.execRet s
  | .rjoinSet x => Sys2Proof.Machine.execRjoinSet x s
  | .rjoinWait x => Sys2Proof.Machine.execRjoinWait x s
  | .rjoinLeave x => Sys2Proof.Machine.execRjoinLeave x s
  | .yield x => Sys2Proof.Machine.execYield x s
  | .exit x => Sys2Proof.Machine.execExit x s
  | .nop x => Sys2Proof.Machine.execNop x s
  | .sleep x => Sys2Proof.Machine.execSleep x s
  | .migrate x => Sys2Proof.Machine.execMigrate x s
  | .launch x => Sys2Proof.Machine.execLaunch x s
  | .barArrive x => Sys2Proof.Machine.execBarArrive x s
  | .barWait x => Sys2Proof.Machine.execBarWait x s
  | .barSync x => Sys2Proof.Machine.execBarSync x s
  | .tokenWait x => Sys2Proof.Machine.execTokenWait x s
  | .tokenTest x => Sys2Proof.Machine.execTokenTest x s
  | .ship n x => Sys2Proof.Machine.execShip n x s
  | .shipA n x => Sys2Proof.Machine.execShipA n x s
  | .sentry x => Sys2Proof.Machine.execSentry x s
  | .sret x => Sys2Proof.Machine.execSret x s
  | .futLd x => Sys2Proof.Machine.execFutLd x s
  | .futSt x => Sys2Proof.Machine.execFutSt x s
  | .phaseEnd x => Sys2Proof.Machine.execPhaseEnd x s
  | .quiet x => Sys2Proof.Machine.execQuiet x s
  | .flareSend x => Sys2Proof.Machine.execFlareSend x s
  | .flareRet x => Sys2Proof.Machine.execFlareRet x s
  | .flareMask x => Sys2Proof.Machine.execFlareMask x s
  | .flareRead x => Sys2Proof.Machine.execFlareRead x s
  | .flareAck x => Sys2Proof.Machine.execFlareAck x s
  | .trap x => Sys2Proof.Machine.execTrap x s
  | .tret x => Sys2Proof.Machine.execTret x s
  | .svc x => Sys2Proof.Machine.execSvc x s
  | .bkpt x => Sys2Proof.Machine.execBkpt x s
  | .ctxSave x => Sys2Proof.Machine.execCtxSave x s
  | .ctxLoad x => Sys2Proof.Machine.execCtxLoad x s
  | .asidRetire x => Sys2Proof.Machine.execAsidRetire x s
  | .tlbProbe x => Sys2Proof.Machine.execTlbProbe x s
  | .pageScan x => Sys2Proof.Machine.execPageScan x s
  | .mboxTake x => Sys2Proof.Machine.execMboxTake x s
  | .mboxPut x => Sys2Proof.Machine.execMboxPut x s
  | .halt x => Sys2Proof.Machine.execHalt x s
  | .runSelection core pipe => Sys2Proof.Machine.execRunSelection core pipe s
  | .loadDataReturn team lane op => Sys2Proof.Machine.execLoadDataReturn team lane op s
  | .storePerform team => Sys2Proof.Machine.execStorePerform team s
  | .pageTableWalk die ctx va => Sys2Proof.Machine.execPageTableWalk die ctx va s
  | .readMiss a line => Sys2Proof.Machine.execReadMiss a line s
  | .writeMiss a line => Sys2Proof.Machine.execWriteMiss a line s
  | .forwardedRequest owner req line => Sys2Proof.Machine.execForwardedRequest owner req line s
  | .tokenDataResponse a line t => Sys2Proof.Machine.execTokenDataResponse a line t s
  | .invalidation a req line => Sys2Proof.Machine.execInvalidation a req line s
  | .evictionNotice a line t => Sys2Proof.Machine.execEvictionNotice a line t s
  | .requestFailure a line => Sys2Proof.Machine.execRequestFailure a line s
  | .persistentRequest a line => Sys2Proof.Machine.execPersistentRequest a line s
  | .persistentActivation line => Sys2Proof.Machine.execPersistentActivation line s
  | .persistentDeactivation line => Sys2Proof.Machine.execPersistentDeactivation line s
  | .updateOnlyGrant a line op ty => Sys2Proof.Machine.execUpdateOnlyGrant a line op ty s
  | .updateOnlyEnd line => Sys2Proof.Machine.execUpdateOnlyEnd line s
  | .flushMarker src dst path => Sys2Proof.Machine.execFlushMarker src dst path s
  | .hostSnoop line => Sys2Proof.Machine.execHostSnoop line s
  | .asidFlushComplete asid => Sys2Proof.Machine.execAsidFlushComplete asid s
  | .rangeWalkComplete team lane op => Sys2Proof.Machine.execRangeWalkComplete team lane op s
  | .engineOpAccept team => Sys2Proof.Machine.execEngineOpAccept team s
  | .copyEngineTake core eng => Sys2Proof.Machine.execCopyEngineTake core eng s
  | .copyRow core eng => Sys2Proof.Machine.execCopyRow core eng s
  | .copyComplete core eng => Sys2Proof.Machine.execCopyComplete core eng s
  | .cbloadComplete team op => Sys2Proof.Machine.execCbloadComplete team op s
  | .matrixEngineSelect core => Sys2Proof.Machine.execMatrixEngineSelect core s
  | .matrixChunkLoad core => Sys2Proof.Machine.execMatrixChunkLoad core s
  | .matrixAccumulateStep core => Sys2Proof.Machine.execMatrixAccumulateStep core s
  | .matrixOutputStep core => Sys2Proof.Machine.execMatrixOutputStep core s
  | .accBankGrant core => Sys2Proof.Machine.execAccBankGrant core s
  | .accBankRelease core => Sys2Proof.Machine.execAccBankRelease core s
  | .parallaxRecompute part view block => Sys2Proof.Machine.execParallaxRecompute part view block s
  | .viewPublishMessage m => Sys2Proof.Machine.execViewPublishMessage m s
  | .accessStreamPoint team q => Sys2Proof.Machine.execAccessStreamPoint team q s
  | .affStPairStore team q lane => Sys2Proof.Machine.execAffStPairStore team q lane s
  | .userHandlerEntry team => Sys2Proof.Machine.execUserHandlerEntry team s
  | .mailboxPost core => Sys2Proof.Machine.execMailboxPost core s
  | .mailboxFullTimeout team lane => Sys2Proof.Machine.execMailboxFullTimeout team lane s
  | .teamtimeOverflow team => Sys2Proof.Machine.execTeamtimeOverflow team s
  | .deadlineReached team => Sys2Proof.Machine.execDeadlineReached team s
  | .owedTimerTrap team => Sys2Proof.Machine.execOwedTimerTrap team s
  | .sleepExpiry team lane => Sys2Proof.Machine.execSleepExpiry team lane s
  | .flareRaiseMessage r => Sys2Proof.Machine.execFlareRaiseMessage r s
  | .flareDelivery ctx => Sys2Proof.Machine.execFlareDelivery ctx s
  | .sectionRequestArrival r => Sys2Proof.Machine.execSectionRequestArrival r s
  | .sectionStart home => Sys2Proof.Machine.execSectionStart home s
  | .sectionResultArrival r => Sys2Proof.Machine.execSectionResultArrival r s
  | .sectionBudgetExpiry home => Sys2Proof.Machine.execSectionBudgetExpiry home s
  | .phaseRecordEnqueue crew => Sys2Proof.Machine.execPhaseRecordEnqueue crew s
  | .phaseResume part => Sys2Proof.Machine.execPhaseResume part s
  | .migrateMove team => Sys2Proof.Machine.execMigrateMove team s
  | .landingSlotMove team => Sys2Proof.Machine.execLandingSlotMove team s
  | .launchDoorbell vf tail => Sys2Proof.Machine.execLaunchDoorbell vf tail s
  | .launchQueueControl vf w => Sys2Proof.Machine.execLaunchQueueControl vf w s
  | .recordCapture vf => Sys2Proof.Machine.execRecordCapture vf s
  | .edgeSatisfied launch => Sys2Proof.Machine.execEdgeSatisfied launch s
  | .placeClusterGroup part => Sys2Proof.Machine.execPlaceClusterGroup part s
  | .launchEnd launch => Sys2Proof.Machine.execLaunchEnd launch s
  | .registerWrite vf off size val => Sys2Proof.Machine.execRegisterWrite vf off size val s
  | .flareWindowRaise vf off size val => Sys2Proof.Machine.execFlareWindowRaise vf off size val s
  | .cmdAssignPartition a => Sys2Proof.Machine.execCmdAssignPartition a s
  | .cmdBindFunction vf part ld => Sys2Proof.Machine.execCmdBindFunction vf part ld s
  | .cmdSetMeridianNumber n => Sys2Proof.Machine.execCmdSetMeridianNumber n s
  | .cmdQueuePair q => Sys2Proof.Machine.execCmdQueuePair q s
  | .cmdAdopt lds head => Sys2Proof.Machine.execCmdAdopt lds head s
  | .cmdReadCounters => Sys2Proof.Machine.execCmdReadCounters s
  | .cmdWriteFirmware image => Sys2Proof.Machine.execCmdWriteFirmware image s
  | .cmdReadHandover => Sys2Proof.Machine.execCmdReadHandover s
  | .cmdUnknown code => Sys2Proof.Machine.execCmdUnknown code s
  | .hostLinkDown head => Sys2Proof.Machine.execHostLinkDown head s
  | .cxlMemAccess a => Sys2Proof.Machine.execCxlMemAccess a s
  | .peerAccess a => Sys2Proof.Machine.execPeerAccess a s
  | .d2dLinkFailure die => Sys2Proof.Machine.execD2dLinkFailure die s
  | .d2dLinkTraining die failed => Sys2Proof.Machine.execD2dLinkTraining die failed s
  | .meridianFlitGroup port tagOk => Sys2Proof.Machine.execMeridianFlitGroup port tagOk s
  | .meridianKeyRotation port => Sys2Proof.Machine.execMeridianKeyRotation port s
  | .put p => Sys2Proof.Machine.execPut p s
  | .getRequest p => Sys2Proof.Machine.execGetRequest p s
  | .getResponse p => Sys2Proof.Machine.execGetResponse p s
  | .atomRequest p => Sys2Proof.Machine.execAtomRequest p s
  | .atomResponse p => Sys2Proof.Machine.execAtomResponse p s
  | .ack p => Sys2Proof.Machine.execAck p s
  | .nak p => Sys2Proof.Machine.execNak p s
  | .credit p => Sys2Proof.Machine.execCredit p s
  | .rmaRetransmitTimeout qpn => Sys2Proof.Machine.execRmaRetransmitTimeout qpn s
  | .qpContextFetch qpn => Sys2Proof.Machine.execQpContextFetch qpn s
  | .keyRevokeComplete part slot => Sys2Proof.Machine.execKeyRevokeComplete part slot s
  | .rmaComplete team => Sys2Proof.Machine.execRmaComplete team s
  | .getVersion => Sys2Proof.Machine.execGetVersion s
  | .getCapabilities => Sys2Proof.Machine.execGetCapabilities s
  | .negotiateAlgorithms n => Sys2Proof.Machine.execNegotiateAlgorithms n s
  | .getDigests => Sys2Proof.Machine.execGetDigests s
  | .getCertificate => Sys2Proof.Machine.execGetCertificate s
  | .challenge nonce => Sys2Proof.Machine.execChallenge nonce s
  | .getMeasurements index => Sys2Proof.Machine.execGetMeasurements index s
  | .keyExchange => Sys2Proof.Machine.execKeyExchange s
  | .finish ok => Sys2Proof.Machine.execFinish ok s
  | .endSession => Sys2Proof.Machine.execEndSession s
  | .tdispMessage vf m => Sys2Proof.Machine.execTdispMessage vf m s
  | .ideKeyManagement m => Sys2Proof.Machine.execIdeKeyManagement m s
  | .boot r => Sys2Proof.Machine.execBoot r s
  | .lifetimeCounterSave => Sys2Proof.Machine.execLifetimeCounterSave s
  | .orderlyShutdown => Sys2Proof.Machine.execOrderlyShutdown s
  | .powerLoss => Sys2Proof.Machine.execPowerLoss s
  | .powerLimit on => Sys2Proof.Machine.execPowerLimit on s
  | .machineCheck ctx code => Sys2Proof.Machine.execMachineCheck ctx code s
  | .virtualFunctionEnable vf on => Sys2Proof.Machine.execVirtualFunctionEnable vf on s
  | .supervisorFirmwareRestart core => Sys2Proof.Machine.execSupervisorFirmwareRestart core s
  | .meridianLinkLoss port => Sys2Proof.Machine.execMeridianLinkLoss port s
  | .hostLinkTraining head width rate => Sys2Proof.Machine.execHostLinkTraining head width rate s
  | .flareSendOutcome team lane op status => Sys2Proof.Machine.execFlareSendOutcome team lane op status s
  | .pageRequestResponse core ticket ok => Sys2Proof.Machine.execPageRequestResponse core ticket ok s
  | .remoteViewBlockClear part view block => Sys2Proof.Machine.execRemoteViewBlockClear part view block s
  | .viewQueueOperation team => Sys2Proof.Machine.execViewQueueOperation team s

end Sys2Proof.Machine
end

