-- ==== Sys2Proof/Machine/Step.lean ====
section
/-! DEFINITION. One step of the machine (log 4): which agent moves, and its move. -/

namespace Sys2Proof.Machine

/-- The run at a place issues its next instruction (R32): a replaying thread re-executes a logged instruction
(R112); otherwise the clause is fetched where the run has reached a new one, once the tokens of its lines and of its page-table
lines are there (R100, R123), the words are checked, and the instruction they decode to is executed. -/
def issueRun (s : State) (idx : Nat) : Host.Outcome State Fault Refusal :=
  match runAt s idx with
  | none => .next s
  | some r =>
    match (threadIn s r.team r.acc (getAt 0 r.lanes 0)).replay with
    | lr :: _ => exec lr.instr { s with cur := some idx }
    | [] =>
      match s.openClause idx r with
      | .error tr => .next (s.trapRun idx r tr)
      | .ok (r', s') =>
        if r.needHdr && s'.codeWalks (s'.team r.team) r.hdrAddr r'.words.length then .next s
        else
        match (if r.needHdr then s'.codeMisses (s'.team r.team) r.hdrAddr r'.words.length else []) with
        | m :: ms => .next (s.askCode (s.team r.team) (m :: ms))
        | [] =>
        match wordChecks (s'.team r'.team) r'.acc (getAt 0 r'.words (r'.off - 1)) (getAt 0 r'.words r'.off) with
        | .error cv => trapWord { s' with cur := some idx } cv
        | .ok i => exec i { s' with cur := some idx }

/-- The move of a turn: an issue is left out where the power limit inserts idle cycles (R456), and for a frozen crew. A command
that the host has written completes in a later move, and commands run one at a time, in write order (R431). -/
def act (s : State) : Turn → Host.Outcome State Fault Refusal
  | .issue k => if (s.dev.powerLimit && Config.freeNat 28 s.tick % 2 == 1) || frozenOut s k then .next s else issueRun s k
  | .flight k =>
    match takeAt s.flight k with
    | some (e, r) => if isCommand e && (s.flight.take k).any isCommand then .next s else runEvent e { s with flight := r }
    | none => .next s
  | .select core pipe => execRunSelection core pipe s
  | .input =>
    match s.inputs with
    | e :: r => if isCommand e then .next { s with inputs := r, flight := s.flight ++ [e] } else runEvent e { s with inputs := r }
    | [] => .next s
  | .clock => .next (clock s)

/-- The turn that comes next where the state names none: issue, time, a step that waits, selection and the outside in
rotation. -/
def defaultTurn (s : State) : Turn :=
  let n := s.tick / 5
  match s.tick % 5 with
  | 0 => .issue (n % s.runs.length)
  | 1 => .clock
  | 2 => .flight 0
  | 3 =>
    let p := getAt (0, 0) (pipesInUse s) (n % (pipesInUse s).length)
    .select p.1 p.2
  | _ => .input

/-- A device that has not started starts (R453); otherwise the agent whose turn it is moves. -/
def step (s : State) : Host.Outcome State Fault Refusal :=
  if !s.dev.started then execBoot (freeBoot s) { s with freeCtr := s.freeCtr + 3 }
  else
    match s.turns with
    | t :: r => act { s with turns := r, tick := s.tick + 1 } t
    | [] => act { s with tick := s.tick + 1 } (defaultTurn s)

/-- The machine with an instruction placed where `step` fetches its next one: `placeWords` stands for the load of a
program (log 22). -/
def State.withFetchWord (s : State) (nbits w : Nat) : State :=
  placeWords s (w % 2 ^ 32) (if nbits = 0 then 0 else w / 2 ^ 32 % 2 ^ 32)

end Sys2Proof.Machine
end

