-- ==== Sys2Proof/Safety.lean ====
section
/-! DEFINITION. What a run of the machine is, and when it is safe: it ends in no fault and no refusal. The terms that
statements about instructions use: when an issue group goes through an instruction (R28, R54, R55, R57, R58), which of
its threads execute (R51), and what an instruction that computes words leaves. -/

namespace Sys2Proof.Machine

/-- The states that steps reach from a state. -/
inductive Reaches : State → State → Prop where
  | refl (s : State) : Reaches s s
  | tail {s t u : State} : Reaches s t → step t = .next u → Reaches s u

/-- No step from a reached state stops. -/
def Safe (s : State) : Prop := ∀ t, Reaches s t → ∃ u, step t = .next u

/-! ### An issue group at an instruction -/

/-- Run `r`, at place `idx`, is the one that issues. -/
def Issuing (s : State) (idx : Nat) (r : Run) : Prop := s.cur = some idx ∧ runAt s idx = some r

/-- The thread of a lane of a run. -/
def laneOf (s : State) (r : Run) (l : Nat) : Thread := threadIn s r.team r.acc l

/-- The threads of the run that execute (R51). -/
def execLanes (s : State) (r : Run) (f : Fields) : List Nat := r.lanes.filter fun l => f.executes (laneOf s r l)

/-- The registers that an instruction touches for a thread (R51): where the lowest executing thread alone reads operands, none for
any other (R48). -/
def usesOf (s : State) (r : Run) (f : Fields) (regs : List Nat) (one : Bool) (l : Nat) : List Nat :=
  if one && (execLanes s r f).head? != some l then [] else f.touches regs (laneOf s r l)

/-- No thread of the run waits at an instruction that touches registers `regs`: no window is over (R54, R56), every
register that the instruction touches for it is written (R48, R51, R55), no counter that the header waits for is above zero
(R28), and a tracked instruction finds its counter below the largest value (R57). -/
def NoWait (s : State) (r : Run) (f : Fields) (regs : List Nat) (trk : Bool) (one : Bool := false) : Prop :=
  ∀ l ∈ r.lanes, windowOver (usesOf s r f regs one l) (laneOf s r l) = false ∧
    mustWait (usesOf s r f regs one l) (laneOf s r l) = false ∧
    (r.off ≠ 0 → waitHolds r.hdr r.idx (laneOf s r l) = false) ∧
    (trk = true → f.executes (laneOf s r l) = true → (laneOf s r l).dcOf f.dc ≠ Config.dcMax)

/-- The run goes through an instruction: it is the one that issues, no thread waits, and checks 5 to 7 of R58 pass. -/
def Goes (s : State) (idx : Nat) (r : Run) (f : Fields) (chk : Site → Option (Cause × DWord)) (uni : Bool)
    (regs : List Nat) (trk : Bool) : Prop :=
  Issuing s idx r ∧ NoWait s r f regs trk uni ∧ chk (siteOf (s.team r.team) r.acc uni) = none

/-- Resume address of the instruction at which the run stands (R60). -/
def placeOf (r : Run) : DWord := mkResume r.hdrAddr r.off

/-- Resume address of the instruction after it: in the same clause, or at the next header (R26, R60). -/
def placeAfter (r : Run) (f : Fields) : DWord :=
  if r.idx + 1 = hdrCount r.hdr then mkResume (r.hdrAddr + BitVec.ofNat 64 (4 * (r.off + f.len))) 0
  else mkResume r.hdrAddr (r.off + f.len)

/-- The issue group of the run at an instruction. -/
def groupOf (s : State) (idx : Nat) (r : Run) (f : Fields) : Grp :=
  { k := r.team, idx := idx, run := r, act := r.lanes, e := execLanes s r f, here := placeOf r, after := placeAfter r f,
    f := f }

/-- The registers an instruction of formats A, B, L and X touches (R55). -/
def regsOf (sh : Shape) (f : Fields) (uni : Bool) : List Nat :=
  srcRegs sh.a f.a ++ srcRegs sh.b f.b ++ srcRegs sh.c f.c ++ dstRegs uni sh.d f.dst

/-- The run goes through an untracked instruction of formats A, B, L or X. -/
def GoesOp (s : State) (idx : Nat) (r : Run) (i : Instr) (f : Fields) (uni : Bool) : Prop :=
  Goes s idx r f (fun st => opChecks st i.shape f) uni (regsOf i.shape f uni) false

/-- A lane of a group reads its operands and computes `ws`; `th` is its thread after it (queue elements popped, flags
raised). -/
def LaneGives {α : Type} (s : State) (g : Grp) (act : LCtx → LaneM α) (l : Nat) (a : α) (th : Thread) : Prop :=
  act (g.lctx s l) (g.thread s l) = .ok (a, th)

/-- `i` computes words in each executing thread and writes them to DST; a uniform variant computes once, from the
lowest executing thread, and writes a uniform destination (R48, R51). `out` gives each lane's thread after it. -/
def ComputesAt (s : State) (i : Instr) (f : Fields) (uni : Bool) (act : LCtx → LaneM (List Word)) : Prop :=
  ∀ (idx : Nat) (r : Run), GoesOp s idx r i f uni →
    (uni = false → ∀ out : Nat → Thread,
      (∀ l ∈ execLanes s r f, ∃ ws th, LaneGives s (groupOf s idx r f) act l ws th ∧
        writeDst ((groupOf s idx r f).lctx s l) i.shape.d f.dst ws th = .ok ((), out l)) →
      exec i s = .next (pairEvents (finishNext (setThreads s r.team r.acc ((execLanes s r f).map fun l => (l, out l)))
        (groupOf s idx r f)) r.team i.shape.d f.dst (execLanes s r f))) ∧
    (uni = true → execLanes s r f = [] → exec i s = .next (finishNext s (groupOf s idx r f))) ∧
    (uni = true → ∀ l ls ws th, execLanes s r f = l :: ls → LaneGives s (groupOf s idx r f) act l ws th →
      exec i s = .next (finishNext (setThreads (modUniforms s r.team r.acc fun us => setUniform us f.dst.toNat ws)
        r.team r.acc [(l, th)]) (groupOf s idx r f)))

/-- The same in every state. -/
def Computes (i : Instr) (f : Fields) (uni : Bool) (act : LCtx → LaneM (List Word)) : Prop :=
  ∀ s : State, ComputesAt s i f uni act

/-- `i` is collective over E, the executing threads (R261): every source is read for each of them, and `res` gives the
words that each of them writes, from the values of all; a uniform variant writes the words of the lowest one once (R264). -/
def Collects {α : Type} (i : Instr) (f : Fields) (uni : Bool) (rd : LCtx → LaneM α)
    (res : List (Nat × α) → Nat → α → List Word) : Prop :=
  ∀ (s : State) (idx : Nat) (r : Run), GoesOp s idx r i f uni → ∀ (val : Nat → α) (th : Nat → Thread),
    (∀ l ∈ execLanes s r f, LaneGives s (groupOf s idx r f) rd l (val l) (th l)) →
    let vals := (execLanes s r f).map fun l => (l, val l)
    (uni = false → ∀ out : Nat → Thread,
      (∀ l ∈ execLanes s r f,
        writeDst ((groupOf s idx r f).lctx s l) i.shape.d f.dst (res vals l (val l)) (th l) = .ok ((), out l)) →
      exec i s = .next (pairEvents (finishNext (setThreads s r.team r.acc ((execLanes s r f).map fun l => (l, out l)))
        (groupOf s idx r f)) r.team i.shape.d f.dst (execLanes s r f))) ∧
    (uni = true → execLanes s r f = [] → exec i s = .next (finishNext s (groupOf s idx r f))) ∧
    (uni = true → ∀ m ls, execLanes s r f = m :: ls →
      exec i s = .next (finishNext
        (setThreads (modUniforms s r.team r.acc fun us => setUniform us f.dst.toNat (res vals m (val m)))
          r.team r.acc ((execLanes s r f).map fun l => (l, th l))) (groupOf s idx r f)))

/-- Every executing lane of a group completes an action on the state, in ascending order: lane `l` with the result
`v l` and the thread `th l`, and `s1` is the state that the last one leaves. -/
def AllOk {α : Type} (g : Grp) (s : State) (act : State → LCtx → Thread → Except AccStop (α × Thread × State))
    (v : Nat → α) (th : Nat → Thread) (s1 : State) : Prop :=
  g.lanesS s act = (g.e.map fun l => (l, .ok (v l, th l)), s1)

/-- `i` acts on the state lane by lane and writes words to DST at once. -/
def Effects (i : Instr) (f : Fields) (extra : Site → Option (Cause × DWord))
    (act : State → LCtx → Thread → Except AccStop (List Word × Thread × State)) : Prop :=
  ∀ (s : State) (idx : Nat) (r : Run) (th : Nat → Thread) (s1 : State),
    Goes s idx r f (fun st => firstOf [opChecks st i.shape f, extra st]) false (regsOf i.shape f false) i.shape.trk →
    AllOk (groupOf s idx r f) s (effectLane i.shape.d f.dst act) (fun _ => ()) th s1 →
    exec i s = .next (pairEvents (finishNext
      (setThreads s1 r.team r.acc ((execLanes s r f).map fun l => (l, th l))) (groupOf s idx r f))
      r.team i.shape.d f.dst (execLanes s r f))

/-- The threads after their operands have been read: each keeps what it has popped until its wait is over (R5). -/
def notedLanes (s : State) (r : Run) (ls : List Nat) (th : Nat → Thread) : List (Nat × Thread) :=
  ls.map fun l => (l, (th l).noting (placeOf r) (laneOf s r l))

/-- `i` reads operands for each executing lane and then acts for the group, where it finds nothing to wait for; the first
state that `res` takes is the one before the operands were read. -/
def ReadsThen {α : Type} (i : Instr) (x : XOps) (waits : Grp → State → Option (Host.Outcome State Fault Refusal))
    (rd : State → LCtx → Thread → Except AccStop (α × Thread × State))
    (res : State → State → Grp → List (Nat × α) → State) : Prop :=
  ∀ (s : State) (idx : Nat) (r : Run) (v : Nat → α) (th : Nat → Thread) (s1 : State), GoesOp s idx r i (ofX x) false →
    waits (groupOf s idx r (ofX x)) s = none →
    AllOk (groupOf s idx r (ofX x)) s rd v th s1 →
    exec i s = .next (res s
      (setThreads s1 r.team r.acc (notedLanes s r (execLanes s r (ofX x)) th))
      (groupOf s idx r (ofX x)) ((execLanes s r (ofX x)).map fun l => (l, v l)))

/-- `i` gives each executing lane a word for the token it reads: `look` judges the tokens in lane order. The destination
of each lane takes a word before the tokens are judged, and takes the word found after. -/
def LooksUp (i : Instr) (x : XOps) (look : State → Nat → Nat → Word → Except (Cause × DWord) Word × State) : Prop :=
  ∀ (s s1 s2 : State) (idx : Nat) (r : Run) (v w : Nat → Word) (th out : Nat → Thread), GoesOp s idx r i (ofX x) false →
    AllOk (groupOf s idx r (ofX x)) s (readWord32 x) v th s1 →
    lookUp r.team look ((execLanes s r (ofX x)).map fun l => (l, v l))
      (setThreads s1 r.team r.acc (notedLanes s r (execLanes s r (ofX x)) th)) =
        ((execLanes s r (ofX x)).map fun l => (l, .ok (w l)), s2) →
    (∀ l ∈ execLanes s r (ofX x), ∃ o, writeDst ((groupOf s idx r (ofX x)).lctx
      (setThreads s1 r.team r.acc (notedLanes s r (execLanes s r (ofX x)) th)) l) i.shape.d x.dst [0]
      ((groupOf s idx r (ofX x)).thread
        (setThreads s1 r.team r.acc (notedLanes s r (execLanes s r (ofX x)) th)) l) = .ok ((), o)) →
    (∀ l ∈ execLanes s r (ofX x), writeDst ((groupOf s idx r (ofX x)).lctx s2 l) i.shape.d x.dst [w l]
      ((groupOf s idx r (ofX x)).thread s2 l) = .ok ((), out l)) →
    exec i s = .next (pairEvents (finishNext
      (setThreads s2 r.team r.acc ((execLanes s r (ofX x)).map fun l => (l, out l))) (groupOf s idx r (ofX x)))
      r.team i.shape.d x.dst (execLanes s r (ofX x)))

/-- `i` puts an engine operation before its queues, once for the group (R212): the lowest executing lane gives the
operands, and `prepare` checks them. -/
def Enqueues (i : Instr) (x : XOps)
    (prepare : State → Grp → LCtx → LogRec → Thread → Except AccStop (Prepared × Thread × State)) : Prop :=
  ∀ (s s1 : State) (idx : Nat) (r : Run) (l : Nat) (ls : List Nat) (lr : LogRec) (th th1 : Thread) (p : Prepared),
    Goes s idx r (ofX x) (fun st => opChecks st i.shape (ofX x)) false (regsOf i.shape (ofX x) false) true →
    execLanes s r (ofX x) = l :: ls →
    let g := groupOf s idx r (ofX x)
    logOperands i (ofX x) i.shape g.here (g.lctx s l) (g.thread s l) = .ok (lr, th) →
    prepare { s with serial := s.serial + 1 } g (g.lctx s l) lr th = .ok (p, th1, s1) →
    exec i s = .next (finishNext (issuedOp s1 g i (ofX x) s.serial (g.la s) l p lr th1) g)

/-- No executing thread of the run has an earlier instruction before its decision point. -/
def Settled (s : State) (r : Run) (f : Fields) : Prop := ∀ l ∈ execLanes s r f, ∀ o ∈ (laneOf s r l).ops, o.decided = true

/-- What passing an instruction may change of a thread: its place, its windows, its stamp and its replay queue. -/
def Thread.Keeps (a b : Thread) : Prop :=
  b = { a with pc := b.pc, farPc := b.farPc, ops := b.ops, stamp := b.stamp, replay := b.replay, owedStep := b.owedStep }

/-- No instruction of the thread is doomed (R56). -/
def Thread.NoDoomed (th : Thread) : Prop := ∀ o ∈ th.ops, o.doomed = none

/-- The run's team is present with a thread for each of its lanes, none doomed or replaying; the lanes are distinct, and
the run is not an access slice's. -/
def Plain (s : State) (r : Run) : Prop :=
  r.acc = false ∧ r.lanes.Nodup ∧ ∃ tm, aget s.teams r.team = some tm ∧
    ∀ l ∈ r.lanes, l < tm.threads.length ∧ (tm.thread l).NoDoomed ∧ (tm.thread l).replay = []

/-- `t` is `s` after the lanes of run `r` have passed an instruction that leaves lane `l` as `out l`: they keep it but for
their place, windows and stamp; every other lane and team is as it was; nothing else changes but the runs and the
operand log's bookkeeping. -/
def PassedWith (s t : State) (r : Run) (out : Nat → Thread) : Prop :=
  ∃ tm tm' rs, aget s.teams r.team = some tm ∧ t = { s with teams := aset s.teams r.team tm', runs := rs } ∧
    tm' = { tm with threads := tm'.threads, opLog := tm'.opLog } ∧ tm'.threads.length = tm.threads.length ∧
    (∀ l, l ∉ r.lanes → tm'.thread l = tm.thread l) ∧ ∀ l ∈ r.lanes, (out l).Keeps (tm'.thread l)

/-- The lanes of run `r` continue at the places `pcs` gives; a place outside the canonical form is kept whole, so that its
fetch traps (R87). -/
def ContinueAt (t : State) (r : Run) (pcs : Nat → DWord × Option DWord) : Prop :=
  ∀ l ∈ r.lanes, (t.thread r.team l).pc = (pcs l).1 ∧ (t.thread r.team l).farPc = (pcs l).2

/-- The place of a jump to an address. -/
def jumpPlace (target : DWord) : DWord × Option DWord :=
  (mkResume target 0, if isCanon target then none else some target)

/-! ### Computations of one lane -/

/-- One source at a width. -/
def from1 (lk : LitK) (w : Width) (f : Fields) (v : DWord → List Word) (L : LCtx) : LaneM (List Word) := do
  let a ← srcA L lk w f
  return v a

/-- Two sources, each at its width and with its reading of literals. -/
def from2 (lk : LitK) (w : Width) (lk' : LitK) (w' : Width) (f : Fields) (v : DWord → DWord → List Word) (L : LCtx) :
    LaneM (List Word) := do
  let a ← srcA L lk w f
  let b ← srcB L lk' w' f
  return v a b

/-- Three sources. -/
def from3 (lk : LitK) (w : Width) (lk' : LitK) (w' : Width) (lk'' : LitK) (w'' : Width) (f : Fields)
    (v : DWord → DWord → DWord → List Word) (L : LCtx) : LaneM (List Word) := do
  let a ← srcA L lk w f
  let b ← srcB L lk' w' f
  let c ← srcC L lk'' w'' f
  return v a b c

/-- One source, with words and exceptions (R274 to R276): the exceptions are raised before the words are written. -/
def fpFrom1 (lk : LitK) (w : Width) (f : Fields) (v : DWord → List Word × Nat) (L : LCtx) : LaneM (List Word) := do
  let a ← srcA L lk w f
  raiseFp (v a).2
  return (v a).1

/-- Two sources, with words and exceptions. -/
def fpFrom2 (lk : LitK) (w : Width) (lk' : LitK) (w' : Width) (f : Fields) (v : DWord → DWord → List Word × Nat)
    (L : LCtx) : LaneM (List Word) := do
  let a ← srcA L lk w f
  let b ← srcB L lk' w' f
  raiseFp (v a b).2
  return (v a b).1

/-- Three sources, with words and exceptions. -/
def fpFrom3 (lk : LitK) (w : Width) (lk' : LitK) (w' : Width) (lk'' : LitK) (w'' : Width) (f : Fields)
    (v : DWord → DWord → DWord → List Word × Nat) (L : LCtx) : LaneM (List Word) := do
  let a ← srcA L lk w f
  let b ← srcB L lk' w' f
  let c ← srcC L lk'' w'' f
  raiseFp (v a b c).2
  return (v a b c).1

end Sys2Proof.Machine
end

