-- ==== Sys2Proof/Certificates/Slice0/Obligations.lean ====
section
/-! DEFINITION. The statements for the provers. `Computes i f uni act` (Safety.lean) says of an instruction that computes
words that it completes for every run that goes through it, and what it leaves. -/

open Sys2Proof Sys2Proof.Machine

/-! ### Integer arithmetic, bits, comparisons -/

/-- R288: the one-word integer forms complete with these results. R290: the arithmetic of the integer group at TYPE,
its uniform variants among them (`u`): operands are numbers of TYPE, results are formed exactly and then reduced
modulo 2^w or, with OVF, clamped. A uniform variant pops a queue source of its elected lane only: the model's choice (log 84). -/
def Obligations.OneWordAndGroupIntegerFormsCompute : Prop :=
  (∀ (o : AOps) (b : BOps) (l : LOps),
     Computes (.iaddA o) (ofA o) false (from2 .int .w32 .int .w32 (ofA o) fun x y => [x.lo + y.lo]) ∧
     Computes (.iaddB b) (ofB b) false (from2 .int .w32 .int .w32 (ofB b) fun x y => [x.lo + y.lo]) ∧
     Computes (.iaddL l) (ofL l) false (from2 .int .w32 .int .w32 (ofL l) fun x y => [x.lo + y.lo]) ∧
     Computes (.isubA o) (ofA o) false (from2 .int .w32 .int .w32 (ofA o) fun x y => [x.lo - y.lo]) ∧
     Computes (.imulA o) (ofA o) false (from2 .int .w32 .int .w32 (ofA o) fun x y => [x.lo * y.lo]) ∧
     Computes (.andA o) (ofA o) false (from2 .int .w32 .int .w32 (ofA o) fun x y => [x.lo &&& y.lo]) ∧
     Computes (.orA o) (ofA o) false (from2 .int .w32 .int .w32 (ofA o) fun x y => [x.lo ||| y.lo]) ∧
     Computes (.xorA o) (ofA o) false (from2 .int .w32 .int .w32 (ofA o) fun x y => [x.lo ^^^ y.lo]) ∧
     Computes (.andL l) (ofL l) false (from2 .int .w32 .int .w32 (ofL l) fun x y => [x.lo &&& y.lo]) ∧
     Computes (.shlB b) (ofB b) false (from2 .int .w32 .int .w32 (ofB b) fun x y => [x.lo <<< y.lo.toNat]) ∧
     Computes (.shrB b) (ofB b) false (from2 .int .w32 .int .w32 (ofB b) fun x y => [x.lo >>> y.lo.toNat]) ∧
     Computes (.shaB b) (ofB b) false
       (from2 .int .w32 .int .w32 (ofB b) fun x y => [BitVec.sshiftRight x.lo y.lo.toNat]) ∧
     Computes (.iminA o) (ofA o) false
       (from2 .int .w32 .int .w32 (ofA o) fun x y => [if y.lo.toInt < x.lo.toInt then y.lo else x.lo]) ∧
     Computes (.imaxA o) (ofA o) false
       (from2 .int .w32 .int .w32 (ofA o) fun x y => [if x.lo.toInt < y.lo.toInt then y.lo else x.lo]) ∧
     Computes (.iaddS64A o) (ofA o) false
       (from2 .int .w64 .int .w64 (ofA o) fun x y => [DWord.lo (x + y), DWord.hi (x + y)])) ∧
  (∀ (u : Bool) (x : XOps),
     let w := x.ty.width
     let num := intVal x.ty
     let red := fun (v : Int) => tyWords x.ty (BitVec.ofInt 64 (if x.ovf then clamp (tyMin x.ty) (tyMax x.ty) v else v))
     Computes (.iaddX u x) (ofX x) u (from2 .int w .int w (ofX x) fun a b => red (num a + num b)) ∧
     Computes (.isubX u x) (ofX x) u (from2 .int w .int w (ofX x) fun a b => red (num a - num b)) ∧
     Computes (.imulX u x) (ofX x) u (from2 .int w .int w (ofX x) fun a b => red (num a * num b)) ∧
     Computes (.imulh u x) (ofX x) u (from2 .int w .int w (ofX x) fun a b =>
       tyWords x.ty (BitVec.ofInt 64 (num a * num b / ((2 ^ intBits x.ty : Nat) : Int)))) ∧
     Computes (.imad u x) (ofX x) u (from3 .int w .int w .int w (ofX x) fun a b c => red (num a * num b + num c)) ∧
     Computes (.iminX u x) (ofX x) u (from2 .int w .int w (ofX x) fun a b =>
       tyWords x.ty (BitVec.ofInt 64 (min (num a) (num b)))) ∧
     Computes (.imaxX u x) (ofX x) u (from2 .int w .int w (ofX x) fun a b =>
       tyWords x.ty (BitVec.ofInt 64 (max (num a) (num b)))) ∧
     Computes (.iabs u x) (ofX x) u (from1 .int w (ofX x) fun a => red ((num a).natAbs : Int)) ∧
     Computes (.ineg u x) (ofX x) u (from1 .int w (ofX x) fun a => red (-num a)) ∧
     Computes (.iaddc u x) (ofX x) u (from3 .int .w32 .int .w32 .int .w32 (ofX x) fun a b c =>
       let t := a.toNat % 2 ^ 32 + b.toNat % 2 ^ 32 + c.toNat % 2
       [BitVec.ofNat 32 t, BitVec.ofNat 32 (t / 2 ^ 32)]) ∧
     Computes (.isat u x) (ofX x) u (from1 .int .w32 (ofX x) fun a =>
       [DWord.lo (BitVec.ofInt 64 (clamp (tyMin x.ty) (tyMax x.ty) (intVal .s32 a)))]) ∧
     Computes (.lea u x) (ofX x) u (from2 .int .w64 .int .w32 (ofX x) fun a b =>
       let t := a + BitVec.ofInt 64 (num b * ((2 ^ (x.c.bits % 8) : Nat) : Int))
       [t.lo, t.hi]))

/-- One lane of IDIV or IREM (R291): a zero divisor traps INT_DIV_ZERO with TVAL 0 where FPMODE.TIDZ is 1. -/
def Sys2Proof.Machine.divLane (x : XOps) (v : Int → Int → DWord) (L : LCtx) : LaneM (List Word) := do
  let a ← srcA L .int x.ty.width (ofX x)
  let b ← srcB L .int x.ty.width (ofX x)
  let th ← getTh
  if intVal x.ty b = 0 && th.fpmode.getLsbD 3 then trapWith .intDivZero 0
  else return tyWords x.ty (v (intVal x.ty a) (intVal x.ty b))

/-- R291: IDIV and IREM complete; by zero the quotient is all ones and the remainder the dividend. R291: unless the
divisor is zero, quotient and remainder rebuild the dividend, the remainder is smaller than the divisor and has the
dividend's sign. A uniform variant pops a queue source of its elected lane only: the model's choice (log 84). -/
def Obligations.DivisionRebuildsTheDividend : Prop :=
  (∀ (u : Bool) (x : XOps),
     Computes (.idiv u x) (ofX x) u (divLane x fun a b =>
       if b = 0 then BitVec.ofInt 64 (-1)
       else if x.ovf && isSigned x.ty then BitVec.ofInt 64 (clamp (tyMin x.ty) (tyMax x.ty) (Int.tdiv a b))
       else BitVec.ofInt 64 (Int.tdiv a b)) ∧
     Computes (.irem u x) (ofX x) u (divLane x fun a b =>
       if b = 0 then BitVec.ofInt 64 a else BitVec.ofInt 64 (Int.tmod a b))) ∧
  (∀ (x : XOps) (a b : DWord), x.ty ∈ [Ty.s32, .n32, .s64, .n64] → x.ovf = false → intVal x.ty b ≠ 0 →
     ∃ q r : Int, divVal x.ty false (intVal x.ty a) (intVal x.ty b) = BitVec.ofInt 64 q ∧
       remVal (intVal x.ty a) (intVal x.ty b) = BitVec.ofInt 64 r ∧
       intVal x.ty a = q * intVal x.ty b + r ∧ r.natAbs < (intVal x.ty b).natAbs ∧
       (0 ≤ intVal x.ty a → 0 ≤ r) ∧ (intVal x.ty a ≤ 0 → r ≤ 0))

/-- R293: the bit and logic group at TYPE (w bits), its uniform variants among them. R293: what the values of the bit
forms are, bit by bit: SHA copies the sign bit in, BFI replaces the field, POPC counts the 1 bits, CLZ and CTZ find
the outermost 1 bits, BREV turns the order round. R293, R294: BFX takes the field and extends it; ISET writes 1 or 0
to a register and ICMP the predicate. A uniform variant pops a queue source of its elected lane only: the model's choice
(log 84). -/
def Obligations.BitFieldAndCompareFormsCompute : Prop :=
  (∀ (u : Bool) (x : XOps),
     let w := x.ty.width
     let n := intBits x.ty
     let cut := fun (v : Nat) => tyWords x.ty (BitVec.ofNat 64 v)
     Computes (.andX u x) (ofX x) u (from2 .int w .int w (ofX x) fun a b => tyWords x.ty (a &&& b)) ∧
     Computes (.orX u x) (ofX x) u (from2 .int w .int w (ofX x) fun a b => tyWords x.ty (a ||| b)) ∧
     Computes (.xorX u x) (ofX x) u (from2 .int w .int w (ofX x) fun a b => tyWords x.ty (a ^^^ b)) ∧
     Computes (.andn u x) (ofX x) u (from2 .int w .int w (ofX x) fun a b => tyWords x.ty (a &&& ~~~b)) ∧
     Computes (.not u x) (ofX x) u (from1 .int w (ofX x) fun a => tyWords x.ty (~~~a)) ∧
     Computes (.shlX u x) (ofX x) u (from2 .int w .int .w32 (ofX x) fun a k =>
       cut (if n ≤ k.toNat then 0 else a.toNat * 2 ^ k.toNat % 2 ^ n)) ∧
     Computes (.shrX u x) (ofX x) u (from2 .int w .int .w32 (ofX x) fun a k =>
       cut (if n ≤ k.toNat then 0 else a.toNat % 2 ^ n / 2 ^ k.toNat)) ∧
     Computes (.shaX u x) (ofX x) u (from2 .int w .int .w32 (ofX x) fun a k =>
       cut (shaVal n a.toNat k.toNat)) ∧
     Computes (.rotl u x) (ofX x) u (from2 .int w .int .w32 (ofX x) fun a k =>
       cut ((a.toNat % 2 ^ n * 2 ^ (k.toNat % n) + a.toNat % 2 ^ n / 2 ^ (n - k.toNat % n)) % 2 ^ n)) ∧
     Computes (.bfi u x) (ofX x) u (from3 .int w .int w .int .w32 (ofX x) fun a b c =>
       cut (bfiVal n a.toNat b.toNat c.toNat)) ∧
     Computes (.popc u x) (ofX x) u (from1 .int w (ofX x) fun a => [BitVec.ofNat 32 (popVal n (a.toNat % 2 ^ n))]) ∧
     Computes (.clz u x) (ofX x) u (from1 .int w (ofX x) fun a => [BitVec.ofNat 32 (clzVal n (a.toNat % 2 ^ n))]) ∧
     Computes (.ctz u x) (ofX x) u (from1 .int w (ofX x) fun a => [BitVec.ofNat 32 (ctzVal n (a.toNat % 2 ^ n))]) ∧
     Computes (.brev u x) (ofX x) u (from1 .int w (ofX x) fun a => cut (brevVal n (a.toNat % 2 ^ n))) ∧
     Computes (.sel u x) (ofX x) u (from3 .int w .int w .int .w32 (ofX x) fun a b c =>
       tyWords x.ty (if c.lo = 0 then b else a))) ∧
  (∀ w a b k : Nat, 0 < w → a < 2 ^ w →
     (∀ i < w, (shaVal w a k).testBit i = if i + k < w then a.testBit (i + k) else a.testBit (w - 1)) ∧
     (∀ i < w, (bfiVal w a b k).testBit i =
       if fieldPos w k ≤ i ∧ i < fieldPos w k + fieldLen w k then b.testBit (i - fieldPos w k) else a.testBit i) ∧
     popVal w a = ((List.range w).filter fun i => a.testBit i).length ∧
     (∀ i < w, (brevVal w a).testBit i = a.testBit (w - 1 - i)) ∧
     (ctzVal w a ≤ w ∧ (∀ i < ctzVal w a, a.testBit i = false) ∧ (ctzVal w a < w → a.testBit (ctzVal w a) = true)) ∧
     (clzVal w a ≤ w ∧ (∀ i < clzVal w a, a.testBit (w - 1 - i) = false) ∧
       (clzVal w a < w → a.testBit (w - 1 - clzVal w a) = true))) ∧
  (∀ (u : Bool) (c : ICond) (x : XOps),
     let w := x.ty.width
     let num := intVal x.ty
     let flag := fun (a b : DWord) => if iCondHolds c (num a) (num b) then [1] else [0]
     Computes (.bfx u x) (ofX x) u (from2 .int w .int .w32 (ofX x) fun a k =>
       let l := fieldLen (intBits x.ty) k.toNat
       let v := a.toNat / 2 ^ fieldPos (intBits x.ty) k.toNat % 2 ^ l
       tyWords x.ty (BitVec.ofInt 64 (if l = 0 then 0
         else if isSigned x.ty && v / 2 ^ (l - 1) % 2 == 1 then (v : Int) - (2 ^ l : Nat) else (v : Int)))) ∧
     Computes (.iset u c x) (ofX x) u (from2 .int w .int w (ofX x) flag) ∧
     Computes (.icmp c x) (ofX x) false (from2 .int w .int w (ofX x) flag))

/-! ### Floating point -/

/-- R296: the one-word .f32 forms complete with results rounded to nearest even, and the exceptions R274 lists. R298,
R299, R300: the arithmetic of the floating-point group at TYPE and RND, its uniform variants among them; one of those pops a
queue source of its elected lane only: the model's choice (log 84). -/
def Obligations.FloatArithmeticFormsCompute : Prop :=
  (∀ (o : AOps) (l : LOps),
     let f := fpOf .f32
     let val := fun (a : DWord) => f.decode (patOf .f32 a)
     let res := fun (r : FpRes) => (fpWords .f32 r.bits, r.flags)
     Computes (.faddA o) (ofA o) false
       (fpFrom2 (.fp .f32) .w32 (.fp .f32) .w32 (ofA o) fun a b => res (f.add .rne (val a) (val b))) ∧
     Computes (.fsubA o) (ofA o) false
       (fpFrom2 (.fp .f32) .w32 (.fp .f32) .w32 (ofA o) fun a b => res (f.add .rne (val a) (val b).neg)) ∧
     Computes (.fmulA o) (ofA o) false
       (fpFrom2 (.fp .f32) .w32 (.fp .f32) .w32 (ofA o) fun a b => res (f.mul .rne (val a) (val b))) ∧
     Computes (.fminA o) (ofA o) false
       (fpFrom2 (.fp .f32) .w32 (.fp .f32) .w32 (ofA o) fun a b => res (f.minmax false (patOf .f32 a) (patOf .f32 b))) ∧
     Computes (.fmaxA o) (ofA o) false
       (fpFrom2 (.fp .f32) .w32 (.fp .f32) .w32 (ofA o) fun a b => res (f.minmax true (patOf .f32 a) (patOf .f32 b))) ∧
     Computes (.faddL l) (ofL l) false
       (fpFrom2 (.fp .f32) .w32 (.fp .f32) .w32 (ofL l) fun a b => res (f.add .rne (val a) (val b))) ∧
     Computes (.fmulL l) (ofL l) false
       (fpFrom2 (.fp .f32) .w32 (.fp .f32) .w32 (ofL l) fun a b => res (f.mul .rne (val a) (val b)))) ∧
  (∀ (u : Bool) (x : XOps),
     let f := fpOf x.ty
     let lk := litOf x.ty
     let w := x.ty.width
     let pat := patOf x.ty
     let val := fun (a : DWord) => f.decode (pat a)
     let res := fun (r : FpRes) => (fpWords x.ty r.bits, r.flags)
     Computes (.faddX u x) (ofX x) u (fpFrom2 lk w lk w (ofX x) fun a b => res (f.add x.rnd (val a) (val b))) ∧
     Computes (.fsubX u x) (ofX x) u (fpFrom2 lk w lk w (ofX x) fun a b => res (f.add x.rnd (val a) (val b).neg)) ∧
     Computes (.fmulX u x) (ofX x) u (fpFrom2 lk w lk w (ofX x) fun a b => res (f.mul x.rnd (val a) (val b))) ∧
     Computes (.ffma u x) (ofX x) u
       (fpFrom3 lk w lk w lk w (ofX x) fun a b c => res (f.fma x.rnd (val a) (val b) (val c))) ∧
     Computes (.fdiv u x) (ofX x) u (fpFrom2 lk w lk w (ofX x) fun a b => res (f.div x.rnd (val a) (val b))) ∧
     Computes (.fminX u x) (ofX x) u (fpFrom2 lk w lk w (ofX x) fun a b => res (f.minmax false (pat a) (pat b))) ∧
     Computes (.fmaxX u x) (ofX x) u (fpFrom2 lk w lk w (ofX x) fun a b => res (f.minmax true (pat a) (pat b))) ∧
     Computes (.fscale u x) (ofX x) u
       (fpFrom2 lk w .int .w32 (ofX x) fun a n => res (scaleBits x.ty x.rnd (pat a) (intVal .s32 n))) ∧
     Computes (.frnd u x) (ofX x) u (fpFrom1 lk w (ofX x) fun a => res (rndBits x.ty x.rnd (pat a))) ∧
     Computes (.fsat u x) (ofX x) u (fpFrom1 lk w (ofX x) fun a => res (satBits x.ty (pat a))) ∧
     Computes (.fsgnCpy u x) (ofX x) u
       (fpFrom2 lk w lk w (ofX x) fun a b => res (sgnBits x.ty (fun _ sb => sb) (pat a) (pat b))) ∧
     Computes (.fsgnNeg u x) (ofX x) u
       (fpFrom2 lk w lk w (ofX x) fun a b => res (sgnBits x.ty (fun _ sb => 1 - sb) (pat a) (pat b))) ∧
     Computes (.fsgnXor u x) (ofX x) u
       (fpFrom2 lk w lk w (ofX x) fun a b => res (sgnBits x.ty (fun sa sb => (sa + sb) % 2) (pat a) (pat b))))

/-- R301, R303: the function group: a result is the function's value at the operand, rounded once. A uniform variant pops a
queue source of its elected lane only: the model's choice (log 84). -/
def Obligations.FunctionFormsCompute : Prop :=
  ∀ (u : Bool) (x : XOps),
    let f := fpOf x.ty
    let lk := litOf x.ty
    let w := x.ty.width
    let res := fun (r : FpRes) => (fpWords x.ty r.bits, r.flags)
    let fn := fun (g : FpFun) => fpFrom1 lk w (ofX x) fun a =>
      res (f.apply g x.rnd (f.decode (patOf x.ty a)))
    Computes (.frcp u x) (ofX x) u (fn .rcp) ∧ Computes (.frsq u x) (ofX x) u (fn .rsq) ∧
    Computes (.fsqrt u x) (ofX x) u (fn .sqrt) ∧ Computes (.fexp2 u x) (ofX x) u (fn .exp2) ∧
    Computes (.flog2 u x) (ofX x) u (fn .log2) ∧ Computes (.fsin u x) (ofX x) u (fn .sin) ∧
    Computes (.fcos u x) (ofX x) u (fn .cos) ∧ Computes (.ftanh u x) (ofX x) u (fn .tanh) ∧
    Computes (.frexp u x) (ofX x) u (fpFrom1 lk w (ofX x) fun a =>
      let r := frexpBits x.ty (patOf x.ty a)
      ([BitVec.ofNat 32 r.1.bits, BitVec.ofInt 32 r.2], r.1.flags)) ∧
    Computes (.fclass u x) (ofX x) u (from1 lk w (ofX x) fun a => [1 <<< classBit x.ty (patOf x.ty a)])

/-- R295, R304, R305: comparisons to a register or a predicate, and the conversions. R274, R276: an exception that
FPMODE enables traps the thread and leaves it as it was; otherwise FPSTAT gathers the exceptions and nothing else
changes. A uniform variant pops a queue source of its elected lane only: the model's choice (log 84). -/
def Obligations.FloatComparisonsConversionsAndTraps : Prop :=
  (∀ (u : Bool) (c : FCond) (k : FSrc) (d : IcvtDir) (x : XOps),
     let f := fpOf x.ty
     let lk := litOf x.ty
     let w := x.ty.width
     let val := fun (a : DWord) => f.decode (patOf x.ty a)
     let cmp := fpFrom2 lk w lk w (ofX x) fun a b =>
       ([if fCondHolds c (val a) (val b) then 1 else 0], fCondFlags c (val a) (val b))
     Computes (.fset u c x) (ofX x) u cmp ∧
     Computes (.fsetPred c x) (ofX x) false cmp ∧
     Computes (.fcvt k x) (ofX x) false (fpFrom1 (litOf k.ty) k.ty.width (ofX x) fun a =>
       let r := fcvtBits k.ty x.ty x.rnd x.ovf a.toNat
       (fpWords x.ty r.bits, r.flags)) ∧
     Computes (.icvt d x) (ofX x) false (fpFrom1 (litOf d.srcTy) d.srcTy.width (ofX x) fun a =>
       if d.toInt then
         let r := floatToInt x.ty x.rnd (elemVal d.srcTy a.toNat)
         (tyWords x.ty (BitVec.ofInt 64 r.1), r.2)
       else
         let v := intVal d.srcTy a
         let r := f.round false x.rnd (decide (v < 0)) v.natAbs 0 false
         (fpWords x.ty r.bits, r.flags))) ∧
  (∀ (th : Thread) (fl : Nat), fl < 32 →
     let on := fun (i : Nat) => th.fpmode.getLsbD i && fl.testBit i
     raiseFp fl th =
       if on 0 then .error (.trap .fpInvalid (BitVec.ofNat 64 fl) .nothing)
       else if on 1 then .error (.trap .fpDivZero (BitVec.ofNat 64 fl) .nothing)
       else if on 2 then .error (.trap .fpOverflow (BitVec.ofNat 64 fl) .nothing)
       else .ok ((), { th with fpstat := th.fpstat ||| BitVec.ofNat 32 fl }))

/-- R306 to R313: packed arithmetic, dot products, packed conversion and quantising. How PCVT reads an inline literal as its
source is the model's choice (log 120). -/
def Obligations.PackedFormsCompute : Prop :=
  ∀ (k : FSrc) (x : XOps),
    let int := x.ty.isInt
    let elem := fun (v : DWord) (j : Nat) => elemOf x.ty v.lo j
    let num := fun (v : DWord) (j : Nat) => intVal x.ty (BitVec.ofNat 64 (elem v j))
    let lanes := fun (fp : Nat → FpRes) (iv : Nat → Int) =>
      let rs := (List.range (32 / x.ty.container)).map fun j =>
        if int then (⟨(reduceInt x.ty x.ovf (iv j)).toNat % 2 ^ x.ty.container, 0⟩ : FpRes) else fp j
      ([BitVec.ofNat 32 (packElems x.ty.container (rs.map FpRes.bits))], rs.foldl (fun fl r => fl ||| r.flags) 0)
    let dot := fun (n : Nat) (a b c : DWord) =>
      if int then ([DWord.lo (dotInt x.ty (2 ^ n) x.ovf a.lo b.lo c.lo)], 0)
      else ([BitVec.ofNat 32 (dotFp x.ty n a.lo b.lo c.lo).bits], (dotFp x.ty n a.lo b.lo c.lo).flags)
    let lkc : LitK := if int then .int else .fp .f32
    Computes (.padd x) (ofX x) false (fpFrom2 .int .w32 .int .w32 (ofX x) fun a b =>
      lanes (fun j => addBits x.ty x.rnd (elem a j) (elem b j)) fun j => num a j + num b j) ∧
    Computes (.pmul x) (ofX x) false (fpFrom2 .int .w32 .int .w32 (ofX x) fun a b =>
      lanes (fun j => mulBits x.ty x.rnd (elem a j) (elem b j)) fun j => num a j * num b j) ∧
    Computes (.pfma x) (ofX x) false (fpFrom3 .int .w32 .int .w32 .int .w32 (ofX x) fun a b c =>
      lanes (fun j => fmaBits x.ty x.rnd (elem a j) (elem b j) (elem c j)) fun j => num a j * num b j + num c j) ∧
    Computes (.dot2 x) (ofX x) false (fpFrom3 .int .w32 .int .w32 lkc .w32 (ofX x) (dot 1)) ∧
    Computes (.dot4 x) (ofX x) false (fpFrom3 .int .w32 .int .w32 lkc .w32 (ofX x) (dot 2)) ∧
    Computes (.dot8 x) (ofX x) false (fpFrom3 .int .w32 .int .w32 lkc .w32 (ofX x) (dot 3)) ∧
    (pcvtNarrows k x = true → Computes (.pcvt k x) (ofX x) false (fun L => do
      let a ← srcA L .int .w32 (ofX x)
      let c ← srcC L .int .w32 (ofX x)
      let r := pcvtVal ((pcvtSrc k (x.b.bits / 8)).getD .f32) x.ty x.rnd x.ovf (x.b.bits % 8) a.lo c.lo
      raiseFp r.flags
      return [BitVec.ofNat 32 r.bits])) ∧
    (pcvtNarrows k x = false → Computes (.pcvt k x) (ofX x) false (fpFrom1 .int .w32 (ofX x) fun a =>
      let r := pcvtVal ((pcvtSrc k (x.b.bits / 8)).getD .f32) x.ty x.rnd x.ovf (x.b.bits % 8) a.lo 0
      ([BitVec.ofNat 32 r.bits], r.flags))) ∧
    Computes (.qnt x) (ofX x) false (from2 (.fp .f32) .w32 .int .w32 (ofX x) fun a b =>
      [BitVec.ofNat 32 (qntBits x.ty ((fpOf .f32).decode (patOf .f32 a)) b.toNat)]) ∧
    Computes (.dqnt x) (ofX x) false (fpFrom3 .int .w32 .int .w32 .int .w32 (ofX x) fun a b c =>
      let e := elem a (c.toNat % (32 / x.ty.container))
      let v := dqntVal x.ty e
      let r := dqntRes x.rnd v (b.toNat % 256)
      ([BitVec.ofNat 32 r.bits], r.flags))

/-- A number of a format stands at or below (at or above) (-1)^neg × m × 2^e; an infinity stands beyond every number. -/
def Sys2Proof.Machine.FpVal.atMost (neg : Bool) (m : Nat) (e : Int) : FpVal → Prop
  | .fin n k q => scaled n k q (min e q) ≤ scaled neg m e (min e q)
  | .inf n => n = true
  | .nan _ => False

def Sys2Proof.Machine.FpVal.atLeast (neg : Bool) (m : Nat) (e : Int) : FpVal → Prop
  | .fin n k q => scaled neg m e (min e q) ≤ scaled n k q (min e q)
  | .inf n => n = false
  | .nan _ => False

/-- The number that .rne gives, between the neighbours `dn` and `up` of m × 2^e, is the nearer one; `tie` holds in the middle. An
infinite neighbour counts as the power of two beyond the largest number (R270 step 3). -/
def Sys2Proof.Machine.nearest (f : FpFmt) (neg : Bool) (m : Nat) (e : Int) (dn up ne : FpVal) (evenNe sameNe : Bool) : Prop :=
  let top : Int := (f.emax : Int) + 1
  let num := fun (x : FpVal) (e0 : Int) =>
    match x with
    | .fin n k q => scaled n k q e0
    | .inf n => scaled n 1 top e0
    | .nan _ => 0
  let expOf := fun (x : FpVal) =>
    match x with
    | .fin _ _ q => q
    | _ => top
  let e0 := min (min e top) (min (expOf dn) (expOf up))
  let v := scaled neg m e e0
  let below := v - num dn e0
  let above := num up e0 - v
  (below < above → ne = dn) ∧ (above < below → ne = up) ∧ (below = above → sameNe = true ∨ evenNe = true)

/-- R270: a finite value that the format represents rounds to itself, in every mode, and raises nothing. R270: of any finite value,
.rdn gives a number not greater and .rup one not less, .rtz the one of the two of no greater magnitude, and .rne the nearer of
the two, in the middle the one whose F is even. -/
def Obligations.RoundingIsExactAndNearest : Prop :=
  (∀ (ty : Ty) (mode : Rnd) (x : Nat) (neg : Bool) (m : Nat) (e : Int),
     ty ∈ [Ty.f64, .f32, .f16, .bf16] → x < 2 ^ (fpOf ty).width → (fpOf ty).decode x = .fin neg m e →
     (fpOf ty).round false mode neg m e false = ⟨x, 0⟩) ∧
  (∀ (ty : Ty) (neg : Bool) (m : Nat) (e : Int) (sticky : Bool), ty ∈ [Ty.f64, .f32, .f16, .bf16] →
     let bits := fun (md : Rnd) => ((fpOf ty).round false md neg m e sticky).bits
     (bits .rne = bits .rdn ∨ bits .rne = bits .rup) ∧ (bits .rtz = bits .rdn ∨ bits .rtz = bits .rup) ∧
     bits .rtz = if neg then bits .rup else bits .rdn) ∧
  (∀ (ty : Ty) (neg : Bool) (m : Nat) (e : Int), ty ∈ [Ty.f64, .f32, .f16, .bf16] →
     let f := fpOf ty
     let bits := fun (md : Rnd) => (f.round false md neg m e false).bits
     let val := fun (md : Rnd) => f.decode (bits md)
     (val .rdn).atMost neg m e ∧ (val .rup).atLeast neg m e ∧
     (if neg then (val .rtz).atLeast neg m e else (val .rtz).atMost neg m e) ∧ (val .rtz).isInf = false ∧
     nearest f neg m e (val .rdn) (val .rup) (val .rne) (bits .rne % 2 == 0) (bits .rdn == bits .rup))

/-! ### Moves and lane operations -/

/-- R256, R262: the moves and SPLICE complete; MOVS reads a system register (R257, R258), in an access slice only
WORKID and TEAMSLOT of lane 0 and CYCLES, and traps OPERAND_KIND for another where it executes (log 128, the model's choice). A
uniform variant pops a queue source of its elected lane only: the model's choice (log 84). -/
def Obligations.MoveFormsCompute : Prop :=
  ∀ (u : Bool) (o : AOps) (l : LOps) (x : XOps),
    Computes (.mov o) (ofA o) false (from1 .int .w32 (ofA o) fun a => [a.lo]) ∧
    Computes (.movUniform o) (ofA o) true (from1 .int .w32 (ofA o) fun a => [a.lo]) ∧
    Computes (.movi u l) (ofL l) u (fun _ => return [l.lit]) ∧
    Computes (.splice x) (ofX x) false (from3 .int .w32 .int .w32 .int .w32 (ofX x) fun a b c =>
      [spliceVal a.lo b.lo c.lo]) ∧
    ∀ s : State, ComputesAt s (.movs u x) (ofX x) u fun L th =>
      let n := x.b.bits
      let words := fun (v : DWord) => if sysIs64 n then [v.lo, v.hi] else [v.lo]
      if L.acc then
        if n = 0 ∨ n = 1 ∨ n = 4 then .ok (words (readSys s L.k 0 (L.team.thread 0) n), th)
        else .error (.trap .operandKind (opTval n 2) .nothing)
      else .ok (words (readSys s L.k L.lane th n), th)

/-- R11, R81, R258: what a thread of a user team reads of each system register. R257: SETS writes the register for
each lane, in ascending order; a register that only the supervisor writes traps PRIVILEGED for the others, and a
reserved bit traps RESERVED_FIELD with the value. -/
def Obligations.SystemRegistersAreReadAndWritten : Prop :=
  (∀ (s : State) (k l : Nat) (th : Thread), (s.team k).kind = .user →
     let t := s.team k
     let c := s.ctx t.ctx
     readSys s k l th 0 = th.workid ∧ readSys s k l th 4 = s.cycles ∧ readSys s k l th 5 = t.teamtime ∧
     readSys s k l th 6 = t.deadline ∧ readSys s k l th 7 = th.pidx.zext ∧ readSys s k l th 8 = th.tcause.zext ∧
     readSys s k l th 9 = th.tval ∧ readSys s k l th 10 = th.tpc ∧ readSys s k l th 11 = t.trapbase ∧
     readSys s k l th 12 = th.fpstat.zext ∧ readSys s k l th 13 = th.fpmode.zext ∧ readSys s k l th 14 = th.cwin.zext ∧
     readSys s k l th 15 = th.vstale.zext ∧ readSys s k l th 17 = c.flareMask ∧ readSys s k l th 18 = c.flareEntry ∧
     readSys s k l th 20 = th.flareRpc ∧
     (readSys s k l th 1).toNat = l % 32 * 256 + t.slot / 16 % 4 * 64 + t.slot % 64 ∧
     (readSys s k l th 2).toNat = t.core / 160 * 512 % 2 ^ 32 + t.core % 160) ∧
  ((∀ x : XOps, Effects (.sets x) (ofX x) (fun _ => none) (setsLane x)) ∧
   ∀ (x : XOps) (s : State) (L : LCtx) (th th1 : Thread) (v : DWord),
     let n := x.b.bits
     srcA L .int (if sysIs64 n then .w64 else .w32) (ofX x) th = .ok (v, th1) →
     (L.team.kind ≠ .supervisor → n ∈ [0, 1, 2, 3, 4, 7, 16, 21] → ∃ w,
       setsLane x s L th = .error (.trap .privileged w .nothing)) ∧
     (L.team.kind = .supervisor → n ∈ [0, 1, 2, 3, 4, 7, 16, 21] → setsLane x s L th = .ok ([], th1, s)) ∧
     (n ∉ [0, 1, 2, 3, 4, 7, 16, 21] →
       (v &&& sysReserved n ≠ 0 → setsLane x s L th = .error (.trap .reservedField v .nothing)) ∧
       (v &&& sysReserved n = 0 →
         (n = 8 → setsLane x s L th = .ok ([], { th1 with tcause := v.lo }, s)) ∧
         (n = 9 → setsLane x s L th = .ok ([], { th1 with tval := v }, s)) ∧
         (n = 10 → setsLane x s L th = .ok ([], { th1 with tpc := v }, s)) ∧
         (n = 12 → setsLane x s L th = .ok ([], { th1 with fpstat := v.lo }, s)) ∧
         (n = 13 → setsLane x s L th = .ok ([], { th1 with fpmode := v.lo }, s)) ∧
         (n = 14 → setsLane x s L th = .ok ([], { th1 with cwin := v.lo }, s)) ∧
         (n = 15 → setsLane x s L th = .ok ([], { th1 with vstale := v.lo }, s)) ∧
         (n = 19 → setsLane x s L th = .ok ([], th1, setFlareTeam s L.k (v.getLsbD 31))) ∧
         (n = 20 → setsLane x s L th = .ok ([], { th1 with flareRpc := v }, s)) ∧
         (n = 5 → setsLane x s L th = .ok ([], th1, s.modTeam L.k fun t => { t with teamtime := v })) ∧
         (n = 6 → setsLane x s L th = .ok ([], th1, s.modTeam L.k fun t => { t with deadline := v })) ∧
         (n = 11 → setsLane x s L th = .ok ([], th1, s.modTeam L.k fun t => { t with trapbase := v })) ∧
         (n = 17 → setsLane x s L th = .ok ([], th1, s.modCtx (s.team L.k).ctx fun c => { c with flareMask := v })) ∧
         (n = 18 → setsLane x s L th = .ok ([], th1, s.modCtx (s.team L.k).ctx fun c => { c with flareEntry := v })))))

/-- R261, R262: PICK, ROT, SLIDE, SWAP, SPREAD: a lane takes source 0 of the lane that the form names, if it executes,
else its own fill; PEERS gives the lanes with an equal value. -/
def Obligations.LaneMovesComplete : Prop :=
  ∀ (u : Bool) (x : XOps),
    let w := x.ty.width
    let from_ := fun (name : Nat → Nat → Int) (vals : List (Nat × MoveSrc)) (l : Nat) (m : MoveSrc) =>
      tyWords x.ty (match vals.find? fun p => decide ((p.1 : Int) = name l m.b.toNat) with
        | some p => p.2.a
        | none => m.c)
    Collects (.pick x) (ofX x) false (readMove (ofX x) w) (from_ fun _ b => (b : Int)) ∧
    Collects (.rot x) (ofX x) false (readMove (ofX x) w) (from_ fun l b =>
      let g := 2 ^ min (fld b 8 3) 5
      ((l / g * g + (l - l / g * g + fld b 0 5) % g : Nat) : Int)) ∧
    Collects (.slide x) (ofX x) false (readMove (ofX x) w) (from_ fun l b => (l : Int) - intVal .s32 (BitVec.ofNat 64 b)) ∧
    Collects (.swap x) (ofX x) false (readMove (ofX x) w) (from_ fun l b => ((Nat.xor l (fld b 0 5) : Nat) : Int)) ∧
    Collects (.spread u x) (ofX x) u (readMove (ofX x) w) (fun vals _ _ =>
      match vals with
      | [] => []
      | (_, m) :: _ => tyWords x.ty (match vals.find? fun p => decide ((p.1 : Int) = (m.b.toNat : Int)) with
        | some p => p.2.a
        | none => m.c)) ∧
    Collects (.peers u x) (ofX x) u (fun L => srcA L .int w (ofX x)) (fun vals _ a =>
      [maskWhere vals fun b => b == a])

/-- R263, R264, R313: the votes, FIRST, the folds and BSCALE over the executing threads. R262: a mask of lanes has the
bit of a lane exactly where that lane's value qualifies. -/
def Obligations.VotesAndFoldsComplete : Prop :=
  (∀ (u : Bool) (x : XOps),
     let word := readA32 (ofX x)
     let fold := fun (op : Word → Word → Word) (vals : List (Nat × Word)) (_ : Nat) (_ : Word) =>
       match vals with
       | [] => [(0 : Word)]
       | (_, a) :: r => [r.foldl (fun t p => op t p.2) a]
     Collects (.pollAll u x) (ofX x) u word (fun vals _ _ => [if vals.all fun p => p.2 != 0 then 1 else 0]) ∧
     Collects (.pollAny u x) (ofX x) u word (fun vals _ _ => [if vals.any fun p => p.2 != 0 then 1 else 0]) ∧
     Collects (.pollMask u x) (ofX x) u word (fun vals _ _ => [maskWhere vals fun w => w != 0]) ∧
     Collects (.first u x) (ofX x) u (fun _ => (return () : LaneM Unit)) (fun vals l _ =>
       let low := (vals.head?.map (·.1)).getD 0
       [if u then BitVec.ofNat 32 low else if l = low then 1 else 0]) ∧
     Collects (.foldAdd u x) (ofX x) u word (fold fun a b => a + b) ∧
     Collects (.foldAnd u x) (ofX x) u word (fold fun a b => a &&& b) ∧
     Collects (.foldOr u x) (ofX x) u word (fold fun a b => a ||| b) ∧
     Collects (.foldMin u x) (ofX x) u word
       (fold fun a b => if intVal x.ty b.zext < intVal x.ty a.zext then b else a) ∧
     Collects (.foldMax u x) (ofX x) u word
       (fold fun a b => if intVal x.ty a.zext < intVal x.ty b.zext then b else a) ∧
     Collects (.bscale x) (ofX x) false (fun L => srcA L (.fp .f32) .w32 (ofX x)) (fun vals _ _ =>
       [BitVec.ofNat 32 (scaleOf x.ty (vals.map fun p => (fpOf .f32).decode (patOf .f32 p.2)))])) ∧
  (∀ (vals : List (Nat × Word)) (p : Word → Bool) (l : Nat), l < 32 →
     ((maskWhere vals p).getLsbD l = true ↔ ∃ w, (l, w) ∈ vals ∧ p w = true))

/-! ### Passing an instruction; control -/

/-- R29, R32, R358: the end of an instruction moves the lanes of the run to their next places and changes nothing else
of them but windows and stamps; every other lane, team and part of the state is as it was. -/
def Obligations.PassingAnInstructionKeepsTheRest : Prop :=
  ∀ (s : State) (idx : Nat) (r : Run) (f : Fields) (pcs : Nat → DWord), runAt s idx = some r → Plain s r →
    let t := finish s (groupOf s idx r f) pcs
    PassedWith s t r (laneOf s r) ∧ ContinueAt t r fun l => (pcs l, none)

/-- R364: the lanes that take a transfer continue at their targets, the others at the next instruction; a call pushes
the address of the next instruction. R364: a call with sixteen return addresses traps CALL_STACK with TVAL 1, a return
with none CALL_STACK with TVAL 2, and a transfer to a misaligned address MISALIGNED_PC with the address; the lane
parks there with its stack as it was, and the other lanes of the group go on. -/
def Obligations.TransfersReachTheirTargetsOrTrap : Prop :=
  (∀ (s : State) (idx : Nat) (r : Run) (f : Fields) (call : Bool) (targets : List (Nat × DWord)),
     runAt s idx = some r → Plain s r → (∀ p ∈ targets, p.1 ∈ r.lanes) → (targets.map (·.1)).Nodup →
     (∀ p ∈ targets, p.2.toNat % 4 = 0 ∧ (call = true → (laneOf s r p.1).callStack.length < 16)) →
     let t := transfer s s (groupOf s idx r f) call targets
     let takes := fun (l : Nat) => targets.any fun p => p.1 == l
     PassedWith s t r (fun l =>
       if call && takes l then
         { laneOf s r l with callStack := mkResume (resumeAddr (placeAfter r f)) 0 :: (laneOf s r l).callStack }
       else laneOf s r l) ∧
     ContinueAt t r fun l =>
       match targets.find? fun p => p.1 == l with
       | some p => jumpPlace p.2
       | none => (placeAfter r f, none)) ∧
  (∀ (s0 s : State) (idx : Nat) (r : Run) (f : Fields) (call : Bool) (targets : List (Nat × DWord)),
     runAt s idx = some r → Plain s r → (∀ p ∈ targets, p.1 ∈ r.lanes) → (targets.map (·.1)).Nodup →
     (∀ p ∈ targets, (laneOf s r p.1).recorded = [] ∧ undecided (laneOf s r p.1) = false) →
     let t := transfer s0 s (groupOf s0 idx r f) call targets
     let now := fun (l : Nat) => t.thread r.team l
     let trapped := fun (l : Nat) (c : Cause) (v : DWord) =>
       (now l).status = .parked ∧ (now l).tcause = BitVec.ofNat 32 c.code ∧ (now l).tval = v ∧ (now l).tpc = placeOf r ∧
       (now l).callStack = (laneOf s r l).callStack ∧ (now l).v = (laneOf s r l).v
     ∀ p ∈ targets,
       let full := call = true ∧ 16 ≤ (laneOf s r p.1).callStack.length
       (p.2.toNat % 4 ≠ 0 → trapped p.1 .misalignedPc p.2) ∧
       (p.2.toNat % 4 = 0 → full → trapped p.1 .callStack 1) ∧
       (p.2.toNat % 4 = 0 → ¬full →
         ((now p.1).pc, (now p.1).farPc) = jumpPlace p.2 ∧ (now p.1).callStack =
           if call then mkResume (resumeAddr (placeAfter r f)) 0 :: (laneOf s r p.1).callStack else (laneOf s r p.1).callStack)) ∧
  (∀ (s : State) (idx : Nat) (r : Run) (l : Nat) (o : BrOps), Plain s r → r.lanes = [l] → (laneOf s r l).recorded = [] →
     undecided (laneOf s r l) = false →
     let trapped := fun (t : State) (c : Cause) (v : DWord) =>
       (t.thread r.team l).status = .parked ∧ (t.thread r.team l).tcause = BitVec.ofNat 32 c.code ∧
       (t.thread r.team l).tval = v ∧ (t.thread r.team l).tpc = placeOf r ∧
       (t.thread r.team l).callStack = (laneOf s r l).callStack ∧ (t.thread r.team l).v = (laneOf s r l).v ∧ t.mem = s.mem
     let target := resumeAddr (placeOf r) + o.lit.sext
     ((laneOf s r l).pred o.pred.toNat ≠ o.pneg → Goes s idx r ofBr (fun _ => none) false [] false →
       (target.toNat % 4 ≠ 0 → (∃ t, exec (.bra o) s = .next t ∧ trapped t .misalignedPc target) ∧
         ∃ t, exec (.call o) s = .next t ∧ trapped t .misalignedPc target) ∧
       (target.toNat % 4 = 0 → (laneOf s r l).callStack.length = 16 →
         ∃ t, exec (.call o) s = .next t ∧ trapped t .callStack 1)) ∧
     (Goes s idx r { len := 1 } (fun _ => none) false [] false → (laneOf s r l).callStack = [] →
       ∃ t, exec .ret s = .next t ∧ trapped t .callStack 2))

/-- R84, R364: BRA and CALL send the lanes for which their condition holds to the instruction's address plus the
literal; CALLX sends every executing lane to the address it reads, BRX to the instruction's address plus the table's
entry. R364: RET pops the return address of every lane and continues there. -/
def Obligations.BranchesCallsAndReturnsComplete : Prop :=
  ((∀ (o : BrOps) (s : State) (idx : Nat) (r : Run), Goes s idx r ofBr (fun _ => none) false [] false →
     let g := groupOf s idx r ofBr
     let taken := (r.lanes.filter fun l => (laneOf s r l).pred o.pred.toNat != o.pneg).map fun l =>
       (l, resumeAddr (placeOf r) + o.lit.sext)
     exec (.bra o) s = .next (transfer s s g false taken) ∧ exec (.call o) s = .next (transfer s s g true taken)) ∧
   (∀ x : XOps, ReadsThen (.callx x) x noWait
     (fun s L th => match srcA L .int .w64 (ofX x) th with
       | .error e => .error e
       | .ok (a, th) => .ok (a, th, s))
     (fun s0 s g vals => transfer s0 s g true vals)) ∧
   (∀ x : XOps, ReadsThen (.brx x) x noWait (brxRead x)
     (fun s0 s g vals => transfer s0 s g false (vals.map fun p => (p.1, resumeAddr g.here + p.2.sext))))) ∧
  (∀ (s : State) (idx : Nat) (r : Run) (ret : Nat → DWord) (rest : Nat → List DWord),
     Goes s idx r { len := 1 } (fun _ => none) false [] false → Plain s r →
     (∀ l ∈ r.lanes, (laneOf s r l).callStack = ret l :: rest l) →
     ∃ t, exec .ret s = .next t ∧ PassedWith s t r (fun l => { laneOf s r l with callStack := rest l }) ∧
       ContinueAt t r fun l => jumpPlace (resumeAddr (ret l)))

/-- R365, R366, R360: NOP, the reconvergence forms and YIELD complete; RJOIN.SET makes the lanes participants and traps
RECONVERGE_MISUSE, with the barrier's number, those that are participants already; the lanes that RJOIN.WAIT finds in the
barrier's participants wait, and the barrier releases when all have arrived. R361: a barrier whose participants have
all arrived makes them ready and is idle; any other stays as it is. R366: SLEEP puts each executing lane to sleep for
the cycles it reads, and the end of its sleep makes it ready once CYCLES has reached it. -/
def Obligations.ReconvergenceYieldAndSleepComplete : Prop :=
  (∀ (s : State) (idx : Nat) (r : Run) (x : XOps),
     let f := ofX x
     let g := groupOf s idx r f
     let e := execLanes s r f
     let b := x.a.bits
     let part := (getAt ((0, 0) : Word × Word) (s.team r.team).joins b).1
     (Goes s idx r f (fun _ => none) false [] false →
       exec (.nop x) s = .next (finishNext s g) ∧
       (r.acc = false →
         let s1 := finishNext s g
         let hide := e.foldl (fun s l => s.modThread r.team l fun th => { th with wait := some (.yield []) }) s1
         let woken := wakePipe hide (pipeOf (s.team r.team)).1 (pipeOf (s.team r.team)).2
         let gs := (pipeGroups woken (pipeOf (s.team r.team)).1 (pipeOf (s.team r.team)).2).map fun q => (q.team, q.at_)
         exec (.yield x) s = .next (e.foldl (fun s l => s.modThread r.team l fun th =>
           if th.status == .live then
             { th with wait := if gs.isEmpty then none else some (.yield gs), waitPc := placeOf r }
           else th) woken)) ∧
       (r.acc = true →
         let s1 := finishNext s g
         let others := ((readyAccess s1 (s.team r.team).core).filter fun p => p.1 != r.team).map fun p =>
           (p.1, ({ hdr := 0, off := 0, mark := 0 } : Where))
         exec (.yield x) s = .next (if e.isEmpty || others.isEmpty then s1
           else modThreadIn s1 r.team true 0 fun th => { th with wait := some (.yield others), waitPc := placeOf r }))) ∧
     (Goes s idx r f (fun st => opChecks st (Instr.shape (.rjoinSet x)) f) false [] false →
       let bad := e.filter fun l => part.getLsbD l
       let good := e.filter fun l => !part.getLsbD l
       exec (.rjoinSet x) s = .next (finishNext (modJoin
         (trapLanes s r.team idx r.acc (bad.map fun l => trapAt g l .reconvergeMisuse (BitVec.ofNat 64 b))) r.team b
         fun p => (p.1 ||| laneMask good, p.2)) g)) ∧
     (Goes s idx r f (fun st => opChecks st (Instr.shape (.rjoinLeave x)) f) false [] false →
       exec (.rjoinLeave x) s =
         .next (finishNext (modJoin s r.team b fun p => (p.1 &&& ~~~(laneMask e), p.2 &&& ~~~(laneMask e))) g)) ∧
     (Goes s idx r f (fun st => opChecks st (Instr.shape (.rjoinWait x)) f) false [] false →
       (∀ l ∈ e, ∀ o ∈ (laneOf s r l).ops, o.decided = true) →
       let mine := e.filter fun l => part.getLsbD l
       exec (.rjoinWait x) s = .next (modJoin (startWaits s g fun l => if mine.contains l then some (.rjoin b) else none)
         r.team b fun p => (p.1, p.2 ||| laneMask mine)))) ∧
  (∀ (t : Team) (b : Nat) (part arr : Word), b < t.joins.length → getAt (0, 0) t.joins b = (part, arr) →
     (part ≠ 0 → arr = part →
       getAt (0, 0) (t.joinCheck b).joins b = (0, 0) ∧
       ∀ l < t.threads.length, (t.thread l).wait = some (.rjoin b) → arr.getLsbD l = true →
         ((t.joinCheck b).thread l).wait = none) ∧
     ((part = 0 ∨ arr ≠ part) → t.joinCheck b = t)) ∧
  ((∀ x : XOps, ReadsThen (.sleep x) x Grp.await
     (fun s L th => match srcA L .int .w32 (ofX x) th with
       | .error e => .error e
       | .ok (a, th) => .ok (a.toNat, th, s))
     (fun _ s g vals => vals.foldl (fun s p => s.push (.sleepExpiry g.k p.1)) (startWaits s g fun l =>
       (vals.find? fun p => p.1 == l).map fun p => .sleep (s.cycles.toNat + p.2)))) ∧
   (∀ (s : State) (k l till : Nat), (s.thread k l).wait = some (.sleep till) →
     (till ≤ s.cycles.toNat → exec (.sleepExpiry k l) s = .next (s.modThread k l fun th => { th with wait := none })) ∧
     (s.cycles.toNat < till → exec (.sleepExpiry k l) s = .next (s.push (.sleepExpiry k l)))))

/-! ### Memory instructions -/

/-- R53, R57, R189 to R191, R195, R203: loads and atomic operations issue: each lane whose checks pass has an
operation in flight, its counter one higher, until LOAD_DATA_RETURN. R159, R189, R191, R195: stores and RED issue:
each lane's entry enters the team's store queue, in ascending lane order, until STORE_PERFORM. -/
def Obligations.MemoryAccessesIssue : Prop :=
  (∀ (s s1 : State) (idx : Nat) (r : Run) (v : Nat → Started) (th : Nat → Thread),
     let s0 : State := { s with serial := s.serial + 1 }
     (∀ m : MOps, Goes s idx r (ofM m) (fun st => memChecks st m false true) false (memRegs m false true) true →
       let g := groupOf s idx r (ofM m)
       let t := fun (decided : Bool) =>
         finishNext (startedOps s1 g s.serial (g.la s) (loadDsts m) decided (g.e.map fun l => (l, v l, th l))) g
       (AllOk g s0 (loadLane (.ld m) m false false r.team g.here) v th s1 → exec (.ld m) s = .next (t false)) ∧
       (AllOk g s0 (loadLane (.ldro m) m true false r.team g.here) v th s1 → exec (.ldro m) s = .next (t false)) ∧
       (AllOk g s0 (loadLane (.ldmon m) m false true r.team g.here) v th s1 → exec (.ldmon m) s = .next (t false)) ∧
       (AllOk g s0 (ldsLane (.lds m) m r.team g.here) v th s1 → exec (.lds m) s = .next (t true))) ∧
     (∀ (op : AtomOp) (x : XOps) (i : Instr) (bank scratch : Bool),
       (i, bank, scratch) ∈ [(Instr.atom op x, false, false), (.atoms op x, false, true), (.bankop op x, true, false)] →
       Goes s idx r (ofX x) (fun st => opChecks st i.shape (ofX x)) false (regsOf i.shape (ofX x) false) true →
       let g := groupOf s idx r (ofX x)
       AllOk g s0 (atomLane i op x bank scratch r.team g.here) v th s1 →
       exec i s = .next (finishNext (startedOps s1 g s.serial (g.la s) (dstRegs false i.shape.d x.dst) scratch
         (g.e.map fun l => (l, v l, th l))) g))) ∧
  (∀ (s s1 : State) (idx : Nat) (r : Run) (v : Nat → StoreEntry × LogRec) (th : Nat → Thread),
     let s0 : State := { s with serial := s.serial + 1 }
     let t := fun (g : Grp) => finishNext (startedStores s1 g (g.act.any fun l => !(g.thread s l).replay.isEmpty)
       (g.e.map fun l => (l, (v l).1, th l))) g
     (∀ m : MOps, Goes s idx r (ofM m) (fun st => memChecks st m true true) false (memRegs m true true) true →
       let g := groupOf s idx r (ofM m)
       (AllOk g s0 (fun s' L th => storeLane (.st m) m r.team g.here s' L th s.serial) v th s1 →
         exec (.st m) s = .next (t g)) ∧
       (AllOk g s0 (fun s' L th => stsLane (.sts m) m r.team g.here s' L th s.serial) v th s1 →
         exec (.sts m) s = .next (t g))) ∧
     (∀ (op : AtomOp) (x : XOps),
       Goes s idx r (ofX x) (fun st => opChecks st (Instr.shape (.red op x)) (ofX x)) false
         (srcRegs (Instr.shape (.red op x)).a x.a ++ srcRegs (Instr.shape (.red op x)).b x.b ++
           srcRegs (Instr.shape (.red op x)).c x.c) true →
       let g := groupOf s idx r (ofX x)
       AllOk g s0 (fun s' L th => redLane (.red op x) op x r.team g.here s' L th s.serial) v th s1 →
       exec (.red op x) s = .next (t g)))

/-- R44, R185, R189: a lane of LD or ST of a whole size accesses base plus offset; a misaligned address traps
MISALIGNED_ACCESS with the address, and a store's entry holds the low bytes of its data at the translated place. R192:
a packed element is named by its bit address: it is aligned to 4 bits, or to 2 for a 6-bit element, and lies in the
one or two bytes that hold its bits; a misaligned one traps MISALIGNED_ACCESS. R134, R135, R191: LDS and STS trap
SCRATCH_RANGE where the address has bits above 31 or names no bytes of a grant, and MISALIGNED_ACCESS where it is not
aligned, each with the whole address; an address below 2^22 names the bytes at its low 19 bits of the grant of the team's
own crew where its PEER bit is 0 or names the own core, and without such a crew of the group another core's none. R195: a
lane of RED traps MISALIGNED_ACCESS, ATOMIC_UNSUPPORTED on a port word, or the memory error found on its line, and else its
entry holds the operation and operand b at the translated place. -/
def Obligations.AccessesAreCheckedAndAddressed : Prop :=
  (∀ (m : MOps) (s s' : State) (k : Nat) (here : DWord) (L : LCtx) (th th' th'' : Thread) (lr ls : LogRec) (id : Nat) (p : Piece),
     m.size ≠ .packed →
     memLog (.ld m) m here false L th = .ok (lr, th') → memLog (.st m) m here true L th = .ok (ls, th'') →
     let a := addrOf lr.base m
     let b := addrOf ls.base m
     rangeBusy th' a 16 = false → rangeBusy th'' b 16 = false →
     a = lr.base + m.off.signExtend 64 ∧
     (a.toNat % sizeBytes m.size ≠ 0 →
       loadLane (.ld m) m false false k here s L th = .error (.trap .misalignedAccess a .nothing)) ∧
     (b.toNat % sizeBytes m.size ≠ 0 →
       storeLane (.st m) m k here s L th id = .error (.trap .misalignedAccess b .nothing)) ∧
     (a.toNat % sizeBytes m.size = 0 → s.piece k L.lane .load a (sizeBytes m.size) = .ok (p, s') →
       loadLane (.ld m) m false false k here s L th = .ok ({ what := .load m a false false, lr := lr }, th', s')) ∧
     (b.toNat % sizeBytes m.size = 0 → s.piece k L.lane .store b (sizeBytes m.size) = .ok (p, s') →
       s.portIn p.xl.pa p.n = false → s.unreachable (s.team k).die p.xl.ty p.xl.pa = none → th''.lost = none →
       ∃ e, storeLane (.st m) m k here s L th id = .ok ((e, ls), th'', s') ∧ e.lane = L.lane ∧ e.op = id ∧ e.va = b ∧
         e.writes = wholeBytes p.xl.pa ((bytesOfWords ls.data).take (sizeBytes m.size)) ∧ e.placeholder = false)) ∧
  (∀ (m : MOps) (s s1 s2 : State) (k l : Nat) (kind : AccKind) (a : DWord) (p q : Piece), m.size = .packed →
     let w := if m.hint = 0 then 4 else 6
     let byte := a.sshiftRight 3
     (a.toNat % (if w = 4 then 4 else 2) ≠ 0 → s.pieces k l kind m a = .error (.trap .misalignedAccess a .nothing)) ∧
     (a.toNat % (if w = 4 then 4 else 2) = 0 → s.piece k l kind byte 1 = .ok (p, s1) →
       (a.toNat % 8 + w ≤ 8 → s.pieces k l kind m a = .ok ([p], s1)) ∧
       (8 < a.toNat % 8 + w → s1.piece k l kind (byte + 1) 1 = .ok (q, s2) → p.xl.ty = q.xl.ty → p.xl.mode = q.xl.mode →
         s.pieces k l kind m a = .ok ([p, q], s2)))) ∧
  (∀ (m : MOps) (s : State) (k : Nat) (here : DWord) (L : LCtx) (th th' th'' : Thread) (lr ls : LogRec) (id : Nat),
     m.size ≠ .packed →
     memLog (.lds m) m here false L th = .ok (lr, th') → memLog (.sts m) m here true L th = .ok (ls, th'') →
     let n := sizeBytes m.size
     let a := addrOf lr.base m
     let b := addrOf ls.base m
     let bad := fun (v : DWord) => 2 ^ 32 ≤ v.toNat ∨ (v.toNat % n = 0 ∧ s.scratchAt k v.toNat n = none)
     (bad a → ldsLane (.lds m) m k here s L th = .error (.trap .scratchRange a .nothing)) ∧
     (bad b → stsLane (.sts m) m k here s L th id = .error (.trap .scratchRange b .nothing)) ∧
     (a.toNat < 2 ^ 32 → a.toNat % n ≠ 0 → ldsLane (.lds m) m k here s L th = .error (.trap .misalignedAccess a .nothing)) ∧
     (b.toNat < 2 ^ 32 → b.toNat % n ≠ 0 →
       stsLane (.sts m) m k here s L th id = .error (.trap .misalignedAccess b .nothing)) ∧
     (∀ c off, a.toNat < 2 ^ 32 → a.toNat % n = 0 → s.scratchAt k a.toNat n = some (c, off) →
       ldsLane (.lds m) m k here s L th = .ok ({ what := .lds m a, lr := lr }, th', s)) ∧
     (∀ c off, b.toNat < 2 ^ 32 → b.toNat % n = 0 → s.scratchAt k b.toNat n = some (c, off) → th''.lost = none →
       ∃ e, stsLane (.sts m) m k here s L th id = .ok ((e, ls), th'', s) ∧ e.lane = L.lane ∧ e.op = id ∧
         e.scratch = some c ∧ e.writes = wholeBytes off ((bytesOfWords ls.data).take n) ∧ e.red = none ∧
         e.placeholder = false)) ∧
  (∀ (s : State) (k c a n : Nat), (s.team k).crew = some c →
     let own := (s.team k).core % 4
     let off := a % 2 ^ 19
     (2 ^ 22 ≤ a → s.scratchAt k a n = none) ∧
     (a < 2 ^ 22 → (a / 2 ^ 21 = 0 ∨ a / 2 ^ 19 % 4 = own) → (∃ kt ∈ s.teams, kt.2.crew = some c ∧ kt.2.resident = true) →
       s.scratchAt k a n = if off + n ≤ (s.crew c).grant then some (c, off) else none) ∧
     (a < 2 ^ 22 → a / 2 ^ 21 = 1 → a / 2 ^ 19 % 4 ≠ own →
       (∀ c' ∈ ((aget s.groups (s.crew c).group).getD {}).crews,
         (s.crew c').core ≠ (s.team k).core / 4 * 4 + a / 2 ^ 19 % 4) → s.scratchAt k a n = none)) ∧
  (∀ (op : AtomOp) (x : XOps) (s s1 : State) (k : Nat) (here : DWord) (L : LCtx) (th th' : Thread) (lr : LogRec) (id : Nat)
     (p : Piece), logOperands (.red op x) (ofX x) (Instr.shape (.red op x)) here L th = .ok (lr, th') →
     let n := tyBytes x.ty
     let lane := redLane (.red op x) op x k here s L th id
     (lr.a.toNat % n ≠ 0 → lane = .error (.trap .misalignedAccess lr.a .nothing)) ∧
     (lr.a.toNat % n = 0 → rangeBusy th' lr.a 8 = false →
       s.piece k L.lane (.atomic (wideScope x.scope) false) lr.a n = .ok (p, s1) →
       (s.portIn p.xl.pa n = true → lane = .error (.trap .atomicUnsupported lr.a .nothing)) ∧
       (s.portIn p.xl.pa n = false → s.unreachable (s.team k).die p.xl.ty p.xl.pa = none →
         let s2 := s1.redReach (s.team k).agent p.xl lr.a n
         (∀ c, s2.memErrorFor (some (s.team k).agent) p.xl.mode p.xl.pa n = some c → lane = .error (.trap c lr.a .nothing)) ∧
         (s2.memErrorFor (some (s.team k).agent) p.xl.mode p.xl.pa n = none →
           ∃ e, lane = .ok ((e, lr), th', s2) ∧ e.lane = L.lane ∧ e.op = id ∧ e.va = lr.a ∧
             e.red = some (op, x.ty, lr.b) ∧ e.scope = x.scope ∧ e.scratch = none ∧ e.placeholder = false ∧
             e.writes.map (·.1) = (List.range n).map (p.xl.pa + ·)))))

/-- What a load leaves that ends for `lanes`, with the words `ws` for each, in the state `s2` that the read gave: every lane
has its words in the destination registers `d` on and is no longer in flight (R57), one whose destination is q4 to q7 has
pushed its word where it stands in program order (R46), or keeps it while that queue is full. -/
def Sys2Proof.Machine.LoadEnds (s s2 : State) (k l id : Nat) (tm : Team) (lanes : List Nat) (ws : Nat → List Word)
    (stale : Bool) (mon : Option Xlat) : Prop :=
  let flies := fun (j : Nat) (dsts : List Nat) (o : TOp) =>
    (tm.thread j).ops.filter (fun x => x.id == id) = [o] ∧ o.doomed = none ∧ o.dsts = dsts
  let mark := fun (j : Nat) => if stale then (tm.thread j).vstale ||| 1 else (tm.thread j).vstale
  (∀ (d n : Nat) (o : Nat → TOp), d + n ≤ 120 →
     (∀ j ∈ lanes, flies j (List.range' d n) (o j) ∧ (ws j).length = n ∧ d + n ≤ (tm.thread j).v.length) →
     ∃ t, exec (.loadDataReturn k l id) s = .next t ∧ t.mem = s2.mem ∧
       ∀ j ∈ lanes, (∀ r, (t.thread k j).vreg r = if d ≤ r ∧ r < d + n then getAt 0 (ws j) (r - d) else (tm.thread j).vreg r) ∧
         (t.thread k j).outq = (tm.thread j).outq ∧ (t.thread k j).vstale = mark j ∧
         (t.thread k j).dcOf (o j).dc = (tm.thread j).dcOf (o j).dc - 1 ∧ (∀ op ∈ (t.thread k j).ops, op.id ≠ id) ∧
         (mon = none → (t.thread k j).monitor = (tm.thread j).monitor) ∧
         (∀ xl, mon = some xl → lanes = [j] → (t.thread k j).monitor = ((armMonitor s2 k j xl).thread k j).monitor)) ∧
  (∀ (q : Nat) (w : Word) (o : TOp), lanes = [l] → ws l = [w] → flies l [124 + q] o → q < 4 →
     q < (tm.thread l).outq.length → pushFault (tm.thread l) q = none → tm.deadQueue (q + 4) = none →
     let data := getAt [] (tm.thread l).outq q
     (data.length < Config.queueDepth →
       ∃ t, exec (.loadDataReturn k l id) s = .next t ∧ t.mem = s2.mem ∧
         getAt [] (t.thread k l).outq q = data ++ [(o.order, w)] ∧ (t.thread k l).v = (tm.thread l).v ∧
         (t.thread k l).vstale = mark l ∧ ∀ op ∈ (t.thread k l).ops, op.id ≠ id) ∧
     (Config.queueDepth ≤ data.length →
       ∃ t o', exec (.loadDataReturn k l id) s = .next t ∧ t.mem = s2.mem ∧ opOf (t.thread k l) id = some o' ∧
         o'.what = .got [w] stale ∧ (t.thread k l).outq = (tm.thread l).outq ∧ (t.thread k l).v = (tm.thread l).v))

/-- R186, R187, R189 to R191, R203: LOAD_DATA_RETURN gives the lanes of a load that read the same bytes their values, once each
lane's earlier loads and pushed data are done with and none waits for its own queued RED: the bytes at their place (for
LDRO on a core with the cache, those of its read-only cache), for LDS those of the scratchpad, with the lane's own older
queued stores over them; LDMON arms the monitor. R189, R192: the words are the bytes in little-endian order, extended by
zeros or by the sign as SIZE says, and of a packed element its bits. R150, R193 to R195: an atomic operation on a place
writes the value its row of the table gives for the old one, and answers the old one. -/
def Obligations.LoadsAndAtomicsWriteTheirResults : Prop :=
  (∀ (s s1 s2 : State) (k l id : Nat) (tm : Team) (o : TOp) (m : MOps) (a : DWord) (ro mon stale : Bool) (ps : List Piece)
     (bs : List Byte) (lanes : List Nat),
     aget s.teams k = some tm → s2.teams = s.teams → opOf (tm.thread l) id = some o → o.what = .load m a ro mon →
     sameOp tm id o.what = lanes → (∀ j ∈ lanes, loadReady tm j id = true) →
     s.pieces k l .load m a (some o.order) = .ok (ps, s1) →
     let ord := fun (j : Nat) => ((opOf (tm.thread j) id).map TOp.order).getD id
     (∀ j ∈ lanes, ownBefore tm j (ord j) ps = false) →
     (match ro && tm.kind != .lodestar, ps with
       | true, p :: _ => readRo s1 tm p
       | _, _ => readPieces s1 tm.agent ps) = .ok bs stale s2 →
     let laid := fun (j : Nat) =>
       match ps with
       | [p, q] => overlay tm j (ord j) none p.xl.pa (bs.take 1) ++ overlay tm j (ord j) none q.xl.pa (bs.drop 1)
       | _ => overlay tm j (ord j) none ((ps.head?.map fun p => p.xl.pa).getD 0) bs
     LoadEnds s s2 k l id tm lanes (fun j => loadWords m a (laid j)) stale
       (if mon then ps.head?.map fun p => p.xl else none)) ∧
  (∀ (s : State) (k l id c off : Nat) (tm : Team) (o : TOp) (m : MOps) (a : DWord) (lanes : List Nat),
     aget s.teams k = some tm → opOf (tm.thread l) id = some o → o.what = .lds m a → sameOp tm id o.what = lanes →
     (∀ j ∈ lanes, loadReady tm j id = true) → s.scratchPlace k a (sizeBytes m.size) = .ok (c, off) →
     LoadEnds s s k l id tm lanes (fun j => loadWords m a (overlay tm j (((opOf (tm.thread j) id).map TOp.order).getD id) (some c) off
       (s.scratchRead c off (sizeBytes m.size)))) false none) ∧
  (∀ (m : MOps) (a : DWord),
     (∀ bs, m.size ∈ [Size.n8, .n16, .b32] → bs.length = sizeBytes m.size → loadWords m a bs = [BitVec.ofNat 32 (leNat bs)]) ∧
     (∀ b, m.size = .s8 → loadWords m a [b] = [b.signExtend 32]) ∧
     (∀ b c : Byte, m.size = .s16 → loadWords m a [b, c] = [(c ++ b).signExtend 32]) ∧
     (∀ x y, m.size = .b64 → x.length = 4 → y.length = 4 →
       loadWords m a (x ++ y) = [BitVec.ofNat 32 (leNat x), BitVec.ofNat 32 (leNat y)]) ∧
     (∀ x y z w, m.size = .b128 → x.length = 4 → y.length = 4 → z.length = 4 → w.length = 4 →
       loadWords m a (x ++ (y ++ (z ++ w))) = [x, y, z, w].map fun b => BitVec.ofNat 32 (leNat b)) ∧
     (∀ bs, m.size = .packed → ∃ w, loadWords m a bs = [w] ∧ ∀ j, j < 32 →
       w.getLsbD j = (decide (j < if m.hint = 0 then 4 else 6) && (leNat bs).testBit (a.toNat % 8 + j)))) ∧
  (∀ (s : State) (ag : AgentId) (self : Option (Nat × Nat)) (ty : Ty) (pa : Nat) (b c : DWord) (va : Option DWord),
     s.mem.wf = true → s.ucopies = [] → s.swmCopy ag (lineOf pa) = none →
     let n := tyBytes ty
     let old := s.mem.nat pa n
     let x := b.toNat % 2 ^ (8 * n)
     let y := c.toNat % 2 ^ (8 * n)
     let num := fun (v : Nat) => if ty ∈ [Ty.s32, .s64] then (BitVec.ofNat (8 * n) v).toInt else (v : Int)
     let after := fun (op : AtomOp) => (s.rmw ag .home false self op ty pa b c va).2.mem.nat pa n
     (ty ∈ [Ty.n32, .s32, .n64, .s64, .b32, .b64, .f32, .f64] →
       ∀ op, (s.rmw ag .home false self op ty pa b c va).1 = BitVec.ofNat 64 old) ∧
     (ty ∈ [Ty.n32, .s32, .n64, .s64, .b32, .b64] →
       after .add = (old + x) % 2 ^ (8 * n) ∧ after .and = old &&& x ∧ after .or = old ||| x ∧ after .xor = old ^^^ x ∧
       after .exch = x ∧ after .cas = (if old = x then y else old) ∧ after .mul = old * x % 2 ^ (8 * n) ∧
       after .min = (if num x < num old then x else old) ∧ after .max = (if num old < num x then x else old) ∧
       after .inc = (if x ≤ old then 0 else old + 1) ∧ after .dec = (if old = 0 ∨ x < old then x else old - 1)) ∧
     (ty ∈ [Ty.f32, .f64] →
       let f := fpOf ty
       let v := f.decode
       after .add = (f.add .rne (v old) (v x)).bits % 2 ^ (8 * n) ∧ after .mul = (f.mul .rne (v old) (v x)).bits % 2 ^ (8 * n) ∧
       after .fma = (f.fma .rne (v old) (v x) (v y)).bits % 2 ^ (8 * n) ∧
       (∀ op ∈ [AtomOp.min, .max],
         ((v old).isNan = true → (v x).isNan = false → after op = x) ∧
         ((v old).isNan = false → (v x).isNan = true → after op = old) ∧
         ((v old).isNan = true → (v x).isNan = true → after op = if ty = .f32 then 0x7FC00000 else 0x7FF8000000000000)) ∧
       ((v old).isNan = false → (v x).isNan = false →
         after .min = (if (v old).totalLt (v x) then old else x) ∧ after .max = (if (v x).totalLt (v old) then old else x))))

/-- R3, R149: a performed write outside software-managed pages leaves exactly the written bits changed: each byte
named, under its mask, and no other byte of memory. R157, R159, R161, R191, R192, R195: STORE_PERFORM performs the oldest
entry of a team's queue that nothing holds for a replay, once the thread's earlier loads have their values, the data it has
pushed before have their addresses, a release's earlier range instructions are complete, no access is left that went through a
translation the write replaces (R101) and the tokens of its lines are held; the entry leaves the queue, its counter falls,
memory holds its bytes (a packed store's to a coherent line written at its home, a RED's as its operation gives them or
gathered in the core's U copy, an STS's in the scratchpad, where no engine's entry holds the range), and a device it went to
is the context's traffic (R162). An entry whose translation has gone is translated again at that point and takes the new
places, waits, or is lost with its memory unchanged: which of these a cause gives is the model's choice (log 90). -/
def Obligations.StoresArePerformed : Prop :=
  (∀ (s : State) (ag : Option AgentId) (own : Bool) (mode : PageMode) (self : Option (Nat × Nat))
     (ws : List (Nat × Byte × Byte)), s.mem.wf = true → s.ucopies = [] → mode ≠ .swm → (ws.map (·.1)).Nodup →
     let t := s.performWrite ag own mode false self ws
     t.mem.wf = true ∧
     (∀ w ∈ ws, t.mem.byte w.1 = (s.mem.byte w.1 &&& ~~~w.2.2) ||| (w.2.1 &&& w.2.2)) ∧
     (∀ x, (∀ w ∈ ws, w.1 ≠ x) → t.mem.byte x = s.mem.byte x) ∧
     t.ctxs = s.ctxs ∧ t.launches = s.launches ∧ t.runs = s.runs) ∧
  (∀ (s : State) (k : Nat) (tm : Team) (e : StoreEntry), aget s.teams k = some tm →
     tm.storeq.find? (fun e => !heldStore tm e) = some e → earlierData tm e.lane e.op = false →
     earlierLoad (tm.thread e.lane) e.op = false →
     (e.red ≠ none ∨ e.scope = .thread ∨ earlierRange (tm.thread e.lane) e.op = false) →
     (e.red ≠ none ∨ marksAt e.scope = false) →
     let s0 := s.modTeam k fun t => { t with storeq := t.storeq.erase e }
     let counted := fun (s : State) =>
       match e.dc with
       | some d => s.modThread k e.lane fun th => th.decDc d
       | none => s
     let lines := (e.writes.map fun w => lineOf w.1).eraseDups
     let pa := (e.writes.head?.map (·.1)).getD 0
     (∀ c, e.scratch = some c → s.scoreHolds c pa e.writes.length none = false →
       exec (.storePerform k) s = .next (counted (s0.scratchWrite c e.writes))) ∧
     (∀ c, e.scratch = some c → s.scoreHolds c pa e.writes.length none = true →
       exec (.storePerform k) s = .next (s.push (.storePerform k))) ∧
     (e.scratch = none → e.again = false → derivesFrom s (some k) lines = false → s.unreachable tm.die e.ty pa = none →
       let home := e.packed && e.mode == .coh
       let master := fun (s : State) => if e.master then noteViews s tm.ctx e.writes else s
       let noted := fun (s : State) => counted (noteTraffic (master s) tm.ctx e.ty pa)
       (e.red = none → (home = true → ∀ ln ∈ lines, s.homeBlocked ln = false) →
         (home = false → ∀ ln ∈ lines, s.needWrite tm.agent e.mode ln = false) →
         (e.writes.length = 4 → s.portIn pa 4 = false) →
         exec (.storePerform k) s = .next (noted (s0.performWrite (if home then none else some tm.agent) e.dc.isSome e.mode
           e.master (some (k, e.lane)) e.writes (some e.va)))) ∧
       (∀ op ty b, e.red = some (op, ty, b) → home = false →
         (∀ u, uTarget s tm e = some u → e.master = false →
           exec (.storePerform k) s = .next (noted (s0.combineInto u pa b))) ∧
         (uTarget s tm e = none → (∀ ln ∈ lines, s.needWrite tm.agent e.mode ln = false) →
           exec (.storePerform k) s = .next (noted
             (s0.rmw tm.agent e.mode e.master (some (k, e.lane)) op ty pa b 0 (some e.va)).2)))) ∧
     (e.scratch = none → e.again = true →
       (∀ e1 s1, s.retranslate k e = .ok e1 s1 → exec (.storePerform k) s =
         .next ((s1.modTeam k fun t => { t with storeq := t.storeq.map fun x => if x == e then e1 else x }).push
           (.storePerform k))) ∧
       (∀ s1, s.retranslate k e = .wait s1 → exec (.storePerform k) s = .next (s1.push (.storePerform k))) ∧
       (∀ v, s.retranslate k e = .lost v → e.lane < tm.threads.length →
         ∃ t, exec (.storePerform k) s = .next t ∧ t.mem = s.mem ∧ (t.team k).storeq = tm.storeq.erase e ∧
           (t.thread k e.lane).lost = some v ∧
           ∀ d, e.dc = some d → (t.thread k e.lane).dcOf d = (tm.thread e.lane).dcOf d - 1)))

/-- R146, R161, R196: FENCE waits for the group's earlier accesses, data pushed for a later address among them (R253), unless
its scope is .thread; once none is outstanding and the scope asks for no flush markers it completes, and FENCE.ro also empties the core's read-only cache (R166). R161, R162, R196: a fence at
.device or wider sends its flush markers once, and completes when none of them is still on its way. R112: a lane with a load
that has trapped parks before the fence, whose value that load's replay precedes (log 29). R186: at .device or wider a lane
that has lost a store traps FABRIC_UNREACHABLE with what names the target, which it then forgets. -/
def Obligations.FencesWaitForEarlierAccessesAndMarkers : Prop :=
  (∀ (x : XOps) (s : State) (idx : Nat) (r : Run), Goes s idx r (ofX x) (fun _ => none) false [] false →
     marksAt x.scope = false →
     let g := groupOf s idx r (ofX x)
     let t := s.team r.team
     let busy := (execLanes s r (ofX x)).filter fun l => fenceBusy t l
     let parks := (execLanes s r (ofX x)).filter fun l => loadToReplay (laneOf s r l) s.serial
     (x.scope = .thread ∨ (busy = [] ∧ parks = []) →
       exec (.fence x) s = .next (finishNext s g) ∧
       exec (.fenceRo x) s = .next (finishNext
         (if t.kind = .lodestar ∨ execLanes s r (ofX x) = [] then s else s.modCore t.core fun c => { c with ro := [] }) g)) ∧
     (x.scope ≠ .thread → parks ≠ [] → exec (.fence x) s = .next (parkDoomed s r.team idx parks) ∧
       exec (.fenceRo x) s = .next (parkDoomed s r.team idx parks)) ∧
     (x.scope ≠ .thread → parks = [] → busy ≠ [] → r.acc = false →
       (∀ l ∈ busy, stuckBehindHole t l = false ∧ stuckAtBank t l = false) →
       exec (.fence x) s = .next s ∧ exec (.fenceRo x) s = .next s)) ∧
  (∀ (x : XOps) (s : State) (idx : Nat) (r : Run) (l tk : Nat) (ls : List Nat),
     Goes s idx r (ofX x) (fun _ => none) false [] false → r.acc = false → marksAt x.scope = true →
     execLanes s r (ofX x) = l :: ls → (∀ j ∈ l :: ls, fenceBusy (s.team r.team) j = false) →
     (∀ j ∈ l :: ls, (laneOf s r j).lost = none ∧ loadToReplay (laneOf s r j) s.serial = false) →
     let t := s.team r.team
     let set := fun (s : State) (m : Option Nat) =>
       (l :: ls).foldl (fun s j => s.modThread r.team j fun th => { th with marker := m }) s
     ((laneOf s r l).marker = none →
       exec (.fence x) s =
         .next (set (sendMarkers { s with serial := s.serial + 1 } t.die t.ctx s.serial x.scope) (some s.serial))) ∧
     ((laneOf s r l).marker = some tk → (∀ m ∈ s.markers, m.2.2.2 ≠ tk) →
       exec (.fence x) s = .next (finishNext (clearTraffic (set s none) t.ctx x.scope) (groupOf s idx r (ofX x)))) ∧
     ((laneOf s r l).marker = some tk → (∃ m ∈ s.markers, m.2.2.2 = tk) → exec (.fence x) s = .next s)) ∧
  (∀ (x : XOps) (s : State) (idx : Nat) (r : Run) (v : Nat → DWord) (lost : List Nat),
     Goes s idx r (ofX x) (fun _ => none) false [] false → marksAt x.scope = true →
     (execLanes s r (ofX x)).filter (fun l => (laneOf s r l).lost.isSome) = lost → lost ≠ [] →
     (∀ l ∈ lost, (laneOf s r l).lost = some (v l)) →
     let t := trapLanes s r.team idx r.acc (lost.map fun l =>
       (l, { cause := .fabricUnreachable, tval := v l, tpc := placeOf r }, .popLost))
     exec (.fence x) s = .next t ∧ exec (.fenceRo x) s = .next t)

/-- R197 to R201: the range instructions issue with a walk in flight for each lane, an empty range being complete at
once with status 0; RANGE_WALK_COMPLETE makes the walk once what happens before it has performed (the team's stores and pushed
data before it, the lane's own atomic operations), and writes its status; where that finds no room in its queue it waits
first. R199: on one line of a coherent page FLUSH and INV drop the reached copies, their tokens going back as at an
eviction (R128), and CLEAN makes them clean; on a software-managed page FLUSH and CLEAN write the stored bits of each
dirty copy home first, and INV drops them unwritten; a copy whose home cannot be reached stays, which the status says
(R201). -/
def Obligations.RangeInstructionsWalkTheirRange : Prop :=
  ((∀ (s s1 : State) (idx : Nat) (r : Run) (x : XOps) (i : Instr) (sub : Nat) (v : Nat → Option LogRec) (th : Nat → Thread),
     (i, sub) ∈ [(Instr.flushRange x, 0), (.invRange x, 1), (.cleanRange x, 2)] →
     Goes s idx r (ofX x) (fun st => opChecks st i.shape (ofX x)) false
       (srcRegs i.shape.a x.a ++ srcRegs i.shape.b x.b ++ dstRegs false i.shape.d x.dst) true →
     let g := groupOf s idx r (ofX x)
     AllOk g { s with serial := s.serial + 1 } (rangeLane i x r.team g.here) v th s1 →
     exec i s = .next (finishNext (startedRanges s1 g x sub s.serial (dstRegs false i.shape.d x.dst)
       (g.e.map fun l => (l, v l, th l))) g)) ∧
   (∀ (s : State) (k l id : Nat) (o : TOp) (sub start len : Nat) (sc : Scope),
     opOf (s.thread k l) id = some o → o.what = .range sub start len sc →
     let wait := exec (.rangeWalkComplete k l id) s = .next (s.push (.rangeWalkComplete k l id))
     let busy := walkBusy s k (s.team k).agent sc || pagesWait s (s.team k) start len
     ((∃ e ∈ (s.team k).storeq, e.op < o.order) ∨ earlierLoad (s.thread k l) o.order = true ∨
       (∃ j < (s.team k).threads.length, earlierData (s.team k) j o.order = true) ∨ busy = true → wait) ∧
     (rangeReady (s.team k) l o.order = true → busy = false →
       (resultIn s k l id o.dsts [0] = .error .hold → wait) ∧
       ∀ th t, resultIn s k l id o.dsts [0] = .ok th →
         writeResult (if teamBound s k then
           (rangeWalk (s.team k) sub sc start (start + len) ((start + len + 4095) / 4096 - start / 4096) (start / 4096) (s, 0)).1
           else s) k l id o.dsts
           [BitVec.ofNat 32 (if teamBound s k then
             (rangeWalk (s.team k) sub sc start (start + len) ((start + len + 4095) / 4096 - start / 4096) (start / 4096) (s, 0)).2
             else 2)] = some t →
         exec (.rangeWalkComplete k l id) s = .next t))) ∧
  (∀ (s : State) (me : AgentId) (sc : Scope) (xl : Xlat) (line : Nat), s.ucopies = [] →
     let reached := fun (h : Holding) => h.line == line && inReach me h.agent sc
     let copies := s.swm.filter fun c => c.line == line && inReach me c.agent sc
     (xl.mode = .coh →
       (∀ sub < 2, (rangeLine s me sub sc xl line).2 = false ∧ (rangeLine s me sub sc xl line).1.mem = s.mem ∧
         (∀ h ∈ (rangeLine s me sub sc xl line).1.hold, reached h = false ∧ h ∈ s.hold) ∧
         (∀ h ∈ s.hold, (h.line ≠ line ∨ inReach me h.agent sc = false) → h ∈ (rangeLine s me sub sc xl line).1.hold) ∧
         ∀ h ∈ s.hold, reached h = true → 0 < h.tokens → ∀ b, (s.entry line).collecting = some b →
           Ev.tokenDataResponse b line { tokens := h.tokens, owner := h.owner, dirty := h.dirty && sub == 1 } ∈
             (rangeLine s me sub sc xl line).1.flight) ∧
       rangeLine s me 2 sc xl line =
         (if s.hold.any fun h => reached h && h.dirty then s.writeOut line reached else s, false) ∧
       ∀ sub, ∀ h ∈ (rangeLine s me sub sc xl line).1.hold, reached h = true → sub = 2 ∧ h.dirty = false) ∧
     (xl.mode = .home → ∀ sub, rangeLine s me sub sc xl line = (s, false)) ∧
     (xl.mode = .swm →
       rangeLine s me 1 sc xl line =
         (({ s with swm := s.swm.filter fun c => !copies.contains c } : State).awayDrop fun x =>
           x.line == line && inReach me (sliceOf x.die line) sc, false) ∧
       (∀ c ∈ (rangeLine s me 1 sc xl line).1.swm, c.line = line → inReach me c.agent sc = false) ∧
       ((∀ c ∈ copies, s.stranded xl.ty c = false) →
         (∀ sub, sub ≠ 1 → (rangeLine s me sub sc xl line).2 = false ∧
           (rangeLine s me sub sc xl line).1.mem =
             (copies.foldl (fun s c => if c.stored then writeBackCopy s xl.master c else s) s).mem) ∧
         (∀ c ∈ (rangeLine s me 0 sc xl line).1.swm, c ∉ copies)) ∧
       (∀ c ∈ copies, c.agent.id < 176 → s.stranded xl.ty c = true → ∀ sub, sub ≠ 1 →
         (rangeLine s me sub sc xl line).2 = true ∧ c ∈ (rangeLine s me sub sc xl line).1.swm)))

/-- R202, R205, R206: PREF, WAITMON, RES.HINT and RES.EVICT complete. PREF never traps for its address; its counter
rises, and LOAD_DATA_RETURN ends it when it has nothing left to fill (R186). R206: a hint
with reserved bits set answers 2, a bad range 3, a seventeenth range of a handle 1; else the range joins the handle
under its new priority and the answer is 0; where both the control word and the range are bad the answer 2 is the model's
choice (log 97). RES.EVICT empties the handle. R142, R207: CBLOAD issues for the group, and
CBLOAD_COMPLETE, once the team's earlier accesses are over, puts the words it reads into the bank, first word first,
and ends the instruction for every lane and for the readers of its bank. -/
def Obligations.ConstantBanksPrefetchMonitorAndResidency : Prop :=
  (((∀ (m : MOps) (s s1 : State) (idx : Nat) (r : Run) (v : Nat → Started) (th : Nat → Thread),
      Goes s idx r (ofM m) (fun st => memChecks st m false false) false (memRegs m false false) true →
      let g := groupOf s idx r (ofM m)
      AllOk g { s with serial := s.serial + 1 } (prefLane (.pref m) m g.here) v th s1 →
      exec (.pref m) s =
        .next (finishNext (startedOps s1 g s.serial (g.la s) [] true (g.e.map fun l => (l, v l, th l))) g)) ∧
    (∀ (m : MOps) (s : State) (here : DWord) (L : LCtx) (th th1 : Thread) (lr : LogRec),
      memLog (.pref m) m here false L th = .ok (lr, th1) →
      prefLane (.pref m) m here s L th = .ok ({ what := .pref m (addrOf lr.base m), lr := lr }, th1, s)) ∧
    (∀ (s s1 : State) (k l id : Nat) (tm : Team) (o : TOp) (m : MOps) (a : DWord), aget s.teams k = some tm →
      l < tm.threads.length → opOf (tm.thread l) id = some o → o.what = .pref m a → s1.teams = s.teams →
      (∀ e, prefetch s k m a = (some e, s1) →
        exec (.loadDataReturn k l id) s = .next ((s1.pushOnce e).push (.loadDataReturn k l id))) ∧
      (prefetch s k m a = (none, s1) → ∃ t, exec (.loadDataReturn k l id) s = .next t ∧ t.mem = s1.mem ∧
        opOf (t.thread k l) id = none ∧ (t.thread k l).v = (tm.thread l).v)) ∧
    (∀ (x : XOps) (s : State) (idx : Nat) (r : Run), Goes s idx r (ofX x) (fun _ => none) false [] false →
      (∀ l ∈ execLanes s r (ofX x), ∀ o ∈ (laneOf s r l).ops, o.decided = true) →
      exec (.waitmon x) s = .next (startWaits s (groupOf s idx r (ofX x)) fun _ => some .monitor)) ∧
    (∀ x : XOps, Effects (.resHint x) (ofX x) (fun _ => none) (resHintLane x) ∧
      Effects (.resEvict x) (ofX x) (fun _ => none) (resEvictLane x))) ∧
   (∀ (x : XOps) (s : State) (L : LCtx) (th th1 th2 th3 : Thread) (a b c : DWord),
      srcA L .int .w32 (ofX x) th = .ok (a, th1) → srcB L .int .w64 (ofX x) th1 = .ok (b, th2) →
      srcC L .int .w64 (ofX x) th2 = .ok (c, th3) →
      let w := a.lo.toNat
      let h := w % 64
      let old := (aget (s.part L.team.part).handles h).getD {}
      (w / 64 % 4 ≠ 0 ∨ w / 1024 ≠ 0 → resHintLane x s L th = .ok ([2], th3, s)) ∧
      let past := if b.toNat < 2 ^ 56 then 2 ^ 56 < b.toNat + c.toNat else 2 ^ 64 < b.toNat + c.toNat
      (w / 64 % 4 = 0 → w / 1024 = 0 → isCanon b = false ∨ c = 0 ∨ 2 ^ 48 < c.toNat ∨ past →
        resHintLane x s L th = .ok ([3], th3, s)) ∧
      (w / 64 % 4 = 0 → w / 1024 = 0 → isCanon b = true → c ≠ 0 → c.toNat ≤ 2 ^ 48 → ¬past → 16 ≤ old.ranges.length →
        ∃ t, resHintLane x s L th = .ok ([1], th3, t) ∧
          (aget (t.part L.team.part).handles h).map (·.ranges) = some old.ranges ∧ t = { s with parts := t.parts }) ∧
      (w / 64 % 4 = 0 → w / 1024 = 0 → isCanon b = true → c ≠ 0 → c.toNat ≤ 2 ^ 48 → ¬past → old.ranges.length < 16 →
        ∃ t, resHintLane x s L th = .ok ([0], th3, t) ∧
          aget (t.part L.team.part).handles h = some { prio := w / 256 % 4, ranges := old.ranges ++ [(b.toNat, c.toNat)] } ∧
          (∀ j, j ≠ h → aget (t.part L.team.part).handles j = aget (s.part L.team.part).handles j) ∧
          t = { s with parts := t.parts }) ∧
      (w / 64 = 0 → ∃ t, resEvictLane x s L th = .ok ([0], th1, t) ∧ aget (t.part L.team.part).handles h = none ∧
        ∀ y ∈ t.l2, s.granuleOwner y.line = some L.team.part → y.handle ≠ some h))) ∧
  ((∀ (x : XOps) (s : State) (idx : Nat) (r : Run) (l : Nat) (ls : List Nat) (lr : LogRec) (th : Thread),
     Goes s idx r (ofX x) (fun st => opChecks st (Instr.shape (.cbload x)) (ofX x)) false
       (srcRegs (Instr.shape (.cbload x)).b x.b ++ srcRegs (Instr.shape (.cbload x)).c x.c) true →
     let g := groupOf s idx r (ofX x)
     execLanes s r (ofX x) = l :: ls →
     logOperands (.cbload x) (ofX x) (Instr.shape (.cbload x)) g.here (g.lctx s l) (g.thread s l) = .ok (lr, th) →
     let len := DWord.ofPair 0 (getAt 0 lr.c 0)
     cbloadBad (s.team r.team) (g.lctx s l).launch x.a.bits lr.b len = none →
     (rangeBusy th lr.b len.toNat = true → exec (.cbload x) s = waitLanes s g [l]) ∧
     (rangeBusy th lr.b len.toNat = false → ∃ t : State, exec (.cbload x) s = .next (finishNext (t.push (.cbloadComplete r.team s.serial)) g) ∧ t.mem = s.mem)) ∧
   (∀ (s s1 : State) (k id l ln bank : Nat) (ls : List Nat) (src : DWord) (len : Nat) (o : TOp) (bs : List Byte) (v : Launch),
     (List.range (s.team k).threads.length).filter (fun j => (opOf (s.thread k j) id).isSome) = l :: ls →
     opOf (s.thread k l) id = some o → o.decided = false → o.what = .cbload bank src len →
     (∀ j < (s.team k).threads.length, earlierLoad (s.thread k j) id = false ∧ earlierStore (s.team k) j id = false ∧
       earlierRange (s.thread k j) id = false) →
     (s.team k).launch = some ln → aget s1.launches ln = some v → s1.teams = s.teams →
     readVirtual (s.team k) (some (s.team k).agent) (chunks 520 src.toNat len) s = .ok bs false s1 →
     ∃ t v', exec (.cbloadComplete k id) s = .next t ∧ aget t.launches ln = some v' ∧ t.mem = s1.mem ∧
       (∀ p ∈ v'.cbPending, ¬(p.1 = k ∧ p.2.2 = id)) ∧
       ∀ j, j < (wordsOf bs).length → aget ((aget v'.consts bank).getD []) j = some (getAt 0 (wordsOf bs) j)))

/-! ### System registers and the supervisor's translation forms -/

/-- R114 to R117: the supervisor's translation forms complete; each lane answers as its rule says. R115: a retirement
advances the generation, so that no translation of the old one is used; after the fifteenth the ASID is retiring until
its flush completes, which starts it at generation 0; a query changes nothing. -/
def Obligations.TranslationFormsComplete : Prop :=
  (∀ x : XOps,
     Effects (.asidRetire x) (ofX x) (fun _ => none) (asidRetireLane x) ∧
     Effects (.tlbProbe x) (ofX x) (fun _ => none) (tlbProbeLane x) ∧
     Effects (.pageScan x) (ofX x) (fun _ => none) (pageScanLane x)) ∧
  (∀ (s : State) (a : Word) (n : Nat) (e : AsidS), a.toNat = n → n < 2 ^ 16 → aget s.asids n = some e → e.gen < 16 →
     (∃ w, asidRetire s a true = (w, s)) ∧
     (e.retiring = true → ∃ w, asidRetire s a false = (w, s)) ∧
     (e.retiring = false → e.gen < 15 →
       aget (asidRetire s a false).2.asids n = some { e with gen := e.gen + 1 } ∧
       (asidRetire s a false).1 = BitVec.ofNat 32 (e.gen + 1) ∧
       ∀ x : Xrec, x.asid = n → x.gen = e.gen → (asidRetire s a false).2.bindingOk x = false) ∧
     (e.retiring = false → e.gen = 15 →
       aget (asidRetire s a false).2.asids n = some { gen := 0, retiring := true } ∧
       (∃ t, exec (.asidFlushComplete n) (asidRetire s a false).2 = .next t ∧
         aget t.asids n = some { gen := 0, retiring := false } ∧ ∀ q ∈ t.tlb, q.asid ≠ n)))

/-! ### Synchronisation -/

/-- R369 to R373: the barrier forms complete: BAR.ARRIVE writes the generation it arrived in; BAR.WAIT and BAR.SYNC
leave each lane waiting until the generation it names has gone. A form at .device or wider is a release first. R371:
an arrival with a count above the barrier's threads, or unlike the count it was opened with, traps RECONVERGE_MISUSE;
any other adds one, and the arrival that completes the count starts the next generation at 0 and ends the waits of the
old one. -/
def Obligations.BarriersCountAndRelease : Prop :=
  (∀ (s s0 s1 : State) (idx : Nat) (r : Run) (x : XOps) (th : Nat → Thread) (w : Nat → BarKey × Word),
     let f := ofX x
     let g := groupOf s idx r f
     let e := execLanes s r f
     let threads := e.map fun l => (l, th l)
     (Goes s idx r f (fun st => opChecks st (Instr.shape (.barArrive x)) f) false
         (srcRegs (Instr.shape (.barArrive x)).b x.b ++ dstRegs false (Instr.shape (.barArrive x)).d x.dst) false →
       g.release s x.scope = .ok s0 → AllOk g s0 (barArriveLane x r.team) (fun _ => ()) th s1 →
       exec (.barArrive x) s = .next (pairEvents (finishNext (setThreads s1 r.team r.acc threads) g) r.team
         (Instr.shape (.barArrive x)).d x.dst e)) ∧
     let noted := notedLanes s r e th
     ((∀ l ∈ e, ∀ o ∈ (laneOf s r l).ops, o.decided = true) →
       (Goes s idx r f (fun st => opChecks st (Instr.shape (.barWait x)) f) false
           (srcRegs (Instr.shape (.barWait x)).b x.b) false →
         AllOk g s (barWaitLane x false r.team g.here) w th s1 →
         exec (.barWait x) s = .next (finishNext (barWaits (setThreads s1 r.team r.acc noted) g (e.map fun l => (l, w l))) g)) ∧
       (Goes s idx r f (fun st => opChecks st (Instr.shape (.barSync x)) f) false
           (srcRegs (Instr.shape (.barSync x)).b x.b) false →
         (syncFresh s g x = true → g.release s x.scope = .ok s0) → (syncFresh s g x = false → s0 = s) →
         AllOk g s0 (barWaitLane x true r.team g.here) w th s1 →
         exec (.barSync x) s = .next (finishNext (barWaits (setThreads s1 r.team r.acc noted) g (e.map fun l => (l, w l))) g)))) ∧
  (∀ (s : State) (b : BarKey) (c : Word),
     let v := s.bar b
     let e := if c = 0 then liveMark else c.toNat
     let need := if c = 0 then barLive s b else c.toNat
     (barThreads s b < c.toNat → barArrive s b c = .error (.reconvergeMisuse, BitVec.ofNat 64 (0x100 + b.idx))) ∧
     (c.toNat ≤ barThreads s b → v.exp ≠ 0 → v.exp ≠ e →
       barArrive s b c = .error (.reconvergeMisuse, BitVec.ofNat 64 (0x200 + b.idx))) ∧
     (c.toNat ≤ barThreads s b → v.exp = 0 ∨ v.exp = e → ∀ k i tm, b = .team k i → aget s.teams k = some tm →
       i < tm.bars.length →
       ∃ t, barArrive s b c = .ok (v.gen, t) ∧ t.mem = s.mem ∧
         (v.arr + 1 < need → t.bar b = { gen := v.gen, arr := v.arr + 1, exp := e }) ∧
         (need ≤ v.arr + 1 → t.bar b = { gen := v.gen + 1, arr := 0, exp := 0 } ∧
           ∀ l < tm.threads.length, ∀ q, (tm.thread l).wait = some (.barrier b v.gen q) → (t.thread k l).wait = none)))

/-- R366, R371, R388: EXIT ends each executing thread of a user team; each leaves its sets, and the checks of the
barriers it belonged to are made. In a section EXIT has the effect of SRET, and in an access slice it ends the access
context, whose lanes leave the run (R254). QUIET leaves its lanes waiting on the epoch (R394, R395). R366: a thread that has
executed EXIT is exited, waits for nothing, holds no monitor and no pending sync, and has left every convergence set;
its registers, memory and every other thread's registers are as they were. -/
def Obligations.ExitAndQuietComplete : Prop :=
  (∀ (x : XOps) (s : State) (idx : Nat) (r : Run), Goes s idx r (ofX x) (fun _ => none) false [] false → r.acc = false →
     let g := groupOf s idx r (ofX x)
     let e := execLanes s r (ofX x)
     let c := s.ctx (s.team r.team).ctx
     (∀ l ∈ e, lateFault (laneOf s r l) = none ∧ ∀ o ∈ (laneOf s r l).ops, o.decided = true) →
     ((s.team r.team).kind ≠ .lodestar →
       exec (.exit x) s = .next (e.foldl (fun s l => exitThread s r.team l) (finishNext s g))) ∧
     ((s.team r.team).kind = .lodestar → exec (.exit x) s = exec (.sret x) s) ∧
     (e = [] → exec (.quiet x) s = .next (finishNext s g)) ∧
     (∀ m ls, e = m :: ls →
       exec (.quiet x) s = .next (startWaits { s with serial := s.serial + 1 } g fun _ =>
         some (.quiet s.serial c.epochStart ((laneOf s r m).pidx != 1))))) ∧
  (∀ (x : XOps) (s : State) (idx : Nat) (r : Run), Goes s idx r (ofX x) (fun _ => none) false [] false → r.acc = true →
     (execLanes s r (ofX x) = [] → exec (.exit x) s = .next (finishNext s (groupOf s idx r (ofX x)))) ∧
     (execLanes s r (ofX x) ≠ [] → exec (.exit x) s = .next (dropLanes
       (s.modTeam r.team fun t => { t with acc := t.acc.map fun a => { a with ended := true } }) idx r.lanes))) ∧
  (∀ (s : State) (k l : Nat) (tm : Team), aget s.teams k = some tm → l < tm.threads.length → l < 32 →
     let t := exitThread s k l
     (t.thread k l).status = .exited ∧ (t.thread k l).wait = none ∧ (t.thread k l).monitor = .idle ∧
     (t.thread k l).pendingSync = none ∧ (t.thread k l).v = (tm.thread l).v ∧ t.mem = s.mem ∧
     (∀ b < (t.team k).joins.length, (getAt (0, 0) (t.team k).joins b).1.getLsbD l = false) ∧
     ∀ j, (t.thread k j).v = (tm.thread j).v)

/-! ### Engines: queues and tokens -/

/-- R57, R208, R209, R212, R226, R227: an engine operation issues once for its group and waits for acceptance;
ENGINE_OP_ACCEPT puts the oldest one that may enter at the end of its queue, with the next token of that queue, and
writes the token to DST. QFENCE is such an operation on every queue it names; QWAIT waits until all that its queues
had accepted is over. R217, R374, R375: TOKEN.WAIT leaves its lanes waiting and TOKEN.TEST answers at once: 0 while
the operation of the token is in its queue, 1 once it has completed, and a trap where it faulted or was cancelled; a
section token answers by its slot. -/
def Obligations.EngineOperationsEnterQueuesAndAnswer : Prop :=
  ((∀ x : XOps, Enqueues (.qfence x) x fun s _ L _ th =>
     .ok ({ op := { qs := maskCodes x.a.bits, instr := .qfence x, lane := L.lane, block := [], args := [] }, spans := [] }, th, s)) ∧
   (∀ (s : State) (g : Grp) (i : Instr) (f : Fields) (id la l : Nat) (p : Prepared) (lr : LogRec) (th : Thread) (tm : Team),
     aget s.teams g.k = some tm → g.run.acc = false →
     let t := issuedOp s g i f id la l p lr th
     (t.team g.k).pending = tm.pending ++ [{ op := { p.op with lane := l }, lanes := g.e, id := id, spans := p.spans }] ∧
     Ev.engineOpAccept g.k ∈ t.flight ∧ t.mem = s.mem) ∧
   (∀ (s s2 : State) (k c : Nat) (tm : Team) (p : PendingOp) (rest : List PendingOp),
     aget s.teams k = some tm → tm.pending = p :: rest → p.op.isLaunch = false → mayAccept s k p = true →
     p.op.qs = [c] → c < 7 → c < tm.engq.length → (tm.queue c).faulted = false → p.op.isFence = false →
     (∀ d, ∀ o ∈ (tm.queue d).ops, o.order < s.serial) → tm.readyFence = none →
     let n := (tm.queue c).accepted
     let op : EngOp := { p.op with
       order := s.serial, issued := p.id, token := BitVec.ofNat 32 (c * 2 ^ 29 + n % 2 ^ 29), seq := n }
     let s1 := (s.enter k p).2
     (s.enter k p).1 = op ∧ ((s1.team k).queue c).ops = (tm.queue c).ops ++ [op] ∧
       ((s1.team k).queue c).accepted = n + 1 ∧
     ((∀ x, p.op.instr ≠ .viewReg x ∧ p.op.instr ≠ .viewDrop x ∧ p.op.instr ≠ .viewFence x ∧ p.op.instr ≠ .rmaKey x) →
       writeLanes s1 k p.id op.token p.lanes = some s2 →
       exec (.engineOpAccept k) s =
         .next (if (s2.team k).pending.isEmpty then s2 else s2.pushOnce (.engineOpAccept k)))) ∧
   (∀ (x : XOps) (s : State) (idx : Nat) (r : Run),
     Goes s idx r (ofX x) (fun st => opChecks st (Instr.shape (.qwait x)) (ofX x)) false [] false → Settled s r (ofX x) →
     exec (.qwait x) s = .next (startWaits { s with serial := s.serial + 1 } (groupOf s idx r (ofX x)) fun _ =>
       some (.qwait s.serial ((maskCodes x.a.bits).map fun c => (c, ((s.team r.team).queue c).accepted))))) ∧
   (∀ (s : State) (k id l : Nat) (marks : List (Nat × Nat)) (tm : Team), aget s.teams k = some tm → l < tm.threads.length →
     (tm.thread l).wait = some (.qwait id marks) →
     ((∀ m ∈ marks, (∀ o ∈ (tm.queue m.1).ops, m.2 ≤ o.seq) ∧ ∀ e ∈ (tm.queue m.1).recent, e.state.bad = false) →
       ((wakeQwait s k id marks).thread k l).wait = none) ∧
     ((∃ m ∈ marks, ∃ o ∈ (tm.queue m.1).ops, o.seq < m.2) → wakeQwait s k id marks = s))) ∧
  ((∀ x : XOps, ReadsThen (.tokenWait x) x Grp.await (readWord32 x) fun _ s g vals =>
     finishNext (vals.foldl (fun st p => st.modThread g.k p.1 fun th =>
       { th with wait := some (.token s.serial x.dst.toNat p.2), waitPc := g.here }) { s with serial := s.serial + 1 }) g) ∧
   (∀ x : XOps, LooksUp (.tokenTest x) x tokenTestOne) ∧
   (∀ (s : State) (k l code n : Nat), code < 7 →
     let q := (s.team k).queue code
     let w : Word := BitVec.ofNat 32 (code * 2 ^ 29 + n % 2 ^ 29)
     n < q.accepted → q.accepted ≤ n + 64 →
     ((∃ o ∈ q.ops, o.seq = n) → tokenTestOne s k l w = (.ok 0, s)) ∧
     ((∀ o ∈ q.ops, o.seq ≠ n) →
       (q.recent.find? (fun e => e.seq == n) = none → tokenTestOne s k l w = (.ok 1, s)) ∧
       ∀ e, q.recent.find? (fun e => e.seq == n) = some e →
         (e.state.bad = false → tokenTestOne s k l w = (.ok 1, s)) ∧
         (e.state.bad = true → tokenTestOne s k l w = (.error (endedTrap code e), reportEnded s k l code e)))) ∧
   (∀ (s : State) (k l j : Nat) (sl : Slot), j < 8 → aget (s.thread k l).slots j = some sl →
     let w := sectionToken sl.seq j
     (sl.result = none → tokenTestOne s k l w = (.ok 0, s)) ∧
     (∀ vs, sl.result = some (.results vs) → tokenTestOne s k l w = (.ok 1, s)) ∧
     (∀ r, sl.result = some (.refused r) →
       tokenTestOne s k l w = (.error (.shipRefused, BitVec.ofNat 64 r), freeSlot s k l w)) ∧
     (∀ v, sl.result = some (.faulted v) → tokenTestOne s k l w = (.error (.shipFaulted, v), freeSlot s k l w))))

/-! ### Copies -/

/-- R211 to R225: the six copies issue; a block that breaks a rule traps ENGINE_OPERAND with the offset of its first
bad field; a good one enters the queue that the instruction names. An engine takes the head of the next queue in the
rotation, which both engines of a core share (the model's reading, log 36), and moves it row by row to its end: a plain copy
writes the row it reads, a transposed one each element of it to a row of its own, a fill its element (R219, R223). R220: a
gather reads the row that the index of the row names, and a scatter writes there. R221: a multicast writes the row to each
core of MASK. R222: a quantising copy writes each block of 32 elements of a row, of a column or of both, packed at the type's
width, with the block's scale at its place. -/
def Obligations.CopiesIssueAndMoveTheirRows : Prop :=
  (∀ x : XOps,
    Enqueues (.cpyTile x) x (prepareCopy (.cpyTile x) 0 x) ∧ Enqueues (.cpyGath x) x (prepareCopy (.cpyGath x) 1 x) ∧
    Enqueues (.cpyScat x) x (prepareCopy (.cpyScat x) 2 x) ∧ Enqueues (.cpyMcast x) x (prepareCopy (.cpyMcast x) 3 x) ∧
    Enqueues (.cpyQnt x) x (prepareCopy (.cpyQnt x) 4 x) ∧ Enqueues (.cpyFill x) x (prepareCopy (.cpyFill x) 5 x)) ∧
  (∀ (i : Instr) (form : Nat) (x : XOps) (s : State) (g : Grp) (L : LCtx) (lr : LogRec) (th : Thread) (bs : List Byte),
    let a : DWord := (DWord.lo lr.a).zext
    let b := cpyBlock form x.ty bs
    (a.toNat % 64 ≠ 0 → prepareCopy i form x s g L lr th = .error (.trap .misalignedAccess a .nothing)) ∧
    (a.toNat % 64 = 0 → ownScratch s g.k L.lane a 64 = some bs →
      (∀ o, b.badField = some o →
        prepareCopy i form x s g L lr th = .error (.trap .engineOperand (BitVec.ofNat 64 o) .nothing)) ∧
      (b.badField = none → b.badScratch s g.k = none → b.badMem = none →
        (∀ c, ((b.entries s g.k 0).filter fun e => e.1 == c).length ≤ 4) →
        prepareCopy i form x s g L lr th =
          .ok ({ op := { qs := [x.b.bits], instr := i, lane := L.lane, block := bs, args := [] }
                 spans := b.entries s g.k 0 }, th, s)))) ∧
  (∀ (s : State) (core eng p k c : Nat) (o : EngOp), aget (s.core core).engines eng = none →
    nextInTurn 256 (s.core core).engineRot (copyWork s core) = some (p, k, c) → ((s.team k).queue c).head = some o →
    ∃ t, exec (.copyEngineTake core eng) s = .next t ∧ aget (t.core core).engines eng = some (k, c) ∧
      (t.core core).engineRot = p ∧ Ev.copyRow core eng ∈ t.flight ∧ t.mem = s.mem) ∧
  (∀ (s s1 : State) (core eng k form : Nat) (o : EngOp) (ty : Ty) (bs : List Byte) (stale : Bool),
    copyRunning s core eng = some (k, o) → copyForm o.instr = some (form, ty) →
    let b := cpyBlock form ty o.block
    let r := o.row + b.unit
    o.row < b.rows → copyStep s k o.order b o.row = .ok bs stale s1 →
    let s2 := s1.modOp k o fun x => { x with row := r, stale := x.stale || stale }
    let s3 := s2.setScore o.order ((b.entries s2 k r).map fun e => (e.1, { e.2 with order := o.order }))
    exec (.copyRow core eng) s = .next (s3.push (if b.rows ≤ r then .copyComplete core eng else .copyRow core eng))) ∧
  (∀ (s s1 s2 : State) (k order r : Nat) (b : CpyBlk) (bs xs : List Byte) (stale st : Bool),
    let src := BitVec.ofInt 64 (b.src + r * b.sstr)
    let dst := BitVec.ofInt 64 (b.dsta + r * b.dstr)
    (b.form = 0 → b.tr = false → engineRead s k b.sspace src (b.cols * b.esize) = .ok bs stale s1 →
      engineWrite s1 k b.dspace order dst bs = .ok xs st s2 → copyStep s k order b r = .ok [] stale s2) ∧
    (b.form = 5 → engineWrite s k b.dspace order dst (List.replicate b.cols (leBytes b.esize b.aux2)).flatten = .ok xs st s2 →
      copyStep s k order b r = .ok [] false s2)) ∧
  (∀ (s s0 s1 s2 : State) (k order r : Nat) (b : CpyBlk) (ib bs xs : List Byte) (old stale st : Bool)
    (rows : List (List FpVal)),
    let at_ := fun (i : Int) => (BitVec.ofInt 64 i : DWord)
    let e := b.esize
    let i := (BitVec.ofNat 32 (leNat ib)).toInt
    let moved := fun (s1 s2 : State) (from_ : Int) (writes : List (DWord × List Byte)) =>
      engineRead s1 k b.sspace (at_ from_) (b.cols * e) = .ok bs stale s2 ∧ engineWrites k b.dspace order writes s2 = .ok xs st s0
    (b.form = 0 → b.tr = true → moved s s1 (b.src + r * b.sstr)
        ((List.range b.cols).map fun (c : Nat) => (at_ (b.dsta + c * b.dstr + (r * e : Nat)), (bs.drop (c * e)).take e)) →
      copyStep s k order b r = .ok [] (stale || st) s0) ∧
    (b.form = 1 ∨ b.form = 2 → engineRead s k b.xspace (BitVec.ofNat 64 (b.aux2 + 4 * r)) 4 = .ok ib old s1 →
      moved s1 s2 (b.src + (if b.form = 1 then i else r) * b.sstr) [(at_ (b.dsta + (if b.form = 1 then (r : Int) else i) * b.dstr), bs)] →
      copyStep s k order b r = .ok [] (old || stale || st) s0) ∧
    (b.form = 3 → moved s s1 (b.src + r * b.sstr)
        (([0, 1, 2, 3].filter fun j => b.mask / 2 ^ j % 2 = 1).map fun (j : Nat) =>
          (at_ (b.dstBase + r * b.dstr + (2 ^ 21 + j * 2 ^ 19 : Nat)), bs)) →
      copyStep s k order b r = .ok [] (stale || st) s0) ∧
    (b.form = 4 → readRows k b (if b.cb then 32 else 1) r s = .ok (rows, stale, s1) →
      engineWrites k b.dspace order (b.qntWrites r rows) s1 = .ok xs st s2 →
      copyStep s k order b r = .ok [] (stale || st) s2)) ∧
  (∀ (b : CpyBlk) (r : Nat) (rows : List (List FpVal)),
    let at_ := fun (i : Int) => (BitVec.ofInt 64 i : DWord)
    let w := b.width
    let n := b.cols / 32
    (b.qntWrites r rows).length = (if b.rb then 2 * rows.length else 0) + (if b.cb then 2 * b.cols else 0) ∧
    (b.rb = true → ∀ j (vs : List FpVal), rows[j]? = some vs →
      let bl := (List.range n).map fun t => quantBlock b.ty ((vs.drop (32 * t)).take 32)
      (at_ (b.dsta + (r + j : Nat) * b.dstr), (bl.map (·.1)).flatten) ∈ b.qntWrites r rows ∧
        (at_ (b.aux2 + (r + j) * n : Nat), bl.map (·.2)) ∈ b.qntWrites r rows) ∧
    (b.cb = true → ∀ c < b.cols,
      let q := quantBlock b.ty (rows.map fun vs => getAt (.fin false 0 0) vs c)
      (at_ (b.aux3 + c * b.rows * w / 8 + r / 32 * 4 * w : Nat), q.1) ∈ b.qntWrites r rows ∧
        (at_ (b.aux3 + b.cols * b.rows * w / 8 + c * b.rows / 32 + r / 32 : Nat), [q.2]) ∈ b.qntWrites r rows)) ∧
  (∀ (ty : Ty) (vs : List FpVal), vs.length = 32 →
    let q := quantBlock ty vs
    let w := viewBits ty
    q.2 = BitVec.ofNat 8 (scaleOf ty vs) ∧ q.1.length = 4 * w ∧
    ∀ j, j < 32 → leNat q.1 / 2 ^ (j * w) % 2 ^ w = qntBits ty (getAt (.fin false 0 0) vs j) (scaleOf ty vs) % 2 ^ w) ∧
  (∀ (s : State) (core eng k form : Nat) (o : EngOp) (ty : Ty), copyRunning s core eng = some (k, o) →
    copyForm o.instr = some (form, ty) → (cpyBlock form ty o.block).rows ≤ o.row →
    let t := freeEngine (s.endEngineOp k o .done 0) core eng
    exec (.copyComplete core eng) s = .next t ∧ aget (t.core core).engines eng = none)

/-! ### Views -/

/-- R228 to R241, R173 to R178: the view forms complete. VIEW.STAT reports bit 30 for a handle of no view, bit 31 for
a block beyond the view, bit 29 for a faulted one, and the tag. A recomputation of a pending block, by the engine of the
die that homes its first master element (R174), leaves its version one higher, fresh and not pending, or faults the view
where a page of it is lost; it waits for tokens that are on their way to another agent (R129). A master write from another
device leaves a block pending and not fresh; a
publication from another device leaves it fresh. A drop removes the view, and a fence completes when no block it waits
for is pending. -/
def Obligations.ViewFormsComplete : Prop :=
  (∀ x : XOps,
    Enqueues (.viewReg x) x (prepareViewReg (.viewReg x)) ∧ Enqueues (.viewDrop x) x (prepareHandle (.viewDrop x)) ∧
    Enqueues (.viewFence x) x (prepareHandle (.viewFence x)) ∧
    Effects (.viewStat x) (ofX x) (fun _ => none) (viewStatLane x)) ∧
  (∀ (s : State) (part : Nat) (h n : Word),
    (s.viewOf part h = none → viewStat s part h n = 0x40000000) ∧
    ∀ v, s.viewOf part h = some v →
      (v.blocks ≤ n.toNat → viewStat s part h n = if v.faulted then 0xA0000000 else 0x80000000) ∧
      (n.toNat < v.blocks → (viewStat s part h n).toNat % 2 ^ 18 = s.tagOf v n.toNat % 2 ^ 18 ∧
        (viewStat s part h n).getLsbD 29 = v.faulted ∧ (viewStat s part h n).getLsbD 31 = false ∧
        (viewStat s part h n).getLsbD 30 = false)) ∧
  (∀ (s : State) (part slot block ep tp : Nat) (sp : Option Nat) (v : View),
    s.views.find? (fun v => v.part == part && v.slot == slot && v.installed) = some v →
    v.place block = some (ep, sp, tp) → s.mem.wf = true → s.ucopies = [] → v.faulted = false →
    let tag := s.mem.nat tp 4
    (tagPend tag = false → exec (.parallaxRecompute part slot block) s = .next s) ∧
    let offs := (v.blockElems block).map fun o => masterAddr v.master o
    let die := dieOfPa (getAt 0 offs 0)
    let lost := pageLost s die ep v.blockBytes = true ∨ pageLost s die tp 4 = true ∨
      (∃ a, sp = some a ∧ pageLost s die a 1 = true) ∨ ∃ a ∈ offs, pageLost s die a v.msize = true
    let busy := areaBusy s die ep v.blockBytes = true ∨ areaBusy s die tp 4 = true ∨ ∃ a, sp = some a ∧ areaBusy s die a 1 = true
    (tagPend tag = true → lost → ∃ t, exec (.parallaxRecompute part slot block) s = .next t ∧
      ∀ u ∈ t.views, u.part = part → u.slot = slot → u.faulted = true) ∧
    (tagPend tag = true → ¬lost → busy → exec (.parallaxRecompute part slot block) s =
      .next (s.push (.parallaxRecompute part slot block))) ∧
    (tagPend tag = true → ¬lost → ¬busy →
      (State.takeTokens (parallaxOf die) ((offs.filter fun a => physMode a == .coh).map lineOf).eraseDups s).1 = true →
      ∃ t, exec (.parallaxRecompute part slot block) s = .next t ∧ t.mem.nat tp 4 = (tag + 1) % 2 ^ 16 + 2 ^ 16)) ∧
  (∀ (m : ViewMsg) (s : State), s.mem.wf = true → s.ucopies = [] →
    let die := dieOfPa m.elemPa
    let busy := areaBusy s die m.elemPa m.elems.length = true ∨ areaBusy s die m.tagPa 4 = true ∨
      ∃ a, m.scalePa = some a ∧ areaBusy s die a 1 = true
    (busy → exec (.viewPublishMessage m) s = .next (s.push (.viewPublishMessage m))) ∧
    (¬busy → ∃ t, exec (.viewPublishMessage m) s = .next t ∧ t.mem.nat m.tagPa 4 = m.version.toNat + 2 ^ 16)) ∧
  (∀ (s : State) (part slot block tp : Nat) (v : View),
    s.views.find? (fun v => v.part == part && v.slot == slot && v.installed) = some v →
    v.tagAddr block = some tp → v.faulted = false → s.mem.wf = true → s.ucopies = [] →
    ∃ t, exec (.remoteViewBlockClear part slot block) s = .next t ∧
      t.mem.nat tp 4 = s.mem.nat tp 4 % 2 ^ 16 + 2 ^ 17 ∧
      (tagPend (s.mem.nat tp 4) = false → Ev.parallaxRecompute v.part v.slot block ∈ t.flight)) ∧
  (∀ (s : State) (k : Nat) (o : EngOp) (x : XOps), ((s.team k).queue 5).head = some o →
    let h := DWord.lo (getAt 0 o.args 0)
    let part := (s.team k).part
    let named := s.views.filter fun v => v.part == part && (h == BitVec.allOnes 32 || v.handle == h)
    (o.instr = .viewDrop x → exec (.viewQueueOperation k) s = .next (pokeFences
      (({ s with views := s.views.filter fun v => !(v.part == part && v.handle == h) } : State).endEngineOp k o .done 0))) ∧
    (o.instr = .viewReg x → ∀ v, s.views.find? (fun v => v.part == part && v.handle == h) = some v →
      exec (.viewQueueOperation k) s = .next ((installView s v).endEngineOp k o .done 0)) ∧
    (o.instr = .viewFence x →
      ((∃ v ∈ named, v.faulted = true) →
        exec (.viewQueueOperation k) s = .next (s.endEngineOp k o (.faulted .viewFaulted h.zext) 0)) ∧
      ((∀ v ∈ named, v.faulted = false) → o.state = .queued → fenceBlocks s named = [] →
        exec (.viewQueueOperation k) s = .next (s.endEngineOp k o .done 0))))

/-! ### The matrix engine -/

/-- R314 to R318, R333, R336 to R341: the matrix forms issue, and the forms on tokens, banks and metadata complete. An
unsupported format traps FORMAT_UNSUPPORTED. ACC.ALLOC takes the lowest free banks or waits for them, and ACC.FREE
gives its banks up. R280, R322 to R325, R333: the matrix engine takes the head of the next team's queue; a chunk step
captures B, an accumulate step adds to every accumulator of its row group the products of its row of A and column of
B, and an output step writes the rows out. R280, R281: into a .f32 accumulator a K-block adds the exact sum of products,
rounded to .f32 and scaled by the alignment factors and scales, in one rounding; a NaN element or scale, an infinity that
meets a zero and infinities of both signs give NaN, and other infinities an infinity of their sign. Freed banks that no
operation of a resident team names, queued or still waiting for acceptance (the model's reading, log 39), return, and the
oldest request receives the lowest free banks. -/
def Obligations.MatrixFormsIssueRunAndAnswer : Prop :=
  ((∀ x : XOps,
     Enqueues (.mxWload x) x (prepareMatrix (.mxWload x) true x) ∧ Enqueues (.mxIssue x) x (prepareMatrix (.mxIssue x) false x) ∧
     Enqueues (.accLd x) x (prepareAcc (.accLd x)) ∧ Enqueues (.accSt x) x (prepareAcc (.accSt x)) ∧
     Enqueues (.accCvt x) x (prepareAcc (.accCvt x)) ∧ Enqueues (.accZero x) x (prepareZero (.accZero x)) ∧
     Enqueues (.spcCmp x) x (prepareSpc (.spcCmp x) x) ∧ LooksUp (.mxTest x) x (mxTokenOne mxTestOne) ∧
     LooksUp (.mxProg x) x (mxTokenOne mxProgOne) ∧ LooksUp (.mxAbort x) x (mxTokenOne mxAbortOne) ∧
     (x.b.bits ≠ 1 → Computes (.spcMeta x) (ofX x) false
       (from1 .int (if x.ty = .b32 then .w32 else .w64) (ofX x) fun a =>
         [match entryPlaces (if x.ty = .b32 then 1 else 2) a.toNat with
          | some ps => ps.foldl (fun m i => m ||| bit32 i) 0
          | none => 0])) ∧
     (x.b.bits = 1 → Computes (.spcMeta x) (ofX x) false (from1 .int .w32 (ofX x) fun a =>
       let e : DWord :=
         match encodeMask (if x.ty = .b32 then 1 else 2) a.lo with
         | some n => BitVec.ofNat 64 n
         | none => BitVec.allOnes 64
       if x.ty = .b32 then [e.lo] else [e.lo, e.hi]))) ∧
   (∀ (i : Instr) (wload : Bool) (x : XOps) (s s1 : State) (g : Grp) (L : LCtx) (lr : LogRec) (th : Thread)
     (ws : List (Nat × Word)), formatWords s g (ofX x) g.e.tail = .ok (ws, s1) →
     let w := DWord.lo lr.a
     ((∃ p ∈ ws, p.2 ≠ w) → ∃ v, prepareMatrix i wload x s g L lr th = .error (.trap .formatDivergence v .nothing)) ∧
     ((∀ p ∈ ws, p.2 = w) → (mxFmt w).supported wload = false →
       prepareMatrix i wload x s g L lr th = .error (.trap .formatUnsupported w.zext .nothing)) ∧
     ((∀ p ∈ ws, p.2 = w) → (mxFmt w).supported wload = true →
       ∀ p, prepareMx i wload s1 g.k L.lane w (low32 lr.b) = .ok p → prepareMatrix i wload x s g L lr th = .ok (p, th, s1))) ∧
   (∀ (x : XOps) (s : State) (idx : Nat) (r : Run) (l crew : Nat) (ls : List Nat) (a : DWord) (th : Thread),
     let f := ofX x
     let g := groupOf s idx r f
     let sh := Instr.shape (.accAlloc x)
     let core := (s.team r.team).core
     let n := (DWord.lo a).toNat
     Goes s idx r f (fun st => opChecks st sh f) false (srcRegs sh.a f.a ++ dstRegs false sh.d f.dst) false →
     Settled s r f → execLanes s r f = l :: ls → srcA (g.lctx s l) .int .w32 f (g.thread s l) = .ok (a, th) →
     (s.team r.team).crew = some crew → 1 ≤ n → n + (banksOf (s.core core) crew).length ≤ 32 →
     let s1 := setThreads s r.team r.acc [(l, th)]
     (x.b.bits ≠ 1 →
       let s2 := ({ s1 with serial := s.serial + 1 } : State).modCore core fun c =>
         { c with bankWaiters := c.bankWaiters ++ [{ id := s.serial, team := r.team, n := n }] }
       let s3 := (l :: ls).foldl (fun (s' : State) j => s'.modThread r.team j fun th' => th'.noting g.here (g.thread s j)) s2
       exec (.accAlloc x) s = .next ((startWaits s3 g fun _ => some (.bank s.serial x.dst.toNat)).push (.accBankGrant core))) ∧
     (x.b.bits = 1 →
       let c := s.core core
       let bs := if c.bankWaiters = [] ∧ n ≤ (freeBanks c).length then (freeBanks c).take n else []
       let s2 := s1.modCore core fun c => giveBanks c crew bs
       ∀ out : Nat → Thread,
         (∀ j ∈ l :: ls, writeDst (g.lctx s2 j) sh.d x.dst [bankMask bs] (g.thread s2 j) = .ok ((), out j)) →
         exec (.accAlloc x) s = .next (pairEvents (finishNext
           (setThreads s2 r.team r.acc ((l :: ls).map fun j => (j, out j))) g) r.team sh.d x.dst (l :: ls)))) ∧
   (∀ (x : XOps) (s : State) (idx : Nat) (r : Run) (l : Nat) (ls : List Nat) (a : DWord) (th : Thread),
     let f := ofX x
     let g := groupOf s idx r f
     let sh := Instr.shape (.accFree x)
     let core := (s.team r.team).core
     Goes s idx r f (fun st => opChecks st sh f) false (srcRegs sh.a f.a) false →
     execLanes s r f = l :: ls → srcA (g.lctx s l) .int .w32 f (g.thread s l) = .ok (a, th) →
     let bs := bankList (DWord.lo a).toNat
     (∀ b ∈ bs, holdsBank s r.team b = true) →
     exec (.accFree x) s = .next (finishNext (((setThreads s r.team r.acc [(l, th)]).modCore core fun c =>
       bs.foldl (fun c b => { c with banks := aset c.banks b { (aget c.banks b).getD {} with freeing := true } }) c).pushOnce
         (.accBankRelease core)) g))) ∧
  ((∀ (s : State) (core slot k q : Nat) (o : EngOp) (x : XOps), mxCurrent s core = none →
     nextInTurn 64 (s.core core).mxRot (mxWork s core) = some (slot, k, q) → ((s.team k).queue 4).head = some o →
     (o.instr = .mxWload x → ∃ t, exec (.matrixEngineSelect core) s = .next t ∧ (t.core core).mxRunning = some k ∧
       (t.core core).mxRot = slot ∧ (t.core core).resident = none ∧ Ev.matrixChunkLoad core ∈ t.flight) ∧
     (o.instr = .mxIssue x → (mxBlk o.block).bsrc ≠ 0 → ∃ t, exec (.matrixEngineSelect core) s = .next t ∧
       (t.core core).mxRunning = some k ∧ (t.core core).mxRot = slot ∧
       mxNext core { o with state := .running } ∈ t.flight)) ∧
   (∀ (s s1 : State) (core k : Nat) (o : EngOp) (x : XOps) (cols : List (List BBlock)) (st : Bool),
     mxCurrent s core = some (k, o) → o.instr = .mxWload x →
     let p := mxBlk o.block
     let f := opFmt o
     loadColumns k p f (opMeta o) 0 (p.k / 32) (List.range p.n) (s.modCore core fun c => { c with resident := none }) =
       .ok (cols, st, s1) →
     ∃ t, exec (.matrixChunkLoad core) s = .next t ∧ (t.core core).resident =
       some { crew := opCrew o, token := o.token, btype := f.bTy, sparse := f.sparse, k := p.k, n := p.n, cols := cols }) ∧
   (∀ (s : State) (core k : Nat) (o : EngOp) (x : XOps), mxCurrent s core = some (k, o) → o.instr = .mxIssue x →
     let p := mxBlk o.block
     let f := opFmt o
     let nch := p.chunks f
     let s0 := s.modCore core fun c => { c with resident := none }
     let z := mxZero s0 core k o p
     let b0 := o.chunk * (kChunk f.sparse / 32)
     let nb := min (p.k / 32) (b0 + kChunk f.sparse / 32) - b0
     (o.row < p.passes → o.chunk < nch → p.bsrc ≠ 0 → ∀ cols st s2,
       loadColumns k p f (opMeta o) b0 nb (List.range p.n) z.2 = .ok (cols, st, s2) →
       exec (.matrixChunkLoad core) s = .next ((mxPut s2 k { z.1 with
         cols := cols, loaded := true, stale := z.1.stale || st }).push (.matrixAccumulateStep core))) ∧
     (o.row < p.passes → o.chunk < nch → p.bsrc = 0 ∨ o.loaded = true → o.abort = false →
       let y := mxZero s core k o p
       let o2 :=
         if o.idx + 1 < (passRange p o.row).2.2 then { y.1 with idx := o.idx + 1 }
         else { y.1 with idx := 0, chunk := o.chunk + 1, loaded := p.bsrc == 0 }
       let o3 := if nch ≤ o2.chunk ∧ p.otype = 0 then { o2 with row := o.row + 1, chunk := 0 } else o2
       exec (.matrixAccumulateStep core) s =
         .next ((mxPut (accumulateGroup y.2 core k y.1) k o3).push (mxNext core o3))) ∧
     (o.row < p.passes → nch ≤ o.chunk → o.abort = false → ∀ bs st s1,
       engineWrites k p.ospace o.order (outputWrites (s.core core) p o) s = .ok bs st s1 →
       let o1 := if o.idx + 1 < (passRange p o.row).2.2 then { o with idx := o.idx + 1 }
         else { o with idx := 0, chunk := 0, row := o.row + 1 }
       exec (.matrixOutputStep core) s = .next ((mxPut s1 k o1).push (mxNext core o1)))) ∧
   (∀ (s : State) (core k i n : Nat) (o : EngOp),
     let p := mxBlk o.block
     let f := opFmt o
     let w := passRange p o.row
     let b0 := if p.bsrc = 0 then 0 else o.chunk * (kChunk f.sparse / 32)
     let nb := min (p.k / 32) (b0 + kChunk f.sparse / 32) - b0
     let bank := getAt 0 p.list (o.idx * p.groups + n / 64)
     let row := (readA s k p f b0 nb (w.1 + 32 * o.idx + i)).map fun b => (alignBlock f.aTy b.1, b.2)
     let col := ((getAt [] o.cols n).take nb).map fun b => (alignBlock f.bTy b.pats, if p.bsc then b.scale else 0x7F)
     i < 32 → w.1 + 32 * o.idx + i < w.2.1 → p.n % 64 = 0 → n < p.n → n < o.cols.length →
     (o.idx + 1) * p.groups ≤ p.list.length →
     bankWord ((accumulateGroup s core k o).core core) bank (i * 64 + n % 64) =
       accumulate f.acct (bankWord (s.core core) bank (i * 64 + n % 64)) row col) ∧
   (∀ (acc : Word) (a b : Aligned) (sa sb : Nat),
     mxStep 1 acc a b sa sb = BitVec.ofInt 32 (acc.toInt + dotAligned a b) ∧
     mxStep 2 acc a b sa sb = BitVec.ofInt 32 (clamp (-(2 ^ 31)) (2 ^ 31 - 1) (acc.toInt + dotAligned a b))) ∧
   (∀ (acc : Word) (a b : Aligned) (sa sb : Nat),
     let f := fpOf .f32
     let S := dotAligned a b
     let after := mxStep 0 acc a b sa sb
     let ps := a.vals.zip b.vals
     let meets := fun (p q : FpVal) => p.isInf && q.isZero
     let nans := sa = 255 ∨ sb = 255 ∨ ∃ p ∈ ps, p.1.isNan = true ∨ p.2.isNan = true ∨ meets p.1 p.2 = true ∨ meets p.2 p.1 = true
     let infs := ps.filter fun p => p.1.isInf || p.2.isInf
     (¬nans → infs = [] → ∀ n m e,
       f.decode (f.round false .rne (decide (S < 0)) S.natAbs 0 false).bits = .fin n m e →
       after = BitVec.ofNat 32 (f.add .rne (f.decode acc.toNat) (.fin n m (e + (a.g + b.g + ((sa : Int) - 127) + ((sb : Int) - 127))))).bits) ∧
     (nans → after = 0x7FC00000) ∧
     (¬nans → (∃ p ∈ infs, p.1.sign = p.2.sign) → (∃ p ∈ infs, p.1.sign ≠ p.2.sign) → after = 0x7FC00000) ∧
     (¬nans → infs ≠ [] → ∀ n m e, f.decode acc.toNat = .fin n m e →
       ((∀ p ∈ infs, p.1.sign = p.2.sign) → after = 0x7F800000) ∧
       ((∀ p ∈ infs, p.1.sign ≠ p.2.sign) → after = 0xFF800000))) ∧
   (∀ (s : State) (core l d crew : Nat) (r : BankReq) (rest : List BankReq) (tm : Team),
     (s.core core).bankWaiters = r :: rest → aget s.teams r.team = some tm → tm.crew = some crew →
     bankLanes tm r.id = [l] → (tm.thread l).wait = some (.bank r.id d) → d < 120 → d < (tm.thread l).v.length →
     r.n ≤ (freeBanks (s.core core)).length →
     let bs := (freeBanks (s.core core)).take r.n
     ∃ t, exec (.accBankGrant core) s = .next t ∧ (t.thread r.team l).vreg d = bankMask bs ∧
       (t.thread r.team l).wait = none ∧ (t.core core).bankWaiters = rest ∧
       ∀ b ∈ bs, ((aget (t.core core).banks b).getD {}).owner = some crew) ∧
   (∀ (s : State) (core : Nat), ∃ t, exec (.accBankRelease core) s = .next t ∧ t.mem = s.mem ∧ t.teams = s.teams ∧
     ∀ b bk, (b, bk) ∈ (t.core core).banks ↔ (b, bk) ∈ (s.core core).banks ∧ (bk.freeing = false ∨
       ∃ kt ∈ s.teams, kt.2.core = core ∧ kt.2.kind ≠ .lodestar ∧ kt.2.resident = true ∧
         ∃ o, (o ∈ (kt.2.queue 4).ops ∨ ∃ p ∈ kt.2.pending, p.op = o) ∧ b ∈ opBanks o)))

/-! ### Access streams -/

/-- R247 to R253: the access forms complete: AFF.LOOP sets a level, AFF.LD and AFF.ST start a stream over the levels
they name, AFF.FEED feeds its lane. A stream's addresses are its base, the offset of the point at each level and the
lane's stride; the value read enters the lane's queue, and a paired address and datum become a store of the team. -/
def Obligations.AccessStreamFormsComplete : Prop :=
  (∀ x : XOps, Effects (.affLoop x) (ofX x) (fun _ => none) (affLoopLane x) ∧
    Effects (.affLd x) (ofX x) (fun _ => none) (streamLane x false) ∧
    Effects (.affSt x) (ofX x) (fun _ => none) (streamLane x true)) ∧
  (∀ (x : XOps) (s s1 : State) (idx : Nat) (r : Run) (th : Nat → Thread),
    let f := ofX x
    let i : Instr := .affFeed x
    let s' : State := { s with serial := s.serial + 1 }
    let g := groupOf s' idx r f
    Goes s' idx r f (fun st => firstOf [opChecks st i.shape f, if st.hasAcc then none else
      some (.operandKind, opTval x.dst.toNat 0)]) false (regsOf i.shape f false) i.shape.trk →
    AllOk g s' (effectLane i.shape.d x.dst (affFeedLane x)) (fun _ => ()) th s1 →
    exec i s = .next (pairEvents (finishNext (setThreads s1 r.team r.acc (g.e.map fun l => (l, th l))) g)
      r.team i.shape.d x.dst g.e)) ∧
  (∀ (x : XOps) (store : Bool) (s : State) (L : LCtx) (th th1 th2 : Thread) (b d : DWord) (a : Access) (tm : Team),
    srcA L .int .w64 (ofX x) th = .ok (b, th1) → srcC L .int .w32 (ofX x) th1 = .ok (d, th2) →
    aget s.teams L.k = some tm → tm.acc = some a →
    let st := newStream a x store b (DWord.lo d).sext
    st.levels = ([0, 1, 2, 3].filter fun n => fld x.b.bits (2 + n) 1 = 1).map (fun n => getAt (0, 0) a.loops n) ∧
    st.q = x.b.bits % 4 + (if store then 4 else 0) ∧
    (a.generating st.q = true → streamLane x store s L th = .error .hold) ∧
    (a.generating st.q = false → 0 < st.total → ∃ t, streamLane x store s L th = .ok ([], th2, t) ∧
      (t.team L.k).acc = some { a with streams := a.streams ++ [st] } ∧ Ev.accessStreamPoint L.k st.q ∈ t.flight)) ∧
  (∀ (st : Stream) (p q : Nat × DWord),
    (st.levels = [] → st.addr = st.base + BitVec.ofNat 64 st.lane * st.ls) ∧
    (st.levels = [p] → st.addr =
      st.base + BitVec.ofNat 64 (st.point % p.1) * p.2 + BitVec.ofNat 64 st.lane * st.ls) ∧
    (st.levels = [p, q] → st.addr = st.base + BitVec.ofNat 64 (st.point % p.1) * p.2 +
      BitVec.ofNat 64 (st.point / p.1 % q.1) * q.2 + BitVec.ofNat 64 st.lane * st.ls)) ∧
  (∀ (s s1 : State) (k q : Nat) (tm : Team) (a : Access) (st : Stream) (bs : List Byte) (stale : Bool),
    aget s.teams k = some tm → s1.teams = s.teams → tm.acc = some a → a.streams.find? (fun st => st.q == q) = some st →
    q < 4 → tm.resident = true → st.stopped = none → st.fb = false → st.lane < tm.threads.length →
    q < (tm.thread st.lane).inq.length → (getAt [] (tm.thread st.lane).inq q).length < Config.queueDepth →
    pointAt s k st.lane true st.addr (tyBytes st.ty) = .ok bs stale s1 →
    ∃ t, exec (.accessStreamPoint k q) s = .next t ∧ getAt [] (t.thread k st.lane).inq q =
      getAt [] (tm.thread st.lane).inq q ++ [{ val := streamValue st.ty bs, err := none, stale := stale }]) ∧
  (∀ (s s1 : State) (k q l : Nat) (tm : Team) (e : AddrElem) (es : List AddrElem) (d : Nat × Word) (ds : List (Nat × Word))
    (p : Piece), aget s.teams k = some tm → s1.teams = s.teams → l < tm.threads.length → tm.resident = true →
    getAt [] (tm.thread l).addrq q = e :: es → getAt [] (tm.thread l).outq q = d :: ds → e.stop = none → e.err = none →
    s.piece k l .store e.addr e.bytes (some d.1) = .ok (p, s1) → s1.unreachable tm.die p.xl.ty p.xl.pa = none →
    (e.bytes = 4 ∨ s1.portIn p.xl.pa e.bytes = false) →
    ∃ t st, exec (.affStPairStore k q l) s = .next t ∧ (t.team k).storeq = insertStore st tm.storeq ∧ st.lane = l ∧
      st.op = d.1 ∧ st.va = e.addr ∧
      st.writes = wholeBytes p.xl.pa (leBytes e.bytes (d.2.toNat % 2 ^ (8 * e.bytes))) ∧
      getAt [] (t.thread k l).addrq q = es ∧ getAt [] (t.thread k l).outq q = ds ∧ Ev.storePerform k ∈ t.flight)

/-! ### Launches -/

/-- R349, R350, R353, R368: LAUNCH checks its operand and is pending; its 256 bytes are then read, at which its lanes
have passed their decision point, and, while the partition holds fewer than 1,024 device launches, the record is
received and the status written to the lanes; a doorbell within the ring moves the
tail and one beyond it records an error; a capture reads the record at SQHEAD and advances it; a launch is ready when
its edges are done, and ends with code 5 when one has failed. -/
def Obligations.LaunchRecordsAreReceived : Prop :=
  (∀ x : XOps, Enqueues (.launch x) x (prepareLaunch (.launch x))) ∧
  (∀ (s : State) (k : Nat) (p : PendingOp), (∀ q ∈ (s.team k).pending, q.op.isLaunch = true) →
    launchesDue (s.team k) [] ((s.team k).pending.filter fun q => q.op.isLaunch) = [p] →
    (∀ (s1 : State) (bs : List Byte) (stale : Bool), p.op.block = [] →
      readVirtual (s.team k) (some (s.team k).agent) (chunks 4 (getAt 0 p.op.args 0).toNat 256) s = .ok bs stale s1 →
      exec (.engineOpAccept k) s = .next (lookAgain (captureLaunch s1 k p bs stale) k)) ∧
    (∀ (s1 s2 : State) (st : Nat) (ok : Bool), p.op.block ≠ [] → deviceLaunches s (s.team k).part < 1024 →
      acceptRecord s (s.team k).ctx true (wordsOf p.op.block) = .done st ok s1 →
      writeLanes (dropPending s1 k p.id) k p.id (BitVec.ofNat 32 st) p.lanes = some s2 →
      exec (.engineOpAccept k) s = .next (lookAgain s2 k)) ∧
    (p.op.block ≠ [] → 1024 ≤ deviceLaunches s (s.team k).part → exec (.engineOpAccept k) s = .next (lookAgain s k))) ∧
  (∀ (s : State) (c off : Nat) (dev : Bool) (r : LRec),
    let part := ((s.ctx c).part).getD 0
    recordBad r (!(s.part part).units.coreUnits.isEmpty) = some off → aget s.launches s.serial = none →
    ∃ t v, acceptRecord s c dev r = .done 2 (complOk r) t ∧ aget t.launches s.serial = some v ∧ v.stage = .ending ∧
      v.code = 2 ∧ v.tval = BitVec.ofNat 64 off ∧ Ev.launchEnd s.serial ∈ t.flight) ∧
  (∀ (s : State) (vf : Nat) (tail : Word),
    (ringSize (s.ctx vf) < (tail - (s.ctx vf).sqhead).toNat →
      ∃ t, exec (.launchDoorbell vf tail) s = .next t ∧ t.ctx vf = { s.ctx vf with sqErr := true }) ∧
    ((tail - (s.ctx vf).sqhead).toNat ≤ ringSize (s.ctx vf) →
      ∃ t, exec (.launchDoorbell vf tail) s = .next t ∧ t.ctx vf = { s.ctx vf with sqtail := tail } ∧
        Ev.recordCapture vf ∈ t.flight)) ∧
  (∀ (s : State) (vf : Nat) (w : Word),
    (12 ≤ w.toNat % 16 → ∃ t, exec (.launchQueueControl vf w) s = .next t ∧ t.ctx vf = { s.ctx vf with sqErr := true }) ∧
    (w.toNat % 16 < 12 → ∃ t, exec (.launchQueueControl vf w) s = .next t ∧ (t.ctx vf).sqEnable = w.getLsbD 31 ∧
      (t.ctx vf).sqErr = ((s.ctx vf).sqErr && !w.getLsbD 30) ∧
      (t.ctx vf).sqLog2n = (if (s.ctx vf).sqEnable then (s.ctx vf).sqLog2n else w.toNat % 16))) ∧
  (∀ (s s1 : State) (vf : Nat) (bs : List Byte) (stale : Bool),
    let c := s.ctx vf
    c.sqEnable = true → c.captured = none → c.sqStuck = false → c.sqhead ≠ c.sqtail → s1.ctxs = s.ctxs →
    agentRead s vf (c.part.getD 0) (c.sqbase + BitVec.ofNat 64 (256 * (c.sqhead.toNat % ringSize c))) 256 = .ok bs stale s1 →
    ∃ t, exec (.recordCapture vf) s = .next t ∧
      t.ctx vf = { c with sqhead := c.sqhead + 1, captured := some (wordsOf bs) }) ∧
  (∀ (s s1 : State) (l : Nat) (v : Launch), aget s.launches l = some v → v.stage = .edges → s1.launches = s.launches →
    (edgeState v.ctx v.part v.edges true s = .failed s1 →
      ∃ t, exec (.edgeSatisfied l) s = .next t ∧ aget t.launches l = some { v with stage := .ending, code := 5 } ∧
        Ev.launchEnd l ∈ t.flight) ∧
    (edgeState v.ctx v.part v.edges true s = .done s1 → (flushEdges (agentTeam v.ctx v.part) v.edges s1).launches = s.launches →
      ∃ t, exec (.edgeSatisfied l) s = .next t ∧ aget t.launches l = some { v with stage := .ready } ∧
        Ev.placeClusterGroup v.part ∈ t.flight))

/-- R342, R347, R351, R354, R355: of each priority the launch accepted first may place, the highest priority first; a
placed team's threads stand at the entry with registers of zero, its first sixteen uniform registers from the record.
A launch whose groups are all placed and whose teams are gone ends with code 0; its completion record is written, the
word with the code last. -/
def Obligations.LaunchesArePlacedAndEnd : Prop :=
  (∀ (s t : State) (part : Nat), ([3, 2, 1, 0].filterMap fun p => (waitingLaunches s part p).head?).findSome?
      (fun l => placeLaunch s l) = some t →
    exec (.placeClusterGroup part) s = .next (t.pushOnce (.placeClusterGroup part))) ∧
  (∀ (s : State) (l : Nat) (v : Launch) (core slot crew : Nat) (ids : List DWord),
    let t := newTeam s l v core slot crew ids
    t.threads.length = ids.length ∧ t.core = core ∧ t.slot = slot ∧ t.ctx = v.ctx ∧ t.trapbase = recD v.record 16 ∧
    t.deadline = recD v.record 80 ∧ (recD v.record 8 = 0 → t.acc = none) ∧
    (∀ i < 64, getAt 0 t.s i = if i < 16 then BitVec.ofNat 32 (recW v.record (192 + 4 * i)) else 0) ∧
    ∀ j < ids.length, (t.thread j).pc = mkResume (recD v.record 0) 0 ∧ (t.thread j).workid = getAt 0 ids j ∧
      (t.thread j).v = List.replicate (recRegs v.record) 0 ∧ (t.thread j).status = .live) ∧
  (∀ (s : State) (l : Nat) (v : Launch), aget s.launches l = some v → s.launchTeams l = [] →
    (v.stage = .running → v.placedAll = true → (∀ p ∈ (s.part v.part).phases, p.2.launch ≠ l) →
      ∃ t, exec (.launchEnd l) s = .next t ∧ aget t.launches l = some { v with stage := .ending, code := 0 } ∧
        Ev.launchEnd l ∈ t.flight) ∧
    (v.stage = .ending → complOk v.record = false →
      ∃ t, exec (.launchEnd l) s = .next t ∧ aget t.launches l = none ∧ t.mem = s.mem)) ∧
  (∀ (s s1 s2 : State) (l : Nat) (v : Launch) (b1 b2 : List Byte) (x1 x2 : Bool), complOk v.record = true →
    (headLost s v.ctx = false ∨ complInHost s v = false) →
    agentWrite s v.ctx v.part (recD v.record 64) ((complBytes v).take 24) = .ok b1 x1 s1 →
    agentWrite s1 v.ctx v.part (recD v.record 64 + 24) ((complBytes v).drop 24) = .ok b2 x2 s2 →
    aget (completeLaunch s l v).launches l = none ∧ (completeLaunch s l v).mem = s2.mem ∧
    complBytes v = leBytes 8 (recD v.record 88).toNat ++ leBytes 8 v.tpc.toNat ++ leBytes 8 v.tval.toNat ++
      leBytes 4 (2 ^ 31 + v.cause % 256 * 2 ^ 8 + v.code % 256) ++ [0, 0, 0, 0])

/-! ### Futures, phases, migration -/

/-- R390 to R393: FUT.ST fills an empty future once, with FULL set and WAIT cleared, and answers 0, or 1 where it is
full; FUT.LD, once the earlier accesses of its threads have performed (R158), outside a phased launch reads a full future
and waits for an empty one, each waiting thread with an entry of its own in the table, at which a FUT.LD that finds no room
issues again (the model's reading, log 44); in a phased launch whose phase has had no side effect it reads when all are
full, and where the phase has had a side effect it traps LATE_FUTURE_WAIT, its operands as they were. -/
def Obligations.FuturesFillOnceAndAreRead : Prop :=
  (∀ (x : XOps) (s s0 s1 : State) (idx : Nat) (r : Run) (u : Nat → FutUse) (th : Nat → Thread),
    let f := ofX x
    let g := groupOf s idx r f
    let sh := Instr.shape (.futLd x)
    let e := execLanes s r f
    let us := e.map fun l => (l, u l)
    let read := fun (s : State) (p : Nat × FutUse) =>
      s.modThread r.team p.1 fun th => th.setVs x.dst.toNat [p.2.val.lo, p.2.val.hi]
    Goes s idx r f (fun st => opChecks st sh f) false (srcRegs sh.a f.a ++ dstRegs false sh.d f.dst) false → Settled s r f →
    g.release s .core = .ok s0 → AllOk g s0 (futLdLane x r.team) u th s1 →
    let s2 := setThreads s1 r.team r.acc (notedLanes s r e th)
    (recPhased (s.recOf (s.team r.team)) = false → (∀ l ∈ e, futFull (u l).st = true) →
      futureRoom s2 (s2.team r.team).part 0 = true →
      exec (.futLd x) s = .next (startWaits (us.foldl read s2) g fun _ => none)) ∧
    (recPhased (s.recOf (s.team r.team)) = false → (∀ l ∈ e, futFull (u l).st = false) →
      (futureRoom s2 (s2.team r.team).part e.length = false → exec (.futLd x) s = .next s2) ∧
      (futureRoom s2 (s2.team r.team).part e.length = true →
      exec (.futLd x) s = .next (startWaits (us.foldl (fun s p =>
        (markWaited s r.team p.1 p.2.p p.2.st).modPart (s2.team r.team).part fun q =>
          { q with futures := q.futures ++ [(p.2.p.xl.pa, Waiter.thread r.team p.1)] }) s2) g
            fun l => (us.find? fun p => p.1 == l).map fun p => .future x.dst.toNat p.2.p.va))) ∧
    (∀ c, recPhased (s.recOf (s.team r.team)) = true → e ≠ [] → (s.team r.team).crew = some c →
      (s.crew c).frozen = none →
      let opened := s2.modCrew c fun v => { v with frozen := none }
      ((s2.crew c).sideEffects = true → exec (.futLd x) s = .next (finishNext (trapLanes (undoLanes s opened g e) r.team idx false
        (us.map fun p => trapAt g p.1 .lateFutureWait p.2.p.va)) g)) ∧
      ((s2.crew c).sideEffects = false → (∀ l ∈ e, futFull (u l).st = true) →
      exec (.futLd x) s = .next (finishNext (us.foldl read opened) g)))) ∧
  (∀ (x : XOps) (s s0 s1 : State) (idx : Nat) (r : Run) (th : Nat → Thread),
    let f := ofX x
    let g := groupOf s idx r f
    let sh := Instr.shape (.futSt x)
    Goes s idx r f (fun st => opChecks st sh f) false (srcRegs sh.a f.a ++ srcRegs sh.b f.b ++ dstRegs false sh.d f.dst) true →
    g.release s .device = .ok s0 → AllOk g s0 (futStLane x r.team g.here) (fun _ => ()) th s1 →
    exec (.futSt x) s = .next (pairEvents (finishNext
      (setThreads s1 r.team r.acc ((execLanes s r f).map fun l => (l, th l))) g) r.team sh.d x.dst (execLanes s r f))) ∧
  (∀ (s : State) (k l st : Nat) (p : Piece) (v : DWord), s.mem.wf = true → s.ucopies = [] → p.xl.mode ≠ .swm →
    p.xl.master = false →
    (futFull st = true → fillFuture s k l p st v = (1, s)) ∧
    (futFull st = false → (fillFuture s k l p st v).1 = 0 ∧ (fillFuture s k l p st v).2.mem.nat p.xl.pa 8 = v.toNat ∧
      (fillFuture s k l p st v).2.mem.nat (p.xl.pa + 8) 8 = 2 ^ 63 + st % 2 ^ 62))

/-- R367, R387 to R389: the threads of PHASE.END wait for their crew; when the phase is over its record is enqueued
and the crew's teams go; PHASE_RESUME places the oldest record that is ready, its threads at their resume points with
their carry registers. MIGRATE waits for its team, which moves to a landing slot of a core of the named die, belonging
to no crew from then on, and from there to a free slot. -/
def Obligations.PhasesEndAndTeamsMigrate : Prop :=
  (∀ (x : XOps) (s : State) (idx : Nat) (r : Run), Goes s idx r (ofX x) (fun _ => none) false [] false →
    Settled s r (ofX x) → execLanes s r (ofX x) ≠ [] →
    (∀ l ∈ execLanes s r (ofX x), lateFault (laneOf s r l) = none ∧
      phaseCarry s (s.team r.team) (laneOf s r l) = none) →
    exec (.phaseEnd x) s = .next (afterThread (startWaits s (groupOf s idx r (ofX x)) fun _ => some .phaseEnd) r.team)) ∧
  (∀ (s : State) (c : Nat) (v : Crew), aget s.crews c = some v → phaseOver s c = true →
    (∃ kt ∈ s.crewTeams c, kt.2.allExited = false) →
    (∀ kt ∈ s.crewTeams c, teamDrained s kt.1 = true ∧ ∀ th ∈ kt.2.threads, th.ops = []) →
    poolFull s (s.launch v.launch).part = false →
    ∃ t, exec (.phaseRecordEnqueue c) s = .next t ∧
      (t.part (s.launch v.launch).part).phaseReady = (s.part (s.launch v.launch).part).phaseReady ++ [s.serial] ∧
      s.serial ∈ (t.part (s.launch v.launch).part).phases.map (·.1) ∧ t.mem = s.mem) ∧
  (∀ (s : State) (part rec core : Nat) (rest cs : List Nat) (pr : PhaseRec), (s.part part).phaseReady = rec :: rest →
    aget (s.part part).phases rec = some pr → crewCores s (s.part part) (s.launch pr.launch).record = core :: cs →
    ∃ c, c ∈ core :: cs ∧ exec (.phaseResume part) s = .next ((resumeCrew
      (({ s with freeCtr := s.freeCtr + 1 } : State).modPart part fun p => { p with phaseReady := rest }) rec pr c).pushOnce
        (.phaseResume part))) ∧
  (∀ (r : LRec) (fresh : Thread) (p : PhaseThread), (recCarry r).Nodup → (∀ c ∈ recCarry r, c < fresh.v.length) →
    p.carry.length = (recCarry r).length →
    let t := resumeThread r fresh p
    t.pc = p.pc ∧ t.fpstat = p.fpstat ∧ t.fpmode = p.fpmode ∧ t.vstale = p.vstale ∧
    (t.status = .exited ↔ p.exited = true) ∧
    (∀ i < p.carry.length, t.vreg (getAt 0 (recCarry r) i) = getAt 0 p.carry i) ∧
    ∀ c, c ∉ recCarry r → t.vreg c = fresh.vreg c) ∧
  (∀ x : XOps, ReadsThen (.migrate x) x Grp.settle (migrateLane x) fun _ s g vals =>
    let t := startWaits (if vals.isEmpty then s else s.sideEffect g.k) g fun l =>
      (vals.find? fun p => p.1 == l).map fun p => .migrate p.2
    if vals.isEmpty then t else t.pushOnce (.migrateMove g.k)) ∧
  (∀ (s : State) (k d : Nat) (tm : Team), aget s.teams k = some tm → migrateTo tm = some d → teamDrained s k = true →
    (∀ th ∈ tm.threads, th.ops = []) → (∀ l < tm.threads.length, pairable tm l = []) →
    (d = tm.die → ∃ t, exec (.migrateMove k) s = .next t ∧ t.team k = resumeMigrated tm) ∧
    (d ≠ tm.die → (∃ c ∈ coresOnDie (s.part tm.part) d, ∀ kt ∈ s.teams,
        kt.2.kind = .user → kt.2.resident = true → kt.2.core = c → kt.2.slot ≠ Config.landingSlot) →
      ∃ t, exec (.migrateMove k) s = .next t ∧ (t.team k).core ∈ coresOnDie (s.part tm.part) d ∧
        (t.team k).slot = Config.landingSlot ∧ (t.team k).crew = none ∧ Ev.landingSlotMove k ∈ t.flight)) ∧
  (∀ (s : State) (k : Nat) (tm : Team), aget s.teams k = some tm → tm.slot = Config.landingSlot → tm.resident = true →
    (∀ r ∈ s.runs, r.team ≠ k) → (slotTeams s tm.core).length < 62 →
    (slotTeams s tm.core).foldl (fun n t => n + t.alloc) 0 + tm.alloc ≤ Config.rows →
    ∃ t, exec (.landingSlotMove k) s = .next t ∧ (t.team k).slot < 62 ∧
      ∀ u ∈ slotTeams s tm.core, u.slot ≠ (t.team k).slot)

/-! ### Shipped sections -/

/-- R379, R380: once every lane of SHIP or SHIP.A has sent its request, SHIP leaves its threads waiting and SHIP.A has
written their tokens and taken their slots. A lane's request names the home that the hash of its lock address gives
(R377) and carries its entry, its lock, its first `n` arguments and its sender; it travels to the home, leaves for the
lock's device, whose own partition table gives its home there (which partition is the model's choice, log 118), or, where that is gone, answers as faulted. R180, R381: a request stays on its way behind an earlier one
that it may not overtake, else enters its home's queue or waits for room there; one whose home's die is cut off answers
as faulted. A home without a section takes its head request, refuses it where no region admits it, and starts a
one-thread section at its entry with its arguments and its lock in the registers (R382); the section goes on where
SENTRY stands first and is refused elsewhere. SENTRY as a section's first instruction enters it; a second SENTRY, and
SENTRY or SRET outside a section, trap SHIP_REFUSED. SRET ends the section after its release. An ended section whose
accesses have performed and whose release is made leaves its home, its result goes to the sender, which takes it or
traps; a section that has run its budget ends as faulted (R385). Requests, starts, results and budget expiries answer a
next state in every state. -/
def Obligations.ShippedSectionsRunAndAnswer : Prop :=
  ((∀ (n : BitVec 3) (x : XOps) (s s0 s1 : State) (idx : Nat) (r : Run) (id : Nat → Nat) (th : Nat → Thread),
     let i : Instr := .ship n x
     let f := ofX x
     let g := groupOf s idx r f
     let sc := shipScope i f s g
     Goes s idx r f (fun st => opChecks st i.shape f) false (regsOf i.shape f false) false → Settled s r f →
     g.release s sc = .ok s0 → AllOk g s0 (shipLane n x sc r.team s0.serial g.here) id th s1 →
     exec i s = .next (startWaits (setThreads s1 r.team r.acc (notedLanes s r (execLanes s r f) th)) g fun l =>
       if l ∈ execLanes s r f then some (.ship x.dst.toNat (id l)) else none)) ∧
   (∀ (n : BitVec 3) (x : XOps) (s s0 s1 : State) (idx : Nat) (r : Run) (th : Nat → Thread),
     let i : Instr := .shipA n x
     let f := ofX x
     let g := groupOf s idx r f
     let sc := shipScope i f s g
     Goes s idx r f (fun st => opChecks st i.shape f) false (regsOf i.shape f false) true →
     g.release s sc = .ok s0 → AllOk g s0 (shipALane n x sc r.team s0.serial g.here) (fun _ => ()) th s1 →
     exec i s = .next (pairEvents (finishNext
       (setThreads s1 r.team r.acc ((execLanes s r f).map fun l => (l, th l))) g) r.team i.shape.d x.dst (execLanes s r f))) ∧
   (∀ (n : BitVec 3) (x : XOps) (sc : Scope) (k grp : Nat) (here : DWord) (s s1 : State) (L : LCtx) (th th1 : Thread)
     (lr : LogRec) (sd : Sending), lostTrap th sc = none →
     (logOperands (.ship n x) (ofX x) (Instr.shape (.ship n x)) here L th = .ok (lr, th1) →
       prepareShip false n.toNat grp s L lr (.thread k L.lane none s.serial) = .ok (sd, s1) →
       shipLane n x sc k grp here s L th = .ok (s.serial, th1, sendShip s1 k sd)) ∧
     (∀ (j : Nat) (th2 : Thread), logOperands (.shipA n x) (ofX x) (Instr.shape (.shipA n x)) here L th = .ok (lr, th1) →
       freeSlotOf th1 = some j →
       prepareShip true n.toNat grp s L lr (.thread k L.lane (some j) th1.shipCount) = .ok (sd, s1) →
       writeDst L (Instr.shape (.shipA n x)).d x.dst [sectionToken th1.shipCount j] th1 = .ok ((), th2) →
       shipALane n x sc k grp here s L th =
         .ok ((), { th2 with slots := aset th2.slots j { seq := th1.shipCount, result := none }, shipCount := th1.shipCount + 1 },
           sendShip s1 k sd))) ∧
   (∀ (async : Bool) (n grp : Nat) (s s1 : State) (L : LCtx) (lr : LogRec) (sender : ShipSender) (p : Piece),
     isCanon lr.a = true → isCanon lr.b = true →
     (lr.a.toNat % 4 ≠ 0 → prepareShip async n grp s L lr sender = .error (.trap .misalignedAccess lr.a .nothing)) ∧
     (lr.a.toNat % 4 = 0 → L.team.kind = .lodestar → async = false →
       prepareShip async n grp s L lr sender = .error (.trap .shipRefused 1 .nothing)) ∧
     (lr.a.toNat % 4 = 0 → L.team.kind = .user → s.piece L.k L.lane .load lr.b 1 (lock := true) = .ok (p, s1) →
       ∃ sd, prepareShip async n grp s L lr sender = .ok (sd, s1) ∧
         sd.req.home = lockHome (s.part L.team.part) (lockHash lr.b % lockCount (s.part L.team.part)) ∧
         sd.req.entry = lr.a ∧ sd.req.lock = lr.b ∧ sd.req.args = lr.c.take n ∧ sd.req.sender = sender ∧
         sd.device = (if p.xl.ty = .peer then some (peerDevice p.xl.pa) else none))) ∧
   (∀ (s : State) (k d : Nat) (sd : Sending),
     (sendShip s k sd).mem = s.mem ∧
     (sd.device = none → (sendShip s k sd).flight = s.flight ++ [.sectionRequestArrival sd.req]) ∧
     (sd.device = some d → d ∈ s.peers → (sendShip s k sd).out = s.out ++ [.shipReq d sd.req]) ∧
     (sd.device = some d → d ∉ s.peers → (sendShip s k sd).flight = s.flight ++
       [.sectionResultArrival { sender := sd.req.sender, result := .faulted (codeWord .fabricUnreachable (BitVec.ofNat 64 d)) }]))) ∧
  ((∀ (s : State) (r0 : ShipReq),
     let r := arrived s r0
     (∀ k l j n, r0.sender = .thread k l j n → r = r0) ∧
     (∀ d id, r0.sender = .remote d id → r.sender = r0.sender ∧ r.entry = r0.entry ∧ r.lock = r0.lock ∧ r.args = r0.args ∧
       r.fromHome = none ∧ (let p := partOfPlace s r0.place; r.home = lockHome p (lockHash r.lock % lockCount p)) ∧
       (r0.originDev = s.mnum → r.origin = r0.origin ∧ r.ctx = r0.ctx % 256) ∧
       (r0.originDev ≠ s.mnum → r.origin = none ∧ 256 ≤ r.ctx)) ∧
     (overtakes s r = true → ∃ t, exec (.sectionRequestArrival r0) s = .next t ∧
       Ev.sectionRequestArrival r0 ∈ t.flight ∧ t.homes = s.homes) ∧
     (overtakes s r = false → homeDead s r = true → ∃ t, exec (.sectionRequestArrival r0) s = .next t ∧ t.homes = s.homes ∧
       Ev.sectionResultArrival { sender := r.sender
                                 result := .faulted (codeWord .fabricUnreachable (BitVec.ofNat 64 (r.home / 64))) } ∈ t.flight) ∧
     (overtakes s r = false → homeDead s r = false →
       ∃ t, exec (.sectionRequestArrival r0) s = .next t ∧ Ev.sectionStart r.home ∈ t.flight ∧
         ((s.home r.home).waiting = [] → (s.home r.home).queue.length < 1024 →
           t.home r.home = { s.home r.home with queue := (s.home r.home).queue ++ [r] }) ∧
         (1024 ≤ (s.home r.home).queue.length →
           t.home r.home = { s.home r.home with waiting := (s.home r.home).waiting ++ [r] }))) ∧
   (∀ (s : State) (h : Nat), (s.home h).team = none → takeRequest (s.home h) = none → exec (.sectionStart h) s = .next s) ∧
   (∀ (s : State) (h : Nat) (r : ShipReq) (v : Home), (s.home h).team = none → takeRequest (s.home h) = some (r, v) →
     let s0 : State := { s with homes := aset s.homes h v }
     (regionFor (s.part (partOfHome s h)) r = none →
       ∃ t, exec (.sectionStart h) s = .next t ∧ t.home h = v ∧
         Ev.sectionResultArrival { sender := r.sender, result := .refused 2 } ∈ t.flight) ∧
     ∀ g, regionFor (s.part (partOfHome s h)) r = some g →
       let s1 : State := { s0 with serial := s.serial + 1 }
       exec (.sectionStart h) s = .next (enterSection
         (({ s1 with teams := s1.teams ++ [(s.serial, sectionTeam s1 h r g)] } : State).modHome h fun v =>
           { v with team := some s.serial }) h s.serial r)) ∧
   (∀ (s : State) (h : Nat) (r : ShipReq) (g : Region) (j : Nat), j < 120 →
     let t := sectionTeam s h r g
     t.kind = .lodestar ∧ t.core = h ∧ t.threads.length = 1 ∧ (t.thread 0).pc = mkResume r.entry 0 ∧
     (t.thread 0).vreg j = getAt 0 r.args j ∧ getAt 0 t.s 0 = r.lock.lo ∧ getAt 0 t.s 1 = r.lock.hi ∧ t.entering = true) ∧
   (∀ (s : State) (h k : Nat) (r : ShipReq) (c : Clause) (s1 : State) (w0 : Word) (ws : List Word) (i : Instr),
     (∀ q a, (s.team k).sectionReq = some q → q.rrec = some a → s.placeBlocked (s.team k).die a = false) →
     fetchClause s (s.team k) r.entry = .ok (c, s1) → c.words = w0 :: ws →
     wordChecks (s.team k) false w0 (getAt 0 ws 0) = .ok i →
     ((∃ x, i = .sentry x) → r.fromHome ≠ some r.home →
       enterSection s h k r = s.modTeam k fun t => { t with entering := false }) ∧
     ((∃ x, i = .sentry x) → r.fromHome = some r.home → enterSection s h k r = endSection s h k (.refused 4)) ∧
     ((∀ x, i ≠ .sentry x) → enterSection s h k r = endSection s h k (.refused 3))) ∧
   (∀ (x : XOps) (s : State) (idx : Nat) (r : Run), Goes s idx r (ofX x) (fun _ => none) false [] false →
     let g := groupOf s idx r (ofX x)
     let refuse := finishNext (trapLanes s r.team idx r.acc ((execLanes s r (ofX x)).map fun l => trapAt g l .shipRefused 5)) g
     ((s.team r.team).kind = .lodestar → (s.team r.team).sentry = false →
       exec (.sentry x) s = .next (finishNext (s.modTeam r.team fun t => { t with sentry := true }) g)) ∧
     ((s.team r.team).kind = .lodestar → (s.team r.team).sentry = true → exec (.sentry x) s = .next refuse) ∧
     ((s.team r.team).kind ≠ .lodestar → exec (.sentry x) s = .next refuse ∧ exec (.sret x) s = .next refuse) ∧
     ((s.team r.team).kind = .lodestar → Settled s r (ofX x) → execLanes s r (ofX x) ≠ [] →
       (∀ l ∈ execLanes s r (ofX x), (laneOf s r l).lost = none) →
       ∀ s1, g.release s (sectionScope (s.team r.team)) = .ok s1 →
       exec (.sret x) s = .next ((dropLanes (sectionDone s1 r.team) idx r.lanes).modThread r.team 0 fun th =>
         { th with status := .exited }))) ∧
   (∀ (s s1 : State) (h k : Nat) (e : ShipEnd) (r : ShipReq), (s.home h).team = some k → (s.team k).sectionEnd = some e →
     (s.team k).sectionReq = some r →
     (sectionQuiet s k = true → faultRelease s k e = .ok s1 → exec (.sectionStart h) s = .next (endSection s1 h k e)) ∧
     (sectionQuiet s k = false → ∃ t, exec (.sectionStart h) s = .next t ∧ t.homes = s.homes ∧ Ev.sectionStart h ∈ t.flight) ∧
     (s1.home h = s.home h → (s1.team k).sectionReq = some r →
       let t := endSection s1 h k e
       (t.home h).team = none ∧ aget t.teams k = none ∧
       Ev.sectionResultArrival { sender := r.sender, result := e } ∈ t.flight ∧ Ev.sectionStart h ∈ t.flight)) ∧
   (∀ (s : State) (k l seq : Nat) (tm : Team) (e : ShipEnd), aget s.teams k = some tm → l < tm.threads.length →
     (∀ dst vs, (tm.thread l).wait = some (.ship dst seq) → e = .results vs →
       ∃ t, exec (.sectionResultArrival { sender := .thread k l none seq, result := e }) s = .next t ∧
         t.thread k l = { (tm.thread l).setVs dst (vs.take 4) with wait := none }) ∧
     (∀ dst n, (tm.thread l).wait = some (.ship dst seq) → e = .refused n →
       ∃ t : State, t.teams = s.teams ∧
       exec (.sectionResultArrival { sender := .thread k l none seq, result := e }) s =
         .next (trapWait t k l .shipRefused (BitVec.ofNat 64 n))) ∧
     (∀ dst v, (tm.thread l).wait = some (.ship dst seq) → e = .faulted v →
       ∃ t : State, t.teams = s.teams ∧
       exec (.sectionResultArrival { sender := .thread k l none seq, result := e }) s = .next (trapWait t k l .shipFaulted v)) ∧
     (∀ j sl, aget (tm.thread l).slots j = some sl → sl.seq = seq →
       ∃ t, exec (.sectionResultArrival { sender := .thread k l (some j) seq, result := e }) s = .next t ∧
         aget (t.thread k l).slots j = some { sl with result := some e })) ∧
   (∀ (s : State) (d id : Nat) (e : ShipEnd),
     exec (.sectionResultArrival { sender := .remote d id, result := e }) s =
       .next { s with out := s.out ++ [.shipResult { sender := .remote d id, result := e }] }) ∧
   (∀ (s : State) (h k : Nat) (tm : Team), (s.home h).team = some k → aget s.teams k = some tm →
     (tm.kind = .lodestar → tm.sentry = true → 2 ^ 24 ≤ tm.sectionCycles → tm.sectionEnd = none →
       (tm.thread 0).status = .live → (tm.thread 0).recorded = [] →
       ∃ t, exec (.sectionBudgetExpiry h) s = .next t ∧
         (t.team k).sectionEnd = some (.faulted (codeWord .teamTimer tm.teamtime)) ∧ Ev.sectionStart tm.core ∈ t.flight) ∧
     (tm.sectionCycles < 2 ^ 24 → exec (.sectionBudgetExpiry h) s = .next s))) ∧
  (∀ (s : State) (r : ShipReq) (q : ShipResult) (h : Nat),
    (∃ t, exec (.sectionRequestArrival r) s = .next t) ∧ (∃ t, exec (.sectionStart h) s = .next t) ∧
    (∃ t, exec (.sectionResultArrival q) s = .next t) ∧ ∃ t, exec (.sectionBudgetExpiry h) s = .next t)

/-! ### Flares -/

/-- R402: an allowed raise of vector v with payload p changes v's state in one step: by the mode, the payload becomes
payload OR p, payload + p clamped, or p; pending is set, the count goes up and stops at 255, and the mode and the
sender are recorded. The other vectors and memory stay. -/
def Obligations.RaisesCombineIntoVectors : Prop :=
  (∀ (s : State) (ctx v m : Nat) (sender : Word) (p : DWord), ctx < 256 → (s.ctx ctx).enabled = true →
    raiseMode (s.ctx ctx) sender v = some m → v < 64 → (s.ctx ctx).vectors.length = 64 →
    ∃ t, exec (.flareRaiseMessage { ctx := ctx, sender := sender, vector := v, payload := p, reply := none }) s = .next t ∧
      (t.ctx ctx).vector v = ((s.ctx ctx).vector v).combine m sender p ∧
      (∀ u, u ≠ v → (t.ctx ctx).vector u = (s.ctx ctx).vector u) ∧ t.mem = s.mem) ∧
  (∀ (f : Flare) (sender : Word) (p : DWord),
    (f.combine 0 sender p).payload = f.payload ||| p ∧
    (f.combine 1 sender p).payload.toNat = min (2 ^ 64 - 1) (f.payload.toNat + p.toNat) ∧
    (f.combine 2 sender p).payload = p ∧
    ∀ m, (f.combine m sender p).pending = true ∧ (f.combine m sender p).count = min 255 (f.count + 1) ∧
      (f.combine m sender p).mode = m ∧ (f.combine m sender p).sender = sender)

/-- R399, R401, R402, R404, R410: a raise from a sender without permission, or at a context that is not enabled,
changes nothing. The outcome returns to the FLARE.SEND, on the device where that runs; a refused raise through the flare window counts;
enabling a virtual function clears its flare state. R405, R406: at a run boundary of the handler team, outside its
handler, the lowest pending unmasked vector is delivered: it becomes the team's delivery record and is cleared, and
every thread that can leave enters the handler at FLARE_ENTRY, its place kept in FLARE_RPC; a sleep of another thread of
the team ends (R366). -/
def Obligations.RaisesReachContextsAndAreDelivered : Prop :=
  ((∀ (s : State) (ctx v : Nat) (sender : Word) (p : DWord),
     ((256 ≤ ctx ∨ (s.ctx ctx).enabled = false) → raiseFlare s ctx sender v p = (3, s)) ∧
     (ctx < 256 → (s.ctx ctx).enabled = true → raiseMode (s.ctx ctx) sender v = none →
       raiseFlare s ctx sender v p = (2, s)) ∧
     ∀ m, ctx < 256 → (s.ctx ctx).enabled = true → raiseMode (s.ctx ctx) sender v = some m →
       (raiseFlare s ctx sender v p).1 = if ((s.ctx ctx).vector v).pending then 1 else 0) ∧
   (∀ (s : State) (ctx v k l id : Nat) (sender : Word) (p : DWord),
     let r := raiseFlare s ctx sender v p
     exec (.flareRaiseMessage { ctx := ctx, sender := sender, vector := v, payload := p, reply := none }) s = .next r.2 ∧
     exec (.flareRaiseMessage { ctx := ctx, sender := sender, vector := v, payload := p, reply := some (k, l, id) }) s =
       .next (r.2.push (.flareSendOutcome k l id r.1)) ∧
     ∀ d, exec (.flareRaiseMessage
         { ctx := ctx, sender := sender, vector := v, payload := p, reply := some (k, l, id), device := some d }) s =
       .next { r.2 with out := r.2.out ++ [.raiseOutcome d (k, l, id) r.1] }) ∧
   (∀ (s : State) (vf off size : Nat) (val : DWord),
     let r := raiseFlare s vf (BitVec.ofNat 32 (2 ^ 30 + (s.ctx vf).ld % 256)) (off / 8) val
     ((size ≠ 8 ∨ 0x200 ≤ off ∨ off % 8 ≠ 0) → exec (.flareWindowRaise vf off size val) s = .next s) ∧
     (size = 8 → off < 0x200 → off % 8 = 0 → r.1 ≠ 2 → exec (.flareWindowRaise vf off size val) s = .next r.2) ∧
     (size = 8 → off < 0x200 → off % 8 = 0 → r.1 = 2 →
       ∃ t, exec (.flareWindowRaise vf off size val) s = .next t ∧ (t.ctx vf).denied = (s.ctx vf).denied + 1)) ∧
   (∀ (s : State) (vf : Nat),
     (∃ t, exec (.virtualFunctionEnable vf false) s = .next t ∧ t.ctx vf = { s.ctx vf with enabled := false }) ∧
     ∃ t, exec (.virtualFunctionEnable vf true) s = .next t ∧ (t.ctx vf).enabled = true ∧ (t.ctx vf).flareMask = 0 ∧
       (t.ctx vf).flareEntry = 0 ∧ (t.ctx vf).flareTeam = none ∧ ∀ v, (t.ctx vf).vector v = {})) ∧
  (∀ (s : State) (ctx k v : Nat) (tm : Team), aget s.teams k = some tm → tm.kind = .user → tm.ctx = ctx →
     (s.ctx ctx).flareTeam = some k → (s.ctx ctx).flareEntry ≠ 0 → atBoundary s k = true → inHandler tm = false →
     (∀ l ∈ entering tm, (tm.thread l).owesFlare = false) → (s.ctx ctx).vectors.length = 64 →
     lowestFlare (s.ctx ctx) = some v →
     ∃ t, exec (.flareDelivery ctx) s = .next t ∧ (t.team k).flareRec = some (v, (s.ctx ctx).vector v) ∧
       (t.ctx ctx).vector v = {} ∧ (∀ u, u ≠ v → (t.ctx ctx).vector u = (s.ctx ctx).vector u) ∧ t.mem = s.mem ∧
       (∀ l ∈ entering tm,
         ((t.thread k l).pc, (t.thread k l).farPc) = jumpPlace (s.ctx ctx).flareEntry ∧ (t.thread k l).inFlare = true ∧
         (t.thread k l).wait = none ∧ (t.thread k l).flareRpc = flareReturn (tm.thread l) ∧
         (t.thread k l).v = (tm.thread l).v) ∧
       ∀ l, l ∉ entering tm → (t.thread k l).pc = (tm.thread l).pc ∧ (t.thread k l).wait =
         match (tm.thread l).wait with
         | some (.sleep n) => if entering tm = [] then some (.sleep n) else none
         | w => w)

/-- R403, R409 to R412: FLARE.SEND, a side effect of its phase (R392), sends its raises once its release is done, and its outcome is its result, or its
trap when it is synchronous; FLARE.MASK, FLARE.READ and FLARE.ACK answer in lane order; FLARE.RET leaves the handler
for FLARE_RPC. -/
def Obligations.FlareFormsComplete : Prop :=
  (∀ (x : XOps) (s s0 s1 : State) (idx : Nat) (r : Run) (v : Nat → LogRec) (th : Nat → Thread),
    let i : Instr := .flareSend x
    let f := ofX x
    let g := groupOf s idx r f
    let sc := flareScope x s g
    Goes s idx r f (fun st => opChecks st i.shape f) false (regsOf i.shape f false) true → g.release s sc = .ok s0 →
    AllOk g { s0 with serial := s0.serial + 1 } (flareSendLane x sc g.here) v th s1 →
    exec i s = .next (finishNext (sentFlares (if execLanes s r f = [] then s1 else s1.sideEffect r.team) g s0.serial (g.la s0)
      (dstRegs false i.shape.d x.dst)
      ((execLanes s r f).map fun l => (l, v l, th l))) g)) ∧
  (∀ (s : State) (k l id : Nat) (w v : Word) (p : DWord), targetDevice s w = none →
    (sendRaise s k l id w v p).flight = s.flight ++ [.flareRaiseMessage
      { ctx := w.toNat % 256, sender := senderId s (s.team k) false, vector := v.toNat, payload := p
        reply := some (k, l, id) }]) ∧
  (∀ (s t : State) (k l id st : Nat) (o : TOp) (w : Word), opOf (s.thread k l) id = some o → o.what = .flare w →
    (w.getLsbD 31 = true → st = 2 → exec (.flareSendOutcome k l id st) s = .next (doomOp s k l id .flareDenied w.zext)) ∧
    (w.getLsbD 31 = true → st = 3 → exec (.flareSendOutcome k l id st) s = .next (doomOp s k l id .flareTarget w.zext)) ∧
    ((w.getLsbD 31 = false ∨ st ≤ 1) → writeResult s k l id o.dsts [BitVec.ofNat 32 st] = some t →
      exec (.flareSendOutcome k l id st) s = .next t)) ∧
  (∀ x : XOps, Effects (.flareMask x) (ofX x) (fun _ => none) (flareMaskLane x) ∧
    Effects (.flareRead x) (ofX x) (fun _ => none) (flareLookLane x false) ∧
    Effects (.flareAck x) (ofX x) (fun _ => none) (flareLookLane x true)) ∧
  (∀ (x : XOps) (s : State) (L : LCtx) (th th1 : Thread) (m : DWord), L.team.kind = .user →
    srcA L .int .w64 (ofX x) th = .ok (m, th1) →
    let old := (s.ctx L.team.ctx).flareMask
    ∃ t, flareMaskLane x s L th = .ok ([old.lo, old.hi], th1, t) ∧ t.mem = s.mem ∧
      (x.b.bits = 0 → (t.ctx L.team.ctx).flareMask = old ||| m) ∧
      (x.b.bits = 1 → (t.ctx L.team.ctx).flareMask = old &&& ~~~m) ∧
      (x.b.bits = 2 → (t.ctx L.team.ctx).flareMask = m)) ∧
  (∀ (x : XOps) (ack : Bool) (s : State) (L : LCtx) (th th1 : Thread) (a : DWord), L.team.kind = .user →
    srcA L .int .w32 (ofX x) th = .ok (a, th1) → a.lo.toNat < 64 → (s.ctx L.team.ctx).vectors.length = 64 →
    let c := s.ctx L.team.ctx
    let f := c.vector a.lo.toNat
    ∃ t, flareLookLane x ack s L th = .ok (flareQuad a.lo.toNat f, th1, t) ∧
      (ack = false → t = s) ∧
      (ack = true → (t.ctx L.team.ctx).vector a.lo.toNat = {} ∧
        ∀ u, u ≠ a.lo.toNat → (t.ctx L.team.ctx).vector u = c.vector u)) ∧
  (∀ (x : XOps) (s : State) (idx : Nat) (r : Run), Goes s idx r (ofX x) (fun _ => none) false [] false →
    Settled s r (ofX x) → (s.team r.team).kind ≠ .lodestar →
    (∀ l ∈ execLanes s r (ofX x), (laneOf s r l).inFlare = true ∧ (laneOf s r l).inUser = false ∧
      resumeCheck s (s.team r.team) (laneOf s r l).flareRpc = none) →
    let g := groupOf s idx r (ofX x)
    exec (.flareRet x) s = .next (finish ((execLanes s r (ofX x)).foldl
      (fun s l => s.modThread r.team l fun th => { th with inFlare := false }) s) g
      fun l => if (execLanes s r (ofX x)).contains l then (laneOf s r l).flareRpc else g.after))

/-! ### Traps, the user handler and the timers -/

/-- R4, R110, R413, R414: taking a trap parks the thread, and TCAUSE, TVAL and TPC hold its cause, its value and its
place; the thread's registers and memory stay. -/
def Obligations.TakingATrapParksTheThread : Prop :=
  (∀ (s : State) (k l : Nat) (tm : Team) (rc : Recorded), aget s.teams k = some tm → l < tm.threads.length →
    (tm.thread l).recorded = [] →
    let t := s.takeTrap k l rc
    (t.thread k l).status = .parked ∧ (t.thread k l).wait = none ∧ (t.thread k l).monitor = .idle ∧
    (t.thread k l).recorded = [rc] ∧ (t.thread k l).v = (tm.thread l).v ∧ (t.thread k l).p = (tm.thread l).p ∧
    (t.thread k l).pc = (tm.thread l).pc ∧ t.mem = s.mem ∧
    (rc.trap.cause.route ≠ .k → (t.thread k l).tcause = BitVec.ofNat 32 rc.trap.cause.code ∧
      (t.thread k l).tval = rc.trap.tval ∧ (t.thread k l).tpc = rc.trap.tpc) ∧
    (rc.trap.cause.route = .k → (t.thread k l).tcause = (tm.thread l).tcause ∧ (t.thread k l).tval = (tm.thread l).tval ∧
      (t.thread k l).tpc = (tm.thread l).tpc)) ∧
  (∀ (s : State) (k idx : Nat) (tm : Team) (ls : List Nat) (tr : Nat → TrapRec), aget s.teams k = some tm → ls.Nodup →
    (∀ l ∈ ls, l < tm.threads.length ∧ (tm.thread l).recorded = [] ∧ (tm.thread l).NoDoomed ∧
      undecided (tm.thread l) = false ∧ (tm.thread l).replay = [] ∧ (tr l).cause.route ≠ .k) →
    let t := trapLanes s k idx false (ls.map fun l => (l, tr l, .nothing))
    (∀ l ∈ ls, (t.thread k l).status = .parked ∧ (t.thread k l).tcause = BitVec.ofNat 32 (tr l).cause.code ∧
      (t.thread k l).tval = (tr l).tval ∧ (t.thread k l).tpc = (tr l).tpc ∧ (t.thread k l).v = (tm.thread l).v) ∧
    (∀ l, l ∉ ls → (t.thread k l).status = (tm.thread l).status ∧ (t.thread k l).tcause = (tm.thread l).tcause ∧
      (t.thread k l).pc = (tm.thread l).pc ∧ (t.thread k l).v = (tm.thread l).v) ∧
    t.mem = s.mem)

/-- R416, R417: TRAP and BKPT trap their threads with their operand; a parked thread enters the user handler at
TRAPBASE with its registers kept; TRET clears TCAUSE and continues its threads at TPC. -/
def Obligations.SoftwareTrapsAndReturns : Prop :=
  (∀ x : XOps, ReadsThen (.trap x) x noWait (readWord32 x) fun s0 s g vals =>
    finishNext (trapLanes (undoLanes s0 s g (vals.map (·.1))) g.k g.idx g.run.acc
      (vals.map fun p => trapAt g p.1 .softwareTrap p.2.zext)) g) ∧
  (∀ x : XOps, ReadsThen (.bkpt x) x noWait (readWord32 x) fun s0 s g vals =>
    finishNext (trapLanes (undoLanes s0 s g (vals.map (·.1))) g.k g.idx g.run.acc
      (vals.map fun p => trapAt g p.1 .breakpoint p.2.zext)) g) ∧
  (∀ (s : State) (k l : Nat) (tm : Team), aget s.teams k = some tm → tm.kind = .user → tm.trapbase ≠ 0 →
    atBoundary s k = true → (∀ th ∈ tm.threads, th.inUser = false ∧ th.userHeld = false) → l < tm.threads.length →
    firstTrapped tm ((List.range tm.threads.length).filter fun l => wantsHandler (tm.thread l)) = some l →
    ∃ t, exec (.userHandlerEntry k) s = .next t ∧ ((t.thread k l).pc, (t.thread k l).farPc) = jumpPlace tm.trapbase ∧
      (t.thread k l).status = .live ∧ (t.thread k l).inUser = true ∧ (t.thread k l).stamp = s.cycles.toNat ∧
      (t.thread k l).v = (tm.thread l).v ∧ (t.thread k l).tcause = (tm.thread l).tcause ∧ (t.thread k l).tval = (tm.thread l).tval ∧
      (t.thread k l).tpc = (tm.thread l).tpc ∧ t.mem = s.mem ∧ ∀ j, j ≠ l → t.thread k j = tm.thread j) ∧
  (∀ (x : XOps) (s : State) (idx : Nat) (r : Run), Goes s idx r (ofX x) (fun _ => none) false [] false →
    Settled s r (ofX x) →
    (∀ l ∈ execLanes s r (ofX x), (laneOf s r l).inUser = true ∧
      resumeCheck s (s.team r.team) (laneOf s r l).tpc = none) →
    let g := groupOf s idx r (ofX x)
    exec (.tret x) s = .next (finish ((execLanes s r (ofX x)).foldl
      (fun t l => t.modThread r.team l fun th => th.returnFromTrap s.cycles.toNat) s) g
      fun l => if (execLanes s r (ofX x)).contains l then (laneOf s r l).tpc else g.after)) ∧
  (∀ (th : Thread) (now : Nat), (th.returnFromTrap now).tcause = 0 ∧ (th.returnFromTrap now).pc = th.tpc ∧
    (th.returnFromTrap now).status = .live ∧ (th.returnFromTrap now).v = th.v)

/-- R418 to R421: when TEAMTIME overflows every thread that takes part owes TEAM_TIMER, and when CYCLES reaches
DEADLINE it owes DEADLINE, which becomes 0; at the next run boundary a thread takes the trap it owes, DEADLINE first, the
timer's then still owed (the model's reading, log 49). R415: a thread under single step owes SINGLE_STEP with the address of
its next run, which comes after the timers' (the model's choice, log 19). -/
def Obligations.TimersAreOwedAndTaken : Prop :=
  (∀ (s : State) (k : Nat) (tm : Team), aget s.teams k = some tm →
    ∃ t, exec (.teamtimeOverflow k) s = .next t ∧ (t.team k).threads.length = tm.threads.length ∧
      ∀ l < tm.threads.length, t.thread k l =
        if (tm.thread l).status = .live then { tm.thread l with owedTimer := true } else tm.thread l) ∧
  (∀ (s : State) (k : Nat) (tm : Team), aget s.teams k = some tm →
    (tm.deadline = 0 ∨ tm.resident = false ∨ s.cycles.toNat < tm.deadline.toNat →
      exec (.deadlineReached k) s = .next s) ∧
    (tm.deadline ≠ 0 → tm.resident = true → tm.deadline.toNat ≤ s.cycles.toNat →
      ∃ t, exec (.deadlineReached k) s = .next t ∧ (t.team k).deadline = 0 ∧
        ∀ l < tm.threads.length, t.thread k l =
          if (tm.thread l).status = .live then { tm.thread l with owedDeadline := some tm.deadline } else tm.thread l)) ∧
  (∀ (s : State) (k l : Nat) (tm : Team), aget s.teams k = some tm → l < tm.threads.length → atBoundary s k = true →
    ((List.range tm.threads.length).filter fun l =>
      canLeave (tm.thread l) && owesTrap (tm.thread l)) = [l] →
    (tm.thread l).recorded = [] → undecided (tm.thread l) = false →
    ∃ t, exec (.owedTimerTrap k) s = .next t ∧ (t.thread k l).status = .parked ∧
      (t.thread k l).tpc = standsAt (tm.thread l) ∧ (t.thread k l).v = (tm.thread l).v ∧
      (∀ v, (tm.thread l).owedDeadline = some v →
        (t.thread k l).tcause = 15 ∧ (t.thread k l).tval = v ∧ (t.thread k l).owedDeadline = none ∧
        (t.thread k l).owedTimer = (tm.thread l).owedTimer) ∧
      ((tm.thread l).owedDeadline = none → (tm.thread l).owedTimer = false →
        (t.thread k l).tcause = 59 ∧ (t.thread k l).tval = standsAt (tm.thread l) ∧ (t.thread k l).owedStep = false) ∧
      ((tm.thread l).owedDeadline = none → (tm.thread l).owedTimer = true →
        (t.thread k l).tcause = 14 ∧ (t.thread k l).tval = tm.teamtime ∧ (t.thread k l).owedTimer = false))

/-! ### The supervisor team, its mailbox and the context switch -/

/-- R98, R422 to R426: a waiting event enters the mailbox with a ticket, the lowest index that no entry has (the model's
choice, log 54), once there is room; SVC posts its calls and
waits; MBOX.TAKE stores the oldest untaken entry and writes its ticket; MBOX.PUT disposes of an entry: a resolved trap
replays its thread, an answered call gives its quad once for each request ID, all ones first for a number that names no
service. -/
def Obligations.MailboxFormsComplete : Prop :=
  (∀ (s : State) (core : Nat) (e : MboxEntry) (rest : List MboxEntry), (s.core core).mailboxWait = e :: rest →
    (freeTicket (s.core core) = none → exec (.mailboxPost core) s = .next (s.push (.mailboxPost core))) ∧
    ∀ i, freeTicket (s.core core) = some i →
      let tk := (s.core core).mailboxSeq % 2 ^ 26 * 64 + i
      ∃ t, exec (.mailboxPost core) s = .next t ∧ (t.core core).mailboxWait = rest ∧
        (t.core core).mailbox =
          (s.core core).mailbox ++ [{ e with ticket := tk, words := BitVec.ofNat 32 tk :: e.words.tail }] ∧
        ∀ k l tm d, e.src = .svc k l → aget s.teams k = some tm → l < tm.threads.length →
          (tm.thread l).wait = some (.svc d none) → (t.thread k l).wait = some (.svc d (some tk))) ∧
  (∀ x : XOps, ReadsThen (.svc x) x Grp.await (svcLane x) fun _ s g vals =>
    startWaits (postCalls s g vals (s.team g.k)) g fun l =>
      if vals.any fun p => p.1 == l then some (.svc x.dst.toNat none) else none) ∧
  (∀ (s : State) (k l d : Nat) (tm : Team) (e : MboxEntry), aget s.teams k = some tm → l < tm.threads.length →
    (tm.thread l).wait = some (.svc d none) → (tm.thread l).recorded = [] → (tm.thread l).NoDoomed →
    (s.cycles.toNat < (tm.thread l).stamp + 2 ^ 20 →
      exec (.mailboxFullTimeout k l) s = .next (s.push (.mailboxFullTimeout k l))) ∧
    ((tm.thread l).stamp + 2 ^ 20 ≤ s.cycles.toNat →
      (s.core (s.mailCore tm)).mailboxWait.find? (fun e => e.src == .svc k l) = some e →
      ∃ t, exec (.mailboxFullTimeout k l) s = .next t ∧ (t.thread k l).status = .parked ∧ (t.thread k l).tcause = 55 ∧
        (t.thread k l).tval = (getAt 0 e.words 10).zext ∧ (t.thread k l).tpc = (tm.thread l).waitPc ∧
        ∀ e' ∈ (t.core (s.mailCore tm)).mailboxWait, e'.src ≠ .svc k l)) ∧
  (∀ (s : State) (core k l d : Nat) (o : Option Nat) (tm : Team), aget s.teams k = some tm → l < tm.threads.length →
    s.mailCore tm = core → (tm.thread l).wait = some (.svc d o) →
    ∃ t, exec (.supervisorFirmwareRestart core) s = .next t ∧ t.mem = s.mem ∧ (t.thread k l).wait = none ∧
      (t.thread k l).pc = (tm.thread l).waitPc ∧ (t.thread k l).farPc = none ∧ (t.thread k l).v = (tm.thread l).v ∧
      ((tm.thread l).backq = none → (t.thread k l).inq = (tm.thread l).inq) ∧
      ∀ back, (tm.thread l).backq = some ((tm.thread l).waitPc, back) → ∀ q < (tm.thread l).inq.length,
        getAt [] (t.thread k l).inq q = getAt [] back q ++ getAt [] (tm.thread l).inq q) ∧
  (∀ (x : XOps) (s : State) (idx : Nat) (r : Run) (m : Nat) (ms : List Nat) (a : DWord) (th : Thread),
    let f := ofX x
    let sh := Instr.shape (.mboxTake x)
    let g := groupOf s idx r f
    Goes s idx r f (fun st => opChecks st sh f) false (srcRegs sh.a f.a ++ dstRegs false sh.d f.dst) false → Settled s r f →
    execLanes s r f = m :: ms → srcA (g.lctx s m) .int .w64 f (g.thread s m) = .ok (a, th) → a.toNat % 64 = 0 →
    let s1 := setThreads s r.team r.acc
      (notedLanes s r (m :: ms) fun l => if l = m then th else laneOf s r l)
    exec (.mboxTake x) s = .next (startWaits { s1 with serial := s.serial + 1 } g fun _ =>
      some (.mbox s.serial x.dst.toNat a))) ∧
  (∀ (s s1 : State) (k l id dst : Nat) (a : DWord) (tm : Team) (e : MboxEntry) (bs : List Byte) (stale : Bool),
    aget s.teams k = some tm → l < tm.threads.length → untaken (s.core tm.core) = some e →
    (tm.thread l).wait = some (.mbox id dst a) →
    writeVirtual k tm (some tm.agent) (chunks 3 a.toNat 64) (bytesOfWords e.words) s = .ok bs stale s1 →
    s1.teams = s.teams → s1.cores = s.cores →
    let t := wakeMbox s k id dst a
    t.mem = s1.mem ∧ t.thread k l = { (tm.thread l).setV dst (BitVec.ofNat 32 e.ticket) with wait := none } ∧
      (t.core tm.core).mailbox =
        (s.core tm.core).mailbox.map fun x => if x.ticket = e.ticket then { x with taken := true } else x) ∧
  (∀ x : XOps, Effects (.mboxPut x) (ofX x) (fun _ => none) (mboxPutLane x)) ∧
  (∀ (s : State) (sup core ticket disp : Nat) (quad : List Word),
    ((∀ e ∈ (s.core core).mailbox, e.ticket ≠ ticket) → dispose s sup core ticket disp quad = (1, s)) ∧
    ∀ e, (s.core core).mailbox.find? (fun e => e.ticket == ticket) = some e → e.src = .notice →
      (dispose s sup core ticket 0 quad = (0, dropEntry s core ticket) ∧
        ∀ d, d ≠ 0 → dispose s sup core ticket d quad = (2, s))) ∧
  (∀ (s : State) (sup core ticket k l d : Nat) (tm : Team) (quad : List Word) (e : MboxEntry),
    (s.core core).mailbox.find? (fun e => e.ticket == ticket) = some e → e.src = .svc k l → aget s.teams k = some tm →
    l < tm.threads.length → (tm.thread l).wait = some (.svc d (some ticket)) →
    let rq := DWord.ofPair (getAt 0 e.words 9) (getAt 0 e.words 8)
    let no := (getAt 0 e.words 10).toNat
    let res := if 7 ≤ no then [BitVec.allOnes 32] ++ quad.drop 1 else quad
    let r := dispose s sup core ticket 0 quad
    (∀ old, (s.ctx tm.ctx).outcomes.find? (fun p => p.1 == rq) = some (rq, old) →
      r.1 = 0 ∧ r.2.thread k l = { (tm.thread l).setVs d (old.take 4) with wait := none } ∧ r.2.mem = s.mem) ∧
    ((s.ctx tm.ctx).outcomes.find? (fun p => p.1 == rq) = none → no ∉ [1, 2, 5, 6] →
      r.1 = 0 ∧ r.2.thread k l = { (tm.thread l).setVs d (res.take 4) with wait := none } ∧
        (rq, res) ∈ (r.2.ctx tm.ctx).outcomes)) ∧
  (∀ (s : State) (sup core ticket k l : Nat) (tm : Team) (quad : List Word) (e : MboxEntry) (rc : Recorded) (lr : LogRec),
    (s.core core).mailbox.find? (fun e => e.ticket == ticket) = some e → e.src = .threads k → aget s.teams k = some tm →
    tm.kind = .user → l < tm.threads.length → lanesOf (getAt 0 e.words 6) = [l] → (tm.thread l).status = .parked →
    (tm.thread l).recorded = [rc] → (tm.thread l).replay = [] → rc.solved = false → rc.passed = false →
    rc.trap.cause.route = .s → rc.log = some lr → (getAt 0 e.words 1).toNat % 256 = rc.trap.cause.code →
    DWord.ofPair (getAt 0 e.words 3) (getAt 0 e.words 2) = rc.trap.tval →
    DWord.ofPair (getAt 0 e.words 5) (getAt 0 e.words 4) = rc.trap.tpc →
    let r := dispose s sup core ticket 0 quad
    r.1 = 0 ∧ (r.2.thread k l).status = .live ∧ (r.2.thread k l).recorded = [] ∧ (r.2.thread k l).replay = [lr] ∧
      (r.2.thread k l).pc = lr.at_ ∧ (r.2.thread k l).replayResume = rc.resume ∧ (r.2.thread k l).v = (tm.thread l).v)

/-- R348, R415, R426: a machine check is counted and kills its context, whose launches end KILLED; HALT waits until
the core is woken, which a page request's answer does. R427, R428: CTX.SAVE stops the teams of the contexts it names,
and saves them once they have stopped: a saved team leaves its slot, and its threads stand at their waiting
instructions with their monitors idle. CTX.LOAD of an area without a saved image answers 1, or binds a record that an
image without teams names unless it is refused (the layout of images is free, log 19 and log 22; the order of the statuses and what
an answer to a page request does are the model's readings, logs 63 and 56). -/
def Obligations.ContextsAreKilledSavedAndLoaded : Prop :=
  ((∀ (s : State) (ctx : Nat) (code : DWord), (s.ctx ctx).captured = none →
     ∃ t, exec (.machineCheck ctx code) s = .next t ∧
       t.dev.counters.uncorrectable = s.dev.counters.uncorrectable + 1 ∧ t.mem = s.mem ∧
       ∀ l v, aget s.launches l = some v → v.ctx = ctx → v.stage ≠ .ending → v.stage ≠ .ended →
         aget t.launches l = some { v with stage := .ending, code := 4, cause := 0, tpc := 0, tval := 0 } ∧
         Ev.launchEnd l ∈ t.flight) ∧
   (∀ (x : XOps) (s : State) (idx : Nat) (r : Run), Goes s idx r (ofX x) (fun _ => none) false [] false →
     Settled s r (ofX x) →
     exec (.halt x) s = .next (startWaits s (groupOf s idx r (ofX x)) fun _ => some .halted)) ∧
   (∀ (s : State) (core ticket k l : Nat) (ok : Bool) (tm : Team), aget s.teams k = some tm → l < tm.threads.length →
     ∃ t, exec (.pageRequestResponse core ticket ok) s = .next t ∧
       (t.core core).pageAnswers = (s.core core).pageAnswers ++ [(ticket, ok)] ∧
       (tm.kind = .supervisor → tm.core = core → (tm.thread l).wait = some .halted →
         t.thread k l = { tm.thread l with wait := none }) ∧
       ((tm.kind ≠ .supervisor ∨ tm.core ≠ core ∨ (tm.thread l).wait ≠ some .halted) → t.thread k l = tm.thread l))) ∧
  ((∀ (x : XOps) (s s1 : State) (idx : Nat) (r : Run) (th : Nat → Thread),
     let i : Instr := .ctxSave x
     let f := ofX x
     let g := groupOf s idx r f
     let core := (s.team r.team).core
     let cs := ctxsNamed x s g
     Goes s idx r f (fun st => opChecks st i.shape f) false (regsOf i.shape f false) false →
     ((∃ c ∈ cs, c ∉ (s.core core).saving) → exec i s = .next (s.modCore core fun v => { v with saving := cs })) ∧
     ((∀ c ∈ cs, c ∈ (s.core core).saving) → (∃ c ∈ cs, ∃ k ∈ ctxTeams s core c, teamStopped s k = false) →
       exec i s = .next s) ∧
     ((∀ c ∈ cs, c ∈ (s.core core).saving) → (∀ c ∈ cs, ∀ k ∈ ctxTeams s core c, teamStopped s k = true) →
       AllOk g s (effectLane i.shape.d x.dst (ctxSaveLane x)) (fun _ => ()) th s1 →
       let t := pairEvents (finishNext (setThreads s1 r.team r.acc ((execLanes s r f).map fun l => (l, th l))) g)
         r.team i.shape.d x.dst (execLanes s r f)
       t.runs ≠ s.runs → exec i s = .next (t.modCore core fun v => { v with saving := [] }))) ∧
   (∀ (s : State) (sup : Team) (k c : Nat) (a len : DWord),
     ((256 ≤ c ∨ a.toNat % 4096 ≠ 0) → ctxSaveOne s sup k c a len = .ok (3, s)) ∧
     (c < 256 → a.toNat % 4096 = 0 → ctxTeams s sup.core c = [] → ctxSaveOne s sup k c a len = .ok (1, s)) ∧
     ((256 ≤ c ∨ a.toNat % 4096 ≠ 0) → ctxLoadOne s sup c a len = .ok (1, s)) ∧
     (c < 256 → a.toNat % 4096 = 0 → ∀ p s0, areaPages sup .load 1 a s = .ok (p, s0) → (s0.ctx c).saved = [] →
       (len.toNat < 4096 → ctxLoadOne s sup c a len = .ok (1, s0)) ∧
       (4096 ≤ len.toNat → ∃ w t, ctxLoadOne s sup c a len = .ok (w, t) ∧ (w ≠ 0 → t = s0) ∧
         (w = 0 → ∃ ra, xrecRefused s0 ((s0.ctx c).part.getD 0) ra = false ∧
           t = s0.modCtx c fun v =>
             { v with
               recAddr := some ra, xrec := some (readXrec s0 ra)
               debug := aset v.debug sup.core (bareDebug (leNat (pageBytes s0 (p.head?.getD 0)))) })))) ∧
   (∀ (s : State) (core k l : Nat) (tm : Team), aget s.teams k = some tm → l < tm.threads.length →
     let t := saveTeam s core k
     (t.team k).resident = false ∧ (t.team k).slot = tm.slot ∧ (t.thread k l).monitor = .idle ∧
     (t.thread k l).v = (tm.thread l).v ∧ t.mem = s.mem ∧
     ((tm.thread l).wait = some .monitor → (t.thread k l).wait = none ∧ (t.thread k l).pc = (tm.thread l).waitPc) ∧
     ((tm.thread l).wait = none → (t.thread k l).pc = (tm.thread l).pc)) ∧
   (∀ x : XOps, Effects (.ctxLoad x) (ofX x) (fun _ => none) (ctxLoadLane x)))

/-- R245, R359: a pipe that has a run in progress selects nothing; a free pipe starts a run for the ready threads of
the group that the keys put first: the supervisor team and higher PRIO, then the older stamp, the lower address and
the lower slot. -/
def Obligations.PipesSelectByTheKeys : Prop :=
  (∀ (s : State) (core pipe : Nat), pipeBusy s core pipe = true → exec (.runSelection core pipe) s = .next s) ∧
  (∀ (s : State) (core pipe : Nat), pipeBusy s core pipe = false → pipe < 4 →
    let s2 := visited s core pipe
    (pipeGroups s2 core pipe = [] → exec (.runSelection core pipe) s = .next s2) ∧
    ∀ g, selectGroup (pipeGroups s2 core pipe) = some g →
      ∃ t r, exec (.runSelection core pipe) s = .next t ∧ t.runs = s2.runs ++ [r] ∧ r.team = g.team ∧ r.acc = false ∧
        r.lanes = g.lanes ∧ r.hdrAddr = g.at_.hdr ∧ r.off = g.at_.off ∧ r.core = core ∧ r.pipe = pipe ∧ t.mem = s2.mem) ∧
  (∀ (gs : List PcGroup) (g : PcGroup), selectGroup gs = some g → g ∈ gs ∧ ∀ h ∈ gs,
    h.prio ≤ g.prio ∧ (h.prio = g.prio → g.stamp ≤ h.stamp ∧ (h.stamp = g.stamp → g.at_.addr ≤ h.at_.addr ∧
      (h.at_.addr = g.at_.addr → g.slot ≤ h.slot)))) ∧
  (∀ gs : List PcGroup, selectGroup gs = none ↔ gs = [])

/-! ### Token coherence, update-only mode and the other agents of memory -/

/-- R123, R125, R127, R128: a read miss is answered by the home with one token and the data, or by the owner; a write
miss collects the home's tokens and sends an invalidation to every other agent that the directory names, which answers with
all it holds, a proxy with all that its die holds; tokens that arrive join the holding of their agent, and an eviction gives
a holding back, to the home or to the writer that is collecting. With the owner token goes the dirty state of the home's copy.
R101: a translation agent gives up its last token of a line only once nothing that went through the line is under way, and
drops its entries with it. R129: a request that is not met 2,048 cycles after its issue is issued again, and made persistent
after its third failure; the home activates the oldest persistent
request, for which it and every agent give up their tokens, and the next one when the requester has made its access. -/
def Obligations.TokensMoveAndFailedRequestsPersist : Prop :=
  ((∀ (s : State) (a : AgentId) (line : Nat), s.holdsLine a line = false → claimedByOther (s.entry line) a = false →
     let s1 := ((openLine s line).homeFill .coh line none 0 false).awayFill a.die .coh line none 0
     let last := (homeTokens s1 line).2 && (homeTokens s1 line).1 == 1
     (0 < (homeTokens s1 line).1 →
       ∃ t, exec (.readMiss a line) s = .next t ∧ t.mem = s1.mem ∧ t.hold = s1.hold ∧
         (last = true → ∀ x ∈ t.l2, x.line = line → x.own = true → x.dirty = false) ∧
         Ev.tokenDataResponse a line { tokens := 1, owner := last
                                       dirty := last && s1.l2.any fun x => x.line == line && x.own && x.dirty } ∈ t.flight) ∧
     ((homeTokens s1 line).1 = 0 → ∀ h, s1.hold.find? (fun h => h.line == line && h.owner) = some h → h.agent ≠ a →
       ∃ t, exec (.readMiss a line) s = .next t ∧ t.mem = s1.mem ∧ Ev.forwardedRequest h.agent a line ∈ t.flight)) ∧
   (∀ (s : State) (o r : AgentId) (line : Nat) (h : Holding), s.hold.filter (fun h => h.line == line && h.agent == o) = [h] →
     h.owner = true → claimedByOther (s.entry line) r = false →
     (h.tokens ≤ 1 → releaseBusy s line [h] = true →
       exec (.forwardedRequest o r line) s = .next (s.push (.forwardedRequest o r line))) ∧
     (1 < h.tokens → ∃ t, exec (.forwardedRequest o r line) s = .next t ∧ t.mem = s.mem ∧
       holdingOf t o line = some { h with tokens := h.tokens - 1 } ∧
       Ev.tokenDataResponse r line { tokens := 1, owner := false, dirty := false } ∈ t.flight) ∧
     (h.tokens = 1 → releaseBusy s line [h] = false →
       ∃ t, exec (.forwardedRequest o r line) s = .next t ∧ t.mem = s.mem ∧ holdingOf t o line = none ∧
         (o.id = 177 → ∀ e ∈ t.tlb, e.die = o.die → line ∉ e.lines) ∧
         Ev.tokenDataResponse r line { tokens := 1, owner := true, dirty := h.dirty } ∈ t.flight)) ∧
   (∀ (s : State) (a : AgentId) (line : Nat), claimedByOther (s.entry line) a = false →
     ((s.entry line).collecting = none ∨ (s.entry line).collecting = some a) →
     let s1 := (openLine s line).homeFill .coh line none 0 false
     ∃ t, exec (.writeMiss a line) s = .next t ∧ t.mem = s1.mem ∧ (t.entry line).collecting = some a ∧
       (0 < (homeTokens s1 line).1 → Ev.tokenDataResponse a line
         { tokens := (homeTokens s1 line).1, owner := (homeTokens s1 line).2
           dirty := (homeTokens s1 line).2 && s1.l2.any fun x => x.line == line && x.own && x.dirty } ∈ t.flight) ∧
       ∀ id, id < 180 ∨ (181 ≤ id ∧ id < 184) → dirNames (s1.entry line) id = true → (id ≠ dirId line a ∨ 177 ≤ id) →
         Ev.invalidation { die := homeDie line, id := id } a line ∈ t.flight) ∧
   (∀ (s : State) (a r : AgentId) (line : Nat),
     releaseBusy s line (s.hold.filter fun h => h.line == line && h.agent != r && answersFor a h.agent) = true →
     exec (.invalidation a r line) s = .next (s.push (.invalidation a r line))) ∧
   (∀ (s : State) (a r : AgentId) (line : Nat) (h : Holding), a.id < 177 → a ≠ r → 0 < h.tokens →
     claimedByOther (s.entry line) r = false → s.hold.filter (fun h => h.line == line && h.agent == a) = [h] →
     ∃ t, exec (.invalidation a r line) s = .next t ∧ holdingOf t a line = none ∧ t.mem = s.mem ∧
       Ev.tokenDataResponse r line { tokens := h.tokens, owner := h.owner, dirty := h.dirty } ∈ t.flight) ∧
   (∀ (s : State) (a r : AgentId) (line : Nat), 181 ≤ a.id → a.id < 184 → claimedByOther (s.entry line) r = false →
     let far := fun (h : Holding) => h.line == line && h.agent != r && h.agent.die == (a.die + (a.id - 180)) % 4
     releaseBusy s line (s.hold.filter far) = false →
     ∃ t, exec (.invalidation a r line) s = .next t ∧ t.mem = s.mem ∧ t.hold = s.hold.filter (fun h => !far h) ∧
       (0 < (tokensOf (s.hold.filter far)).tokens → Ev.tokenDataResponse r line (tokensOf (s.hold.filter far)) ∈ t.flight)) ∧
   (∀ (s : State) (a : AgentId) (line : Nat) (m : TokenMsg), claimedByOther (s.entry line) a = false → 0 < m.tokens →
     s.roomFor a line = s → m.tokens ≤ (homeTokens s line).1 → (m.owner = true → (homeTokens s line).2 = true) →
     ∃ t h, exec (.tokenDataResponse a line m) s = .next t ∧ t.mem = s.mem ∧ holdingOf t a line = some h ∧
       h.tokens = ((holdingOf s a line).map (·.tokens)).getD 0 + m.tokens ∧
       (h.tokens = Config.lineTokens → (t.entry line).collecting = none ∧ askOf (t.entry line) a = none) ∧
       h.owner = (((holdingOf s a line).map (·.owner)).getD false || m.owner)) ∧
   (∀ (s : State) (a : AgentId) (line : Nat) (m : TokenMsg) (h : Holding), holdingOf s a line = some h →
     h.tokens ≤ m.tokens →
     (releaseBusy s line [h] = true → exec (.evictionNotice a line m) s = .next (s.push (.evictionNotice a line m))) ∧
     (releaseBusy s line [h] = false →
       ∃ t, exec (.evictionNotice a line m) s = .next t ∧ holdingOf t a line = none ∧ (s.ucopies = [] → t.mem = s.mem) ∧
       (a.id = 177 → ∀ e ∈ t.tlb, e.die = a.die → line ∉ e.lines) ∧
       ∀ b, (s.entry line).collecting = some b → 0 < h.tokens →
         Ev.tokenDataResponse b line { tokens := h.tokens, owner := h.owner, dirty := h.dirty } ∈ t.flight))) ∧
  ((∀ (s : State) (a : AgentId) (line : Nat) (q : Ask),
     (askOf (s.entry line) a = none → exec (.requestFailure a line) s = .next s) ∧
     (askOf (s.entry line) a = some q →
       (q.met s line = true → ∃ t, exec (.requestFailure a line) s = .next t ∧ t.hold = s.hold ∧ t.flight = s.flight ∧
         askOf (t.entry line) a = none ∧ ∀ b, b ≠ a → askOf (t.entry line) b = askOf (s.entry line) b) ∧
       (q.met s line = false → s.cycles.toNat < q.at_ + 2048 →
         exec (.requestFailure a line) s = .next (s.push (.requestFailure a line))) ∧
       (q.met s line = false → q.at_ + 2048 ≤ s.cycles.toNat → ∃ t, exec (.requestFailure a line) s = .next t ∧
         t.hold = s.hold ∧ askOf (t.entry line) a = some { q with at_ := s.cycles.toNat, fails := q.fails + 1 } ∧
         (∀ b, b ≠ a → askOf (t.entry line) b = askOf (s.entry line) b) ∧
         (2 ≤ q.fails → Ev.persistentRequest a line ∈ t.flight) ∧
         (q.fails < 2 → q.write = true → Ev.writeMiss a line ∈ t.flight) ∧
         (q.fails < 2 → q.write = false → Ev.readMiss a line ∈ t.flight)))) ∧
   (∀ (s : State) (a : AgentId) (line : Nat), a ∉ (s.entry line).persistent →
     let used := s.dir.foldl (fun n p => if homeSlice p.1 = homeSlice line then n + p.2.persistent.length else n) 0
     (8 ≤ used → exec (.persistentRequest a line) s = .next (s.push (.persistentRequest a line))) ∧
     (used < 8 → ∃ t, exec (.persistentRequest a line) s = .next t ∧
       (t.entry line).persistent = (s.entry line).persistent ++ [a] ∧
       ((s.entry line).active = false → Ev.persistentActivation line ∈ t.flight))) ∧
   (∀ (s : State) (p : AgentId) (ps : List AgentId) (line : Nat), (s.entry line).persistent = p :: ps →
     (s.entry line).active = false →
     releaseBusy s line (s.hold.filter fun h => h.line == line && h.agent != p) = false →
     let s1 := openLine s line
     ∃ t, exec (.persistentActivation line) s = .next t ∧ t.mem = s1.mem ∧ (t.entry line).active = true ∧
       (t.entry line).collecting = some p ∧ Ev.persistentDeactivation line ∈ t.flight ∧ (∀ h ∈ t.hold, h.line = line → h.agent = p) ∧
       (0 < (homeTokens s1 line).1 → Ev.tokenDataResponse p line
         { tokens := (homeTokens s1 line).1, owner := (homeTokens s1 line).2
           dirty := (homeTokens s1 line).2 && s1.l2.any fun x => x.line == line && x.own && x.dirty } ∈ t.flight) ∧
       ∀ h ∈ s1.hold, h.line = line → h.agent ≠ p → 0 < h.tokens →
         Ev.tokenDataResponse p line { tokens := h.tokens, owner := h.owner, dirty := h.dirty } ∈ t.flight) ∧
   (∀ (s : State) (p : AgentId) (ps : List AgentId) (line : Nat), (s.entry line).active = true →
     (s.entry line).persistent = p :: ps →
     ((s.entry line).served = false → agentBusy s p = true →
       exec (.persistentDeactivation line) s = .next (s.push (.persistentDeactivation line))) ∧
     ((s.entry line).served = true ∨ agentBusy s p = false →
       ∃ t, exec (.persistentDeactivation line) s = .next t ∧ t.mem = s.mem ∧ (t.entry line).active = false ∧
         (t.entry line).persistent = ps ∧ askOf (t.entry line) p = none ∧ (ps ≠ [] → Ev.persistentActivation line ∈ t.flight))))

/-- R90, R96, R103, R130, R131, R161: an update-only grant gives its agent a U copy of the operation and collects the
line's tokens; the end of update-only mode combines every copy (in the order of the grants, the model's choice, log 14); the oldest marker on a path arrives; a page table walk
fills the translation caches; a host snoop drops the translations and the copies of its line. R119 to R122: where the
home slice takes a line in from DRAM it holds the line afterwards, no thread or token changes, and a full set keeps to
its twelve ways for lines of the die; a line whose tag fails is marked for integrity, one with an uncorrectable error for
poison, a corrected error is counted, and a line written under another key than its granule has now fails its tag. -/
def Obligations.UpdateOnlyModeAndMemoryAgents : Prop :=
  (∀ (s : State) (a : AgentId) (line : Nat) (op : AtomOp) (ty : Ty), uEligible op ty = true → watched s line = false →
    (s.entry line).active = false → (s.entry line).collecting = none → (carried s line).1 = 0 →
    releaseBusy s line (s.hold.filter fun h => h.line == line) = false →
    (∀ sets ways, cacheShape a = some (sets, ways) → (s.inSet a sets line).length < ways) →
    ∃ t, exec (.updateOnlyGrant a line op ty) s = .next t ∧ (t.entry line).umode = some (op, ty) ∧
      (t.uCopyFor a line op ty).isSome = true ∧ (∀ h ∈ t.hold, h.line ≠ line)) ∧
  (∀ (s : State) (line : Nat),
    ∃ t, exec (.updateOnlyEnd line) s = .next t ∧ (t.entry line).umode = none ∧ (∀ u ∈ t.ucopies, u.line ≠ line) ∧
      t.mem = (s.ucopies.filter fun u => u.line == line).foldl combineU s.mem) ∧
  (∀ (s : State) (src dst path : Nat), dst < 4 →
    exec (.flushMarker src dst path) s = .next { s with markers := dropMarker src dst path s.markers }) ∧
  (∀ (s t : State) (die ctx : Nat) (va : DWord),
    (∀ x, s.xlate die [.last] true (s.ctx ctx).xrec true .range va = .ok (x, t) →
      exec (.pageTableWalk die ctx va) s = .next t) ∧
    (∀ e, s.xlate die [.last] true (s.ctx ctx).xrec true .range va = .error e →
      exec (.pageTableWalk die ctx va) s = .next s)) ∧
  (∀ (s : State) (line : Nat),
    (derivesFrom s none [line] = true → exec (.hostSnoop line) s = .next (s.push (.hostSnoop line))) ∧
    (derivesFrom s none [line] = false →
      ∃ t, exec (.hostSnoop line) s = .next t ∧ (∀ e ∈ t.tlb, line ∉ e.lines) ∧ (∀ h ∈ t.hold, h.line ≠ line) ∧
        (∀ u ∈ t.ucopies, u.line ≠ line) ∧ ∀ x ∈ t.l2, x.line ≠ line)) ∧
  (∀ (s : State) (mode : PageMode) (line : Nat) (va : Option DWord) (wish : Nat) (full : Bool), l2Holds mode line = true →
    0 < (homeTokens s line).1 → (∀ x ∈ s.l2, x.line = line → x.own = false) →
    let t := s.homeFill mode line va wish full
    (s.ucopies = [] → t.mem = s.mem) ∧ t.hold = s.hold ∧ t.teams = s.teams ∧ (∃ x ∈ t.l2, x.line = line ∧ x.die = homeDie line) ∧
    (((s.l2Set (homeDie line) line).filter L2Line.own).length ≤ 12 →
      ((t.l2Set (homeDie line) line).filter L2Line.own).length ≤ 12) ∧
    (full = false → regionOf (line * 128) = some .dram →
      (s.dramCheck line = some .tag → line ∈ t.integrity) ∧ (s.dramCheck line = some .uncorrectable → line ∈ t.poison) ∧
      (s.dramCheck line = none → (line ∈ t.poison ↔ line ∈ s.poison) ∧ (line ∈ t.integrity ↔ line ∈ s.integrity)) ∧
      (s.dramCheck line = some .corrected → s.ucopies = [] → (line ∈ t.poison ↔ line ∈ s.poison) ∧
        getAt 0 t.dev.counters.soft 0 = getAt 0 (setAt s.dev.counters.soft 0 (getAt 0 s.dev.counters.soft 0 + 1)) 0))) ∧
  (∀ (s : State) (line : Nat), s.sealKey line ≠ s.heldKey line → s.dramCheck line = some .tag)

/-! ### The host's commands and windows -/

/-- R349, R399, R431 to R435, R438, R440, R454, R455: nothing happens before the device has started, and minimal mode
refuses all but CMD 6 and CMD 7; a command answers with status 0 and its effect, with status 1 where it is refused,
and an unknown one with status 2; the Lodestar units and the lock table of a partition do not change while it stands
(R376; that a command to change them is refused is the model's choice, log 20, as are the refusal of the device's own granule, log 126,
the writes that SQBASE takes, log 62, the length of CMD 8's answer, log 66, and what else CMD 4 refuses, log 68). SQBASE takes a page address while the queue is off. R15 to R17, R430, R432, R433,
R437, R438: links train and fail; each direction of a Meridian port counts its groups and changes its key at a group boundary,
and a discarded group comes again (that an access takes one flit of a checked group is the model's choice, log 124); an access from
outside reaches memory only inside its partition's granules and, of a
confidential partition, only for a trusted access of a running function. R120: a granule that a command gives to a
partition reads zero, and under the new key. -/
def Obligations.HostCommandsLinksAndOutsideAccesses : Prop :=
  ((∀ (s : State) (a : AssignCmd) (q : QpCmd) (vf p ld n head : Nat) (lds : List Nat), s.dev.started = false →
     exec (.cmdAssignPartition a) s = .next s ∧ exec (.cmdBindFunction vf p ld) s = .next s ∧
     exec (.cmdSetMeridianNumber n) s = .next s ∧ exec (.cmdQueuePair q) s = .next s ∧ exec (.cmdAdopt lds head) s = .next s ∧
     exec .cmdReadCounters s = .next s ∧ exec .cmdReadHandover s = .next s) ∧
   (∀ (s : State) (a : AssignCmd) (vf p ld n : Nat), s.dev.started = true → s.dev.minimal = true →
     exec (.cmdAssignPartition a) s = .next (answerCmd s 1 1 0 []) ∧
     exec (.cmdBindFunction vf p ld) s = .next (answerCmd s 2 1 0 []) ∧
     exec (.cmdSetMeridianNumber n) s = .next (answerCmd s 3 1 0 []) ∧
     exec .cmdReadHandover s = .next (answerCmd s 8 1 0 [])) ∧
   (∀ (s : State) (code : DWord), s.dev.started = true →
     exec (.cmdUnknown code) s = .next (answerCmd s code.toNat 2 0 [])) ∧
   (∀ (s : State) (vf : Nat) (v : DWord), vf < 256 → s.dev.started = true → s.dev.minimal = false →
     ∃ t, exec (.registerWrite vf 0 8 v) s = .next t ∧
       (t.ctx vf = if (s.ctx vf).sqEnable then s.ctx vf else { s.ctx vf with sqbase := v / 4096 * 4096 }) ∧
       ((s.ctx vf).sqEnable = false → barWord t vf 0 = (v / 4096 * 4096).lo ∧ barWord t vf 4 = (v / 4096 * 4096).hi) ∧
       barWord t vf 0x600 = (s.ctx vf).denied ∧ barWord t vf 20 = (s.ctx vf).sqhead ∧
       ∀ off, 0x400 ≤ off → off < 0x800 → off ≠ 0x600 → barWord t vf off = 0) ∧
   (∀ (s : State), s.dev.started = true → s.dev.minimal = false →
     (∀ (vf part ld : Nat), (s.ctx vf).tdi ≠ .locked → (s.ctx vf).tdi ≠ .run → vf < 256 → ld < 16 →
       (part = 31 ∨ (aget s.parts part).isSome = true) →
       (part = 31 ∨ (s.part part).conf = false ∨ ∀ x, (s.ctx vf).xrec = some x → x.hosttab = false) →
       ∃ t, exec (.cmdBindFunction vf part ld) s = .next t ∧ (t.ctx vf).part = (if part = 31 then none else some part) ∧
         (t.ctx vf).ld = ld ∧ (t.ctx vf).flareMask = 0 ∧ (∀ v, (t.ctx vf).vector v = {}) ∧ t.dev.mgmt.status = 0) ∧
     (∀ (vf part ld : Nat), (s.ctx vf).tdi = .run →
       exec (.cmdBindFunction vf part ld) s = .next (answerCmd s 2 1 62 [])) ∧
     (∀ (vf part ld : Nat) (x : Xrec), part ≠ 31 → (s.part part).conf = true → (s.ctx vf).xrec = some x → x.hosttab = true →
       exec (.cmdBindFunction vf part ld) s = .next (answerCmd s 2 1 62 [])) ∧
     (∀ n, n < 320 → ∃ t, exec (.cmdSetMeridianNumber n) s = .next t ∧ t.mnum = BitVec.ofNat 32 n ∧ t.dev.mgmt.status = 0) ∧
     (∀ n, 320 ≤ n → exec (.cmdSetMeridianNumber n) s = .next (answerCmd s 3 1 0 [])) ∧
     (∀ (lds : List Nat) (head : Nat), head ∈ s.heads → (∀ l ∈ lds, l < 16 ∧ (getAt {} s.dev.lds l).orphaned = true) →
       ∃ t, exec (.cmdAdopt lds head) s = .next t ∧ t.dev.mgmt.status = 0 ∧
         ∀ l ∈ lds, l < s.dev.lds.length → getAt {} t.dev.lds l = { head := head, orphaned := false }) ∧
     (∃ t, exec .cmdReadHandover s = .next t ∧ t.held = [] ∧ t.dev.mgmt.buf = leBytes 4 0 ++ handoverArea s) ∧
     (∃ t, exec .cmdReadCounters s = .next t ∧ t.dev.mgmt.status = 0 ∧ t.mem = s.mem)) ∧
   (∀ (s : State) (image : List Byte), s.dev.started = true →
     ∃ t, exec (.cmdWriteFirmware image) s = .next t ∧ t.dev.nor.firmware = image ∧ t.dev.nor.fails = 0 ∧
       t.dev.mgmt.status = 0) ∧
   (∀ (s : State) (a : AssignCmd), s.dev.started = true → s.dev.minimal = false → a.release = false → a.part < 20 →
     ((∃ g ∈ a.units.granules, g ∈ s.dev.own) → exec (.cmdAssignPartition a) s = .next (answerCmd s 1 1 62 [])) ∧
     ((∀ g ∈ a.units.granules, g ∉ s.dev.own) →
     unitsExist a.units = true → (∀ p ∈ s.parts, p.1 ≠ a.part → unitsMeet p.2.units a.units = false) →
     unitsOk (unitsAdd (s.part a.part).units a.units) = true →
     let units := unitsAdd (s.part a.part).units a.units
     let sameLocks := units.lodestars = (s.part a.part).units.lodestars ∧ a.lockTable = (s.part a.part).lockTable
     ((aget s.parts a.part).isSome = true → ¬sameLocks → exec (.cmdAssignPartition a) s = .next (answerCmd s 1 1 62 [])) ∧
     (sameLocks ∨ (aget s.parts a.part = none ∧ partHeld s a.part = false) →
       ∃ t, exec (.cmdAssignPartition a) s = .next t ∧ t.dev.mgmt.status = 0 ∧
         (t.part a.part).units = units ∧ (t.part a.part).lockTable = a.lockTable ∧ Ev.placeClusterGroup a.part ∈ t.flight ∧
         ∀ g ∈ units.granules, g ∉ (s.part a.part).units.granules → aget t.sealed g = some (t.part a.part).key ∧
           ∀ x, g * 2 ^ 30 ≤ x → x < (g + 1) * 2 ^ 30 → t.mem.byte x = 0))) ∧
   (∀ (s : State) (q : QpCmd), s.dev.started = true → s.dev.minimal = false →
     let s1 := s.modDev fun _ => setMacsec s.dev q.port q.macsec
     let owned := q.op = 0 ∧ aget s.qps q.qpn = none ∧ tdiHeld (s.ctx q.ctx) = false ∨
       q.op = 1 ∧ ∃ o, aget s.qps q.qpn = some o ∧ (o.ctx = q.ctx ∨ tdiHeld (s.ctx q.ctx) = false ∧ tdiHeld (s.ctx o.ctx) = false)
     (q.op = 0 → tdiHeld (s.ctx q.ctx) = true → exec (.cmdQueuePair q) s = .next (answerCmd s1 4 1 62 [])) ∧
     (∀ o, q.op = 1 → aget s.qps q.qpn = some o → o.ctx ≠ q.ctx → (tdiHeld (s.ctx q.ctx) = true ∨ tdiHeld (s.ctx o.ctx) = true) →
       exec (.cmdQueuePair q) s = .next (answerCmd s1 4 1 62 [])) ∧
     (q.op < 2 → (s.part q.part).conf = true → q.macsec = false → exec (.cmdQueuePair q) s = .next (answerCmd s1 4 1 62 [])) ∧
     (q.qpn < 2 ^ 18 → q.port < 4 → (s.ctx q.ctx).part = some q.part →
       (owned → ((s.part q.part).conf = false ∨ q.macsec = true) →
         ∃ t, exec (.cmdQueuePair q) s = .next t ∧ t.dev.mgmt.status = 0 ∧ (t.qp q.qpn).ctx = q.ctx ∧
           (t.qp q.qpn).part = q.part ∧ (t.qp q.qpn).remoteQp = q.remoteQp ∧ (q.port ∈ t.dev.macsec ↔ q.macsec = true) ∧
           (q.ready = true → (s.qp q.qpn).state ≠ .ready → (t.qp q.qpn).state = .ready ∧ (t.qp q.qpn).sendPsn = 0)) ∧
       (q.op = 2 → (aget s.qps q.qpn).isSome = true →
         ∃ t, exec (.cmdQueuePair q) s = .next t ∧ t.dev.mgmt.status = 0 ∧ (t.qp q.qpn).state = .reset ∧
           (t.qp q.qpn).ctx = (s.qp q.qpn).ctx)))) ∧
  ((∀ (s : State) (head : Nat), ∃ t, exec (.hostLinkDown head) s = .next t ∧ head ∉ t.heads ∧ t.mem = s.mem ∧
     ∀ l ∈ t.dev.lds, l.head = head → l.orphaned = true) ∧
   (∀ (s : State) (head width rate : Nat), head < 2 → width ∈ [16, 8, 4] → rate ∈ [128, 64, 32] →
     ∃ t, exec (.hostLinkTraining head width rate) s = .next t ∧ head ∈ t.heads ∧
       aget t.dev.trained head = some (width, rate) ∧ t.mem = s.mem) ∧
   (∀ (s : State) (a : HostAccess) (k : Nat), (s.ctx a.vf).part = some k →
     let n := if a.write then a.bytes.length else a.len
     n ≠ 0 → accessInside (s.part k) a.pa n = true → (getAt {} s.dev.lds (s.ctx a.vf).ld).head ∈ s.heads →
     s.dev.minimal = false →
     ((s.cut 0 (dieOfPa a.pa) = true ∨ s.cut 0 (dieOfPa (a.pa + n - 1)) = true) → exec (.cxlMemAccess a) s = .next s) ∧
     (s.cut 0 (dieOfPa a.pa) = false → s.cut 0 (dieOfPa (a.pa + n - 1)) = false →
     let served := (s.part k).conf = false ∨ ((s.ctx a.vf).tdi = .run ∧ a.trusted = true)
     (a.write = true → served → outsideBusy s (raeOf 0) a.pa n = false →
       exec (.cxlMemAccess a) s = .next (outsideWrite s (raeOf 0) a.pa a.bytes)) ∧
     (a.write = true → served → outsideBusy s (raeOf 0) a.pa n = true →
       exec (.cxlMemAccess a) s = .next (s.push (.cxlMemAccess a))) ∧
     (a.write = true → ¬served → exec (.cxlMemAccess a) s = .next s) ∧
     (a.write = false → ¬served →
       exec (.cxlMemAccess a) s = .next { s with out := s.out ++ [.host (List.replicate a.len 0xFF)] }) ∧
     (a.write = false → served → outsideRead s (raeOf 0) a.pa n = none →
       exec (.cxlMemAccess a) s = .next (s.push (.cxlMemAccess a))) ∧
     (a.write = false → served → ∀ bs s1, outsideRead s (raeOf 0) a.pa n = some (bs, s1) →
       exec (.cxlMemAccess a) s = .next { s1 with out := s1.out ++ [.host bs] }))) ∧
   (∀ (s : State) (ag : AgentId) (pa n : Nat), s.ucopies = [] → s.views = [] →
     (physMode pa = .home → (s.readBank pa n).memError pa n = none →
       outsideRead s ag pa n = some (s.mem.read pa n, s.readBank pa n)) ∧
     (physMode pa = .coh → ∀ s1, State.takeTokens ag (linesIn pa n) s = (true, s1) → s1.memError pa n = none →
       outsideRead s ag pa n = some (s1.mem.read pa n, s1))) ∧
   (∀ (s : State) (a : PeerAccess), a.device ∈ s.peers → a.port < 36 → (s.port a.port).up = true →
     let n := if a.write then a.bytes.length else a.len
     n ≠ 0 →
     ((s.port a.port).rx.flits = 0 → exec (.peerAccess a) s = .next (s.push (.peerAccess a))) ∧
     (0 < (s.port a.port).rx.flits →
     let ps := aset s.ports a.port (sendFlit (takeFlit (s.port a.port)))
     (admitted s a n = false →
       exec (.peerAccess a) s = .next { s with out := s.out ++ [.peer a.device true []], ports := ps }) ∧
     let ag := portOf (dieOfPa a.pa)
     (admitted s a n = true → a.write = true → outsideBusy s ag a.pa n = true →
       exec (.peerAccess a) s = .next (s.push (.peerAccess a))) ∧
     (admitted s a n = true → a.write = true → outsideBusy s ag a.pa n = false →
       let t := outsideWrite s ag a.pa a.bytes
       exec (.peerAccess a) s = .next { t with out := t.out ++ [.peer a.device false []], ports := ps }) ∧
     (admitted s a n = true → a.write = false → ∀ bs s1, outsideRead s ag a.pa n = some (bs, s1) →
       exec (.peerAccess a) s = .next { s1 with out := s1.out ++ [.peer a.device false bs], ports := ps }))) ∧
   (∀ (s : State) (die : Nat), die < 4 → s.dev.minimal = false → exec (.d2dLinkFailure die) s = .next (pathsLost { s with links := setAt s.links die false })) ∧
   (∀ (s : State) (die : Nat) (failed : List Nat), die < 4 → s.dev.minimal = false → failed.length ≤ 64 →
     ∃ t, exec (.d2dLinkTraining die failed) s = .next t ∧ t.links = setAt s.links die true ∧ t.mem = s.mem ∧
       t.dev.d2d = setAt s.dev.d2d die (D2d.ofNext { replaced := failed })) ∧
   (∀ (s : State) (p : Nat), p < 36 → s.dev.minimal = false → exec (.meridianLinkLoss p) s = .next (portDown s p)) ∧
   (∀ (s : State) (p : Nat), p < 36 → s.dev.minimal = false → (s.port p).up = true →
     (∃ t, exec (.meridianFlitGroup p true) s = .next t ∧ t.mem = s.mem ∧ (t.port p).tx = (s.port p).tx ∧
       (t.port p).rx = { (s.port p).rx with group := (s.port p).rx.group + 1, flits := (s.port p).rx.flits + 15 } ∧
       (keyDue t (t.port p).rx = true → Ev.meridianKeyRotation p ∈ t.flight)) ∧
     ((s.port p).fails = [] → ∃ t, exec (.meridianFlitGroup p false) s = .next t ∧ t.mem = s.mem ∧
       t.port p = { s.port p with fails := [s.cycles.toNat], resend := (s.port p).resend + 1 }) ∧
     ((s.port p).fails.length = 3 → (∀ f ∈ (s.port p).fails, s.cycles.toNat < f + secondCycles) →
       ∃ t, exec (.meridianFlitGroup p false) s = .next t ∧ (t.port p).up = false)) ∧
   (∀ (s : State) (p : Nat), p < 36 → s.dev.minimal = false →
     ∃ t, exec (.meridianKeyRotation p) s = .next t ∧ t.mem = s.mem ∧
       (keyDue s (s.port p).rx = true → (t.port p).rx = { (s.port p).rx with
         key := (s.port p).rx.key + 1, keyGroup := (s.port p).rx.group, keyCycle := s.cycles.toNat }) ∧
       (keyDue s (s.port p).rx = false → (t.port p).rx = (s.port p).rx) ∧
       (keyDue s (s.port p).tx = true → (t.port p).tx.key = (s.port p).tx.key + 1 ∧ (t.port p).tx.flits = 0 ∧
         (t.port p).tx.keyGroup = (t.port p).tx.group ∧ (t.port p).tx.keyCycle = s.cycles.toNat ∧
         (t.port p).tx.group = (s.port p).tx.group + (if (s.port p).tx.flits = 0 then 0 else 1)) ∧
       (keyDue s (s.port p).tx = false → (t.port p).tx = (s.port p).tx)))

/-! ### Links, attestation, start-up and power -/

/-- R435, R436, R453 to R456: the responder answers every message of a started device; TDISP moves a function's state
within a session; a successful start leaves a supervisor team on every core, a failed one records its stage and
reason, and after three failures minimal mode comes up; a save keeps the counters through a loss of power, which
leaves only the NOR flash. The response codes and contents of the answers are the model's (log 21), as are the order in which
requests are taken (log 127), the bound of 255 on the count (log 76) and that memory reads 0 after a loss of power (log 2). -/
def Obligations.AttestationStartUpAndPower : Prop :=
  (∀ (s : State) (nonce : List Byte) (i : Nat), s.dev.started = true → s.dev.minimal = false →
    (∃ t m, exec .getVersion s = .next t ∧ t.out = s.out ++ [m] ∧ t.dev.spdm.versioned = true) ∧
    (∃ t m, exec .getCapabilities s = .next t ∧ t.out = s.out ++ [m]) ∧
    (∃ t m, exec .getDigests s = .next t ∧ t.out = s.out ++ [m]) ∧
    (∃ t m, exec .getCertificate s = .next t ∧ t.out = s.out ++ [m]) ∧
    (∃ t m, exec (.challenge nonce) s = .next t ∧ t.out = s.out ++ [m]) ∧
    (∃ t m, exec (.getMeasurements i) s = .next t ∧ t.out = s.out ++ [m] ∧ t.dev = s.dev) ∧
    (∃ t m, exec .keyExchange s = .next t ∧ t.out = s.out ++ [m] ∧
      (s.dev.spdm.negotiated = true → t.dev.spdm.session = 1) ∧ (s.dev.spdm.negotiated = false → t.dev = s.dev)) ∧
    (s.dev.spdm.session = 1 → ∃ t, exec (.finish true) s = .next t ∧ t.dev.spdm.session = 2) ∧
    (∃ t, exec (.finish false) s = .next t ∧ t.dev.spdm.session = 0) ∧
    (∃ t m, exec .endSession s = .next t ∧ t.out = s.out ++ [m] ∧ t.dev.spdm.session = 0)) ∧
  (∀ (s : State) (a : SpdmAlgs), s.dev.started = true → s.dev.minimal = false →
    ∃ t, exec (.negotiateAlgorithms a) s = .next t ∧ (s.dev.spdm.versioned = false → t.dev = s.dev) ∧
      (s.dev.spdm.versioned = true → t.dev.spdm.negotiated = (a.slhDsaShake256s && a.shake256x64))) ∧
  (∀ (s : State) (vf : Nat), s.dev.started = true → s.dev.minimal = false → vf < 256 → s.dev.spdm.session = 2 →
    ((s.ctx vf).tdi = .unlocked → ∃ t, exec (.tdispMessage vf .lock) s = .next t ∧ (t.ctx vf).tdi = .locked) ∧
    ((s.ctx vf).tdi = .locked → ∃ t, exec (.tdispMessage vf .start) s = .next t ∧ (t.ctx vf).tdi = .run) ∧
    (∃ t, exec (.tdispMessage vf .stop) s = .next t ∧ (t.ctx vf).tdi = .unlocked)) ∧
  (∀ (s : State), s.dev.started = true → s.dev.minimal = false → s.dev.spdm.session = 2 →
    (∃ t, exec (.ideKeyManagement .keyProg) s = .next t ∧ t.dev.ideKeys = 1) ∧
    (s.dev.ideKeys ≠ 0 → ∃ t, exec (.ideKeyManagement .keyGo) s = .next t ∧ t.dev.ideKeys = 2) ∧
    (∃ t, exec (.ideKeyManagement .keyStop) s = .next t ∧ t.dev.ideKeys = 0)) ∧
  (∀ (s : State) (r : BootOutcome), (s.dev.started = true → exec (.boot r) s = .next s) ∧
    (s.dev.started = false → 3 ≤ s.dev.nor.fails → ∃ t, exec (.boot r) s = .next t ∧ t.dev.started = true ∧
      t.dev.minimal = true ∧ t.dev.nor.fails = min 255 (s.dev.nor.fails + 1) ∧ t.teams = s.teams ∧
      t.links = [false, false, false, false])) ∧
  (∀ (s : State) (st re : Nat), s.dev.started = false → s.dev.nor.fails < 3 →
    (s.dev.nor.signed = true → ∃ t, exec (.boot .success) s = .next t ∧ t.dev.started = true ∧ t.dev.minimal = false ∧ t.dev.nor.fails = 0 ∧
      t.links = [true, true, true, true] ∧ (∀ p v, (p, v) ∈ t.ports → v.up = true) ∧
      (∀ g ∈ s.dev.own, ∀ x, g * 2 ^ 30 ≤ x → x < (g + 1) * 2 ^ 30 → t.mem.byte x = 0) ∧
      t.teams.length = s.teams.length + 640 ∧
      ∀ c < 640, ∃ tm, (s.serial + c, tm) ∈ t.teams ∧ tm.kind = .supervisor ∧ tm.core = c ∧ tm.slot = 63 ∧ tm.alloc = 64) ∧
    (s.dev.nor.signed = false → exec (.boot .success) s = exec (.boot (.failure 1 1)) s) ∧
    (∃ t, exec (.boot (.failure st re)) s = .next t ∧ t.dev.started = false ∧ t.dev.nor.stage = st ∧
      (t.dev.nor.reason = if re < 8 then re else 255) ∧ t.dev.nor.fails = s.dev.nor.fails + 1 ∧
      t.dev.counters.failedStarts = s.dev.counters.failedStarts + 1)) ∧
  (∀ (s : State) (on : Bool),
    (∃ t, exec .lifetimeCounterSave s = .next t ∧ t.dev.nor.counters = s.dev.counters) ∧
    (∃ t, exec .orderlyShutdown s = .next t ∧ t.dev.nor.counters = s.dev.counters) ∧
    (∃ t, exec .powerLoss s = .next t ∧ t.dev.nor = s.dev.nor ∧ t.dev.counters = s.dev.nor.counters ∧ t.mem = [] ∧
      t.teams = [] ∧ t.dev.started = false) ∧
    (∃ t, exec (.powerLimit on) s = .next t ∧ t.dev.powerLimit = on ∧ t.mem = s.mem))

/-! ### Remote memory access -/

/-- R445 to R447, R450 to R452: RMA.PUT, RMA.GET and RMA.ATOM enter xq with their block, RMA.KEY acts on a key;
RMA.WAIT leaves its lanes waiting. An operation at the head of xq sends its next packet while its queue pair has
credit, and completes once it is done; a revoked key is INVALID after every packet under it has performed. R439 to
R444, R448, R449: a packet whose context is cached is received; a request whose checks pass performs once, in order
where it must, and is acknowledged; a failed check is answered by its NAK. Answers land at their requester,
the PUT packets that an ACK's cumulative PSN covers are forgotten and the others it covers are not sent again, credit is granted
(what takes a unit and what grants it is the model's reading, log 69), and an unacknowledged packet is sent again (what a repeated
one does is log 71). A packet with a reserved bit set or a payload above 4,096 bytes is dropped (the model's choice, log 122). The
header of R439 holds every field of a packet. -/
def Obligations.RemoteAccessesAndPackets : Prop :=
  ((∀ x : XOps, Enqueues (.rmaPut x) x (prepareRma (.rmaPut x)) ∧ Enqueues (.rmaGet x) x (prepareRma (.rmaGet x)) ∧
     Enqueues (.rmaAtom x) x (prepareRma (.rmaAtom x)) ∧ Enqueues (.rmaKey x) x (prepareKey (.rmaKey x) x) ∧
     ReadsThen (.rmaWait x) x Grp.await (rmaToken x) fun _ s g vals =>
       startWaits s g fun l => (vals.find? fun p => p.1 == l).map fun p => .rmaToken p.2) ∧
   (∀ (i : Instr) (s : State) (g : Grp) (L : LCtx) (lr : LogRec) (th : Thread) (bs : List Byte),
     let a : DWord := (DWord.lo lr.a).zext
     let b := rmaBlock bs
     a.toNat % 64 = 0 → ownScratch s g.k L.lane a 64 = some bs →
     (∀ o, rmaBad i bs = some o → prepareRma i s g L lr th = .error (.trap .engineOperand (BitVec.ofNat 64 o) .nothing)) ∧
     (rmaBad i bs = none → (s.qp b.qpn).state ≠ .ready →
       prepareRma i s g L lr th = .error (.trap .remoteAccess (rmaTval 8 b.qpn 0) .nothing)) ∧
     (rmaBad i bs = none → (s.qp b.qpn).ctx = L.team.ctx → (s.qp b.qpn).state = .ready →
       (aget s.qps b.qpn).isSome = true → isCanon b.laddr = true →
       isCanon (b.laddr + BitVec.ofNat 64 (b.len - 1)) = true →
       prepareRma i s g L lr th =
         .ok ({ op := { qs := [6], instr := i, lane := L.lane, block := bs, args := [] }, spans := [] }, th, s))) ∧
   (∀ (s : State) (k : Nat) (o : EngOp) (r : List EngOp) (x : XOps), ((s.team k).queue 6).ops = o :: r →
     (o.instr = .rmaPut x ∨ o.instr = .rmaGet x ∨ o.instr = .rmaAtom x) → (∀ c v, o.state ≠ .stopped c v) →
     (rmaDone s o = true → exec (.rmaComplete k) s = .next
       (let t := s.endEngineOp k o .done 0
        if ((t.team k).queue 6).ops.isEmpty then t else t.pushOnce (.rmaComplete k))) ∧
     (rmaDone s o = false → ∀ t, sendNext s k o = some t → exec (.rmaComplete k) s = .next
       (if ((t.team k).queue 6).ops.isEmpty then t else t.pushOnce (.rmaComplete k)))) ∧
   (∀ (s : State) (k : Nat) (o : EngOp) (x : XOps), (o.instr = .rmaGet x ∨ o.instr = .rmaAtom x) →
     (s.qp (rmaBlock o.block).qpn).state = .ready → o.row = 0 → mayTransmit (s.qp (rmaBlock o.block).qpn) o = true →
     ∃ t, sendNext s k o = some t ∧ t.mem = s.mem ∧
       (t.qp (rmaBlock o.block).qpn).sendPsn = ((s.qp (rmaBlock o.block).qpn).sendPsn + 1) % 2 ^ 24 ∧
       t.out = s.out ++ [.packet (rmaBlock o.block).qpn { nextPacket (s.qp (rmaBlock o.block).qpn) o with
         ver := 1, qpn := (s.qp (rmaBlock o.block).qpn).remoteQp }]) ∧
   (∀ (s : State) (part slot : Nat) (tag : KeySlot), s.keySlot part slot = tag →
     (tag.state ≠ .revoking → exec (.keyRevokeComplete part slot) s = .next s) ∧
     (tag.state = .revoking → tag.holder = none →
       exec (.keyRevokeComplete part slot) s = .next (s.setKey part slot { tag with state := .invalid, holder := none })) ∧
     (tag.state = .revoking → ∀ k order o, tag.holder = some (k, order) →
       let s1 := s.setKey part slot { tag with state := .invalid, holder := none }
       rmaOp s1 k order = some o → exec (.keyRevokeComplete part slot) s = .next (s1.endEngineOp k o .done 0)))) ∧
  ((∀ (s : State) (n : Nat), aget s.qps n = none → ∃ t, exec (.qpContextFetch n) s = .next t ∧ t.qps = s.qps ∧ t.mem = s.mem ∧
     ∀ b ∈ t.dev.missed, ∀ p ∈ b.2, p.qpn ≠ n) ∧
   (∀ (s : State) (n : Nat), (aget s.qps n).isSome = true →
     ∃ t, exec (.qpContextFetch n) s = .next t ∧ (t.qp n).cached = true ∧ t.mem = s.mem ∧
       (∀ b ∈ s.dev.missed, ∀ p ∈ b.2, p.qpn = n → packetEvent p ∈ t.flight) ∧
       ∀ b ∈ t.dev.missed, ∀ p ∈ b.2, p.qpn ≠ n) ∧
   (∀ (s : State) (p : Packet), p.ver = 1 → p.qpn < 2 ^ 18 → p.psn < 2 ^ 24 → p.payload.length ≤ 4096 → s.dev.started = true →
     s.dev.minimal = false → (s.qp p.qpn).cached = true →
     (p.op = 0 → exec (.put p) s = .next (respond s { p with len := p.payload.length })) ∧
     (p.op = 1 → exec (.getRequest p) s = .next (respond s p)) ∧
     (p.op = 3 → exec (.atomRequest p) s = .next (respond s { p with len := 8 })) ∧
     (p.op = 7 → exec (.credit p) s = .next (grant s p.qpn p.credit)) ∧
     (p.op = 6 → ∀ x o, answered s p.qpn (p.aux.toNat % 2 ^ 24) = some (x, o) →
       exec (.nak p) s = .next (failRma s x.team o (p.aux.toNat / 2 ^ 24))) ∧
     (p.op = 2 → ∀ x o, answered s p.qpn p.psn = some (x, o) →
       let off := (p.raddr - (rmaBlock o.block).raddr).toNat
       off + p.payload.length ≤ (rmaBlock o.block).len → p.payload ≠ [] → BitVec.ofNat 64 off ∉ o.args.drop 1 →
       exec (.getResponse p) s = .next (landData s p x o ((rmaBlock o.block).laddr + BitVec.ofNat 64 off) off)) ∧
     (p.op = 4 → ∀ x o, answered s p.qpn p.psn = some (x, o) → p.payload.length = 8 →
       exec (.atomResponse p) s = .next (landData s p x o (rmaBlock o.block).laddr 0))) ∧
   (∀ (s : State) (p : Packet), (p.ver ≠ 1 ∨ s.dev.started = false ∨ 4096 < p.payload.length ∨ 2 ^ 24 ≤ p.psn) →
     exec (.put p) s = .next s ∧ exec (.getRequest p) s = .next s ∧ exec (.atomRequest p) s = .next s ∧
     exec (.ack p) s = .next s ∧ exec (.credit p) s = .next s ∧ exec (.nak p) s = .next s ∧
     exec (.getResponse p) s = .next s ∧ exec (.atomResponse p) s = .next s) ∧
   (∀ p : Packet, p.ver = 1 → p.op < 8 → p.qpn < 2 ^ 18 → p.psn < 2 ^ 24 → p.credit < 2 ^ 32 → p.payload.length ≤ 4096 →
     packetOf (wireOf p) = some { p with len := p.payload.length }) ∧
   (∀ (s : State) (p : Packet), p.ver = 1 → p.op = 5 → p.qpn < 2 ^ 18 → p.psn < 2 ^ 24 → p.payload.length ≤ 4096 →
     s.dev.started = true → s.dev.minimal = false → (s.qp p.qpn).cached = true →
     let cum := p.aux.toNat % 2 ^ 24
     let covered := fun (x : Sent) =>
       let i := (x.pkt.psn + 2 ^ 24 - (cum + 1)) % 2 ^ 24
       psnReached cum x.pkt.psn || (decide (i < 64) && fld (fieldAt p.payload 0 8) i 1 == 1)
     ∃ t, exec (.ack p) s = .next t ∧ t.mem = s.mem ∧ (t.qp p.qpn).credit = (s.qp p.qpn).credit + p.credit ∧
       ∀ y, (y ∈ (t.qp p.qpn).sent ↔ ∃ x ∈ (s.qp p.qpn).sent, ¬(x.pkt.op = 0 ∧ psnReached cum x.pkt.psn = true) ∧
         y = { x with acked := x.acked || covered x })) ∧
   (∀ (s : State) (p : Packet), (s.qp p.qpn).state ≠ .ready → respond s p = sendNak s p.qpn p.psn 8) ∧
   (∀ (s : State) (p : Packet), (s.qp p.qpn).state = .ready → p.psn = (s.qp p.qpn).recvPsn → p.psn < 2 ^ 24 →
     p.psn ∉ (s.qp p.qpn).done → (∀ w ∈ (s.qp p.qpn).waiting, w.psn ≠ p.psn) →
     let v := s.keySlot (s.qp p.qpn).part (keyIndex p.rkey)
     (∀ e, keyCheck v p = some e → respond s p = sendNak s p.qpn p.psn e) ∧
     (keyCheck v p = none → serve s v (s.qp p.qpn).part p = .bad → respond s p = sendNak s p.qpn p.psn 5) ∧
     (keyCheck v p = none → ∀ back s1, serve s v (s.qp p.qpn).part p = .ok back s1 → respond s p =
       sendAck (performed (back.foldl (fun s a => sendPacket s p.qpn a) s1) p.qpn p.psn) p.qpn
         (if p.payload.isEmpty then 0 else 1))) ∧
   (∀ (v : KeySlot) (p : Packet), v.state = .valid → v.tag = keyTag p.rkey → v.qpsel = BitVec.allOnes 32 → p.op = 0 →
     (fld v.rights 1 1 = 0 → keyCheck v p = some 3) ∧
     (fld v.rights 1 1 = 1 → v.len < p.raddr.toNat + p.len → keyCheck v p = some 2) ∧
     (fld v.rights 1 1 = 1 → p.raddr.toNat + p.len ≤ v.len → keyCheck v p = none)) ∧
   (∀ (s : State) (n : Nat) (x : Sent), (s.qp n).unacked.find? (fun x => x.at_ + retryCycles x.tries ≤ s.cycles.toNat) = some x →
     x.tries < 7 →
     ∃ t, exec (.rmaRetransmitTimeout n) s = .next t ∧ t.mem = s.mem ∧
       t.out = s.out ++ [.packet n { x.pkt with ver := 1, qpn := (s.qp n).remoteQp }] ∧
       { x with tries := x.tries + 1, at_ := s.cycles.toNat } ∈ (t.qp n).sent))

/-! ### Words, clauses and the step -/

/-- R2, R34 to R43, R67 to R86: the bytes of an encoded, well-formed instruction decode to it, whatever follows; two
words that decode are the words of the instruction they give, and it is well-formed. No bit of an encoding is dropped.
-/
def Obligations.DecodeAndEncodeAgree : Prop :=
  (∀ (i : Instr) (rest : List Byte), i.encoded = true → i.wf = true → decodeBytes (i.bytes ++ rest) = .ok (i, rest)) ∧
  (∀ (w0 w1 : Nat) (i : Instr), w0 < 2 ^ 32 → w1 < 2 ^ 32 → decodeWords w0 w1 = .ok i →
    i.encoded = true ∧ i.wf = true ∧ i.encode = if instrWords w0 = 1 then [w0] else [w0, w1]) ∧
  ∀ (bs rest : List Byte) (i : Instr), decodeBytes bs = .ok (i, rest) → bs = i.bytes ++ rest

/-- R35 to R43, R71 to R85: words written out from the encodings decode to the instructions they stand for. -/
def Obligations.WrittenOutWordsDecode : Prop :=
  decodeWords 0x20300685 0x00200187 =
    .ok (.iminX false { dst := 12, a := .vec 3, b := .uni 5, c := .vec 0, pred := 2, pneg := false, la := 0, dc := 0,
                        ty := .s32, rnd := .rne, ovf := false, scope := .thread }) ∧
  decodeWords 0x6807FE00 0 = .ok (.mov { dst := 1, a := .lit (-1), b := .vec 0 }) ∧
  decodeWords 0x7C100800 0x00071110 =
    .ok (.ld { data := 4, bk := false, bp := 1, off := 0, pred := 7, pneg := false, la := 2, dc := 1, scope := .thread,
               size := .b32, hint := 0 }) ∧
  decodeWords 0xE0030180 0x00700052 =
    .ok (.barSync { dst := 0, a := .lit 0, b := .lit 0, c := .vec 0, pred := 7, pneg := false, la := 0, dc := 0,
                    ty := .s4, rnd := .rne, ovf := false, scope := .device }) ∧
  decodeWords 0x78001D8A 0x00700000 =
    .ok (.sets { dst := 0, a := .vec 14, b := .lit 10, c := .vec 0, pred := 7, pneg := false, la := 0, dc := 0,
                 ty := .s4, rnd := .rne, ovf := false, scope := .thread })

/-- R86: an unassigned opcode is no instruction: it counts as one word, has the home class of its range, ends no run
and traps ILLEGAL_OPCODE with the word. A SUB value that its opcode's row does not list traps RESERVED_FIELD, whose TVAL is word 1
with bit 32 set (R58). R245: in an access slice an opcode that the slice does not list traps ILLEGAL_OPCODE, and a SUB value that
it does not list traps RESERVED_FIELD. -/
def Obligations.UnassignedWordsTrap : Prop :=
  (∀ (w0 w1 : Word) (t : Team) (acc : Bool),
    let opc := fld w0.toNat 25 7
    opc ∈ [0x0F, 0x17, 0x1F, 0x29, 0x2A, 0x2B, 0x30, 0x31, 0x32, 0x33, 0x4E, 0x4F, 0x54, 0x55, 0x56, 0x57, 0x58, 0x59,
      0x5A, 0x5B, 0x5F, 0x60, 0x61, 0x62, 0x63, 0x6D, 0x6E, 0x6F, 0x76, 0x77, 0x7A, 0x7B, 0x7E, 0x7F] →
    wordChecks t acc w0 w1 = .error (.illegalOpcode, w0.zext) ∧ instrWords w0.toNat = 1 ∧
    (∀ sub, runEnding opc sub = false) ∧
    (opc ≤ 0x33 → homeClass opc = some 0) ∧ (0x3E ≤ opc → opc ≤ 0x4F → homeClass opc = some 1) ∧
    (0x50 ≤ opc → opc ≤ 0x63 → homeClass opc = some 2) ∧ (0x64 ≤ opc → opc ≤ 0x6F → homeClass opc = some 3) ∧
    (0x70 ≤ opc → opc ≤ 0x7E → homeClass opc = some 4) ∧ (opc = 0x7F → homeClass opc = none)) ∧
  (∀ (w0 w1 : Word) (t : Team) (acc : Bool) (n : Nat) (opcs : List Nat),
    let opc := fld w0.toNat 25 7
    let sub := fld w1.toNat 0 4
    -- the opcodes whose rows list exactly the SUB values below `n`
    (n, opcs) ∈ ([(1, [0x38, 0x39, 0x3C, 0x4B, 0x4D, 0x65, 0x67, 0x6B, 0x6C, 0x78]),
      (2, [0x47, 0x4C, 0x51, 0x5E, 0x71, 0x73, 0x74, 0x75]), (3, [0x2C, 0x2D, 0x2F, 0x48, 0x69, 0x70]),
      (4, [0x3D, 0x52, 0x6A, 0x79, 0x7C]), (5, [0x53, 0x5C]), (6, [0x14, 0x15, 0x16, 0x50, 0x5D]), (8, [0x7D]),
      (10, [0x22, 0x23, 0x27, 0x2E, 0x43, 0x45]), (12, [0x28]), (13, [0x20, 0x21]), (14, [0x10, 0x11, 0x24, 0x25, 0x26])] :
        List (Nat × List Nat)) →
    (opc = 0x7D → t.kind = .supervisor) → (t.kind = .lodestar → notOnLodestar opc = false) →
    (acc = true → opc ∈ [0x11, 0x13, 0x15, 0x16, 0x35, 0x37, 0x39, 0x3D, 0x64, 0x6A]) →
    (n ≤ sub ∧ opc ∈ opcs) ∨ (opc = 0x3B ∧ sub ∈ [0, 1, 2, 3, 10]) ∨ (opc = 0x44 ∧ sub ∈ [6, 7, 10, 11, 12, 13, 14, 15]) ∨
      (opc = 0x46 ∧ sub ∈ [8, 9, 12, 13, 14, 15]) ∨ (opc = 0x72 ∧ sub ∈ [7, 15]) →
    wordChecks t acc w0 w1 = .error (.reservedField, w1.zext + 0x100000000)) ∧
  (∀ (w0 w1 : Word) (t : Team), fld w0.toNat 25 7 ∉ [0x11, 0x13, 0x15, 0x16, 0x35, 0x37, 0x39, 0x3D, 0x64, 0x6A] →
    wordChecks t true w0 w1 = .error (.illegalOpcode, w0.zext)) ∧
  (∀ (w0 w1 : Word) (t : Team) (acc : Bool) (i : Instr), t.kind ≠ .lodestar → decodeWords w0.toNat w1.toNat = .ok i →
    let opc := fld w0.toNat 25 7
    let sub := fld w1.toNat 0 4
    opc = 0x3D ∧ (acc = true ↔ sub = 3) ∨ opc = 0x6A ∧ acc = true ∧ 3 ≤ sub →
    wordChecks t acc w0 w1 = .error (.reservedField, w1.zext + 0x100000000))

/-- R70: in a form whose destination is a predicate, DST 0 to 7 names p0 to p7, and a write to p7 is discarded; DST 8
to 127 traps OPERAND_KIND with position code 0; the rule of uniform variants does not apply. -/
def Obligations.PredicateDestinationsAreP0ToP7 : Prop :=
  ∀ (x : XOps) (c : ICond) (fc : FCond) (i : Instr),
    i ∈ [Instr.icmp c x, .fsetPred fc x, .pollAll false x, .pollAny false x, .first false x] →
    (∀ (L : LCtx) (th : Thread) (ws : List Word), x.dst.toNat < 7 → th.p.length = 8 →
      ∃ th', writeDst L i.shape.d x.dst ws th = .ok ((), th') ∧ th' = { th with p := th'.p } ∧
        ∀ j, th'.pred j = if j = x.dst.toNat then getAt 0 ws 0 != 0 else th.pred j) ∧
    (∀ (L : LCtx) (th : Thread) (ws : List Word), x.dst.toNat = 7 → writeDst L i.shape.d x.dst ws th = .ok ((), th)) ∧
    (∀ (s : State) (idx : Nat) (r : Run), 8 ≤ x.dst.toNat → Issuing s idx r →
      NoWait s r (ofX x) (regsOf i.shape (ofX x) false) false →
      exec i s = .next (trapLanes s r.team idx r.acc
        (r.lanes.map fun l => (l, { cause := .operandKind, tval := opTval x.dst.toNat 0, tpc := placeOf r }, .nothing)))) ∧
    ∀ st : Site, x.dst.toNat < 8 → dstCheck5 st i.shape.d x.dst = none

/-- R26, R27, R30, R31, R33: a clause is checked as a whole before its first instruction, in the order of the table;
where a check fails the issue group traps at the header and no instruction of the clause executes. -/
def Obligations.ClausesAreCheckedAsAWhole : Prop :=
  (∀ (s s1 s2 : State) (t : Team) (a : DWord) (h : Word) (ws : List Word), fetchWord s t a = .ok (h, s1) →
    let bad := fun (c : Cause) (v : DWord) => (TrapRec.mk c v (mkResume a 0))
    let okHdr := hdrCount h ≠ 0 ∧ hdrClass h < 5 ∧ fld h.toNat 15 1 = 0 ∧ ∀ i, hdrCount h ≤ i → i < 15 → fld h.toNat i 1 = 0
    (hdrCount h = 0 → fetchClause s t a = .error (bad .illegalClause 1)) ∧
    (hdrCount h ≠ 0 → 5 ≤ hdrClass h → fetchClause s t a = .error (bad .illegalClause 2)) ∧
    (hdrCount h ≠ 0 → hdrClass h < 5 → (fld h.toNat 15 1 = 1 ∨ ∃ i, hdrCount h ≤ i ∧ i < 15 ∧ fld h.toNat i 1 = 1) →
      fetchClause s t a = .error (bad .reservedField h.zext)) ∧
    (okHdr → fetchBody t a (hdrCount h) 1 s1 = .ok (ws, s2) →
      let ps := placeAll (hdrCount h) 1 ws
      let ok4 := ∀ p ∈ ps, ∀ cl, homeClass p.opc = some cl → cl = hdrClass h
      let ok5 := ∀ p ∈ ps.dropLast, p.ending = false
      let ok6 := (∃ p, ps.getLast? = some p ∧ p.ending = true) → hdrRunEnd h = true
      (¬ok4 → fetchClause s t a = .error (bad .illegalClause 4)) ∧
      (ok4 → ¬ok5 → fetchClause s t a = .error (bad .illegalClause 5)) ∧
      (ok4 → ok5 → ¬ok6 → fetchClause s t a = .error (bad .illegalClause 6)) ∧
      (ok4 → ok5 → ok6 → fetchClause s t a = .ok ({ hdr := h, words := ws }, s2)))) ∧
  (∀ (r : Run) (c : Clause) (i : Nat), indexAt c.placed r.off = some i →
    (24 < r.count + (hdrCount c.hdr - i) →
      enterClause r c = .error { cause := .illegalClause, tval := 3, tpc := mkResume r.hdrAddr 0 }) ∧
    (r.count + (hdrCount c.hdr - i) ≤ 24 →
      enterClause r c = .ok { r with hdr := c.hdr, words := c.words, idx := i, needHdr := false })) ∧
  (∀ (s : State) (k : Nat) (rest : List Turn) (r : Run) (tr : TrapRec), s.dev.started = true → s.dev.powerLimit = false →
    frozenOut s k = false → s.turns = .issue k :: rest → runAt s k = some r → (laneOf s r (getAt 0 r.lanes 0)).replay = [] → r.needHdr = true →
    let s0 := { s with turns := rest, tick := s.tick + 1 }
    (fetchClause s0 (s.team r.team) r.hdrAddr = .error tr → step s = .next (s0.trapRun k r tr)) ∧
    ∀ c s1, fetchClause s0 (s.team r.team) r.hdrAddr = .ok (c, s1) → enterClause r c = .error tr →
      step s = .next (s0.trapRun k r tr))

/-- R25, R30, R32, R58, R106, R112: the turn of a run executes the instruction that the words at its place decode to,
as exec does; nothing is added but the turn and the count of turns. At a new clause the words are first fetched, which
waits for tokens of their lines and of the page-table lines of the walk (R100, R123); a team that a FUT.LD of another team of its
crew has frozen issues nothing (R392). A
word that fails checks 1 to 4 traps the run's lanes instead; a replaying thread executes its logged instruction. -/
def Obligations.StepRunsTheDecodedInstruction : Prop :=
  (∀ (s : State) (k : Nat) (rest : List Turn) (r : Run), s.dev.started = true → s.dev.powerLimit = false →
    s.turns = .issue k :: rest → runAt s k = some r →
    let s0 := { s with turns := rest, tick := s.tick + 1 }
    (frozenOut s k = true → step s = .next s0) ∧
    (frozenOut s k = false →
    let words := fun (r' : Run) => (getAt 0 r'.words (r'.off - 1), getAt 0 r'.words r'.off)
    (∀ lr lrs, (laneOf s r (getAt 0 r.lanes 0)).replay = lr :: lrs → step s = exec lr.instr { s0 with cur := some k }) ∧
    ((laneOf s r (getAt 0 r.lanes 0)).replay = [] →
      (r.needHdr = false →
        (∀ i, wordChecks (s.team r.team) r.acc (words r).1 (words r).2 = .ok i →
          step s = exec i { s0 with cur := some k }) ∧
        ∀ c v, wordChecks (s.team r.team) r.acc (words r).1 (words r).2 = .error (c, v) → NoWait s r {} [] false →
          step s = .next (trapLanes { s0 with cur := some k } r.team k r.acc
            (r.lanes.map fun l => (l, { cause := c, tval := v, tpc := placeOf r }, .nothing)))) ∧
      (r.needHdr = true → ∀ cl r' s1, fetchClause s0 (s.team r.team) r.hdrAddr = .ok (cl, s1) → enterClause r cl = .ok r' →
        let s2 : State := { s1 with runs := setAt s1.runs k r' }
        let miss := s2.codeMisses (s2.team r.team) r.hdrAddr r'.words.length
        let walks := s2.codeWalks (s2.team r.team) r.hdrAddr r'.words.length
        (walks = true → step s = .next s2) ∧
        (walks = false → miss ≠ [] → step s = .next (s2.askCode (s.team r.team) miss)) ∧
        ∀ i, walks = false → miss = [] → wordChecks (s1.team r'.team) r'.acc (words r').1 (words r').2 = .ok i →
          step s = exec i { s2 with cur := some k })))) ∧
  (∀ (t : Team) (acc : Bool) (w0 w1 : Word) (i : Instr) (rest : List Byte),
    let opc := fld w0.toNat 25 7
    decodeBytes (leBytes 4 w0.toNat ++ leBytes 4 w1.toNat) = .ok (i, rest) → (opc = 0x7D → t.kind = .supervisor) →
    (t.kind = .lodestar → notOnLodestar opc = false) → (acc = true → inAccessSlice opc = true) →
    (opc = 0x3D → (acc = true ↔ fld w1.toNat 0 4 < 3)) → (opc = 0x6A → acc = true → fld w1.toNat 0 4 < 3) →
    wordChecks t acc w0 w1 = .ok i) ∧
  (∀ (t : Team) (acc : Bool) (w0 w1 : Word), fmtOf (fld w0.toNat 25 7) ≠ .none → acc = false →
    (fld w0.toNat 25 7 = 0x7D → t.kind ≠ .supervisor → wordChecks t acc w0 w1 = .error (.privileged, w0.zext)) ∧
    (t.kind = .lodestar → notOnLodestar (fld w0.toNat 25 7) = true →
      wordChecks t acc w0 w1 = .error (.notOnLatencyCore, w0.zext))) ∧
  (∀ (s s1 : State) (t : Team) (va : DWord) (xl : Xlat), s.xlateTeam t .fetch va = .ok (xl, s1) →
    s1.unreachable t.die xl.ty xl.pa = none →
    let s2 := s1.fetchReach t xl va
    s2.memError xl.pa 4 = none →
    ∃ w, fetchWord s t va = .ok (w, s2) ∧ ∀ j < 4, w.toNat / 2 ^ (8 * j) % 2 ^ 8 = (s2.mem.byte (xl.pa + j)).toNat)

/-! ### Operand forms -/

/-- R41, R45 to R51: what each operand form reads and writes: a register, a pair with the low word at the even
register, a uniform register, an entry of the constant window, a literal as an integer or as the number it denotes,
the head of an operand queue; a write changes its registers and nothing else. R45 to R48, R58: a failing operand check
traps every lane of the run with the instruction's place; the kinds, the alignment of pairs and quads, the direction
of the queues and the allocation are what is checked, every position for check 5 before any for check 6 (that a literal in place of a
pair passes the alignment check is the model's reading, log 24). -/
def Obligations.OperandFormsReadWriteAndAreChecked : Prop :=
  ((∀ (L : LCtx) (lk : LitK) (th : Thread) (i : BitVec 7),
     (i.toNat < 120 → readSrc L lk .w32 (.vec i) th = .ok ((th.vreg i.toNat).zext, th)) ∧
     readSrc L lk .w64 (.vec i) th = .ok (DWord.ofPair (th.vreg (i.toNat + 1)) (th.vreg i.toNat), th) ∧
     readSrc L lk .w32 (.uni i) th = .ok ((getAt 0 L.s i.toNat).zext, th) ∧
     readSrc L lk .w64 (.uni i) th = .ok (DWord.ofPair (getAt 0 L.s (i.toNat + 1)) (getAt 0 L.s i.toNat), th) ∧
     readSrc L .int .w32 (.lit i) th = .ok (Word.zext (i.signExtend 32), th) ∧
     readSrc L .int .w64 (.lit i) th = .ok (i.signExtend 64, th) ∧
     (∀ ty ∈ [Ty.f64, .f32, .f16, .bf16], ∃ m e, (fpOf ty).decode (litBits (.fp ty) i).toNat = .fin (decide (i.toInt < 0)) m e ∧
       ((0 ≤ e → m * 2 ^ e.toNat = i.toInt.natAbs) ∧ (e < 0 → m = i.toInt.natAbs * 2 ^ (-e).toNat)))) ∧
   (∀ (L : LCtx) (lk : LitK) (th : Thread) (i : BitVec 7) (l : Launch), L.launch = some l →
     let bank := fld th.cwin.toNat 7 3
     let entry := fun j => (aget ((aget l.consts bank).getD []) (128 * fld th.cwin.toNat 0 7 + j)).getD 0
     (getAt false l.constDefined bank = false →
       readSrc L lk .w32 (.cst i) th = .error (.trap .constantBank (BitVec.ofNat 64 bank) .nothing)) ∧
     (getAt false l.constDefined bank = true → (∀ p ∈ l.cbPending, p.1 = L.k → p.2.1 ≠ bank) →
       readSrc L lk .w32 (.cst i) th = .ok ((entry i.toNat).zext, th) ∧
       readSrc L lk .w64 (.cst i) th = .ok (DWord.ofPair (entry (i.toNat + 1)) (entry i.toNat), th))) ∧
   (∀ (L : LCtx) (lk : LitK) (w : Width) (f : Fields), L.log = none →
     srcA L lk w f = readSrc L lk w f.a ∧ srcC L lk w f = readSrc L lk w f.c ∧
     (f.imm = none → srcB L lk w f = readSrc L lk w f.b) ∧
     ∀ v th, f.imm = some v → srcB L lk .w64 f th = .ok (v, th) ∧ srcB L lk .w32 f th = .ok (v.lo.zext, th)) ∧
   (∀ (L : LCtx) (lk : LitK) (th : Thread) (i : BitVec 7), 120 ≤ i.toNat → i.toNat < 124 →
     (∀ e rest, getAt [] th.inq (i.toNat - 120) = e :: rest → e.err = none → e.stale = false →
       readSrc L lk .w32 (.vec i) th = .ok (e.val.zext, { th with inq := setAt th.inq (i.toNat - 120) rest })) ∧
     (getAt [] th.inq (i.toNat - 120) = [] → L.team.deadQueue (i.toNat - 120) = none →
       readSrc L lk .w32 (.vec i) th = .error .hold)) ∧
   (∀ (L : LCtx) (th : Thread) (i : BitVec 7) (ws : List Word), i.toNat < 120 →
     (∀ w, th.v.length = 120 → ∃ th', writeDst L .r1 i [w] th = .ok ((), th') ∧ th' = { th with v := th'.v } ∧
       ∀ j, th'.vreg j = if j = i.toNat then w else th.vreg j) ∧
     (∀ w0 w1, th.v.length = 120 → i.toNat < 119 → ∃ th', writeDst L .r2 i [w0, w1] th = .ok ((), th') ∧
       th' = { th with v := th'.v } ∧
       ∀ j, th'.vreg j = if j = i.toNat then w0 else if j = i.toNat + 1 then w1 else th.vreg j) ∧
     (∀ w0 w1 w2 w3, th.v.length = 120 → i.toNat < 117 → ∃ th', writeDst L .r4 i [w0, w1, w2, w3] th = .ok ((), th') ∧
       th' = { th with v := th'.v } ∧
       ∀ j, th'.vreg j = if i.toNat ≤ j ∧ j < i.toNat + 4 then getAt 0 [w0, w1, w2, w3] (j - i.toNat) else th.vreg j) ∧
     writeDst L .none i ws th = .ok ((), th)) ∧
   (∀ (L : LCtx) (th : Thread) (i : BitVec 7) (w : Word), 124 ≤ i.toNat → th.lateFaults = [] →
     (∀ a ∈ getAt [] th.addrq (i.toNat - 124), a.err = none) → L.team.deadQueue (i.toNat - 124 + 4) = none →
     let data := getAt [] th.outq (i.toNat - 124)
     (data.length < 16 → writeDst L .r1 i [w] th =
       .ok ((), { th with outq := setAt th.outq (i.toNat - 124) (data ++ [(L.now, w)]) })) ∧
     (16 ≤ data.length → writeDst L .r1 i [w] th = .error .hold)) ∧
   (∀ (us : List Word) (d : Nat) (ws : List Word) (j : Nat), d + ws.length ≤ us.length →
     getAt 0 (setUniform us d ws) j = if d ≤ j ∧ j < d + ws.length then getAt 0 ws (j - d) else getAt 0 us j)) ∧
  ((∀ (s : State) (idx : Nat) (r : Run) (f : Fields) (chk : Site → Option (Cause × DWord)) (uni trk : Bool)
       (regs : List Nat) (c : Cause) (v : DWord), Issuing s idx r → NoWait s r f regs false →
     chk (siteOf (s.team r.team) r.acc uni) = some (c, v) →
     prologue s f chk uni regs trk = .error (.next (trapLanes s r.team idx r.acc
       (r.lanes.map fun l => (l, { cause := c, tval := v, tpc := placeOf r }, .nothing))))) ∧
   (∀ (st : Site) (w : Width) (i : BitVec 7) (pos : Nat), st.accSlice = false →
     let bad := some (Cause.operandKind, opTval i.toNat pos)
     srcCheck5 st (.any w) (.vec i) pos =
       (if i.toNat < 120 then (if i.toNat % w.regs = 0 then none else bad)
        else if st.lodestar then some (.notOnLatencyCore, opTval i.toNat pos)
        else if w = .w32 ∧ st.hasAcc = true ∧ i.toNat < 124 then none else bad) ∧
     srcCheck5 st (.any w) (.uni i) pos = (if i.toNat < 64 ∧ i.toNat % w.regs = 0 then none else bad) ∧
     srcCheck5 st (.any w) (.cst i) pos = (if i.toNat % w.regs = 0 then none else bad) ∧
     srcCheck5 st (.any w) (.lit i) pos = none ∧
     srcCheck5 st (.regs w) (.cst i) pos = bad ∧ srcCheck5 st (.regs w) (.lit i) pos = bad ∧
     srcCheck6 st (.any w) (.vec i) pos =
       (if i.toNat < 120 ∧ st.alloc < i.toNat + w.regs then some (.registerRange, opTval i.toNat pos) else none)) ∧
   (∀ (st : Site) (i : BitVec 7),
     let bad := some (Cause.operandKind, opTval i.toNat 0)
     (st.uni = true → dstCheck5 st .r1 i = (if i.toNat < 64 then none else bad) ∧
       dstCheck5 st .r2 i = (if i.toNat < 64 ∧ i.toNat % 2 = 0 then none else bad) ∧ dstCheck6 st .r1 i = none) ∧
     (st.uni = false → st.lodestar = false →
       dstCheck5 st .r1 i = (if i.toNat < 120 ∨ (124 ≤ i.toNat ∧ st.hasAcc = true) then none else bad) ∧
       dstCheck5 st .r2 i = (if i.toNat < 120 ∧ i.toNat % 2 = 0 then none else bad) ∧
       dstCheck5 st .r4 i = (if i.toNat < 120 ∧ i.toNat % 4 = 0 then none else bad) ∧
       dstCheck6 st .r2 i =
         (if i.toNat < 120 ∧ st.alloc < i.toNat + 2 then some (.registerRange, opTval i.toNat 0) else none))) ∧
   (∀ (st : Site) (sh : Shape) (f : Fields) (e : Cause × DWord), dstCheck5 st sh.d f.dst = none →
     srcCheck5 st sh.a f.a 1 = none → srcCheck5 st sh.b f.b 2 = none → srcCheck5 st sh.c f.c 3 = some e →
     opChecks st sh f = some e))

/-! ### What computing forms leave; what every step keeps -/

/-- R32, R48, R51, R58: an instruction that computes words from what its lanes read changes only what its executing lanes
write, or one uniform register or pair of its team: `exec` answers a state in which places, windows and stamps move on, and every
other register, lane, team, special register and byte of memory stays. Reading a source takes at most one element of an operand
queue, and writing a result changes the registers, the predicate or the queue that DST names. A result pushed to an operand
queue may start a paired store. A uniform variant pops a queue source of its elected lane only: the model's choice (log 84). -/
def Obligations.ComputingFormsChangeOnlyTheirResult : Prop :=
  (∀ (i : Instr) (f : Fields) (act : LCtx → LaneM (List Word)) (s : State) (idx : Nat) (r : Run) (out : Nat → Thread),
    Computes i f false act → GoesOp s idx r i f false → Plain s r →
    (∀ l ∈ execLanes s r f, (out l).NoDoomed ∧ (out l).replay = [] ∧
      ∃ ws th, LaneGives s (groupOf s idx r f) act l ws th ∧
        writeDst ((groupOf s idx r f).lctx s l) i.shape.d f.dst ws th = .ok ((), out l)) →
    ∃ t0 evs n, exec i s = .next { t0 with flight := t0.flight ++ evs, serial := n } ∧
      PassedWith s t0 r (fun l => if l ∈ execLanes s r f then out l else laneOf s r l) ∧
      ContinueAt t0 r (fun _ => (placeAfter r f, none)) ∧
      (i.shape.d ≠ .r1 ∨ f.dst.toNat < 124 → exec i s = .next t0)) ∧
  (∀ (i : Instr) (f : Fields) (act : LCtx → LaneM (List Word)) (s : State) (idx : Nat) (r : Run) (tm : Team) (l : Nat)
      (ls : List Nat) (ws : List Word) (th : Thread),
    Computes i f true act → GoesOp s idx r i f true → Plain s r → aget s.teams r.team = some tm → execLanes s r f = l :: ls →
    th.NoDoomed → th.replay = [] → LaneGives s (groupOf s idx r f) act l ws th →
    let s1 := s.setTeam r.team { tm with s := setUniform tm.s f.dst.toNat ws }
    ∃ t, exec i s = .next t ∧ PassedWith s1 t r (fun j => if j = l then th else laneOf s r j) ∧
      ContinueAt t r fun _ => (placeAfter r f, none)) ∧
  (∀ (i : Instr) (f : Fields) (act : LCtx → LaneM (List Word)) (s : State) (idx : Nat) (r : Run), Computes i f true act →
    GoesOp s idx r i f true → Plain s r → execLanes s r f = [] →
    ∃ t, exec i s = .next t ∧ PassedWith s t r (laneOf s r) ∧ ContinueAt t r fun _ => (placeAfter r f, none)) ∧
  (∀ (L : LCtx) (d : DUse) (dst : BitVec 7) (ws : List Word) (th th' : Thread), ws ≠ [] →
    writeDst L d dst ws th = .ok ((), th') →
    th' = { th with v := th'.v, p := th'.p, outq := th'.outq } ∧
    (∀ j, d = .none ∨ d = .pr ∨ j < dst.toNat ∨ dst.toNat + ws.length ≤ j → th'.vreg j = th.vreg j) ∧
    (∀ j, d ≠ .pr ∨ j ≠ dst.toNat → th'.pred j = th.pred j) ∧
    ∀ q, d ≠ .r1 ∨ dst.toNat < 120 ∨ q ≠ dst.toNat - 124 → getAt [] th'.outq q = getAt [] th.outq q) ∧
  ∀ (L : LCtx) (lk : LitK) (w : Width) (src : Src) (th th' : Thread) (v : DWord), readSrc L lk w src th = .ok (v, th') →
    th' = { th with inq := th'.inq, vstale := th'.vstale } ∧
    ((∀ i, src = .vec i → w ≠ .w32 ∨ i.toNat < 120) → th' = th) ∧
    ∀ q, getAt [] th'.inq q = getAt [] th.inq q ∨ ∃ e, getAt [] th.inq q = e :: getAt [] th'.inq q

/-- Every step keeps memory's canonical form: addresses strictly rise and no listed byte is 0. -/
def Obligations.EveryStepKeepsMemoryCanonical : Prop :=
  ∀ s t : State, s.mem.wf = true → step s = .next t → t.mem.wf = true

/-- R88, R146, R453: right after reset no team, run or context is present, memory lists nothing and is in canonical
form, every byte of it reads 0 (the model's choice, log 2), MNUM is 511 and the device has not started; the first step
starts it, by the outcome that its environment brings. -/
def Obligations.ResetLeavesTheDeviceUnstarted : Prop :=
  State.reset.mem.wf = true ∧ (∀ a, State.reset.mem.byte a = 0) ∧ State.reset.teams = [] ∧ State.reset.runs = [] ∧
  (∀ c, (State.reset.ctx c).enabled = false) ∧ State.reset.mnum = 511 ∧ State.reset.cycles = 0 ∧
  State.reset.dev.started = false ∧
  ∀ s : State, s.dev.started = false → step s = exec (.boot (freeBoot s)) { s with freeCtr := s.freeCtr + 3 }
end

