-- ==== Sys2Proof/Laws/Issue.lean ====
section
/-! SUPPORT. What the shared operations of an issue do, said once: the checks before an instruction, an instruction that
computes words, and one with an effect. -/

namespace Sys2Proof.Machine

/-- The executing lanes of a run, as the operation that checks an instruction collects them. -/
theorem execLanes_eq (s : State) (r : Run) (f : Fields) :
    (((r.lanes.map fun l => (l, threadIn s r.team r.acc l)).filter fun p => f.executes p.2).map (·.1)) =
      execLanes s r f := by
  simp only [execLanes, laneOf, List.filter_map, List.map_map]
  have : ((·.1) ∘ fun l => (l, threadIn s r.team r.acc l) : Nat → Nat) = id := rfl
  rw [this, List.map_id]
  rfl

/-- The executing lane whose operands are read, as the operation that checks an instruction finds it. -/
theorem head_execLanes (s : State) (r : Run) (f : Fields) :
    (((r.lanes.map fun l => (l, threadIn s r.team r.acc l)).filter fun p => f.executes p.2).head?.map (·.1)) =
      (execLanes s r f).head? := by
  rw [← List.head?_map, execLanes_eq]

/-- A run that goes through an instruction is the group that executes it. -/
theorem prologue_goes {s : State} {idx : Nat} {r : Run} {f : Fields} {chk : Site → Option (Cause × DWord)} {uni : Bool}
    {regs : List Nat} {trk : Bool} (h : Goes s idx r f chk uni regs trk) :
    prologue s f chk uni regs trk = .ok (groupOf s idx r f) := by
  obtain ⟨⟨hc, hr⟩, hw, hk⟩ := h
  have h1 : ((r.lanes.map fun l => (l, threadIn s r.team r.acc l)).filter fun p =>
      windowOver (if uni && (execLanes s r f).head? != some p.1 then [] else f.touches regs p.2) p.2) = [] := by
    rw [List.filter_eq_nil_iff]
    intro p hp
    obtain ⟨l, hl, rfl⟩ := List.mem_map.1 hp
    exact Bool.eq_false_iff.1 (hw l hl).1
  have h2 : ((r.lanes.map fun l => (l, threadIn s r.team r.acc l)).filter fun p =>
      (r.off != 0 && waitHolds r.hdr r.idx p.2) ||
        mustWait (if uni && (execLanes s r f).head? != some p.1 then [] else f.touches regs p.2) p.2) = [] := by
    rw [List.filter_eq_nil_iff]
    intro p hp
    obtain ⟨l, hl, rfl⟩ := List.mem_map.1 hp
    have hm : mustWait (if uni && (execLanes s r f).head? != some l then [] else f.touches regs (threadIn s r.team r.acc l))
      (threadIn s r.team r.acc l) = false := (hw l hl).2.1
    have hh : r.off ≠ 0 → waitHolds r.hdr r.idx (threadIn s r.team r.acc l) = false := (hw l hl).2.2.1
    rw [hm]
    by_cases ho : r.off = 0 <;> simp_all
  have h3 : ((r.lanes.map fun l => (l, threadIn s r.team r.acc l)).filter fun p =>
      trk && f.executes p.2 && p.2.dcOf f.dc == Config.dcMax) = [] := by
    rw [List.filter_eq_nil_iff]
    intro p hp
    obtain ⟨l, hl, rfl⟩ := List.mem_map.1 hp
    have h : trk = true → f.executes (threadIn s r.team r.acc l) = true →
      (threadIn s r.team r.acc l).dcOf f.dc ≠ Config.dcMax := (hw l hl).2.2.2
    simp only [Bool.and_eq_true, beq_iff_eq, not_and, and_imp]
    exact h
  simp only [prologue, hc, hr, head_execLanes, h1, List.map_nil, List.isEmpty_nil, Bool.not_true, Bool.false_eq_true, if_false, h2,
    hk]
  simp only [execLanes_eq, h3, List.map_nil, List.isEmpty_nil, Bool.not_true, Bool.false_eq_true, if_false, groupOf,
    placeOf, placeAfter, beq_iff_eq]

theorem anyHold_ok {α : Type} (ls : List Nat) (f : Nat → Except LaneStop α) (v : Nat → α)
    (h : ∀ l ∈ ls, f l = .ok (v l)) : anyHold (ls.map fun l => (l, f l)) = false := by
  rw [anyHold, List.any_eq_false]
  intro p hp
  obtain ⟨l, hl, rfl⟩ := List.mem_map.1 hp
  simp [h l hl]

theorem oksOf_ok {α : Type} (ls : List Nat) (f : Nat → Except LaneStop α) (v : Nat → α)
    (h : ∀ l ∈ ls, f l = .ok (v l)) : oksOf (ls.map fun l => (l, f l)) = ls.map fun l => (l, v l) := by
  induction ls with
  | nil => rfl
  | cons a t ih =>
    have ha := h a (by simp)
    have := ih fun l hl => h l (by simp [hl])
    simp only [oksOf, List.map_cons, List.filterMap_cons, ha] at this ⊢
    rw [this]

theorem trapsOf_ok {α : Type} (here : DWord) (ls : List Nat) (f : Nat → Except LaneStop α) (v : Nat → α)
    (h : ∀ l ∈ ls, f l = .ok (v l)) : trapsOf here (ls.map fun l => (l, f l)) = [] := by
  rw [trapsOf, List.filterMap_eq_nil_iff]
  intro p hp
  obtain ⟨l, hl, rfl⟩ := List.mem_map.1 hp
  simp [h l hl]

/-- No lane traps: nothing is trapped. -/
@[simp] theorem trapLanes_nil (s : State) (k idx : Nat) (acc : Bool) : trapLanes s k idx acc [] = s := by
  simp [trapLanes]

/-- An instruction that computes words (R48, R51). -/
theorem valueOp_computesAt {s : State} {i : Instr} {f : Fields} {uni : Bool} {act : LCtx → LaneM (List Word)}
    (h : exec i s = valueOp s i f uni act) : ComputesAt s i f uni act := by
  intro idx r hg
  have hp := prologue_goes hg
  simp only [regsOf] at hp
  refine ⟨?_, ?_, ?_⟩
  · intro hu out ho
    subst hu
    have hl : ∀ l ∈ execLanes s r f, (groupOf s idx r f).runLane s
        (fun L => do let ws ← act L; writeDst L i.shape.d f.dst ws) l = .ok ((), out l) := by
      intro l hl
      obtain ⟨ws, th, h1, h2⟩ := ho l hl
      simp only [LaneGives] at h1
      simp only [Grp.runLane, bind, StateT.bind, Except.bind, h1]
      exact h2
    rw [h, valueOp]
    simp only [hp, Bool.false_eq_true, if_false]
    have he : (groupOf s idx r f).e = execLanes s r f := rfl
    rw [he, anyHold_ok _ _ (fun l => ((), out l)) hl, oksOf_ok _ _ (fun l => ((), out l)) hl,
      trapsOf_ok _ _ _ (fun l => ((), out l)) hl]
    simp only [complete, trapLanes_nil, List.map_map, Bool.false_eq_true, if_false, next]
    congr 2
    exact List.map_id _
  · intro hu he
    subst hu
    rw [h, valueOp]
    have he' : (groupOf s idx r f).e = [] := he
    simp only [hp, if_true, he', next]
  · intro hu l ls ws th he hl
    subst hu
    rw [h, valueOp]
    have he' : (groupOf s idx r f).e = l :: ls := he
    simp only [LaneGives] at hl
    simp only [hp, if_true, he', next, Grp.runLane, hl, complete, trapLanes_nil]
    rfl

theorem valueOp_computes {i : Instr} {f : Fields} {uni : Bool} {act : LCtx → LaneM (List Word)}
    (h : ∀ s, exec i s = valueOp s i f uni act) : Computes i f uni act := fun s => valueOp_computesAt (h s)

theorem pushQ_push_ok {L : LCtx} {q : Nat} {w : Word} (w' : Word) {th o : Thread}
    (h : pushQ.push L q w th = .ok ((), o)) : ∃ o', pushQ.push L q w' th = .ok ((), o') := by
  simp only [pushQ.push] at h ⊢
  split at h
  · split at h
    · exact absurd h (by simp)
    · exact ⟨_, if_neg ‹_›⟩
  · split at h
    · exact ⟨_, if_pos ‹_›⟩
    · exact absurd h (by simp)

/-- Whether a push completes does not depend on the word (R46). -/
theorem pushQ_ok {L : LCtx} {q : Nat} {w : Word} (w' : Word) {th o : Thread} (h : pushQ L q w th = .ok ((), o)) :
    ∃ o', pushQ L q w' th = .ok ((), o') := by
  simp only [pushQ] at h ⊢
  split at h
  · exact absurd h (by simp)
  · rename_i hf
    simp only [pushQ_push_ok w' h]

/-- Whether a destination can be written does not depend on the words. -/
theorem writeDst_ok {L : LCtx} {d : DUse} {dst : BitVec 7} {ws : List Word} (ws' : List Word) {th o : Thread}
    (h : writeDst L d dst ws th = .ok ((), o)) : ∃ o', writeDst L d dst ws' th = .ok ((), o') := by
  cases d <;> simp only [writeDst] at h ⊢
  case none => exact ⟨_, rfl⟩
  case pr => exact ⟨_, rfl⟩
  case r1 =>
    split at h
    · rename_i hd
      simp only [hd, if_true]
      exact pushQ_ok _ h
    · rename_i hd
      simp only [hd, if_false]
      exact ⟨_, rfl⟩
  case r2 => exact ⟨_, rfl⟩
  case r4 => exact ⟨_, rfl⟩

/-- An instruction that is collective over the executing threads (R261). -/
theorem collectOp_collects {α : Type} {i : Instr} {f : Fields} {uni : Bool} {rd : LCtx → LaneM α}
    {res : List (Nat × α) → Nat → α → List Word} (h : ∀ s, exec i s = collectOp s i f uni rd res) :
    Collects i f uni rd res := by
  intro s idx r hg val th hv
  have hp := prologue_goes hg
  simp only [regsOf] at hp
  have he' : (groupOf s idx r f).e = execLanes s r f := rfl
  have hk : (groupOf s idx r f).k = r.team := rfl
  have ha : (groupOf s idx r f).run.acc = r.acc := rfl
  simp only [LaneGives] at hv
  refine ⟨?_, ?_, ?_⟩
  · intro hu out ho
    subst hu
    have hl : ∀ l ∈ execLanes s r f, (groupOf s idx r f).runLane s (fun L => do
        let a ← rd L
        let th ← getTh
        if false then return a
        else do
          writeDst L i.shape.d f.dst [0, 0]
          modTh fun _ => th
          return a) l = .ok (val l, th l) := by
      intro l hl
      obtain ⟨o', h2⟩ := writeDst_ok [0, 0] (ho l hl)
      simp only [Grp.runLane, bind, StateT.bind, Except.bind, hv l hl, getTh, Bool.false_eq_true, if_false, h2, modTh]
      rfl
    have hm : ∀ l ∈ execLanes s r f,
        (match writeDst ((groupOf s idx r f).lctx s l) i.shape.d f.dst
          (res ((execLanes s r f).map fun l => (l, val l)) l (val l)) (th l) with
        | .ok ((), t) => (l, t)
        | .error _ => (l, th l)) = (l, out l) := by
      intro l hl
      rw [ho l hl]
    rw [h, collectOp]
    simp only [hp, he', hk, ha]
    rw [anyHold_ok _ _ (fun l => (val l, th l)) hl, oksOf_ok _ _ (fun l => (val l, th l)) hl,
      trapsOf_ok _ _ _ (fun l => (val l, th l)) hl]
    simp only [complete, trapLanes_nil, List.map_map, Bool.false_eq_true, if_false, next, hk, ha]
    have hmap := List.map_congr_left hm
    congr 2
    · congr 2
    · exact List.map_id _
  · intro hu he
    subst hu
    rw [h, collectOp]
    have he0 : (groupOf s idx r f).e = [] := he
    simp only [hp, if_true, he0, next, List.map_nil, anyHold, oksOf, trapsOf, List.any_nil, List.filterMap_nil, complete,
      trapLanes_nil, Bool.false_eq_true, if_false]
    rfl
  · intro hu m ls he
    subst hu
    have hl : ∀ l ∈ execLanes s r f, (groupOf s idx r f).runLane s (fun L => do
        let a ← rd L
        let _ ← getTh
        return a) l = .ok (val l, th l) := by
      intro l hl
      simp only [Grp.runLane, bind, StateT.bind, Except.bind, hv l hl, getTh]
      rfl
    rw [h, collectOp]
    simp only [hp, he', hk, ha, if_true]
    rw [anyHold_ok _ _ (fun l => (val l, th l)) hl, oksOf_ok _ _ (fun l => (val l, th l)) hl,
      trapsOf_ok _ _ _ (fun l => (val l, th l)) hl]
    simp only [complete, trapLanes_nil, List.map_map, Bool.false_eq_true, if_false, next, hk, ha]
    rw [he]
    rfl

theorem holdsOf_ok {α : Type} (ls : List Nat) (v : Nat → α) :
    holdsOf (ls.map fun l => (l, (.ok (v l) : Except LaneStop α))) = [] := by
  induction ls with
  | nil => rfl
  | cons a t ih => simpa only [holdsOf, List.map_cons, List.filter_cons, Bool.false_eq_true, if_false] using ih

@[simp] theorem undoLanes_nil (s0 s : State) (g : Grp) : undoLanes s0 s g [] = s := rfl

@[simp] theorem trapForm_nil (s : State) (g : Grp) (i : Instr) (f : Fields) : trapForm s g i f [] = s := rfl

@[simp] theorem trapTracked_nil (s : State) (g : Grp) (id la : Nat) (dsts : List Nat) (log : LCtx → LaneM LogRec) :
    trapTracked s g id la dsts log [] = s := rfl

/-- An instruction with an effect, each lane of which completes. -/
theorem effectOp_effects {i : Instr} {f : Fields} {extra : Site → Option (Cause × DWord)}
    {act : State → LCtx → Thread → Except AccStop (List Word × Thread × State)}
    (h : ∀ s, exec i s = effectOp s i f extra act) : Effects i f extra act := by
  intro s idx r th s1 hg ha
  have hp := prologue_goes hg
  simp only [regsOf] at hp
  simp only [AllOk] at ha
  have he : (groupOf s idx r f).e = execLanes s r f := rfl
  rw [h, effectOp]
  simp only [hp, ha, he, holdsOf_ok]
  rw [oksOf_ok _ _ (fun l => ((), th l)) (fun _ _ => rfl), trapsOf_ok _ _ _ (fun l => ((), th l)) (fun _ _ => rfl)]
  simp only [trapForm_nil, List.map_map, next]
  congr 2
  exact List.map_id _

/-- A form that reads operands for each lane and then acts for the group, each lane of which completes. -/
theorem lanesThen_reads {α : Type} {i : Instr} {x : XOps}
    {waits : Grp → State → Option (Host.Outcome State Fault Refusal)}
    {rd : State → LCtx → Thread → Except AccStop (α × Thread × State)}
    {res : State → State → Grp → List (Nat × α) → State}
    {k : State → State → Grp → List (Nat × α) → List (Nat × TrapRec × Retain) → Host.Outcome State Fault Refusal}
    (h : ∀ s, exec i s = lanesThen s i x waits rd (k s)) (hk : ∀ s s1 g vals, k s s1 g vals [] = .next (res s s1 g vals)) :
    ReadsThen i x waits rd res := by
  intro s idx r v th s1 hg hw ha
  have hp := prologue_goes hg
  simp only [regsOf] at hp
  simp only [AllOk] at ha
  have he : (groupOf s idx r (ofX x)).e = execLanes s r (ofX x) := rfl
  rw [h, lanesThen]
  simp only [hp, hw, ha, he, holdsOf_ok]
  rw [oksOf_ok _ _ (fun l => (v l, th l)) (fun _ _ => rfl), trapsOf_ok _ _ _ (fun l => (v l, th l)) (fun _ _ => rfl)]
  simp only [List.map_map, hk]
  rfl

/-- A load or an atomic operation, each lane of which issues (R53, R57). -/
theorem startOps_ok {s s1 : State} {g : Grp} {dsts : List Nat} {decided : Bool}
    {act : State → LCtx → Thread → Except AccStop (Started × Thread × State)} {log : LCtx → LaneM LogRec}
    {v : Nat → Started} {th : Nat → Thread} (ha : AllOk g { s with serial := s.serial + 1 } act v th s1) :
    startOps s g dsts decided act log =
      .next (finishNext (startedOps s1 g s.serial (g.la s) dsts decided (g.e.map fun l => (l, v l, th l))) g) := by
  simp only [AllOk] at ha
  simp only [startOps, ha, holdsOf_ok]
  rw [oksOf_ok _ _ (fun l => (v l, th l)) (fun _ _ => rfl), trapsOf_ok _ _ _ (fun l => (v l, th l)) (fun _ _ => rfl)]
  simp only [List.map_map, trapTracked_nil, next]
  rfl

/-- A store or a RED, each lane of which issues (R159). -/
theorem startStores_ok {s s1 : State} {g : Grp}
    {act : State → LCtx → Thread → Nat → Except AccStop ((StoreEntry × LogRec) × Thread × State)}
    {log : LCtx → LaneM LogRec} {v : Nat → StoreEntry × LogRec} {th : Nat → Thread}
    (ha : AllOk g { s with serial := s.serial + 1 } (fun s' L th => act s' L th s.serial) v th s1) :
    startStores s g act log =
      .next (finishNext (startedStores s1 g (g.act.any fun l => !(g.thread s l).replay.isEmpty)
        (g.e.map fun l => (l, (v l).1, th l))) g) := by
  simp only [AllOk] at ha
  simp only [startStores, ha, holdsOf_ok]
  rw [oksOf_ok _ _ (fun l => (v l, th l)) (fun _ _ => rfl), trapsOf_ok _ _ _ (fun l => (v l, th l)) (fun _ _ => rfl)]
  simp only [List.map_map, List.foldl_nil, ite_self, trapTracked_nil, next]
  rfl

/-- Threads that have decided every earlier instruction have none undecided. -/
theorem undecided_none {s : State} {idx : Nat} {r : Run} {f : Fields} (h : Settled s r f) (p : TOp → Bool) :
    (execLanes s r f).filter (fun l => ((groupOf s idx r f).thread s l).ops.any fun o => !o.decided && p o) = [] := by
  rw [List.filter_eq_nil_iff]
  intro l hl
  simp only [List.any_eq_true, Bool.and_eq_true, Bool.not_eq_true', not_exists, not_and]
  intro o ho hd
  simp [h l hl o ho] at hd

/-- A group whose threads have decided every earlier instruction waits for none. -/
theorem settle_settled {s : State} {idx : Nat} {r : Run} {f : Fields} (h : Settled s r f) :
    (groupOf s idx r f).settle s = none := by
  have he : (groupOf s idx r f).e = execLanes s r f := rfl
  have hu := undecided_none (idx := idx) h fun _ => true
  simp only [Bool.and_true] at hu
  simp only [Grp.settle, he, hu]

theorem await_settled {s : State} {idx : Nat} {r : Run} {f : Fields} (h : Settled s r f) :
    (groupOf s idx r f).await s = none := by
  have he : (groupOf s idx r f).e = execLanes s r f := rfl
  simp only [Grp.await, he, undecided_none (idx := idx) h fun o => o.doomed.isNone]

/-- An engine operation whose checks pass issues (R208, R212). -/
theorem engineOp_enqueues {i : Instr} {x : XOps}
    {mk : State → Grp → LCtx → LogRec → Thread → Except AccStop (Prepared × Thread × State)}
    (h : ∀ s, exec i s = engineOp s i x mk) : Enqueues i x mk := by
  intro s s1 idx r l ls lr th th1 p hg he g hl hm
  have hp := prologue_goes hg
  simp only [regsOf] at hp
  have he' : (groupOf s idx r (ofX x)).e = l :: ls := he
  rw [h, engineOp]
  simp only [hp, he']
  have hl' : logOperands i (ofX x) i.shape (groupOf s idx r (ofX x)).here ((groupOf s idx r (ofX x)).lctx s l)
    ((groupOf s idx r (ofX x)).thread s l) = .ok (lr, th) := hl
  have hm' : mk { s with serial := s.serial + 1 } (groupOf s idx r (ofX x)) ((groupOf s idx r (ofX x)).lctx s l) lr th =
    .ok (p, th1, s1) := hm
  simp only [hl', hm', next]
  rfl

theorem foundWords_ok (ls : List Nat) (w : Nat → Word) :
    foundWords (ls.map fun l => (l, .ok (w l))) = ls.map fun l => (l, w l) := by
  induction ls with
  | nil => rfl
  | cons a t ih => exact congrArg ((a, w a) :: ·) ih

theorem foundTraps_ok (g : Grp) (ls : List Nat) (w : Nat → Word) : foundTraps g (ls.map fun l => (l, .ok (w l))) = [] := by
  induction ls with
  | nil => rfl
  | cons a t ih => simp [foundTraps, List.filterMap_map]

/-- Lanes whose destinations take their words trap for none. -/
theorem writeEach_free {s : State} {i : Instr} {f : Fields} {g : Grp} {vals : List (Nat × Word)} (here : DWord)
    (h : ∀ p ∈ vals, ∃ o, writeDst (g.lctx s p.1) i.shape.d f.dst [p.2] (g.thread s p.1) = .ok ((), o)) :
    trapsOf here (writeEach s i f g vals) = [] := by
  rw [trapsOf, List.filterMap_eq_nil_iff]
  intro q hq
  obtain ⟨p, hp, rfl⟩ := List.mem_map.1 hq
  obtain ⟨o, ho⟩ := h p hp
  simp only [ho]

/-- A form that answers tokens, with a word for each lane. -/
theorem tokenForm_looksUp {i : Instr} {x : XOps}
    {look : State → Nat → Nat → Word → Except (Cause × DWord) Word × State} (h : ∀ s, exec i s = tokenForm i x s look) :
    LooksUp i x look := by
  intro s s1 s2 idx r v w th out hg ha hl hz ho
  have hp := prologue_goes hg
  simp only [regsOf] at hp
  simp only [AllOk] at ha
  have he : (groupOf s idx r (ofX x)).e = execLanes s r (ofX x) := rfl
  have hk : (groupOf s idx r (ofX x)).k = r.team := rfl
  have hr : (groupOf s idx r (ofX x)).run = r := rfl
  rw [h, tokenForm, lanesThen]
  simp only [hp, ha, he, noWait, holdsOf_ok]
  rw [oksOf_ok _ _ (fun l => (v l, th l)) (fun _ _ => rfl), trapsOf_ok _ _ _ (fun l => (v l, th l)) (fun _ _ => rfl)]
  have hm1 : (((execLanes s r (ofX x)).map fun l => (l, v l, th l)).map fun p => (p.1, p.2.1)) =
      (execLanes s r (ofX x)).map fun l => (l, v l) := by rw [List.map_map]; rfl
  have hm2 : (((execLanes s r (ofX x)).map fun l => (l, v l, th l)).map fun p =>
      (p.1, p.2.2.noting (groupOf s idx r (ofX x)).here ((groupOf s idx r (ofX x)).thread s p.1))) =
      notedLanes s r (execLanes s r (ofX x)) th := by rw [List.map_map]; rfl
  have h0 : trapsOf (groupOf s idx r (ofX x)).here (writeEach
      (setThreads s1 r.team r.acc (notedLanes s r (execLanes s r (ofX x)) th)) i (ofX x) (groupOf s idx r (ofX x))
      (((execLanes s r (ofX x)).map fun l => (l, v l)).map fun p => (p.1, 0))) = [] := by
    apply writeEach_free
    intro p hp
    simp only [List.map_map, List.mem_map] at hp
    obtain ⟨l, hl, rfl⟩ := hp
    exact hz l hl
  have hf : ((execLanes s r (ofX x)).map fun l => (l, v l)).filter (fun _ => true) =
      (execLanes s r (ofX x)).map fun l => (l, v l) := List.filter_eq_self.2 fun _ _ => rfl
  simp only [hm1, hm2]
  simp only [hk, hr, h0, List.any_nil, Bool.not_false, hf, List.map_nil, undoLanes_nil, List.append_nil, hl,
    completeWords]
  simp only [foundWords_ok, foundTraps_ok, writeEach, List.map_map]
  have h5 : (execLanes s r (ofX x)).map ((fun p : Nat × Word => (p.1, writeDst ((groupOf s idx r (ofX x)).lctx s2 p.1) i.shape.d
      (ofX x).dst [p.2] ((groupOf s idx r (ofX x)).thread s2 p.1))) ∘ fun l => (l, w l)) =
      (execLanes s r (ofX x)).map fun l => (l, writeDst ((groupOf s idx r (ofX x)).lctx s2 l) i.shape.d x.dst [w l]
        ((groupOf s idx r (ofX x)).thread s2 l)) := rfl
  rw [h5, anyHold_ok _ _ (fun l => ((), out l)) ho, oksOf_ok _ _ (fun l => ((), out l)) ho,
    trapsOf_ok _ _ _ (fun l => ((), out l)) ho]
  simp only [complete, List.append_nil, trapLanes_nil, List.map_map, Bool.false_eq_true, if_false, next, hk, hr]
  congr 2
  exact List.map_id _

end Sys2Proof.Machine
end

