-- ==== Sys2Proof/Laws/State.lean ====
section
/-! SUPPORT. Maps, lists, threads and teams: what the named updates change and what they leave. -/

namespace Sys2Proof.Machine

/-! ### Maps -/

@[simp] theorem aget_aset_same {α : Type} (m : AList α) (k : Nat) (v : α) : aget (aset m k v) k = some v := by
  induction m with
  | nil => simp [aset, aget]
  | cons p r ih => obtain ⟨k', v'⟩ := p; by_cases h : k' = k <;> simp [aset, aget, h, ih]

@[simp] theorem aget_aset_other {α : Type} (m : AList α) {k k' : Nat} (v : α) (h : k ≠ k') :
    aget (aset m k v) k' = aget m k' := by
  induction m with
  | nil => simp [aset, aget, h]
  | cons p r ih =>
    obtain ⟨j, v'⟩ := p
    by_cases hj : j = k
    · subst hj; simp [aset, aget, h]
    · simp only [aset, hj, if_false, aget, ih]

theorem aget_aset {α : Type} (m : AList α) (k k' : Nat) (v : α) :
    aget (aset m k v) k' = if k' = k then some v else aget m k' := by
  by_cases h : k' = k
  · subst h; simp
  · simp [h, aget_aset_other m v (Ne.symm h)]

@[simp] theorem aget_adel_same {α : Type} (m : AList α) (k : Nat) : aget (adel m k) k = none := by
  induction m with
  | nil => rfl
  | cons p r ih => obtain ⟨k', v'⟩ := p; by_cases h : k' = k <;> simp [adel, aget, h, ih]

@[simp] theorem aget_adel_other {α : Type} (m : AList α) {k k' : Nat} (h : k ≠ k') :
    aget (adel m k) k' = aget m k' := by
  induction m with
  | nil => rfl
  | cons p r ih =>
    obtain ⟨j, v'⟩ := p
    by_cases hj : j = k
    · subst hj; simp [adel, aget, h, ih]
    · simp only [adel, hj, if_false, aget, ih]

/-! ### Positions of lists -/

@[simp] theorem length_setAt {α : Type} (l : List α) (n : Nat) (v : α) : (setAt l n v).length = l.length := by
  induction l generalizing n with
  | nil => rfl
  | cons x r ih => cases n <;> simp [setAt, ih]

theorem getAt_setAt_same {α : Type} (d : α) {l : List α} {n : Nat} (v : α) (h : n < l.length) :
    getAt d (setAt l n v) n = v := by
  induction l generalizing n with
  | nil => exact absurd h (by simp)
  | cons x r ih =>
    cases n with
    | zero => rfl
    | succ n => exact ih (by simpa using h)

@[simp] theorem getAt_setAt_other {α : Type} (d : α) (l : List α) {n m : Nat} (v : α) (h : n ≠ m) :
    getAt d (setAt l n v) m = getAt d l m := by
  induction l generalizing n m with
  | nil => rfl
  | cons x r ih =>
    cases n with
    | zero => cases m with
      | zero => exact absurd rfl h
      | succ m => rfl
    | succ n => cases m with
      | zero => rfl
      | succ m => exact ih (by omega)

theorem setAt_ge {α : Type} {l : List α} {n : Nat} (v : α) (h : l.length ≤ n) : setAt l n v = l := by
  induction l generalizing n with
  | nil => rfl
  | cons x r ih =>
    cases n with
    | zero => exact absurd h (by simp)
    | succ n => simp only [setAt]; rw [ih (by simpa using h)]

theorem setAt_getElem? {α : Type} (l : List α) (n m : Nat) (v : α) :
    (setAt l n v)[m]? = if m = n ∧ n < l.length then some v else l[m]? := by
  induction l generalizing n m with
  | nil => simp [setAt]
  | cons x r ih =>
    cases n with
    | zero => cases m <;> simp [setAt]
    | succ n => cases m <;> simp [setAt, ih]

/-! ### Registers of a thread (R47, R51, R52) -/

@[simp] theorem vreg_setV_same (th : Thread) (i : Nat) (w : Word) (h : i < th.v.length) : (th.setV i w).vreg i = w :=
  getAt_setAt_same 0 w h

@[simp] theorem vreg_setV_other (th : Thread) {i j : Nat} (w : Word) (h : i ≠ j) : (th.setV i w).vreg j = th.vreg j :=
  getAt_setAt_other 0 th.v w h

@[simp] theorem length_setV (th : Thread) (i : Nat) (w : Word) : (th.setV i w).v.length = th.v.length :=
  length_setAt th.v i w

/-- Writing consecutive registers leaves the registers outside them. -/
theorem vreg_setVs_other (th : Thread) (i : Nat) (ws : List Word) {j : Nat} (h : j < i ∨ i + ws.length ≤ j) :
    (th.setVs i ws).vreg j = th.vreg j := by
  induction ws generalizing th i with
  | nil => rfl
  | cons w ws ih =>
    simp only [List.length_cons] at h
    rw [Thread.setVs, ih _ _ (by omega), vreg_setV_other _ _ (by omega)]

/-- Consecutive registers hold the words written to them. -/
theorem vreg_setVs_same (th : Thread) (i : Nat) (ws : List Word) {n : Nat} (hn : n < ws.length)
    (h : i + ws.length ≤ th.v.length) : (th.setVs i ws).vreg (i + n) = getAt 0 ws n := by
  induction ws generalizing th i n with
  | nil => exact absurd hn (by simp)
  | cons w ws ih =>
    simp only [List.length_cons] at h hn
    cases n with
    | zero =>
      rw [Thread.setVs, vreg_setVs_other _ _ _ (by omega)]
      exact vreg_setV_same th i w (by omega)
    | succ n =>
      rw [Thread.setVs, show i + (n + 1) = i + 1 + n by omega, ih _ _ (by omega) (by rw [length_setV]; omega)]
      rfl

/-- What writing registers leaves of a thread: everything but `v`. -/
theorem setVs_eq (th : Thread) (i : Nat) (ws : List Word) : th.setVs i ws = { th with v := (th.setVs i ws).v } := by
  induction ws generalizing th i with
  | nil => rfl
  | cons w ws ih => rw [Thread.setVs, ih]; rfl

/-! ### Threads and teams of the state -/

@[simp] theorem thread_setThread_same (t : Team) {l : Nat} (th : Thread) (h : l < t.threads.length) :
    (t.setThread l th).thread l = th := getAt_setAt_same _ th h

@[simp] theorem thread_setThread_other (t : Team) {l l' : Nat} (th : Thread) (h : l ≠ l') :
    (t.setThread l th).thread l' = t.thread l' := getAt_setAt_other _ t.threads th h

@[simp] theorem length_setThread (t : Team) (l : Nat) (th : Thread) :
    (t.setThread l th).threads.length = t.threads.length := length_setAt t.threads l th

theorem modTeam_some {s : State} {k : Nat} {t : Team} (f : Team → Team) (h : aget s.teams k = some t) :
    s.modTeam k f = { s with teams := aset s.teams k (f t) } := by
  simp only [State.modTeam, h]
  rfl

theorem modTeam_none {s : State} {k : Nat} (f : Team → Team) (h : aget s.teams k = none) : s.modTeam k f = s := by
  simp only [State.modTeam, h]

/-- Changing a team leaves everything but the teams. -/
theorem modTeam_eq (s : State) (k : Nat) (f : Team → Team) : s.modTeam k f = { s with teams := (s.modTeam k f).teams } := by
  cases h : aget s.teams k with
  | none => rw [modTeam_none f h]
  | some t => rw [modTeam_some f h]

theorem aget_modTeam (s : State) (k k' : Nat) (f : Team → Team) :
    aget (s.modTeam k f).teams k' = if k' = k then (aget s.teams k).map f else aget s.teams k' := by
  cases h : aget s.teams k with
  | none =>
    rw [modTeam_none f h]
    by_cases hk : k' = k
    · subst hk; simp [h]
    · simp [hk]
  | some t =>
    rw [modTeam_some f h]
    simp only [aget_aset, Option.map_some]

@[simp] theorem team_modTeam_other (s : State) {k k' : Nat} (f : Team → Team) (h : k' ≠ k) :
    (s.modTeam k f).team k' = s.team k' := by
  simp only [State.team, aget_modTeam, h, if_false]

theorem team_modTeam_same {s : State} {k : Nat} {t : Team} (f : Team → Team) (h : aget s.teams k = some t) :
    (s.modTeam k f).team k = f t := by
  simp only [State.team, aget_modTeam, if_true, h, Option.map_some, Option.getD_some]

end Sys2Proof.Machine
end

