-- ==== Sys2Proof/Laws/Finish.lean ====
section
/-! SUPPORT. What the end of an instruction does to the state (R29, R32, R54, R358), said once. -/

namespace Sys2Proof.Machine

theorem aset_self {α : Type} {m : AList α} {k : Nat} {v : α} (h : aget m k = some v) : aset m k v = m := by
  induction m with
  | nil => simp [aget] at h
  | cons p r ih =>
    obtain ⟨j, w⟩ := p
    by_cases hj : j = k
    · subst hj
      simp only [aget, if_true, Option.some.injEq] at h
      simp [aset, h]
    · simp only [aget, hj, if_false] at h
      simp only [aset, hj, if_false, ih h]

theorem aset_aset {α : Type} (m : AList α) (k : Nat) (v w : α) : aset (aset m k v) k w = aset m k w := by
  induction m with
  | nil => simp [aset]
  | cons p r ih =>
    obtain ⟨j, x⟩ := p
    by_cases hj : j = k
    · simp [aset, hj]
    · simp only [aset, hj, if_false, ih]

theorem modTeam_id (s : State) (k : Nat) : s.modTeam k (fun t => t) = s := by
  cases h : aget s.teams k with
  | none => exact modTeam_none _ h
  | some t => rw [modTeam_some _ h, aset_self h]

/-- Two changes of one team are one. -/
theorem modTeam_modTeam (s : State) (k : Nat) (f g : Team → Team) :
    (s.modTeam k f).modTeam k g = s.modTeam k fun t => g (f t) := by
  cases h : aget s.teams k with
  | none => rw [modTeam_none f h, modTeam_none _ h, modTeam_none _ h]
  | some t =>
    have h' : aget (s.modTeam k f).teams k = some (f t) := by rw [aget_modTeam]; simp [h]
    rw [modTeam_some _ h', modTeam_some _ h, modTeam_some _ h]
    simp only [aset_aset]

theorem runs_modTeam (s : State) (k : Nat) (f : Team → Team) : (s.modTeam k f).runs = s.runs := by
  rw [modTeam_eq]

/-- Changes of several lanes of a team are one change of the team. -/
theorem foldl_modThread (s : State) (k : Nat) (ls : List Nat) (f : Nat → Thread → Thread) :
    ls.foldl (fun s l => modThreadIn s k false l (f l)) s =
      s.modTeam k fun t => ls.foldl (fun t l => t.modThread l (f l)) t := by
  induction ls generalizing s with
  | nil => exact (modTeam_id s k).symm
  | cons l ls ih =>
    rw [List.foldl_cons, ih]
    show ((s.modTeam k fun t => t.modThread l (f l)).modTeam k _) = _
    rw [modTeam_modTeam]
    rfl

theorem Thread.Keeps.refl (a : Thread) : a.Keeps a := rfl

theorem Thread.Keeps.trans {a b c : Thread} (h : a.Keeps b) (h' : b.Keeps c) : a.Keeps c := by
  unfold Thread.Keeps at *
  rw [h']
  rw [h]

theorem keeps_passOne (pc : DWord) (th : Thread) : th.Keeps (passOne pc th) := by
  unfold passOne Thread.Keeps
  split <;> rfl

/-- Changes of the lanes in a list: lanes outside it stay, and each lane in it is related to what it was by any relation
that its change respects. -/
theorem foldl_team (R : Thread → Thread → Prop) (hr : ∀ a, R a a) (ht : ∀ a b c, R a b → R b c → R a c)
    (ls : List Nat) (f : Nat → Thread → Thread) (hf : ∀ l a, R a (f l a)) (t : Team) :
    let t' := ls.foldl (fun t l => t.modThread l (f l)) t
    t' = { t with threads := t'.threads } ∧ t'.threads.length = t.threads.length ∧
      (∀ l, l ∉ ls → t'.thread l = t.thread l) ∧ ∀ l, R (t.thread l) (t'.thread l) := by
  induction ls generalizing t with
  | nil => exact ⟨rfl, rfl, fun _ _ => rfl, fun _ => hr _⟩
  | cons l ls ih =>
    obtain ⟨h1, h2, h3, h4⟩ := ih (t.modThread l (f l))
    refine ⟨?_, ?_, ?_, ?_⟩
    · rw [List.foldl_cons, h1]; rfl
    · rw [List.foldl_cons, h2]; exact length_setThread t l _
    · intro j hj
      simp only [List.mem_cons, not_or] at hj
      rw [List.foldl_cons, h3 j hj.2]
      exact thread_setThread_other t _ (Ne.symm hj.1)
    · intro j
      refine ht _ _ _ ?_ (h4 j)
      by_cases hj : l = j
      · subst hj
        by_cases hl : l < t.threads.length
        · rw [Team.modThread, thread_setThread_same t _ hl]; exact hf _ _
        · have : t.setThread l (f l (t.thread l)) = t := by
            simp only [Team.setThread, setAt_ge _ (Nat.le_of_not_lt hl)]
          rw [Team.modThread, this]; exact hr _
      · rw [Team.modThread, thread_setThread_other t _ hj]; exact hr _

/-- A property that the change of a lane establishes, where the lanes keep a condition, holds for the lanes in the
list. -/
theorem foldl_team_est (P : Nat → Thread → Prop) (Q : Thread → Prop) (ls : List Nat) (f : Nat → Thread → Thread)
    (he : ∀ l ∈ ls, ∀ a, Q a → P l (f l a)) (hq : ∀ l a, Q a → Q (f l a)) (t : Team)
    (hl : ∀ l ∈ ls, l < t.threads.length) (h0 : ∀ l ∈ ls, Q (t.thread l)) :
    ∀ l ∈ ls, P l ((ls.foldl (fun t l => t.modThread l (f l)) t).thread l) := by
  induction ls generalizing t with
  | nil => intro l hl; exact absurd hl (by simp)
  | cons a ls ih =>
    intro l hm
    rw [List.foldl_cons]
    have hq' : ∀ j, Q (t.thread j) → Q ((t.modThread a (f a)).thread j) := by
      intro j hj
      by_cases haj : a = j
      · subst haj
        rw [Team.modThread, thread_setThread_same t _ (hl a (by simp))]
        exact hq _ _ hj
      · rw [Team.modThread, thread_setThread_other t _ haj]; exact hj
    by_cases hin : l ∈ ls
    · exact ih (fun l hl => he l (by simp [hl])) _ (fun j hj => by
        rw [Team.modThread, length_setThread]; exact hl j (by simp [hj]))
        (fun j hj => hq' j (h0 j (by simp [hj]))) l hin
    · have hla : l = a := by simpa [hin] using hm
      subst hla
      have := (foldl_team (fun _ _ => True) (fun _ => trivial) (fun _ _ _ _ _ => trivial) ls f (fun _ _ => trivial)
        (t.modThread l (f l))).2.2.1 l hin
      rw [this, Team.modThread, thread_setThread_same t _ (hl l (by simp))]
      exact he l (by simp) _ (h0 l (by simp))

theorem noDoomed_passOne (pc : DWord) {th : Thread} (h : th.NoDoomed) : (passOne pc th).NoDoomed := by
  unfold passOne Thread.NoDoomed at *
  split
  · intro o ho
    simp only [List.mem_map] at ho
    obtain ⟨o', ho', rfl⟩ := ho
    split <;> exact h o' ho'
  · exact h
  · exact h

theorem noDoomed_cut (now : Nat) (step : Bool) {th : Thread} (h : th.NoDoomed) : (cutThread now step th).NoDoomed := by
  unfold cutThread Thread.NoDoomed at *
  intro o ho
  simp only [List.mem_map] at ho
  obtain ⟨o', ho', rfl⟩ := ho
  split <;> exact h o' ho'

theorem noDoomed_any {th : Thread} (h : th.NoDoomed) : (th.ops.any fun o => o.doomed.isSome) = false := by
  rw [List.any_eq_false]
  intro o ho
  simp [h o ho]

theorem takeTraps_nil (s : State) (k : Nat) : s.takeTraps k [] = s := rfl

/-- Lanes without doomed instructions: their run is over, and the log is cleared of what no thread holds. -/
theorem parkAll_spec {s : State} {k idx : Nat} {ls : List Nat} {tm : Team} (ht : aget s.teams k = some tm)
    (hd : ∀ l ∈ ls, (tm.thread l).NoDoomed) :
    ∃ lg, parkAll s k idx ls = dropRun (s.setTeam k { tm with opLog := lg }) idx := by
  have hnd : ls.filter (fun l => (s.thread k l).wait.isNone && (s.thread k l).ops.any fun o => o.doomed.isSome) = [] := by
    rw [List.filter_eq_nil_iff]
    intro l hl
    simp [State.thread, State.team, ht, noDoomed_any (hd l hl)]
  have ht' : aget (dropRun s idx).teams k = some tm := ht
  simp only [parkAll, hnd, takeDoomed, List.filter_nil, List.foldl_nil, List.flatMap_nil, takeTraps_nil, releaseLog]
  rw [modTeam_some _ ht']
  exact ⟨_, rfl⟩

/-- A run of threads without doomed instructions ends (R29, R358). -/
theorem endRun_spec {s : State} {idx : Nat} {r : Run} {tm : Team} (hr : runAt s idx = some r) (hacc : r.acc = false)
    (ht : aget s.teams r.team = some tm) (hd : ∀ l ∈ r.lanes, (tm.thread l).NoDoomed) :
    ∃ lg, endRun s idx = dropRun (s.setTeam r.team
      { r.lanes.foldl (fun t l => t.modThread l (cutThread s.cycles.toNat (stepped s r))) tm with opLog := lg }) idx := by
  have hfold := foldl_modThread s r.team r.lanes (fun _ => cutThread s.cycles.toNat (stepped s r))
  rw [modTeam_some _ ht] at hfold
  have hnd : ∀ l ∈ r.lanes,
      ((r.lanes.foldl (fun t l => t.modThread l (cutThread s.cycles.toNat (stepped s r))) tm).thread l).NoDoomed := fun l hl =>
    (foldl_team (fun a b => a.NoDoomed → b.NoDoomed) (fun _ h => h) (fun _ _ _ h h' x => h' (h x)) r.lanes
      (fun _ => cutThread s.cycles.toNat (stepped s r)) (fun _ _ h => noDoomed_cut _ _ h) tm).2.2.2 l (hd l hl)
  simp only [endRun, hr, hacc, Bool.false_eq_true, if_false, hfold]
  obtain ⟨lg, h⟩ := parkAll_spec (s := s.setTeam r.team
    (r.lanes.foldl (fun t l => t.modThread l (cutThread s.cycles.toNat (stepped s r))) tm)) (k := r.team) (idx := idx)
    (ls := r.lanes) (aget_aset_same _ _ _) hnd
  refine ⟨lg, Eq.trans h ?_⟩
  simp only [State.setTeam, aset_aset]

/-- What the end of an instruction leaves, for threads without doomed instructions: the lanes of the run keep everything
but their place, their windows, their stamp and their replay queue; nothing else changes but the run. -/
theorem finish_spec {s : State} {g : Grp} {pcs : Nat → DWord} {r : Run} {tm : Team} (hr : runAt s g.idx = some r)
    (hk : r.team = g.k) (hga : g.run.acc = false) (hacc : r.acc = false) (ht : aget s.teams g.k = some tm)
    (hd : ∀ l ∈ r.lanes, (tm.thread l).NoDoomed) :
    ∃ tm' rs, finish s g pcs = { s with teams := aset s.teams g.k tm', runs := rs } ∧
      tm' = { tm with threads := tm'.threads, opLog := tm'.opLog } ∧ tm'.threads.length = tm.threads.length ∧
      (∀ l, l ∉ r.lanes → tm'.thread l = tm.thread l) ∧ (∀ l, (tm.thread l).Keeps (tm'.thread l)) ∧
      ((∀ l ∈ r.lanes, l < tm.threads.length ∧ (tm.thread l).replay = []) →
        ∀ l ∈ r.lanes, (tm'.thread l).pc = pcs l ∧ (tm'.thread l).farPc = none) := by
  have hfold := foldl_modThread s g.k r.lanes (fun l => passOne (pcs l))
  rw [modTeam_some _ ht] at hfold
  let tp : Team := r.lanes.foldl (fun t l => t.modThread l (passOne (pcs l))) tm
  have hp := foldl_team Thread.Keeps Thread.Keeps.refl (fun _ _ _ => Thread.Keeps.trans) r.lanes
    (fun l => passOne (pcs l)) (fun l a => keeps_passOne (pcs l) a) tm
  have hpd : ∀ l ∈ r.lanes, (tp.thread l).NoDoomed := fun l hl =>
    (foldl_team (fun a b => a.NoDoomed → b.NoDoomed) (fun _ h => h) (fun _ _ _ h h' x => h' (h x)) r.lanes
      (fun l => passOne (pcs l)) (fun _ _ h => noDoomed_passOne _ h) tm).2.2.2 l (hd l hl)
  have hpc : (∀ l ∈ r.lanes, l < tm.threads.length ∧ (tm.thread l).replay = []) →
      ∀ l ∈ r.lanes, (tp.thread l).pc = pcs l ∧ (tp.thread l).farPc = none := fun h =>
    foldl_team_est (fun l b => b.pc = pcs l ∧ b.farPc = none) (fun a => a.replay = []) r.lanes
      (fun l => passOne (pcs l)) (fun l _ a ha => by simp [passOne, ha]) (fun l a ha => by simp [passOne, ha]) tm
      (fun l hl => (h l hl).1) fun l hl => (h l hl).2
  have hs1 : runAt { s with teams := aset s.teams g.k tp } g.idx = some r := hr
  have hend : ∃ tm' rs, endRun { s with teams := aset s.teams g.k tp } g.idx =
        { s with teams := aset s.teams g.k tm', runs := rs } ∧
      tm' = { tm with threads := tm'.threads, opLog := tm'.opLog } ∧ tm'.threads.length = tm.threads.length ∧
      (∀ l, l ∉ r.lanes → tm'.thread l = tm.thread l) ∧ (∀ l, (tm.thread l).Keeps (tm'.thread l)) ∧
      ((∀ l ∈ r.lanes, l < tm.threads.length ∧ (tm.thread l).replay = []) →
        ∀ l ∈ r.lanes, (tm'.thread l).pc = pcs l ∧ (tm'.thread l).farPc = none) := by
    obtain ⟨lg, h⟩ := endRun_spec (tm := tp) hs1 hacc (by rw [hk]; exact aget_aset_same _ _ _) hpd
    have hc := foldl_team Thread.Keeps Thread.Keeps.refl (fun _ _ _ => Thread.Keeps.trans) r.lanes
      (fun _ => cutThread s.cycles.toNat (stepped { s with teams := aset s.teams g.k tp } r)) (fun _ _ => rfl) tp
    have hcp := foldl_team (fun a b => b.pc = a.pc ∧ b.farPc = a.farPc) (fun _ => ⟨rfl, rfl⟩)
      (fun _ _ _ h h' => ⟨h'.1.trans h.1, h'.2.trans h.2⟩) r.lanes (fun _ => cutThread s.cycles.toNat (stepped { s with teams := aset s.teams g.k tp } r))
      (fun _ _ => ⟨rfl, rfl⟩) tp
    refine ⟨{ r.lanes.foldl (fun t l => t.modThread l (cutThread s.cycles.toNat (stepped { s with teams := aset s.teams g.k tp } r))) tp with opLog := lg },
      s.runs.eraseIdx g.idx, ?_, ?_, ?_, ?_, ?_, ?_⟩
    · rw [h, hk]
      simp only [dropRun, State.setTeam, aset_aset]
    · have h2 := congrArg (fun t : Team => { t with
        threads := (r.lanes.foldl (fun (t : Team) l => t.modThread l (cutThread s.cycles.toNat (stepped { s with teams := aset s.teams g.k tp } r))) tp).threads }) hp.1
      exact congrArg (fun t : Team => { t with opLog := lg }) (hc.1.trans h2)
    · exact hc.2.1.trans hp.2.1
    · intro l hl
      exact (hc.2.2.1 l hl).trans (hp.2.2.1 l hl)
    · intro l
      exact (hp.2.2.2 l).trans (hc.2.2.2 l)
    · intro hh l hl
      have h1 := hpc hh l hl
      have h2 := hcp.2.2.2 l
      exact ⟨h2.1.trans h1.1, h2.2.trans h1.2⟩
  have hstay : ∀ rs, ∃ tm' rs', ({ s with teams := aset s.teams g.k tp, runs := rs } : State) =
        { s with teams := aset s.teams g.k tm', runs := rs' } ∧
      tm' = { tm with threads := tm'.threads, opLog := tm'.opLog } ∧ tm'.threads.length = tm.threads.length ∧
      (∀ l, l ∉ r.lanes → tm'.thread l = tm.thread l) ∧ (∀ l, (tm.thread l).Keeps (tm'.thread l)) ∧
      ((∀ l ∈ r.lanes, l < tm.threads.length ∧ (tm.thread l).replay = []) →
        ∀ l ∈ r.lanes, (tm'.thread l).pc = pcs l ∧ (tm'.thread l).farPc = none) := fun rs =>
    ⟨tp, rs, rfl, congrArg (fun t : Team => { t with opLog := tp.opLog }) hp.1, hp.2.1, hp.2.2.1, hp.2.2.2, hpc⟩
  have hg : (r.team != g.k || false != g.run.acc) = false := by simp [hk, hga]
  simp only [finish, hr, hacc, hg, Bool.false_eq_true, if_false, hfold]
  split
  · exact hstay _
  · split
    · exact hend
    · unfold advanceRun
      split
      · split
        · exact hend
        · exact hstay _
      · exact hstay _

end Sys2Proof.Machine
end

