-- ==== Sys2Proof/Laws/Mem.lean ====
section
/-! SUPPORT. Memory: a write is read back, other bytes stay, and every write keeps the canonical form. -/

namespace Sys2Proof.Machine

/-- Every listed address is at least `a`, addresses strictly rise, and no listed byte is 0. -/
def Mem.above : Nat → Mem → Prop
  | _, [] => True
  | a, (a', b) :: r => a ≤ a' ∧ b ≠ 0 ∧ Mem.above (a' + 1) r

theorem Mem.above_mono {a b : Nat} {m : Mem} (h : Mem.above b m) (hab : a ≤ b) : Mem.above a m := by
  cases m with
  | nil => trivial
  | cons c r => exact ⟨Nat.le_trans hab h.1, h.2⟩

theorem Mem.wf_cons (a : Nat) (b : Byte) (r : Mem) : Mem.wf ((a, b) :: r) = true ↔ b ≠ 0 ∧ Mem.above (a + 1) r := by
  induction r generalizing a b with
  | nil => simp [Mem.wf, Mem.above]
  | cons c r ih =>
    obtain ⟨a', b'⟩ := c
    have := ih a' b'
    simp only [Mem.wf, Bool.and_eq_true, bne_iff_ne, ne_eq, decide_eq_true_eq, Mem.above]
    constructor
    · rintro ⟨⟨h1, h2⟩, h3⟩
      exact ⟨h1, h2, (this.1 h3).1, (this.1 h3).2⟩
    · rintro ⟨h1, h2, h3, h4⟩
      exact ⟨⟨h1, h2⟩, this.2 ⟨h3, h4⟩⟩

theorem Mem.wf_iff (m : Mem) : m.wf = true ↔ Mem.above 0 m := by
  cases m with
  | nil => simp [Mem.wf, Mem.above]
  | cons c r =>
    obtain ⟨a, b⟩ := c
    rw [Mem.wf_cons]
    simp [Mem.above]

theorem Mem.byte_below {k a : Nat} {m : Mem} (h : Mem.above k m) (ha : a < k) : m.byte a = 0 := by
  cases m with
  | nil => rfl
  | cons c r =>
    obtain ⟨a', b⟩ := c
    have h1 : a' ≠ a := by have := h.1; omega
    have h2 : a < a' := by have := h.1; omega
    simp [Mem.byte, h1, h2]

theorem Mem.above_put {k a : Nat} {m : Mem} (b : Byte) (h : Mem.above k m) (ha : k ≤ a) : Mem.above k (m.put a b) := by
  induction m generalizing k with
  | nil =>
    simp only [Mem.put]
    split
    · trivial
    · exact ⟨ha, ‹_›, trivial⟩
  | cons c r ih =>
    obtain ⟨a', b'⟩ := c
    obtain ⟨h1, h2, h3⟩ := h
    simp only [Mem.put]
    split
    · split
      · exact ⟨h1, h2, h3⟩
      · exact ⟨ha, ‹_›, by omega, h2, h3⟩
    · split
      · split
        · exact Mem.above_mono h3 (by omega)
        · exact ⟨ha, ‹_›, Mem.above_mono h3 (by omega)⟩
      · exact ⟨h1, h2, ih h3 (by omega)⟩

/-- Reading a byte after a write of one byte: the byte written, or what stood there. -/
theorem Mem.byte_put_above {k a : Nat} {m : Mem} (b : Byte) (h : Mem.above k m) (x : Nat) :
    (m.put a b).byte x = if x = a then b else m.byte x := by
  induction m generalizing k with
  | nil =>
    simp only [Mem.put]
    split
    · subst_vars; by_cases hx : x = a <;> simp [Mem.byte, hx]
    · by_cases hx : x = a
      · subst hx; simp [Mem.byte]
      · simp [Mem.byte, hx, Ne.symm hx]
  | cons c r ih =>
    obtain ⟨a', b'⟩ := c
    obtain ⟨h1, h2, h3⟩ := h
    simp only [Mem.put]
    by_cases hx : x = a
    · subst hx
      split
      · split
        · subst_vars
          have h4 : a' ≠ x := by omega
          simp [Mem.byte, *]
        · simp [Mem.byte]
      · split
        · split
          · subst_vars; simp [Mem.byte_below h3]
          · simp [Mem.byte]
        · have h4 : a' ≠ x := ‹_›
          have h5 : ¬ x < a' := ‹_›
          simp only [Mem.byte, h4, if_false, h5, ih h3, if_true]
    · simp only [hx, if_false]
      split
      · split
        · rfl
        · have h4 : ¬ a = x := fun h => hx h.symm
          simp only [Mem.byte, h4, if_false]
          by_cases h5 : x < a
          · have : ¬ a' = x := by omega
            have : x < a' := by omega
            simp [*]
          · simp [h5]
      · split
        · have h6 : a' = a := ‹_›
          have h4 : ¬ a' = x := fun h => hx (h.symm.trans h6)
          split
          · simp only [Mem.byte, h4, if_false]
            by_cases h5 : x < a'
            · simp [h5, Mem.byte_below h3 (by omega : x < a' + 1)]
            · simp [h5]
          · simp [Mem.byte, h4, ← h6]
        · simp only [Mem.byte, ih h3, hx, if_false]

theorem Mem.wf_put {m : Mem} (a : Nat) (b : Byte) (h : m.wf = true) : (m.put a b).wf = true :=
  (Mem.wf_iff _).2 (Mem.above_put b ((Mem.wf_iff _).1 h) (Nat.zero_le a))

theorem Mem.byte_put {m : Mem} (a : Nat) (b : Byte) (x : Nat) (h : m.wf = true) :
    (m.put a b).byte x = if x = a then b else m.byte x := Mem.byte_put_above b ((Mem.wf_iff _).1 h) x

theorem Mem.wf_write {m : Mem} (a : Nat) (bs : List Byte) (h : m.wf = true) : (m.write a bs).wf = true := by
  induction bs generalizing m a with
  | nil => exact h
  | cons b bs ih => exact ih (a + 1) (Mem.wf_put a b h)

theorem Mem.wf_writeMasked {m : Mem} (ws : List (Nat × Byte × Byte)) (h : m.wf = true) : (m.writeMasked ws).wf = true := by
  induction ws generalizing m with
  | nil => exact h
  | cons w ws ih => obtain ⟨a, b, k⟩ := w; exact ih (Mem.wf_put a _ h)

/-- A byte outside a write is as it was; a byte inside is the one written. -/
theorem Mem.byte_write {m : Mem} (a : Nat) (bs : List Byte) (x : Nat) (h : m.wf = true) :
    (m.write a bs).byte x = if a ≤ x ∧ x < a + bs.length then getAt 0 bs (x - a) else m.byte x := by
  induction bs generalizing m a with
  | nil =>
    have : ¬ (a ≤ x ∧ x < a + ([] : List Byte).length) := by simp
    simp only [Mem.write, this, if_false]
  | cons b bs ih =>
    rw [Mem.write, ih (a + 1) (Mem.wf_put a b h), Mem.byte_put a b x h]
    simp only [List.length_cons]
    by_cases hx : x = a
    · subst hx
      have h1 : ¬ (x + 1 ≤ x ∧ x < x + 1 + bs.length) := by omega
      have h2 : x ≤ x ∧ x < x + (bs.length + 1) := by omega
      simp only [h1, if_false, if_true, h2, and_self, Nat.sub_self, getAt]
    · by_cases h1 : a + 1 ≤ x ∧ x < a + 1 + bs.length
      · have h2 : a ≤ x ∧ x < a + (bs.length + 1) := by omega
        obtain ⟨j, hj⟩ : ∃ j, x - a = j + 1 := ⟨x - a - 1, by omega⟩
        rw [if_pos h1, if_pos h2, hj, show x - (a + 1) = j by omega]
        rfl
      · have h2 : ¬ (a ≤ x ∧ x < a + (bs.length + 1)) := by omega
        rw [if_neg h1, if_neg h2, if_neg hx]

end Sys2Proof.Machine
end

