-- ==== Sys2Proof/Laws/Updates.lean ====
section
/-! SUPPORT. What each named update of the state leaves: one lemma for each field it does not write. -/

namespace Sys2Proof.Machine


/-! ### `State.setTeam` -/

@[simp] theorem setTeam_mem (s : State) (k : Nat) (t : Team) : (s.setTeam k t).mem = s.mem := rfl
@[simp] theorem setTeam_poison (s : State) (k : Nat) (t : Team) : (s.setTeam k t).poison = s.poison := rfl
@[simp] theorem setTeam_integrity (s : State) (k : Nat) (t : Team) : (s.setTeam k t).integrity = s.integrity := rfl
@[simp] theorem setTeam_bankPoison (s : State) (k : Nat) (t : Team) : (s.setTeam k t).bankPoison = s.bankPoison := rfl
@[simp] theorem setTeam_upsets (s : State) (k : Nat) (t : Team) : (s.setTeam k t).upsets = s.upsets := rfl
@[simp] theorem setTeam_bankUpsets (s : State) (k : Nat) (t : Team) : (s.setTeam k t).bankUpsets = s.bankUpsets := rfl
@[simp] theorem setTeam_sealed (s : State) (k : Nat) (t : Team) : (s.setTeam k t).sealed = s.sealed := rfl
@[simp] theorem setTeam_lineSeals (s : State) (k : Nat) (t : Team) : (s.setTeam k t).lineSeals = s.lineSeals := rfl
@[simp] theorem setTeam_l2 (s : State) (k : Nat) (t : Team) : (s.setTeam k t).l2 = s.l2 := rfl
@[simp] theorem setTeam_hold (s : State) (k : Nat) (t : Team) : (s.setTeam k t).hold = s.hold := rfl
@[simp] theorem setTeam_dir (s : State) (k : Nat) (t : Team) : (s.setTeam k t).dir = s.dir := rfl
@[simp] theorem setTeam_ucopies (s : State) (k : Nat) (t : Team) : (s.setTeam k t).ucopies = s.ucopies := rfl
@[simp] theorem setTeam_swm (s : State) (k : Nat) (t : Team) : (s.setTeam k t).swm = s.swm := rfl
@[simp] theorem setTeam_tlb (s : State) (k : Nat) (t : Team) : (s.setTeam k t).tlb = s.tlb := rfl
@[simp] theorem setTeam_asids (s : State) (k : Nat) (t : Team) : (s.setTeam k t).asids = s.asids := rfl
@[simp] theorem setTeam_crews (s : State) (k : Nat) (t : Team) : (s.setTeam k t).crews = s.crews := rfl
@[simp] theorem setTeam_groups (s : State) (k : Nat) (t : Team) : (s.setTeam k t).groups = s.groups := rfl
@[simp] theorem setTeam_launches (s : State) (k : Nat) (t : Team) : (s.setTeam k t).launches = s.launches := rfl
@[simp] theorem setTeam_ctxs (s : State) (k : Nat) (t : Team) : (s.setTeam k t).ctxs = s.ctxs := rfl
@[simp] theorem setTeam_parts (s : State) (k : Nat) (t : Team) : (s.setTeam k t).parts = s.parts := rfl
@[simp] theorem setTeam_cores (s : State) (k : Nat) (t : Team) : (s.setTeam k t).cores = s.cores := rfl
@[simp] theorem setTeam_homes (s : State) (k : Nat) (t : Team) : (s.setTeam k t).homes = s.homes := rfl
@[simp] theorem setTeam_runs (s : State) (k : Nat) (t : Team) : (s.setTeam k t).runs = s.runs := rfl
@[simp] theorem setTeam_cur (s : State) (k : Nat) (t : Team) : (s.setTeam k t).cur = s.cur := rfl
@[simp] theorem setTeam_cycles (s : State) (k : Nat) (t : Team) : (s.setTeam k t).cycles = s.cycles := rfl
@[simp] theorem setTeam_serial (s : State) (k : Nat) (t : Team) : (s.setTeam k t).serial = s.serial := rfl
@[simp] theorem setTeam_tick (s : State) (k : Nat) (t : Team) : (s.setTeam k t).tick = s.tick := rfl
@[simp] theorem setTeam_freeCtr (s : State) (k : Nat) (t : Team) : (s.setTeam k t).freeCtr = s.freeCtr := rfl
@[simp] theorem setTeam_mnum (s : State) (k : Nat) (t : Team) : (s.setTeam k t).mnum = s.mnum := rfl
@[simp] theorem setTeam_views (s : State) (k : Nat) (t : Team) : (s.setTeam k t).views = s.views := rfl
@[simp] theorem setTeam_markers (s : State) (k : Nat) (t : Team) : (s.setTeam k t).markers = s.markers := rfl
@[simp] theorem setTeam_links (s : State) (k : Nat) (t : Team) : (s.setTeam k t).links = s.links := rfl
@[simp] theorem setTeam_peers (s : State) (k : Nat) (t : Team) : (s.setTeam k t).peers = s.peers := rfl
@[simp] theorem setTeam_heads (s : State) (k : Nat) (t : Team) : (s.setTeam k t).heads = s.heads := rfl
@[simp] theorem setTeam_dev (s : State) (k : Nat) (t : Team) : (s.setTeam k t).dev = s.dev := rfl
@[simp] theorem setTeam_qps (s : State) (k : Nat) (t : Team) : (s.setTeam k t).qps = s.qps := rfl
@[simp] theorem setTeam_ports (s : State) (k : Nat) (t : Team) : (s.setTeam k t).ports = s.ports := rfl
@[simp] theorem setTeam_held (s : State) (k : Nat) (t : Team) : (s.setTeam k t).held = s.held := rfl
@[simp] theorem setTeam_out (s : State) (k : Nat) (t : Team) : (s.setTeam k t).out = s.out := rfl
@[simp] theorem setTeam_inputs (s : State) (k : Nat) (t : Team) : (s.setTeam k t).inputs = s.inputs := rfl
@[simp] theorem setTeam_flight (s : State) (k : Nat) (t : Team) : (s.setTeam k t).flight = s.flight := rfl
@[simp] theorem setTeam_turns (s : State) (k : Nat) (t : Team) : (s.setTeam k t).turns = s.turns := rfl

/-! ### `State.modTeam` -/

@[simp] theorem modTeam_mem (s : State) (k : Nat) (f : Team → Team) : (s.modTeam k f).mem = s.mem := by
  unfold State.modTeam; split <;> rfl
@[simp] theorem modTeam_poison (s : State) (k : Nat) (f : Team → Team) : (s.modTeam k f).poison = s.poison := by
  unfold State.modTeam; split <;> rfl
@[simp] theorem modTeam_integrity (s : State) (k : Nat) (f : Team → Team) : (s.modTeam k f).integrity = s.integrity := by
  unfold State.modTeam; split <;> rfl
@[simp] theorem modTeam_bankPoison (s : State) (k : Nat) (f : Team → Team) : (s.modTeam k f).bankPoison = s.bankPoison := by
  unfold State.modTeam; split <;> rfl
@[simp] theorem modTeam_upsets (s : State) (k : Nat) (f : Team → Team) : (s.modTeam k f).upsets = s.upsets := by
  unfold State.modTeam; split <;> rfl
@[simp] theorem modTeam_bankUpsets (s : State) (k : Nat) (f : Team → Team) : (s.modTeam k f).bankUpsets = s.bankUpsets := by
  unfold State.modTeam; split <;> rfl
@[simp] theorem modTeam_sealed (s : State) (k : Nat) (f : Team → Team) : (s.modTeam k f).sealed = s.sealed := by
  unfold State.modTeam; split <;> rfl
@[simp] theorem modTeam_lineSeals (s : State) (k : Nat) (f : Team → Team) : (s.modTeam k f).lineSeals = s.lineSeals := by
  unfold State.modTeam; split <;> rfl
@[simp] theorem modTeam_l2 (s : State) (k : Nat) (f : Team → Team) : (s.modTeam k f).l2 = s.l2 := by
  unfold State.modTeam; split <;> rfl
@[simp] theorem modTeam_hold (s : State) (k : Nat) (f : Team → Team) : (s.modTeam k f).hold = s.hold := by
  unfold State.modTeam; split <;> rfl
@[simp] theorem modTeam_dir (s : State) (k : Nat) (f : Team → Team) : (s.modTeam k f).dir = s.dir := by
  unfold State.modTeam; split <;> rfl
@[simp] theorem modTeam_ucopies (s : State) (k : Nat) (f : Team → Team) : (s.modTeam k f).ucopies = s.ucopies := by
  unfold State.modTeam; split <;> rfl
@[simp] theorem modTeam_swm (s : State) (k : Nat) (f : Team → Team) : (s.modTeam k f).swm = s.swm := by
  unfold State.modTeam; split <;> rfl
@[simp] theorem modTeam_tlb (s : State) (k : Nat) (f : Team → Team) : (s.modTeam k f).tlb = s.tlb := by
  unfold State.modTeam; split <;> rfl
@[simp] theorem modTeam_asids (s : State) (k : Nat) (f : Team → Team) : (s.modTeam k f).asids = s.asids := by
  unfold State.modTeam; split <;> rfl
@[simp] theorem modTeam_crews (s : State) (k : Nat) (f : Team → Team) : (s.modTeam k f).crews = s.crews := by
  unfold State.modTeam; split <;> rfl
@[simp] theorem modTeam_groups (s : State) (k : Nat) (f : Team → Team) : (s.modTeam k f).groups = s.groups := by
  unfold State.modTeam; split <;> rfl
@[simp] theorem modTeam_launches (s : State) (k : Nat) (f : Team → Team) : (s.modTeam k f).launches = s.launches := by
  unfold State.modTeam; split <;> rfl
@[simp] theorem modTeam_ctxs (s : State) (k : Nat) (f : Team → Team) : (s.modTeam k f).ctxs = s.ctxs := by
  unfold State.modTeam; split <;> rfl
@[simp] theorem modTeam_parts (s : State) (k : Nat) (f : Team → Team) : (s.modTeam k f).parts = s.parts := by
  unfold State.modTeam; split <;> rfl
@[simp] theorem modTeam_cores (s : State) (k : Nat) (f : Team → Team) : (s.modTeam k f).cores = s.cores := by
  unfold State.modTeam; split <;> rfl
@[simp] theorem modTeam_homes (s : State) (k : Nat) (f : Team → Team) : (s.modTeam k f).homes = s.homes := by
  unfold State.modTeam; split <;> rfl
@[simp] theorem modTeam_runs (s : State) (k : Nat) (f : Team → Team) : (s.modTeam k f).runs = s.runs := by
  unfold State.modTeam; split <;> rfl
@[simp] theorem modTeam_cur (s : State) (k : Nat) (f : Team → Team) : (s.modTeam k f).cur = s.cur := by
  unfold State.modTeam; split <;> rfl
@[simp] theorem modTeam_cycles (s : State) (k : Nat) (f : Team → Team) : (s.modTeam k f).cycles = s.cycles := by
  unfold State.modTeam; split <;> rfl
@[simp] theorem modTeam_serial (s : State) (k : Nat) (f : Team → Team) : (s.modTeam k f).serial = s.serial := by
  unfold State.modTeam; split <;> rfl
@[simp] theorem modTeam_tick (s : State) (k : Nat) (f : Team → Team) : (s.modTeam k f).tick = s.tick := by
  unfold State.modTeam; split <;> rfl
@[simp] theorem modTeam_freeCtr (s : State) (k : Nat) (f : Team → Team) : (s.modTeam k f).freeCtr = s.freeCtr := by
  unfold State.modTeam; split <;> rfl
@[simp] theorem modTeam_mnum (s : State) (k : Nat) (f : Team → Team) : (s.modTeam k f).mnum = s.mnum := by
  unfold State.modTeam; split <;> rfl
@[simp] theorem modTeam_views (s : State) (k : Nat) (f : Team → Team) : (s.modTeam k f).views = s.views := by
  unfold State.modTeam; split <;> rfl
@[simp] theorem modTeam_markers (s : State) (k : Nat) (f : Team → Team) : (s.modTeam k f).markers = s.markers := by
  unfold State.modTeam; split <;> rfl
@[simp] theorem modTeam_links (s : State) (k : Nat) (f : Team → Team) : (s.modTeam k f).links = s.links := by
  unfold State.modTeam; split <;> rfl
@[simp] theorem modTeam_peers (s : State) (k : Nat) (f : Team → Team) : (s.modTeam k f).peers = s.peers := by
  unfold State.modTeam; split <;> rfl
@[simp] theorem modTeam_heads (s : State) (k : Nat) (f : Team → Team) : (s.modTeam k f).heads = s.heads := by
  unfold State.modTeam; split <;> rfl
@[simp] theorem modTeam_dev (s : State) (k : Nat) (f : Team → Team) : (s.modTeam k f).dev = s.dev := by
  unfold State.modTeam; split <;> rfl
@[simp] theorem modTeam_qps (s : State) (k : Nat) (f : Team → Team) : (s.modTeam k f).qps = s.qps := by
  unfold State.modTeam; split <;> rfl
@[simp] theorem modTeam_ports (s : State) (k : Nat) (f : Team → Team) : (s.modTeam k f).ports = s.ports := by
  unfold State.modTeam; split <;> rfl
@[simp] theorem modTeam_held (s : State) (k : Nat) (f : Team → Team) : (s.modTeam k f).held = s.held := by
  unfold State.modTeam; split <;> rfl
@[simp] theorem modTeam_out (s : State) (k : Nat) (f : Team → Team) : (s.modTeam k f).out = s.out := by
  unfold State.modTeam; split <;> rfl
@[simp] theorem modTeam_inputs (s : State) (k : Nat) (f : Team → Team) : (s.modTeam k f).inputs = s.inputs := by
  unfold State.modTeam; split <;> rfl
@[simp] theorem modTeam_flight (s : State) (k : Nat) (f : Team → Team) : (s.modTeam k f).flight = s.flight := by
  unfold State.modTeam; split <;> rfl
@[simp] theorem modTeam_turns (s : State) (k : Nat) (f : Team → Team) : (s.modTeam k f).turns = s.turns := by
  unfold State.modTeam; split <;> rfl

/-! ### `State.modThread` -/

@[simp] theorem modThread_mem (s : State) (k l : Nat) (f : Thread → Thread) : (s.modThread k l f).mem = s.mem := modTeam_mem s k _
@[simp] theorem modThread_poison (s : State) (k l : Nat) (f : Thread → Thread) : (s.modThread k l f).poison = s.poison := modTeam_poison s k _
@[simp] theorem modThread_integrity (s : State) (k l : Nat) (f : Thread → Thread) : (s.modThread k l f).integrity = s.integrity := modTeam_integrity s k _
@[simp] theorem modThread_bankPoison (s : State) (k l : Nat) (f : Thread → Thread) : (s.modThread k l f).bankPoison = s.bankPoison := modTeam_bankPoison s k _
@[simp] theorem modThread_upsets (s : State) (k l : Nat) (f : Thread → Thread) : (s.modThread k l f).upsets = s.upsets := modTeam_upsets s k _
@[simp] theorem modThread_bankUpsets (s : State) (k l : Nat) (f : Thread → Thread) : (s.modThread k l f).bankUpsets = s.bankUpsets := modTeam_bankUpsets s k _
@[simp] theorem modThread_sealed (s : State) (k l : Nat) (f : Thread → Thread) : (s.modThread k l f).sealed = s.sealed := modTeam_sealed s k _
@[simp] theorem modThread_lineSeals (s : State) (k l : Nat) (f : Thread → Thread) : (s.modThread k l f).lineSeals = s.lineSeals := modTeam_lineSeals s k _
@[simp] theorem modThread_l2 (s : State) (k l : Nat) (f : Thread → Thread) : (s.modThread k l f).l2 = s.l2 := modTeam_l2 s k _
@[simp] theorem modThread_hold (s : State) (k l : Nat) (f : Thread → Thread) : (s.modThread k l f).hold = s.hold := modTeam_hold s k _
@[simp] theorem modThread_dir (s : State) (k l : Nat) (f : Thread → Thread) : (s.modThread k l f).dir = s.dir := modTeam_dir s k _
@[simp] theorem modThread_ucopies (s : State) (k l : Nat) (f : Thread → Thread) : (s.modThread k l f).ucopies = s.ucopies := modTeam_ucopies s k _
@[simp] theorem modThread_swm (s : State) (k l : Nat) (f : Thread → Thread) : (s.modThread k l f).swm = s.swm := modTeam_swm s k _
@[simp] theorem modThread_tlb (s : State) (k l : Nat) (f : Thread → Thread) : (s.modThread k l f).tlb = s.tlb := modTeam_tlb s k _
@[simp] theorem modThread_asids (s : State) (k l : Nat) (f : Thread → Thread) : (s.modThread k l f).asids = s.asids := modTeam_asids s k _
@[simp] theorem modThread_crews (s : State) (k l : Nat) (f : Thread → Thread) : (s.modThread k l f).crews = s.crews := modTeam_crews s k _
@[simp] theorem modThread_groups (s : State) (k l : Nat) (f : Thread → Thread) : (s.modThread k l f).groups = s.groups := modTeam_groups s k _
@[simp] theorem modThread_launches (s : State) (k l : Nat) (f : Thread → Thread) : (s.modThread k l f).launches = s.launches := modTeam_launches s k _
@[simp] theorem modThread_ctxs (s : State) (k l : Nat) (f : Thread → Thread) : (s.modThread k l f).ctxs = s.ctxs := modTeam_ctxs s k _
@[simp] theorem modThread_parts (s : State) (k l : Nat) (f : Thread → Thread) : (s.modThread k l f).parts = s.parts := modTeam_parts s k _
@[simp] theorem modThread_cores (s : State) (k l : Nat) (f : Thread → Thread) : (s.modThread k l f).cores = s.cores := modTeam_cores s k _
@[simp] theorem modThread_homes (s : State) (k l : Nat) (f : Thread → Thread) : (s.modThread k l f).homes = s.homes := modTeam_homes s k _
@[simp] theorem modThread_runs (s : State) (k l : Nat) (f : Thread → Thread) : (s.modThread k l f).runs = s.runs := modTeam_runs s k _
@[simp] theorem modThread_cur (s : State) (k l : Nat) (f : Thread → Thread) : (s.modThread k l f).cur = s.cur := modTeam_cur s k _
@[simp] theorem modThread_cycles (s : State) (k l : Nat) (f : Thread → Thread) : (s.modThread k l f).cycles = s.cycles := modTeam_cycles s k _
@[simp] theorem modThread_serial (s : State) (k l : Nat) (f : Thread → Thread) : (s.modThread k l f).serial = s.serial := modTeam_serial s k _
@[simp] theorem modThread_tick (s : State) (k l : Nat) (f : Thread → Thread) : (s.modThread k l f).tick = s.tick := modTeam_tick s k _
@[simp] theorem modThread_freeCtr (s : State) (k l : Nat) (f : Thread → Thread) : (s.modThread k l f).freeCtr = s.freeCtr := modTeam_freeCtr s k _
@[simp] theorem modThread_mnum (s : State) (k l : Nat) (f : Thread → Thread) : (s.modThread k l f).mnum = s.mnum := modTeam_mnum s k _
@[simp] theorem modThread_views (s : State) (k l : Nat) (f : Thread → Thread) : (s.modThread k l f).views = s.views := modTeam_views s k _
@[simp] theorem modThread_markers (s : State) (k l : Nat) (f : Thread → Thread) : (s.modThread k l f).markers = s.markers := modTeam_markers s k _
@[simp] theorem modThread_links (s : State) (k l : Nat) (f : Thread → Thread) : (s.modThread k l f).links = s.links := modTeam_links s k _
@[simp] theorem modThread_peers (s : State) (k l : Nat) (f : Thread → Thread) : (s.modThread k l f).peers = s.peers := modTeam_peers s k _
@[simp] theorem modThread_heads (s : State) (k l : Nat) (f : Thread → Thread) : (s.modThread k l f).heads = s.heads := modTeam_heads s k _
@[simp] theorem modThread_dev (s : State) (k l : Nat) (f : Thread → Thread) : (s.modThread k l f).dev = s.dev := modTeam_dev s k _
@[simp] theorem modThread_qps (s : State) (k l : Nat) (f : Thread → Thread) : (s.modThread k l f).qps = s.qps := modTeam_qps s k _
@[simp] theorem modThread_ports (s : State) (k l : Nat) (f : Thread → Thread) : (s.modThread k l f).ports = s.ports := modTeam_ports s k _
@[simp] theorem modThread_held (s : State) (k l : Nat) (f : Thread → Thread) : (s.modThread k l f).held = s.held := modTeam_held s k _
@[simp] theorem modThread_out (s : State) (k l : Nat) (f : Thread → Thread) : (s.modThread k l f).out = s.out := modTeam_out s k _
@[simp] theorem modThread_inputs (s : State) (k l : Nat) (f : Thread → Thread) : (s.modThread k l f).inputs = s.inputs := modTeam_inputs s k _
@[simp] theorem modThread_flight (s : State) (k l : Nat) (f : Thread → Thread) : (s.modThread k l f).flight = s.flight := modTeam_flight s k _
@[simp] theorem modThread_turns (s : State) (k l : Nat) (f : Thread → Thread) : (s.modThread k l f).turns = s.turns := modTeam_turns s k _

/-! ### `State.setCore` -/

@[simp] theorem setCore_mem (s : State) (c : Nat) (v : CoreS) : (s.setCore c v).mem = s.mem := rfl
@[simp] theorem setCore_poison (s : State) (c : Nat) (v : CoreS) : (s.setCore c v).poison = s.poison := rfl
@[simp] theorem setCore_integrity (s : State) (c : Nat) (v : CoreS) : (s.setCore c v).integrity = s.integrity := rfl
@[simp] theorem setCore_bankPoison (s : State) (c : Nat) (v : CoreS) : (s.setCore c v).bankPoison = s.bankPoison := rfl
@[simp] theorem setCore_upsets (s : State) (c : Nat) (v : CoreS) : (s.setCore c v).upsets = s.upsets := rfl
@[simp] theorem setCore_bankUpsets (s : State) (c : Nat) (v : CoreS) : (s.setCore c v).bankUpsets = s.bankUpsets := rfl
@[simp] theorem setCore_sealed (s : State) (c : Nat) (v : CoreS) : (s.setCore c v).sealed = s.sealed := rfl
@[simp] theorem setCore_lineSeals (s : State) (c : Nat) (v : CoreS) : (s.setCore c v).lineSeals = s.lineSeals := rfl
@[simp] theorem setCore_l2 (s : State) (c : Nat) (v : CoreS) : (s.setCore c v).l2 = s.l2 := rfl
@[simp] theorem setCore_hold (s : State) (c : Nat) (v : CoreS) : (s.setCore c v).hold = s.hold := rfl
@[simp] theorem setCore_dir (s : State) (c : Nat) (v : CoreS) : (s.setCore c v).dir = s.dir := rfl
@[simp] theorem setCore_ucopies (s : State) (c : Nat) (v : CoreS) : (s.setCore c v).ucopies = s.ucopies := rfl
@[simp] theorem setCore_swm (s : State) (c : Nat) (v : CoreS) : (s.setCore c v).swm = s.swm := rfl
@[simp] theorem setCore_tlb (s : State) (c : Nat) (v : CoreS) : (s.setCore c v).tlb = s.tlb := rfl
@[simp] theorem setCore_asids (s : State) (c : Nat) (v : CoreS) : (s.setCore c v).asids = s.asids := rfl
@[simp] theorem setCore_teams (s : State) (c : Nat) (v : CoreS) : (s.setCore c v).teams = s.teams := rfl
@[simp] theorem setCore_crews (s : State) (c : Nat) (v : CoreS) : (s.setCore c v).crews = s.crews := rfl
@[simp] theorem setCore_groups (s : State) (c : Nat) (v : CoreS) : (s.setCore c v).groups = s.groups := rfl
@[simp] theorem setCore_launches (s : State) (c : Nat) (v : CoreS) : (s.setCore c v).launches = s.launches := rfl
@[simp] theorem setCore_ctxs (s : State) (c : Nat) (v : CoreS) : (s.setCore c v).ctxs = s.ctxs := rfl
@[simp] theorem setCore_parts (s : State) (c : Nat) (v : CoreS) : (s.setCore c v).parts = s.parts := rfl
@[simp] theorem setCore_homes (s : State) (c : Nat) (v : CoreS) : (s.setCore c v).homes = s.homes := rfl
@[simp] theorem setCore_runs (s : State) (c : Nat) (v : CoreS) : (s.setCore c v).runs = s.runs := rfl
@[simp] theorem setCore_cur (s : State) (c : Nat) (v : CoreS) : (s.setCore c v).cur = s.cur := rfl
@[simp] theorem setCore_cycles (s : State) (c : Nat) (v : CoreS) : (s.setCore c v).cycles = s.cycles := rfl
@[simp] theorem setCore_serial (s : State) (c : Nat) (v : CoreS) : (s.setCore c v).serial = s.serial := rfl
@[simp] theorem setCore_tick (s : State) (c : Nat) (v : CoreS) : (s.setCore c v).tick = s.tick := rfl
@[simp] theorem setCore_freeCtr (s : State) (c : Nat) (v : CoreS) : (s.setCore c v).freeCtr = s.freeCtr := rfl
@[simp] theorem setCore_mnum (s : State) (c : Nat) (v : CoreS) : (s.setCore c v).mnum = s.mnum := rfl
@[simp] theorem setCore_views (s : State) (c : Nat) (v : CoreS) : (s.setCore c v).views = s.views := rfl
@[simp] theorem setCore_markers (s : State) (c : Nat) (v : CoreS) : (s.setCore c v).markers = s.markers := rfl
@[simp] theorem setCore_links (s : State) (c : Nat) (v : CoreS) : (s.setCore c v).links = s.links := rfl
@[simp] theorem setCore_peers (s : State) (c : Nat) (v : CoreS) : (s.setCore c v).peers = s.peers := rfl
@[simp] theorem setCore_heads (s : State) (c : Nat) (v : CoreS) : (s.setCore c v).heads = s.heads := rfl
@[simp] theorem setCore_dev (s : State) (c : Nat) (v : CoreS) : (s.setCore c v).dev = s.dev := rfl
@[simp] theorem setCore_qps (s : State) (c : Nat) (v : CoreS) : (s.setCore c v).qps = s.qps := rfl
@[simp] theorem setCore_ports (s : State) (c : Nat) (v : CoreS) : (s.setCore c v).ports = s.ports := rfl
@[simp] theorem setCore_held (s : State) (c : Nat) (v : CoreS) : (s.setCore c v).held = s.held := rfl
@[simp] theorem setCore_out (s : State) (c : Nat) (v : CoreS) : (s.setCore c v).out = s.out := rfl
@[simp] theorem setCore_inputs (s : State) (c : Nat) (v : CoreS) : (s.setCore c v).inputs = s.inputs := rfl
@[simp] theorem setCore_flight (s : State) (c : Nat) (v : CoreS) : (s.setCore c v).flight = s.flight := rfl
@[simp] theorem setCore_turns (s : State) (c : Nat) (v : CoreS) : (s.setCore c v).turns = s.turns := rfl

/-! ### `State.modCore` -/

@[simp] theorem modCore_mem (s : State) (c : Nat) (f : CoreS → CoreS) : (s.modCore c f).mem = s.mem := rfl
@[simp] theorem modCore_poison (s : State) (c : Nat) (f : CoreS → CoreS) : (s.modCore c f).poison = s.poison := rfl
@[simp] theorem modCore_integrity (s : State) (c : Nat) (f : CoreS → CoreS) : (s.modCore c f).integrity = s.integrity := rfl
@[simp] theorem modCore_bankPoison (s : State) (c : Nat) (f : CoreS → CoreS) : (s.modCore c f).bankPoison = s.bankPoison := rfl
@[simp] theorem modCore_upsets (s : State) (c : Nat) (f : CoreS → CoreS) : (s.modCore c f).upsets = s.upsets := rfl
@[simp] theorem modCore_bankUpsets (s : State) (c : Nat) (f : CoreS → CoreS) : (s.modCore c f).bankUpsets = s.bankUpsets := rfl
@[simp] theorem modCore_sealed (s : State) (c : Nat) (f : CoreS → CoreS) : (s.modCore c f).sealed = s.sealed := rfl
@[simp] theorem modCore_lineSeals (s : State) (c : Nat) (f : CoreS → CoreS) : (s.modCore c f).lineSeals = s.lineSeals := rfl
@[simp] theorem modCore_l2 (s : State) (c : Nat) (f : CoreS → CoreS) : (s.modCore c f).l2 = s.l2 := rfl
@[simp] theorem modCore_hold (s : State) (c : Nat) (f : CoreS → CoreS) : (s.modCore c f).hold = s.hold := rfl
@[simp] theorem modCore_dir (s : State) (c : Nat) (f : CoreS → CoreS) : (s.modCore c f).dir = s.dir := rfl
@[simp] theorem modCore_ucopies (s : State) (c : Nat) (f : CoreS → CoreS) : (s.modCore c f).ucopies = s.ucopies := rfl
@[simp] theorem modCore_swm (s : State) (c : Nat) (f : CoreS → CoreS) : (s.modCore c f).swm = s.swm := rfl
@[simp] theorem modCore_tlb (s : State) (c : Nat) (f : CoreS → CoreS) : (s.modCore c f).tlb = s.tlb := rfl
@[simp] theorem modCore_asids (s : State) (c : Nat) (f : CoreS → CoreS) : (s.modCore c f).asids = s.asids := rfl
@[simp] theorem modCore_teams (s : State) (c : Nat) (f : CoreS → CoreS) : (s.modCore c f).teams = s.teams := rfl
@[simp] theorem modCore_crews (s : State) (c : Nat) (f : CoreS → CoreS) : (s.modCore c f).crews = s.crews := rfl
@[simp] theorem modCore_groups (s : State) (c : Nat) (f : CoreS → CoreS) : (s.modCore c f).groups = s.groups := rfl
@[simp] theorem modCore_launches (s : State) (c : Nat) (f : CoreS → CoreS) : (s.modCore c f).launches = s.launches := rfl
@[simp] theorem modCore_ctxs (s : State) (c : Nat) (f : CoreS → CoreS) : (s.modCore c f).ctxs = s.ctxs := rfl
@[simp] theorem modCore_parts (s : State) (c : Nat) (f : CoreS → CoreS) : (s.modCore c f).parts = s.parts := rfl
@[simp] theorem modCore_homes (s : State) (c : Nat) (f : CoreS → CoreS) : (s.modCore c f).homes = s.homes := rfl
@[simp] theorem modCore_runs (s : State) (c : Nat) (f : CoreS → CoreS) : (s.modCore c f).runs = s.runs := rfl
@[simp] theorem modCore_cur (s : State) (c : Nat) (f : CoreS → CoreS) : (s.modCore c f).cur = s.cur := rfl
@[simp] theorem modCore_cycles (s : State) (c : Nat) (f : CoreS → CoreS) : (s.modCore c f).cycles = s.cycles := rfl
@[simp] theorem modCore_serial (s : State) (c : Nat) (f : CoreS → CoreS) : (s.modCore c f).serial = s.serial := rfl
@[simp] theorem modCore_tick (s : State) (c : Nat) (f : CoreS → CoreS) : (s.modCore c f).tick = s.tick := rfl
@[simp] theorem modCore_freeCtr (s : State) (c : Nat) (f : CoreS → CoreS) : (s.modCore c f).freeCtr = s.freeCtr := rfl
@[simp] theorem modCore_mnum (s : State) (c : Nat) (f : CoreS → CoreS) : (s.modCore c f).mnum = s.mnum := rfl
@[simp] theorem modCore_views (s : State) (c : Nat) (f : CoreS → CoreS) : (s.modCore c f).views = s.views := rfl
@[simp] theorem modCore_markers (s : State) (c : Nat) (f : CoreS → CoreS) : (s.modCore c f).markers = s.markers := rfl
@[simp] theorem modCore_links (s : State) (c : Nat) (f : CoreS → CoreS) : (s.modCore c f).links = s.links := rfl
@[simp] theorem modCore_peers (s : State) (c : Nat) (f : CoreS → CoreS) : (s.modCore c f).peers = s.peers := rfl
@[simp] theorem modCore_heads (s : State) (c : Nat) (f : CoreS → CoreS) : (s.modCore c f).heads = s.heads := rfl
@[simp] theorem modCore_dev (s : State) (c : Nat) (f : CoreS → CoreS) : (s.modCore c f).dev = s.dev := rfl
@[simp] theorem modCore_qps (s : State) (c : Nat) (f : CoreS → CoreS) : (s.modCore c f).qps = s.qps := rfl
@[simp] theorem modCore_ports (s : State) (c : Nat) (f : CoreS → CoreS) : (s.modCore c f).ports = s.ports := rfl
@[simp] theorem modCore_held (s : State) (c : Nat) (f : CoreS → CoreS) : (s.modCore c f).held = s.held := rfl
@[simp] theorem modCore_out (s : State) (c : Nat) (f : CoreS → CoreS) : (s.modCore c f).out = s.out := rfl
@[simp] theorem modCore_inputs (s : State) (c : Nat) (f : CoreS → CoreS) : (s.modCore c f).inputs = s.inputs := rfl
@[simp] theorem modCore_flight (s : State) (c : Nat) (f : CoreS → CoreS) : (s.modCore c f).flight = s.flight := rfl
@[simp] theorem modCore_turns (s : State) (c : Nat) (f : CoreS → CoreS) : (s.modCore c f).turns = s.turns := rfl

/-! ### `State.setCtx` -/

@[simp] theorem setCtx_mem (s : State) (c : Nat) (v : Ctx) : (s.setCtx c v).mem = s.mem := rfl
@[simp] theorem setCtx_poison (s : State) (c : Nat) (v : Ctx) : (s.setCtx c v).poison = s.poison := rfl
@[simp] theorem setCtx_integrity (s : State) (c : Nat) (v : Ctx) : (s.setCtx c v).integrity = s.integrity := rfl
@[simp] theorem setCtx_bankPoison (s : State) (c : Nat) (v : Ctx) : (s.setCtx c v).bankPoison = s.bankPoison := rfl
@[simp] theorem setCtx_upsets (s : State) (c : Nat) (v : Ctx) : (s.setCtx c v).upsets = s.upsets := rfl
@[simp] theorem setCtx_bankUpsets (s : State) (c : Nat) (v : Ctx) : (s.setCtx c v).bankUpsets = s.bankUpsets := rfl
@[simp] theorem setCtx_sealed (s : State) (c : Nat) (v : Ctx) : (s.setCtx c v).sealed = s.sealed := rfl
@[simp] theorem setCtx_lineSeals (s : State) (c : Nat) (v : Ctx) : (s.setCtx c v).lineSeals = s.lineSeals := rfl
@[simp] theorem setCtx_l2 (s : State) (c : Nat) (v : Ctx) : (s.setCtx c v).l2 = s.l2 := rfl
@[simp] theorem setCtx_hold (s : State) (c : Nat) (v : Ctx) : (s.setCtx c v).hold = s.hold := rfl
@[simp] theorem setCtx_dir (s : State) (c : Nat) (v : Ctx) : (s.setCtx c v).dir = s.dir := rfl
@[simp] theorem setCtx_ucopies (s : State) (c : Nat) (v : Ctx) : (s.setCtx c v).ucopies = s.ucopies := rfl
@[simp] theorem setCtx_swm (s : State) (c : Nat) (v : Ctx) : (s.setCtx c v).swm = s.swm := rfl
@[simp] theorem setCtx_tlb (s : State) (c : Nat) (v : Ctx) : (s.setCtx c v).tlb = s.tlb := rfl
@[simp] theorem setCtx_asids (s : State) (c : Nat) (v : Ctx) : (s.setCtx c v).asids = s.asids := rfl
@[simp] theorem setCtx_teams (s : State) (c : Nat) (v : Ctx) : (s.setCtx c v).teams = s.teams := rfl
@[simp] theorem setCtx_crews (s : State) (c : Nat) (v : Ctx) : (s.setCtx c v).crews = s.crews := rfl
@[simp] theorem setCtx_groups (s : State) (c : Nat) (v : Ctx) : (s.setCtx c v).groups = s.groups := rfl
@[simp] theorem setCtx_launches (s : State) (c : Nat) (v : Ctx) : (s.setCtx c v).launches = s.launches := rfl
@[simp] theorem setCtx_parts (s : State) (c : Nat) (v : Ctx) : (s.setCtx c v).parts = s.parts := rfl
@[simp] theorem setCtx_cores (s : State) (c : Nat) (v : Ctx) : (s.setCtx c v).cores = s.cores := rfl
@[simp] theorem setCtx_homes (s : State) (c : Nat) (v : Ctx) : (s.setCtx c v).homes = s.homes := rfl
@[simp] theorem setCtx_runs (s : State) (c : Nat) (v : Ctx) : (s.setCtx c v).runs = s.runs := rfl
@[simp] theorem setCtx_cur (s : State) (c : Nat) (v : Ctx) : (s.setCtx c v).cur = s.cur := rfl
@[simp] theorem setCtx_cycles (s : State) (c : Nat) (v : Ctx) : (s.setCtx c v).cycles = s.cycles := rfl
@[simp] theorem setCtx_serial (s : State) (c : Nat) (v : Ctx) : (s.setCtx c v).serial = s.serial := rfl
@[simp] theorem setCtx_tick (s : State) (c : Nat) (v : Ctx) : (s.setCtx c v).tick = s.tick := rfl
@[simp] theorem setCtx_freeCtr (s : State) (c : Nat) (v : Ctx) : (s.setCtx c v).freeCtr = s.freeCtr := rfl
@[simp] theorem setCtx_mnum (s : State) (c : Nat) (v : Ctx) : (s.setCtx c v).mnum = s.mnum := rfl
@[simp] theorem setCtx_views (s : State) (c : Nat) (v : Ctx) : (s.setCtx c v).views = s.views := rfl
@[simp] theorem setCtx_markers (s : State) (c : Nat) (v : Ctx) : (s.setCtx c v).markers = s.markers := rfl
@[simp] theorem setCtx_links (s : State) (c : Nat) (v : Ctx) : (s.setCtx c v).links = s.links := rfl
@[simp] theorem setCtx_peers (s : State) (c : Nat) (v : Ctx) : (s.setCtx c v).peers = s.peers := rfl
@[simp] theorem setCtx_heads (s : State) (c : Nat) (v : Ctx) : (s.setCtx c v).heads = s.heads := rfl
@[simp] theorem setCtx_dev (s : State) (c : Nat) (v : Ctx) : (s.setCtx c v).dev = s.dev := rfl
@[simp] theorem setCtx_qps (s : State) (c : Nat) (v : Ctx) : (s.setCtx c v).qps = s.qps := rfl
@[simp] theorem setCtx_ports (s : State) (c : Nat) (v : Ctx) : (s.setCtx c v).ports = s.ports := rfl
@[simp] theorem setCtx_held (s : State) (c : Nat) (v : Ctx) : (s.setCtx c v).held = s.held := rfl
@[simp] theorem setCtx_out (s : State) (c : Nat) (v : Ctx) : (s.setCtx c v).out = s.out := rfl
@[simp] theorem setCtx_inputs (s : State) (c : Nat) (v : Ctx) : (s.setCtx c v).inputs = s.inputs := rfl
@[simp] theorem setCtx_flight (s : State) (c : Nat) (v : Ctx) : (s.setCtx c v).flight = s.flight := rfl
@[simp] theorem setCtx_turns (s : State) (c : Nat) (v : Ctx) : (s.setCtx c v).turns = s.turns := rfl

/-! ### `State.modCtx` -/

@[simp] theorem modCtx_mem (s : State) (c : Nat) (f : Ctx → Ctx) : (s.modCtx c f).mem = s.mem := rfl
@[simp] theorem modCtx_poison (s : State) (c : Nat) (f : Ctx → Ctx) : (s.modCtx c f).poison = s.poison := rfl
@[simp] theorem modCtx_integrity (s : State) (c : Nat) (f : Ctx → Ctx) : (s.modCtx c f).integrity = s.integrity := rfl
@[simp] theorem modCtx_bankPoison (s : State) (c : Nat) (f : Ctx → Ctx) : (s.modCtx c f).bankPoison = s.bankPoison := rfl
@[simp] theorem modCtx_upsets (s : State) (c : Nat) (f : Ctx → Ctx) : (s.modCtx c f).upsets = s.upsets := rfl
@[simp] theorem modCtx_bankUpsets (s : State) (c : Nat) (f : Ctx → Ctx) : (s.modCtx c f).bankUpsets = s.bankUpsets := rfl
@[simp] theorem modCtx_sealed (s : State) (c : Nat) (f : Ctx → Ctx) : (s.modCtx c f).sealed = s.sealed := rfl
@[simp] theorem modCtx_lineSeals (s : State) (c : Nat) (f : Ctx → Ctx) : (s.modCtx c f).lineSeals = s.lineSeals := rfl
@[simp] theorem modCtx_l2 (s : State) (c : Nat) (f : Ctx → Ctx) : (s.modCtx c f).l2 = s.l2 := rfl
@[simp] theorem modCtx_hold (s : State) (c : Nat) (f : Ctx → Ctx) : (s.modCtx c f).hold = s.hold := rfl
@[simp] theorem modCtx_dir (s : State) (c : Nat) (f : Ctx → Ctx) : (s.modCtx c f).dir = s.dir := rfl
@[simp] theorem modCtx_ucopies (s : State) (c : Nat) (f : Ctx → Ctx) : (s.modCtx c f).ucopies = s.ucopies := rfl
@[simp] theorem modCtx_swm (s : State) (c : Nat) (f : Ctx → Ctx) : (s.modCtx c f).swm = s.swm := rfl
@[simp] theorem modCtx_tlb (s : State) (c : Nat) (f : Ctx → Ctx) : (s.modCtx c f).tlb = s.tlb := rfl
@[simp] theorem modCtx_asids (s : State) (c : Nat) (f : Ctx → Ctx) : (s.modCtx c f).asids = s.asids := rfl
@[simp] theorem modCtx_teams (s : State) (c : Nat) (f : Ctx → Ctx) : (s.modCtx c f).teams = s.teams := rfl
@[simp] theorem modCtx_crews (s : State) (c : Nat) (f : Ctx → Ctx) : (s.modCtx c f).crews = s.crews := rfl
@[simp] theorem modCtx_groups (s : State) (c : Nat) (f : Ctx → Ctx) : (s.modCtx c f).groups = s.groups := rfl
@[simp] theorem modCtx_launches (s : State) (c : Nat) (f : Ctx → Ctx) : (s.modCtx c f).launches = s.launches := rfl
@[simp] theorem modCtx_parts (s : State) (c : Nat) (f : Ctx → Ctx) : (s.modCtx c f).parts = s.parts := rfl
@[simp] theorem modCtx_cores (s : State) (c : Nat) (f : Ctx → Ctx) : (s.modCtx c f).cores = s.cores := rfl
@[simp] theorem modCtx_homes (s : State) (c : Nat) (f : Ctx → Ctx) : (s.modCtx c f).homes = s.homes := rfl
@[simp] theorem modCtx_runs (s : State) (c : Nat) (f : Ctx → Ctx) : (s.modCtx c f).runs = s.runs := rfl
@[simp] theorem modCtx_cur (s : State) (c : Nat) (f : Ctx → Ctx) : (s.modCtx c f).cur = s.cur := rfl
@[simp] theorem modCtx_cycles (s : State) (c : Nat) (f : Ctx → Ctx) : (s.modCtx c f).cycles = s.cycles := rfl
@[simp] theorem modCtx_serial (s : State) (c : Nat) (f : Ctx → Ctx) : (s.modCtx c f).serial = s.serial := rfl
@[simp] theorem modCtx_tick (s : State) (c : Nat) (f : Ctx → Ctx) : (s.modCtx c f).tick = s.tick := rfl
@[simp] theorem modCtx_freeCtr (s : State) (c : Nat) (f : Ctx → Ctx) : (s.modCtx c f).freeCtr = s.freeCtr := rfl
@[simp] theorem modCtx_mnum (s : State) (c : Nat) (f : Ctx → Ctx) : (s.modCtx c f).mnum = s.mnum := rfl
@[simp] theorem modCtx_views (s : State) (c : Nat) (f : Ctx → Ctx) : (s.modCtx c f).views = s.views := rfl
@[simp] theorem modCtx_markers (s : State) (c : Nat) (f : Ctx → Ctx) : (s.modCtx c f).markers = s.markers := rfl
@[simp] theorem modCtx_links (s : State) (c : Nat) (f : Ctx → Ctx) : (s.modCtx c f).links = s.links := rfl
@[simp] theorem modCtx_peers (s : State) (c : Nat) (f : Ctx → Ctx) : (s.modCtx c f).peers = s.peers := rfl
@[simp] theorem modCtx_heads (s : State) (c : Nat) (f : Ctx → Ctx) : (s.modCtx c f).heads = s.heads := rfl
@[simp] theorem modCtx_dev (s : State) (c : Nat) (f : Ctx → Ctx) : (s.modCtx c f).dev = s.dev := rfl
@[simp] theorem modCtx_qps (s : State) (c : Nat) (f : Ctx → Ctx) : (s.modCtx c f).qps = s.qps := rfl
@[simp] theorem modCtx_ports (s : State) (c : Nat) (f : Ctx → Ctx) : (s.modCtx c f).ports = s.ports := rfl
@[simp] theorem modCtx_held (s : State) (c : Nat) (f : Ctx → Ctx) : (s.modCtx c f).held = s.held := rfl
@[simp] theorem modCtx_out (s : State) (c : Nat) (f : Ctx → Ctx) : (s.modCtx c f).out = s.out := rfl
@[simp] theorem modCtx_inputs (s : State) (c : Nat) (f : Ctx → Ctx) : (s.modCtx c f).inputs = s.inputs := rfl
@[simp] theorem modCtx_flight (s : State) (c : Nat) (f : Ctx → Ctx) : (s.modCtx c f).flight = s.flight := rfl
@[simp] theorem modCtx_turns (s : State) (c : Nat) (f : Ctx → Ctx) : (s.modCtx c f).turns = s.turns := rfl

/-! ### `State.modPart` -/

@[simp] theorem modPart_mem (s : State) (p : Nat) (f : Part → Part) : (s.modPart p f).mem = s.mem := rfl
@[simp] theorem modPart_poison (s : State) (p : Nat) (f : Part → Part) : (s.modPart p f).poison = s.poison := rfl
@[simp] theorem modPart_integrity (s : State) (p : Nat) (f : Part → Part) : (s.modPart p f).integrity = s.integrity := rfl
@[simp] theorem modPart_bankPoison (s : State) (p : Nat) (f : Part → Part) : (s.modPart p f).bankPoison = s.bankPoison := rfl
@[simp] theorem modPart_upsets (s : State) (p : Nat) (f : Part → Part) : (s.modPart p f).upsets = s.upsets := rfl
@[simp] theorem modPart_bankUpsets (s : State) (p : Nat) (f : Part → Part) : (s.modPart p f).bankUpsets = s.bankUpsets := rfl
@[simp] theorem modPart_sealed (s : State) (p : Nat) (f : Part → Part) : (s.modPart p f).sealed = s.sealed := rfl
@[simp] theorem modPart_lineSeals (s : State) (p : Nat) (f : Part → Part) : (s.modPart p f).lineSeals = s.lineSeals := rfl
@[simp] theorem modPart_l2 (s : State) (p : Nat) (f : Part → Part) : (s.modPart p f).l2 = s.l2 := rfl
@[simp] theorem modPart_hold (s : State) (p : Nat) (f : Part → Part) : (s.modPart p f).hold = s.hold := rfl
@[simp] theorem modPart_dir (s : State) (p : Nat) (f : Part → Part) : (s.modPart p f).dir = s.dir := rfl
@[simp] theorem modPart_ucopies (s : State) (p : Nat) (f : Part → Part) : (s.modPart p f).ucopies = s.ucopies := rfl
@[simp] theorem modPart_swm (s : State) (p : Nat) (f : Part → Part) : (s.modPart p f).swm = s.swm := rfl
@[simp] theorem modPart_tlb (s : State) (p : Nat) (f : Part → Part) : (s.modPart p f).tlb = s.tlb := rfl
@[simp] theorem modPart_asids (s : State) (p : Nat) (f : Part → Part) : (s.modPart p f).asids = s.asids := rfl
@[simp] theorem modPart_teams (s : State) (p : Nat) (f : Part → Part) : (s.modPart p f).teams = s.teams := rfl
@[simp] theorem modPart_crews (s : State) (p : Nat) (f : Part → Part) : (s.modPart p f).crews = s.crews := rfl
@[simp] theorem modPart_groups (s : State) (p : Nat) (f : Part → Part) : (s.modPart p f).groups = s.groups := rfl
@[simp] theorem modPart_launches (s : State) (p : Nat) (f : Part → Part) : (s.modPart p f).launches = s.launches := rfl
@[simp] theorem modPart_ctxs (s : State) (p : Nat) (f : Part → Part) : (s.modPart p f).ctxs = s.ctxs := rfl
@[simp] theorem modPart_cores (s : State) (p : Nat) (f : Part → Part) : (s.modPart p f).cores = s.cores := rfl
@[simp] theorem modPart_homes (s : State) (p : Nat) (f : Part → Part) : (s.modPart p f).homes = s.homes := rfl
@[simp] theorem modPart_runs (s : State) (p : Nat) (f : Part → Part) : (s.modPart p f).runs = s.runs := rfl
@[simp] theorem modPart_cur (s : State) (p : Nat) (f : Part → Part) : (s.modPart p f).cur = s.cur := rfl
@[simp] theorem modPart_cycles (s : State) (p : Nat) (f : Part → Part) : (s.modPart p f).cycles = s.cycles := rfl
@[simp] theorem modPart_serial (s : State) (p : Nat) (f : Part → Part) : (s.modPart p f).serial = s.serial := rfl
@[simp] theorem modPart_tick (s : State) (p : Nat) (f : Part → Part) : (s.modPart p f).tick = s.tick := rfl
@[simp] theorem modPart_freeCtr (s : State) (p : Nat) (f : Part → Part) : (s.modPart p f).freeCtr = s.freeCtr := rfl
@[simp] theorem modPart_mnum (s : State) (p : Nat) (f : Part → Part) : (s.modPart p f).mnum = s.mnum := rfl
@[simp] theorem modPart_views (s : State) (p : Nat) (f : Part → Part) : (s.modPart p f).views = s.views := rfl
@[simp] theorem modPart_markers (s : State) (p : Nat) (f : Part → Part) : (s.modPart p f).markers = s.markers := rfl
@[simp] theorem modPart_links (s : State) (p : Nat) (f : Part → Part) : (s.modPart p f).links = s.links := rfl
@[simp] theorem modPart_peers (s : State) (p : Nat) (f : Part → Part) : (s.modPart p f).peers = s.peers := rfl
@[simp] theorem modPart_heads (s : State) (p : Nat) (f : Part → Part) : (s.modPart p f).heads = s.heads := rfl
@[simp] theorem modPart_dev (s : State) (p : Nat) (f : Part → Part) : (s.modPart p f).dev = s.dev := rfl
@[simp] theorem modPart_qps (s : State) (p : Nat) (f : Part → Part) : (s.modPart p f).qps = s.qps := rfl
@[simp] theorem modPart_ports (s : State) (p : Nat) (f : Part → Part) : (s.modPart p f).ports = s.ports := rfl
@[simp] theorem modPart_held (s : State) (p : Nat) (f : Part → Part) : (s.modPart p f).held = s.held := rfl
@[simp] theorem modPart_out (s : State) (p : Nat) (f : Part → Part) : (s.modPart p f).out = s.out := rfl
@[simp] theorem modPart_inputs (s : State) (p : Nat) (f : Part → Part) : (s.modPart p f).inputs = s.inputs := rfl
@[simp] theorem modPart_flight (s : State) (p : Nat) (f : Part → Part) : (s.modPart p f).flight = s.flight := rfl
@[simp] theorem modPart_turns (s : State) (p : Nat) (f : Part → Part) : (s.modPart p f).turns = s.turns := rfl

/-! ### `State.modLaunch` -/

@[simp] theorem modLaunch_mem (s : State) (l : Nat) (f : Launch → Launch) : (s.modLaunch l f).mem = s.mem := by
  unfold State.modLaunch; split <;> rfl
@[simp] theorem modLaunch_poison (s : State) (l : Nat) (f : Launch → Launch) : (s.modLaunch l f).poison = s.poison := by
  unfold State.modLaunch; split <;> rfl
@[simp] theorem modLaunch_integrity (s : State) (l : Nat) (f : Launch → Launch) : (s.modLaunch l f).integrity = s.integrity := by
  unfold State.modLaunch; split <;> rfl
@[simp] theorem modLaunch_bankPoison (s : State) (l : Nat) (f : Launch → Launch) : (s.modLaunch l f).bankPoison = s.bankPoison := by
  unfold State.modLaunch; split <;> rfl
@[simp] theorem modLaunch_upsets (s : State) (l : Nat) (f : Launch → Launch) : (s.modLaunch l f).upsets = s.upsets := by
  unfold State.modLaunch; split <;> rfl
@[simp] theorem modLaunch_bankUpsets (s : State) (l : Nat) (f : Launch → Launch) : (s.modLaunch l f).bankUpsets = s.bankUpsets := by
  unfold State.modLaunch; split <;> rfl
@[simp] theorem modLaunch_sealed (s : State) (l : Nat) (f : Launch → Launch) : (s.modLaunch l f).sealed = s.sealed := by
  unfold State.modLaunch; split <;> rfl
@[simp] theorem modLaunch_lineSeals (s : State) (l : Nat) (f : Launch → Launch) : (s.modLaunch l f).lineSeals = s.lineSeals := by
  unfold State.modLaunch; split <;> rfl
@[simp] theorem modLaunch_l2 (s : State) (l : Nat) (f : Launch → Launch) : (s.modLaunch l f).l2 = s.l2 := by
  unfold State.modLaunch; split <;> rfl
@[simp] theorem modLaunch_hold (s : State) (l : Nat) (f : Launch → Launch) : (s.modLaunch l f).hold = s.hold := by
  unfold State.modLaunch; split <;> rfl
@[simp] theorem modLaunch_dir (s : State) (l : Nat) (f : Launch → Launch) : (s.modLaunch l f).dir = s.dir := by
  unfold State.modLaunch; split <;> rfl
@[simp] theorem modLaunch_ucopies (s : State) (l : Nat) (f : Launch → Launch) : (s.modLaunch l f).ucopies = s.ucopies := by
  unfold State.modLaunch; split <;> rfl
@[simp] theorem modLaunch_swm (s : State) (l : Nat) (f : Launch → Launch) : (s.modLaunch l f).swm = s.swm := by
  unfold State.modLaunch; split <;> rfl
@[simp] theorem modLaunch_tlb (s : State) (l : Nat) (f : Launch → Launch) : (s.modLaunch l f).tlb = s.tlb := by
  unfold State.modLaunch; split <;> rfl
@[simp] theorem modLaunch_asids (s : State) (l : Nat) (f : Launch → Launch) : (s.modLaunch l f).asids = s.asids := by
  unfold State.modLaunch; split <;> rfl
@[simp] theorem modLaunch_teams (s : State) (l : Nat) (f : Launch → Launch) : (s.modLaunch l f).teams = s.teams := by
  unfold State.modLaunch; split <;> rfl
@[simp] theorem modLaunch_crews (s : State) (l : Nat) (f : Launch → Launch) : (s.modLaunch l f).crews = s.crews := by
  unfold State.modLaunch; split <;> rfl
@[simp] theorem modLaunch_groups (s : State) (l : Nat) (f : Launch → Launch) : (s.modLaunch l f).groups = s.groups := by
  unfold State.modLaunch; split <;> rfl
@[simp] theorem modLaunch_ctxs (s : State) (l : Nat) (f : Launch → Launch) : (s.modLaunch l f).ctxs = s.ctxs := by
  unfold State.modLaunch; split <;> rfl
@[simp] theorem modLaunch_parts (s : State) (l : Nat) (f : Launch → Launch) : (s.modLaunch l f).parts = s.parts := by
  unfold State.modLaunch; split <;> rfl
@[simp] theorem modLaunch_cores (s : State) (l : Nat) (f : Launch → Launch) : (s.modLaunch l f).cores = s.cores := by
  unfold State.modLaunch; split <;> rfl
@[simp] theorem modLaunch_homes (s : State) (l : Nat) (f : Launch → Launch) : (s.modLaunch l f).homes = s.homes := by
  unfold State.modLaunch; split <;> rfl
@[simp] theorem modLaunch_runs (s : State) (l : Nat) (f : Launch → Launch) : (s.modLaunch l f).runs = s.runs := by
  unfold State.modLaunch; split <;> rfl
@[simp] theorem modLaunch_cur (s : State) (l : Nat) (f : Launch → Launch) : (s.modLaunch l f).cur = s.cur := by
  unfold State.modLaunch; split <;> rfl
@[simp] theorem modLaunch_cycles (s : State) (l : Nat) (f : Launch → Launch) : (s.modLaunch l f).cycles = s.cycles := by
  unfold State.modLaunch; split <;> rfl
@[simp] theorem modLaunch_serial (s : State) (l : Nat) (f : Launch → Launch) : (s.modLaunch l f).serial = s.serial := by
  unfold State.modLaunch; split <;> rfl
@[simp] theorem modLaunch_tick (s : State) (l : Nat) (f : Launch → Launch) : (s.modLaunch l f).tick = s.tick := by
  unfold State.modLaunch; split <;> rfl
@[simp] theorem modLaunch_freeCtr (s : State) (l : Nat) (f : Launch → Launch) : (s.modLaunch l f).freeCtr = s.freeCtr := by
  unfold State.modLaunch; split <;> rfl
@[simp] theorem modLaunch_mnum (s : State) (l : Nat) (f : Launch → Launch) : (s.modLaunch l f).mnum = s.mnum := by
  unfold State.modLaunch; split <;> rfl
@[simp] theorem modLaunch_views (s : State) (l : Nat) (f : Launch → Launch) : (s.modLaunch l f).views = s.views := by
  unfold State.modLaunch; split <;> rfl
@[simp] theorem modLaunch_markers (s : State) (l : Nat) (f : Launch → Launch) : (s.modLaunch l f).markers = s.markers := by
  unfold State.modLaunch; split <;> rfl
@[simp] theorem modLaunch_links (s : State) (l : Nat) (f : Launch → Launch) : (s.modLaunch l f).links = s.links := by
  unfold State.modLaunch; split <;> rfl
@[simp] theorem modLaunch_peers (s : State) (l : Nat) (f : Launch → Launch) : (s.modLaunch l f).peers = s.peers := by
  unfold State.modLaunch; split <;> rfl
@[simp] theorem modLaunch_heads (s : State) (l : Nat) (f : Launch → Launch) : (s.modLaunch l f).heads = s.heads := by
  unfold State.modLaunch; split <;> rfl
@[simp] theorem modLaunch_dev (s : State) (l : Nat) (f : Launch → Launch) : (s.modLaunch l f).dev = s.dev := by
  unfold State.modLaunch; split <;> rfl
@[simp] theorem modLaunch_qps (s : State) (l : Nat) (f : Launch → Launch) : (s.modLaunch l f).qps = s.qps := by
  unfold State.modLaunch; split <;> rfl
@[simp] theorem modLaunch_ports (s : State) (l : Nat) (f : Launch → Launch) : (s.modLaunch l f).ports = s.ports := by
  unfold State.modLaunch; split <;> rfl
@[simp] theorem modLaunch_held (s : State) (l : Nat) (f : Launch → Launch) : (s.modLaunch l f).held = s.held := by
  unfold State.modLaunch; split <;> rfl
@[simp] theorem modLaunch_out (s : State) (l : Nat) (f : Launch → Launch) : (s.modLaunch l f).out = s.out := by
  unfold State.modLaunch; split <;> rfl
@[simp] theorem modLaunch_inputs (s : State) (l : Nat) (f : Launch → Launch) : (s.modLaunch l f).inputs = s.inputs := by
  unfold State.modLaunch; split <;> rfl
@[simp] theorem modLaunch_flight (s : State) (l : Nat) (f : Launch → Launch) : (s.modLaunch l f).flight = s.flight := by
  unfold State.modLaunch; split <;> rfl
@[simp] theorem modLaunch_turns (s : State) (l : Nat) (f : Launch → Launch) : (s.modLaunch l f).turns = s.turns := by
  unfold State.modLaunch; split <;> rfl

/-! ### `State.modCrew` -/

@[simp] theorem modCrew_mem (s : State) (c : Nat) (f : Crew → Crew) : (s.modCrew c f).mem = s.mem := by
  unfold State.modCrew; split <;> rfl
@[simp] theorem modCrew_poison (s : State) (c : Nat) (f : Crew → Crew) : (s.modCrew c f).poison = s.poison := by
  unfold State.modCrew; split <;> rfl
@[simp] theorem modCrew_integrity (s : State) (c : Nat) (f : Crew → Crew) : (s.modCrew c f).integrity = s.integrity := by
  unfold State.modCrew; split <;> rfl
@[simp] theorem modCrew_bankPoison (s : State) (c : Nat) (f : Crew → Crew) : (s.modCrew c f).bankPoison = s.bankPoison := by
  unfold State.modCrew; split <;> rfl
@[simp] theorem modCrew_upsets (s : State) (c : Nat) (f : Crew → Crew) : (s.modCrew c f).upsets = s.upsets := by
  unfold State.modCrew; split <;> rfl
@[simp] theorem modCrew_bankUpsets (s : State) (c : Nat) (f : Crew → Crew) : (s.modCrew c f).bankUpsets = s.bankUpsets := by
  unfold State.modCrew; split <;> rfl
@[simp] theorem modCrew_sealed (s : State) (c : Nat) (f : Crew → Crew) : (s.modCrew c f).sealed = s.sealed := by
  unfold State.modCrew; split <;> rfl
@[simp] theorem modCrew_lineSeals (s : State) (c : Nat) (f : Crew → Crew) : (s.modCrew c f).lineSeals = s.lineSeals := by
  unfold State.modCrew; split <;> rfl
@[simp] theorem modCrew_l2 (s : State) (c : Nat) (f : Crew → Crew) : (s.modCrew c f).l2 = s.l2 := by
  unfold State.modCrew; split <;> rfl
@[simp] theorem modCrew_hold (s : State) (c : Nat) (f : Crew → Crew) : (s.modCrew c f).hold = s.hold := by
  unfold State.modCrew; split <;> rfl
@[simp] theorem modCrew_dir (s : State) (c : Nat) (f : Crew → Crew) : (s.modCrew c f).dir = s.dir := by
  unfold State.modCrew; split <;> rfl
@[simp] theorem modCrew_ucopies (s : State) (c : Nat) (f : Crew → Crew) : (s.modCrew c f).ucopies = s.ucopies := by
  unfold State.modCrew; split <;> rfl
@[simp] theorem modCrew_swm (s : State) (c : Nat) (f : Crew → Crew) : (s.modCrew c f).swm = s.swm := by
  unfold State.modCrew; split <;> rfl
@[simp] theorem modCrew_tlb (s : State) (c : Nat) (f : Crew → Crew) : (s.modCrew c f).tlb = s.tlb := by
  unfold State.modCrew; split <;> rfl
@[simp] theorem modCrew_asids (s : State) (c : Nat) (f : Crew → Crew) : (s.modCrew c f).asids = s.asids := by
  unfold State.modCrew; split <;> rfl
@[simp] theorem modCrew_teams (s : State) (c : Nat) (f : Crew → Crew) : (s.modCrew c f).teams = s.teams := by
  unfold State.modCrew; split <;> rfl
@[simp] theorem modCrew_groups (s : State) (c : Nat) (f : Crew → Crew) : (s.modCrew c f).groups = s.groups := by
  unfold State.modCrew; split <;> rfl
@[simp] theorem modCrew_launches (s : State) (c : Nat) (f : Crew → Crew) : (s.modCrew c f).launches = s.launches := by
  unfold State.modCrew; split <;> rfl
@[simp] theorem modCrew_ctxs (s : State) (c : Nat) (f : Crew → Crew) : (s.modCrew c f).ctxs = s.ctxs := by
  unfold State.modCrew; split <;> rfl
@[simp] theorem modCrew_parts (s : State) (c : Nat) (f : Crew → Crew) : (s.modCrew c f).parts = s.parts := by
  unfold State.modCrew; split <;> rfl
@[simp] theorem modCrew_cores (s : State) (c : Nat) (f : Crew → Crew) : (s.modCrew c f).cores = s.cores := by
  unfold State.modCrew; split <;> rfl
@[simp] theorem modCrew_homes (s : State) (c : Nat) (f : Crew → Crew) : (s.modCrew c f).homes = s.homes := by
  unfold State.modCrew; split <;> rfl
@[simp] theorem modCrew_runs (s : State) (c : Nat) (f : Crew → Crew) : (s.modCrew c f).runs = s.runs := by
  unfold State.modCrew; split <;> rfl
@[simp] theorem modCrew_cur (s : State) (c : Nat) (f : Crew → Crew) : (s.modCrew c f).cur = s.cur := by
  unfold State.modCrew; split <;> rfl
@[simp] theorem modCrew_cycles (s : State) (c : Nat) (f : Crew → Crew) : (s.modCrew c f).cycles = s.cycles := by
  unfold State.modCrew; split <;> rfl
@[simp] theorem modCrew_serial (s : State) (c : Nat) (f : Crew → Crew) : (s.modCrew c f).serial = s.serial := by
  unfold State.modCrew; split <;> rfl
@[simp] theorem modCrew_tick (s : State) (c : Nat) (f : Crew → Crew) : (s.modCrew c f).tick = s.tick := by
  unfold State.modCrew; split <;> rfl
@[simp] theorem modCrew_freeCtr (s : State) (c : Nat) (f : Crew → Crew) : (s.modCrew c f).freeCtr = s.freeCtr := by
  unfold State.modCrew; split <;> rfl
@[simp] theorem modCrew_mnum (s : State) (c : Nat) (f : Crew → Crew) : (s.modCrew c f).mnum = s.mnum := by
  unfold State.modCrew; split <;> rfl
@[simp] theorem modCrew_views (s : State) (c : Nat) (f : Crew → Crew) : (s.modCrew c f).views = s.views := by
  unfold State.modCrew; split <;> rfl
@[simp] theorem modCrew_markers (s : State) (c : Nat) (f : Crew → Crew) : (s.modCrew c f).markers = s.markers := by
  unfold State.modCrew; split <;> rfl
@[simp] theorem modCrew_links (s : State) (c : Nat) (f : Crew → Crew) : (s.modCrew c f).links = s.links := by
  unfold State.modCrew; split <;> rfl
@[simp] theorem modCrew_peers (s : State) (c : Nat) (f : Crew → Crew) : (s.modCrew c f).peers = s.peers := by
  unfold State.modCrew; split <;> rfl
@[simp] theorem modCrew_heads (s : State) (c : Nat) (f : Crew → Crew) : (s.modCrew c f).heads = s.heads := by
  unfold State.modCrew; split <;> rfl
@[simp] theorem modCrew_dev (s : State) (c : Nat) (f : Crew → Crew) : (s.modCrew c f).dev = s.dev := by
  unfold State.modCrew; split <;> rfl
@[simp] theorem modCrew_qps (s : State) (c : Nat) (f : Crew → Crew) : (s.modCrew c f).qps = s.qps := by
  unfold State.modCrew; split <;> rfl
@[simp] theorem modCrew_ports (s : State) (c : Nat) (f : Crew → Crew) : (s.modCrew c f).ports = s.ports := by
  unfold State.modCrew; split <;> rfl
@[simp] theorem modCrew_held (s : State) (c : Nat) (f : Crew → Crew) : (s.modCrew c f).held = s.held := by
  unfold State.modCrew; split <;> rfl
@[simp] theorem modCrew_out (s : State) (c : Nat) (f : Crew → Crew) : (s.modCrew c f).out = s.out := by
  unfold State.modCrew; split <;> rfl
@[simp] theorem modCrew_inputs (s : State) (c : Nat) (f : Crew → Crew) : (s.modCrew c f).inputs = s.inputs := by
  unfold State.modCrew; split <;> rfl
@[simp] theorem modCrew_flight (s : State) (c : Nat) (f : Crew → Crew) : (s.modCrew c f).flight = s.flight := by
  unfold State.modCrew; split <;> rfl
@[simp] theorem modCrew_turns (s : State) (c : Nat) (f : Crew → Crew) : (s.modCrew c f).turns = s.turns := by
  unfold State.modCrew; split <;> rfl

/-! ### `State.modGroup` -/

@[simp] theorem modGroup_mem (s : State) (g : Nat) (f : Group → Group) : (s.modGroup g f).mem = s.mem := by
  unfold State.modGroup; split <;> rfl
@[simp] theorem modGroup_poison (s : State) (g : Nat) (f : Group → Group) : (s.modGroup g f).poison = s.poison := by
  unfold State.modGroup; split <;> rfl
@[simp] theorem modGroup_integrity (s : State) (g : Nat) (f : Group → Group) : (s.modGroup g f).integrity = s.integrity := by
  unfold State.modGroup; split <;> rfl
@[simp] theorem modGroup_bankPoison (s : State) (g : Nat) (f : Group → Group) : (s.modGroup g f).bankPoison = s.bankPoison := by
  unfold State.modGroup; split <;> rfl
@[simp] theorem modGroup_upsets (s : State) (g : Nat) (f : Group → Group) : (s.modGroup g f).upsets = s.upsets := by
  unfold State.modGroup; split <;> rfl
@[simp] theorem modGroup_bankUpsets (s : State) (g : Nat) (f : Group → Group) : (s.modGroup g f).bankUpsets = s.bankUpsets := by
  unfold State.modGroup; split <;> rfl
@[simp] theorem modGroup_sealed (s : State) (g : Nat) (f : Group → Group) : (s.modGroup g f).sealed = s.sealed := by
  unfold State.modGroup; split <;> rfl
@[simp] theorem modGroup_lineSeals (s : State) (g : Nat) (f : Group → Group) : (s.modGroup g f).lineSeals = s.lineSeals := by
  unfold State.modGroup; split <;> rfl
@[simp] theorem modGroup_l2 (s : State) (g : Nat) (f : Group → Group) : (s.modGroup g f).l2 = s.l2 := by
  unfold State.modGroup; split <;> rfl
@[simp] theorem modGroup_hold (s : State) (g : Nat) (f : Group → Group) : (s.modGroup g f).hold = s.hold := by
  unfold State.modGroup; split <;> rfl
@[simp] theorem modGroup_dir (s : State) (g : Nat) (f : Group → Group) : (s.modGroup g f).dir = s.dir := by
  unfold State.modGroup; split <;> rfl
@[simp] theorem modGroup_ucopies (s : State) (g : Nat) (f : Group → Group) : (s.modGroup g f).ucopies = s.ucopies := by
  unfold State.modGroup; split <;> rfl
@[simp] theorem modGroup_swm (s : State) (g : Nat) (f : Group → Group) : (s.modGroup g f).swm = s.swm := by
  unfold State.modGroup; split <;> rfl
@[simp] theorem modGroup_tlb (s : State) (g : Nat) (f : Group → Group) : (s.modGroup g f).tlb = s.tlb := by
  unfold State.modGroup; split <;> rfl
@[simp] theorem modGroup_asids (s : State) (g : Nat) (f : Group → Group) : (s.modGroup g f).asids = s.asids := by
  unfold State.modGroup; split <;> rfl
@[simp] theorem modGroup_teams (s : State) (g : Nat) (f : Group → Group) : (s.modGroup g f).teams = s.teams := by
  unfold State.modGroup; split <;> rfl
@[simp] theorem modGroup_crews (s : State) (g : Nat) (f : Group → Group) : (s.modGroup g f).crews = s.crews := by
  unfold State.modGroup; split <;> rfl
@[simp] theorem modGroup_launches (s : State) (g : Nat) (f : Group → Group) : (s.modGroup g f).launches = s.launches := by
  unfold State.modGroup; split <;> rfl
@[simp] theorem modGroup_ctxs (s : State) (g : Nat) (f : Group → Group) : (s.modGroup g f).ctxs = s.ctxs := by
  unfold State.modGroup; split <;> rfl
@[simp] theorem modGroup_parts (s : State) (g : Nat) (f : Group → Group) : (s.modGroup g f).parts = s.parts := by
  unfold State.modGroup; split <;> rfl
@[simp] theorem modGroup_cores (s : State) (g : Nat) (f : Group → Group) : (s.modGroup g f).cores = s.cores := by
  unfold State.modGroup; split <;> rfl
@[simp] theorem modGroup_homes (s : State) (g : Nat) (f : Group → Group) : (s.modGroup g f).homes = s.homes := by
  unfold State.modGroup; split <;> rfl
@[simp] theorem modGroup_runs (s : State) (g : Nat) (f : Group → Group) : (s.modGroup g f).runs = s.runs := by
  unfold State.modGroup; split <;> rfl
@[simp] theorem modGroup_cur (s : State) (g : Nat) (f : Group → Group) : (s.modGroup g f).cur = s.cur := by
  unfold State.modGroup; split <;> rfl
@[simp] theorem modGroup_cycles (s : State) (g : Nat) (f : Group → Group) : (s.modGroup g f).cycles = s.cycles := by
  unfold State.modGroup; split <;> rfl
@[simp] theorem modGroup_serial (s : State) (g : Nat) (f : Group → Group) : (s.modGroup g f).serial = s.serial := by
  unfold State.modGroup; split <;> rfl
@[simp] theorem modGroup_tick (s : State) (g : Nat) (f : Group → Group) : (s.modGroup g f).tick = s.tick := by
  unfold State.modGroup; split <;> rfl
@[simp] theorem modGroup_freeCtr (s : State) (g : Nat) (f : Group → Group) : (s.modGroup g f).freeCtr = s.freeCtr := by
  unfold State.modGroup; split <;> rfl
@[simp] theorem modGroup_mnum (s : State) (g : Nat) (f : Group → Group) : (s.modGroup g f).mnum = s.mnum := by
  unfold State.modGroup; split <;> rfl
@[simp] theorem modGroup_views (s : State) (g : Nat) (f : Group → Group) : (s.modGroup g f).views = s.views := by
  unfold State.modGroup; split <;> rfl
@[simp] theorem modGroup_markers (s : State) (g : Nat) (f : Group → Group) : (s.modGroup g f).markers = s.markers := by
  unfold State.modGroup; split <;> rfl
@[simp] theorem modGroup_links (s : State) (g : Nat) (f : Group → Group) : (s.modGroup g f).links = s.links := by
  unfold State.modGroup; split <;> rfl
@[simp] theorem modGroup_peers (s : State) (g : Nat) (f : Group → Group) : (s.modGroup g f).peers = s.peers := by
  unfold State.modGroup; split <;> rfl
@[simp] theorem modGroup_heads (s : State) (g : Nat) (f : Group → Group) : (s.modGroup g f).heads = s.heads := by
  unfold State.modGroup; split <;> rfl
@[simp] theorem modGroup_dev (s : State) (g : Nat) (f : Group → Group) : (s.modGroup g f).dev = s.dev := by
  unfold State.modGroup; split <;> rfl
@[simp] theorem modGroup_qps (s : State) (g : Nat) (f : Group → Group) : (s.modGroup g f).qps = s.qps := by
  unfold State.modGroup; split <;> rfl
@[simp] theorem modGroup_ports (s : State) (g : Nat) (f : Group → Group) : (s.modGroup g f).ports = s.ports := by
  unfold State.modGroup; split <;> rfl
@[simp] theorem modGroup_held (s : State) (g : Nat) (f : Group → Group) : (s.modGroup g f).held = s.held := by
  unfold State.modGroup; split <;> rfl
@[simp] theorem modGroup_out (s : State) (g : Nat) (f : Group → Group) : (s.modGroup g f).out = s.out := by
  unfold State.modGroup; split <;> rfl
@[simp] theorem modGroup_inputs (s : State) (g : Nat) (f : Group → Group) : (s.modGroup g f).inputs = s.inputs := by
  unfold State.modGroup; split <;> rfl
@[simp] theorem modGroup_flight (s : State) (g : Nat) (f : Group → Group) : (s.modGroup g f).flight = s.flight := by
  unfold State.modGroup; split <;> rfl
@[simp] theorem modGroup_turns (s : State) (g : Nat) (f : Group → Group) : (s.modGroup g f).turns = s.turns := by
  unfold State.modGroup; split <;> rfl

/-! ### `State.push` -/

@[simp] theorem push_mem (s : State) (e : Ev) : (s.push e).mem = s.mem := rfl
@[simp] theorem push_poison (s : State) (e : Ev) : (s.push e).poison = s.poison := rfl
@[simp] theorem push_integrity (s : State) (e : Ev) : (s.push e).integrity = s.integrity := rfl
@[simp] theorem push_bankPoison (s : State) (e : Ev) : (s.push e).bankPoison = s.bankPoison := rfl
@[simp] theorem push_upsets (s : State) (e : Ev) : (s.push e).upsets = s.upsets := rfl
@[simp] theorem push_bankUpsets (s : State) (e : Ev) : (s.push e).bankUpsets = s.bankUpsets := rfl
@[simp] theorem push_sealed (s : State) (e : Ev) : (s.push e).sealed = s.sealed := rfl
@[simp] theorem push_lineSeals (s : State) (e : Ev) : (s.push e).lineSeals = s.lineSeals := rfl
@[simp] theorem push_l2 (s : State) (e : Ev) : (s.push e).l2 = s.l2 := rfl
@[simp] theorem push_hold (s : State) (e : Ev) : (s.push e).hold = s.hold := rfl
@[simp] theorem push_dir (s : State) (e : Ev) : (s.push e).dir = s.dir := rfl
@[simp] theorem push_ucopies (s : State) (e : Ev) : (s.push e).ucopies = s.ucopies := rfl
@[simp] theorem push_swm (s : State) (e : Ev) : (s.push e).swm = s.swm := rfl
@[simp] theorem push_tlb (s : State) (e : Ev) : (s.push e).tlb = s.tlb := rfl
@[simp] theorem push_asids (s : State) (e : Ev) : (s.push e).asids = s.asids := rfl
@[simp] theorem push_teams (s : State) (e : Ev) : (s.push e).teams = s.teams := rfl
@[simp] theorem push_crews (s : State) (e : Ev) : (s.push e).crews = s.crews := rfl
@[simp] theorem push_groups (s : State) (e : Ev) : (s.push e).groups = s.groups := rfl
@[simp] theorem push_launches (s : State) (e : Ev) : (s.push e).launches = s.launches := rfl
@[simp] theorem push_ctxs (s : State) (e : Ev) : (s.push e).ctxs = s.ctxs := rfl
@[simp] theorem push_parts (s : State) (e : Ev) : (s.push e).parts = s.parts := rfl
@[simp] theorem push_cores (s : State) (e : Ev) : (s.push e).cores = s.cores := rfl
@[simp] theorem push_homes (s : State) (e : Ev) : (s.push e).homes = s.homes := rfl
@[simp] theorem push_runs (s : State) (e : Ev) : (s.push e).runs = s.runs := rfl
@[simp] theorem push_cur (s : State) (e : Ev) : (s.push e).cur = s.cur := rfl
@[simp] theorem push_cycles (s : State) (e : Ev) : (s.push e).cycles = s.cycles := rfl
@[simp] theorem push_serial (s : State) (e : Ev) : (s.push e).serial = s.serial := rfl
@[simp] theorem push_tick (s : State) (e : Ev) : (s.push e).tick = s.tick := rfl
@[simp] theorem push_freeCtr (s : State) (e : Ev) : (s.push e).freeCtr = s.freeCtr := rfl
@[simp] theorem push_mnum (s : State) (e : Ev) : (s.push e).mnum = s.mnum := rfl
@[simp] theorem push_views (s : State) (e : Ev) : (s.push e).views = s.views := rfl
@[simp] theorem push_markers (s : State) (e : Ev) : (s.push e).markers = s.markers := rfl
@[simp] theorem push_links (s : State) (e : Ev) : (s.push e).links = s.links := rfl
@[simp] theorem push_peers (s : State) (e : Ev) : (s.push e).peers = s.peers := rfl
@[simp] theorem push_heads (s : State) (e : Ev) : (s.push e).heads = s.heads := rfl
@[simp] theorem push_dev (s : State) (e : Ev) : (s.push e).dev = s.dev := rfl
@[simp] theorem push_qps (s : State) (e : Ev) : (s.push e).qps = s.qps := rfl
@[simp] theorem push_ports (s : State) (e : Ev) : (s.push e).ports = s.ports := rfl
@[simp] theorem push_held (s : State) (e : Ev) : (s.push e).held = s.held := rfl
@[simp] theorem push_out (s : State) (e : Ev) : (s.push e).out = s.out := rfl
@[simp] theorem push_inputs (s : State) (e : Ev) : (s.push e).inputs = s.inputs := rfl
@[simp] theorem push_turns (s : State) (e : Ev) : (s.push e).turns = s.turns := rfl
@[simp] theorem push_flight (s : State) (e : Ev) : (s.push e).flight = s.flight ++ [e] := rfl

end Sys2Proof.Machine
end

