-- ==== Sys2Proof/Laws/MemForm.lean ====
section
/-! SUPPORT. Every operation that writes memory keeps its canonical form. -/

namespace Sys2Proof.Machine

theorem mem_wf_reset : State.reset.mem.wf = true := rfl

theorem Mem.above_filter {k : Nat} {m : Mem} (p : Nat × Byte → Bool) (h : Mem.above k m) : Mem.above k (m.filter p) := by
  induction m generalizing k with
  | nil => trivial
  | cons c r ih =>
    obtain ⟨a, b⟩ := c
    obtain ⟨h1, h2, h3⟩ := h
    rw [List.filter_cons]
    split
    · exact ⟨h1, h2, ih h3⟩
    · exact Mem.above_mono (ih h3) (by omega)

theorem Mem.wf_zero {m : Mem} (lo n : Nat) (h : m.wf = true) : (m.zero lo n).wf = true :=
  (Mem.wf_iff _).2 (Mem.above_filter _ ((Mem.wf_iff _).1 h))

/-- A fold keeps what each of its steps keeps. -/
theorem foldl_keeps {α β : Type} (P : α → Prop) (f : α → β → α) (hf : ∀ a b, P a → P (f a b)) (l : List β) {a : α}
    (h : P a) : P (l.foldl f a) := by
  induction l generalizing a with
  | nil => exact h
  | cons b l ih => exact ih (hf a b h)

theorem wf_combineU {m : Mem} (u : UCopy) (h : m.wf = true) : (combineU m u).wf = true :=
  foldl_keeps (fun m : Mem => m.wf = true) _ (fun _ _ h => Mem.wf_write _ _ h) _ h

theorem wf_putWord {m : Mem} (a w : Nat) (h : m.wf = true) : (putWord m a w).wf = true := Mem.wf_write _ _ h

theorem mem_homeDirty (s : State) (line : Nat) : (s.homeDirty line).mem = s.mem := by
  unfold State.homeDirty; split <;> rfl

theorem wf_endUmode {s : State} (line : Nat) (h : s.mem.wf = true) : (s.endUmode line).mem.wf = true := by
  unfold State.endUmode
  simp only
  split
  · exact h
  · rw [mem_homeDirty]
    exact foldl_keeps (fun m : Mem => m.wf = true) _ (fun _ u h => wf_combineU u h) _ h

theorem wf_endUmodes {s : State} (pa n : Nat) (h : s.mem.wf = true) : (s.endUmodes pa n).mem.wf = true :=
  wf_endUmode _ (wf_endUmode _ h)

theorem wf_clearBlock {s : State} (v : View) (b : Nat) (h : s.mem.wf = true) : (s.clearBlock v b).mem.wf = true := by
  unfold State.clearBlock
  split
  · simp only
    split
    · exact Mem.wf_write _ _ (wf_endUmode _ h)
    · exact Mem.wf_write _ _ (wf_endUmode _ h)
  · exact h

theorem wf_masterWrite {s : State} (pa : Nat) (h : s.mem.wf = true) : (s.masterWrite pa).mem.wf = true := by
  unfold State.masterWrite
  refine foldl_keeps (fun s : State => s.mem.wf = true) _ (fun s v h => ?_) _ h
  split
  · split
    · split
      · split <;> exact h
      · exact wf_clearBlock _ _ h
    · exact h
  · exact h

theorem mem_dropTranslations (s : State) (line : Nat) : (s.dropTranslations line).mem = s.mem := by
  unfold State.dropTranslations; simp only; split <;> rfl

theorem mem_serve (s : State) (a : AgentId) (line : Nat) : (s.serve a line).mem = s.mem := by
  unfold State.serve; split
  · split <;> rfl
  · rfl

theorem mem_sendTokens (s : State) (a : AgentId) (line : Nat) (t : TokenMsg) : (sendTokens s a line t).mem = s.mem := by
  unfold sendTokens; split <;> rfl

theorem mem_tidyEntry (s : State) (line : Nat) : (tidyEntry s line).mem = s.mem := by
  unfold tidyEntry; split <;> rfl

theorem mem_free (s : State) (k : Nat) : (s.free k).2.mem = s.mem := rfl

theorem mem_sealLine (s : State) (line : Nat) : (s.sealLine line).mem = s.mem := by
  unfold State.sealLine; split <;> rfl

theorem mem_readDram (s : State) (line : Nat) : (s.readDram line).mem = s.mem := by
  unfold State.readDram; simp only; split
  · rfl
  · rfl
  · split <;> rfl
  · split <;> rfl

theorem mem_readBank (s : State) (pa n : Nat) : (s.readBank pa n).mem = s.mem := by
  unfold State.readBank; simp only; split <;> rfl

theorem mem_homeClean (s : State) (line : Nat) : (s.homeClean line).mem = s.mem := by
  unfold State.homeClean; split <;> rfl

theorem mem_gatherAll (s : State) (a : AgentId) (line : Nat) : (s.gatherAll a line).mem = s.mem := by
  unfold State.gatherAll; rw [mem_homeClean]

theorem mem_gatherHome (s : State) (ls : List Nat) : (s.gatherHome ls).mem = s.mem := rfl

theorem mem_faultChanged (s : State) (ls : List Nat) : (s.faultChanged ls).mem = s.mem := rfl

theorem mem_homeGive (s : State) (line n : Nat) (own : Bool) : (s.homeGive line n own).2.mem = s.mem := by
  unfold State.homeGive
  simp only
  split
  · exact mem_homeClean _ _
  · rfl

theorem mem_awayDrop (s : State) (p : L2Line → Bool) : (s.awayDrop p).mem = s.mem := by
  unfold State.awayDrop; simp only; split <;> rfl

theorem mem_awayTidy (s : State) (line : Nat) : (s.awayTidy line).mem = s.mem := mem_awayDrop _ _

theorem mem_slicePatch (s : State) (die : Nat) (ws : List (Nat × Byte × Byte)) : (s.slicePatch die ws).mem = s.mem := by
  unfold State.slicePatch; split <;> rfl

theorem mem_awayFill (s : State) (die : Nat) (mode : PageMode) (line : Nat) (va : Option DWord) (wish : Nat) :
    (s.awayFill die mode line va wish).mem = s.mem := by
  unfold State.awayFill; simp only; split
  · rfl
  · split
    · rfl
    · split
      · exact mem_awayDrop _ _
      · rfl

theorem wf_l2Evict {s : State} (x : L2Line) (h : s.mem.wf = true) : (s.l2Evict x).mem.wf = true := by
  unfold State.l2Evict; simp only; split
  · rw [mem_sealLine]; exact wf_endUmode _ h
  · exact wf_endUmode _ h

theorem wf_homeFill {s : State} (mode : PageMode) (line : Nat) (va : Option DWord) (wish : Nat) (full : Bool)
    (h : s.mem.wf = true) : (s.homeFill mode line va wish full).mem.wf = true := by
  unfold State.homeFill
  split
  · exact h
  · extract_lets home set s1 s2
    have h1 : s1.mem.wf = true := by
      simp only [s1]
      split
      · exact h
      · split
        · exact wf_l2Evict _ h
        · exact h
    show s2.mem.wf = true
    simp only [s2]
    split
    · exact h1
    · rw [mem_readDram]; exact h1

theorem wf_giveBack {s : State} (h : Holding) (hw : s.mem.wf = true) : (s.giveBack h).mem.wf = true := by
  have h1 : ((dropHolding s h.agent h.line).awayTidy h.line).mem.wf = true := by rw [mem_awayTidy]; exact hw
  unfold State.giveBack
  simp only
  split
  · rw [mem_sendTokens]; exact h1
  · rw [mem_tidyEntry]
    split
    · rw [mem_homeDirty]; exact wf_homeFill _ _ _ _ _ h1
    · exact h1

theorem mem_cacheWrite (s : State) (a : AgentId) (ws : List (Nat × Byte × Byte)) : (s.cacheWrite a ws).mem = s.mem := rfl

theorem mem_clearUnits (s : State) (ws : List (Nat × Byte × Byte)) : (s.clearUnits ws).mem = s.mem := by
  unfold State.clearUnits; split <;> rfl

/-- Memory keeps its form through a fold of operations on the state that keep it. -/
theorem wf_fold {β : Type} (f : State → β → State) (hf : ∀ s b, s.mem.wf = true → (f s b).mem.wf = true) (l : List β)
    {s : State} (h : s.mem.wf = true) : (l.foldl f s).mem.wf = true :=
  foldl_keeps (fun s : State => s.mem.wf = true) f hf l h

theorem wf_masterWrites {s : State} (l : List Nat) (h : s.mem.wf = true) :
    (l.foldl (fun (s : State) a => s.masterWrite a) s).mem.wf = true := wf_fold _ (fun _ a h => wf_masterWrite a h) l h

theorem wf_homeWrite {s : State} (ag : Option AgentId) (mode : PageMode) (self : Option (Nat × Nat))
    (ws : List (Nat × Byte × Byte)) (h : s.mem.wf = true) (va : Option DWord := none) :
    (s.homeWrite ag mode self ws va).mem.wf = true := by
  cases ws with
  | nil => exact h
  | cons w ws =>
    unfold State.homeWrite
    simp only
    rw [mem_clearUnits]
    refine wf_fold (fun (s : State) ln => s.clearMarks ln) (fun _ _ h => h) _ ?_
    let lines := ((w :: ws).map fun w => lineOf w.1).eraseDups
    let s0 := lines.foldl (fun (s : State) ln => (s.endUmode ln).homeFill mode ln va 0 ((fullLines (w :: ws)).contains ln)) s
    have h1 := Mem.wf_writeMasked (w :: ws) (wf_fold
      (fun (s : State) ln => (s.endUmode ln).homeFill mode ln va 0 ((fullLines (w :: ws)).contains ln))
      (fun _ ln h => wf_homeFill _ _ _ _ _ (wf_endUmode ln h)) lines h)
    have h2 : ((lines.foldl (fun (s : State) ln => (s.fireMonitors ln self).dropTranslations ln)
        { s0 with mem := s0.mem.writeMasked (w :: ws) }).faultChanged lines).mem.wf = true :=
      wf_fold (fun (s : State) ln => (s.fireMonitors ln self).dropTranslations ln)
        (fun s ln (h : s.mem.wf = true) => by rw [mem_dropTranslations]; exact h) lines
        (s := { s0 with mem := s0.mem.writeMasked (w :: ws) }) h1
    split
    · exact wf_fold (fun (s : State) ln => ((s.gatherAll _ ln).awayTidy ln).serve _ ln)
        (fun _ _ h => by rw [mem_serve, mem_awayTidy, mem_gatherAll]; exact h) _ h2
    · exact wf_fold (fun (s : State) ln => s.homeDirty ln) (fun _ _ h => by rw [mem_homeDirty]; exact h) _ h2

theorem wf_writeBackCopy {s : State} (master : Bool) (c : SwmCopy) (h : s.mem.wf = true) :
    (writeBackCopy s master c).mem.wf = true := by
  unfold writeBackCopy
  simp only
  split
  · exact wf_masterWrites _ (by rw [mem_slicePatch]; exact wf_homeWrite _ _ _ _ h)
  · rw [mem_slicePatch]; exact wf_homeWrite _ _ _ _ h

theorem wf_evict {s : State} (v : Victim) (h : s.mem.wf = true) : (s.evict v).mem.wf = true := by
  cases v with
  | held v => exact wf_giveBack v h
  | ucopy u => exact wf_endUmode _ h
  | swm c => exact wf_writeBackCopy true c h

theorem wf_roomFor {s : State} (a : AgentId) (line : Nat) (h : s.mem.wf = true) : (s.roomFor a line).mem.wf = true := by
  unfold State.roomFor
  split
  · exact h
  · simp only
    split
    · exact h
    · split
      · exact wf_evict _ h
      · exact h

theorem mem_addTokens (s : State) (a : AgentId) (line : Nat) (t : TokenMsg) (d : Bool) : (addTokens s a line t d).mem = s.mem := rfl

theorem mem_takeHoldings (s : State) (line : Nat) (hs : List Holding) : (s.takeHoldings line hs).mem = s.mem := by
  unfold State.takeHoldings
  rw [mem_awayTidy]
  show ((hs.filter fun h => h.agent.id == 177).foldl (fun (s : State) h => s.releaseLine h.agent.die line) s).mem = s.mem
  generalize hs.filter (fun h => h.agent.id == 177) = l
  induction l generalizing s with
  | nil => rfl
  | cons _ r ih => exact ih _

theorem wf_takeToken {s t : State} {a : AgentId} {line : Nat} (h : s.mem.wf = true) (ht : s.takeToken a line = some t) :
    t.mem.wf = true := by
  unfold State.takeToken at ht
  simp only at ht
  have h1 : (s.endUmode line).mem.wf = true := wf_endUmode line h
  split at ht
  · cases ht; exact h1
  · split at ht
    · cases ht
    · have h2 : (((s.endUmode line).homeFill .coh line none 0 false).awayFill a.die .coh line none 0).mem.wf = true := by
        rw [mem_awayFill]; exact wf_homeFill _ _ _ _ _ h1
      split at ht
      · cases ht; rw [mem_addTokens]; exact wf_roomFor a line (by rw [mem_homeGive]; exact h2)
      · split at ht
        · split at ht
          · cases ht
          · cases ht
            rw [mem_addTokens]
            refine wf_roomFor a line ?_
            split
            · rw [mem_takeHoldings]; exact h2
            · exact h2
        · cases ht

theorem wf_takeTokens {s : State} (a : AgentId) (ls : List Nat) (h : s.mem.wf = true) :
    (State.takeTokens a ls s).2.mem.wf = true := by
  induction ls generalizing s with
  | nil => exact h
  | cons ln r ih =>
    unfold State.takeTokens
    split
    · exact ih (wf_endUmode ln h)
    · exact ih (wf_takeToken h ‹_›)

theorem wf_swmReach {s : State} (die line : Nat) (va : Option DWord) (wish : Nat) (h : s.mem.wf = true) :
    (s.swmReach die line va wish).mem.wf = true := by
  unfold State.swmReach
  split
  · exact h
  · rw [mem_awayFill]; exact wf_homeFill _ _ _ _ _ h

theorem wf_swmFill {s : State} (a : AgentId) (line : Nat) (h : s.mem.wf = true) (va : Option DWord := none) (wish : Nat := 0) :
    (s.swmFill a line va wish).mem.wf = true := by
  unfold State.swmFill
  split
  · exact h
  · exact wf_roomFor a line (wf_swmReach _ _ _ _ h)

/-- A write that a page's mode allows keeps the form. -/
theorem wf_performWrite {s : State} (ag : Option AgentId) (own : Bool) (mode : PageMode) (master : Bool)
    (self : Option (Nat × Nat)) (ws : List (Nat × Byte × Byte)) (h : s.mem.wf = true) (va : Option DWord := none) :
    (s.performWrite ag own mode master self ws va).mem.wf = true := by
  have hin : ∀ (a : AgentId), (if own = true then
      (((ws.map fun w => lineOf w.1).eraseDups).foldl (fun (s : State) ln => s.swmFill a ln va) s) else s).mem.wf = true := by
    intro a
    split
    · exact wf_fold (fun (s : State) ln => s.swmFill a ln va) (fun _ ln h => wf_swmFill a ln h va) _ h
    · exact h
  unfold State.performWrite
  simp only
  split
  · split
    · exact wf_masterWrites _ (wf_fold (fun (s : State) ln => s.fireMonitors ln self) (fun _ _ h => h) _
        (by rw [mem_slicePatch]; exact wf_homeWrite _ _ _ _ (by rw [mem_cacheWrite]; exact hin _) va))
    · exact wf_masterWrites _ (wf_homeWrite _ _ _ _ h va)
  · split
    · exact wf_fold (fun (s : State) ln => s.fireMonitors ln self) (fun _ _ h => h) _
        (by rw [mem_slicePatch]; exact wf_homeWrite _ _ _ _ (by rw [mem_cacheWrite]; exact hin _) va)
    · exact wf_homeWrite _ _ _ _ h va

/-! ### Translations -/

theorem wf_setHostBit {s : State} (a i : Nat) (h : s.mem.wf = true) : (s.setHostBit a i).mem.wf = true :=
  Mem.wf_put _ _ (wf_endUmode _ h)

theorem wf_dirtyAppend {s t : State} {die ring asid pa lg : Nat} (h : s.mem.wf = true)
    (hd : dirtyAppend s die ring asid pa lg = .ok t) : t.mem.wf = true := by
  unfold dirtyAppend at hd
  split at hd
  · cases hd
  · simp only at hd
    split at hd
    · cases hd
    · split at hd
      · cases hd
      · cases hd; exact wf_homeWrite _ _ _ _ (wf_homeWrite _ _ _ _ (wf_endUmodes _ _ h))

theorem mem_fillTlb (s : State) (e : TEntry) : (s.fillTlb e).mem = s.mem := by
  unfold State.fillTlb; simp only; split <;> rfl

theorem mem_fillPath (die : Nat) (x : Xrec) (va : DWord) (xl : Xlat) (p : List TlbAt) (s : State) :
    (fillPath die x va xl p s).mem = s.mem := by
  induction p with
  | nil => rfl
  | cons a r ih =>
    unfold fillPath
    simp only
    split
    · exact ih
    · rw [mem_fillTlb]; exact ih

theorem mem_fillWalks (die : Nat) (x : Xrec) (va : DWord) (ups lines : List Nat) (s : State) :
    (fillWalks die x va ups lines s).mem = s.mem := by
  induction ups generalizing lines with
  | nil => rfl
  | cons lg r ih =>
    unfold fillWalks
    simp only
    split
    · exact ih _
    · rw [mem_fillTlb]; exact ih _

theorem wf_cacheXlat {s t : State} (die : Nat) (path : List TlbAt) (x : Xrec) (va : DWord) (xl : Xlat) (h : s.mem.wf = true)
    (ht : s.cacheXlat die path x va xl = some t) : t.mem.wf = true := by
  unfold State.cacheXlat at ht
  split at ht
  · cases ht; exact h
  · extract_lets walked s1 at ht
    have h1 : s1.mem.wf = true := by
      simp only [s1]
      split
      · exact wf_setHostBit _ _ h
      · exact h
    have h2 := wf_takeTokens (walkerOf die) xl.lines h1
    split at ht
    · rename_i he; cases ht; rw [mem_fillPath, mem_fillWalks]; rw [he] at h2; exact h2
    · cases ht

theorem wf_touch {s t : State} {die : Nat} {path : List TlbAt} {x : Xrec} {va : DWord} {xl : Xlat} {store : Bool}
    (h : s.mem.wf = true) (ht : s.touch die path x va xl store = .ok t) : t.mem.wf = true := by
  have hd : ∀ {u : State}, u.mem.wf = true → (u.setDirty die path x va).mem.wf = true := by
    intro u hu; unfold State.setDirty; split <;> exact hu
  unfold State.touch at ht
  split at ht
  · cases ht
  · have h1 := wf_cacheXlat die path x va xl h ‹_›
    split at ht
    · cases ht; exact h1
    · split at ht
      · split at ht
        · cases ht; exact hd (wf_setHostBit _ _ h1)
        · cases ht
      · split at ht
        · split at ht
          · cases ht; exact hd (wf_dirtyAppend h1 ‹_›)
          · cases ht
        · cases ht; exact h1

end Sys2Proof.Machine
end

