-- ==== Sys2Proof/Laws/PerInstr.lean ====
section
/-! SUPPORT. Per instruction: an encoded instruction has as many words as its opcode's format has (R34), and a step
without an encoding has none. -/

namespace Sys2Proof.Laws.Encodable

/-- The instruction is encoded exactly where it has words, and then as many as its first word announces (R34). -/
def Statement (i : Instr) : Prop :=
  (i.encoded = true ↔ i.encode ≠ []) ∧ ∀ w ws, i.encode = w :: ws → (w :: ws).length = instrWords w

theorem none_of {i : Instr} (h : i.encoded = false) (h' : i.encode = []) : Statement i :=
  ⟨by simp [h, h'], fun w ws hw => by simp [h'] at hw⟩

theorem some_of {i : Instr} {w : Nat} {ws : List Nat} (h : i.encoded = true) (h' : i.encode = w :: ws)
    (hn : (w :: ws).length = instrWords w) : Statement i :=
  ⟨by simp [h, h'], fun v vs hw => by rw [h', List.cons.injEq] at hw; obtain ⟨rfl, rfl⟩ := hw; exact hn⟩

theorem src_code_lt (s : Src) : s.code < 512 := by
  cases s with
  | vec i => have := i.isLt; simp only [Src.code]; omega
  | uni i => have := i.isLt; simp only [Src.code]; omega
  | cst i => have := i.isLt; simp only [Src.code]; omega
  | lit i => have := i.isLt; simp only [Src.code]; omega

/-- The opcode field of a word with 25 bits below it. -/
theorem fld_opc {opc r : Nat} (ho : opc < 128) (hr : r < 2 ^ 25) : fld (opc * 2 ^ 25 + r) 25 7 = opc := by
  unfold fld; omega

theorem fld_encA {opc : Nat} (ho : opc < 128) (dst : BitVec 7) (a b : Src) : fld (encA opc dst a b) 25 7 = opc := by
  have hd := dst.isLt
  have ha := src_code_lt a
  have hb := src_code_lt b
  unfold encA
  rw [Nat.add_assoc, Nat.add_assoc]
  exact fld_opc ho (by omega)

theorem fld_encB {opc : Nat} (ho : opc < 128) (o : BOps) :
    fld (opc * 2 ^ 25 + o.dst.toNat * 2 ^ 18 + o.a.code * 2 ^ 9 + o.imm.toNat) 25 7 = opc := by
  have hd := o.dst.isLt
  have ha := src_code_lt o.a
  have hb := o.imm.isLt
  rw [Nat.add_assoc, Nat.add_assoc]
  exact fld_opc ho (by omega)

theorem fld_encL {opc : Nat} (ho : opc < 128) (o : LOps) :
    fld (opc * 2 ^ 25 + o.dst.toNat * 2 ^ 18 + o.a.code * 2 ^ 9) 25 7 = opc := by
  have hd := o.dst.isLt
  have ha := src_code_lt o.a
  rw [Nat.add_assoc]
  exact fld_opc ho (by omega)

theorem fld_encBr {opc : Nat} (ho : opc < 128) (o : BrOps) :
    fld (opc * 2 ^ 25 + o.pred.toNat * 2 ^ 22 + o.pneg.toNat * 2 ^ 21) 25 7 = opc := by
  have hp := o.pred.isLt
  have hn : o.pneg.toNat ≤ 1 := by cases o.pneg <;> decide
  rw [Nat.add_assoc]
  exact fld_opc ho (by omega)

theorem fld_encM {opc : Nat} (ho : opc < 128) (m : MOps) :
    fld (opc * 2 ^ 25 + m.data.toNat * 2 ^ 18 + m.bk.toNat * 2 ^ 17 + m.bp.toNat * 2 ^ 11 + m.off.toNat / 2 ^ 13) 25 7 =
      opc := by
  have hd := m.data.isLt
  have hk : m.bk.toNat ≤ 1 := by cases m.bk <;> decide
  have hb := m.bp.isLt
  have hf := m.off.isLt
  rw [Nat.add_assoc, Nat.add_assoc, Nat.add_assoc]
  exact fld_opc ho (by omega)

/-- The words that a format has. -/
def fmtWords (f : Fmt) : Nat :=
  match f with
  | .a | .b | .none => 1
  | .l | .br | .x | .m => 2

theorem instrWords_of {w opc : Nat} (h : fld w 25 7 = opc) : instrWords w = fmtWords (fmtOf opc) := by
  unfold instrWords; rw [h]; cases fmtOf opc <;> rfl

theorem a_of {i : Instr} {opc : Nat} {dst : BitVec 7} {a b : Src} (h : i.encoded = true)
    (h' : i.encode = [encA opc dst a b]) (ho : opc < 128) (hf : fmtWords (fmtOf opc) = 1) : Statement i :=
  some_of h h' (by rw [instrWords_of (fld_encA ho dst a b), hf]; rfl)

theorem b_of {i : Instr} {opc : Nat} {o : BOps} (h : i.encoded = true) (h' : i.encode = encB opc o) (ho : opc < 128)
    (hf : fmtWords (fmtOf opc) = 1) : Statement i :=
  some_of h h' (by rw [instrWords_of (fld_encB ho o), hf]; rfl)

theorem l_of {i : Instr} {opc : Nat} {o : LOps} (h : i.encoded = true) (h' : i.encode = encL opc o) (ho : opc < 128)
    (hf : fmtWords (fmtOf opc) = 2) : Statement i :=
  some_of h h' (by rw [instrWords_of (fld_encL ho o), hf]; rfl)

theorem br_of {i : Instr} {opc : Nat} {o : BrOps} (h : i.encoded = true) (h' : i.encode = encBr opc o) (ho : opc < 128)
    (hf : fmtWords (fmtOf opc) = 2) : Statement i :=
  some_of h h' (by rw [instrWords_of (fld_encBr ho o), hf]; rfl)

theorem m_of {i : Instr} {opc : Nat} {m : MOps} (h : i.encoded = true) (h' : i.encode = encM opc m) (ho : opc < 128)
    (hf : fmtWords (fmtOf opc) = 2) : Statement i :=
  some_of h h' (by rw [instrWords_of (fld_encM ho m), hf]; rfl)

theorem xf_of {i : Instr} {opc sub : Nat} {x : XOps} (h : i.encoded = true) (h' : i.encode = encXF opc sub x)
    (ho : opc < 128) (hf : fmtWords (fmtOf opc) = 2) : Statement i :=
  some_of h h' (by rw [instrWords_of (fld_encA ho x.dst x.a x.b), hf]; rfl)

theorem xs_of {i : Instr} {opc sub : Nat} {x : XOps} (h : i.encoded = true) (h' : i.encode = encXS opc sub x)
    (ho : opc < 128) (hf : fmtWords (fmtOf opc) = 2) : Statement i :=
  some_of h h' (by rw [instrWords_of (fld_encA ho x.dst x.a x.b), hf]; rfl)

theorem iaddA (o : AOps) : Statement (.iaddA o) :=
  a_of rfl rfl (by decide) rfl

theorem iaddB (o : BOps) : Statement (.iaddB o) :=
  b_of rfl rfl (by decide) rfl

theorem iaddL (o : LOps) : Statement (.iaddL o) :=
  l_of rfl rfl (by decide) rfl

theorem isubA (o : AOps) : Statement (.isubA o) :=
  a_of rfl rfl (by decide) rfl

theorem imulA (o : AOps) : Statement (.imulA o) :=
  a_of rfl rfl (by decide) rfl

theorem andA (o : AOps) : Statement (.andA o) :=
  a_of rfl rfl (by decide) rfl

theorem orA (o : AOps) : Statement (.orA o) :=
  a_of rfl rfl (by decide) rfl

theorem xorA (o : AOps) : Statement (.xorA o) :=
  a_of rfl rfl (by decide) rfl

theorem andL (o : LOps) : Statement (.andL o) :=
  l_of rfl rfl (by decide) rfl

theorem shlB (o : BOps) : Statement (.shlB o) :=
  b_of rfl rfl (by decide) rfl

theorem shrB (o : BOps) : Statement (.shrB o) :=
  b_of rfl rfl (by decide) rfl

theorem shaB (o : BOps) : Statement (.shaB o) :=
  b_of rfl rfl (by decide) rfl

theorem iminA (o : AOps) : Statement (.iminA o) :=
  a_of rfl rfl (by decide) rfl

theorem imaxA (o : AOps) : Statement (.imaxA o) :=
  a_of rfl rfl (by decide) rfl

theorem iaddS64A (o : AOps) : Statement (.iaddS64A o) :=
  a_of rfl rfl (by decide) rfl

theorem iaddX (u : Bool) (x : XOps) : Statement (.iaddX u x) := by
  cases u <;> exact xf_of rfl rfl (by decide) rfl

theorem isubX (u : Bool) (x : XOps) : Statement (.isubX u x) := by
  cases u <;> exact xf_of rfl rfl (by decide) rfl

theorem imulX (u : Bool) (x : XOps) : Statement (.imulX u x) := by
  cases u <;> exact xf_of rfl rfl (by decide) rfl

theorem imulh (u : Bool) (x : XOps) : Statement (.imulh u x) := by
  cases u <;> exact xf_of rfl rfl (by decide) rfl

theorem imad (u : Bool) (x : XOps) : Statement (.imad u x) := by
  cases u <;> exact xf_of rfl rfl (by decide) rfl

theorem idiv (u : Bool) (x : XOps) : Statement (.idiv u x) := by
  cases u <;> exact xf_of rfl rfl (by decide) rfl

theorem irem (u : Bool) (x : XOps) : Statement (.irem u x) := by
  cases u <;> exact xf_of rfl rfl (by decide) rfl

theorem iminX (u : Bool) (x : XOps) : Statement (.iminX u x) := by
  cases u <;> exact xf_of rfl rfl (by decide) rfl

theorem imaxX (u : Bool) (x : XOps) : Statement (.imaxX u x) := by
  cases u <;> exact xf_of rfl rfl (by decide) rfl

theorem iabs (u : Bool) (x : XOps) : Statement (.iabs u x) := by
  cases u <;> exact xf_of rfl rfl (by decide) rfl

theorem ineg (u : Bool) (x : XOps) : Statement (.ineg u x) := by
  cases u <;> exact xf_of rfl rfl (by decide) rfl

theorem iaddc (u : Bool) (x : XOps) : Statement (.iaddc u x) := by
  cases u <;> exact xf_of rfl rfl (by decide) rfl

theorem isat (u : Bool) (x : XOps) : Statement (.isat u x) := by
  cases u <;> exact xf_of rfl rfl (by decide) rfl

theorem lea (u : Bool) (x : XOps) : Statement (.lea u x) := by
  cases u <;> exact xf_of rfl rfl (by decide) rfl

theorem andX (u : Bool) (x : XOps) : Statement (.andX u x) := by
  cases u <;> exact xf_of rfl rfl (by decide) rfl

theorem orX (u : Bool) (x : XOps) : Statement (.orX u x) := by
  cases u <;> exact xf_of rfl rfl (by decide) rfl

theorem xorX (u : Bool) (x : XOps) : Statement (.xorX u x) := by
  cases u <;> exact xf_of rfl rfl (by decide) rfl

theorem andn (u : Bool) (x : XOps) : Statement (.andn u x) := by
  cases u <;> exact xf_of rfl rfl (by decide) rfl

theorem not (u : Bool) (x : XOps) : Statement (.not u x) := by
  cases u <;> exact xf_of rfl rfl (by decide) rfl

theorem shlX (u : Bool) (x : XOps) : Statement (.shlX u x) := by
  cases u <;> exact xf_of rfl rfl (by decide) rfl

theorem shrX (u : Bool) (x : XOps) : Statement (.shrX u x) := by
  cases u <;> exact xf_of rfl rfl (by decide) rfl

theorem shaX (u : Bool) (x : XOps) : Statement (.shaX u x) := by
  cases u <;> exact xf_of rfl rfl (by decide) rfl

theorem rotl (u : Bool) (x : XOps) : Statement (.rotl u x) := by
  cases u <;> exact xf_of rfl rfl (by decide) rfl

theorem bfx (u : Bool) (x : XOps) : Statement (.bfx u x) := by
  cases u <;> exact xf_of rfl rfl (by decide) rfl

theorem bfi (u : Bool) (x : XOps) : Statement (.bfi u x) := by
  cases u <;> exact xf_of rfl rfl (by decide) rfl

theorem popc (u : Bool) (x : XOps) : Statement (.popc u x) := by
  cases u <;> exact xf_of rfl rfl (by decide) rfl

theorem clz (u : Bool) (x : XOps) : Statement (.clz u x) := by
  cases u <;> exact xf_of rfl rfl (by decide) rfl

theorem ctz (u : Bool) (x : XOps) : Statement (.ctz u x) := by
  cases u <;> exact xf_of rfl rfl (by decide) rfl

theorem brev (u : Bool) (x : XOps) : Statement (.brev u x) := by
  cases u <;> exact xf_of rfl rfl (by decide) rfl

theorem sel (u : Bool) (x : XOps) : Statement (.sel u x) := by
  cases u <;> exact xf_of rfl rfl (by decide) rfl

theorem iset (u : Bool) (c : ICond) (x : XOps) : Statement (.iset u c x) := by
  cases u <;> exact xf_of rfl rfl (by decide) rfl

theorem icmp (c : ICond) (x : XOps) : Statement (.icmp c x) :=
  xf_of rfl rfl (by decide) rfl

theorem faddA (o : AOps) : Statement (.faddA o) :=
  a_of rfl rfl (by decide) rfl

theorem fsubA (o : AOps) : Statement (.fsubA o) :=
  a_of rfl rfl (by decide) rfl

theorem fmulA (o : AOps) : Statement (.fmulA o) :=
  a_of rfl rfl (by decide) rfl

theorem fminA (o : AOps) : Statement (.fminA o) :=
  a_of rfl rfl (by decide) rfl

theorem fmaxA (o : AOps) : Statement (.fmaxA o) :=
  a_of rfl rfl (by decide) rfl

theorem faddL (o : LOps) : Statement (.faddL o) :=
  l_of rfl rfl (by decide) rfl

theorem fmulL (o : LOps) : Statement (.fmulL o) :=
  l_of rfl rfl (by decide) rfl

theorem faddX (u : Bool) (x : XOps) : Statement (.faddX u x) := by
  cases u <;> exact xf_of rfl rfl (by decide) rfl

theorem fsubX (u : Bool) (x : XOps) : Statement (.fsubX u x) := by
  cases u <;> exact xf_of rfl rfl (by decide) rfl

theorem fmulX (u : Bool) (x : XOps) : Statement (.fmulX u x) := by
  cases u <;> exact xf_of rfl rfl (by decide) rfl

theorem ffma (u : Bool) (x : XOps) : Statement (.ffma u x) := by
  cases u <;> exact xf_of rfl rfl (by decide) rfl

theorem fminX (u : Bool) (x : XOps) : Statement (.fminX u x) := by
  cases u <;> exact xf_of rfl rfl (by decide) rfl

theorem fmaxX (u : Bool) (x : XOps) : Statement (.fmaxX u x) := by
  cases u <;> exact xf_of rfl rfl (by decide) rfl

theorem fdiv (u : Bool) (x : XOps) : Statement (.fdiv u x) := by
  cases u <;> exact xf_of rfl rfl (by decide) rfl

theorem fscale (u : Bool) (x : XOps) : Statement (.fscale u x) := by
  cases u <;> exact xf_of rfl rfl (by decide) rfl

theorem frnd (u : Bool) (x : XOps) : Statement (.frnd u x) := by
  cases u <;> exact xf_of rfl rfl (by decide) rfl

theorem fsat (u : Bool) (x : XOps) : Statement (.fsat u x) := by
  cases u <;> exact xf_of rfl rfl (by decide) rfl

theorem fsgnCpy (u : Bool) (x : XOps) : Statement (.fsgnCpy u x) := by
  cases u <;> exact xf_of rfl rfl (by decide) rfl

theorem fsgnNeg (u : Bool) (x : XOps) : Statement (.fsgnNeg u x) := by
  cases u <;> exact xf_of rfl rfl (by decide) rfl

theorem fsgnXor (u : Bool) (x : XOps) : Statement (.fsgnXor u x) := by
  cases u <;> exact xf_of rfl rfl (by decide) rfl

theorem frcp (u : Bool) (x : XOps) : Statement (.frcp u x) := by
  cases u <;> exact xf_of rfl rfl (by decide) rfl

theorem frsq (u : Bool) (x : XOps) : Statement (.frsq u x) := by
  cases u <;> exact xf_of rfl rfl (by decide) rfl

theorem fsqrt (u : Bool) (x : XOps) : Statement (.fsqrt u x) := by
  cases u <;> exact xf_of rfl rfl (by decide) rfl

theorem fexp2 (u : Bool) (x : XOps) : Statement (.fexp2 u x) := by
  cases u <;> exact xf_of rfl rfl (by decide) rfl

theorem flog2 (u : Bool) (x : XOps) : Statement (.flog2 u x) := by
  cases u <;> exact xf_of rfl rfl (by decide) rfl

theorem fsin (u : Bool) (x : XOps) : Statement (.fsin u x) := by
  cases u <;> exact xf_of rfl rfl (by decide) rfl

theorem fcos (u : Bool) (x : XOps) : Statement (.fcos u x) := by
  cases u <;> exact xf_of rfl rfl (by decide) rfl

theorem ftanh (u : Bool) (x : XOps) : Statement (.ftanh u x) := by
  cases u <;> exact xf_of rfl rfl (by decide) rfl

theorem frexp (u : Bool) (x : XOps) : Statement (.frexp u x) := by
  cases u <;> exact xf_of rfl rfl (by decide) rfl

theorem fclass (u : Bool) (x : XOps) : Statement (.fclass u x) := by
  cases u <;> exact xf_of rfl rfl (by decide) rfl

theorem fset (u : Bool) (c : FCond) (x : XOps) : Statement (.fset u c x) := by
  cases u <;> exact xf_of rfl rfl (by decide) rfl

theorem fsetPred (c : FCond) (x : XOps) : Statement (.fsetPred c x) :=
  xf_of rfl rfl (by decide) rfl

theorem fcvt (f : FSrc) (x : XOps) : Statement (.fcvt f x) :=
  xf_of rfl rfl (by decide) rfl

theorem icvt (d : IcvtDir) (x : XOps) : Statement (.icvt d x) :=
  xf_of rfl rfl (by decide) rfl

theorem dot2 (x : XOps) : Statement (.dot2 x) :=
  xf_of rfl rfl (by decide) rfl

theorem dot4 (x : XOps) : Statement (.dot4 x) :=
  xf_of rfl rfl (by decide) rfl

theorem dot8 (x : XOps) : Statement (.dot8 x) :=
  xf_of rfl rfl (by decide) rfl

theorem padd (x : XOps) : Statement (.padd x) :=
  xf_of rfl rfl (by decide) rfl

theorem pmul (x : XOps) : Statement (.pmul x) :=
  xf_of rfl rfl (by decide) rfl

theorem pfma (x : XOps) : Statement (.pfma x) :=
  xf_of rfl rfl (by decide) rfl

theorem pcvt (f : FSrc) (x : XOps) : Statement (.pcvt f x) :=
  xf_of rfl rfl (by decide) rfl

theorem qnt (x : XOps) : Statement (.qnt x) :=
  xf_of rfl rfl (by decide) rfl

theorem dqnt (x : XOps) : Statement (.dqnt x) :=
  xf_of rfl rfl (by decide) rfl

theorem bscale (x : XOps) : Statement (.bscale x) :=
  xf_of rfl rfl (by decide) rfl

theorem mov (o : AOps) : Statement (.mov o) :=
  a_of rfl rfl (by decide) rfl

theorem movUniform (o : AOps) : Statement (.movUniform o) :=
  a_of rfl rfl (by decide) rfl

theorem movi (u : Bool) (o : LOps) : Statement (.movi u o) := by
  cases u <;> exact l_of rfl rfl (by decide) rfl

theorem movs (u : Bool) (x : XOps) : Statement (.movs u x) := by
  cases u <;> exact xf_of rfl rfl (by decide) rfl

theorem sets (x : XOps) : Statement (.sets x) :=
  xf_of rfl rfl (by decide) rfl

theorem pick (x : XOps) : Statement (.pick x) :=
  xf_of rfl rfl (by decide) rfl

theorem rot (x : XOps) : Statement (.rot x) :=
  xf_of rfl rfl (by decide) rfl

theorem slide (x : XOps) : Statement (.slide x) :=
  xf_of rfl rfl (by decide) rfl

theorem swap (x : XOps) : Statement (.swap x) :=
  xf_of rfl rfl (by decide) rfl

theorem pollAll (u : Bool) (x : XOps) : Statement (.pollAll u x) := by
  cases u <;> exact xf_of rfl rfl (by decide) rfl

theorem pollAny (u : Bool) (x : XOps) : Statement (.pollAny u x) := by
  cases u <;> exact xf_of rfl rfl (by decide) rfl

theorem pollMask (u : Bool) (x : XOps) : Statement (.pollMask u x) := by
  cases u <;> exact xf_of rfl rfl (by decide) rfl

theorem first (u : Bool) (x : XOps) : Statement (.first u x) := by
  cases u <;> exact xf_of rfl rfl (by decide) rfl

theorem spread (u : Bool) (x : XOps) : Statement (.spread u x) := by
  cases u <;> exact xf_of rfl rfl (by decide) rfl

theorem peers (u : Bool) (x : XOps) : Statement (.peers u x) := by
  cases u <;> exact xf_of rfl rfl (by decide) rfl

theorem splice (x : XOps) : Statement (.splice x) :=
  xf_of rfl rfl (by decide) rfl

theorem foldAdd (u : Bool) (x : XOps) : Statement (.foldAdd u x) := by
  cases u <;> exact xf_of rfl rfl (by decide) rfl

theorem foldMin (u : Bool) (x : XOps) : Statement (.foldMin u x) := by
  cases u <;> exact xf_of rfl rfl (by decide) rfl

theorem foldMax (u : Bool) (x : XOps) : Statement (.foldMax u x) := by
  cases u <;> exact xf_of rfl rfl (by decide) rfl

theorem foldAnd (u : Bool) (x : XOps) : Statement (.foldAnd u x) := by
  cases u <;> exact xf_of rfl rfl (by decide) rfl

theorem foldOr (u : Bool) (x : XOps) : Statement (.foldOr u x) := by
  cases u <;> exact xf_of rfl rfl (by decide) rfl

theorem affLoop (x : XOps) : Statement (.affLoop x) :=
  xf_of rfl rfl (by decide) rfl

theorem affLd (x : XOps) : Statement (.affLd x) :=
  xf_of rfl rfl (by decide) rfl

theorem affSt (x : XOps) : Statement (.affSt x) :=
  xf_of rfl rfl (by decide) rfl

theorem affFeed (x : XOps) : Statement (.affFeed x) :=
  xf_of rfl rfl (by decide) rfl

theorem ld (m : MOps) : Statement (.ld m) :=
  m_of rfl rfl (by decide) rfl

theorem st (m : MOps) : Statement (.st m) :=
  m_of rfl rfl (by decide) rfl

theorem ldro (m : MOps) : Statement (.ldro m) :=
  m_of rfl rfl (by decide) rfl

theorem lds (m : MOps) : Statement (.lds m) :=
  m_of rfl rfl (by decide) rfl

theorem sts (m : MOps) : Statement (.sts m) :=
  m_of rfl rfl (by decide) rfl

theorem atom (op : AtomOp) (x : XOps) : Statement (.atom op x) :=
  xs_of rfl rfl (by decide) rfl

theorem red (op : AtomOp) (x : XOps) : Statement (.red op x) :=
  xs_of rfl rfl (by decide) rfl

theorem atoms (op : AtomOp) (x : XOps) : Statement (.atoms op x) :=
  xs_of rfl rfl (by decide) rfl

theorem bankop (op : AtomOp) (x : XOps) : Statement (.bankop op x) :=
  xs_of rfl rfl (by decide) rfl

theorem fence (x : XOps) : Statement (.fence x) :=
  xs_of rfl rfl (by decide) rfl

theorem fenceRo (x : XOps) : Statement (.fenceRo x) :=
  xs_of rfl rfl (by decide) rfl

theorem flushRange (x : XOps) : Statement (.flushRange x) :=
  xs_of rfl rfl (by decide) rfl

theorem invRange (x : XOps) : Statement (.invRange x) :=
  xs_of rfl rfl (by decide) rfl

theorem cleanRange (x : XOps) : Statement (.cleanRange x) :=
  xs_of rfl rfl (by decide) rfl

theorem pref (m : MOps) : Statement (.pref m) :=
  m_of rfl rfl (by decide) rfl

theorem ldmon (m : MOps) : Statement (.ldmon m) :=
  m_of rfl rfl (by decide) rfl

theorem waitmon (x : XOps) : Statement (.waitmon x) :=
  xs_of rfl rfl (by decide) rfl

theorem resHint (x : XOps) : Statement (.resHint x) :=
  xs_of rfl rfl (by decide) rfl

theorem resEvict (x : XOps) : Statement (.resEvict x) :=
  xs_of rfl rfl (by decide) rfl

theorem cbload (x : XOps) : Statement (.cbload x) :=
  xs_of rfl rfl (by decide) rfl

theorem cpyTile (x : XOps) : Statement (.cpyTile x) :=
  xf_of rfl rfl (by decide) rfl

theorem cpyGath (x : XOps) : Statement (.cpyGath x) :=
  xf_of rfl rfl (by decide) rfl

theorem cpyScat (x : XOps) : Statement (.cpyScat x) :=
  xf_of rfl rfl (by decide) rfl

theorem cpyMcast (x : XOps) : Statement (.cpyMcast x) :=
  xf_of rfl rfl (by decide) rfl

theorem cpyQnt (x : XOps) : Statement (.cpyQnt x) :=
  xf_of rfl rfl (by decide) rfl

theorem cpyFill (x : XOps) : Statement (.cpyFill x) :=
  xf_of rfl rfl (by decide) rfl

theorem qfence (x : XOps) : Statement (.qfence x) :=
  xf_of rfl rfl (by decide) rfl

theorem qwait (x : XOps) : Statement (.qwait x) :=
  xf_of rfl rfl (by decide) rfl

theorem viewReg (x : XOps) : Statement (.viewReg x) :=
  xf_of rfl rfl (by decide) rfl

theorem viewDrop (x : XOps) : Statement (.viewDrop x) :=
  xf_of rfl rfl (by decide) rfl

theorem viewFence (x : XOps) : Statement (.viewFence x) :=
  xf_of rfl rfl (by decide) rfl

theorem viewStat (x : XOps) : Statement (.viewStat x) :=
  xf_of rfl rfl (by decide) rfl

theorem rmaPut (x : XOps) : Statement (.rmaPut x) :=
  xf_of rfl rfl (by decide) rfl

theorem rmaGet (x : XOps) : Statement (.rmaGet x) :=
  xf_of rfl rfl (by decide) rfl

theorem rmaAtom (x : XOps) : Statement (.rmaAtom x) :=
  xf_of rfl rfl (by decide) rfl

theorem rmaWait (x : XOps) : Statement (.rmaWait x) :=
  xf_of rfl rfl (by decide) rfl

theorem rmaKey (x : XOps) : Statement (.rmaKey x) :=
  xf_of rfl rfl (by decide) rfl

theorem mxWload (x : XOps) : Statement (.mxWload x) :=
  xf_of rfl rfl (by decide) rfl

theorem mxIssue (x : XOps) : Statement (.mxIssue x) :=
  xf_of rfl rfl (by decide) rfl

theorem mxTest (x : XOps) : Statement (.mxTest x) :=
  xf_of rfl rfl (by decide) rfl

theorem mxProg (x : XOps) : Statement (.mxProg x) :=
  xf_of rfl rfl (by decide) rfl

theorem mxAbort (x : XOps) : Statement (.mxAbort x) :=
  xf_of rfl rfl (by decide) rfl

theorem accAlloc (x : XOps) : Statement (.accAlloc x) :=
  xf_of rfl rfl (by decide) rfl

theorem accFree (x : XOps) : Statement (.accFree x) :=
  xf_of rfl rfl (by decide) rfl

theorem accLd (x : XOps) : Statement (.accLd x) :=
  xf_of rfl rfl (by decide) rfl

theorem accSt (x : XOps) : Statement (.accSt x) :=
  xf_of rfl rfl (by decide) rfl

theorem accZero (x : XOps) : Statement (.accZero x) :=
  xf_of rfl rfl (by decide) rfl

theorem accCvt (x : XOps) : Statement (.accCvt x) :=
  xf_of rfl rfl (by decide) rfl

theorem spcCmp (x : XOps) : Statement (.spcCmp x) :=
  xf_of rfl rfl (by decide) rfl

theorem spcMeta (x : XOps) : Statement (.spcMeta x) :=
  xf_of rfl rfl (by decide) rfl

theorem bra (o : BrOps) : Statement (.bra o) :=
  br_of rfl rfl (by decide) rfl

theorem brx (x : XOps) : Statement (.brx x) :=
  xf_of rfl rfl (by decide) rfl

theorem call (o : BrOps) : Statement (.call o) :=
  br_of rfl rfl (by decide) rfl

theorem callx (x : XOps) : Statement (.callx x) :=
  xf_of rfl rfl (by decide) rfl

theorem ret : Statement .ret :=
  some_of rfl rfl rfl

theorem rjoinSet (x : XOps) : Statement (.rjoinSet x) :=
  xf_of rfl rfl (by decide) rfl

theorem rjoinWait (x : XOps) : Statement (.rjoinWait x) :=
  xf_of rfl rfl (by decide) rfl

theorem rjoinLeave (x : XOps) : Statement (.rjoinLeave x) :=
  xf_of rfl rfl (by decide) rfl

theorem yield (x : XOps) : Statement (.yield x) :=
  xf_of rfl rfl (by decide) rfl

theorem exit (x : XOps) : Statement (.exit x) :=
  xf_of rfl rfl (by decide) rfl

theorem nop (x : XOps) : Statement (.nop x) :=
  xf_of rfl rfl (by decide) rfl

theorem sleep (x : XOps) : Statement (.sleep x) :=
  xf_of rfl rfl (by decide) rfl

theorem migrate (x : XOps) : Statement (.migrate x) :=
  xf_of rfl rfl (by decide) rfl

theorem launch (x : XOps) : Statement (.launch x) :=
  xf_of rfl rfl (by decide) rfl

theorem barArrive (x : XOps) : Statement (.barArrive x) :=
  xs_of rfl rfl (by decide) rfl

theorem barWait (x : XOps) : Statement (.barWait x) :=
  xs_of rfl rfl (by decide) rfl

theorem barSync (x : XOps) : Statement (.barSync x) :=
  xs_of rfl rfl (by decide) rfl

theorem tokenWait (x : XOps) : Statement (.tokenWait x) :=
  xs_of rfl rfl (by decide) rfl

theorem tokenTest (x : XOps) : Statement (.tokenTest x) :=
  xs_of rfl rfl (by decide) rfl

theorem ship (n : BitVec 3) (x : XOps) : Statement (.ship n x) :=
  xs_of rfl rfl (by decide) rfl

theorem shipA (n : BitVec 3) (x : XOps) : Statement (.shipA n x) :=
  xs_of rfl rfl (by decide) rfl

theorem sentry (x : XOps) : Statement (.sentry x) :=
  xs_of rfl rfl (by decide) rfl

theorem sret (x : XOps) : Statement (.sret x) :=
  xs_of rfl rfl (by decide) rfl

theorem futLd (x : XOps) : Statement (.futLd x) :=
  xs_of rfl rfl (by decide) rfl

theorem futSt (x : XOps) : Statement (.futSt x) :=
  xs_of rfl rfl (by decide) rfl

theorem phaseEnd (x : XOps) : Statement (.phaseEnd x) :=
  xs_of rfl rfl (by decide) rfl

theorem quiet (x : XOps) : Statement (.quiet x) :=
  xs_of rfl rfl (by decide) rfl

theorem flareSend (x : XOps) : Statement (.flareSend x) :=
  xs_of rfl rfl (by decide) rfl

theorem flareRet (x : XOps) : Statement (.flareRet x) :=
  xs_of rfl rfl (by decide) rfl

theorem flareMask (x : XOps) : Statement (.flareMask x) :=
  xs_of rfl rfl (by decide) rfl

theorem flareRead (x : XOps) : Statement (.flareRead x) :=
  xs_of rfl rfl (by decide) rfl

theorem flareAck (x : XOps) : Statement (.flareAck x) :=
  xs_of rfl rfl (by decide) rfl

theorem trap (x : XOps) : Statement (.trap x) :=
  xs_of rfl rfl (by decide) rfl

theorem tret (x : XOps) : Statement (.tret x) :=
  xs_of rfl rfl (by decide) rfl

theorem svc (x : XOps) : Statement (.svc x) :=
  xs_of rfl rfl (by decide) rfl

theorem bkpt (x : XOps) : Statement (.bkpt x) :=
  xs_of rfl rfl (by decide) rfl

theorem ctxSave (x : XOps) : Statement (.ctxSave x) :=
  xs_of rfl rfl (by decide) rfl

theorem ctxLoad (x : XOps) : Statement (.ctxLoad x) :=
  xs_of rfl rfl (by decide) rfl

theorem asidRetire (x : XOps) : Statement (.asidRetire x) :=
  xs_of rfl rfl (by decide) rfl

theorem tlbProbe (x : XOps) : Statement (.tlbProbe x) :=
  xs_of rfl rfl (by decide) rfl

theorem pageScan (x : XOps) : Statement (.pageScan x) :=
  xs_of rfl rfl (by decide) rfl

theorem mboxTake (x : XOps) : Statement (.mboxTake x) :=
  xs_of rfl rfl (by decide) rfl

theorem mboxPut (x : XOps) : Statement (.mboxPut x) :=
  xs_of rfl rfl (by decide) rfl

theorem halt (x : XOps) : Statement (.halt x) :=
  xs_of rfl rfl (by decide) rfl

theorem runSelection (core pipe : Nat) : Statement (.runSelection core pipe) :=
  none_of rfl rfl

theorem loadDataReturn (team lane op : Nat) : Statement (.loadDataReturn team lane op) :=
  none_of rfl rfl

theorem storePerform (team : Nat) : Statement (.storePerform team) :=
  none_of rfl rfl

theorem pageTableWalk (die ctx : Nat) (va : DWord) : Statement (.pageTableWalk die ctx va) :=
  none_of rfl rfl

theorem readMiss (a : AgentId) (line : Nat) : Statement (.readMiss a line) :=
  none_of rfl rfl

theorem writeMiss (a : AgentId) (line : Nat) : Statement (.writeMiss a line) :=
  none_of rfl rfl

theorem forwardedRequest (owner req : AgentId) (line : Nat) : Statement (.forwardedRequest owner req line) :=
  none_of rfl rfl

theorem tokenDataResponse (a : AgentId) (line : Nat) (t : TokenMsg) : Statement (.tokenDataResponse a line t) :=
  none_of rfl rfl

theorem invalidation (a req : AgentId) (line : Nat) : Statement (.invalidation a req line) :=
  none_of rfl rfl

theorem evictionNotice (a : AgentId) (line : Nat) (t : TokenMsg) : Statement (.evictionNotice a line t) :=
  none_of rfl rfl

theorem requestFailure (a : AgentId) (line : Nat) : Statement (.requestFailure a line) :=
  none_of rfl rfl

theorem persistentRequest (a : AgentId) (line : Nat) : Statement (.persistentRequest a line) :=
  none_of rfl rfl

theorem persistentActivation (line : Nat) : Statement (.persistentActivation line) :=
  none_of rfl rfl

theorem persistentDeactivation (line : Nat) : Statement (.persistentDeactivation line) :=
  none_of rfl rfl

theorem updateOnlyGrant (a : AgentId) (line : Nat) (op : AtomOp) (ty : Ty) : Statement (.updateOnlyGrant a line op ty) :=
  none_of rfl rfl

theorem updateOnlyEnd (line : Nat) : Statement (.updateOnlyEnd line) :=
  none_of rfl rfl

theorem flushMarker (src dst path : Nat) : Statement (.flushMarker src dst path) :=
  none_of rfl rfl

theorem hostSnoop (line : Nat) : Statement (.hostSnoop line) :=
  none_of rfl rfl

theorem asidFlushComplete (asid : Nat) : Statement (.asidFlushComplete asid) :=
  none_of rfl rfl

theorem rangeWalkComplete (team lane op : Nat) : Statement (.rangeWalkComplete team lane op) :=
  none_of rfl rfl

theorem engineOpAccept (team : Nat) : Statement (.engineOpAccept team) :=
  none_of rfl rfl

theorem copyEngineTake (core eng : Nat) : Statement (.copyEngineTake core eng) :=
  none_of rfl rfl

theorem copyRow (core eng : Nat) : Statement (.copyRow core eng) :=
  none_of rfl rfl

theorem copyComplete (core eng : Nat) : Statement (.copyComplete core eng) :=
  none_of rfl rfl

theorem cbloadComplete (team op : Nat) : Statement (.cbloadComplete team op) :=
  none_of rfl rfl

theorem matrixEngineSelect (core : Nat) : Statement (.matrixEngineSelect core) :=
  none_of rfl rfl

theorem matrixChunkLoad (core : Nat) : Statement (.matrixChunkLoad core) :=
  none_of rfl rfl

theorem matrixAccumulateStep (core : Nat) : Statement (.matrixAccumulateStep core) :=
  none_of rfl rfl

theorem matrixOutputStep (core : Nat) : Statement (.matrixOutputStep core) :=
  none_of rfl rfl

theorem accBankGrant (core : Nat) : Statement (.accBankGrant core) :=
  none_of rfl rfl

theorem accBankRelease (core : Nat) : Statement (.accBankRelease core) :=
  none_of rfl rfl

theorem parallaxRecompute (part view block : Nat) : Statement (.parallaxRecompute part view block) :=
  none_of rfl rfl

theorem viewPublishMessage (m : ViewMsg) : Statement (.viewPublishMessage m) :=
  none_of rfl rfl

theorem accessStreamPoint (team q : Nat) : Statement (.accessStreamPoint team q) :=
  none_of rfl rfl

theorem affStPairStore (team q lane : Nat) : Statement (.affStPairStore team q lane) :=
  none_of rfl rfl

theorem userHandlerEntry (team : Nat) : Statement (.userHandlerEntry team) :=
  none_of rfl rfl

theorem mailboxPost (core : Nat) : Statement (.mailboxPost core) :=
  none_of rfl rfl

theorem mailboxFullTimeout (team lane : Nat) : Statement (.mailboxFullTimeout team lane) :=
  none_of rfl rfl

theorem teamtimeOverflow (team : Nat) : Statement (.teamtimeOverflow team) :=
  none_of rfl rfl

theorem deadlineReached (team : Nat) : Statement (.deadlineReached team) :=
  none_of rfl rfl

theorem owedTimerTrap (team : Nat) : Statement (.owedTimerTrap team) :=
  none_of rfl rfl

theorem sleepExpiry (team lane : Nat) : Statement (.sleepExpiry team lane) :=
  none_of rfl rfl

theorem flareRaiseMessage (r : RaiseMsg) : Statement (.flareRaiseMessage r) :=
  none_of rfl rfl

theorem flareDelivery (ctx : Nat) : Statement (.flareDelivery ctx) :=
  none_of rfl rfl

theorem sectionRequestArrival (r : ShipReq) : Statement (.sectionRequestArrival r) :=
  none_of rfl rfl

theorem sectionStart (home : Nat) : Statement (.sectionStart home) :=
  none_of rfl rfl

theorem sectionResultArrival (r : ShipResult) : Statement (.sectionResultArrival r) :=
  none_of rfl rfl

theorem sectionBudgetExpiry (home : Nat) : Statement (.sectionBudgetExpiry home) :=
  none_of rfl rfl

theorem phaseRecordEnqueue (crew : Nat) : Statement (.phaseRecordEnqueue crew) :=
  none_of rfl rfl

theorem phaseResume (part : Nat) : Statement (.phaseResume part) :=
  none_of rfl rfl

theorem migrateMove (team : Nat) : Statement (.migrateMove team) :=
  none_of rfl rfl

theorem landingSlotMove (team : Nat) : Statement (.landingSlotMove team) :=
  none_of rfl rfl

theorem launchDoorbell (vf : Nat) (tail : Word) : Statement (.launchDoorbell vf tail) :=
  none_of rfl rfl

theorem launchQueueControl (vf : Nat) (w : Word) : Statement (.launchQueueControl vf w) :=
  none_of rfl rfl

theorem recordCapture (vf : Nat) : Statement (.recordCapture vf) :=
  none_of rfl rfl

theorem edgeSatisfied (launch : Nat) : Statement (.edgeSatisfied launch) :=
  none_of rfl rfl

theorem placeClusterGroup (part : Nat) : Statement (.placeClusterGroup part) :=
  none_of rfl rfl

theorem launchEnd (launch : Nat) : Statement (.launchEnd launch) :=
  none_of rfl rfl

theorem registerWrite (vf off size : Nat) (val : DWord) : Statement (.registerWrite vf off size val) :=
  none_of rfl rfl

theorem flareWindowRaise (vf off size : Nat) (val : DWord) : Statement (.flareWindowRaise vf off size val) :=
  none_of rfl rfl

theorem cmdAssignPartition (a : AssignCmd) : Statement (.cmdAssignPartition a) :=
  none_of rfl rfl

theorem cmdBindFunction (vf part ld : Nat) : Statement (.cmdBindFunction vf part ld) :=
  none_of rfl rfl

theorem cmdSetMeridianNumber (n : Nat) : Statement (.cmdSetMeridianNumber n) :=
  none_of rfl rfl

theorem cmdQueuePair (q : QpCmd) : Statement (.cmdQueuePair q) :=
  none_of rfl rfl

theorem cmdAdopt (lds : List Nat) (head : Nat) : Statement (.cmdAdopt lds head) :=
  none_of rfl rfl

theorem cmdReadCounters : Statement .cmdReadCounters :=
  none_of rfl rfl

theorem cmdWriteFirmware (image : List Byte) : Statement (.cmdWriteFirmware image) :=
  none_of rfl rfl

theorem cmdReadHandover : Statement .cmdReadHandover :=
  none_of rfl rfl

theorem cmdUnknown (code : DWord) : Statement (.cmdUnknown code) :=
  none_of rfl rfl

theorem hostLinkDown (head : Nat) : Statement (.hostLinkDown head) :=
  none_of rfl rfl

theorem cxlMemAccess (a : HostAccess) : Statement (.cxlMemAccess a) :=
  none_of rfl rfl

theorem peerAccess (a : PeerAccess) : Statement (.peerAccess a) :=
  none_of rfl rfl

theorem d2dLinkFailure (die : Nat) : Statement (.d2dLinkFailure die) :=
  none_of rfl rfl

theorem d2dLinkTraining (die : Nat) (failed : List Nat) : Statement (.d2dLinkTraining die failed) :=
  none_of rfl rfl

theorem meridianFlitGroup (port : Nat) (tagOk : Bool) : Statement (.meridianFlitGroup port tagOk) :=
  none_of rfl rfl

theorem meridianKeyRotation (port : Nat) : Statement (.meridianKeyRotation port) :=
  none_of rfl rfl

theorem put (p : Packet) : Statement (.put p) :=
  none_of rfl rfl

theorem getRequest (p : Packet) : Statement (.getRequest p) :=
  none_of rfl rfl

theorem getResponse (p : Packet) : Statement (.getResponse p) :=
  none_of rfl rfl

theorem atomRequest (p : Packet) : Statement (.atomRequest p) :=
  none_of rfl rfl

theorem atomResponse (p : Packet) : Statement (.atomResponse p) :=
  none_of rfl rfl

theorem ack (p : Packet) : Statement (.ack p) :=
  none_of rfl rfl

theorem nak (p : Packet) : Statement (.nak p) :=
  none_of rfl rfl

theorem credit (p : Packet) : Statement (.credit p) :=
  none_of rfl rfl

theorem rmaRetransmitTimeout (qpn : Nat) : Statement (.rmaRetransmitTimeout qpn) :=
  none_of rfl rfl

theorem qpContextFetch (qpn : Nat) : Statement (.qpContextFetch qpn) :=
  none_of rfl rfl

theorem keyRevokeComplete (part slot : Nat) : Statement (.keyRevokeComplete part slot) :=
  none_of rfl rfl

theorem rmaComplete (team : Nat) : Statement (.rmaComplete team) :=
  none_of rfl rfl

theorem getVersion : Statement .getVersion :=
  none_of rfl rfl

theorem getCapabilities : Statement .getCapabilities :=
  none_of rfl rfl

theorem negotiateAlgorithms (n : SpdmAlgs) : Statement (.negotiateAlgorithms n) :=
  none_of rfl rfl

theorem getDigests : Statement .getDigests :=
  none_of rfl rfl

theorem getCertificate : Statement .getCertificate :=
  none_of rfl rfl

theorem challenge (nonce : List Byte) : Statement (.challenge nonce) :=
  none_of rfl rfl

theorem getMeasurements (index : Nat) : Statement (.getMeasurements index) :=
  none_of rfl rfl

theorem keyExchange : Statement .keyExchange :=
  none_of rfl rfl

theorem finish (ok : Bool) : Statement (.finish ok) :=
  none_of rfl rfl

theorem endSession : Statement .endSession :=
  none_of rfl rfl

theorem tdispMessage (vf : Nat) (m : TdispMsg) : Statement (.tdispMessage vf m) :=
  none_of rfl rfl

theorem ideKeyManagement (m : IdeMsg) : Statement (.ideKeyManagement m) :=
  none_of rfl rfl

theorem boot (r : BootOutcome) : Statement (.boot r) :=
  none_of rfl rfl

theorem lifetimeCounterSave : Statement .lifetimeCounterSave :=
  none_of rfl rfl

theorem orderlyShutdown : Statement .orderlyShutdown :=
  none_of rfl rfl

theorem powerLoss : Statement .powerLoss :=
  none_of rfl rfl

theorem powerLimit (on : Bool) : Statement (.powerLimit on) :=
  none_of rfl rfl

theorem machineCheck (ctx : Nat) (code : DWord) : Statement (.machineCheck ctx code) :=
  none_of rfl rfl

theorem virtualFunctionEnable (vf : Nat) (on : Bool) : Statement (.virtualFunctionEnable vf on) :=
  none_of rfl rfl

theorem supervisorFirmwareRestart (core : Nat) : Statement (.supervisorFirmwareRestart core) :=
  none_of rfl rfl

theorem meridianLinkLoss (port : Nat) : Statement (.meridianLinkLoss port) :=
  none_of rfl rfl

theorem hostLinkTraining (head width rate : Nat) : Statement (.hostLinkTraining head width rate) :=
  none_of rfl rfl

theorem flareSendOutcome (team lane op : Nat) (status : Nat) : Statement (.flareSendOutcome team lane op status) :=
  none_of rfl rfl

theorem pageRequestResponse (core ticket : Nat) (ok : Bool) : Statement (.pageRequestResponse core ticket ok) :=
  none_of rfl rfl

theorem remoteViewBlockClear (part view block : Nat) : Statement (.remoteViewBlockClear part view block) :=
  none_of rfl rfl

theorem viewQueueOperation (team : Nat) : Statement (.viewQueueOperation team) :=
  none_of rfl rfl

end Sys2Proof.Laws.Encodable
end

