-- ==== Sys2Proof/Laws/Words.lean ====
section
/-! SUPPORT. Reading back the fields of encoded words (R2, R35 to R43): each operand record is what its encoder wrote. -/

namespace Sys2Proof

theorem srcOfCode_code (s : Src) : srcOfCode s.code = s := by
  cases s with
  | vec i =>
    have h := i.isLt
    have h1 : i.toNat / 128 % 4 = 0 := by omega
    simp [srcOfCode, Src.code, h1]
  | uni i =>
    have h := i.isLt
    have h1 : (128 + i.toNat) / 128 % 4 = 1 := by omega
    simp only [srcOfCode, Src.code, h1, Src.uni.injEq]
    apply BitVec.eq_of_toNat_eq; rw [BitVec.toNat_ofNat]; omega
  | cst i =>
    have h := i.isLt
    have h1 : (256 + i.toNat) / 128 % 4 = 2 := by omega
    simp only [srcOfCode, Src.code, h1, Src.cst.injEq]
    apply BitVec.eq_of_toNat_eq; rw [BitVec.toNat_ofNat]; omega
  | lit i =>
    have h := i.isLt
    have h1 : (384 + i.toNat) / 128 % 4 = 3 := by omega
    simp only [srcOfCode, Src.code, h1, Src.lit.injEq]
    apply BitVec.eq_of_toNat_eq; rw [BitVec.toNat_ofNat]; omega

theorem tyOfCode_code (t : Ty) : tyOfCode t.code = some t := by cases t <;> rfl
theorem scopeOfCode_code (t : Scope) : scopeOfCode t.code = some t := by cases t <;> rfl
theorem rndOfCode_code (t : Rnd) : rndOfCode t.code = some t := by cases t <;> rfl
theorem sizeOfCode_code (t : Size) : sizeOfCode t.code = some t := by cases t <;> rfl
theorem iCondOfCode_code (t : ICond) : iCondOfCode t.code = some t := by cases t <;> rfl
theorem fCondOfCode_code (t : FCond) : fCondOfCode t.code = some t := by cases t <;> rfl
theorem fSrcOfCode_code (t : FSrc) : fSrcOfCode t.code = some t := by cases t <;> rfl
theorem icvtOfCode_code (t : IcvtDir) : icvtOfCode t.code = some t := by cases t <;> rfl
theorem atomOpOfCode_code (t : AtomOp) : atomOpOfCode t.code = some t := by cases t <;> rfl

theorem ty_code_lt (t : Ty) : t.code < 32 := by cases t <;> decide
theorem rnd_code_lt (t : Rnd) : t.code < 4 := by cases t <;> decide
theorem scope_code_lt (t : Scope) : t.code < 8 := by cases t <;> decide
theorem size_code_lt (t : Size) : t.code < 8 := by cases t <;> decide

/-- A bit vector from a field that holds its number. -/
theorem ofNat_fld {n : Nat} (v : BitVec n) {w lo : Nat} (h : fld w lo n = v.toNat) : BitVec.ofNat n (fld w lo n) = v := by
  rw [h]; simp

theorem aOps_encA {opc : Nat} (o : AOps) : aOps (encA opc o.dst o.a o.b) = o := by
  obtain ⟨dst, a, b⟩ := o
  have hd := dst.isLt
  have ha := Laws.Encodable.src_code_lt a
  have hb := Laws.Encodable.src_code_lt b
  have h1 : fld (encA opc dst a b) 18 7 = dst.toNat := by unfold fld encA; omega
  have h2 : fld (encA opc dst a b) 9 9 = a.code := by unfold fld encA; omega
  have h3 : fld (encA opc dst a b) 0 9 = b.code := by unfold fld encA; omega
  simp only [aOps, ofNat_fld dst h1, h2, h3, srcOfCode_code]

theorem bOps_encB {opc : Nat} (o : BOps) :
    bOps (opc * 2 ^ 25 + o.dst.toNat * 2 ^ 18 + o.a.code * 2 ^ 9 + o.imm.toNat) = o := by
  obtain ⟨dst, a, imm⟩ := o
  have hd := dst.isLt
  have ha := Laws.Encodable.src_code_lt a
  have hb := imm.isLt
  have h1 : fld (opc * 2 ^ 25 + dst.toNat * 2 ^ 18 + a.code * 2 ^ 9 + imm.toNat) 18 7 = dst.toNat := by unfold fld; omega
  have h2 : fld (opc * 2 ^ 25 + dst.toNat * 2 ^ 18 + a.code * 2 ^ 9 + imm.toNat) 9 9 = a.code := by unfold fld; omega
  have h3 : fld (opc * 2 ^ 25 + dst.toNat * 2 ^ 18 + a.code * 2 ^ 9 + imm.toNat) 0 9 = imm.toNat := by unfold fld; omega
  simp only [bOps, ofNat_fld dst h1, h2, ofNat_fld imm h3, srcOfCode_code]

theorem lOps_encL {opc : Nat} (o : LOps) :
    lOps (opc * 2 ^ 25 + o.dst.toNat * 2 ^ 18 + o.a.code * 2 ^ 9) o.lit.toNat = o := by
  obtain ⟨dst, a, lit⟩ := o
  have hd := dst.isLt
  have ha := Laws.Encodable.src_code_lt a
  have h1 : fld (opc * 2 ^ 25 + dst.toNat * 2 ^ 18 + a.code * 2 ^ 9) 18 7 = dst.toNat := by unfold fld; omega
  have h2 : fld (opc * 2 ^ 25 + dst.toNat * 2 ^ 18 + a.code * 2 ^ 9) 9 9 = a.code := by unfold fld; omega
  simp only [lOps, ofNat_fld dst h1, h2, srcOfCode_code, BitVec.ofNat_toNat, BitVec.setWidth_eq]

theorem brOps_encBr {opc : Nat} (o : BrOps) :
    brOps (opc * 2 ^ 25 + o.pred.toNat * 2 ^ 22 + o.pneg.toNat * 2 ^ 21) o.lit.toNat = o := by
  obtain ⟨pred, pneg, lit⟩ := o
  have hp := pred.isLt
  have hn : pneg.toNat ≤ 1 := by cases pneg <;> decide
  have h1 : fld (opc * 2 ^ 25 + pred.toNat * 2 ^ 22 + pneg.toNat * 2 ^ 21) 22 3 = pred.toNat := by unfold fld; omega
  have h2 : fld (opc * 2 ^ 25 + pred.toNat * 2 ^ 22 + pneg.toNat * 2 ^ 21) 21 1 = pneg.toNat := by unfold fld; omega
  have h3 : (pneg.toNat == 1) = pneg := by cases pneg <;> rfl
  simp only [brOps, ofNat_fld pred h1, h2, h3, BitVec.ofNat_toNat, BitVec.setWidth_eq]

/-- The fields of word 1 of format X (R37), above a MOD of 12 bits. -/
theorem fld_encX1 (x : XOps) {md : Nat} (h : md < 2 ^ 12) :
    fld (encX1 x md) 23 9 = x.c.code ∧ fld (encX1 x md) 20 3 = x.pred.toNat ∧ fld (encX1 x md) 19 1 = x.pneg.toNat ∧
    fld (encX1 x md) 15 4 = x.la.toNat ∧ fld (encX1 x md) 12 3 = x.dc.toNat ∧
    ∀ lo n, lo + n ≤ 12 → fld (encX1 x md) lo n = fld md lo n := by
  have hc := Laws.Encodable.src_code_lt x.c
  have hp := x.pred.isLt
  have hn : x.pneg.toNat ≤ 1 := by cases x.pneg <;> decide
  have hl := x.la.isLt
  have hd := x.dc.isLt
  refine ⟨?_, ?_, ?_, ?_, ?_, ?_⟩
  · unfold fld encX1; omega
  · unfold fld encX1; omega
  · unfold fld encX1; omega
  · unfold fld encX1; omega
  · unfold fld encX1; omega
  · intro lo n hln
    unfold fld encX1
    obtain ⟨q, hq⟩ : ∃ q, x.c.code * 2 ^ 23 + x.pred.toNat * 2 ^ 20 + x.pneg.toNat * 2 ^ 19 + x.la.toNat * 2 ^ 15 +
        x.dc.toNat * 2 ^ 12 = q * 2 ^ 12 := ⟨x.c.code * 2 ^ 11 + x.pred.toNat * 2 ^ 8 + x.pneg.toNat * 2 ^ 7 +
          x.la.toNat * 2 ^ 3 + x.dc.toNat, by omega⟩
    rw [hq, show (2 : Nat) ^ 12 = 2 ^ lo * 2 ^ n * 2 ^ (12 - lo - n) by rw [← Nat.pow_add, ← Nat.pow_add]; congr 1; omega]
    rw [show q * (2 ^ lo * 2 ^ n * 2 ^ (12 - lo - n)) + md = md + 2 ^ lo * (2 ^ n * (q * 2 ^ (12 - lo - n))) by ring,
      Nat.add_mul_div_left _ _ (Nat.two_pow_pos lo), Nat.add_mul_mod_self_left]

/-- Format X with MOD layout F reads back (R37, R38). -/
theorem xOpsF_enc {opc sub : Nat} (hs : sub < 16) (x : XOps) (h : x.scope = .thread) :
    xOpsF (encA opc x.dst x.a x.b)
        (encX1 x (x.ty.code * 2 ^ 7 + x.rnd.code * 2 ^ 5 + x.ovf.toNat * 2 ^ 4 + sub)) = some x ∧
      fld (encX1 x (x.ty.code * 2 ^ 7 + x.rnd.code * 2 ^ 5 + x.ovf.toNat * 2 ^ 4 + sub)) 0 4 = sub := by
  have ht := ty_code_lt x.ty
  have hr := rnd_code_lt x.rnd
  have hv : x.ovf.toNat ≤ 1 := by cases x.ovf <;> decide
  have hm : x.ty.code * 2 ^ 7 + x.rnd.code * 2 ^ 5 + x.ovf.toNat * 2 ^ 4 + sub < 2 ^ 12 := by omega
  obtain ⟨h1, h2, h3, h4, h5, h6⟩ := fld_encX1 x hm
  have hA := aOps_encA (opc := opc) ⟨x.dst, x.a, x.b⟩
  simp only [aOps, AOps.mk.injEq] at hA
  have g1 := h6 7 5 (by omega)
  have g2 := h6 5 2 (by omega)
  have g3 := h6 4 1 (by omega)
  have g4 := h6 0 4 (by omega)
  rw [show fld (x.ty.code * 2 ^ 7 + x.rnd.code * 2 ^ 5 + x.ovf.toNat * 2 ^ 4 + sub) 7 5 = x.ty.code by unfold fld; omega] at g1
  rw [show fld (x.ty.code * 2 ^ 7 + x.rnd.code * 2 ^ 5 + x.ovf.toNat * 2 ^ 4 + sub) 5 2 = x.rnd.code by unfold fld; omega] at g2
  rw [show fld (x.ty.code * 2 ^ 7 + x.rnd.code * 2 ^ 5 + x.ovf.toNat * 2 ^ 4 + sub) 4 1 = x.ovf.toNat by unfold fld; omega] at g3
  rw [show fld (x.ty.code * 2 ^ 7 + x.rnd.code * 2 ^ 5 + x.ovf.toNat * 2 ^ 4 + sub) 0 4 = sub by unfold fld; omega] at g4
  refine ⟨?_, g4⟩
  have e1 : (x.pneg.toNat == 1) = x.pneg := by cases x.pneg <;> rfl
  have e2 : (x.ovf.toNat == 1) = x.ovf := by cases x.ovf <;> rfl
  simp only [xOpsF, g1, g2, g3, tyOfCode_code, rndOfCode_code, hA.1, hA.2.1, hA.2.2, h1, h3, srcOfCode_code,
    ofNat_fld x.pred h2, ofNat_fld x.la h4, ofNat_fld x.dc h5, e1, e2, Option.bind_eq_bind, Option.bind_some]
  rw [← h]

/-- Format X with MOD layout S reads back (R37, R38). -/
theorem xOpsS_enc {opc sub : Nat} (hs : sub < 16) (x : XOps) (h : x.rnd = .rne) (h' : x.ovf = false) :
    xOpsS (encA opc x.dst x.a x.b) (encX1 x (x.ty.code * 2 ^ 7 + x.scope.code * 2 ^ 4 + sub)) = some x ∧
      fld (encX1 x (x.ty.code * 2 ^ 7 + x.scope.code * 2 ^ 4 + sub)) 0 4 = sub := by
  have ht := ty_code_lt x.ty
  have hr := scope_code_lt x.scope
  have hm : x.ty.code * 2 ^ 7 + x.scope.code * 2 ^ 4 + sub < 2 ^ 12 := by omega
  obtain ⟨h1, h2, h3, h4, h5, h6⟩ := fld_encX1 x hm
  have hA := aOps_encA (opc := opc) ⟨x.dst, x.a, x.b⟩
  simp only [aOps, AOps.mk.injEq] at hA
  have g1 := h6 7 5 (by omega)
  have g2 := h6 4 3 (by omega)
  have g4 := h6 0 4 (by omega)
  rw [show fld (x.ty.code * 2 ^ 7 + x.scope.code * 2 ^ 4 + sub) 7 5 = x.ty.code by unfold fld; omega] at g1
  rw [show fld (x.ty.code * 2 ^ 7 + x.scope.code * 2 ^ 4 + sub) 4 3 = x.scope.code by unfold fld; omega] at g2
  rw [show fld (x.ty.code * 2 ^ 7 + x.scope.code * 2 ^ 4 + sub) 0 4 = sub by unfold fld; omega] at g4
  refine ⟨?_, g4⟩
  have e1 : (x.pneg.toNat == 1) = x.pneg := by cases x.pneg <;> rfl
  simp only [xOpsS, g1, g2, tyOfCode_code, scopeOfCode_code, hA.1, hA.2.1, hA.2.2, h1, h3, srcOfCode_code,
    ofNat_fld x.pred h2, ofNat_fld x.la h4, ofNat_fld x.dc h5, e1, Option.bind_eq_bind, Option.bind_some]
  rw [← h, ← h']

/-- Format M reads back (R42). -/
theorem mOps_enc {opc w0 w1 : Nat} (m : MOps) (hw0 : opc * 2 ^ 25 + m.data.toNat * 2 ^ 18 + m.bk.toNat * 2 ^ 17 +
      m.bp.toNat * 2 ^ 11 + m.off.toNat / 2 ^ 13 = w0)
    (hw1 : m.off.toNat % 2 ^ 13 * 2 ^ 19 + m.pred.toNat * 2 ^ 16 + m.pneg.toNat * 2 ^ 15 + m.la.toNat * 2 ^ 11 +
      m.dc.toNat * 2 ^ 8 + m.scope.code * 2 ^ 5 + m.size.code * 2 ^ 2 + m.hint.toNat = w1) : mOps w0 w1 = some m := by
  have b1 := m.data.isLt
  have b2 : m.bk.toNat ≤ 1 := by cases m.bk <;> decide
  have b3 := m.bp.isLt
  have b4 := m.off.isLt
  have b5 := m.pred.isLt
  have b6 : m.pneg.toNat ≤ 1 := by cases m.pneg <;> decide
  have b7 := m.la.isLt
  have b8 := m.dc.isLt
  have b9 := scope_code_lt m.scope
  have b10 := size_code_lt m.size
  have b11 := m.hint.isLt
  have f1 : fld w0 18 7 = m.data.toNat := by unfold fld; omega
  have f2 : fld w0 17 1 = m.bk.toNat := by unfold fld; omega
  have f3 : fld w0 11 6 = m.bp.toNat := by unfold fld; omega
  have f4 : fld w0 0 11 * 2 ^ 13 + fld w1 19 13 = m.off.toNat := by
    have p1 : fld w0 0 11 = m.off.toNat / 2 ^ 13 := by unfold fld; clear hw1; omega
    have p2 : fld w1 19 13 = m.off.toNat % 2 ^ 13 := by unfold fld; clear hw0; omega
    rw [p1, p2]; exact Nat.div_add_mod' _ _
  have f5 : fld w1 16 3 = m.pred.toNat := by unfold fld; omega
  have f6 : fld w1 15 1 = m.pneg.toNat := by unfold fld; omega
  have f7 : fld w1 11 4 = m.la.toNat := by unfold fld; omega
  have f8 : fld w1 8 3 = m.dc.toNat := by unfold fld; omega
  have f9 : fld w1 5 3 = m.scope.code := by unfold fld; omega
  have f10 : fld w1 2 3 = m.size.code := by unfold fld; omega
  have f11 : fld w1 0 2 = m.hint.toNat := by unfold fld; omega
  have e1 : (m.pneg.toNat == 1) = m.pneg := by cases m.pneg <;> rfl
  have e2 : (m.bk.toNat == 1) = m.bk := by cases m.bk <;> rfl
  unfold mOps
  rw [f9, f10, scopeOfCode_code, sizeOfCode_code, ofNat_fld m.data f1, f2, e2, ofNat_fld m.bp f3, f4, ofNat_fld m.pred f5, f6,
    e1, ofNat_fld m.la f7, ofNat_fld m.dc f8, ofNat_fld m.hint f11, BitVec.ofNat_toNat, BitVec.setWidth_eq]
  rfl

/-- The value of the bytes of a number (R2). -/
theorem leNat_leBytes (n v : Nat) (h : v < 256 ^ n) : leNat (leBytes n v) = v := by
  induction n generalizing v with
  | zero => simp only [Nat.pow_zero] at h; simp only [leBytes, leNat]; omega
  | succ n ih =>
    rw [leBytes, leNat, ih _ (by rw [Nat.pow_succ] at h; omega), BitVec.toNat_ofNat]
    omega

theorem length_leBytes (n v : Nat) : (leBytes n v).length = n := by
  induction n generalizing v with
  | zero => rfl
  | succ n ih => simp [leBytes, ih]

end Sys2Proof
end

