-- ==== Sys2Proof/Tests/Slice0.lean ====
section
/-! SUPPORT. Tests of the package: ill-formed words refused, words written out from the encodings decoded, single steps on
small states with results calculated by hand from the rules, and for each statement states and operands that meet its
hypotheses. -/

open Sys2Proof Sys2Proof.Machine

namespace Sys2Proof.Tests

set_option Elab.async false

/-! ### Ill-formed instructions (check 4 of R58): one for each check -/

/-- A format-X record with nothing in it but its sources. -/
def xo (dst : BitVec 7) (a b c : Src) (ty : Ty := .s4) (la : BitVec 4 := 0) (dc : BitVec 3 := 0) (rnd : Rnd := .rne)
    (ovf : Bool := false) (scope : Scope := .thread) : XOps :=
  { dst := dst, a := a, b := b, c := c, pred := 7, pneg := false, la := la, dc := dc, ty := ty, rnd := rnd, ovf := ovf,
    scope := scope }

/-- A format-M record without predicate. -/
def mo (data : BitVec 7) (bp : BitVec 6) (off : BitVec 24) (size : Size) (hint : BitVec 2 := 0) (scope : Scope := .thread)
    (la : BitVec 4 := 0) (dc : BitVec 3 := 0) : MOps :=
  { data := data, bk := false, bp := bp, off := off, pred := 7, pneg := false, la := la, dc := dc, scope := scope,
    size := size, hint := hint }

/-- R34, R71, R84: unused destination and sources of word 0. -/
theorem test_unused_fields_of_word_0_refused :
    (Instr.nop (xo 1 (.vec 0) (.vec 0) (.vec 0))).wf = false ∧ (Instr.nop (xo 0 (.vec 1) (.vec 0) (.vec 0))).wf = false ∧
    (Instr.nop (xo 0 (.vec 0) (.lit 0) (.vec 0))).wf = false ∧ (Instr.mov ⟨1, .vec 2, .vec 3⟩).wf = false ∧
    (Instr.movi false ⟨1, .vec 2, 5⟩).wf = false ∧ (Instr.nop (xo 0 (.vec 0) (.vec 0) (.vec 0))).wf = true := by
  decide +kernel

/-- R34, R37 to R40, R53: unused and unlisted fields of word 1: source 2, LA and DC, TYPE, RND, OVF, SCOPE. -/
theorem test_fields_of_word_1_refused :
    (Instr.iaddX false (xo 1 (.vec 2) (.vec 3) (.vec 4) .s32)).wf = false ∧
    (Instr.iaddX false (xo 1 (.vec 2) (.vec 3) (.vec 0) .s32 1)).wf = false ∧
    (Instr.iaddX false (xo 1 (.vec 2) (.vec 3) (.vec 0) .s32 0 1)).wf = false ∧
    (Instr.iaddX false (xo 1 (.vec 2) (.vec 3) (.vec 0) .f32)).wf = false ∧
    (Instr.nop (xo 0 (.vec 0) (.vec 0) (.vec 0) .s8)).wf = false ∧
    (Instr.iaddX false (xo 1 (.vec 2) (.vec 3) (.vec 0) .s32 0 0 .rtz)).wf = false ∧
    (Instr.imulh false (xo 1 (.vec 2) (.vec 3) (.vec 0) .s32 0 0 .rne true)).wf = false ∧
    (Instr.waitmon (xo 0 (.vec 0) (.vec 0) (.vec 0) .s4 0 0 .rne false .thread)).wf = false ∧
    (Instr.trap (xo 0 (.vec 0) (.vec 0) (.vec 0) .s4 0 0 .rne false .core)).wf = false ∧
    (Instr.iaddX false (xo 1 (.vec 2) (.vec 3) (.vec 0) .s32 0 0 .rne true)).wf = true := by
  decide +kernel

/-- The further conditions of forms: a system register and a queue that do not exist, a barrier number, a reserved
argument count, a shift of LEA, an operation that RED and BANKOP do not have, a queue of QFENCE, a PCVT position, a form
of OVF that no conversion to e2m1 has. -/
theorem test_conditions_of_forms_refused :
    (Instr.movs false (xo 1 (.vec 0) (.lit 22) (.vec 0))).wf = false ∧
    (Instr.cpyTile (xo 1 (.vec 2) (.lit 4) (.vec 0) .b32)).wf = false ∧
    (Instr.barSync (xo 0 (.lit 64) (.vec 1) (.vec 0) .s4 0 0 .rne false .core)).wf = false ∧
    (Instr.ship 7 (xo 8 (.vec 2) (.vec 4) (.vec 6))).wf = false ∧
    (Instr.lea false (xo 2 (.vec 4) (.vec 6) (.lit 8) .s32)).wf = false ∧
    (Instr.red .exch (xo 0 (.vec 2) (.vec 3) (.vec 0) .b32 0 0 .rne false .device)).wf = false ∧
    (Instr.bankop .inc (xo 1 (.vec 2) (.vec 3) (.vec 0) .n32 0 0 .rne false .device)).wf = false ∧
    (Instr.qfence (xo 1 (.lit 0) (.vec 0) (.vec 0))).wf = false ∧
    (Instr.pcvt .f32 (xo 1 (.vec 2) (.lit 2) (.vec 0) .f16)).wf = false ∧
    (Instr.fcvt .f32 (xo 1 (.vec 2) (.vec 0) (.vec 0) .e2m1 0 0 .rne true)).wf = false := by
  decide +kernel

/-- R43, R188, R192, R202: SIZE, HINT and SCOPE of the format-M forms. -/
theorem test_fields_of_format_m_refused :
    (Instr.ld (mo 4 1 0 .packed 2)).wf = false ∧ (Instr.ldro (mo 4 1 0 .b32 0 .core)).wf = false ∧
    (Instr.ldro (mo 4 1 0 .packed)).wf = false ∧ (Instr.lds (mo 4 1 0 .b32 1)).wf = false ∧
    (Instr.sts (mo 4 1 0 .packed)).wf = false ∧ (Instr.pref (mo 4 1 0 .n8)).wf = false ∧
    (Instr.pref (mo 0 1 0 .b32)).wf = false ∧ (Instr.ldmon (mo 4 1 0 .b128)).wf = false ∧
    (Instr.ld (mo 4 1 0 .packed 1)).wf = true := by
  decide +kernel

/-! ### Words written out from the encodings (R35 to R43, R71 to R85) -/

/-- The instruction that two words decode to. -/
def reads (w0 w1 : Nat) : Option Instr := (decodeWords w0 w1).toOption

/-- The worked encodings of the specification. -/
theorem test_decode_worked_examples :
    reads 0x20300685 0x00200187 = some (.iminX false ⟨12, .vec 3, .uni 5, .vec 0, 2, false, 0, 0, .s32, .rne, false, .thread⟩) ∧
    reads 0x7C100800 0x00071110 = some (.ld (mo 4 1 0 .b32 0 .thread 2 1)) ∧
    reads 0x7C201000 0x00070110 = some (.ld (mo 8 2 0 .b32 0 .thread 0 1)) ∧
    reads 0xCA010C08 0xC2F00000 = some (.brx (xo 0 (.uni 6) (.vec 8) (.lit 5))) ∧
    reads 0x6807FE00 0 = some (.mov ⟨1, .lit (-1), .vec 0⟩) ∧
    reads 0x78001D8A 0x00700000 = some (.sets (xo 0 (.vec 14) (.lit 10) (.vec 0))) ∧
    reads 0xF8000000 0x00700001 = some (.tret (xo 0 (.vec 0) (.vec 0) (.vec 0))) ∧
    reads 0xD4000000 0x00700000 = some (.yield (xo 0 (.vec 0) (.vec 0) (.vec 0))) ∧
    reads 0xD6000C00 0x00700000 = some (.migrate (xo 0 (.vec 6) (.vec 0) (.vec 0))) ∧
    reads 0xE0030180 0x00700052 = some (.barSync (xo 0 (.lit 0) (.lit 0) (.vec 0) .s4 0 0 .rne false .device)) ∧
    reads 0xE4210880 0x06700002 = some (.ship 2 (xo 8 (.uni 4) (.uni 0) (.vec 12))) ∧
    reads 0xA42BFE00 0x00700002 = some (.viewFence (xo 10 (.lit (-1)) (.vec 0) (.vec 0))) ∧
    reads 0xF0180585 0x04701000 = some (.flareSend (xo 6 (.vec 2) (.lit 5) (.vec 8) .s4 0 1)) := by
  decide +kernel


theorem test_decode_integer_1 :
    reads 0x00240685 0 = some (.iaddA ⟨9, .vec 3, .uni 5⟩) ∧
    reads 0x06240685 0 = some (.isubA ⟨9, .vec 3, .uni 5⟩) ∧
    reads 0x08240685 0 = some (.imulA ⟨9, .vec 3, .uni 5⟩) ∧
    reads 0x0A240685 0 = some (.andA ⟨9, .vec 3, .uni 5⟩) ∧
    reads 0x0C240685 0 = some (.orA ⟨9, .vec 3, .uni 5⟩) ∧
    reads 0x0E240685 0 = some (.xorA ⟨9, .vec 3, .uni 5⟩) ∧
    reads 0x18240685 0 = some (.iminA ⟨9, .vec 3, .uni 5⟩) ∧
    reads 0x1A240685 0 = some (.imaxA ⟨9, .vec 3, .uni 5⟩) ∧
    reads 0x1C240685 0 = some (.iaddS64A ⟨9, .vec 3, .uni 5⟩) ∧
    reads 0x022407FE 0 = some (.iaddB ⟨9, .vec 3, -2⟩) ∧
    reads 0x122407FE 0 = some (.shlB ⟨9, .vec 3, -2⟩) ∧
    reads 0x142407FE 0 = some (.shrB ⟨9, .vec 3, -2⟩) ∧
    reads 0x162407FE 0 = some (.shaB ⟨9, .vec 3, -2⟩) ∧
    reads 0x04250600 0x89ABCDEF = some (.iaddL ⟨9, .uni 3, 0x89ABCDEF⟩) ∧
    reads 0x10250600 0x89ABCDEF = some (.andL ⟨9, .uni 3, 0x89ABCDEF⟩) ∧
    reads 0x22201886 0x00280490 = some (.iaddX true ⟨8, .vec 12, .uni 6, .vec 0, 2, true, 0, 0, .n64, .rne, true, .thread⟩) := by
  decide +kernel

theorem test_decode_integer_2 :
    reads 0x22201886 0x00280491 = some (.isubX true ⟨8, .vec 12, .uni 6, .vec 0, 2, true, 0, 0, .n64, .rne, true, .thread⟩) ∧
    reads 0x22201886 0x00280492 = some (.imulX true ⟨8, .vec 12, .uni 6, .vec 0, 2, true, 0, 0, .n64, .rne, true, .thread⟩) ∧
    reads 0x22201886 0x00280483 = some (.imulh true ⟨8, .vec 12, .uni 6, .vec 0, 2, true, 0, 0, .n64, .rne, false, .thread⟩) ∧
    reads 0x22201886 0x0A280494 = some (.imad true ⟨8, .vec 12, .uni 6, .vec 20, 2, true, 0, 0, .n64, .rne, true, .thread⟩) ∧
    reads 0x22201886 0x00280495 = some (.idiv true ⟨8, .vec 12, .uni 6, .vec 0, 2, true, 0, 0, .n64, .rne, true, .thread⟩) ∧
    reads 0x22201886 0x00280486 = some (.irem true ⟨8, .vec 12, .uni 6, .vec 0, 2, true, 0, 0, .n64, .rne, false, .thread⟩) ∧
    reads 0x22201886 0x00280487 = some (.iminX true ⟨8, .vec 12, .uni 6, .vec 0, 2, true, 0, 0, .n64, .rne, false, .thread⟩) ∧
    reads 0x22201886 0x00280488 = some (.imaxX true ⟨8, .vec 12, .uni 6, .vec 0, 2, true, 0, 0, .n64, .rne, false, .thread⟩) ∧
    reads 0x22201800 0x00280219 = some (.iabs true ⟨8, .vec 12, .vec 0, .vec 0, 2, true, 0, 0, .s64, .rne, true, .thread⟩) ∧
    reads 0x22201800 0x0028021A = some (.ineg true ⟨8, .vec 12, .vec 0, .vec 0, 2, true, 0, 0, .s64, .rne, true, .thread⟩) ∧
    reads 0x22201886 0x0A28040B = some (.iaddc true ⟨8, .vec 12, .uni 6, .vec 20, 2, true, 0, 0, .n32, .rne, false, .thread⟩) ∧
    reads 0x22201800 0x0028008C = some (.isat true ⟨8, .vec 12, .vec 0, .vec 0, 2, true, 0, 0, .s8, .rne, false, .thread⟩) ∧
    reads 0x22201886 0xC1A8040D = some (.lea true ⟨8, .vec 12, .uni 6, .lit 3, 2, true, 0, 0, .n32, .rne, false, .thread⟩) ∧
    reads 0x26201886 0x00280580 = some (.andX true ⟨8, .vec 12, .uni 6, .vec 0, 2, true, 0, 0, .b64, .rne, false, .thread⟩) ∧
    reads 0x26201886 0x00280581 = some (.orX true ⟨8, .vec 12, .uni 6, .vec 0, 2, true, 0, 0, .b64, .rne, false, .thread⟩) ∧
    reads 0x26201886 0x00280582 = some (.xorX true ⟨8, .vec 12, .uni 6, .vec 0, 2, true, 0, 0, .b64, .rne, false, .thread⟩) := by
  decide +kernel

theorem test_decode_integer_3 :
    reads 0x26201886 0x00280583 = some (.andn true ⟨8, .vec 12, .uni 6, .vec 0, 2, true, 0, 0, .b64, .rne, false, .thread⟩) ∧
    reads 0x26201800 0x00280584 = some (.not true ⟨8, .vec 12, .vec 0, .vec 0, 2, true, 0, 0, .b64, .rne, false, .thread⟩) ∧
    reads 0x26201886 0x00280585 = some (.shlX true ⟨8, .vec 12, .uni 6, .vec 0, 2, true, 0, 0, .b64, .rne, false, .thread⟩) ∧
    reads 0x26201886 0x00280586 = some (.shrX true ⟨8, .vec 12, .uni 6, .vec 0, 2, true, 0, 0, .b64, .rne, false, .thread⟩) ∧
    reads 0x26201886 0x00280587 = some (.shaX true ⟨8, .vec 12, .uni 6, .vec 0, 2, true, 0, 0, .b64, .rne, false, .thread⟩) ∧
    reads 0x26201886 0x00280588 = some (.rotl true ⟨8, .vec 12, .uni 6, .vec 0, 2, true, 0, 0, .b64, .rne, false, .thread⟩) ∧
    reads 0x26201886 0x00280489 = some (.bfx true ⟨8, .vec 12, .uni 6, .vec 0, 2, true, 0, 0, .n64, .rne, false, .thread⟩) ∧
    reads 0x26201886 0x0A28058A = some (.bfi true ⟨8, .vec 12, .uni 6, .vec 20, 2, true, 0, 0, .b64, .rne, false, .thread⟩) ∧
    reads 0x26201800 0x0028058B = some (.popc true ⟨8, .vec 12, .vec 0, .vec 0, 2, true, 0, 0, .b64, .rne, false, .thread⟩) ∧
    reads 0x26201800 0x0028058C = some (.clz true ⟨8, .vec 12, .vec 0, .vec 0, 2, true, 0, 0, .b64, .rne, false, .thread⟩) ∧
    reads 0x26201800 0x0028058D = some (.ctz true ⟨8, .vec 12, .vec 0, .vec 0, 2, true, 0, 0, .b64, .rne, false, .thread⟩) ∧
    reads 0x26201800 0x0028058E = some (.brev true ⟨8, .vec 12, .vec 0, .vec 0, 2, true, 0, 0, .b64, .rne, false, .thread⟩) ∧
    reads 0x26201886 0x0A28058F = some (.sel true ⟨8, .vec 12, .uni 6, .vec 20, 2, true, 0, 0, .b64, .rne, false, .thread⟩) ∧
    reads 0x2A201886 0x00280485 = some (.iset true .ge ⟨8, .vec 12, .uni 6, .vec 0, 2, true, 0, 0, .n64, .rne, false, .thread⟩) ∧
    reads 0x2C141886 0x00280483 = some (.icmp .le ⟨5, .vec 12, .uni 6, .vec 0, 2, true, 0, 0, .n64, .rne, false, .thread⟩) := by
  decide +kernel

theorem test_decode_float_1 :
    reads 0x30240685 0 = some (.faddA ⟨9, .vec 3, .uni 5⟩) ∧
    reads 0x32240685 0 = some (.fsubA ⟨9, .vec 3, .uni 5⟩) ∧
    reads 0x34240685 0 = some (.fmulA ⟨9, .vec 3, .uni 5⟩) ∧
    reads 0x36240685 0 = some (.fminA ⟨9, .vec 3, .uni 5⟩) ∧
    reads 0x38240685 0 = some (.fmaxA ⟨9, .vec 3, .uni 5⟩) ∧
    reads 0x3A250600 0x89ABCDEF = some (.faddL ⟨9, .uni 3, 0x89ABCDEF⟩) ∧
    reads 0x3C250600 0x89ABCDEF = some (.fmulL ⟨9, .uni 3, 0x89ABCDEF⟩) ∧
    reads 0x42201886 0x002807E0 = some (.faddX true ⟨8, .vec 12, .uni 6, .vec 0, 2, true, 0, 0, .bf16, .rup, false, .thread⟩) ∧
    reads 0x42201886 0x002807E1 = some (.fsubX true ⟨8, .vec 12, .uni 6, .vec 0, 2, true, 0, 0, .bf16, .rup, false, .thread⟩) ∧
    reads 0x42201886 0x002807E2 = some (.fmulX true ⟨8, .vec 12, .uni 6, .vec 0, 2, true, 0, 0, .bf16, .rup, false, .thread⟩) ∧
    reads 0x42201886 0x0A2807E3 = some (.ffma true ⟨8, .vec 12, .uni 6, .vec 20, 2, true, 0, 0, .bf16, .rup, false, .thread⟩) ∧
    reads 0x42201886 0x00280784 = some (.fminX true ⟨8, .vec 12, .uni 6, .vec 0, 2, true, 0, 0, .bf16, .rne, false, .thread⟩) ∧
    reads 0x42201886 0x00280785 = some (.fmaxX true ⟨8, .vec 12, .uni 6, .vec 0, 2, true, 0, 0, .bf16, .rne, false, .thread⟩) ∧
    reads 0x42201886 0x002807E6 = some (.fdiv true ⟨8, .vec 12, .uni 6, .vec 0, 2, true, 0, 0, .bf16, .rup, false, .thread⟩) ∧
    reads 0x42201886 0x002807E7 = some (.fscale true ⟨8, .vec 12, .uni 6, .vec 0, 2, true, 0, 0, .bf16, .rup, false, .thread⟩) ∧
    reads 0x42201800 0x002807E8 = some (.frnd true ⟨8, .vec 12, .vec 0, .vec 0, 2, true, 0, 0, .bf16, .rup, false, .thread⟩) := by
  decide +kernel

theorem test_decode_float_2 :
    reads 0x42201800 0x00280789 = some (.fsat true ⟨8, .vec 12, .vec 0, .vec 0, 2, true, 0, 0, .bf16, .rne, false, .thread⟩) ∧
    reads 0x42201886 0x0028078A = some (.fsgnCpy true ⟨8, .vec 12, .uni 6, .vec 0, 2, true, 0, 0, .bf16, .rne, false, .thread⟩) ∧
    reads 0x42201886 0x0028078B = some (.fsgnNeg true ⟨8, .vec 12, .uni 6, .vec 0, 2, true, 0, 0, .bf16, .rne, false, .thread⟩) ∧
    reads 0x42201886 0x0028078C = some (.fsgnXor true ⟨8, .vec 12, .uni 6, .vec 0, 2, true, 0, 0, .bf16, .rne, false, .thread⟩) ∧
    reads 0x46201800 0x002807E0 = some (.frcp true ⟨8, .vec 12, .vec 0, .vec 0, 2, true, 0, 0, .bf16, .rup, false, .thread⟩) ∧
    reads 0x46201800 0x002807E1 = some (.frsq true ⟨8, .vec 12, .vec 0, .vec 0, 2, true, 0, 0, .bf16, .rup, false, .thread⟩) ∧
    reads 0x46201800 0x002807E2 = some (.fsqrt true ⟨8, .vec 12, .vec 0, .vec 0, 2, true, 0, 0, .bf16, .rup, false, .thread⟩) ∧
    reads 0x46201800 0x002806E3 = some (.fexp2 true ⟨8, .vec 12, .vec 0, .vec 0, 2, true, 0, 0, .f32, .rup, false, .thread⟩) ∧
    reads 0x46201800 0x002806E4 = some (.flog2 true ⟨8, .vec 12, .vec 0, .vec 0, 2, true, 0, 0, .f32, .rup, false, .thread⟩) ∧
    reads 0x46201800 0x002806E5 = some (.fsin true ⟨8, .vec 12, .vec 0, .vec 0, 2, true, 0, 0, .f32, .rup, false, .thread⟩) ∧
    reads 0x46201800 0x002806E6 = some (.fcos true ⟨8, .vec 12, .vec 0, .vec 0, 2, true, 0, 0, .f32, .rup, false, .thread⟩) ∧
    reads 0x46201800 0x002806E7 = some (.ftanh true ⟨8, .vec 12, .vec 0, .vec 0, 2, true, 0, 0, .f32, .rup, false, .thread⟩) ∧
    reads 0x46201800 0x00280788 = some (.frexp true ⟨8, .vec 12, .vec 0, .vec 0, 2, true, 0, 0, .bf16, .rne, false, .thread⟩) ∧
    reads 0x46201800 0x00280789 = some (.fclass true ⟨8, .vec 12, .vec 0, .vec 0, 2, true, 0, 0, .bf16, .rne, false, .thread⟩) ∧
    reads 0x4A201886 0x00280787 = some (.fset true .unord ⟨8, .vec 12, .uni 6, .vec 0, 2, true, 0, 0, .bf16, .rne, false, .thread⟩) ∧
    reads 0x4C141886 0x0028078D = some (.fsetPred .geu ⟨5, .vec 12, .uni 6, .vec 0, 2, true, 0, 0, .bf16, .rne, false, .thread⟩) := by
  decide +kernel

theorem test_decode_float_3 :
    reads 0x4E201800 0x00280871 = some (.fcvt .f32 ⟨8, .vec 12, .vec 0, .vec 0, 2, true, 0, 0, .e4m3, .rup, true, .thread⟩) ∧
    reads 0x50201800 0x0028026A = some (.icvt .fromF16 ⟨8, .vec 12, .vec 0, .vec 0, 2, true, 0, 0, .s64, .rup, false, .thread⟩) := by
  decide +kernel

theorem test_decode_packed :
    reads 0x5C201980 0x0A280761 = some (.pcvt .f32 ⟨8, .vec 12, .lit 0, .vec 20, 2, true, 0, 0, .f16, .rup, false, .thread⟩) ∧
    reads 0x58201886 0x0A280110 = some (.dot2 ⟨8, .vec 12, .uni 6, .vec 20, 2, true, 0, 0, .s16, .rne, true, .thread⟩) ∧
    reads 0x58201886 0x0A280091 = some (.dot4 ⟨8, .vec 12, .uni 6, .vec 20, 2, true, 0, 0, .s8, .rne, true, .thread⟩) ∧
    reads 0x58201886 0x0A280012 = some (.dot8 ⟨8, .vec 12, .uni 6, .vec 20, 2, true, 0, 0, .s4, .rne, true, .thread⟩) ∧
    reads 0x5A201886 0x002807E0 = some (.padd ⟨8, .vec 12, .uni 6, .vec 0, 2, true, 0, 0, .bf16, .rup, false, .thread⟩) ∧
    reads 0x5A201886 0x002807E1 = some (.pmul ⟨8, .vec 12, .uni 6, .vec 0, 2, true, 0, 0, .bf16, .rup, false, .thread⟩) ∧
    reads 0x5A201886 0x0A2807E2 = some (.pfma ⟨8, .vec 12, .uni 6, .vec 20, 2, true, 0, 0, .bf16, .rup, false, .thread⟩) ∧
    reads 0x5E201886 0x00280A00 = some (.qnt ⟨8, .vec 12, .uni 6, .vec 0, 2, true, 0, 0, .e2m1, .rne, false, .thread⟩) ∧
    reads 0x5E201886 0x0A2803E1 = some (.dqnt ⟨8, .vec 12, .uni 6, .vec 20, 2, true, 0, 0, .n16, .rup, false, .thread⟩) ∧
    reads 0x5E201800 0x00280A02 = some (.bscale ⟨8, .vec 12, .vec 0, .vec 0, 2, true, 0, 0, .e2m1, .rne, false, .thread⟩) := by
  decide +kernel

theorem test_decode_moves_and_lanes_1 :
    reads 0x68260A00 0 = some (.mov ⟨9, .cst 5, .vec 0⟩) ∧
    reads 0x6A260A00 0 = some (.movUniform ⟨9, .cst 5, .vec 0⟩) ∧
    reads 0x6E240000 0x89ABCDEF = some (.movi true ⟨9, .vec 0, 0x89ABCDEF⟩) ∧
    reads 0x7220018E 0x00280000 = some (.movs true ⟨8, .vec 0, .lit 14, .vec 0, 2, true, 0, 0, .s4, .rne, false, .thread⟩) ∧
    reads 0x7800198E 0x00280000 = some (.sets ⟨0, .vec 12, .lit 14, .vec 0, 2, true, 0, 0, .s4, .rne, false, .thread⟩) ∧
    reads 0x74201886 0x0A280580 = some (.pick ⟨8, .vec 12, .uni 6, .vec 20, 2, true, 0, 0, .b64, .rne, false, .thread⟩) ∧
    reads 0x74201886 0x0A280581 = some (.rot ⟨8, .vec 12, .uni 6, .vec 20, 2, true, 0, 0, .b64, .rne, false, .thread⟩) ∧
    reads 0x74201886 0x0A280582 = some (.slide ⟨8, .vec 12, .uni 6, .vec 20, 2, true, 0, 0, .b64, .rne, false, .thread⟩) ∧
    reads 0x74201886 0x0A280583 = some (.swap ⟨8, .vec 12, .uni 6, .vec 20, 2, true, 0, 0, .b64, .rne, false, .thread⟩) ∧
    reads 0x74201886 0x0A28000A = some (.splice ⟨8, .vec 12, .uni 6, .vec 20, 2, true, 0, 0, .s4, .rne, false, .thread⟩) ∧
    reads 0x76141800 0x00280004 = some (.pollAll true ⟨5, .vec 12, .vec 0, .vec 0, 2, true, 0, 0, .s4, .rne, false, .thread⟩) ∧
    reads 0x76141800 0x00280005 = some (.pollAny true ⟨5, .vec 12, .vec 0, .vec 0, 2, true, 0, 0, .s4, .rne, false, .thread⟩) ∧
    reads 0x76201800 0x00280006 = some (.pollMask true ⟨8, .vec 12, .vec 0, .vec 0, 2, true, 0, 0, .s4, .rne, false, .thread⟩) ∧
    reads 0x76140000 0x00280007 = some (.first true ⟨5, .vec 0, .vec 0, .vec 0, 2, true, 0, 0, .s4, .rne, false, .thread⟩) ∧
    reads 0x76201886 0x0A280588 = some (.spread true ⟨8, .vec 12, .uni 6, .vec 20, 2, true, 0, 0, .b64, .rne, false, .thread⟩) ∧
    reads 0x76201800 0x00280589 = some (.peers true ⟨8, .vec 12, .vec 0, .vec 0, 2, true, 0, 0, .b64, .rne, false, .thread⟩) := by
  decide +kernel

theorem test_decode_moves_and_lanes_2 :
    reads 0x76201800 0x0028040B = some (.foldAdd true ⟨8, .vec 12, .vec 0, .vec 0, 2, true, 0, 0, .n32, .rne, false, .thread⟩) ∧
    reads 0x76201800 0x0028040C = some (.foldMin true ⟨8, .vec 12, .vec 0, .vec 0, 2, true, 0, 0, .n32, .rne, false, .thread⟩) ∧
    reads 0x76201800 0x0028040D = some (.foldMax true ⟨8, .vec 12, .vec 0, .vec 0, 2, true, 0, 0, .n32, .rne, false, .thread⟩) ∧
    reads 0x76201800 0x0028050E = some (.foldAnd true ⟨8, .vec 12, .vec 0, .vec 0, 2, true, 0, 0, .b32, .rne, false, .thread⟩) ∧
    reads 0x76201800 0x0028050F = some (.foldOr true ⟨8, .vec 12, .vec 0, .vec 0, 2, true, 0, 0, .b32, .rne, false, .thread⟩) ∧
    reads 0x7A011981 0x4A280000 = some (.affLoop ⟨0, .uni 12, .lit 1, .uni 20, 2, true, 0, 0, .s4, .rne, false, .thread⟩) ∧
    reads 0x7A011981 0x4A29D501 = some (.affLd ⟨0, .uni 12, .lit 1, .uni 20, 2, true, 3, 5, .b32, .rne, false, .thread⟩) ∧
    reads 0x7A011981 0x4A29D502 = some (.affSt ⟨0, .uni 12, .lit 1, .uni 20, 2, true, 3, 5, .b32, .rne, false, .thread⟩) ∧
    reads 0x7A001800 0x00280003 = some (.affFeed ⟨0, .vec 12, .vec 0, .vec 0, 2, true, 0, 0, .s4, .rne, false, .thread⟩) := by
  decide +kernel

theorem test_decode_memory_1 :
    reads 0x7C224CD5 0xE6F3DEBA = some (.ld ⟨8, true, 9, 0x9ABCDE, 3, true, 11, 6, .device, .b128, 2⟩) ∧
    reads 0x7E224CD5 0xE6F3DEBD = some (.st ⟨8, true, 9, 0x9ABCDE, 3, true, 11, 6, .device, .packed, 1⟩) ∧
    reads 0x80224CD5 0xE6F3DE16 = some (.ldro ⟨8, true, 9, 0x9ABCDE, 3, true, 11, 6, .thread, .b64, 2⟩) ∧
    reads 0x82224CD5 0xE6F3DEAC = some (.lds ⟨8, true, 9, 0x9ABCDE, 3, true, 11, 6, .device, .s16, 0⟩) ∧
    reads 0x84224CD5 0xE6F3DEA8 = some (.sts ⟨8, true, 9, 0x9ABCDE, 3, true, 11, 6, .device, .n16, 0⟩) ∧
    reads 0x92024CD5 0xE6F3DE02 = some (.pref ⟨0, true, 9, 0x9ABCDE, 3, true, 11, 6, .thread, .n8, 2⟩) ∧
    reads 0x94224CD5 0xE6F3DEB2 = some (.ldmon ⟨8, true, 9, 0x9ABCDE, 3, true, 11, 6, .device, .b32, 2⟩) ∧
    reads 0x86201886 0x0029D1F2 = some (.atom .max ⟨8, .vec 12, .uni 6, .vec 0, 2, true, 3, 5, .s32, .rne, false, .system⟩) ∧
    reads 0x88001886 0x0029D1F2 = some (.red .max ⟨0, .vec 12, .uni 6, .vec 0, 2, true, 3, 5, .s32, .rne, false, .system⟩) ∧
    reads 0x8A201886 0x0029D1F2 = some (.atoms .max ⟨8, .vec 12, .uni 6, .vec 0, 2, true, 3, 5, .s32, .rne, false, .system⟩) ∧
    reads 0x8C201886 0x0029D1F2 = some (.bankop .max ⟨8, .vec 12, .uni 6, .vec 0, 2, true, 3, 5, .s32, .rne, false, .system⟩) ∧
    reads 0x8E000000 0x00280070 = some (.fence ⟨0, .vec 0, .vec 0, .vec 0, 2, true, 0, 0, .s4, .rne, false, .system⟩) ∧
    reads 0x8E000000 0x00280071 = some (.fenceRo ⟨0, .vec 0, .vec 0, .vec 0, 2, true, 0, 0, .s4, .rne, false, .system⟩) ∧
    reads 0x90201886 0x0029D070 = some (.flushRange ⟨8, .vec 12, .uni 6, .vec 0, 2, true, 3, 5, .s4, .rne, false, .system⟩) ∧
    reads 0x90201886 0x0029D071 = some (.invRange ⟨8, .vec 12, .uni 6, .vec 0, 2, true, 3, 5, .s4, .rne, false, .system⟩) ∧
    reads 0x90201886 0x0029D072 = some (.cleanRange ⟨8, .vec 12, .uni 6, .vec 0, 2, true, 3, 5, .s4, .rne, false, .system⟩) := by
  decide +kernel

theorem test_decode_memory_2 :
    reads 0x96000000 0x00280070 = some (.waitmon ⟨0, .vec 0, .vec 0, .vec 0, 2, true, 0, 0, .s4, .rne, false, .system⟩) ∧
    reads 0x98201886 0x0A280000 = some (.resHint ⟨8, .vec 12, .uni 6, .vec 20, 2, true, 0, 0, .s4, .rne, false, .thread⟩) ∧
    reads 0x98201800 0x00280001 = some (.resEvict ⟨8, .vec 12, .vec 0, .vec 0, 2, true, 0, 0, .s4, .rne, false, .thread⟩) ∧
    reads 0x9A030286 0x0A29D000 = some (.cbload ⟨0, .lit 1, .uni 6, .vec 20, 2, true, 3, 5, .s4, .rne, false, .thread⟩) := by
  decide +kernel

theorem test_decode_engines_1 :
    reads 0xA0201981 0x0029D580 = some (.cpyTile ⟨8, .vec 12, .lit 1, .vec 0, 2, true, 3, 5, .b64, .rne, false, .thread⟩) ∧
    reads 0xA0201981 0x0029D581 = some (.cpyGath ⟨8, .vec 12, .lit 1, .vec 0, 2, true, 3, 5, .b64, .rne, false, .thread⟩) ∧
    reads 0xA0201981 0x0029D582 = some (.cpyScat ⟨8, .vec 12, .lit 1, .vec 0, 2, true, 3, 5, .b64, .rne, false, .thread⟩) ∧
    reads 0xA0201981 0x0029D583 = some (.cpyMcast ⟨8, .vec 12, .lit 1, .vec 0, 2, true, 3, 5, .b64, .rne, false, .thread⟩) ∧
    reads 0xA0201981 0x0029DA04 = some (.cpyQnt ⟨8, .vec 12, .lit 1, .vec 0, 2, true, 3, 5, .e2m1, .rne, false, .thread⟩) ∧
    reads 0xA0201981 0x0029D585 = some (.cpyFill ⟨8, .vec 12, .lit 1, .vec 0, 2, true, 3, 5, .b64, .rne, false, .thread⟩) ∧
    reads 0xA2230200 0x0029D000 = some (.qfence ⟨8, .lit 1, .vec 0, .vec 0, 2, true, 3, 5, .s4, .rne, false, .thread⟩) ∧
    reads 0xA2030200 0x00280001 = some (.qwait ⟨0, .lit 1, .vec 0, .vec 0, 2, true, 0, 0, .s4, .rne, false, .thread⟩) ∧
    reads 0xA4201800 0x0029D000 = some (.viewReg ⟨8, .vec 12, .vec 0, .vec 0, 2, true, 3, 5, .s4, .rne, false, .thread⟩) ∧
    reads 0xA4201800 0x0029D001 = some (.viewDrop ⟨8, .vec 12, .vec 0, .vec 0, 2, true, 3, 5, .s4, .rne, false, .thread⟩) ∧
    reads 0xA4201800 0x0029D002 = some (.viewFence ⟨8, .vec 12, .vec 0, .vec 0, 2, true, 3, 5, .s4, .rne, false, .thread⟩) ∧
    reads 0xA4201886 0x0029D003 = some (.viewStat ⟨8, .vec 12, .uni 6, .vec 0, 2, true, 3, 5, .s4, .rne, false, .thread⟩) ∧
    reads 0xA6201800 0x0029D000 = some (.rmaPut ⟨8, .vec 12, .vec 0, .vec 0, 2, true, 3, 5, .s4, .rne, false, .thread⟩) ∧
    reads 0xA6201800 0x0029D001 = some (.rmaGet ⟨8, .vec 12, .vec 0, .vec 0, 2, true, 3, 5, .s4, .rne, false, .thread⟩) ∧
    reads 0xA6201800 0x0029D582 = some (.rmaAtom ⟨8, .vec 12, .vec 0, .vec 0, 2, true, 3, 5, .b64, .rne, false, .thread⟩) ∧
    reads 0xA6001800 0x00280003 = some (.rmaWait ⟨0, .vec 12, .vec 0, .vec 0, 2, true, 0, 0, .s4, .rne, false, .thread⟩) := by
  decide +kernel

theorem test_decode_engines_2 :
    reads 0xA6230286 0x0029D004 = some (.rmaKey ⟨8, .lit 1, .uni 6, .vec 0, 2, true, 3, 5, .s4, .rne, false, .thread⟩) ∧
    reads 0xB8201886 0x0029D000 = some (.mxWload ⟨8, .vec 12, .uni 6, .vec 0, 2, true, 3, 5, .s4, .rne, false, .thread⟩) ∧
    reads 0xB8201886 0x0029D001 = some (.mxIssue ⟨8, .vec 12, .uni 6, .vec 0, 2, true, 3, 5, .s4, .rne, false, .thread⟩) ∧
    reads 0xB8201800 0x00280002 = some (.mxTest ⟨8, .vec 12, .vec 0, .vec 0, 2, true, 0, 0, .s4, .rne, false, .thread⟩) ∧
    reads 0xB8201800 0x00280003 = some (.mxProg ⟨8, .vec 12, .vec 0, .vec 0, 2, true, 0, 0, .s4, .rne, false, .thread⟩) ∧
    reads 0xB8201800 0x00280004 = some (.mxAbort ⟨8, .vec 12, .vec 0, .vec 0, 2, true, 0, 0, .s4, .rne, false, .thread⟩) ∧
    reads 0xBA201981 0x00280000 = some (.accAlloc ⟨8, .vec 12, .lit 1, .vec 0, 2, true, 0, 0, .s4, .rne, false, .thread⟩) ∧
    reads 0xBA001800 0x00280001 = some (.accFree ⟨0, .vec 12, .vec 0, .vec 0, 2, true, 0, 0, .s4, .rne, false, .thread⟩) ∧
    reads 0xBA201886 0x0A29D502 = some (.accLd ⟨8, .vec 12, .uni 6, .vec 20, 2, true, 3, 5, .b32, .rne, false, .thread⟩) ∧
    reads 0xBA201886 0x0A29D503 = some (.accSt ⟨8, .vec 12, .uni 6, .vec 20, 2, true, 3, 5, .b32, .rne, false, .thread⟩) ∧
    reads 0xBA201800 0x0029D004 = some (.accZero ⟨8, .vec 12, .vec 0, .vec 0, 2, true, 3, 5, .s4, .rne, false, .thread⟩) ∧
    reads 0xBA201886 0x0A29D7E5 = some (.accCvt ⟨8, .vec 12, .uni 6, .vec 20, 2, true, 3, 5, .bf16, .rup, false, .thread⟩) ∧
    reads 0xBC201981 0x0029D080 = some (.spcCmp ⟨8, .vec 12, .lit 1, .vec 0, 2, true, 3, 5, .s8, .rne, false, .thread⟩) ∧
    reads 0xBC201981 0x00280501 = some (.spcMeta ⟨8, .vec 12, .lit 1, .vec 0, 2, true, 0, 0, .b32, .rne, false, .thread⟩) := by
  decide +kernel

theorem test_decode_control :
    reads 0xC9600000 0xFFFFFF00 = some (.bra ⟨5, true, 0xFFFFFF00⟩) ∧
    reads 0xCD600000 0xFFFFFF00 = some (.call ⟨5, true, 0xFFFFFF00⟩) ∧
    reads 0xD0000000 0 = some (.ret) ∧
    reads 0xCA001886 0x0A280000 = some (.brx ⟨0, .vec 12, .uni 6, .vec 20, 2, true, 0, 0, .s4, .rne, false, .thread⟩) ∧
    reads 0xCE001800 0x00280000 = some (.callx ⟨0, .vec 12, .vec 0, .vec 0, 2, true, 0, 0, .s4, .rne, false, .thread⟩) ∧
    reads 0xD2030200 0x00280000 = some (.rjoinSet ⟨0, .lit 1, .vec 0, .vec 0, 2, true, 0, 0, .s4, .rne, false, .thread⟩) ∧
    reads 0xD2030200 0x00280001 = some (.rjoinWait ⟨0, .lit 1, .vec 0, .vec 0, 2, true, 0, 0, .s4, .rne, false, .thread⟩) ∧
    reads 0xD2030200 0x00280002 = some (.rjoinLeave ⟨0, .lit 1, .vec 0, .vec 0, 2, true, 0, 0, .s4, .rne, false, .thread⟩) ∧
    reads 0xD4000000 0x00280000 = some (.yield ⟨0, .vec 0, .vec 0, .vec 0, 2, true, 0, 0, .s4, .rne, false, .thread⟩) ∧
    reads 0xD4000000 0x00280001 = some (.exit ⟨0, .vec 0, .vec 0, .vec 0, 2, true, 0, 0, .s4, .rne, false, .thread⟩) ∧
    reads 0xD4000000 0x00280002 = some (.nop ⟨0, .vec 0, .vec 0, .vec 0, 2, true, 0, 0, .s4, .rne, false, .thread⟩) ∧
    reads 0xD4001800 0x00280003 = some (.sleep ⟨0, .vec 12, .vec 0, .vec 0, 2, true, 0, 0, .s4, .rne, false, .thread⟩) ∧
    reads 0xD6001800 0x00280000 = some (.migrate ⟨0, .vec 12, .vec 0, .vec 0, 2, true, 0, 0, .s4, .rne, false, .thread⟩) ∧
    reads 0xD8201800 0x0029D000 = some (.launch ⟨8, .vec 12, .vec 0, .vec 0, 2, true, 3, 5, .s4, .rne, false, .thread⟩) := by
  decide +kernel

theorem test_decode_synchronisation :
    reads 0xE0230286 0x00280050 = some (.barArrive ⟨8, .lit 1, .uni 6, .vec 0, 2, true, 0, 0, .s4, .rne, false, .device⟩) ∧
    reads 0xE0030286 0x00280051 = some (.barWait ⟨0, .lit 1, .uni 6, .vec 0, 2, true, 0, 0, .s4, .rne, false, .device⟩) ∧
    reads 0xE0030286 0x00280052 = some (.barSync ⟨0, .lit 1, .uni 6, .vec 0, 2, true, 0, 0, .s4, .rne, false, .device⟩) ∧
    reads 0xE2201800 0x00280000 = some (.tokenWait ⟨8, .vec 12, .vec 0, .vec 0, 2, true, 0, 0, .s4, .rne, false, .thread⟩) ∧
    reads 0xE2201800 0x00280001 = some (.tokenTest ⟨8, .vec 12, .vec 0, .vec 0, 2, true, 0, 0, .s4, .rne, false, .thread⟩) ∧
    reads 0xE4201886 0x0A280002 = some (.ship 2 ⟨8, .vec 12, .uni 6, .vec 20, 2, true, 0, 0, .s4, .rne, false, .thread⟩) ∧
    reads 0xE4201886 0x0A29D00A = some (.shipA 2 ⟨8, .vec 12, .uni 6, .vec 20, 2, true, 3, 5, .s4, .rne, false, .thread⟩) ∧
    reads 0xE6000000 0x00280000 = some (.sentry ⟨0, .vec 0, .vec 0, .vec 0, 2, true, 0, 0, .s4, .rne, false, .thread⟩) ∧
    reads 0xE6000000 0x00280001 = some (.sret ⟨0, .vec 0, .vec 0, .vec 0, 2, true, 0, 0, .s4, .rne, false, .thread⟩) ∧
    reads 0xE8201800 0x00280000 = some (.futLd ⟨8, .vec 12, .vec 0, .vec 0, 2, true, 0, 0, .s4, .rne, false, .thread⟩) ∧
    reads 0xE8201886 0x0029D001 = some (.futSt ⟨8, .vec 12, .uni 6, .vec 0, 2, true, 3, 5, .s4, .rne, false, .thread⟩) ∧
    reads 0xEA000000 0x00280000 = some (.phaseEnd ⟨0, .vec 0, .vec 0, .vec 0, 2, true, 0, 0, .s4, .rne, false, .thread⟩) ∧
    reads 0xEA000000 0x00280001 = some (.quiet ⟨0, .vec 0, .vec 0, .vec 0, 2, true, 0, 0, .s4, .rne, false, .thread⟩) := by
  decide +kernel

theorem test_decode_flares_and_traps_1 :
    reads 0xF0201886 0x0A29D000 = some (.flareSend ⟨8, .vec 12, .uni 6, .vec 20, 2, true, 3, 5, .s4, .rne, false, .thread⟩) ∧
    reads 0xF2000000 0x00280000 = some (.flareRet ⟨0, .vec 0, .vec 0, .vec 0, 2, true, 0, 0, .s4, .rne, false, .thread⟩) ∧
    reads 0xF2201981 0x00280001 = some (.flareMask ⟨8, .vec 12, .lit 1, .vec 0, 2, true, 0, 0, .s4, .rne, false, .thread⟩) ∧
    reads 0xF2201800 0x00280002 = some (.flareRead ⟨8, .vec 12, .vec 0, .vec 0, 2, true, 0, 0, .s4, .rne, false, .thread⟩) ∧
    reads 0xF2201800 0x00280003 = some (.flareAck ⟨8, .vec 12, .vec 0, .vec 0, 2, true, 0, 0, .s4, .rne, false, .thread⟩) ∧
    reads 0xF8001800 0x00280000 = some (.trap ⟨0, .vec 12, .vec 0, .vec 0, 2, true, 0, 0, .s4, .rne, false, .thread⟩) ∧
    reads 0xF8000000 0x00280001 = some (.tret ⟨0, .vec 0, .vec 0, .vec 0, 2, true, 0, 0, .s4, .rne, false, .thread⟩) ∧
    reads 0xF8201886 0x0A280002 = some (.svc ⟨8, .vec 12, .uni 6, .vec 20, 2, true, 0, 0, .s4, .rne, false, .thread⟩) ∧
    reads 0xF8001800 0x00280003 = some (.bkpt ⟨0, .vec 12, .vec 0, .vec 0, 2, true, 0, 0, .s4, .rne, false, .thread⟩) ∧
    reads 0xFA201886 0x0A280000 = some (.ctxSave ⟨8, .vec 12, .uni 6, .vec 20, 2, true, 0, 0, .s4, .rne, false, .thread⟩) ∧
    reads 0xFA201886 0x0A280001 = some (.ctxLoad ⟨8, .vec 12, .uni 6, .vec 20, 2, true, 0, 0, .s4, .rne, false, .thread⟩) ∧
    reads 0xFA201981 0x00280002 = some (.asidRetire ⟨8, .vec 12, .lit 1, .vec 0, 2, true, 0, 0, .s4, .rne, false, .thread⟩) ∧
    reads 0xFA201981 0x0A280003 = some (.tlbProbe ⟨8, .vec 12, .lit 1, .vec 20, 2, true, 0, 0, .s4, .rne, false, .thread⟩) ∧
    reads 0xFA201886 0x0A280004 = some (.pageScan ⟨8, .vec 12, .uni 6, .vec 20, 2, true, 0, 0, .s4, .rne, false, .thread⟩) ∧
    reads 0xFA201800 0x00280005 = some (.mboxTake ⟨8, .vec 12, .vec 0, .vec 0, 2, true, 0, 0, .s4, .rne, false, .thread⟩) ∧
    reads 0xFA201981 0x0A280006 = some (.mboxPut ⟨8, .vec 12, .lit 1, .vec 20, 2, true, 0, 0, .s4, .rne, false, .thread⟩) := by
  decide +kernel

theorem test_decode_flares_and_traps_2 :
    reads 0xFA000000 0x00280007 = some (.halt ⟨0, .vec 0, .vec 0, .vec 0, 2, true, 0, 0, .s4, .rne, false, .thread⟩) := by
  decide +kernel
/-! ### Small states -/

/-- A thread with registers given by a function, at the first instruction of the test clause. -/
def thr (v : Nat → Word) : Thread :=
  { v := (List.range 120).map v, p := [true, false, true, false, true, false, true, true], dc := List.replicate 8 0,
    pc := mkResume 0x10000 1, inq := List.replicate 4 [], outq := List.replicate 4 [], addrq := List.replicate 4 [] }

/-- A user team of two threads at core 0: v(i) is 2 i + 3 in lane 0 and 100 - 7 i in lane 1; s(i) is 16 i. -/
def duo : Team :=
  { soloTeam .user with
    threads := [thr fun i => BitVec.ofNat 32 (2 * i + 3), thr fun i => 100 - BitVec.ofNat 32 (7 * i)]
    s := (List.range 64).map fun i => BitVec.ofNat 32 (16 * i)
    acc := none }

/-- A run of lanes at the first of two instructions of its clause. -/
def runOf (lanes : List Nat) : Run :=
  { team := 0, acc := false, lanes := lanes, core := 0, pipe := 0, hdrAddr := 0x10000, hdr := 0x20000000, words := [],
    idx := 0, off := 1, count := 0, needHdr := false }

/-- A started device whose only team is at an instruction, its pages mapped one to one. -/
def at_ (t : Team) (r : Run := runOf [0, 1]) : State :=
  { State.reset with
    mem := identityTables [], teams := [(0, t)], runs := [r], cur := some 0, serial := 1
    dev := { State.reset.dev with started := true } }

def pair0 : State := at_ duo

/-- The state an instruction leaves. -/
def after (o : Host.Outcome State Fault Refusal) : State :=
  match o with
  | .next s => s
  | _ => State.reset

/-- An instruction answers a next state. -/
def goesOn (o : Host.Outcome State Fault Refusal) : Bool :=
  match o with
  | .next _ => true
  | _ => false

/-- A register of both lanes after an instruction on `pair0`. -/
def v2 (i : Instr) (j : Nat) : List Word :=
  [(after (exec i pair0)).thread 0 0 |>.vreg j, (after (exec i pair0)).thread 0 1 |>.vreg j]

/-- A uniform register after an instruction on `pair0`. -/
def u2 (i : Instr) (j : Nat) : Word := getAt 0 ((after (exec i pair0)).team 0).s j

/-- A computation gives a result. -/
def isOk {ε α : Type} (e : Except ε α) : Bool :=
  match e with
  | .ok _ => true
  | .error _ => false

theorem ok_of {ε α : Type} {e : Except ε α} (h : isOk e = true) : ∃ a, e = .ok a := by
  cases e with
  | ok a => exact ⟨a, rfl⟩
  | error _ => exact absurd h (by simp [isOk])

/-! ### Computing instructions: hypotheses met -/

def oA : AOps := ⟨9, .vec 3, .uni 5⟩
def oB : BOps := ⟨9, .vec 3, -2⟩
def oL : LOps := ⟨9, .vec 3, 0x40000000⟩
def oP : AOps := ⟨10, .vec 4, .uni 6⟩

/-- Records of the integer group: 32 bits and 64 bits, vector and uniform sources. -/
def x3 (ty : Ty) : XOps := xo 9 (.vec 3) (.uni 5) (.lit 2) ty
def x6 (ty : Ty) : XOps := xo 10 (.vec 4) (.uni 6) (.lit 2) ty
def x2 (ty : Ty) : XOps := xo 9 (.vec 3) (.uni 5) (.vec 0) ty
def x1 (ty : Ty) : XOps := xo 9 (.vec 3) (.vec 0) (.vec 0) ty

/-- R46 to R48, R58: every computing form goes through on `pair0`. -/
theorem witness_integer_forms_go : ∀ p ∈ [(Instr.iaddA oA, ofA oA, false), (.isubA oA, ofA oA, false),
      (.imulA oA, ofA oA, false), (.andA oA, ofA oA, false), (.orA oA, ofA oA, false), (.xorA oA, ofA oA, false),
      (.iminA oA, ofA oA, false), (.imaxA oA, ofA oA, false), (.iaddS64A oP, ofA oP, false), (.iaddB oB, ofB oB, false),
      (.shlB oB, ofB oB, false), (.shrB oB, ofB oB, false), (.shaB oB, ofB oB, false), (.iaddL oL, ofL oL, false),
      (.andL oL, ofL oL, false), (.iaddX true (x2 .s32), ofX (x2 .s32), true), (.isubX false (x2 .n32), ofX (x2 .n32), false),
      (.imulX false { x6 .s64 with c := .vec 0 }, ofX { x6 .s64 with c := .vec 0 }, false),
      (.imulh true (x2 .n32), ofX (x2 .n32), true), (.imad false (x3 .s32), ofX (x3 .s32), false),
      (.idiv false (x2 .s32), ofX (x2 .s32), false), (.irem true (x2 .n32), ofX (x2 .n32), true),
      (.iminX false (x2 .s32), ofX (x2 .s32), false), (.imaxX false (x2 .s32), ofX (x2 .s32), false),
      (.iabs false (x1 .s32), ofX (x1 .s32), false), (.ineg true (x1 .s32), ofX (x1 .s32), true),
      (.iaddc false { x3 .n32 with dst := 10 }, ofX { x3 .n32 with dst := 10 }, false),
      (.isat false (x1 .s8), ofX (x1 .s8), false),
      (.lea false { x6 .s32 with b := .uni 5 }, ofX { x6 .s32 with b := .uni 5 }, false)],
    GoesOp pair0 0 (runOf [0, 1]) p.1 p.2.1 p.2.2 := by
  unfold GoesOp Goes Issuing NoWait; decide +kernel

theorem witness_bit_forms_go : ∀ p ∈ [(Instr.andX false (x2 .b32), x2 .b32, false), (.orX true (x2 .b32), x2 .b32, true),
      (.xorX false (x2 .b32), x2 .b32, false), (.andn false (x2 .b32), x2 .b32, false),
      (.not false (x1 .b32), x1 .b32, false), (.shlX false (x2 .b32), x2 .b32, false),
      (.shrX false (x2 .b32), x2 .b32, false), (.shaX false (x2 .b32), x2 .b32, false),
      (.rotl false (x2 .b32), x2 .b32, false), (.bfx false (x2 .s32), x2 .s32, false),
      (.bfi false (x3 .b32), x3 .b32, false), (.popc false (x1 .b32), x1 .b32, false),
      (.clz false (x1 .b32), x1 .b32, false), (.ctz true (x1 .b32), x1 .b32, true),
      (.brev false (x1 .b32), x1 .b32, false), (.sel false (x3 .b32), x3 .b32, false),
      (.iset true .lt (x2 .s32), x2 .s32, true), (.icmp .ge { x2 .s32 with dst := 3 }, { x2 .s32 with dst := 3 }, false)],
    GoesOp pair0 0 (runOf [0, 1]) p.1 (ofX p.2.1) p.2.2 := by
  unfold GoesOp Goes Issuing NoWait; decide +kernel

theorem witness_float_forms_go : ∀ p ∈ [(Instr.faddX false (x2 .f32), x2 .f32, false), (.fsubX true (x2 .f32), x2 .f32, true),
      (.fmulX false (x2 .f16), x2 .f16, false), (.ffma false (x3 .f32), x3 .f32, false), (.fdiv false (x2 .f32), x2 .f32, false),
      (.fminX false (x2 .f32), x2 .f32, false), (.fmaxX false (x2 .bf16), x2 .bf16, false),
      (.fscale false (x2 .f32), x2 .f32, false), (.frnd false (x1 .f32), x1 .f32, false), (.fsat true (x1 .f32), x1 .f32, true),
      (.fsgnCpy false (x2 .f32), x2 .f32, false), (.fsgnNeg false (x2 .f32), x2 .f32, false),
      (.fsgnXor false (x2 .f32), x2 .f32, false), (.frcp false (x1 .f32), x1 .f32, false), (.frsq false (x1 .f32), x1 .f32, false),
      (.fsqrt false (x1 .f32), x1 .f32, false), (.fexp2 false (x1 .f32), x1 .f32, false),
      (.flog2 false (x1 .f32), x1 .f32, false), (.fsin true (x1 .f32), x1 .f32, true), (.fcos false (x1 .f32), x1 .f32, false),
      (.ftanh false (x1 .f32), x1 .f32, false), (.frexp false { x1 .f32 with dst := 10 }, { x1 .f32 with dst := 10 }, false),
      (.fclass false (x1 .f32), x1 .f32, false), (.fset false .unord (x2 .f32), x2 .f32, false),
      (.fsetPred .geu { x2 .f32 with dst := 3 }, { x2 .f32 with dst := 3 }, false),
      (.fcvt .f32 (x1 .f16), x1 .f16, false), (.icvt .fromS32 (x1 .f32), x1 .f32, false),
      (.icvt .fromF32 (x1 .s32), x1 .s32, false)],
    GoesOp pair0 0 (runOf [0, 1]) p.1 (ofX p.2.1) p.2.2 := by
  unfold GoesOp Goes Issuing NoWait; decide +kernel

theorem witness_one_word_float_forms_go : ∀ p ∈ [(Instr.faddA oA, ofA oA), (.fsubA oA, ofA oA), (.fmulA oA, ofA oA),
      (.fminA oA, ofA oA), (.fmaxA oA, ofA oA), (.faddL oL, ofL oL), (.fmulL oL, ofL oL)],
    GoesOp pair0 0 (runOf [0, 1]) p.1 p.2 false := by
  unfold GoesOp Goes Issuing NoWait; decide +kernel

/-- PCVT in its two directions: two .f32 of 32 bits to two .f16, and one .f16 pair to .f32. -/
def xNarrow : XOps := xo 9 (.vec 3) (.lit 0) (.vec 4) .f16
def xWiden : XOps := xo 9 (.vec 3) (.lit 1) (.vec 0) .f32

theorem witness_packed_and_move_forms_go : ∀ p ∈ [(Instr.padd (x2 .s8), x2 .s8, false), (.pmul (x2 .f16), x2 .f16, false),
      (.pfma (x3 .n16), x3 .n16, false), (.dot2 (x3 .f16), x3 .f16, false), (.dot4 (x3 .s8), x3 .s8, false),
      (.dot8 (x3 .e2m1), x3 .e2m1, false), (.pcvt .f32 xNarrow, xNarrow, false), (.pcvt .f16 xWiden, xWiden, false),
      (.qnt (x2 .e4m3), x2 .e4m3, false), (.dqnt (x3 .e4m3), x3 .e4m3, false),
      (.splice (x3 .s4), x3 .s4, false), (.movs false (xo 9 (.vec 0) (.lit 7) (.vec 0)), xo 9 (.vec 0) (.lit 7) (.vec 0), false),
      (.pick (x3 .b32), x3 .b32, false), (.rot (x3 .b32), x3 .b32, false), (.slide (x3 .b32), x3 .b32, false),
      (.swap (x3 .b32), x3 .b32, false), (.spread true (x3 .b32), x3 .b32, true), (.peers false (x1 .b32), x1 .b32, false),
      (.pollAll false { x1 .s4 with dst := 3 }, { x1 .s4 with dst := 3 }, false), (.pollAny true (x1 .s4), x1 .s4, true),
      (.pollMask false (x1 .s4), x1 .s4, false), (.first true (xo 9 (.vec 0) (.vec 0) (.vec 0)), xo 9 (.vec 0) (.vec 0) (.vec 0), true),
      (.foldAdd false (x1 .s32), x1 .s32, false), (.foldMin true (x1 .n32), x1 .n32, true),
      (.foldMax false (x1 .s32), x1 .s32, false), (.foldAnd false (x1 .b32), x1 .b32, false),
      (.foldOr true (x1 .b32), x1 .b32, true), (.bscale (x1 .e4m3), x1 .e4m3, false)],
    p.1.wf = true ∧ GoesOp pair0 0 (runOf [0, 1]) p.1 (ofX p.2.1) p.2.2 := by
  unfold GoesOp Goes Issuing NoWait; decide +kernel

theorem witness_moves_of_one_word_go :
    GoesOp pair0 0 (runOf [0, 1]) (.mov ⟨9, .vec 3, .vec 0⟩) (ofA ⟨9, .vec 3, .vec 0⟩) false ∧
    GoesOp pair0 0 (runOf [0, 1]) (.movUniform ⟨9, .vec 3, .vec 0⟩) (ofA ⟨9, .vec 3, .vec 0⟩) true ∧
    GoesOp pair0 0 (runOf [0, 1]) (.movi true ⟨9, .vec 0, 7⟩) (ofL ⟨9, .vec 0, 7⟩) true := by
  unfold GoesOp Goes Issuing NoWait; decide +kernel

/-- What a lane of `pair0` computes with, for an instruction with fields `f`. -/
def grp0 (f : Fields) : Grp := groupOf pair0 0 (runOf [0, 1]) f

/-- Both lanes execute, and each gives its operands to any computation and writes the words: one, two and three sources,
one and two registers, with and without exceptions, and integer division. -/
theorem witness_lanes_give_their_operands :
    execLanes pair0 (runOf [0, 1]) (ofX (x3 .s32)) = [0, 1] ∧
    (∀ l ∈ [0, 1], ∀ (v : DWord → List Word), ∃ ws th, LaneGives pair0 (grp0 (ofX (x3 .s32)))
      (from1 .int .w32 (ofX (x3 .s32)) v) l ws th) ∧
    (∀ l ∈ [0, 1], ∀ (v : DWord → DWord → List Word), ∃ ws th, LaneGives pair0 (grp0 (ofX (x6 .s64)))
      (from2 .int .w64 .int .w64 (ofX (x6 .s64)) v) l ws th) ∧
    (∀ l ∈ [0, 1], ∀ (v : DWord → DWord → DWord → List Word), ∃ ws th, LaneGives pair0 (grp0 (ofX (x3 .f32)))
      (from3 (.fp .f32) .w32 .int .w32 .int .w32 (ofX (x3 .f32)) v) l ws th) ∧
    (∀ l ∈ [0, 1], ∀ d ∈ [DUse.none, .r1, .r2, .pr], ∃ th, writeDst ((grp0 (ofX (x3 .s32))).lctx pair0 l) d 4 [1, 2]
      ((grp0 (ofX (x3 .s32))).thread pair0 l) = .ok ((), th)) := by
  refine ⟨by decide +kernel, ?_, ?_, ?_, ?_⟩
  · intro l hl v; fin_cases hl <;> exact ⟨_, _, rfl⟩
  · intro l hl v; fin_cases hl <;> exact ⟨_, _, rfl⟩
  · intro l hl v; fin_cases hl <;> exact ⟨_, _, rfl⟩
  · intro l hl d hd; fin_cases hl <;> fin_cases hd <;> exact ⟨_, rfl⟩

theorem witness_lanes_give_with_exceptions : ∀ l ∈ [0, 1],
    isOk (fpFrom2 (.fp .f32) .w32 (.fp .f32) .w32 (ofX (x2 .f32)) (fun a b => ([a.lo + b.lo], 31))
      ((grp0 (ofX (x2 .f32))).lctx pair0 l) ((grp0 (ofX (x2 .f32))).thread pair0 l)) = true ∧
    isOk (fpFrom1 .int .w32 (ofX (x2 .f32)) (fun a => ([a.lo], 1)) ((grp0 (ofX (x2 .f32))).lctx pair0 l)
      ((grp0 (ofX (x2 .f32))).thread pair0 l)) = true ∧
    isOk (fpFrom3 .int .w32 .int .w32 .int .w32 (ofX (x3 .f32)) (fun a _ _ => ([a.lo], 2)) ((grp0 (ofX (x3 .f32))).lctx pair0 l)
      ((grp0 (ofX (x3 .f32))).thread pair0 l)) = true ∧
    isOk (divLane (x2 .s32) (fun a b => BitVec.ofInt 64 (a - b)) ((grp0 (ofX (x2 .s32))).lctx pair0 l)
      ((grp0 (ofX (x2 .s32))).thread pair0 l)) = true ∧
    isOk (readMove (ofX (x3 .b32)) .w32 ((grp0 (ofX (x3 .b32))).lctx pair0 l) ((grp0 (ofX (x3 .b32))).thread pair0 l)) = true ∧
    isOk (readA32 (ofX (x1 .s32)) ((grp0 (ofX (x1 .s32))).lctx pair0 l) ((grp0 (ofX (x1 .s32))).thread pair0 l)) = true := by
  decide +kernel

/-- A uniform variant of which no lane executes: PRED 7 with PNEG 1 (R51). -/
theorem witness_no_lane_executes :
    let x : XOps := { x2 .s32 with pneg := true }
    GoesOp pair0 0 (runOf [0, 1]) (.iaddX true x) (ofX x) true ∧ execLanes pair0 (runOf [0, 1]) (ofX x) = [] := by
  unfold GoesOp Goes Issuing NoWait; decide +kernel

/-! ### Computing instructions: results by hand -/

/-- v3 is 9 and 79, s5 is 80; the last one sets bit 30 (R288). -/
theorem test_one_word_integer_results :
    v2 (.iaddA oA) 9 = [89, 159] ∧ v2 (.isubA oA) 9 = [-71, -1] ∧ v2 (.imulA oA) 9 = [720, 6320] ∧
    v2 (.andA oA) 9 = [0, 64] ∧ v2 (.orA oA) 9 = [89, 95] ∧ v2 (.xorA oA) 9 = [89, 31] ∧ v2 (.iminA oA) 9 = [9, 79] ∧
    v2 (.imaxA oA) 9 = [80, 80] ∧ v2 (.iaddB oB) 9 = [7, 77] ∧ v2 (.shlB ⟨9, .vec 3, 4⟩) 9 = [144, 1264] ∧
    v2 (.shrB ⟨9, .vec 3, 3⟩) 9 = [1, 9] ∧ v2 (.shaB ⟨9, .vec 20, 33⟩) 9 = [0, -1] ∧
    v2 (.iaddL oL) 9 = [0x40000009, 0x4000004F] ∧ v2 (.andL ⟨9, .vec 3, 8⟩) 9 = [8, 8] := by
  decide +kernel

/-- R288, R290: the pair v4:5 is 0xD_0000000B and 0x41_00000048; s6:7 is 0x70_00000060. -/
theorem test_pairs_and_group_results :
    v2 (.iaddS64A oP) 10 = [0x6B, 0xA8] ∧ v2 (.iaddS64A oP) 11 = [0x7D, 0xB1] ∧
    u2 (.iaddX true (x2 .s32)) 9 = 89 ∧ v2 (.isubX false (x2 .n32)) 9 = [-71, -1] ∧
    v2 (.isubX false { x2 .n32 with ovf := true }) 9 = [0, 0] ∧ v2 (.imad false (x3 .s32)) 9 = [722, 6322] ∧
    v2 (.idiv false { x2 .s32 with b := .lit (-2) }) 9 = [-4, -39] ∧
    v2 (.irem false { x2 .s32 with b := .lit (-2) }) 9 = [1, 1] ∧ v2 (.idiv false { x2 .s32 with b := .lit 0 }) 9 = [-1, -1] ∧
    v2 (.iabs false (xo 9 (.vec 20) (.vec 0) (.vec 0) .s32)) 9 = [43, 40] ∧ v2 (.ineg false (x1 .s32)) 9 = [-9, -79] ∧
    v2 (.imulh false (xo 9 (.vec 3) (.lit (-1)) (.vec 0) .s32)) 9 = [-1, -1] ∧
    v2 (.isat false (x1 .s4)) 9 = [7, 7] ∧ v2 (.lea false { x6 .s32 with b := .uni 5 }) 10 = [331, 392] := by
  decide +kernel

/-- R293, R294: 9 is 1001 and 79 is 1001111 in binary. -/
theorem test_bit_results :
    v2 (.andn false { x2 .b32 with b := .lit 1 }) 9 = [8, 78] ∧ v2 (.rotl false { x2 .b32 with b := .lit 31 }) 9 =
      [0x80000004, 0x80000027] ∧ v2 (.popc false (x1 .b32)) 9 = [2, 5] ∧ v2 (.clz false (x1 .b32)) 9 = [28, 25] ∧
    v2 (.ctz false { x1 .b32 with a := .uni 5 }) 9 = [4, 4] ∧ v2 (.brev false (x1 .b32)) 9 = [0x90000000, 0xF2000000] ∧
    v2 (.sel false { x3 .b32 with c := .lit 0 }) 9 = [80, 80] ∧ v2 (.shaX false { x2 .b32 with a := .vec 20, b := .lit 40 }) 9 = [0, -1] ∧
    v2 (.iset false .lt (x2 .s32)) 9 = [1, 1] ∧
    ((after (exec (.icmp .ge { x2 .s32 with dst := 3 }) pair0)).thread 0 0).pred 3 = false := by
  decide +kernel

/-- R296 to R300: literals denote numbers: 3 + 2 = 5, 3 × 2 = 6, 1 ÷ 4; R301: the square root of 4; R304: 2.0 as .f16;
R305: -3 as .f32 and back. -/
theorem test_float_results :
    v2 (.faddA ⟨9, .lit 3, .lit 2⟩) 9 = [0x40A00000, 0x40A00000] ∧ v2 (.fmulA ⟨9, .lit 3, .lit 2⟩) 9 = [0x40C00000, 0x40C00000] ∧
    v2 (.fdiv false (xo 9 (.lit 1) (.lit 4) (.vec 0) .f32)) 9 = [0x3E800000, 0x3E800000] ∧
    v2 (.ffma false (xo 9 (.lit 2) (.lit 3) (.lit 1) .f32)) 9 = [0x40E00000, 0x40E00000] ∧
    v2 (.fsqrt false (xo 9 (.lit 4) (.vec 0) (.vec 0) .f32)) 9 = [0x40000000, 0x40000000] ∧
    v2 (.fcvt .f32 (xo 9 (.lit 2) (.vec 0) (.vec 0) .f16)) 9 = [0x4000, 0x4000] ∧
    v2 (.icvt .fromS32 (xo 9 (.lit (-3)) (.vec 0) (.vec 0) .f32)) 9 = [0xC0400000, 0xC0400000] ∧
    v2 (.icvt .fromF32 (xo 9 (.lit (-3)) (.vec 0) (.vec 0) .s32)) 9 = [-3, -3] ∧
    v2 (.fset false .lt (xo 9 (.lit 2) (.lit 3) (.vec 0) .f32)) 9 = [1, 1] := by
  decide +kernel

/-- R306, R307: bytes 1 + 2 in each place, saturated 127 + 1; R308: 1 × 2 + 1 × 2 + 3. -/
theorem test_packed_results :
    let s := at_ { duo with threads := [thr fun i => if i = 3 then 0x017F0101 else 0x02010202, thr fun _ => 0x00010001] }
    ((after (exec (.padd { x2 .s8 with b := .vec 4, ovf := true }) s)).thread 0 0).vreg 9 = 0x037F0303 ∧
    ((after (exec (.padd { x2 .s8 with b := .vec 4 }) s)).thread 0 0).vreg 9 = 0x03800303 ∧
    ((after (exec (.dot2 { x3 .s16 with b := .vec 4, c := .lit 3 }) s)).thread 0 1).vreg 9 = 5 := by
  decide +kernel

/-- R262 to R264: lanes 0 and 1 hold 9 and 79. -/
theorem test_lane_results :
    v2 (.swap { x3 .b32 with b := .lit 1 }) 9 = [79, 9] ∧ v2 (.pick { x3 .b32 with b := .lit 5, c := .vec 4 }) 9 = [11, 72] ∧
    v2 (.slide { x3 .b32 with b := .lit 1 }) 9 = [2, 9] ∧ u2 (.foldAdd true (x1 .s32)) 9 = 88 ∧
    v2 (.foldMax false (x1 .s32)) 9 = [79, 79] ∧ v2 (.pollMask false (x1 .s4)) 9 = [3, 3] ∧
    v2 (.peers false (x1 .b32)) 9 = [1, 2] ∧ u2 (.first true (xo 9 (.vec 0) (.vec 0) (.vec 0))) 9 = 0 ∧
    v2 (.movi false ⟨9, .vec 0, 7⟩) 9 = [7, 7] ∧ v2 (.mov ⟨9, .uni 63, .vec 0⟩) 9 = [1008, 1008] := by
  decide +kernel

/-! ### Hypotheses about results -/

/-- A computation gives a result of which `f` holds. -/
def okAnd {ε α : Type} (e : Except ε α) (f : α → Bool) : Bool :=
  match e with
  | .ok a => f a
  | .error _ => false

theorem okAnd_of {ε α : Type} {e : Except ε α} {f : α → Bool} (h : okAnd e f = true) : ∃ a, e = .ok a ∧ f a = true := by
  cases e with
  | ok a => exact ⟨a, rfl, h⟩
  | error _ => exact absurd h (by simp [okAnd])

/-- An option has a value of which `f` holds. -/
def someAnd {α : Type} (e : Option α) (f : α → Bool) : Bool :=
  match e with
  | some a => f a
  | none => false

/-- Every lane of a group completes an action. -/
def lanesOk {α : Type} (g : Grp) (s : State) (act : State → LCtx → Thread → Except AccStop (α × Thread × State)) : Bool :=
  !g.e.isEmpty && (g.lanesS s act).1.all fun p => isOk p.2

/-- One step of the fold of `Grp.lanesS`. -/
def laneStep {α : Type} (g : Grp) (s : State) (act : State → LCtx → Thread → Except AccStop (α × Thread × State))
    (r : List (Nat × Except AccStop (α × Thread)) × State) (l : Nat) : List (Nat × Except AccStop (α × Thread)) × State :=
  match act r.2 (g.lctx s l) (g.thread s l) with
  | .ok (a, th, s') => (r.1 ++ [(l, .ok (a, th))], s')
  | .error e => (r.1 ++ [(l, .error e)], r.2)

theorem foldl_lanes {α : Type} (g : Grp) (s : State) (act : State → LCtx → Thread → Except AccStop (α × Thread × State))
    (a0 : α) (ls : List Nat) (hn : ls.Nodup) (acc : List (Nat × Except AccStop (α × Thread))) (t : State)
    (h : ((ls.foldl (laneStep g s act) (acc, t)).1.all fun p => isOk p.2) = true) :
    ∃ (v : Nat → α) (th : Nat → Thread) (s1 : State), ls.foldl (laneStep g s act) (acc, t) = (acc ++ ls.map fun l => (l, .ok (v l, th l)), s1) := by
  have hpre : ∀ (ls : List Nat) (acc : List (Nat × Except AccStop (α × Thread))) (t : State), ∃ more s1,
      ls.foldl (laneStep g s act) (acc, t) = (acc ++ more, s1) := by
    intro ls
    induction ls with
    | nil => exact fun acc t => ⟨[], t, by simp⟩
    | cons l ls ih =>
      intro acc t
      rw [List.foldl_cons]
      cases ha : act t (g.lctx s l) (g.thread s l) with
      | ok q =>
        obtain ⟨m, s1, h⟩ := ih (acc ++ [(l, .ok (q.1, q.2.1))]) q.2.2
        exact ⟨(l, .ok (q.1, q.2.1)) :: m, s1, by simp only [laneStep, ha]; rw [h]; simp⟩
      | error e =>
        obtain ⟨m, s1, h⟩ := ih (acc ++ [(l, .error e)]) t
        exact ⟨(l, .error e) :: m, s1, by simp only [laneStep, ha]; rw [h]; simp⟩
  induction ls generalizing acc t with
  | nil => exact ⟨fun _ => a0, fun _ => {}, t, by simp⟩
  | cons l ls ih =>
    rw [List.foldl_cons] at h ⊢
    cases ha : act t (g.lctx s l) (g.thread s l) with
    | error e =>
      obtain ⟨m, s1, h'⟩ := hpre ls (acc ++ [(l, .error e)]) t
      simp only [laneStep, ha] at h
      rw [h'] at h
      simp [isOk] at h
    | ok q =>
      simp only [laneStep, ha] at h ⊢
      obtain ⟨v, th, s1, h'⟩ := ih (List.nodup_cons.1 hn).2 _ _ h
      refine ⟨fun j => if j = l then q.1 else v j, fun j => if j = l then q.2.1 else th j, s1, ?_⟩
      rw [h', List.map_cons]
      have hm : ls.map (fun j => (j, (Except.ok (v j, th j) : Except AccStop (α × Thread)))) =
          ls.map fun j => (j, .ok (if j = l then q.1 else v j, if j = l then q.2.1 else th j)) := by
        apply List.map_congr_left
        intro j hj
        have : j ≠ l := fun e => (List.nodup_cons.1 hn).1 (e ▸ hj)
        simp [this]
      rw [hm]
      simp

/-- `AllOk` is met where `lanesOk` holds. -/
theorem allOk_of {α : Type} {g : Grp} {s : State} {act : State → LCtx → Thread → Except AccStop (α × Thread × State)}
    (hn : g.e.Nodup) (h : lanesOk g s act = true) : ∃ v th s1, AllOk g s act v th s1 := by
  have hf : g.lanesS s act = g.e.foldl (laneStep g s act) ([], s) := rfl
  unfold lanesOk at h
  rw [Bool.and_eq_true, hf] at h
  cases he : g.e with
  | nil => rw [he] at h; exact absurd h.1 (by simp)
  | cons l ls =>
    have ha : ∃ q, act s (g.lctx s l) (g.thread s l) = .ok q := by
      cases ha : act s (g.lctx s l) (g.thread s l) with
      | ok q => exact ⟨q, rfl⟩
      | error e =>
        exfalso
        have h2 := h.2
        rw [he, List.foldl_cons] at h2
        simp only [laneStep, ha, List.nil_append] at h2
        have : ∀ (ls : List Nat) (acc : List (Nat × Except AccStop (α × Thread))) (t : State) (p : Nat × Except AccStop (α × Thread)),
            p ∈ acc → p ∈ (ls.foldl (laneStep g s act) (acc, t)).1 := by
          intro ls
          induction ls with
          | nil => exact fun _ _ _ h => h
          | cons l ls ih =>
            intro acc t p hp
            rw [List.foldl_cons]
            cases hq : act t (g.lctx s l) (g.thread s l) <;>
              (simp only [laneStep, hq]; exact ih _ _ _ (List.mem_append_left _ hp))
        have := List.all_eq_true.1 h2 _ (this ls [(l, .error e)] s (l, .error e) (by simp))
        simp [isOk] at this
    obtain ⟨q, _⟩ := ha
    obtain ⟨v, th, s1, h'⟩ := foldl_lanes g s act q.1 g.e hn [] s h.2
    exact ⟨v, th, s1, by unfold AllOk; rw [hf, h']; simp⟩


/-- The premises of `Goes`, computed. -/
def goesB (s : State) (idx : Nat) (r : Run) (f : Fields) (chk : Site → Option (Cause × DWord)) (uni : Bool)
    (regs : List Nat) (trk : Bool) : Bool :=
  s.cur == some idx && runAt s idx == some r && (r.lanes.all fun l =>
    !windowOver (usesOf s r f regs uni l) (laneOf s r l) && !mustWait (usesOf s r f regs uni l) (laneOf s r l) &&
      (r.off == 0 || !waitHolds r.hdr r.idx (laneOf s r l)) &&
      (!trk || !f.executes (laneOf s r l) || (laneOf s r l).dcOf f.dc != Config.dcMax)) &&
    (chk (siteOf (s.team r.team) r.acc uni)).isNone

theorem goes_of {s : State} {idx : Nat} {r : Run} {f : Fields} {chk : Site → Option (Cause × DWord)} {uni : Bool}
    {regs : List Nat} {trk : Bool} (h : goesB s idx r f chk uni regs trk = true) : Goes s idx r f chk uni regs trk := by
  simp only [goesB, Bool.and_eq_true, beq_iff_eq, List.all_eq_true, Bool.or_eq_true, Bool.not_eq_true',
    Option.isNone_iff_eq_none, bne_iff_ne] at h
  refine ⟨⟨h.1.1.1, h.1.1.2⟩, fun l hl => ?_, h.2⟩
  obtain ⟨⟨⟨h1, h2⟩, h3⟩, h4⟩ := h.1.2 l hl
  refine ⟨h1, h2, fun h0 => h3.resolve_left h0, fun ht he => ?_⟩
  rcases h4 with (h4 | h4) | h4
  · exact absurd ht (by simp [h4])
  · exact absurd he (by simp [h4])
  · exact h4

/-- The premises of `GoesOp`, computed. -/
def goesOpB (s : State) (idx : Nat) (r : Run) (i : Instr) (f : Fields) (uni : Bool) : Bool :=
  goesB s idx r f (fun st => opChecks st i.shape f) uni (regsOf i.shape f uni) false

theorem goesOp_of {s : State} {idx : Nat} {r : Run} {i : Instr} {f : Fields} {uni : Bool}
    (h : goesOpB s idx r i f uni = true) : GoesOp s idx r i f uni := goes_of h

/-- No lane of the run has an operation before its decision point. -/
def settledB (s : State) (r : Run) (f : Fields) : Bool :=
  (execLanes s r f).all fun l => (laneOf s r l).ops.all fun o => o.decided

theorem settled_of {s : State} {r : Run} {f : Fields} (h : settledB s r f = true) : Settled s r f := by
  simpa [settledB, List.all_eq_true, Settled] using h

/-- The run's lanes are threads of its team, distinct, none doomed or replaying. -/
def plainB (s : State) (r : Run) : Bool :=
  !r.acc && decide r.lanes.Nodup && someAnd (aget s.teams r.team) fun tm => r.lanes.all fun l =>
    decide (l < tm.threads.length) && ((tm.thread l).ops.all fun o => o.doomed.isNone) && (tm.thread l).replay.isEmpty

theorem plain_of {s : State} {r : Run} (h : plainB s r = true) : Plain s r := by
  simp only [plainB, Bool.and_eq_true, Bool.not_eq_true', decide_eq_true_eq] at h
  obtain ⟨⟨h1, h2⟩, h3⟩ := h
  cases ht : aget s.teams r.team with
  | none => simp [ht, someAnd] at h3
  | some tm =>
    simp only [ht, someAnd, List.all_eq_true, Bool.and_eq_true, decide_eq_true_eq, List.isEmpty_iff] at h3
    refine ⟨h1, h2, tm, ht, fun l hl => ⟨(h3 l hl).1.1, fun o ho => ?_, (h3 l hl).2⟩⟩
    simpa using (h3 l hl).1.2 o ho

/-! ### Numbers and system registers -/

/-- Division, bit values, rounding, exceptions and packed conversions: values that meet each clause's premises. -/
theorem witness_number_clauses :
    (Ty.s32 ∈ [Ty.s32, .n32, .s64, .n64] ∧ (x2 .s32).ovf = false ∧ intVal .s32 0xFFFFFFFD ≠ 0) ∧
    (0 < 32 ∧ 0x80000000 < 2 ^ 32) ∧
    (Ty.f32 ∈ [Ty.f64, .f32, .f16, .bf16] ∧ 0x3F800000 < 2 ^ (fpOf .f32).width ∧
      ((fpOf .f32).decode 0x3F800000 matches .fin _ _ _) = true) ∧
    (pcvtNarrows .f32 xNarrow = true ∧ pcvtNarrows .f16 xWiden = false) ∧ (31 < 32 ∧ maskWhere [(31, 1)] (fun w => w != 0) = 0x80000000) := by
  decide +kernel

def xSet (n : Int) (a : Src := .vec 3) : XOps := xo 0 a (.lit (BitVec.ofInt 7 n)) (.vec 0)

/-- A supervisor team in place of the user team. -/
def sup0 : State := at_ { duo with kind := .supervisor }

/-- R257: SETS of each register goes through and completes in both lanes: TEAMTIME and DEADLINE, a supervisor's own
registers, and every register a user team writes. -/
theorem witness_sets_completes : (pair0.team 0).kind = .user ∧
    (∀ n ∈ [5, 6, 8, 9, 10, 11, 12, 13, 14, 15, 17, 18, 19, 20], ∀ x, x = xSet n (.lit 0) →
      Goes pair0 0 (runOf [0, 1]) (ofX x) (fun st => firstOf [opChecks st (Instr.shape (.sets x)) (ofX x), none]) false
        (regsOf (Instr.shape (.sets x)) (ofX x) false) (Instr.shape (.sets x)).trk ∧
      ∃ v th s1, AllOk (groupOf pair0 0 (runOf [0, 1]) (ofX x)) pair0
        (effectLane (Instr.shape (.sets x)).d x.dst (setsLane x)) v th s1) := by
  refine ⟨rfl, ?_⟩
  intro n hn x hx
  subst hx
  refine ⟨goes_of ?_, allOk_of ?_ ?_⟩
  · revert n; decide +kernel
  · revert n; decide +kernel
  · revert n; decide +kernel

/-- R257: a register the supervisor alone writes, in both modes; a value with and without a reserved bit. -/
theorem witness_sets_clauses :
    (∀ n ∈ ([0, 1, 2, 3, 4, 7, 16, 21] : List Nat), (xSet n).b.bits = n ∧
      isOk (srcA ((grp0 (ofX (xSet n))).lctx pair0 0) .int (if sysIs64 n then .w64 else .w32) (ofX (xSet n (.vec 4)))
        (pair0.thread 0 0)) = true) ∧
    (sup0.team 0).kind = .supervisor ∧ (9 : DWord) &&& sysReserved 11 ≠ 0 ∧ (8 : DWord) &&& sysReserved 11 = 0 := by
  decide +kernel

/-- R11, R257: FPMODE takes a value without reserved bits; TCAUSE of both lanes; CYCLES reads the cycle count. -/
theorem test_system_registers :
    ((after (exec (.sets (xSet 13 (.lit 3))) pair0)).thread 0 1).fpmode = 3 ∧
    ((after (exec (.sets (xSet 8)) pair0)).thread 0 0).tcause = 9 ∧
    v2 (.movs false (xo 10 (.vec 0) (.lit 1) (.vec 0))) 10 = [0, 256] := by
  decide +kernel

/-! ### Control -/

theorem witness_plain : Plain pair0 (runOf [0, 1]) ∧ runAt pair0 0 = some (runOf [0, 1]) :=
  ⟨plain_of (by decide +kernel), rfl⟩

/-- Two lanes that take a transfer; lanes with room on their call stacks. -/
theorem witness_transfer_targets :
    let targets : List (Nat × DWord) := [(0, 0x10010), (1, 0x20000)]
    (∀ p ∈ targets, p.1 ∈ (runOf [0, 1]).lanes) ∧ (targets.map (·.1)).Nodup ∧
    ∀ p ∈ targets, p.2.toNat % 4 = 0 ∧ (laneOf pair0 (runOf [0, 1]) p.1).callStack.length < 16 := by
  decide +kernel

/-- One lane whose call stack is full. -/
def full : State := at_ { duo with threads := duo.threads.map fun th => { th with callStack := List.replicate 16 0x10004 } } (runOf [0])

/-- One lane alone, on `pair0`'s team. -/
def lone : State := at_ duo (runOf [0])

/-- R364: a lane that takes a branch to a misaligned place, a call from a full stack, a return from an empty one. -/
theorem witness_transfer_traps :
    let o : BrOps := ⟨0, false, 6⟩
    let q : BrOps := ⟨0, false, 8⟩
    let r := runOf [0]
    (Plain lone r ∧ Plain full r ∧ Goes lone 0 r ofBr (fun _ => none) false [] false ∧
      Goes full 0 r ofBr (fun _ => none) false [] false ∧ Goes lone 0 r { len := 1 } (fun _ => none) false [] false) ∧ (laneOf lone r 0).pred 0 ≠ false ∧ (laneOf full r 0).pred 0 ≠ false ∧
    (resumeAddr (placeOf r) + o.lit.sext).toNat % 4 ≠ 0 ∧ (resumeAddr (placeOf r) + q.lit.sext).toNat % 4 = 0 ∧
    (laneOf full r 0).callStack.length = 16 ∧ (laneOf lone r 0).recorded = [] ∧ (laneOf full r 0).recorded = []  ∧
    (laneOf lone r 0).callStack = [] := by
  exact ⟨⟨plain_of (by decide +kernel), plain_of (by decide +kernel), goes_of (by decide +kernel), goes_of (by decide +kernel),
    goes_of (by decide +kernel)⟩, by decide +kernel⟩

/-- The operands of CALLX (v4:5, an address) and of BRX (a table of two words at s32:33, entry 1). -/
def callx0 : XOps := xo 0 (.uni 32) (.vec 0) (.vec 0)
def brx0 : XOps := xo 0 (.uni 32) (.lit 1) (.lit 2)

/-- Uniform registers: s32:33 names the table in the code page, s6:7 an address of data. -/
def tabled : State := at_ { duo with s := setAt (setAt duo.s 32 0x10040) 33 0 }

theorem witness_calls_and_tables :
    GoesOp tabled 0 (runOf [0, 1]) (.callx callx0) (ofX callx0) false ∧
    (∃ v th s1, AllOk (groupOf tabled 0 (runOf [0, 1]) (ofX callx0)) tabled
      (fun s L th => match srcA L .int .w64 (ofX callx0) th with
        | .error e => .error e
        | .ok (a, th) => .ok (a, th, s)) v th s1) ∧
    GoesOp tabled 0 (runOf [0, 1]) (.brx brx0) (ofX brx0) false ∧
    ∃ v th s1, AllOk (groupOf tabled 0 (runOf [0, 1]) (ofX brx0)) tabled (brxRead brx0) v th s1 := by
  exact ⟨goesOp_of (by decide +kernel), allOk_of (by decide +kernel) (by decide +kernel), goesOp_of (by decide +kernel),
    allOk_of (by decide +kernel) (by decide +kernel)⟩

/-- RET of lanes with one return address each. -/
def called : State := at_ { duo with threads := duo.threads.map fun th => { th with callStack := [0x10004000000] } }

theorem witness_returns : Goes called 0 (runOf [0, 1]) { len := 1 } (fun _ => none) false [] false ∧
    ∀ l ∈ (runOf [0, 1]).lanes, (laneOf called (runOf [0, 1]) l).callStack = [0x10004000000] :=
  ⟨goes_of (by decide +kernel), by decide +kernel⟩

/-- R364, R84: BRA over 8 bytes moves lane 0, whose p0 is 1; CALL pushes the next place. -/
theorem test_branches :
    ((after (exec (.bra ⟨0, false, 8⟩) pair0)).thread 0 0).pc = mkResume 0x1000C 0 ∧
    ((after (exec (.call ⟨0, false, 8⟩) pair0)).thread 0 1).callStack = [mkResume 0x1000C 0] ∧
    ((after (exec .ret called)).thread 0 1).callStack = [] := by
  decide +kernel

def xz : XOps := xo 0 (.lit 2) (.vec 0) (.vec 0)

/-- An access context at an instruction of its slice, in a run of its own. -/
def slice0 : State :=
  at_ { duo with acc := (soloTeam .user).acc } { runOf [0] with acc := true, pipe := accessPipe }

theorem witness_reconvergence :
    (∀ i ∈ [Instr.rjoinSet xz, .rjoinLeave xz, .rjoinWait xz],
      goesB pair0 0 (runOf [0, 1]) (ofX xz) (fun st => opChecks st i.shape (ofX xz)) false [] false = true) ∧
    Goes pair0 0 (runOf [0, 1]) (ofX xz) (fun _ => none) false [] false ∧ (runOf [0, 1]).acc = false ∧
    Settled pair0 (runOf [0, 1]) (ofX xz) ∧
    (∀ l ∈ execLanes pair0 (runOf [0, 1]) (ofX xz), (getAt ((0, 0) : Word × Word) (pair0.team 0).joins 2).1.getLsbD l = false) ∧
    Goes slice0 0 { runOf [0] with acc := true, pipe := accessPipe } (ofX xz) (fun _ => none) false [] false :=
  ⟨by decide +kernel, goes_of (by decide +kernel), rfl, settled_of (by decide +kernel), by decide +kernel,
    goes_of (by decide +kernel)⟩

/-- A barrier of both lanes at which both have arrived, one of none, and lane 1 asleep until cycle 5. -/
def joined : Team :=
  { duo with joins := setAt duo.joins 2 (3, 3), threads := duo.threads.map fun th => { th with wait := some (.rjoin 2) } }
def asleep : State :=
  { at_ { duo with threads := duo.threads.map fun th => { th with wait := some (.sleep 5) } } with cycles := 5 }
def sleep0 : XOps := xo 0 (.vec 3) (.vec 0) (.vec 0)

theorem witness_joins_and_sleeps :
    (2 < joined.joins.length ∧ getAt (0, 0) joined.joins 2 = (3, 3) ∧ (3 : Word) ≠ 0 ∧ (joined.thread 1).wait = some (.rjoin 2) ∧
      (3 : Word).getLsbD 1 = true ∧ getAt (0, 0) joined.joins 3 = (0, 0)) ∧
    GoesOp pair0 0 (runOf [0, 1]) (.sleep sleep0) (ofX sleep0) false ∧ Settled pair0 (runOf [0, 1]) (ofX sleep0) ∧
    (∃ v th s1, AllOk (groupOf pair0 0 (runOf [0, 1]) (ofX sleep0)) pair0
      (fun s L th => match srcA L .int .w32 (ofX sleep0) th with
        | .error e => .error e
        | .ok (a, th) => .ok (a.toNat, th, s)) v th s1) ∧
    (asleep.thread 0 1).wait = some (.sleep 5) ∧ 5 ≤ asleep.cycles.toNat ∧ ({ asleep with cycles := 4 } : State).cycles.toNat < 5 := by
  refine ⟨by decide +kernel, goesOp_of (by decide +kernel), settled_of (by decide +kernel),
    allOk_of (by decide +kernel) (by decide +kernel), by decide +kernel⟩

/-- R361, R366: a full barrier frees its lanes; SLEEP of lane 0 ends 9 cycles after cycle 0. -/
theorem test_joins_and_sleeps :
    ((joined.joinCheck 2).thread 1).wait = none ∧
    ((after (exec (.sleep sleep0) pair0)).thread 0 0).wait = some (.sleep 9) ∧
    ((after (exec (.rjoinSet xz) pair0)).team 0).joins[2]? = some (3, 0) := by
  decide +kernel

/-- The premises of `Effects`, computed. -/
def effB (s : State) (i : Instr) (f : Fields) (extra : Site → Option (Cause × DWord))
    (act : State → LCtx → Thread → Except AccStop (List Word × Thread × State)) (r : Run := runOf [0, 1]) : Bool :=
  goesB s 0 r f (fun st => firstOf [opChecks st i.shape f, extra st]) false (regsOf i.shape f false) i.shape.trk &&
    decide (groupOf s 0 r f).e.Nodup && lanesOk (groupOf s 0 r f) s (effectLane i.shape.d f.dst act)

theorem eff_of {s : State} {i : Instr} {f : Fields} {extra : Site → Option (Cause × DWord)}
    {act : State → LCtx → Thread → Except AccStop (List Word × Thread × State)} {r : Run} (h : effB s i f extra act r = true) :
    Goes s 0 r f (fun st => firstOf [opChecks st i.shape f, extra st]) false (regsOf i.shape f false) i.shape.trk ∧
    ∃ th s1, AllOk (groupOf s 0 r f) s (effectLane i.shape.d f.dst act) (fun _ => ()) th s1 := by
  simp only [effB, Bool.and_eq_true, decide_eq_true_eq] at h
  obtain ⟨v, th, s1, h'⟩ := allOk_of h.1.2 h.2
  exact ⟨goes_of h.1.1, th, s1, h'⟩

/-- The premises of `ReadsThen` and of AllOk for its reading, computed. -/
def readsB {α : Type} (s : State) (i : Instr) (x : XOps) (rd : State → LCtx → Thread → Except AccStop (α × Thread × State))
    (r : Run := runOf [0, 1]) : Bool :=
  goesOpB s 0 r i (ofX x) false && settledB s r (ofX x) && decide (groupOf s 0 r (ofX x)).e.Nodup &&
    lanesOk (groupOf s 0 r (ofX x)) s rd

theorem reads_of {α : Type} {s : State} {i : Instr} {x : XOps}
    {rd : State → LCtx → Thread → Except AccStop (α × Thread × State)} {r : Run} (h : readsB s i x rd r = true) :
    GoesOp s 0 r i (ofX x) false ∧
      ((groupOf s 0 r (ofX x)).await s = none ∧ (groupOf s 0 r (ofX x)).settle s = none ∧
        noWait (groupOf s 0 r (ofX x)) s = none) ∧ ∃ v th s1, AllOk (groupOf s 0 r (ofX x)) s rd v th s1 := by
  simp only [readsB, Bool.and_eq_true, decide_eq_true_eq] at h
  have hs := settled_of h.1.1.2
  exact ⟨goesOp_of h.1.1.1, ⟨await_settled hs, settle_settled hs, rfl⟩, allOk_of h.1.2 h.2⟩

/-- The premises of `Enqueues`, computed. -/
def enqB (s : State) (i : Instr) (x : XOps)
    (prepare : State → Grp → LCtx → LogRec → Thread → Except AccStop (Prepared × Thread × State)) (r : Run := runOf [0, 1]) : Bool :=
  goesB s 0 r (ofX x) (fun st => opChecks st i.shape (ofX x)) false (regsOf i.shape (ofX x) false) true &&
    match execLanes s r (ofX x) with
    | [] => false
    | l :: _ =>
      let g := groupOf s 0 r (ofX x)
      okAnd (logOperands i (ofX x) i.shape g.here (g.lctx s l) (g.thread s l)) fun q =>
        isOk (prepare { s with serial := s.serial + 1 } g (g.lctx s l) q.1 q.2)

theorem enq_of {s : State} {i : Instr} {x : XOps}
    {prepare : State → Grp → LCtx → LogRec → Thread → Except AccStop (Prepared × Thread × State)} {r : Run}
    (h : enqB s i x prepare r = true) : ∃ l ls lr th p,
      Goes s 0 r (ofX x) (fun st => opChecks st i.shape (ofX x)) false (regsOf i.shape (ofX x) false) true ∧
      execLanes s r (ofX x) = l :: ls ∧
      logOperands i (ofX x) i.shape (groupOf s 0 r (ofX x)).here ((groupOf s 0 r (ofX x)).lctx s l)
        ((groupOf s 0 r (ofX x)).thread s l) = .ok (lr, th) ∧
      prepare { s with serial := s.serial + 1 } (groupOf s 0 r (ofX x)) ((groupOf s 0 r (ofX x)).lctx s l) lr th = .ok p := by
  simp only [enqB, Bool.and_eq_true] at h
  cases he : execLanes s r (ofX x) with
  | nil => rw [he] at h; exact absurd h.2 (by simp)
  | cons l ls =>
    rw [he] at h
    obtain ⟨q, hq, h'⟩ := okAnd_of h.2
    obtain ⟨p, hp⟩ := ok_of h'
    exact ⟨l, ls, q.1, q.2, p, goes_of h.1, rfl, hq, hp⟩

/-- A read or write of memory completes with bytes, a mark and a state of which `f` holds. -/
def rdAnd (r : RdRes) (f : List Byte → Bool → State → Bool) : Bool :=
  match r with
  | .ok bs st s => f bs st s
  | _ => false

/-! ### Memory: pages, accesses, their ends -/

/-- The tables of `identityTables` with five more pages of 1 GiB: one in mode HOME, one of bank memory, one in mode SWM, a
master page, and one that is not written. -/
def tables : Mem :=
  (identityTables []).write 0x3008 (leBytes 8 (0x4000001B + 2 ^ 61) ++ leBytes 8 (0x800000001B + 2 ^ 61) ++
    leBytes 8 (0xC000001B + 3 * 2 ^ 61) ++ leBytes 8 (0x10000001B + 2 ^ 59) ++ leBytes 8 0x14000000B)

/-- Registers of a lane: pairs that address the four pages at v4, v12 and v14, v16 and v20, a scratch address at v8, numbers
at v6 and v24, multiples of 64 from v30 on, and zero elsewhere. -/
def place (l : Nat) (i : Nat) : Word :=
  match i with
  | 4 => 0x20000 + BitVec.ofNat 32 (256 * l)
  | 12 => 0x40020000 + BitVec.ofNat 32 (256 * l)
  | 16 => 0x80000000 + BitVec.ofNat 32 (256 * l)
  | 20 => 0xC0020000 + BitVec.ofNat 32 (256 * l)
  | 14 => 0x40030000
  | 8 => BitVec.ofNat 32 (64 * l + 16)
  | 24 => 32
  | 6 => BitVec.ofNat 32 (l + 5)
  | _ => if 30 ≤ i then BitVec.ofNat 32 (64 * (i - 30)) else 0

def memTeam : Team :=
  { duo with threads := [thr (place 0), thr (place 1)], crew := some 7, launch := some 3, ctx := 2, part := 0 }

/-- A team of a crew, in a launch, whose context is enabled. -/
def mem0 : State :=
  { at_ memTeam with
    mem := tables, crews := [(7, { launch := 3, grant := 0x1000, teams := [0] })]
    launches := [(3, { ctx := 2, constDefined := [true], consts := [(0, [(5, 11)])] })]
    ctxs := [(2, { xrec := some { root := 1 }, part := some 0, enabled := true, flares := List.replicate 64 {} })]
    parts := [(0, {})] }

def both : Run := runOf [0, 1]

/-- Formats M and X of the accesses: a load or store of v9 at v4:5, at the scratch address v8, atomics at v4:5, in bank
memory at v16:17 and in scratchpad. -/
def mLd : MOps := mo 9 2 4 .b32
def mLds : MOps := mo 9 4 0 .b32
def xAtom (base : BitVec 7) : XOps := xo 9 (.vec base) (.vec 6) (.vec 0) .n32 0 0 .rne false .device

def bumped (s : State) : State := { s with serial := s.serial + 1 }

theorem witness_loads_issue :
    Goes mem0 0 both (ofM mLd) (fun st => memChecks st mLd false true) false (memRegs mLd false true) true ∧
    Goes mem0 0 both (ofM mLds) (fun st => memChecks st mLds false true) false (memRegs mLds false true) true ∧
    (∃ v th s1, AllOk (groupOf mem0 0 both (ofM mLd)) (bumped mem0)
      (loadLane (.ld mLd) mLd false false 0 (placeOf both)) v th s1) ∧
    (∃ v th s1, AllOk (groupOf mem0 0 both (ofM mLd)) (bumped mem0)
      (loadLane (.ldro mLd) mLd true false 0 (placeOf both)) v th s1) ∧
    (∃ v th s1, AllOk (groupOf mem0 0 both (ofM mLd)) (bumped mem0)
      (loadLane (.ldmon mLd) mLd false true 0 (placeOf both)) v th s1) ∧
    ∃ v th s1, AllOk (groupOf mem0 0 both (ofM mLds)) (bumped mem0) (ldsLane (.lds mLds) mLds 0 (placeOf both)) v th s1 :=
  ⟨goes_of (by decide +kernel), goes_of (by decide +kernel), allOk_of (by decide +kernel) (by decide +kernel),
    allOk_of (by decide +kernel) (by decide +kernel), allOk_of (by decide +kernel) (by decide +kernel),
    allOk_of (by decide +kernel) (by decide +kernel)⟩

theorem witness_atomics_issue : ∀ p ∈ [(Instr.atom .add (xAtom 4), xAtom 4, false, false),
      (.atoms .add (xAtom 8), xAtom 8, false, true), (.bankop .add (xAtom 16), xAtom 16, true, false)],
    Goes mem0 0 both (ofX p.2.1) (fun st => opChecks st p.1.shape (ofX p.2.1)) false (regsOf p.1.shape (ofX p.2.1) false) true ∧
    ∃ v th s1, AllOk (groupOf mem0 0 both (ofX p.2.1)) (bumped mem0)
      (atomLane p.1 .add p.2.1 p.2.2.1 p.2.2.2 0 (placeOf both)) v th s1 := by
  intro p hp
  refine ⟨goes_of ?_, allOk_of ?_ ?_⟩ <;> revert p <;> decide +kernel

theorem witness_stores_issue :
    Goes mem0 0 both (ofM mLd) (fun st => memChecks st mLd true true) false (memRegs mLd true true) true ∧
    Goes mem0 0 both (ofM mLds) (fun st => memChecks st mLds true true) false (memRegs mLds true true) true ∧
    (∃ v th s1, AllOk (groupOf mem0 0 both (ofM mLd)) (bumped mem0)
      (fun s' L th => storeLane (.st mLd) mLd 0 (placeOf both) s' L th 1) v th s1) ∧
    (∃ v th s1, AllOk (groupOf mem0 0 both (ofM mLds)) (bumped mem0)
      (fun s' L th => stsLane (.sts mLds) mLds 0 (placeOf both) s' L th 1) v th s1) ∧
    Goes mem0 0 both (ofX { xAtom 4 with dst := 0 })
      (fun st => opChecks st (Instr.shape (.red .add { xAtom 4 with dst := 0 })) (ofX { xAtom 4 with dst := 0 })) false
      (srcRegs (Instr.shape (.red .add (xAtom 4))).a (.vec 4) ++ srcRegs (Instr.shape (.red .add (xAtom 4))).b (.vec 6) ++
        srcRegs (Instr.shape (.red .add (xAtom 4))).c (.vec 0)) true ∧
    ∃ v th s1, AllOk (groupOf mem0 0 both (ofX { xAtom 4 with dst := 0 })) (bumped mem0)
      (fun s' L th => redLane (.red .add { xAtom 4 with dst := 0 }) .add { xAtom 4 with dst := 0 } 0 (placeOf both) s' L th 1) v th s1 :=
  ⟨goes_of (by decide +kernel), goes_of (by decide +kernel), allOk_of (by decide +kernel) (by decide +kernel),
    allOk_of (by decide +kernel) (by decide +kernel), goes_of (by decide +kernel),
    allOk_of (by decide +kernel) (by decide +kernel)⟩

/-- A lane's context at a format-M instruction of `mem0`. -/
def ctxM (m : MOps) : LCtx := (groupOf mem0 0 both (ofM m)).lctx mem0 0

def th0 : Thread := mem0.thread 0 0

/-- An aligned and a misaligned word at base plus offset; both pages answer, and no port, loss or range stands in the way. -/
theorem witness_accesses_are_checked : ∀ off ∈ [(4 : BitVec 24), 2], ∀ m, m = mo 9 2 off .b32 →
    m.size ≠ .packed ∧
    okAnd (memLog (.ld m) m (placeOf both) false (ctxM m) th0) (fun q => !rangeBusy q.2 (addrOf q.1.base m) 16 &&
      decide (((addrOf q.1.base m).toNat % 4 = 0) = (off = 4)) &&
      okAnd (mem0.piece 0 0 .load (addrOf q.1.base m) 4) fun _ => true) = true ∧
    okAnd (memLog (.st m) m (placeOf both) true (ctxM m) th0) (fun q => !rangeBusy q.2 (addrOf q.1.base m) 16 && q.2.lost.isNone &&
      decide (((addrOf q.1.base m).toNat % 4 = 0) = (off = 4)) &&
      okAnd (mem0.piece 0 0 .store (addrOf q.1.base m) 4) fun p =>
        !mem0.portIn p.1.xl.pa p.1.n && (mem0.unreachable 0 p.1.xl.ty p.1.xl.pa).isNone) = true := by
  intro off h m hm
  subst hm
  fin_cases h <;> decide +kernel

/-- Packed elements: of 4 bits in one byte, of 6 bits over two bytes of one page, misaligned ones of both widths. -/
theorem witness_packed_accesses :
    (∀ m ∈ [mo 9 2 0 .packed, mo 9 2 0 .packed 1], m.size = .packed ∧
      okAnd (mem0.piece 0 0 .load ((0x100004 : DWord).sshiftRight 3) 1) (fun p =>
        okAnd (p.2.piece 0 0 .load ((0x100004 : DWord).sshiftRight 3 + 1) 1) fun q =>
          p.1.xl.ty == q.1.xl.ty && p.1.xl.mode == q.1.xl.mode) = true) ∧
    (0x100004 % 4 = 0 ∧ 0x100004 % 8 + 4 ≤ 8) ∧ (0x100004 % 2 = 0 ∧ 8 < 0x100004 % 8 + 6) ∧ 0x100002 % 4 ≠ 0 ∧ 0x100001 % 2 ≠ 0 := by
  decide +kernel

/-! Accesses of the page in mode HOME, in flight: a load, a store, a copy of the run at the same instruction again. -/

def mHome : MOps := mo 9 6 4 .b32
def loading : State := after (exec (.ld mHome) mem0)
def storing : State := after (exec (.st mHome) mem0)

/-- A state with the run back at its first instruction. -/
def again (s : State) : State := { s with runs := mem0.runs, cur := some 0 }

theorem witness_loads_write_their_results :
    someAnd (aget loading.teams 0) (fun tm => decide (0 < tm.threads.length) &&
      someAnd (opOf (tm.thread 0) 1) (fun o =>
        o.what == .load mHome (0x40020004 : DWord) false false && sameOp tm 1 o.what == [0] && o.dsts == [9]) &&
      !earlierLoad (tm.thread 0) 1 && decide (9 < (tm.thread 0).v.length) &&
      okAnd (loading.pieces 0 0 .load mHome (0x40020004 : DWord) (some 1)) fun q =>
        match q.1 with
        | [p] => !ownBefore tm 0 1 [p] &&
          match readPieces q.2 tm.agent [p] with
          | .ok _ stale s2 => !stale && s2.teams == loading.teams
          | _ => false
        | _ => false) = true := by
  decide +kernel

theorem witness_atomic_places : mem0.mem.wf = true ∧ mem0.ucopies = [] ∧ Ty.n32 ∈ [Ty.n32, .s32, .n64, .s64, .b32, .b64] := by
  decide +kernel

theorem witness_writes : mem0.mem.wf = true ∧ mem0.ucopies = [] ∧ PageMode.home ≠ .swm ∧
    (([(0x40020004, 1, 0xFF), (0x40020005, 2, 0x0F)] : List (Nat × Byte × Byte)).map (·.1)).Nodup := by
  decide +kernel

theorem witness_stores_are_performed : ∃ tm e q, aget storing.teams 0 = some tm ∧ tm.storeq = e :: q ∧ e.placeholder = false ∧
    earlierData tm e.lane e.op = false ∧ earlierLoad (tm.thread e.lane) e.op = false ∧
    (e.scope = .thread ∨ earlierRange (tm.thread e.lane) e.op = false) ∧ marksAt e.scope = false ∧
    e.scratch = none ∧ e.red = none ∧ e.again = false ∧
    derivesFrom storing (some 0) ((e.writes.map fun w => lineOf w.1).eraseDups) = false ∧
    (∀ w ∈ e.writes, storing.needWrite tm.agent e.mode (lineOf w.1) = false) ∧
    storing.unreachable tm.die e.ty ((e.writes.head?.map (·.1)).getD 0) = none ∧
    (e.writes.length = 4 → storing.portIn ((e.writes.head?.map (·.1)).getD 0) 4 = false) := by
  have h : (someAnd (aget storing.teams 0) fun tm =>
      match tm.storeq with
      | e :: _ => !e.placeholder && !earlierData tm e.lane e.op && !earlierLoad (tm.thread e.lane) e.op && !marksAt e.scope &&
          e.scratch.isNone && e.red.isNone && !derivesFrom storing (some 0) ((e.writes.map fun w => lineOf w.1).eraseDups) &&
          e.mode == .home && (storing.unreachable tm.die e.ty ((e.writes.head?.map (·.1)).getD 0)).isNone &&
          !earlierRange (tm.thread e.lane) e.op && !e.again && !storing.portIn ((e.writes.head?.map (·.1)).getD 0) 4
      | [] => false) = true := by decide +kernel
  cases ht : aget storing.teams 0 with
  | none => rw [ht] at h; exact absurd h (by simp [someAnd])
  | some tm =>
    rw [ht] at h
    simp only [someAnd] at h
    cases hq : tm.storeq with
    | nil => rw [hq] at h; exact absurd h (by simp)
    | cons e q =>
      rw [hq] at h
      simp only [Bool.and_eq_true, Bool.not_eq_true', Option.isNone_iff_eq_none, beq_iff_eq, bne_iff_ne] at h
      obtain ⟨⟨⟨⟨⟨⟨⟨⟨⟨⟨⟨h1, h2⟩, h3⟩, h4⟩, h5⟩, h6⟩, h7⟩, h8⟩, h9⟩, h10⟩, h11⟩, h12⟩ := h
      exact ⟨tm, e, q, rfl, hq, h1, h2, h3, .inr h10, h4, h5, h6, h11, h7, fun w _ => by simp [State.needWrite, h8], h9,
        fun _ => h12⟩

/-! ### Fences and ranges -/

def xFence (sc : Scope) : XOps := xo 0 (.vec 0) (.vec 0) (.vec 0) .s4 0 0 .rne false sc

/-- Lanes that have sent the markers of ticket 9. -/
def marked (ms : List (Nat × Nat × Nat × Nat)) : State :=
  { mem0 with
    teams := [(0, { memTeam with threads := memTeam.threads.map fun th => { th with marker := some 9 } })], markers := ms }

theorem witness_fences :
    (∀ s ∈ [mem0, again storing, marked [], marked [(0, 0, 2, 9)]],
      goesB s 0 both (ofX (xFence .core)) (fun _ => none) false [] false = true) ∧
    both.acc = false ∧ marksAt .core = false ∧ marksAt .device = true ∧ Scope.core ≠ .thread ∧
    execLanes mem0 both (ofX (xFence .device)) = [0, 1] ∧
    (execLanes mem0 both (ofX (xFence .core))).filter (fun l => fenceBusy (mem0.team 0) l) = [] ∧
    (execLanes (again storing) both (ofX (xFence .core))).filter (fun l => fenceBusy (storing.team 0) l) = [0, 1] ∧
    (∀ l ∈ [0, 1], ∀ o ∈ (laneOf (again storing) both l).ops, o.doomed = none) ∧ (laneOf mem0 both 0).marker = none ∧
    (laneOf (marked []) both 0).marker = some 9 ∧ (∀ j ∈ [0, 1], fenceBusy ((marked []).team 0) j = false) ∧
    (∀ s ∈ [mem0, marked []], ∀ j ∈ [0, 1], (laneOf s both j).lost = none) ∧
    (∃ m ∈ (marked [(0, 0, 2, 9)]).markers, m.2.2.2 = 9) := by
  decide +kernel

/-- Lane 1 has lost a store to device 3. -/
def losing : State := mem0.modThread 0 1 fun th => { th with lost := some 3 }

theorem witness_a_lost_store :
    goesB losing 0 both (ofX (xFence .device)) (fun _ => none) false [] false = true ∧ marksAt .device = true ∧
    (execLanes losing both (ofX (xFence .device))).filter (fun l => (laneOf losing both l).lost.isSome) = [1] ∧
    (laneOf losing both 1).lost = some 3 := by
  decide +kernel

/-- R186: FENCE.device reports the lost store of lane 1 with the device, and lane 0 goes on to it. -/
theorem test_a_fence_reports_a_lost_store :
    let t := after (exec (.fence (xFence .device)) losing)
    (t.thread 0 1).tcause = BitVec.ofNat 32 Cause.fabricUnreachable.code ∧ (t.thread 0 1).tval = 3 ∧
      (t.thread 0 0).status = .live ∧ t.runs.map (·.lanes) = [[0]] := by
  decide +kernel

/-- A range at v12:13 with its status in v9: of 32 bytes at v24:25, empty at v26:27. -/
def xRange (len : BitVec 7) : XOps := xo 9 (.vec 12) (.vec len) (.vec 0) .s4 0 0 .rne false .device

theorem witness_ranges_issue : ∀ len ∈ [(24 : BitVec 7), 26], ∀ p ∈ [(Instr.flushRange (xRange len)), .invRange (xRange len), .cleanRange (xRange len)],
    Goes mem0 0 both (ofX (xRange len)) (fun st => opChecks st p.shape (ofX (xRange len))) false
      (srcRegs p.shape.a (xRange len).a ++ srcRegs p.shape.b (xRange len).b ++ dstRegs false p.shape.d (xRange len).dst) true ∧
    ∃ v th s1, AllOk (groupOf mem0 0 both (ofX (xRange len))) (bumped mem0) (rangeLane p (xRange len) 0 (placeOf both)) v th s1 := by
  intro len hl p hp
  refine ⟨goes_of ?_, allOk_of ?_ ?_⟩ <;> revert p <;> revert len <;> decide +kernel

/-- A walk in flight: its team's store queue empty, and then with a store that no placeholder holds. -/
def ranging : State := after (exec (.flushRange (xRange 24)) mem0)
def rangingBehind : State := ranging.modTeam 0 fun t => { t with storeq := (storing.team 0).storeq.map fun e => { e with op := 0 } }
def rangingBefore : State := ranging.modTeam 0 fun t => { t with storeq := (storing.team 0).storeq.map fun e => { e with op := 5 } }

theorem witness_range_walks :
    (∀ s ∈ [ranging, rangingBehind, rangingBefore], someAnd (opOf (s.thread 0 0) 1) (fun o =>
      o.what == .range 0 0x40020000 32 .device) = true) ∧
    (ranging.team 0).storeq = [] ∧ (∃ e ∈ (rangingBehind.team 0).storeq, e.op < 1) ∧
    (rangingBefore.team 0).storeq ≠ [] ∧ (∀ e ∈ (rangingBefore.team 0).storeq, 1 ≤ e.op) ∧
    (∀ s ∈ [ranging, rangingBefore], walkBusy s 0 (s.team 0).agent .device = false) ∧
    (writeResult ranging 0 0 1 [9] [0]).isSome = true := by
  decide +kernel

theorem witness_range_lines : mem0.ucopies = [] ∧
    ∀ p ∈ [((0x20000 : DWord), PageMode.coh), (0x40020000, .home), (0xC0020000, .swm)],
      okAnd (mem0.xlateTeam memTeam .range p.1) (fun q => q.1.mode == p.2 && (mem0.unreachable 0 q.1.ty q.1.pa).isNone) = true := by
  decide +kernel

/-- A software-managed copy of line 0x181 with a stored byte in a core of die 0, and the same where die 1, which holds the
line's home, is cut off. -/
def dirtyCopy : SwmCopy := { agent := { die := 0, id := 5 }, line := 0x181, bytes := List.replicate 128 7, mask := 0xFF :: List.replicate 127 0 }
def farCopy : SwmCopy := { dirtyCopy with line := 2 ^ 30 + 0x181 }
def copying (up : List Bool) : State := { mem0 with swm := [dirtyCopy, farCopy], links := up }
def collector : AgentId := { die := 0, id := 9 }

theorem witness_lines_of_ranges :
    dirtyCopy.stored = true ∧ inReach { die := 0, id := 4 } dirtyCopy.agent .cluster = true ∧
    (copying [true, true, true, true]).stranded .dram dirtyCopy = false ∧
    (copying [false, true, true, false]).stranded .dram farCopy = true ∧ (copying [false, true, true, false]).ucopies = [] ∧
    inReach { die := 0, id := 4 } collector .device = true ∧ ({ die := 0, id := 8 } : AgentId) ≠ collector := by
  decide +kernel

/-- R199, R201: FLUSH writes the stored byte home and drops the copy; one whose home is cut off stays, which the status says. -/
theorem test_flush_of_copies :
    let x : Xlat := { pa := 0x181 * 128, mode := .swm, ty := .dram, master := false, log2 := 12, lines := [], pte := 0, host := false }
    let near := rangeLine (copying [true, true, true, true]) { die := 0, id := 4 } 0 .cluster x 0x181
    let far := rangeLine (copying [false, true, true, false]) { die := 0, id := 4 } 0 .cluster x (2 ^ 30 + 0x181)
    near.1.mem.nat (0x181 * 128) 2 = 7 ∧ near.1.swm = [farCopy] ∧ near.2 = false ∧ far.1.swm = [dirtyCopy, farCopy] ∧ far.2 = true := by
  decide +kernel

/-! ### Storage of DRAM, and the L2 slices -/

/-- Partition 0 holds granule 0 under key 5, with handle 3 of priority 3. -/
def stored0 (ups : AList Upset) (seals : AList Nat) : State :=
  { mem0 with
    upsets := ups, sealed := seals
    parts := [(0, { key := 5, units := { coreUnits := [0], lodestars := [0], granules := [0], bankUnits := [] }
                    handles := [(3, { prio := 3, ranges := [(0x1000, 0x80)] })] })] }
def filled (ups : AList Upset) (seals : AList Nat) : State := (stored0 ups seals).homeFill .coh 0x181 (some 0x1040) 0 false

theorem witness_home_fills : l2Holds .coh 0x181 = true ∧ regionOf (0x181 * 128) = some .dram ∧
    (∀ s ∈ [stored0 [] [(0, 5)], stored0 [] [], stored0 [(0x181, .corrected)] [(0, 5)], stored0 [(0x181, .uncorrectable)] [(0, 5)]],
      (homeTokens s 0x181).1 = 1024 ∧ s.l2 = [] ∧ s.ucopies = []) ∧
    (stored0 [] [(0, 5)]).dramCheck 0x181 = none ∧ (stored0 [] []).sealKey 0x181 ≠ (stored0 [] []).heldKey 0x181 ∧
    (stored0 [(0x181, .corrected)] [(0, 5)]).dramCheck 0x181 = some .corrected ∧
    (stored0 [(0x181, .uncorrectable)] [(0, 5)]).dramCheck 0x181 = some .uncorrectable := by
  decide +kernel

/-- R119, R120, R140: a line stored under another key gets the integrity mark, an uncorrectable error the poison mark, and a
corrected one is counted; the slice records the handle whose range covers the address. -/
theorem test_a_dram_read_is_checked :
    (filled [] []).integrity = [0x181] ∧ (filled [] [(0, 5)]).integrity = [] ∧
    (filled [(0x181, .uncorrectable)] [(0, 5)]).poison = [0x181] ∧ (filled [(0x181, .corrected)] [(0, 5)]).poison = [] ∧
    getAt 0 (filled [(0x181, .corrected)] [(0, 5)]).dev.counters.soft 0 = 1 ∧
    ((filled [] [(0, 5)]).l2.map fun x => (x.die, x.line, x.handle)) = [(0, 0x181, some 3)] := by
  decide +kernel

/-- Lines 64 sets of channels apart, so of one set of slice 0, with a handle or none. -/
def wayOf (i : Nat) (h : Option Nat) : L2Line := { die := 0, line := i * 65536, handle := h }

/-- R140: of a set with one line of priority 0, that one is replaced; of thirteen lines with priority 3 the last counts as 2. -/
theorem test_the_lowest_priority_goes :
    (stored0 [] []).l2Victims true ((List.range 12).map fun i => wayOf i (if i = 7 then none else some 3)) = [wayOf 7 none] ∧
    (((stored0 [] []).l2Ranks 0 ((List.range 13).map fun i => wayOf i (some 3))).map (·.2)) = List.replicate 12 3 ++ [2] := by
  decide +kernel

/-- R121, R198: a software-managed line of die 1 comes to core 4 of die 0 through the slices of both dies; INV at .core drops
the core's copy, and at .die the slice's too. -/
theorem test_a_line_of_another_die :
    let s := mem0.swmFill { die := 0, id := 4 } (2 ^ 30 + 0x181)
    let x : Xlat := { pa := (2 ^ 30 + 0x181) * 128, mode := .swm, ty := .dram, master := false, log2 := 12, lines := [], pte := 0, host := false }
    let inv := fun (sc : Scope) => ((rangeLine s { die := 0, id := 4 } 1 sc x (2 ^ 30 + 0x181)).1.swm.map (·.agent.id),
      (rangeLine s { die := 0, id := 4 } 1 sc x (2 ^ 30 + 0x181)).1.l2.map (·.die))
    (s.l2.map (·.die)) = [1, 0] ∧ (s.swm.map (·.agent.id)) = [256 + 7, 4] ∧ inv .core = ([256 + 7], [1, 0]) ∧ inv .die = ([], [1]) := by
  decide +kernel

/-- R199: CLEAN of a line whose owner holds it dirty writes it out and leaves the tokens. -/
theorem test_clean_of_an_owner :
    let s : State := { stored0 [(0x181, .tag)] [(0, 5)] with
      hold := [{ agent := { die := 0, id := 4 }, line := 0x181, tokens := 3, owner := true, dirty := true, valid := true }] }
    let x : Xlat := { pa := 0x181 * 128, mode := .coh, ty := .dram, master := false, log2 := 12, lines := [], pte := 0, host := false }
    ((rangeLine s { die := 0, id := 4 } 2 .core x 0x181).1.hold.map fun h => (h.tokens, h.dirty)) = [(3, false)] ∧
    (rangeLine s { die := 0, id := 4 } 2 .core x 0x181).1.upsets = [] := by
  decide +kernel

/-! ### Prefetch, monitors, residency, constants -/

def mPref : MOps := mo 0 2 4 .n8
/-- RES.HINT of a handle in s6 for v4:5, v24:25 bytes; RES.EVICT of it. -/
def xHint : XOps := xo 9 (.lit 5) (.vec 4) (.vec 24)
def xEvict : XOps := xo 9 (.lit 5) (.vec 0) (.vec 0)
def xNone : XOps := xo 0 (.vec 0) (.vec 0) (.vec 0)

theorem witness_prefetches : (∃ v th s1, AllOk (groupOf mem0 0 both (ofM mPref)) (bumped mem0)
      (prefLane (.pref mPref) mPref (placeOf both)) v th s1) ∧
    okAnd (memLog (.pref mPref) mPref (placeOf both) false (ctxM mPref) th0) (fun _ => true) = true := by
  refine ⟨allOk_of ?_ ?_, ?_⟩ <;> decide +kernel

/-- A prefetch in flight: its line missing, and held. -/
def fetching : State := after (exec (.pref mPref) mem0)
def fetched : State :=
  { fetching with hold := [{ agent := memTeam.agent, line := 0x20000 / 128, tokens := 1, owner := false, dirty := false, valid := true }] }

theorem witness_prefetches_end :
    (∀ s ∈ [fetching, fetched], someAnd (aget s.teams 0) (fun tm => decide (0 < tm.threads.length) &&
      someAnd (opOf (tm.thread 0) 1) fun o => o.what == .pref mPref (0x20004 : DWord)) = true) ∧
    (prefetch fetching 0 mPref 0x20004).1 = some (.readMiss memTeam.agent 0x400) ∧ (prefetch fetched 0 mPref 0x20004).1 = none ∧
    (∀ s ∈ [fetching, fetched], (prefetch s 0 mPref 0x20004).2.teams = s.teams) := by
  decide +kernel

theorem witness_prefetch_monitor_residency :
    goesB mem0 0 both (ofM mPref) (fun st => memChecks st mPref false false) false (memRegs mPref false false) true = true ∧
    goesB mem0 0 both (ofX xNone) (fun _ => none) false [] false = true ∧ settledB mem0 both (ofX xNone) = true ∧
    effB mem0 (.resHint xHint) (ofX xHint) (fun _ => none) (resHintLane xHint) = true ∧
    effB mem0 (.resEvict xEvict) (ofX xEvict) (fun _ => none) (resEvictLane xEvict) = true := by
  decide +kernel

/-- Operand words of the residency clauses: reserved bits, a bad range, a good one on a handle with room. -/
theorem witness_hint_clauses :
    (0x40 / 64 % 4 ≠ 0 ∨ (0x40 : Nat) / 1024 ≠ 0) ∧ (0x105 / 64 % 4 = 0 ∧ (0x105 : Nat) / 1024 = 0 ∧ (5 : Nat) / 64 = 0) ∧
    isCanon 0x20000 = true ∧ (32 : DWord) ≠ 0 ∧ (32 : DWord).toNat ≤ 2 ^ 48 ∧ isCanon 0x200000000000000 = false ∧
    isCanon (BitVec.ofNat 64 (2 ^ 56 - 16)) = true ∧ 2 ^ 56 - 16 < 2 ^ 56 ∧ 2 ^ 56 < 2 ^ 56 - 16 + 32 ∧ ¬2 ^ 56 < 0x20000 + 32 ∧
    16 ≤ (List.replicate 16 (0, 1) : List (Nat × Nat)).length ∧
    ((aget (mem0.part 0).handles 5).getD {}).ranges.length < 16 ∧
    isOk (srcA ((groupOf mem0 0 both (ofX xHint)).lctx mem0 0) .int .w32 (ofX xHint) (mem0.thread 0 0)) = true ∧
    isOk (srcB ((groupOf mem0 0 both (ofX xHint)).lctx mem0 0) .int .w64 (ofX xHint) (mem0.thread 0 0)) = true ∧
    isOk (srcC ((groupOf mem0 0 both (ofX xHint)).lctx mem0 0) .int .w64 (ofX xHint) (mem0.thread 0 0)) = true := by
  decide +kernel

/-- CBLOAD of two words of v12:13 into bank 0, and its end. -/
def xCb : XOps := xo 0 (.lit 0) (.vec 12) (.lit 8)
def cbloading : State := after (exec (.cbload xCb) mem0)

theorem witness_cbload :
    goesB mem0 0 both (ofX xCb) (fun st => opChecks st (Instr.shape (.cbload xCb)) (ofX xCb)) false
      (srcRegs (Instr.shape (.cbload xCb)).b xCb.b ++ srcRegs (Instr.shape (.cbload xCb)).c xCb.c) true = true ∧
    execLanes mem0 both (ofX xCb) = [0, 1] ∧
    okAnd (logOperands (.cbload xCb) (ofX xCb) (Instr.shape (.cbload xCb)) (placeOf both)
      ((groupOf mem0 0 both (ofX xCb)).lctx mem0 0) (mem0.thread 0 0)) (fun q =>
        (cbloadBad (mem0.team 0) ((groupOf mem0 0 both (ofX xCb)).lctx mem0 0).launch 0 q.1.b
          (DWord.ofPair 0 (getAt 0 q.1.c 0))).isNone) = true := by
  decide +kernel

theorem witness_cbload_complete :
    (List.range (cbloading.team 0).threads.length).filter (fun j => (opOf (cbloading.thread 0 j) 1).isSome) = [0, 1] ∧
    someAnd (opOf (cbloading.thread 0 0) 1) (fun o => o.what == .cbload 0 0x40020000 8 && !o.decided) = true ∧
    (∀ j < (cbloading.team 0).threads.length, earlierLoad (cbloading.thread 0 j) 1 = false ∧ earlierStore (cbloading.team 0) j 1 = false) ∧
    (cbloading.team 0).launch = some 3 ∧
    (match readVirtual (cbloading.team 0) (some (cbloading.team 0).agent) (chunks 520 0x40020000 8) cbloading with
     | .ok bs stale s1 => bs.length == 8 && !stale && (aget s1.launches 3).isSome && s1.teams == cbloading.teams
     | _ => false) = true := by
  decide +kernel

/-! ### The supervisor's translation forms -/

def supTeam : Team := { memTeam with kind := .supervisor, slot := Config.supervisorSlot }
def supState : State :=
  { mem0 with teams := [(0, supTeam)], asids := [(5, { gen := 4 }), (6, { gen := 15 }), (7, { gen := 3, retiring := true })] }

def xRetire : XOps := xo 9 (.vec 6) (.lit 0) (.vec 0)
def xProbe : XOps := xo 10 (.vec 12) (.lit 0) (.vec 24)
def xScan : XOps := xo 9 (.vec 6) (.vec 12) (.vec 24)

theorem witness_translation_forms :
    effB supState (.asidRetire xRetire) (ofX xRetire) (fun _ => none) (asidRetireLane xRetire) = true ∧
    effB supState (.tlbProbe xProbe) (ofX xProbe) (fun _ => none) (tlbProbeLane xProbe) = true ∧
    effB supState (.pageScan xScan) (ofX xScan) (fun _ => none) (pageScanLane xScan) = true ∧
    (∀ p ∈ [((5 : Word), 5, 4, false), (6, 6, 15, false), (7, 7, 3, true)], p.1.toNat = p.2.1 ∧ p.2.1 < 2 ^ 16 ∧
      aget supState.asids p.2.1 = some { gen := p.2.2.1, retiring := p.2.2.2 } ∧ p.2.2.1 < 16) ∧
    ({ root := 1, asid := 5, gen := 4 } : Xrec).asid = 5 := by
  decide +kernel

/-! ### Barriers, EXIT and QUIET -/

/-- Barrier 3 of the team: an arrival of both threads; a wait for generation 0; a sync of both. -/
def xArrive : XOps := xo 9 (.lit 3) (.lit 2) (.vec 0) .s4 0 0 .rne false .team
def xWait : XOps := xo 0 (.lit 3) (.lit 0) (.vec 0) .s4 0 0 .rne false .team

def armed (b : Barrier) : State :=
  { mem0 with teams := [(0, { memTeam with
      bars := setAt memTeam.bars 3 b
      threads := memTeam.threads.map fun th => { th with wait := some (.barrier (.team 0 3) 0 false) } })] }

theorem witness_barriers_complete :
    (Goes mem0 0 both (ofX xArrive) (fun st => opChecks st (Instr.shape (.barArrive xArrive)) (ofX xArrive)) false
      (srcRegs (Instr.shape (.barArrive xArrive)).b xArrive.b ++ dstRegs false (Instr.shape (.barArrive xArrive)).d 9) false ∧
      okAnd ((groupOf mem0 0 both (ofX xArrive)).release mem0 .team) (fun t => t == mem0) = true ∧
      ∃ v th s1, AllOk (groupOf mem0 0 both (ofX xArrive)) mem0 (barArriveLane xArrive 0) v th s1) ∧
    Settled mem0 both (ofX xWait) ∧
    (Goes mem0 0 both (ofX xWait) (fun st => opChecks st (Instr.shape (.barWait xWait)) (ofX xWait)) false
      (srcRegs (Instr.shape (.barWait xWait)).b xWait.b) false ∧
      ∃ v th s1, AllOk (groupOf mem0 0 both (ofX xWait)) mem0 (barWaitLane xWait false 0 (placeOf both)) v th s1) ∧
    Goes mem0 0 both (ofX xWait) (fun st => opChecks st (Instr.shape (.barSync xWait)) (ofX xWait)) false
      (srcRegs (Instr.shape (.barSync xWait)).b xWait.b) false ∧
    okAnd ((groupOf mem0 0 both (ofX xWait)).release mem0 .team) (fun t => t == mem0) = true ∧
    ∃ v th s1, AllOk (groupOf mem0 0 both (ofX xWait)) mem0 (barWaitLane xWait true 0 (placeOf both)) v th s1 :=
  ⟨⟨goes_of (by decide +kernel), by decide +kernel, allOk_of (by decide +kernel) (by decide +kernel)⟩,
    settled_of (by decide +kernel), ⟨goes_of (by decide +kernel), allOk_of (by decide +kernel) (by decide +kernel)⟩,
    goes_of (by decide +kernel), by decide +kernel, allOk_of (by decide +kernel) (by decide +kernel)⟩

/-- Counts of the arrival's clauses at their edges: above the two threads, unlike the open count, the first of two, and
the last of two with both threads waiting. -/
theorem witness_arrivals :
    (barThreads mem0 (.team 0 3) < 3 ∧ (2 : Nat) ≤ barThreads mem0 (.team 0 3)) ∧
    ((armed ⟨0, 1, 1⟩).bar (.team 0 3)).exp = 1 ∧ ((armed ⟨0, 0, 0⟩).bar (.team 0 3)).exp = 0 ∧
    ((armed ⟨0, 0, 2⟩).bar (.team 0 3)).arr + 1 < 2 ∧ 2 ≤ ((armed ⟨0, 1, 2⟩).bar (.team 0 3)).arr + 1 ∧
    ((armed ⟨0, 1, 2⟩).thread 0 1).wait = some (.barrier (.team 0 3) 0 false) ∧
    3 < ((armed ⟨0, 1, 2⟩).team 0).bars.length := by
  decide +kernel

theorem witness_exit_and_quiet :
    goesB pair0 0 both (ofX xNone) (fun _ => none) false [] false = true ∧ both.acc = false ∧ settledB pair0 both (ofX xNone) = true ∧
    (∀ l ∈ [0, 1], lateFault (laneOf pair0 both l) = none) ∧ (pair0.team 0).kind ≠ .lodestar ∧
    execLanes pair0 both (ofX xNone) = [0, 1] ∧ execLanes pair0 both (ofX { xNone with pneg := true }) = [] ∧
    goesB pair0 0 both (ofX { xNone with pneg := true }) (fun _ => none) false [] false = true := by
  decide +kernel

/-- R366, R371: EXIT ends both threads; the second arrival of two starts generation 1. -/
theorem test_exit_and_barrier :
    ((after (exec (.exit xNone) pair0)).thread 0 1).status = .exited ∧
    ((after (exec (.barArrive xArrive) mem0)).team 0).bars[3]? = some ⟨1, 0, 0⟩ ∧
    ((after (exec (.barArrive xArrive) mem0)).thread 0 1).vreg 9 = 0 := by
  decide +kernel

/-! ### Engine operations -/

/-- A copy block (R213): addresses, rows, columns, strides, CTRL and the two address fields after AUX. -/
def block (src dst rows cols : Nat) (sstr dstr : Nat) (ctrl aux2 aux3 : Nat) : List Byte :=
  leBytes 8 src ++ leBytes 8 dst ++ leBytes 4 rows ++ leBytes 4 cols ++ leBytes 8 sstr ++ leBytes 8 dstr ++ leBytes 4 ctrl ++
    leBytes 4 0 ++ leBytes 8 aux2 ++ leBytes 8 aux3

/-- Blocks at scratch addresses 0, 64, …: one for each form (R218 to R224), of the page in mode HOME, of scratchpad from
0x400 on, and an index list at 0x800; at 384 one whose ROWS is 0. -/
def blocks : Mem :=
  [block 0x40020000 0x400 2 4 16 16 4 0 0, block 0x40020000 0x400 2 4 16 16 20 0x800 0,
   block 0x400 0x40020000 2 4 16 16 17 0x800 0, block 0x40020000 0x400 2 4 16 16 0x1004 0 0,
   block 0x40020000 0x400 1 32 128 32 132 0x600 0, block 0 0x400 2 4 0 16 4 7 0,
   block 0x40020000 0x400 0 4 16 16 4 0 0].foldl (fun (m : Mem × Nat) b => (m.1.write m.2 b, m.2 + 64)) ([], 0) |>.1

def eng0 : State := { mem0 with crews := [(7, { launch := 3, grant := 0x1000, teams := [0], scratch := blocks })] }

/-- A copy whose block is at the scratch address in a register, into queue 2. -/
def xCpy (a : BitVec 7) (ty : Ty := .b32) : XOps := xo 9 (.vec a) (.lit 2) (.vec 0) ty

theorem witness_copies_enqueue :
    (∀ p ∈ [(Instr.cpyTile (xCpy 30), 0, xCpy 30), (.cpyGath (xCpy 31), 1, xCpy 31), (.cpyScat (xCpy 32), 2, xCpy 32),
      (.cpyMcast (xCpy 33), 3, xCpy 33), (.cpyQnt (xCpy 34 .e4m3), 4, xCpy 34 .e4m3), (.cpyFill (xCpy 35), 5, xCpy 35)],
      enqB eng0 p.1 p.2.2 (prepareCopy p.1 p.2.1 p.2.2) = true) ∧
    (ownScratch eng0 0 0 384 64 = some (block 0x40020000 0x400 0 4 16 16 4 0 0)) ∧
    (cpyBlock 0 .b32 (block 0x40020000 0x400 0 4 16 16 4 0 0)).badField = some 16 ∧
    (ownScratch eng0 0 0 0 64 = some (block 0x40020000 0x400 2 4 16 16 4 0 0)) ∧
    (let b := cpyBlock 0 .b32 (block 0x40020000 0x400 2 4 16 16 4 0 0)
     b.badField = none ∧ b.badScratch eng0 0 = none ∧ b.badMem = none ∧
       ∀ c, ((b.entries eng0 0 0).filter fun e => e.1 == c).length ≤ 4) := by
  refine ⟨by decide +kernel, by decide +kernel, by decide +kernel, by decide +kernel, by decide +kernel, by decide +kernel,
    by decide +kernel, fun c => ?_⟩
  exact Nat.le_trans (List.length_filter_le _ _) (by decide +kernel)

def xQf : XOps := xo 9 (.lit 5) (.vec 0) (.vec 0)

theorem witness_qfence_enqueues : enqB eng0 (.qfence xQf) xQf (fun s _ L _ th =>
    .ok ({ op := { qs := maskCodes xQf.a.bits, instr := .qfence xQf, lane := L.lane, block := [], args := [] }, spans := [] },
      th, s)) = true := by
  decide +kernel

/-- The copy issued; accepted; taken by engine 1; its rows moved. -/
def issued : State := after (exec (.cpyTile (xCpy 30)) eng0)
def accepted : State := after (exec (.engineOpAccept 0) issued)
def taken : State := after (exec (.copyEngineTake 0 1) accepted)
def moved : State := after (exec (.copyRow 0 1) (after (exec (.copyRow 0 1) taken)))

theorem witness_acceptance :
    someAnd (aget issued.teams 0) (fun tm =>
      match tm.pending with
      | p :: _ => mayAccept issued 0 p && p.op.qs == [2] && decide (2 < tm.engq.length) && !(tm.queue 2).faulted && !p.op.isFence &&
          p.op.instr == .cpyTile (xCpy 30) && tm.engq.all (fun q => q.ops.isEmpty) && tm.readyFence.isNone &&
          (writeLanes (issued.enter 0 p).2 0 p.id (issued.enter 0 p).1.token p.lanes).isSome
      | [] => false) = true := by
  decide +kernel

theorem witness_copies_run :
    (aget (accepted.core 0).engines 1 = none ∧
      someAnd (nextInTurn 256 (accepted.core 0).engineRot (copyWork accepted 0)) (fun p =>
        (((accepted.team p.2.1).queue p.2.2).head).isSome) = true) ∧
    (someAnd (copyRunning taken 0 1) fun p => copyForm p.2.instr == some (0, .b32) && decide (p.2.row < 2) &&
      match copyStep taken p.1 p.2.order (cpyBlock 0 .b32 p.2.block) p.2.row with
      | .ok _ _ _ => (cpyBlock 0 .b32 p.2.block).rows == 2
      | _ => false) = true ∧
    (someAnd (copyRunning moved 0 1) fun p => copyForm p.2.instr == some (0, .b32) &&
      decide ((cpyBlock 0 .b32 p.2.block).rows ≤ p.2.row)) = true := by
  decide +kernel

/-- One row read and written; a row filled. -/
theorem witness_copy_rows :
    (let b := cpyBlock 0 .b32 (block 0x40020000 0x400 2 4 16 16 4 0 0)
     b.form = 0 ∧ b.tr = false ∧
     rdAnd (engineRead eng0 0 b.sspace (BitVec.ofInt 64 (b.src + 1 * b.sstr)) (b.cols * b.esize)) (fun bs _ s1 =>
      rdAnd (engineWrite s1 0 b.dspace 0 (BitVec.ofInt 64 (b.dsta + 1 * b.dstr)) bs) fun _ _ _ => true) = true) ∧
    (let b := cpyBlock 5 .b32 (block 0 0x400 2 4 0 16 4 7 0)
     b.form = 5 ∧ rdAnd (engineWrite eng0 0 b.dspace 0 (BitVec.ofInt 64 (b.dsta + 1 * b.dstr))
       (List.replicate b.cols (leBytes b.esize b.aux2)).flatten) (fun _ _ _ => true) = true) := by
  decide +kernel

def xQw : XOps := xo 0 (.lit 5) (.vec 0) (.vec 0)
/-- Tokens of queue 2 in registers: TOKEN.WAIT into v40:43, TOKEN.TEST into v9. -/
def xTw : XOps := xo 40 (.vec 9) (.vec 0) (.vec 0)
def xTt : XOps := xo 9 (.vec 9) (.vec 0) (.vec 0)

/-- `accepted` and `moved` back at the run's first instruction. -/
def held : State := { accepted with runs := mem0.runs, cur := some 0 }

theorem witness_queue_waits :
    goesB eng0 0 both (ofX xQw) (fun st => opChecks st (Instr.shape (.qwait xQw)) (ofX xQw)) false [] false = true ∧
    settledB eng0 both (ofX xQw) = true ∧ readsB held (.tokenWait xTw) xTw (readWord32 xTw) = true ∧
    goesOpB held 0 both (.tokenTest xTt) (ofX xTt) false = true ∧
    lanesOk (groupOf held 0 both (ofX xTt)) held (readWord32 xTt) = true := by
  decide +kernel

/-- TOKEN.TEST of the accepted copy: each lane has an answer and can write it. -/
theorem witness_token_test :
    let g := groupOf held 0 both (ofX xTt)
    let r := g.lanesS held (readWord32 xTt)
    let t := setThreads r.2 0 false (r.1.filterMap fun p => match p.2 with | .ok v => some (p.1, v.2) | .error _ => none)
    let q := lookUp 0 tokenTestOne (r.1.filterMap fun p => match p.2 with | .ok v => some (p.1, v.1) | .error _ => none) t
    ((q.1.all fun p => isOk (writeDst (g.lctx t p.1) (Instr.shape (.tokenTest xTt)).d xTt.dst [0] (g.thread t p.1))) &&
      q.1.all fun p => match p.2 with
      | .ok w => isOk (writeDst (g.lctx q.2 p.1) (Instr.shape (.tokenTest xTt)).d xTt.dst [w] (g.thread q.2 p.1))
      | .error _ => false) = true := by
  decide +kernel

/-- Waits of QWAIT: for what has been accepted (an operation in the queue is older), and for what is over. -/
def qwaiting (s : State) (marks : List (Nat × Nat)) : State :=
  s.modThread 0 0 fun th => { th with wait := some (.qwait 4 marks) }

def copied : State := after (exec (.copyComplete 0 1) moved)

theorem witness_qwait_ends :
    (∀ s ∈ [qwaiting accepted [(2, 1)], qwaiting copied [(2, 1)]], (s.thread 0 0).wait = some (.qwait 4 [(2, 1)]) ∧
      (aget s.teams 0).isSome = true) ∧
    (∃ o ∈ ((qwaiting accepted [(2, 1)]).team 0).queue 2 |>.ops, o.seq < 1) ∧
    (∀ o ∈ ((qwaiting copied [(2, 1)]).team 0).queue 2 |>.ops, 1 ≤ o.seq) ∧
    ∀ e ∈ ((qwaiting copied [(2, 1)]).team 0).queue 2 |>.recent, e.state.bad = false := by
  decide +kernel

/-- Tokens of queue 2 and of the sections of lane 0: pending, over, ended badly; not answered, answered, refused, faulted. -/
def bad : State :=
  (copied.modTeam 0 fun t => { t with engq := setAt t.engq 2 { t.queue 2 with
      recent := [{ seq := 0, order := 1, state := .faulted .copyFault 0, word := 0, reported := false }] } }).modThread 0 0
    fun th => { th with slots := [(0, ⟨5, none⟩), (1, ⟨6, some (.results [1])⟩), (2, ⟨7, some (.refused 4)⟩), (3, ⟨8, some (.faulted 9)⟩)] }

theorem witness_tokens :
    (∀ s ∈ [accepted, copied, bad], 0 < ((s.team 0).queue 2).accepted ∧ ((s.team 0).queue 2).accepted ≤ 64) ∧
    (∃ o ∈ ((accepted.team 0).queue 2).ops, o.seq = 0) ∧ (∀ o ∈ ((copied.team 0).queue 2).ops, o.seq ≠ 0) ∧
    (∀ o ∈ ((bad.team 0).queue 2).ops, o.seq ≠ 0) ∧
    (someAnd (((copied.team 0).queue 2).recent.find? fun e => e.seq == 0) fun e => !e.state.bad) = true ∧
    (someAnd (((bad.team 0).queue 2).recent.find? fun e => e.seq == 0) fun e => e.state.bad) = true ∧
    (∀ j ∈ [0, 1, 2, 3], (aget (bad.thread 0 0).slots j).isSome = true) := by
  decide +kernel

/-- R209, R216, R219: the first operation of queue 2 has token 2 × 2^29; a row of four words of zeros reaches scratchpad. -/
theorem test_copies :
    ((after (exec (.engineOpAccept 0) issued)).thread 0 1).vreg 9 = 0x40000000 ∧
    ((after (exec (.cpyFill (xCpy 35)) eng0)).team 0).pending.length = 1 := by
  decide +kernel

/-! ### Views -/

/-- A view record (R229): one row of 32 .f32 elements of the master page, viewed as e4m3 in one shard. -/
def viewRec : List Byte :=
  leBytes 8 0x100000000 ++ leBytes 4 1 ++ leBytes 4 32 ++ leBytes 8 128 ++ leBytes 4 (16 * 32) ++ leBytes 4 1 ++
    leBytes 8 0x140000000 ++ List.replicate 88 0

/-- The view of that record, and the places of its only block. -/
def view0 : View :=
  { slot := 4, serial := 9, part := 0, mrows := 1, mcols := 32, mtype := .f32, vtype := .e4m3, column := false, policy := .block
    master := [⟨0, 0x100000000, 128⟩], mstr := 128
    shards := [{ elems := [(0x140000000, 32)], scales := [(0x140000080, 1)], tags := [(0x140000100, 4)], first := 0, blocks := 1 }]
    watch := [], faulted := false, dropped := false, installed := true }

/-- The record in the page in mode HOME; the view installed, its tag at version 6, fresh or pending. -/
def viewing (tag : Nat) (v : View := view0) : State :=
  { eng0 with mem := (tables.write 0x40030000 viewRec).write 0x140000100 (leBytes 4 tag), views := [v] }

def xReg : XOps := xo 9 (.vec 14) (.vec 0) (.vec 0)
def xHandle : XOps := xo 9 (.vec 6) (.vec 0) (.vec 0)
def xStat : XOps := xo 9 (.vec 6) (.lit 0) (.vec 0)

theorem witness_view_forms :
    enqB { viewing 0 with views := [] } (.viewReg xReg) xReg (prepareViewReg (.viewReg xReg)) = true ∧
    enqB eng0 (.viewDrop xHandle) xHandle (prepareHandle (.viewDrop xHandle)) = true ∧
    enqB eng0 (.viewFence xHandle) xHandle (prepareHandle (.viewFence xHandle)) = true ∧
    effB eng0 (.viewStat xStat) (ofX xStat) (fun _ => none) (viewStatLane xStat) = true ∧
    eng0.viewOf 0 5 = none ∧ ((viewing 0).viewOf 0 0x90004).isSome = true ∧ view0.blocks = 1 := by
  decide +kernel

/-- A block that is not pending and one that is, no page of its areas and master lost. -/
theorem witness_recomputation : ∀ tag ∈ [0x10006, 0x20006],
    let s := viewing tag
    s.views.find? (fun v => v.part == 0 && v.slot == 4 && v.installed) = some view0 ∧
    view0.place 0 = some (0x140000000, some 0x140000080, 0x140000100) ∧ view0.tagAddr 0 = some 0x140000100 ∧
    s.mem.wf = true ∧ s.ucopies = [] ∧ view0.faulted = false ∧ s.mem.nat 0x140000100 4 = tag ∧
    let offs := (view0.blockElems 0).map fun o => masterAddr view0.master o
    let die := dieOfPa (getAt 0 offs 0)
    pageLost s die 0x140000000 view0.blockBytes = false ∧ pageLost s die 0x140000100 4 = false ∧ pageLost s die 0x140000080 1 = false ∧
    (offs.all fun a => !pageLost s die a view0.msize) = true ∧ areaBusy s die 0x140000000 view0.blockBytes = false ∧
    areaBusy s die 0x140000100 4 = false ∧ areaBusy s die 0x140000080 1 = false ∧
    (State.takeTokens (parallaxOf die) ((offs.filter fun a => physMode a == .coh).map lineOf).eraseDups s).1 = true := by
  decide +kernel

/-- The tag's line poisoned, and promised to another agent; a message that publishes the block. -/
def lostTag : State := { viewing 0x20006 with poison := [0x140000100 / 128] }
def claimedTag : State := { viewing 0x20006 with dir := [(0x140000100 / 128, { collecting := some { die := 0, id := 1 } })] }
def viewMsg : ViewMsg := { elemPa := 0x140000000, elems := List.replicate 32 1, scalePa := some 0x140000080, scale := 1, tagPa := 0x140000100, version := 8 }

theorem witness_lost_and_claimed_views :
    pageLost lostTag 0 0x140000100 4 = true ∧ pageLost claimedTag 0 0x140000100 4 = false ∧ areaBusy claimedTag 0 0x140000100 4 = true ∧
    (∀ s ∈ [lostTag, claimedTag], s.mem.nat 0x140000100 4 = 0x20006 ∧ s.mem.wf = true ∧ s.ucopies = []) ∧
    areaBusy (viewing 0x20006) 0 0x140000000 32 = false ∧ areaBusy (viewing 0x20006) 0 0x140000100 4 = false ∧
    areaBusy (viewing 0x20006) 0 0x140000080 1 = false ∧ viewMsg.scalePa = some 0x140000080 := by
  decide +kernel

/-- Each form at the head of the view queue, for a view that stands and for a faulted one. -/
def viewQueue (i : Instr) (v : View) : State :=
  (viewing 0x10006 v).modTeam 0 fun t => { t with engq := setAt t.engq 5 { t.queue 5 with
    ops := [{ qs := [5], instr := i, lane := 0, block := [], args := [0x90004] }] } }

theorem witness_view_queue :
    (∀ i ∈ [Instr.viewReg xReg, .viewDrop xHandle, .viewFence xHandle],
      (someAnd (((viewQueue i view0).team 0).queue 5).head fun o => o.instr == i && o.state == .queued) = true) ∧
    (viewQueue (.viewReg xReg) view0).views.find? (fun v => v.part == 0 && v.handle == 0x90004) = some view0 ∧
    fenceBlocks (viewQueue (.viewFence xHandle) view0) [view0] = [] ∧ view0.installed = true ∧ view0.handle = 0x90004 ∧
    (viewQueue (.viewFence xHandle) { view0 with faulted := true }).views.head? = some { view0 with faulted := true } := by
  decide +kernel

/-- R174, R241: a pending block of version 6 becomes fresh at version 7; handle 5 names no view. -/
theorem test_views :
    (after (exec (.parallaxRecompute 0 4 0) (viewing 0x20006))).mem.nat 0x140000100 4 = 0x10007 ∧
    ((after (exec (.viewStat xStat) eng0)).thread 0 0).vreg 9 = 0x40000000 := by
  decide +kernel

/-! ### The matrix engine -/

/-- A matrix parameter block (R318): B at 0x400 in 64 columns of 32 signed bytes, A of one row at 0x300, the output of one
row of 32-bit words at 0xC00, in bank 0; with `bsrc` 0 the resident set of token `baddr`. -/
def mxBlock (baddr bcol ctrl : Nat) : List Byte :=
  leBytes 8 baddr ++ leBytes 8 0 ++ leBytes 8 0xC00 ++ leBytes 4 0x300 ++ leBytes 4 32 ++ leBytes 4 0 ++ leBytes 4 bcol ++
    leBytes 4 256 ++ leBytes 4 0 ++ leBytes 4 32 ++ leBytes 2 1 ++ leBytes 2 64 ++ leBytes 4 1 ++ leBytes 4 ctrl

/-- CTRL with B in scratchpad, the output in scratchpad as 32-bit words, banks zeroed. -/
def ctrlB : Nat := 0x1000 + 0x400 + 0x200 + 0x100

/-- An SPC block (R340): one column of 32 signed bytes at 0x400 to 0x800, metadata at 0xA00, the record at 0x900. -/
def spcBlock : List Byte :=
  leBytes 4 0x400 ++ leBytes 4 32 ++ leBytes 4 0x800 ++ leBytes 4 16 ++ leBytes 4 0xA00 ++ leBytes 4 32 ++ leBytes 4 1 ++ leBytes 4 0x900

def mxScratch : Mem :=
  ((Mem.write [] 0x200 (mxBlock 0x400 32 ctrlB ++ spcBlock)).write 0x300 [1, 2, 3]).write 0x400 [4, 5, 6]

/-- The format word of signed bytes with wrapping accumulators in s1, a control word in s2, a token of the matrix queue in s3. -/
def mx0 : State :=
  { eng0 with
    teams := [(0, { memTeam with s := setAt (setAt (setAt memTeam.s 1 0x08440000) 2 0x01000100) 3 0x80000000 })]
    crews := [(7, { launch := 3, grant := 0x1000, teams := [0], scratch := mxScratch })]
    cores := [(0, { banks := [(0, { owner := some 7, data := [(5, 2)] })] })] }

def xMx : XOps := xo 9 (.uni 1) (.vec 38) (.vec 0)
def xAcc (ty : Ty := .s4) : XOps := xo 9 (.lit 0) (.vec 24) (.uni 2) ty
def xZero : XOps := xo 9 (.lit 1) (.vec 0) (.vec 0)
def xSpc : XOps := xo 9 (.vec 39) (.lit 1) (.vec 0) .s8
def xTok : XOps := xo 9 (.uni 3) (.vec 0) (.vec 0)
def xMeta (form : BitVec 7) : XOps := xo 10 (.lit 3) (.lit form) (.vec 0) .b32

theorem witness_matrix_forms_enqueue :
    enqB mx0 (.mxWload xMx) xMx (prepareMatrix (.mxWload xMx) true xMx) = true ∧
    enqB mx0 (.mxIssue xMx) xMx (prepareMatrix (.mxIssue xMx) false xMx) = true ∧
    enqB mx0 (.accLd (xAcc)) (xAcc) (prepareAcc (.accLd (xAcc))) = true ∧
    enqB mx0 (.accSt (xAcc)) (xAcc) (prepareAcc (.accSt (xAcc))) = true ∧
    enqB mx0 (.accCvt (xAcc .f16)) (xAcc .f16) (prepareAcc (.accCvt (xAcc .f16))) = true ∧
    enqB mx0 (.accZero xZero) xZero (prepareZero (.accZero xZero)) = true ∧
    enqB mx0 (.spcCmp xSpc) xSpc (prepareSpc (.spcCmp xSpc) xSpc) = true := by
  decide +kernel

/-- The executing lanes have answers for a form on tokens and can write them. -/
def lookB (s : State) (i : Instr) (x : XOps) (look : State → Nat → Nat → Word → Except (Cause × DWord) Word × State) : Bool :=
  let g := groupOf s 0 both (ofX x)
  let r := g.lanesS s (readWord32 x)
  let t := setThreads r.2 0 false (r.1.filterMap fun p => match p.2 with | .ok v => some (p.1, v.2) | .error _ => none)
  let q := lookUp 0 look (r.1.filterMap fun p => match p.2 with | .ok v => some (p.1, v.1) | .error _ => none) t
  goesOpB s 0 both i (ofX x) false && lanesOk g s (readWord32 x) &&
    (q.1.all fun p => isOk (writeDst (g.lctx t p.1) i.shape.d x.dst [0] (g.thread t p.1))) && q.1.all fun p => match p.2 with
    | .ok w => isOk (writeDst (g.lctx q.2 p.1) i.shape.d x.dst [w] (g.thread q.2 p.1))
    | .error _ => false

theorem witness_matrix_token_forms :
    lookB mx0 (.mxTest xTok) xTok (mxTokenOne mxTestOne) = true ∧ lookB mx0 (.mxProg xTok) xTok (mxTokenOne mxProgOne) = true ∧
    lookB mx0 (.mxAbort xTok) xTok (mxTokenOne mxAbortOne) = true ∧
    goesOpB mx0 0 both (.spcMeta (xMeta 0)) (ofX (xMeta 0)) false = true ∧ goesOpB mx0 0 both (.spcMeta (xMeta 1)) (ofX (xMeta 1)) false = true ∧
    (xMeta 0).b.bits ≠ 1 ∧ (xMeta 1).b.bits = 1 ∧
    (∀ l ∈ [0, 1], isOk (from1 .int .w32 (ofX (xMeta 0)) (fun _ => [0]) ((groupOf mx0 0 both (ofX (xMeta 0))).lctx mx0 l)
      (mx0.thread 0 l)) = true) := by
  decide +kernel

/-- The format words of the lanes: alike and supported; alike and not; not alike. -/
theorem witness_format_words :
    okAnd (formatWords mx0 (groupOf mx0 0 both (ofX xMx)) (ofX xMx) [1]) (fun q => q.1.all fun p => p.2 == 0x08440000) = true ∧
    (mxFmt 0x08440000).supported false = true ∧ (mxFmt 0x08440001).supported false = false ∧
    isOk (prepareMx (.mxIssue xMx) false mx0 0 0 0x08440000 0x200) = true ∧ (0x08440000 : Word) ≠ 0x08440001 := by
  decide +kernel

/-- ACC.ALLOC of two banks that waits (form 0) or answers at once (form 1); ACC.FREE of bank 0. -/
def xAlloc (form : BitVec 7) : XOps := xo 9 (.lit 2) (.lit form) (.vec 0)
def xFree : XOps := xo 0 (.lit 1) (.vec 0) (.vec 0)

theorem witness_bank_forms :
    (∀ form ∈ [(0 : BitVec 7), 1], let x := xAlloc form
      goesB mx0 0 both (ofX x) (fun st => opChecks st (Instr.shape (.accAlloc x)) (ofX x)) false
        (srcRegs (Instr.shape (.accAlloc x)).a x.a ++ dstRegs false (Instr.shape (.accAlloc x)).d x.dst) false = true ∧
      settledB mx0 both (ofX x) = true ∧ execLanes mx0 both (ofX x) = [0, 1] ∧
      okAnd (srcA ((groupOf mx0 0 both (ofX x)).lctx mx0 0) .int .w32 (ofX x) (mx0.thread 0 0)) (fun q => q.1 == 2) = true ∧
      ∀ l ∈ [0, 1], isOk (writeDst ((groupOf mx0 0 both (ofX x)).lctx mx0 l) (Instr.shape (.accAlloc x)).d 9 [6] (mx0.thread 0 l)) = true) ∧
    (mx0.team 0).crew = some 7 ∧ 2 + (banksOf (mx0.core 0) 7).length ≤ 32 ∧
    goesB mx0 0 both (ofX xFree) (fun st => opChecks st (Instr.shape (.accFree xFree)) (ofX xFree)) false
      (srcRegs (Instr.shape (.accFree xFree)).a xFree.a) false = true ∧
    okAnd (srcA ((groupOf mx0 0 both (ofX xFree)).lctx mx0 0) .int .w32 (ofX xFree) (mx0.thread 0 0)) (fun q => q.1 == 1) = true ∧
    ∀ b ∈ bankList 1, holdsBank mx0 0 b = true := by
  decide +kernel

/-- The matrix queue with one operation: queued, or running with a captured chunk. -/
def mxOpOf (i : Instr) (st : EngState := .queued) (cols : List (List BBlock) := []) (chunk : Nat := 0) : EngOp :=
  { qs := [4], instr := i, lane := 0, block := mxBlock 0x400 32 ctrlB, args := [0x08440000, 0, 7], state := st, order := 1
    loaded := !cols.isEmpty, cols := cols, chunk := chunk }

def mxWith (o : EngOp) : State :=
  let s := mx0.modTeam 0 fun t => { t with engq := setAt t.engq 4 { t.queue 4 with ops := [o], accepted := 1 } }
  if o.state = .running then s.modCore 0 fun c => { c with mxRunning := some 0 } else s

theorem witness_engine_selects : ∀ i ∈ [Instr.mxWload xMx, .mxIssue xMx],
    mxCurrent (mxWith (mxOpOf i)) 0 = none ∧
    nextInTurn 64 ((mxWith (mxOpOf i)).core 0).mxRot (mxWork (mxWith (mxOpOf i)) 0) = some (0, 0, 4) ∧
    (someAnd (((mxWith (mxOpOf i)).team 0).queue 4).head fun o => o.instr == i && (mxBlk o.block).bsrc != 0) = true := by
  decide +kernel

/-- What loading the columns of B gives. -/
def colsOf (r : Except MxStop (List (List BBlock) × Bool × State)) : List (List BBlock) :=
  match r with
  | .ok q => q.1
  | .error _ => []

theorem witness_chunk_loads : ∀ i ∈ [Instr.mxWload xMx, .mxIssue xMx],
    let o := mxOpOf i .running
    let s := mxWith o
    mxCurrent s 0 = some (0, o) ∧ (mxBlk o.block).bsrc = 1 ∧ (mxBlk o.block).passes = 1 ∧ (mxBlk o.block).chunks (opFmt o) = 1 ∧
    (colsOf (loadColumns 0 (mxBlk o.block) (opFmt o) (opMeta o) 0 1 (List.range 64) (s.modCore 0 fun c => { c with resident := none }))).length = 64 := by
  decide +kernel

/-- Columns of the block at 4, 5, 6 and zeros. -/
def cols64 : List (List BBlock) := ([⟨4 :: 5 :: 6 :: List.replicate 29 0, 0x7F⟩]) :: List.replicate 63 [⟨List.replicate 32 0, 0x7F⟩]

theorem witness_accumulate_and_output :
    (∀ chunk ∈ [0, 1], let o := mxOpOf (.mxIssue xMx) .running cols64 chunk
      mxCurrent (mxWith o) 0 = some (0, o) ∧ o.row < (mxBlk o.block).passes ∧ o.abort = false ∧ o.loaded = true ∧
      ((mxBlk o.block).chunks (opFmt o) ≤ o.chunk ↔ chunk = 1)) ∧
    (let o := mxOpOf (.mxIssue xMx) .running cols64
     let p := mxBlk o.block
     let w := passRange p o.row
     w.1 + 32 * o.idx + 0 < w.2.1 ∧ p.n % 64 = 0 ∧ 63 < p.n ∧ 63 < o.cols.length ∧ (o.idx + 1) * p.groups ≤ p.list.length) ∧
    (let o := mxOpOf (.mxIssue xMx) .running cols64 1
     rdAnd (engineWrites 0 (mxBlk o.block).ospace o.order (outputWrites ((mxWith o).core 0) (mxBlk o.block) o) (mxWith o))
       (fun _ _ _ => true) = true) := by
  decide +kernel

/-- A request for two banks that lane 1 waits for. -/
def granting : State :=
  (mx0.modCore 0 fun c => { c with bankWaiters := [{ id := 4, team := 0, n := 2 }] }).modThread 0 1 fun th =>
    { th with wait := some (.bank 4 9) }

theorem witness_bank_grant : (granting.core 0).bankWaiters = [{ id := 4, team := 0, n := 2 }] ∧ (granting.team 0).crew = some 7 ∧
    bankLanes (granting.team 0) 4 = [1] ∧ (granting.thread 0 1).wait = some (.bank 4 9) ∧ 9 < (granting.thread 0 1).v.length ∧
    2 ≤ (freeBanks (granting.core 0)).length := by
  decide +kernel

/-- R280, R282: 1·4 + 2·5 + 3·6 = 32; R341: a selection without a valid mask gives 0. -/
theorem test_matrix :
    accumulate 1 0 [(alignBlock .s8 [1, 2, 3], 0x7F)] [(alignBlock .s8 [4, 5, 6], 0x7F)] = 32 ∧
    ((after (exec (.accZero xZero) mx0)).team 0).pending.length = 1 := by
  decide +kernel

/-! ### Access streams -/

/-- A run of the access context, whose s4:5 is 0x40020000, with loop levels of 2 and 3 points. -/
def accRun : Run := { runOf [0] with acc := true, pipe := accessPipe }

def acc0 : State :=
  { mem0 with
    runs := [accRun]
    teams := [(0, { memTeam with
      acc := (soloTeam .user).acc.map fun a =>
        { a with s := setAt a.s 4 0x40020000, loops := [(2, 8), (3, 64), (1, 0), (1, 0)] } })] }

def xLoop : XOps := xo 0 (.lit 2) (.lit 0) (.lit 4)
def xStream : XOps := xo 0 (.uni 4) (.lit 12) (.lit 4) .b32
def xFeed : XOps := xo 0 (.vec 6) (.vec 0) (.vec 0)
def feedSite (st : Site) : Option (Cause × DWord) := if st.hasAcc then none else some (.operandKind, opTval 0 0)

theorem witness_access_forms :
    effB acc0 (.affLoop xLoop) (ofX xLoop) (fun _ => none) (affLoopLane xLoop) accRun = true ∧
    effB acc0 (.affLd xStream) (ofX xStream) (fun _ => none) (streamLane xStream false) accRun = true ∧
    effB acc0 (.affSt xStream) (ofX xStream) (fun _ => none) (streamLane xStream true) accRun = true ∧
    effB (bumped (again { acc0 with runs := [both] })) (.affFeed xFeed) (ofX xFeed) feedSite (affFeedLane xFeed) both = true := by
  decide +kernel

/-- The lane of the access context, and a stream that its queue is generating. -/
def streaming : State := after (exec (.affLd xStream) acc0)

theorem witness_streams_start :
    okAnd (srcA ((groupOf acc0 0 accRun (ofX xStream)).lctx acc0 0) .int .w64 (ofX xStream)
      ((groupOf acc0 0 accRun (ofX xStream)).thread acc0 0)) (fun q => q.1 == 0x40020000 &&
        isOk (srcC ((groupOf acc0 0 accRun (ofX xStream)).lctx acc0 0) .int .w32 (ofX xStream) q.2)) = true ∧
    (∀ p ∈ [(acc0, false), (streaming, true)], someAnd (aget p.1.teams 0) (fun tm => someAnd tm.acc fun a =>
      a.generating (newStream a xStream false 0x40020000 4).q == p.2 &&
        (newStream a xStream false 0x40020000 4).total == 6) = true) := by
  decide +kernel

theorem witness_stream_points :
    someAnd (aget streaming.teams 0) (fun tm => tm.resident && someAnd tm.acc fun a =>
      someAnd (a.streams.find? fun st => st.q == 0) fun st =>
        st.stopped.isNone && !st.fb && decide (st.lane < tm.threads.length) && decide (0 < (tm.thread st.lane).inq.length) &&
        decide ((getAt [] (tm.thread st.lane).inq 0).length < Config.queueDepth) &&
        match pointAt streaming 0 st.lane true st.addr (tyBytes st.ty) with
        | .ok _ _ s1 => s1.teams == streaming.teams
        | _ => false) = true := by
  decide +kernel

/-- A lane with a paired address and datum. -/
def pairing : State :=
  mem0.modThread 0 0 fun th =>
    { th with outq := [[(1, 77)], [], [], []], addrq := [[{ addr := 0x40020000, bytes := 4, err := none }], [], [], []] }

theorem witness_stream_stores :
    someAnd (aget pairing.teams 0) (fun tm => tm.resident && decide (0 < tm.threads.length) &&
      getAt [] (tm.thread 0).addrq 0 == [{ addr := 0x40020000, bytes := 4, err := none }] &&
      getAt [] (tm.thread 0).outq 0 == [(1, 77)] && okAnd (pairing.piece 0 0 .store 0x40020000 4 (some 1)) fun q =>
        q.2.teams == pairing.teams && (q.2.unreachable tm.die q.1.xl.ty q.1.xl.pa).isNone) = true := by
  decide +kernel

/-- R247: at point 3 of levels of 2 and 3 points, lane 1 of stride 4 from 100: 100 + 1 × 8 + 1 × 64 + 4. -/
theorem test_stream_address :
    ({ q := 0, base := 100, ls := 4, levels := [(2, 8), (3, 64)], point := 3, lane := 1, total := 6, ty := .b32, fb := false } :
      Stream).addr = 176 := by
  decide +kernel

/-! ### Launches -/

/-- A record (R344): entry 0x10000, one lane, one team, one crew, one group, its completion record at 0x40040000. -/
def goodRec : LRec := [0x10000, 0, 0, 0, 0, 0, 0, 0, 0, 0, 1, 1, 1, 1, 1, 0, 0x40040000, 0] ++ List.replicate 46 0

/-- The record lies at 0x40020000; the partition has core unit 0. -/
def lau0 : State :=
  { mem0 with
    mem := tables.write 0x40020000 (goodRec.flatMap fun w => leBytes 4 w.toNat)
    parts := [(0, { units := { coreUnits := [0], lodestars := [], granules := [], bankUnits := [] } })] }

def xLaunch : XOps := xo 9 (.vec 12) (.vec 0) (.vec 0)
/-- A received record has status `st` and ends in a state of which `f` holds. -/
def acceptAnd (r : AcceptRes) (st : Nat) (f : State → Bool) : Bool :=
  match r with
  | .done n _ s => n == st && f s
  | .wait _ => false

/-- A team with one LAUNCH pending, its record read or not. -/
def launching (bs : List Byte) : State :=
  lau0.modTeam 0 fun t => { t with
    pending := [{ op := { qs := [], instr := .launch xLaunch, lane := 0, block := bs, args := [0x40020000] }, lanes := [0, 1], id := 3, spans := [] }]
    threads := t.threads.map fun th =>
      { th with ops := [{ id := 3, dsts := [9], dc := 0, win := 0, decided := false, doomed := none }] } }

def goodBytes : List Byte := goodRec.flatMap fun w => leBytes 4 w.toNat

theorem witness_launch_issues : enqB lau0 (.launch xLaunch) xLaunch (prepareLaunch (.launch xLaunch)) = true := by
  decide +kernel

theorem witness_launch_receives :
    (∀ bs ∈ [[], goodBytes], ((launching bs).team 0).pending.all (fun q => q.op.isLaunch) = true ∧
      launchesDue ((launching bs).team 0) [] (((launching bs).team 0).pending.filter fun q => q.op.isLaunch) =
        ((launching bs).team 0).pending ∧ ((launching bs).team 0).pending.length = 1) ∧
    rdAnd (readVirtual ((launching []).team 0) (some ((launching []).team 0).agent) (chunks 4 0x40020000 256) (launching []))
      (fun bs _ _ => bs == goodBytes) = true ∧
    deviceLaunches (launching goodBytes) 0 < 1024 ∧
    acceptAnd (acceptRecord (launching goodBytes) 2 true (wordsOf goodBytes)) 0 (fun s1 =>
      someAnd (writeLanes (dropPending s1 0 3) 0 3 0 [0, 1]) fun s2 => (s2.thread 0 1).vreg 9 == 0) = true := by
  decide +kernel

/-- A partition that holds 1,024 device launches already. -/
theorem witness_launches_full :
    let s : State := { launching goodBytes with launches := List.replicate 1024 (0, { ctx := 2, part := 0, device := true, record := goodRec, order := 0 }) }
    1024 ≤ deviceLaunches s (s.team 0).part := by
  decide +kernel

theorem witness_bad_records : recordBad (List.replicate 64 0) true = some 0 ∧ (lau0.part 0).units.coreUnits.isEmpty = false ∧
    recordBad goodRec true = none ∧ aget lau0.launches lau0.serial = none := by
  decide +kernel

/-- A ring of 16 records at 0x40020000: tails 16 and 17 beyond its head, and both values that LOG2N has around its end. -/
def ring0 : State := lau0.modCtx 2 fun c => { c with sqEnable := true, sqbase := 0x40020000, sqtail := 1 }

theorem witness_queues : ringSize (ring0.ctx 2) = 16 ∧ ringSize (ring0.ctx 2) < ((17 : Word) - (ring0.ctx 2).sqhead).toNat ∧
    ((16 : Word) - (ring0.ctx 2).sqhead).toNat ≤ ringSize (ring0.ctx 2) ∧ 12 ≤ (12 : Word).toNat % 16 ∧ (11 : Word).toNat % 16 < 12 ∧
    (ring0.ctx 2).captured = none ∧ (ring0.ctx 2).sqStuck = false ∧ (ring0.ctx 2).sqhead ≠ (ring0.ctx 2).sqtail ∧
    rdAnd (agentRead ring0 2 (((ring0.ctx 2).part).getD 0) 0x40020000 256) (fun bs _ s1 => s1.ctxs == ring0.ctxs && wordsOf bs == goodRec) =
      true := by
  decide +kernel

/-- A launch with an edge to a completion record whose word at offset 24 is `w`. -/
def edged (w : Nat) : State :=
  { lau0 with
    mem := lau0.mem.write 0x40040018 (leBytes 4 w)
    launches := [(3, { ctx := 2, record := goodRec, stage := .edges, edges := [(0x40040000, [])] })] }

theorem witness_edges :
    someAnd (aget (edged 0x80000000).launches 3) (fun v => v.stage == .edges &&
      match edgeState v.ctx v.part v.edges true (edged 0x80000000) with
      | .done s1 => s1.launches == (edged 0x80000000).launches && (flushEdges (agentTeam v.ctx v.part) v.edges s1).launches == s1.launches
      | _ => false) = true ∧
    someAnd (aget (edged 0x80000001).launches 3) (fun v => v.stage == .edges &&
      match edgeState v.ctx v.part v.edges true (edged 0x80000001) with
      | .failed s1 => s1.launches == (edged 0x80000001).launches
      | _ => false) = true := by
  decide +kernel

/-- The launch ready, without teams, running with all groups placed, and ending. -/
def readied (stage : LaunchStage) (r : LRec := goodRec) : State :=
  { lau0 with teams := [], runs := [], crews := [], launches := [(3, { ctx := 2, record := r, stage := stage, placedAll := stage == .running })] }

theorem witness_launches_are_placed :
    ([3, 2, 1, 0].filterMap fun p => (waitingLaunches (readied .ready) 0 p).head?) = [3] ∧
    (placeLaunch (readied .ready) 3).isSome = true ∧ recD goodRec 8 = 0 := by
  decide +kernel

theorem witness_launches_end :
    (∀ st ∈ [LaunchStage.running, .ending], (readied st).launchTeams 3 = [] ∧
      someAnd (aget (readied st).launches 3) (fun v => v.stage == st && v.placedAll == (st == .running)) = true) ∧
    (∀ p ∈ ((readied .running).part 0).phases, p.2.launch ≠ 3) ∧ complOk (goodRec.set 16 4) = false ∧ complOk goodRec = true ∧
    someAnd (aget (readied .ending).launches 3) (fun v =>
      rdAnd (agentWrite (readied .ending) v.ctx v.part (recD v.record 64) ((complBytes v).take 24)) fun _ _ s1 =>
        rdAnd (agentWrite s1 v.ctx v.part (recD v.record 64 + 24) ((complBytes v).drop 24)) fun _ _ _ => true) = true := by
  decide +kernel

/-- R347: the word at offset 24 of a launch that ends with code 0 is 0x80000000. -/
theorem test_completion_record :
    ((after (exec (.launchEnd 3) (readied .ending))).mem.nat 0x40040018 4) = 0x80000000 := by
  decide +kernel

/-! ### Futures, phases, migration -/

/-- The record of a phased launch with carry set v4, v6. -/
def phasedRec : LRec := (goodRec.set 6 0x800100).set 24 0x0604

/-- Futures of both lanes with state words `a` and `b`; the launch has record `r`. -/
def fut0 (a b : Nat) (r : LRec := goodRec) : State :=
  { lau0 with
    mem := (tables.write 0x40020008 (leBytes 8 a)).write 0x40020108 (leBytes 8 b)
    groups := [(8, { launch := 3, n := 0, crews := [7] })]
    crews := [(7, { launch := 3, group := 8, grant := 0x1000, teams := [0], level2 := 0 })]
    launches := [(3, { ctx := 2, record := r, stage := .running, placedAll := true })] }

def xFutLd : XOps := xo 10 (.vec 12) (.vec 0) (.vec 0)
def xFutSt : XOps := xo 9 (.vec 12) (.vec 24) (.vec 0)
def fullWord : Nat := 2 ^ 63

/-- The flush markers of every thread's release have come back. -/
def gathered (s : State) : State :=
  { s with
    markers := []
    teams := s.teams.map fun kt => (kt.1, { kt.2 with threads := kt.2.threads.map fun th => { th with marker := some 9 } }) }

/-- A state in which FUT.ST's release is done: lane 0's future is empty, lane 1's full. -/
def filling : State := gathered (fut0 0 fullWord)
def grpFutSt : Grp := groupOf filling 0 both (ofX xFutSt)

/-- FUT.LD reads a future in each lane, all with `full`, and its waits have room. -/
def futB (s : State) (full : Bool) (n : Nat) : Bool :=
  let g := groupOf s 0 both (ofX xFutLd)
  let r := g.lanesS s (futLdLane xFutLd 0)
  let vs := r.1.filterMap fun p => match p.2 with | .ok v => some (p.1, v) | .error _ => none
  let s2 := setThreads r.2 0 false (vs.map fun p => (p.1, p.2.2))
  goesB s 0 both (ofX xFutLd) (fun st => opChecks st (Instr.shape (.futLd xFutLd)) (ofX xFutLd)) false
    (srcRegs (Instr.shape (.futLd xFutLd)).a xFutLd.a ++ dstRegs false (Instr.shape (.futLd xFutLd)).d 10) false &&
  settledB s both (ofX xFutLd) && lanesOk g s (futLdLane xFutLd 0) && decide (execLanes s both (ofX xFutLd) = [0, 1]) &&
  (vs.all fun p => futFull p.2.1.st == full) && futureRoom s2 (s2.team 0).part n && !(s2.crew 7).sideEffects

theorem witness_futures_are_read :
    futB (fut0 fullWord fullWord) true 0 = true ∧ futB (fut0 0 0) false 2 = true ∧ futB (fut0 fullWord fullWord phasedRec) true 0 = true ∧
    recPhased ((fut0 0 0).recOf ((fut0 0 0).team 0)) = false ∧
    recPhased ((fut0 0 0 phasedRec).recOf ((fut0 0 0 phasedRec).team 0)) = true ∧ ((fut0 0 0).team 0).crew = some 7 ∧
    ((fut0 0 0).crew 7).frozen = none := by
  decide +kernel

theorem witness_futures_are_filled :
    goesB filling 0 both (ofX xFutSt) (fun st => opChecks st (Instr.shape (.futSt xFutSt)) (ofX xFutSt)) false
      (srcRegs (Instr.shape (.futSt xFutSt)).a xFutSt.a ++ srcRegs (Instr.shape (.futSt xFutSt)).b xFutSt.b ++
        dstRegs false (Instr.shape (.futSt xFutSt)).d 9) true = true ∧
    okAnd (grpFutSt.release filling .device) (fun s0 => lanesOk grpFutSt s0 (futStLane xFutSt 0 grpFutSt.here)) = true ∧
    grpFutSt.e.Nodup ∧ (fut0 0 0).mem.wf = true ∧ (fut0 0 0).ucopies = [] ∧ futFull fullWord = true ∧
    futFull (fullWord - 1) = false ∧
    okAnd (futureAt (fut0 0 0) 0 0 0x40020000) (fun q => q.1.xl.mode != .swm && !q.1.xl.master) = true := by
  decide +kernel

/-- R393: a full future keeps its value and answers 1; an empty one is filled and answers 0. -/
theorem test_futures :
    let t := after (exec (.futSt xFutSt) filling)
    (t.thread 0 0).vreg 9 = 0 ∧ (t.thread 0 1).vreg 9 = 1 ∧ t.mem.nat 0x40020000 8 = 32 ∧ t.mem.nat 0x40020100 8 = 0 := by
  decide +kernel

/-- A phased crew before PHASE.END, and at its end. -/
def phase0 : State := fut0 0 0 phasedRec
def phaseEnded : State := after (exec (.phaseEnd xNone) phase0)
/-- The record of the phase is ready. -/
def phaseReady : State :=
  { phaseEnded with
    crews := [], teams := [], runs := [], cur := none
    parts := [(0, { lau0.part 0 with phases := [(9, phaseOf phaseEnded 7 0 0 false)], phaseReady := [9] })] }

theorem witness_phases_end : goesB phase0 0 both (ofX xNone) (fun _ => none) false [] false = true ∧ settledB phase0 both (ofX xNone) = true ∧
    execLanes phase0 both (ofX xNone) = [0, 1] ∧
    ∀ l ∈ [0, 1], lateFault (laneOf phase0 both l) = none ∧ phaseCarry phase0 (phase0.team 0) (laneOf phase0 both l) = none := by
  decide +kernel

theorem witness_phase_records : (aget phaseEnded.crews 7).isSome = true ∧ phaseOver { phaseEnded with runs := [] } 7 = true ∧
    (∃ kt ∈ ({ phaseEnded with runs := [] } : State).crewTeams 7, kt.2.allExited = false) ∧
    (∀ kt ∈ ({ phaseEnded with runs := [] } : State).crewTeams 7, teamDrained { phaseEnded with runs := [] } kt.1 = true ∧
      ∀ th ∈ kt.2.threads, th.ops = []) ∧
    ((phaseEnded.part (phaseEnded.launch 3).part).phases.filter fun r => !r.2.first) = [] := by
  decide +kernel

theorem witness_pool_has_room : poolFull { phaseEnded with runs := [] } 0 = false := by
  have h : ((({ phaseEnded with runs := [] } : State).part 0).phases.filter fun r => !r.2.first) = [] := by decide +kernel
  simp only [poolFull, h]
  simp

theorem witness_phases_resume :
    (phaseReady.part 0).phaseReady = [9] ∧ someAnd (aget (phaseReady.part 0).phases 9) (fun pr =>
      decide (crewCores phaseReady (phaseReady.part 0) (phaseReady.launch pr.launch).record ≠ []) && pr.teams.length == 1 &&
      pr.teams.all fun t => t.threads.all fun p => p.carry.length == (recCarry phasedRec).length) = true ∧
    (recCarry phasedRec) = [4, 6] ∧ (recCarry phasedRec).Nodup ∧ ∀ c ∈ recCarry phasedRec, c < memTeam.threads.length + 118 := by
  decide +kernel

/-- MIGRATE for an address of die 0; teams that wait for die 0 and 1; the partition has core units of both dies. -/
def xMigrate : XOps := xo 0 (.vec 12) (.vec 0) (.vec 0)
def migrating (d : Nat) : State :=
  { mem0 with
    runs := []
    parts := [(0, { units := { coreUnits := [0, 20], lodestars := [], granules := [], bankUnits := [] } })]
    teams := [(0, { memTeam with threads := memTeam.threads.map fun th => { th with wait := some (.migrate d) } })] }
def landing : State := { mem0 with runs := [], teams := [(0, { memTeam with slot := Config.landingSlot, crew := none })] }

theorem witness_migration :
    readsB mem0 (.migrate xMigrate) xMigrate (migrateLane xMigrate) = true ∧
    (∀ d ∈ [0, 1], someAnd (aget (migrating d).teams 0) (fun tm => migrateTo tm == some d && tm.die == 0 &&
      (tm.threads.all fun th => th.ops.isEmpty)) = true ∧ teamDrained (migrating d) 0 = true) ∧
    (∃ c ∈ coresOnDie ((migrating 1).part 0) 1, ∀ kt ∈ (migrating 1).teams,
      kt.2.kind = .user → kt.2.core = c → kt.2.slot ≠ Config.landingSlot) ∧
    someAnd (aget landing.teams 0) (fun tm => tm.slot == Config.landingSlot && decide ((slotTeams landing tm.core).length < 62) &&
      decide ((slotTeams landing tm.core).foldl (fun n t => n + t.alloc) 0 + tm.alloc ≤ Config.rows)) = true ∧
    landing.runs = [] := by
  decide +kernel

/-! ### Shipped sections -/

/-- A partition with a Lodestar, whose threads ship to the lock at v14:15 the entry v12:13. -/
def ship0 : State :=
  gathered { mem0 with parts := [(0, { units := { coreUnits := [0], lodestars := [0], granules := [], bankUnits := [] } })] }

def xShip (dst : BitVec 7) : XOps := xo dst (.vec 12) (.vec 14) (.vec 30)

/-- The premises of SHIP and SHIP.A, computed. -/
def shipB (i : Instr) (x : XOps) (trk : Bool) {α : Type} (lane : Scope → DWord → State → LCtx → Thread → Except AccStop (α × Thread × State)) :
    Bool :=
  let g := groupOf ship0 0 both (ofX x)
  let sc := shipScope i (ofX x) ship0 g
  goesB ship0 0 both (ofX x) (fun st => opChecks st i.shape (ofX x)) false (regsOf i.shape (ofX x) false) trk &&
    settledB ship0 both (ofX x) && decide g.e.Nodup && okAnd (g.release ship0 sc) fun s0 => lanesOk g s0 (lane sc g.here)

theorem witness_ships :
    (∀ n ∈ [(0 : BitVec 3), 6], shipB (.ship n (xShip 8)) (xShip 8) false
      (fun sc here s L th => shipLane n (xShip 8) sc 0 s.serial here s L th) = true) ∧
    ∀ n ∈ [(0 : BitVec 3), 6], shipB (.shipA n (xShip 9)) (xShip 9) true
      (fun sc here s L th => shipALane n (xShip 9) sc 0 s.serial here s L th) = true := by
  decide +kernel

/-- A lane of SHIP and of SHIP.A: its operands, its request and its token. -/
theorem witness_ship_lanes :
    let L := (groupOf ship0 0 both (ofX (xShip 8))).lctx ship0 0
    let th := ship0.thread 0 0
    lostTrap th .device = none ∧
    okAnd (logOperands (.ship 6 (xShip 8)) (ofX (xShip 8)) (Instr.shape (.ship 6 (xShip 8))) 0 L th) (fun q =>
      isOk (prepareShip false 6 1 ship0 L q.1 (.thread 0 0 none ship0.serial))) = true ∧
    okAnd (logOperands (.shipA 6 (xShip 9)) (ofX (xShip 9)) (Instr.shape (.shipA 6 (xShip 9))) 0 L th) (fun q =>
      freeSlotOf q.2 == some 0 && isOk (prepareShip true 6 1 ship0 L q.1 (.thread 0 0 (some 0) q.2.shipCount)) &&
        isOk (writeDst L (Instr.shape (.shipA 6 (xShip 9))).d 9 [sectionToken q.2.shipCount 0] q.2)) = true := by
  decide +kernel

/-- An aligned entry and a misaligned one. -/
theorem witness_ship_checks : isCanon 0x40020000 = true ∧ isCanon 0x40020002 = true ∧ isCanon 0x40030000 = true ∧
    (0x40020002 : DWord).toNat % 4 ≠ 0 ∧ (0x40020000 : DWord).toNat % 4 = 0 ∧
    okAnd (ship0.piece 0 0 .load 0x40030000 1) (fun q => q.1.xl.ty != .peer) = true := by
  decide +kernel

/-- A request to home 0 from thread 0. -/
def req : ShipReq :=
  { home := 0, entry := 0x10000, lock := 0x40030000, args := [7, 8], sender := .thread 0 0 none 5, workid := 1, coreId := 0
    device := 0, ctx := 2, asid := 0, origin := some (0, 0), fromHome := none, rrec := none }

/-- A device with the words of an instruction at the entry 0x10000, a region that admits it, and a home. -/
def home0 (i : Instr) (h : Home) (regions : List Region := [{ start := 0x10000, stop := 0x20000, asid := 0, remote := false, rrec := 0 }]) :
    State :=
  { ship0 with
    mem := ship0.mem.write 0x10000 (leBytes 4 (soloHeader (getAt 0 i.encode 0 / 2 ^ 25)).toNat ++ i.encode.flatMap (leBytes 4))
    homes := [(0, h)], parts := [(0, { ship0.part 0 with regions := regions })] }

/-- A request of the same sender to the same lock sent before `req`, still on its way. -/
def behindOne : State := (home0 (.sentry xNone) {}).push (.sectionRequestArrival req)

/-- A die that no path reaches: both of its links are down. -/
def cutOff : State := { home0 (.sentry xNone) {} with links := [false, true, true, false] }

theorem witness_requests_wait_or_fail :
    overtakes behindOne { req with order := 1 } = true ∧ overtakes behindOne req = false ∧ overtakes cutOff { req with home := 64 } = false ∧
    homeDead cutOff { req with home := 64 } = true := by
  decide +kernel

theorem witness_requests_arrive :
    overtakes (home0 (.sentry xNone) {}) req = false ∧ overtakes (home0 (.sentry xNone) { queue := List.replicate 1024 req }) req = false ∧
    homeDead (home0 (.sentry xNone) {}) req = false ∧ ((home0 (.sentry xNone) {}).home 0).waiting = [] ∧
    ((home0 (.sentry xNone) {}).home 0).queue.length < 1024 ∧
    homeDead (home0 (.sentry xNone) { queue := List.replicate 1024 req }) req = false ∧
    1024 ≤ ((home0 (.sentry xNone) { queue := List.replicate 1024 req }).home 0).queue.length := by
  decide +kernel

theorem witness_sections_start :
    let s := home0 (.sentry xNone) { queue := [req] }
    let n := home0 (.sentry xNone) { queue := [req], waiting := [req] } []
    (s.home 0).team = none ∧ takeRequest (s.home 0) = some (req, {}) ∧ (regionFor (s.part (partOfHome s 0)) req).isSome = true ∧
    (n.home 0).team = none ∧ takeRequest (n.home 0) = some (req, { queue := [req] }) ∧ regionFor (n.part (partOfHome n 0)) req = none := by
  decide +kernel

/-- The section's team before its entry check; its first instruction SENTRY, and EXIT. -/
def sectioned (i : Instr) : State :=
  let s := home0 i { team := some 4 }
  { s with teams := s.teams ++ [(4, sectionTeam s 0 req { start := 0, stop := 0, asid := 0, remote := false, rrec := 0 })] }

def isSentry (i : Instr) : Bool :=
  match i with
  | .sentry _ => true
  | _ => false

theorem witness_entry_checks : ∀ i ∈ [Instr.sentry xNone, .sret xNone],
    okAnd (fetchClause (sectioned i) ((sectioned i).team 4) req.entry) (fun q =>
      match q.1.words with
      | w0 :: ws => okAnd (wordChecks ((sectioned i).team 4) false w0 (getAt 0 ws 0)) fun j => j == i
      | [] => false) = true ∧
    req.fromHome ≠ some req.home ∧ ({ req with fromHome := some 0 } : ShipReq).fromHome = some req.home ∧
    (isSentry i ↔ i = .sentry xNone) := by
  decide +kernel

/-- A section in a run of its thread, before SENTRY and after it. -/
def inSection (entered : Bool) : State :=
  { home0 (.sentry xNone) { team := some 4 } with
    teams := [(4, { memTeam with
      kind := .lodestar, core := 0, crew := none, launch := none, sentry := entered, sectionReq := some req
      threads := [{ thr (place 0) with marker := some 9 }] })]
    runs := [{ runOf [0] with team := 4, pipe := 0 }] }

theorem witness_sentry_and_sret :
    (∀ b ∈ [false, true], goesB (inSection b) 0 { runOf [0] with team := 4 } (ofX xNone) (fun _ => none) false [] false = true ∧
      ((inSection b).team 4).kind = .lodestar ∧ ((inSection b).team 4).sentry = b) ∧
    goesB ship0 0 both (ofX xNone) (fun _ => none) false [] false = true ∧ (ship0.team 0).kind ≠ .lodestar ∧
    settledB (inSection true) { runOf [0] with team := 4 } (ofX xNone) = true ∧
    execLanes (inSection true) { runOf [0] with team := 4 } (ofX xNone) = [0] ∧
    (laneOf (inSection true) { runOf [0] with team := 4 } 0).lost = none ∧ 
    isOk ((groupOf (inSection true) 0 { runOf [0] with team := 4 } (ofX xNone)).release (inSection true)
      (sectionScope ((inSection true).team 4))) = true := by
  decide +kernel

/-- A section that has ended, and one that has run its budget. -/
def ended : State := (inSection true).modTeam 4 fun t => { t with sectionEnd := some (.results [1, 2, 3, 4]) }
def spent : State := (inSection true).modTeam 4 fun t => { t with sectionCycles := 2 ^ 24 }
/-- Senders: a thread that waits for its results in v8 on, and one with a slot. -/
def sending : State :=
  mem0.modThread 0 0 fun th => { th with wait := some (.ship 8 5), slots := [(2, { seq := 5, result := none })] }

/-- Ended by a fault, and with a store still queued. -/
def faulted : State := ended.modTeam 4 fun t => { t with sectionEnd := some (.faulted 7) }
def unquiet : State := ended.modThread 4 0 fun th =>
  { th with ops := [{ id := 3, dsts := [9], dc := 0, win := 0, decided := true, doomed := none }] }

theorem witness_sections_leave :
    (∀ s ∈ [ended, faulted], (s.home 0).team = some 4 ∧ (s.team 4).sectionReq = some req ∧ sectionQuiet s 4 = true ∧
      okAnd (match (s.team 4).sectionEnd with
        | some e => faultRelease s 4 e
        | none => .error s) (fun s1 => (s1.team 4).sectionReq == some req && s1.home 0 == s.home 0) = true) ∧
    sectionQuiet unquiet 4 = false ∧ (unquiet.home 0).team = some 4 ∧ (unquiet.team 4).sectionEnd = some (.results [1, 2, 3, 4]) ∧
    ((home0 (.sentry xNone) {}).home 0).team = none ∧ takeRequest ((home0 (.sentry xNone) {}).home 0) = none ∧
    someAnd (aget (inSection true).teams 4) (fun tm => decide (tm.sectionCycles < 2 ^ 24)) = true := by
  decide +kernel

theorem witness_sections_end :
    (ended.home 0).team = some 4 ∧ (ended.team 4).sectionEnd = some (.results [1, 2, 3, 4]) ∧ sectionQuiet ended 4 = true ∧
    (ended.team 4).sectionReq = some req ∧ (spent.home 0).team = some 4 ∧
    someAnd (aget spent.teams 4) (fun tm => tm.kind == .lodestar && tm.sentry && decide (2 ^ 24 ≤ tm.sectionCycles) &&
      tm.sectionEnd.isNone && (tm.thread 0).status == .live && (tm.thread 0).recorded == []) = true ∧
    someAnd (aget sending.teams 0) (fun tm => decide (0 < tm.threads.length) && (tm.thread 0).wait == some (.ship 8 5) &&
      aget (tm.thread 0).slots 2 == some { seq := 5, result := none }) = true := by
  decide +kernel

/-- R380: the four results reach v8 to v11 of the sender. -/
theorem test_results_arrive :
    let t := after (exec (.sectionResultArrival { sender := .thread 0 0 none 5, result := .results [1, 2, 3, 4] }) sending)
    [8, 9, 10, 11].map (t.thread 0 0).vreg = [1, 2, 3, 4] ∧ (t.thread 0 0).wait = none := by
  decide +kernel

/-! ### Flares -/

/-- Context 2 with a handler team, which may raise vectors 0 to 2 in the three modes and not 3; `pending` vectors. -/
def flare0 (t : Team := memTeam) (ctx : Ctx → Ctx := id) : State :=
  (gathered { mem0 with teams := [(0, t)] }).modCtx 2 fun c => ctx
    { c with flareTeam := some 0, flareEntry := 0x20000, perms := [{ words := [0xC0000002, 0, 0xFFFFFFFF, 0xFFFFFFFF, 0xE4, 0, 0, 0] }] }

def pendingAt (v : Nat) (c : Ctx) : Ctx := c.setVector v { pending := true, payload := 6, count := 255 }

theorem witness_raises : (2 : Nat) < 256 ∧ ((flare0).ctx 2).enabled = true ∧
    (∀ p ∈ [(0, some 0), (1, some 1), (2, some 2), (3, none), (63, some 0)], raiseMode ((flare0).ctx 2) 0xC0000002 p.1 = p.2) ∧
    raiseMode ((flare0).ctx 2) 0xC0000001 0 = none ∧ ((flare0).ctx 2).vectors.length = 64 ∧ ((flare0).ctx 9).enabled = false ∧
    fld (0xC0000002 : Word).toNat 30 2 ≠ 2 ∧ fld (0x80020002 : Word).toNat 30 2 = 2 := by
  decide +kernel

/-- R404: offsets of the window at and beyond RAISE; a raise by LD 0 that the table does not allow. -/
theorem witness_window : (0x200 : Nat) ≤ 0x200 ∧ 0x1F8 < 0x200 ∧ 0x1F8 % 8 = 0 ∧ 4 % 8 ≠ 0 ∧
    (raiseFlare (flare0) 2 0x40000000 63 5).1 = 2 ∧
    (raiseFlare (flare0 memTeam fun c => { c with perms := [{ words := [0x40000000, 0, 1, 0, 0, 0, 0, 0] }] }) 2 0x40000000 0 5).1 = 0 := by
  decide +kernel

/-- R402: sums are clamped and the count stops at 255. -/
theorem test_raises_combine :
    (({ payload := 6, count := 255 } : Flare).combine 0 1 9).payload = 15 ∧
    (({ payload := 6, count := 255 } : Flare).combine 1 1 (BitVec.ofInt 64 (-3))).payload = BitVec.allOnes 64 ∧
    (({ payload := 6, count := 255 } : Flare).combine 2 1 9).payload = 9 ∧ (({ payload := 6, count := 255 } : Flare).combine 2 1 9).count = 255 := by
  decide +kernel

/-- The same with its launch running and no run. -/
def standing (s : State) : State := { s with runs := [], cur := none, launches := s.launches.map fun p => (p.1, { p.2 with stage := .running }) }

/-- The handler team between two runs, its lane 1 waiting at its monitor. -/
def delivering : State :=
  standing (flare0 { memTeam with threads := [thr (place 0), { thr (place 1) with wait := some .monitor }] } (pendingAt 5))

theorem witness_flare_delivery :
    someAnd (aget delivering.teams 0) (fun tm => tm.kind == .user && tm.ctx == 2 && !inHandler tm &&
      (entering tm).all fun l => !(tm.thread l).owesFlare) = true ∧
    (delivering.ctx 2).flareTeam = some 0 ∧ (delivering.ctx 2).flareEntry ≠ 0 ∧ atBoundary delivering 0 = true ∧
    (delivering.ctx 2).vectors.length = 64 ∧ lowestFlare (delivering.ctx 2) = some 5 ∧ entering (delivering.team 0) = [0, 1] := by
  decide +kernel

theorem test_flare_delivery :
    let t := after (exec (.flareDelivery 2) delivering)
    (t.thread 0 1).inFlare = true ∧ (t.thread 0 1).flareRpc = (delivering.thread 0 1).pc ∧ ((t.ctx 2).vector 5).pending = false ∧
    ((t.team 0).flareRec.map (·.1)) = some 5 := by
  decide +kernel

/-- FLARE.SEND of v24 (context 32), vector 5, payload v8:9; the forms of the handler. -/
def xSend : XOps := xo 9 (.vec 24) (.lit 5) (.vec 8)
def xMask (form : BitVec 7) : XOps := xo 10 (.vec 24) (.lit form) (.vec 0)
def xLook (v : BitVec 7) : XOps := xo 12 (.lit v) (.vec 0) (.vec 0)
def grpSend : Grp := groupOf (flare0) 0 both (ofX xSend)

theorem witness_flare_send :
    goesB (flare0) 0 both (ofX xSend) (fun st => opChecks st (Instr.shape (.flareSend xSend)) (ofX xSend)) false
      (regsOf (Instr.shape (.flareSend xSend)) (ofX xSend) false) true = true ∧ grpSend.e.Nodup ∧
    okAnd (grpSend.release (flare0) (flareScope xSend (flare0) grpSend)) (fun s0 =>
      lanesOk grpSend (bumped s0) (flareSendLane xSend (flareScope xSend (flare0) grpSend) grpSend.here)) = true ∧
    targetDevice (flare0) 32 = none := by
  decide +kernel

/-- A synchronous flare and another one on their way. -/
def raising (w : Word) : State :=
  flare0 { memTeam with threads := [{ thr (place 0) with ops := [{ id := 4, dsts := [9], dc := 0, win := 0, decided := false, doomed := none, what := .flare w }] }, thr (place 1)] }

theorem witness_flare_outcomes : ([(0x80000020 : Word), 0x20].all fun w =>
      someAnd (opOf ((raising w).thread 0 0) 4) (fun o => o.what == .flare w && (writeResult (raising w) 0 0 4 o.dsts [1]).isSome)) = true ∧
    (0x80000020 : Word).getLsbD 31 = true ∧ (0x20 : Word).getLsbD 31 = false := by
  decide +kernel

theorem witness_flare_handler_forms :
    (∀ form ∈ [(0 : BitVec 7), 1, 2], effB (flare0) (.flareMask (xMask form)) (ofX (xMask form)) (fun _ => none) (flareMaskLane (xMask form)) = true ∧
      (xMask form).b.bits = form.toNat ∧
      isOk (srcA ((groupOf (flare0) 0 both (ofX (xMask form))).lctx (flare0) 0) .int .w64 (ofX (xMask form)) ((flare0).thread 0 0)) = true) ∧
    (∀ v ∈ [(0 : BitVec 7), 63], effB (flare0) (.flareRead (xLook v)) (ofX (xLook v)) (fun _ => none) (flareLookLane (xLook v) false) = true ∧
      effB (flare0) (.flareAck (xLook v)) (ofX (xLook v)) (fun _ => none) (flareLookLane (xLook v) true) = true ∧
      okAnd (srcA ((groupOf (flare0) 0 both (ofX (xLook v))).lctx (flare0) 0) .int .w32 (ofX (xLook v)) ((flare0).thread 0 0)) (fun q =>
        decide (q.1.lo.toNat < 64)) = true) ∧
    ((flare0).team 0).kind = .user := by
  decide +kernel

/-- Threads in both handlers, that return to the clauses at 0x10000 and 0x20000. -/
def inHandlers : State :=
  flare0 { memTeam with threads := memTeam.threads.map fun th =>
    { th with inFlare := true, inUser := true, flareRpc := mkResume 0x10000 0, tpc := mkResume 0x20000 0, tcause := 9, marker := some 9 } }

theorem witness_handler_returns :
    goesB inHandlers 0 both (ofX xNone) (fun _ => none) false [] false = true ∧ settledB inHandlers both (ofX xNone) = true ∧
    (inHandlers.team 0).kind ≠ .lodestar ∧ execLanes inHandlers both (ofX xNone) = [0, 1] ∧
    ∀ l ∈ [0, 1], (laneOf inHandlers both l).inFlare = true ∧ (laneOf inHandlers both l).inUser = true ∧
      resumeCheck inHandlers (inHandlers.team 0) (laneOf inHandlers both l).flareRpc = none ∧
      resumeCheck inHandlers (inHandlers.team 0) (laneOf inHandlers both l).tpc = none := by
  decide +kernel

/-! ### Traps and timers -/

def softRec (c : Cause := .softwareTrap) : Recorded :=
  { trap := { cause := c, tval := 5, tpc := mkResume 0x10000 1 }, log := none, resume := mkResume 0x10000 1 }

theorem witness_taking_traps :
    someAnd (aget mem0.teams 0) (fun tm => [0, 1].all fun l => decide (l < tm.threads.length) && (tm.thread l).recorded == [] &&
      (tm.thread l).ops == [] && (tm.thread l).replay == []) = true ∧
    Cause.softwareTrap.route ≠ .k ∧ Cause.machineCheck.route = .k ∧ [0, 1].Nodup := by
  decide +kernel

def xTrap : XOps := xo 0 (.vec 24) (.vec 0) (.vec 0)

theorem witness_software_traps : readsB mem0 (.trap xTrap) xTrap (readWord32 xTrap) = true ∧
    readsB mem0 (.bkpt xTrap) xTrap (readWord32 xTrap) = true := by
  decide +kernel

/-- R417: the trap's cause and value; the thread stays at its place in TPC. -/
theorem test_software_trap :
    let t := after (exec (.trap xTrap) mem0)
    (t.thread 0 0).status = .parked ∧ (t.thread 0 0).tval = 32 ∧ (t.thread 0 0).tcause = BitVec.ofNat 32 Cause.softwareTrap.code := by
  decide +kernel

/-- Lane 1 trapped, the team between two runs. -/
def parked1 (rc : Recorded := softRec) : State :=
  { standing mem0 with
    teams := [(0, { memTeam with trapbase := 0x20000, threads := [thr (place 0), { thr (place 1) with status := .parked, recorded := [rc] }] })] }

theorem witness_user_handler : someAnd (aget parked1.teams 0) (fun tm => tm.kind == .user && tm.trapbase != 0 &&
      (tm.threads.all fun th => !th.inUser) && decide (1 < tm.threads.length) &&
      firstTrapped tm ((List.range tm.threads.length).filter fun l => wantsHandler (tm.thread l)) == some 1) = true ∧
    atBoundary parked1 0 = true := by
  decide +kernel

/-- A team whose deadline is `d` at cycle 100; lane 0 owes TEAM_TIMER, or DEADLINE as well. -/
def timed (d : DWord) : State := { mem0 with cycles := 100, teams := [(0, { memTeam with deadline := d })] }
def owing (d : Option DWord) : State :=
  { standing mem0 with
    teams := [(0, { memTeam with threads := [{ thr (place 0) with owedTimer := true, owedDeadline := d }, thr (place 1)] })] }

theorem witness_timers :
    ([(0 : DWord), 100, 101].all fun d => someAnd (aget (timed d).teams 0) (fun tm => tm.deadline == d && tm.resident)) = true ∧
    (timed 100).cycles.toNat = 100 ∧
    ([none, some (100 : DWord)].all fun d => someAnd (aget (owing d).teams 0) (fun tm => decide (0 < tm.threads.length) &&
      ((List.range tm.threads.length).filter fun l =>
        canLeave (tm.thread l) && ((tm.thread l).owedDeadline.isSome || (tm.thread l).owedTimer)) == [0] &&
      (tm.thread 0).recorded == [] && (tm.thread 0).owedDeadline == d) && atBoundary (owing d) 0) = true := by
  decide +kernel

/-- R421: DEADLINE is taken first; TCAUSE is 15. -/
theorem test_owed_traps :
    let t := after (exec (.owedTimerTrap 0) (owing (some 100)))
    (t.thread 0 0).tcause = 15 ∧ (t.thread 0 0).tval = 100 ∧ (t.thread 0 0).owedTimer = true := by
  decide +kernel

/-! ### The mailbox and the context switch -/

def svcEntry : MboxEntry :=
  { ticket := 5, taken := false, src := .svc 0 0, words := [5, 0x202, 0, 0, 0, 0, 1, 0, 77, 0, 9, 0, 1, 2, 3, 4] }
def noticeEntry (t : Nat) : MboxEntry := { ticket := t, taken := false, src := .notice, words := List.replicate 16 0 }

/-- Core 0 with entries and waiting events; lane 0 of the user team waits as given. -/
def mail0 (box wait : List MboxEntry) (w : Wait := .svc 8 none) (cycles : Nat := 0) : State :=
  { mem0 with
    cores := [(0, { mailbox := box, mailboxWait := wait })], cycles := BitVec.ofNat 64 cycles
    teams := [(0, { memTeam with threads := [{ thr (place 0) with wait := some w }, thr (place 1)] })] }

theorem witness_mailbox_posts :
    ((mail0 [] [svcEntry]).core 0).mailboxWait = [svcEntry] ∧ freeTicket ((mail0 [] [svcEntry]).core 0) = some 0 ∧
    freeTicket ((mail0 ((List.range 64).map noticeEntry) [svcEntry]).core 0) = none ∧ svcEntry.src = .svc 0 0 ∧
    ((mail0 [] [svcEntry]).thread 0 0).wait = some (.svc 8 none) ∧ 0 < ((mail0 [] [svcEntry]).team 0).threads.length := by
  decide +kernel

def xSvc : XOps := xo 8 (.vec 24) (.lit 3) (.vec 32)

theorem witness_service_calls : readsB mem0 (.svc xSvc) xSvc (svcLane xSvc) = true ∧
    (∀ c ∈ [2 ^ 20 - 1, 2 ^ 20], (mail0 [] [svcEntry] (.svc 8 none) c).cycles.toNat = c ∧
      someAnd (aget (mail0 [] [svcEntry] (.svc 8 none) c).teams 0) (fun tm => (tm.thread 0).stamp == 0 &&
        (tm.thread 0).wait == some (.svc 8 none) && (tm.thread 0).recorded == [] &&
        (mail0 [] [svcEntry]).mailCore tm == 0 && decide (0 < tm.threads.length)) = true) ∧
    ((mail0 [] [svcEntry]).core 0).mailboxWait.find? (fun e => e.src == .svc 0 0) = some svcEntry := by
  decide +kernel

/-- MBOX.TAKE to v12:13 and MBOX.PUT of ticket v6, disposal 0, quad v32 on, in the supervisor team. -/
def xTake : XOps := xo 9 (.vec 12) (.vec 0) (.vec 0)
def xPut : XOps := xo 9 (.vec 6) (.lit 0) (.vec 32)
def boxed (box : List MboxEntry) : State :=
  { supState with
    cores := [(0, { mailbox := box })]
    teams := [(0, { supTeam with threads := [{ thr (place 0) with wait := some (.mbox 3 9 0x40020000) }, thr (place 1)] })] }

theorem witness_mailbox_forms :
    goesB supState 0 both (ofX xTake) (fun st => opChecks st (Instr.shape (.mboxTake xTake)) (ofX xTake)) false
      (srcRegs (Instr.shape (.mboxTake xTake)).a xTake.a ++ dstRegs false (Instr.shape (.mboxTake xTake)).d 9) false = true ∧
    settledB supState both (ofX xTake) = true ∧ execLanes supState both (ofX xTake) = [0, 1] ∧
    okAnd (srcA ((groupOf supState 0 both (ofX xTake)).lctx supState 0) .int .w64 (ofX xTake) (supState.thread 0 0)) (fun q =>
      q.1.toNat % 64 == 0) = true ∧
    effB supState (.mboxPut xPut) (ofX xPut) (fun _ => none) (mboxPutLane xPut) = true ∧
    someAnd (aget (boxed [noticeEntry 5]).teams 0) (fun tm => untaken ((boxed [noticeEntry 5]).core tm.core) == some (noticeEntry 5) &&
      (tm.thread 0).wait == some (.mbox 3 9 0x40020000) && decide (0 < tm.threads.length) &&
      rdAnd (writeVirtual 0 tm (some tm.agent) (chunks 3 0x40020000 64) (bytesOfWords (noticeEntry 5).words) (boxed [noticeEntry 5]))
        fun _ _ s1 => s1.teams == (boxed [noticeEntry 5]).teams && s1.cores == (boxed [noticeEntry 5]).cores) = true := by
  decide +kernel

/-- Disposals: an absent ticket, a notice, a call with a new request ID and with a recorded one. -/
def answered (olds : List (DWord × List Word)) : State :=
  (mail0 [svcEntry] [] (.svc 8 (some 5))).modCtx 2 fun c => { c with outcomes := olds }

theorem witness_disposals :
    (∀ e ∈ ((boxed [noticeEntry 5]).core 0).mailbox, e.ticket ≠ 4) ∧
    ((boxed [noticeEntry 5]).core 0).mailbox.find? (fun e => e.ticket == 5) = some (noticeEntry 5) ∧
    ((answered []).core 0).mailbox.find? (fun e => e.ticket == 5) = some svcEntry ∧
    ((answered []).thread 0 0).wait = some (.svc 8 (some 5)) ∧
    ((answered []).ctx ((answered []).team 0).ctx).outcomes.find? (fun p => p.1 == DWord.ofPair 0 77) = none ∧
    ((answered [(77, [6, 6, 6, 6])]).ctx ((answered []).team 0).ctx).outcomes.find? (fun p => p.1 == DWord.ofPair 0 77) =
      some (77, [6, 6, 6, 6]) ∧
    (getAt 0 svcEntry.words 10).toNat ∉ [1, 2, 5, 6] := by
  decide +kernel

/-- A trapped thread with its logged load, and the entry about it. -/
def faultLog : LogRec := { at_ := mkResume 0x10000 1, instr := .nop xNone, a := 0, b := 0, c := [], base := 0, data := [] }
def faultRec : Recorded :=
  { trap := { cause := .pageNotPresent, tval := 0x40020000, tpc := mkResume 0x10000 1 }, log := some faultLog, resume := mkResume 0x10000 1 }
def faultEntry : MboxEntry :=
  { ticket := 5, taken := true, src := .threads 0
    words := [5, BitVec.ofNat 32 Cause.pageNotPresent.code, 0x40020000, 0, (mkResume 0x10000 1).lo, (mkResume 0x10000 1).hi, 2, 0, 0, 0, 0, 0, 0, 0, 0, 0] }

theorem witness_replays :
    let s := { parked1 faultRec with cores := [(0, { mailbox := [faultEntry] })] }
    (s.core 0).mailbox.find? (fun e => e.ticket == 5) = some faultEntry ∧ (s.team 0).kind = .user ∧ 1 < (s.team 0).threads.length ∧
    lanesOf (getAt 0 faultEntry.words 6) = [1] ∧ (s.thread 0 1).status = .parked ∧ (s.thread 0 1).recorded = [faultRec] ∧
    (s.thread 0 1).replay = [] ∧ faultRec.trap.cause.route = .s ∧
    (getAt 0 faultEntry.words 1).toNat % 256 = faultRec.trap.cause.code ∧
    DWord.ofPair (getAt 0 faultEntry.words 3) (getAt 0 faultEntry.words 2) = faultRec.trap.tval ∧
    DWord.ofPair (getAt 0 faultEntry.words 5) (getAt 0 faultEntry.words 4) = faultRec.trap.tpc := by
  decide +kernel

/-- A supervisor thread that halts, and CTX.SAVE and CTX.LOAD of context v6 (5 and 6) at v12:13. -/
def xCtx : XOps := xo 9 (.vec 6) (.vec 12) (.vec 24)
def halted : State := { supState with teams := [(0, { supTeam with threads := [{ thr (place 0) with wait := some .halted }, thr (place 1)] })] }
/-- A user team of context 5 beside the supervisor team, in a run or stopped; the core is stopping contexts 5 and 6. -/
def switching (saving : List Nat) (user : Bool) : State :=
  { supState with
    cores := [(0, { saving := saving })]
    runs := both :: (if user then [{ both with team := 9, pipe := 1 }] else [])
    teams := (0, supTeam) :: (if user then [(9, { memTeam with ctx := 5 })] else []) }

theorem witness_context_forms :
    goesB supState 0 both (ofX xNone) (fun _ => none) false [] false = true ∧ settledB supState both (ofX xNone) = true ∧
    (halted.thread 0 0).wait = some .halted ∧ (halted.team 0).kind = .supervisor ∧ (halted.team 0).core = 0 ∧
    (supState.ctx 2).captured = none ∧ someAnd (aget supState.launches 3) (fun v => v.ctx == 2 && v.stage == .edges) = true ∧
    (∀ p ∈ [([], false), ([5, 6], true), ([5, 6], false)],
      goesB (switching p.1 p.2) 0 both (ofX xCtx) (fun st => opChecks st (Instr.shape (.ctxSave xCtx)) (ofX xCtx)) false
        (regsOf (Instr.shape (.ctxSave xCtx)) (ofX xCtx) false) false = true) ∧
    ctxsNamed xCtx (switching [] false) (groupOf (switching [] false) 0 both (ofX xCtx)) = [5, 6] ∧
    (∃ k ∈ ctxTeams (switching [5, 6] true) 0 5, teamStopped (switching [5, 6] true) k = false) ∧
    (∀ c ∈ [5, 6], ∀ k ∈ ctxTeams (switching [5, 6] false) 0 c, teamStopped (switching [5, 6] false) k = true) ∧
    effB (switching [5, 6] false) (.ctxSave xCtx) (ofX xCtx) (fun _ => none) (ctxSaveLane xCtx) = true ∧
    effB supState (.ctxLoad xCtx) (ofX xCtx) (fun _ => none) (ctxLoadLane xCtx) = true ∧
    okAnd (areaPages supTeam .load 1 0x40020000 supState) (fun q => (q.2.ctx 5).saved == []) = true ∧
    (0xFFF : DWord).toNat < 4096 ∧ 4096 ≤ (0x1000 : DWord).toNat := by
  decide +kernel

/-- The run of a save has moved on. -/
theorem witness_save_ends : (after (exec (.ctxSave xCtx) (switching [5, 6] false))).runs ≠ (switching [5, 6] false).runs := by
  decide +kernel

/-- A team that is saved with one thread at a monitor. -/
theorem witness_saved_threads :
    let s := mail0 [] [] .monitor
    0 < (s.team 0).threads.length ∧ (s.thread 0 0).wait = some .monitor ∧ (s.thread 0 1).wait = none := by
  decide +kernel

/-! ### Selection -/

/-- Two teams on one pipe: the second of higher priority. -/
def picking : State :=
  let s := standing mem0
  { s with
    mem := s.mem.write 0x10000 (leBytes 4 0x30000000), teams := [(0, { memTeam with slot := 0 }), (4, { memTeam with slot := 1, prio := 3 })] }

theorem witness_selection :
    pipeBusy mem0 0 0 = true ∧ pipeBusy picking 0 0 = false ∧ pipeBusy (standing { mem0 with teams := [] }) 0 0 = false ∧
    (selectGroup (pipeGroups (visited picking 0 0) 0 0)).isSome = true ∧
    pipeGroups (visited (standing { mem0 with teams := [] }) 0 0) 0 0 = [] := by
  decide +kernel

theorem test_priority_first :
    ((after (exec (.runSelection 0 0) picking)).runs.map fun r => (r.team, r.lanes)) = [(4, [0, 1])] := by
  decide +kernel

/-! ### Token coherence -/

def a0 : AgentId := { die := 0, id := 0 }
def a1 : AgentId := { die := 0, id := 1 }
def line0 : Nat := 0x20000 / 128

/-- The line of 0x20000 with holdings and a directory entry. -/
def tok (hs : List Holding) (d : DirEntry := {}) : State := { mem0 with hold := hs, dir := [(line0, d)] }
def holds1 (a : AgentId) (n : Nat) (own : Bool) : Holding := { agent := a, line := line0, tokens := n, owner := own, dirty := own, valid := true }

/-- The directory names agent 1. -/
def named1 : DirEntry := dirAdd {} (dirId line0 a1)

theorem witness_read_misses :
    (∀ hs ∈ [[], [holds1 a1 1023 true], [holds1 a1 1024 true]], (tok hs).holdsLine a0 line0 = false) ∧
    claimedByOther ((tok []).entry line0) a0 = false ∧
    (homeTokens (openLine (tok []) line0) line0).1 = 1024 ∧ (homeTokens (openLine (tok [holds1 a1 1023 true]) line0) line0).1 = 1 ∧
    (homeTokens (openLine (tok [holds1 a1 1024 true]) line0) line0).1 = 0 ∧
    (openLine (tok [holds1 a1 1024 true]) line0).hold.find? (fun h => h.line == line0 && h.owner) = some (holds1 a1 1024 true) ∧ a1 ≠ a0 := by
  decide +kernel

theorem witness_tokens_move :
    (∀ n ∈ [1, 2, 1024], holdingOf (tok [holds1 a1 n true]) a1 line0 = some (holds1 a1 n true) ∧
      (tok [holds1 a1 n true]).hold.filter (fun h => h.line == line0 && h.agent == a1) = [holds1 a1 n true] ∧
      releaseBusy (tok [holds1 a1 n true]) line0 [holds1 a1 n true] = false) ∧
    ((tok []).entry line0).collecting = none ∧ ((tok [] { collecting := some a0 }).entry line0).collecting = some a0 ∧
    dirId line0 a1 < 180 ∧ dirId line0 a1 ≠ dirId line0 a0 ∧
    dirNames ((openLine (tok [holds1 a1 1 false] named1) line0).entry line0) (dirId line0 a1) = true ∧ a1.id < 177 ∧
    (tok [holds1 a1 1 false]).roomFor a1 line0 = tok [holds1 a1 1 false] ∧
    (tok [holds1 a1 1 false]).hold.filter (fun h => h.line == line0 && h.agent == a1) = [holds1 a1 1 false] ∧
    (homeTokens (tok [holds1 a1 1 false]) line0) = (1023, true) ∧
    ((tok [holds1 a1 5 true] { collecting := some a0 }).entry line0).collecting = some a0 := by
  decide +kernel

/-- The proxy of die 1 at die 0 answers for what die 1 holds; a full message of agent 2. -/
def a2 : AgentId := { die := 1, id := 7 }
def proxy1 : AgentId := { die := 0, id := 181 }

theorem witness_proxies :
    181 ≤ proxy1.id ∧ proxy1.id < 184 ∧ claimedByOther ((tok [holds1 a2 3 true]).entry line0) a0 = false ∧
    (let far := fun (h : Holding) => h.line == line0 && h.agent != a0 && h.agent.die == (proxy1.die + (proxy1.id - 180)) % 4
     releaseBusy (tok [holds1 a2 3 true]) line0 ((tok [holds1 a2 3 true]).hold.filter far) = false ∧
     0 < (tokensOf ((tok [holds1 a2 3 true]).hold.filter far)).tokens) := by
  decide +kernel

/-- R127: the proxy of die 1 gathers what that die holds and answers. -/
theorem test_a_proxy_answers : (after (exec (.invalidation proxy1 a0 line0) (tok [holds1 a2 3 true]))).flight =
    [.tokenDataResponse a0 line0 { tokens := 3, owner := true, dirty := true }] := by
  decide +kernel

def askFor (fails at_ : Nat) : Ask := { agent := a0, write := true, at_ := at_, fails := fails }

theorem witness_persistent_requests :
    (∀ fails ∈ [1, 2], ∀ at_ ∈ [52, 53], let s : State := { tok [] { asks := [askFor fails at_] } with cycles := 2100 }
      askOf (s.entry line0) a0 = some (askFor fails at_) ∧ (askFor fails at_).met s line0 = false ∧
      (decide (at_ + 2048 ≤ s.cycles.toNat)) = (at_ == 52)) ∧
    (let s := tok [holds1 a0 1024 true] { asks := [askFor 0 0] }
     askOf (s.entry line0) a0 = some (askFor 0 0) ∧ (askFor 0 0).met s line0 = true) ∧
    (let used := fun (s : State) =>
       s.dir.foldl (fun n p => if homeSlice p.1 = homeSlice line0 then n + p.2.persistent.length else n) 0
     used (tok [] { persistent := List.replicate 7 a1 }) = 7 ∧ used (tok [] { persistent := List.replicate 8 a1 }) = 8) ∧
    a0 ∉ ((tok [] { persistent := List.replicate 8 a1 }).entry line0).persistent ∧
    ((tok [holds1 a1 5 true] { persistent := [a0] }).entry line0).persistent = [a0] ∧
    (∃ h ∈ (openLine (tok [holds1 a1 5 true] { persistent := [a0] }) line0).hold, h.line = line0 ∧ h.agent ≠ a0 ∧ 0 < h.tokens) ∧
    (let s := tok [holds1 a1 5 true] { persistent := [a0] }
     releaseBusy s line0 (s.hold.filter fun h => h.line == line0 && h.agent != a0) = false) ∧
    (∀ b ∈ [true, false], ((tok [] { persistent := [a0, a1], active := true, served := b }).entry line0).active = true ∧
      ((tok [] { persistent := [a0, a1], active := true, served := b }).entry line0).persistent = [a0, a1] ∧
      ((tok [] { persistent := [a0, a1], active := true, served := b }).entry line0).served = b) ∧
    agentBusy { loading with dir := [(line0, { persistent := [memTeam.agent], active := true })] } memTeam.agent = true ∧
    agentBusy (tok [] { persistent := [a0, a1], active := true }) a1 = false := by
  decide +kernel

/-- R125, R129: the owner of all tokens keeps 1023 of them; after the third failure the request is persistent. -/
theorem test_tokens :
    ((holdingOf (after (exec (.forwardedRequest a1 a0 line0) (tok [holds1 a1 1024 true]))) a1 line0).map (·.tokens)) = some 1023 ∧
    (after (exec (.requestFailure a0 line0) { tok [] { asks := [askFor 2 52] } with cycles := 2100 })).flight =
      [.persistentRequest a0 line0] := by
  decide +kernel

theorem witness_update_only_mode : uEligible .add .s32 = true ∧ watched (tok []) line0 = false ∧ ((tok []).entry line0).active = false ∧
    ((tok []).entry line0).collecting = none ∧ (carried (tok []) line0).1 = 0 ∧
    releaseBusy (tok []) line0 ((tok []).hold.filter fun h => h.line == line0) = false ∧
    (someAnd (cacheShape a0) fun c => decide (((tok []).inSet a0 c.1 line0).length < c.2)) = true := by
  decide +kernel

theorem witness_memory_agents : (3 : Nat) < 4 ∧
    isOk (mem0.xlate 0 [.last] true (mem0.ctx 2).xrec true .range 0x20000) = true ∧
    isOk (mem0.xlate 0 [.last] true (mem0.ctx 2).xrec true .range 0x200000000) = false ∧
    derivesFrom storing none [8] = false ∧ (∃ ln, derivesFrom storing none [ln] = true) := by
  refine ⟨by decide, by decide +kernel, by decide +kernel, by decide +kernel, 0x1000 / 128, by decide +kernel⟩

/-- R95, R103: the snoop of a page-table line waits for a store that was translated through it. -/
theorem test_snoop_waits : (after (exec (.hostSnoop (0x1000 / 128)) { storing with flight := [] })).flight = [.hostSnoop (0x1000 / 128)] := by
  decide +kernel

/-! ### Commands, links, accesses from outside, attestation -/

/-- Device 5 as a peer, head 0 trained, function 2 bound to partition 0 with core unit, Lodestar and granule 0; partition
0 admits device 5's partition 1; logical device 3 orphaned. -/
def host0 : State :=
  { mem0 with
    heads := [0], peers := [5]
    dev := { mem0.dev with lds := setAt mem0.dev.lds 3 { head := 1, orphaned := true } }
    parts := [(0, { units := { coreUnits := [0], lodestars := [0], granules := [0], bankUnits := [] }
                    windows := [{ granules := [0], device := 5, partition := 1 }] })] }

/-- Partition 0 confidential, function 2 in state `t`. -/
def conf0 (t : Tdi) : State :=
  ({ host0 with parts := [(0, { host0.part 0 with conf := true })] }).modCtx 2 fun c => { c with tdi := t }

def assign1 : AssignCmd :=
  { part := 1, release := false, units := { coreUnits := [1], lodestars := [1], granules := [], bankUnits := [] }, conf := false
    lockTable := 0, windows := [] }
def assignOk (s : State) (a : AssignCmd) : Bool :=
  unitsExist a.units && s.parts.all (fun p => p.1 == a.part || !unitsMeet p.2.units a.units) &&
    unitsOk (unitsAdd (s.part a.part).units a.units) && (aget s.parts a.part).isNone && !partHeld s a.part

/-- Partition 0 receives a granule more, and a Lodestar core unit more. -/
def assign0 (l : List Nat) : AssignCmd :=
  { part := 0, release := false, units := { coreUnits := [], lodestars := l, granules := [1], bankUnits := [] }, conf := false
    lockTable := 0, windows := [] }

theorem witness_standing_partitions :
    (∀ l ∈ [[], [16]], unitsExist (assign0 l).units = true ∧ unitsOk (unitsAdd (host0.part 0).units (assign0 l).units) = true) ∧
    (aget host0.parts 0).isSome = true ∧ (host0.part 0).lockTable = 0 ∧
    (unitsAdd (host0.part 0).units (assign0 []).units).lodestars = (host0.part 0).units.lodestars ∧
    (unitsAdd (host0.part 0).units (assign0 [16]).units).lodestars ≠ (host0.part 0).units.lodestars := by
  decide +kernel

theorem witness_commands :
    State.reset.dev.started = false ∧ host0.dev.started = true ∧ host0.dev.minimal = false ∧
    ({ host0.dev with minimal := true } : Dev).minimal = true ∧
    assignOk host0 { assign1 with units := { assign1.units with granules := [1] } } = true ∧ assignOk host0 assign1 = false ∧
    (host0.ctx 2).tdi = .unlocked ∧ ((conf0 .run).ctx 2).tdi = .run ∧ (aget host0.parts 0).isSome = true ∧
    0 ∈ host0.heads ∧ (getAt {} host0.dev.lds 3).orphaned = true ∧ 3 < host0.dev.lds.length ∧
    tdiHeld (host0.ctx 2) = false ∧ (host0.part 0).conf = false ∧ aget host0.qps 5 = none ∧ (host0.ctx 2).part = some 0 := by
  decide +kernel

def hostAcc (write trusted : Bool) : HostAccess := { vf := 2, pa := 0x20000, write := write, bytes := [1, 2], len := 2, trusted := trusted }

theorem witness_outside_accesses :
    accessInside (host0.part 0) 0x20000 2 = true ∧ (getAt {} host0.dev.lds (host0.ctx 2).ld).head ∈ host0.heads ∧
    ((conf0 .run).part 0).conf = true ∧ ((conf0 .locked).ctx 2).tdi ≠ .run ∧ (hostAcc true true).bytes.length ≠ 0 ∧
    5 ∈ host0.peers ∧ admitted host0 { device := 5, partition := 1, pa := 0x20000, write := true, bytes := [1], len := 0 } 1 = true ∧
    admitted host0 { device := 5, partition := 2, pa := 0x20000, write := true, bytes := [1], len := 0 } 1 = false ∧
    outsideBusy host0 (raeOf 0) 0x20000 2 = false ∧ outsideBusy host0 (portOf (dieOfPa 0x20000)) 0x20000 1 = false ∧
    outsideBusy { host0 with dir := [(0x400, { collecting := some a1 })] } (raeOf 0) 0x20000 2 = true ∧
    outsideRead { host0 with dir := [(0x400, { collecting := some a1 })] } (raeOf 0) 0x20000 2 = none ∧
    (someAnd (outsideRead host0 (portOf 0) 0x20000 2) fun q => q.1.length == 2) = true ∧ host0.views = [] ∧ host0.ucopies = [] ∧
    host0.memError 0x20000 2 = none ∧ physMode 0x20000 = .coh ∧ physMode 0x8000000000 = .home ∧
    (State.takeTokens (raeOf 0) (linesIn 0x20000 2) host0).1 = true ∧ host0.memError 0x8000000000 2 = none ∧
    (host0.port 35).up = true ∧ (host0.port 35).fails = [] ∧ (List.range 64).length ≤ 64 ∧
    keyDue host0 { keyGroup := 0, group := 2 ^ 32 } = true ∧ keyDue host0 { keyGroup := 0, group := 2 ^ 32 - 1 } = false := by
  decide +kernel

/-- R433: a trusted write of a running function reaches its confidential partition, another does not. -/
theorem test_host_writes :
    (after (exec (.cxlMemAccess (hostAcc true true)) (conf0 .run))).mem.nat 0x20000 2 = 0x201 ∧
    (after (exec (.cxlMemAccess (hostAcc true false)) (conf0 .run))).mem.nat 0x20000 2 = 0 := by
  decide +kernel

/-- A session of the responder at stage `n`, keys for IDE at stage `k`; starts that have failed `n` times. -/
def session (n k : Nat) : State := host0.modDev fun d => { d with spdm := { d.spdm with session := n }, ideKeys := k }
def failed (n : Nat) : State := State.reset.modDev fun d => { d with nor := { d.nor with fails := n } }

theorem witness_attestation_and_start_up :
    (session 1 0).dev.spdm.session = 1 ∧ (session 2 1).dev.spdm.session = 2 ∧ (session 2 1).dev.ideKeys ≠ 0 ∧
    (session 2 1).dev.started = true ∧ (session 2 1).dev.minimal = false ∧ ((session 2 0).ctx 2).tdi = .unlocked ∧
    (((session 2 0).modCtx 2 fun c => { c with tdi := .locked }).ctx 2).tdi = .locked ∧
    (∀ n ∈ [2, 3], (failed n).dev.started = false ∧ (failed n).dev.nor.fails = n) := by
  decide +kernel

/-- R454: the third failed start in a row is counted, and the next start is minimal. -/
theorem test_start_up :
    (after (exec (.boot (.failure 2 4)) (failed 2))).dev.nor.fails = 3 ∧
    (after (exec (.boot (.failure 2 4)) (failed 3))).dev.minimal = true := by
  decide +kernel

/-! ### Remote memory access -/

/-- An RMA block (R446). -/
def rmaBytes (laddr raddr len qpn rkey ctrl opa : Nat) : List Byte :=
  leBytes 8 laddr ++ leBytes 8 raddr ++ leBytes 4 len ++ leBytes 4 qpn ++ leBytes 4 rkey ++ leBytes 4 ctrl ++ leBytes 8 opa ++
    leBytes 8 0 ++ List.replicate 16 0

def goodBlock : List Byte := rmaBytes 0x40020000 0x10 32 5 0x30002 0 0
def atomBlock : List Byte := rmaBytes 0x40020000 0x10 8 5 0x30002 0 7

/-- A queue pair of context 2 that is READY, with a valid key in slot 2; blocks at the scratch addresses 0, 64 (LEN 0), 128;
a token of xq in s3. -/
def rma0 (q : QpState := .ready) (key : KeySlot := { state := .valid, tag := 3, ctx := 2, base := 0x40030000, len := 0x100, rights := 7, qpsel := 0xFFFFFFFF }) :
    State :=
  { (mem0.setKey 0 2 key) with
    qps := [(5, { ctx := 2, part := 0, remoteQp := 9, state := q, credit := 1, cached := true })]
    crews := [(7, { launch := 3, grant := 0x1000, teams := [0]
                    scratch := ((Mem.write [] 0 goodBlock).write 64 (rmaBytes 0x40020000 0x10 0 5 0x30002 0 0)).write 128 atomBlock })]
    teams := [(0, { memTeam with s := setAt memTeam.s 3 0xC0000000 })] }

def xRma (a : BitVec 7) (ty : Ty := .s4) : XOps := xo 9 (.vec a) (.vec 0) (.vec 0) ty
def xKey (op : BitVec 7) : XOps := xo 9 (.lit op) (.vec 24) (.vec 12)
def xRmaWait : XOps := xo 0 (.uni 3) (.vec 0) (.vec 0)

theorem witness_remote_forms :
    enqB (rma0) (.rmaPut (xRma 30)) (xRma 30) (prepareRma (.rmaPut (xRma 30))) = true ∧
    enqB (rma0) (.rmaGet (xRma 30)) (xRma 30) (prepareRma (.rmaGet (xRma 30))) = true ∧
    enqB (rma0) (.rmaAtom (xRma 32 .n64)) (xRma 32 .n64) (prepareRma (.rmaAtom (xRma 32 .n64))) = true ∧
    (∀ op ∈ [(0 : BitVec 7), 1, 2], enqB (rma0) (.rmaKey (xKey op)) (xKey op) (prepareKey (.rmaKey (xKey op)) (xKey op)) = true) ∧
    readsB (rma0) (.rmaWait xRmaWait) xRmaWait (rmaToken xRmaWait) = true := by
  decide +kernel

theorem witness_remote_checks :
    ownScratch (rma0) 0 0 0 64 = some goodBlock ∧ ownScratch (rma0) 0 0 64 64 = some (rmaBytes 0x40020000 0x10 0 5 0x30002 0 0) ∧
    rmaBad (.rmaPut (xRma 30)) goodBlock = none ∧ rmaBad (.rmaPut (xRma 30)) (rmaBytes 0x40020000 0x10 0 5 0x30002 0 0) = some 16 ∧
    rmaBad (.rmaAtom (xRma 32 .n64)) atomBlock = none ∧ ((rma0 .reset).qp 5).state ≠ .ready ∧ ((rma0).qp 5).ctx = 2 ∧
    (aget (rma0).qps 5).isSome = true ∧ isCanon (rmaBlock goodBlock).laddr = true ∧
    isCanon ((rmaBlock goodBlock).laddr + BitVec.ofNat 64 ((rmaBlock goodBlock).len - 1)) = true := by
  decide +kernel

/-- An operation at the head of xq: before it has sent, and when all of it has been acknowledged. -/
def rmaOp0 (i : Instr) (bs : List Byte) (row chunk : Nat := 0) : EngOp :=
  { qs := [6], instr := i, lane := 0, block := bs, args := [0], order := 4, row := row, chunk := chunk }
def sendingRma (o : EngOp) (acked : Option Nat := none) : State :=
  ((rma0).modTeam 0 fun t => { t with engq := setAt t.engq 6 { t.queue 6 with ops := [o], accepted := 1 } }).modQp 5 fun q =>
    { q with acked := acked, sent := [{ pkt := { blankPacket with psn := 7, op := if o.row = 0 then 0 else 1 }, team := 0, order := 4, tries := 6, at_ := 0 }] }

theorem witness_remote_operations :
    (∀ p ∈ [(Instr.rmaPut (xRma 30), goodBlock), (.rmaGet (xRma 30), goodBlock), (.rmaAtom (xRma 32 .n64), atomBlock)],
      let o := rmaOp0 p.1 p.2
      ((sendingRma o).team 0).queue 6 = { ((rma0).team 0).queue 6 with ops := [o], accepted := 1 } ∧ rmaDone (sendingRma o) o = false ∧
      (sendNext (sendingRma o) 0 o).isSome = true ∧ mayTransmit ((sendingRma o).qp 5) o = true ∧ o.state = .queued) ∧
    (let o := rmaOp0 (.rmaPut (xRma 30)) goodBlock 1
     rmaDone (sendingRma o (some 0)) o = true) ∧
    (let o := rmaOp0 (.rmaGet (xRma 30)) goodBlock 1 32
     rmaDone (sendingRma o) o = true) := by
  decide +kernel

/-- A key slot on its way out, with and without the operation that revokes it. -/
theorem witness_key_slots :
    ((rma0).keySlot 0 2).state ≠ .revoking ∧
    ((rma0 .ready { state := .revoking, tag := 3 }).keySlot 0 2).holder = none ∧
    (let s := sendingRma (rmaOp0 (.rmaKey (xKey 1)) [])
     (rmaOp (s.setKey 0 2 { state := .invalid }) 0 4).isSome = true) := by
  decide +kernel

/-- Requests for queue pair 5, and answers to its operation. -/
def pkt (op psn : Nat) (bs : List Byte) : Packet := { blankPacket with op := op, psn := psn, qpn := 5, rkey := 0x30002, raddr := 0x10, payload := bs, len := 8 }

theorem witness_packets :
    (pkt 0 0 [1]).ver = 1 ∧ (pkt 0 0 [1]).qpn < 2 ^ 18 ∧ (rma0).dev.started = true ∧ (rma0).dev.minimal = false ∧
    ((rma0).qp 5).cached = true ∧ ((rma0).qp 5).state = .ready ∧ ((rma0).qp 5).recvPsn = 0 ∧ ((rma0).qp 5).done = [] ∧
    (∀ op ∈ [0, 1, 3], keyCheck ((rma0).keySlot 0 (keyIndex 0x30002)) (pkt op 0 (List.replicate 20 0)) = none ∧
      (match serve (rma0) ((rma0).keySlot 0 2) 0 (pkt op 0 (List.replicate 20 0)) with
       | .ok _ _ => true
       | _ => false) = true) ∧
    keyCheck ((rma0).keySlot 0 9) (pkt 0 0 []) = some 1 ∧
    (match serve (rma0) { ((rma0).keySlot 0 2) with base := 0x200000000000000 } 0 (pkt 0 0 [1]) with
     | .bad => true
     | _ => false) = true := by
  decide +kernel

theorem witness_answers :
    (Machine.answered (sendingRma (rmaOp0 (.rmaGet (xRma 30)) goodBlock 1)) 5 7).isSome = true ∧
    ((pkt 2 7 [1, 2]).raddr - (rmaBlock goodBlock).raddr).toNat = 0 ∧
    ((sendingRma (rmaOp0 (.rmaGet (xRma 30)) goodBlock 1)).qp 5).sent.find? (fun x => x.at_ + retryCycles x.tries ≤ 2 ^ 63) ≠ none ∧
    (([{ pkt := blankPacket, team := 0, order := 4, tries := 6, at_ := 0 }] : List Sent).all fun x => decide (x.tries < 7)) = true := by
  decide +kernel

/-- R444: rights and the end of a key's range: LEN 0x100 from 0x10 on. -/
theorem test_key_checks :
    let v := (rma0).keySlot 0 2
    keyCheck { v with rights := 5 } (pkt 0 0 []) = some 3 ∧ keyCheck v { pkt 0 0 [] with len := 0xF0 } = none ∧
    keyCheck v { pkt 0 0 [] with len := 0xF1 } = some 2 := by
  decide +kernel

/-! ### Words, clauses, the step -/

/-- Opcodes of R86 in word 0, and SUB values beyond each listed range. -/
theorem witness_unassigned_words :
    ((List.range 128).all fun opc => fld (BitVec.ofNat 32 (opc * 2 ^ 25) : Word).toNat 25 7 == opc) = true ∧
    (([(1, 0x38), (2, 0x47), (3, 0x2C), (4, 0x3D), (5, 0x53), (6, 0x14), (8, 0x7D), (10, 0x22), (12, 0x28), (13, 0x20), (14, 0x10)] :
      List (Nat × Nat)).all fun p => decide (p.1 ≤ fld (BitVec.ofNat 32 p.1 : Word).toNat 0 4)) = true ∧
    supTeam.kind = .supervisor ∧ memTeam.kind ≠ .lodestar := by
  decide +kernel

/-- Predicate destinations at the ends of both ranges. -/
def xPred (d : BitVec 7) : XOps := { x2 .s32 with dst := d }

theorem witness_predicate_destinations :
    (∀ d ∈ [(0 : BitVec 7), 6], (xPred d).dst.toNat < 7) ∧ (xPred 7).dst.toNat = 7 ∧ (thr (place 0)).p.length = 8 ∧
    (∀ d ∈ [(8 : BitVec 7), 127], 8 ≤ (xPred d).dst.toNat ∧ Issuing pair0 0 (runOf [0, 1]) ∧
      NoWait pair0 (runOf [0, 1]) (ofX (xPred d)) (regsOf (Instr.shape (.icmp .ge (xPred d))) (ofX (xPred d)) false) false) := by
  refine ⟨by decide, by decide, by decide +kernel, fun d hd => ?_⟩
  fin_cases hd <;> (unfold Issuing NoWait; decide +kernel)

/-- A clause at 0x10000: COUNT, class, RUNEND, WAIT bits, words. -/
def hdrOf (count cls runEnd waits : Nat) : Nat := count * 2 ^ 28 + cls * 2 ^ 25 + runEnd * 2 ^ 24 + waits
def exitW : List Nat := (Instr.exit xNone).encode
def nopW : List Nat := (Instr.nop xNone).encode
def clauseAt (h : Nat) (ws : List Nat) : State := { mem0 with mem := mem0.mem.write 0x10000 (leBytes 4 h ++ ws.flatMap (leBytes 4)) }

/-- What the fetch of the clause answers: its cause and value, if it fails. -/
def clauseTrap (h : Nat) (ws : List Nat) : Option (Cause × DWord) :=
  match fetchClause (clauseAt h ws) memTeam 0x10000 with
  | .ok _ => none
  | .error tr => some (tr.cause, tr.tval)

/-- R33 in the order of its table, by hand: COUNT 0; class 5; a WAIT bit at COUNT, bit 15; EXIT in class 0; EXIT before the
last instruction; EXIT last without RUNEND; a clause in order. -/
theorem test_clause_checks :
    clauseTrap (hdrOf 0 5 0 0) [] = some (.illegalClause, 1) ∧ clauseTrap (hdrOf 1 5 0 0x8000) [] = some (.illegalClause, 2) ∧
    clauseTrap (hdrOf 1 3 1 2) exitW = some (.reservedField, BitVec.ofNat 64 (hdrOf 1 3 1 2)) ∧
    clauseTrap (hdrOf 1 3 1 0x8000) exitW = some (.reservedField, BitVec.ofNat 64 (hdrOf 1 3 1 0x8000)) ∧
    clauseTrap (hdrOf 1 0 1 0) exitW = some (.illegalClause, 4) ∧ clauseTrap (hdrOf 2 3 1 0) (exitW ++ exitW) = some (.illegalClause, 5) ∧
    clauseTrap (hdrOf 1 3 0 0) exitW = some (.illegalClause, 6) ∧ clauseTrap (hdrOf 1 3 1 1) exitW = none := by
  decide +kernel

theorem witness_clause_words :
    ([(hdrOf 0 5 0 0, []), (hdrOf 1 5 0 0, exitW), (hdrOf 1 3 1 2, exitW), (hdrOf 2 3 1 0, exitW ++ exitW), (hdrOf 1 3 1 0, exitW)].all
      fun p => okAnd (fetchWord (clauseAt p.1 p.2) memTeam 0x10000) fun q => q.1.toNat == p.1 &&
        isOk (fetchBody memTeam 0x10000 (hdrCount q.1) 1 q.2)) = true := by
  decide +kernel

/-- R30: with 23 instructions executed a clause of one is entered, with 24 it is not. -/
theorem witness_run_length :
    let c : Clause := { hdr := BitVec.ofNat 32 (hdrOf 1 3 1 0), words := exitW.map (BitVec.ofNat 32) }
    indexAt c.placed 1 = some 0 ∧ isOk (enterClause { runOf [0] with count := 23 } c) = true ∧
      isOk (enterClause { runOf [0] with count := 24 } c) = false := by
  decide +kernel

/-- The turn of a run at a header whose clause is right, has COUNT 0, and at an instruction; with a replaying thread. -/
def turning (h : Nat) (ws : List Nat) (needHdr : Bool) : State :=
  { clauseAt h ws with
    turns := [.issue 0], cur := none
    runs := [{ both with needHdr := needHdr, words := ws.map (BitVec.ofNat 32), hdr := BitVec.ofNat 32 h }] }

/-- The same with the line of the clause collected by another agent. -/
def claimedCode : State := { turning (hdrOf 1 3 1 0) exitW true with dir := [(0x200, { collecting := some a1 })] }

theorem witness_turns :
    (∀ b ∈ [true, false], (turning (hdrOf 1 3 1 0) exitW b).turns = [.issue 0] ∧
      (runAt (turning (hdrOf 1 3 1 0) exitW b) 0).isSome = true ∧ (turning (hdrOf 1 3 1 0) exitW b).dev.started = true ∧
      (turning (hdrOf 1 3 1 0) exitW b).dev.powerLimit = false ∧ ((turning (hdrOf 1 3 1 0) exitW b).thread 0 0).replay = []) ∧
    okAnd (fetchClause (turning (hdrOf 1 3 1 0) exitW true) memTeam 0x10000) (fun q =>
      okAnd (enterClause { both with needHdr := true } q.1) fun r' =>
        isOk (wordChecks memTeam false (getAt 0 r'.words (r'.off - 1)) (getAt 0 r'.words r'.off))) = true ∧
    isOk (wordChecks memTeam false (getAt 0 (exitW.map (BitVec.ofNat 32)) 0) (getAt 0 (exitW.map (BitVec.ofNat 32)) 1)) = true ∧
    isOk (wordChecks memTeam false (BitVec.ofNat 32 (0x7E * 2 ^ 25)) 0) = false ∧
    okAnd (fetchClause (turning (hdrOf 1 3 1 0) exitW true) memTeam 0x10000) (fun q =>
      !isOk (enterClause { both with needHdr := true, count := 24 } q.1) &&
        okAnd (enterClause { both with needHdr := true } q.1) fun r' =>
          ({ q.2 with runs := [r'] } : State).codeMisses memTeam 0x10000 r'.words.length == []) = true ∧
    okAnd (fetchClause claimedCode memTeam 0x10000) (fun q =>
      okAnd (enterClause { both with needHdr := true } q.1) fun r' =>
        ({ q.2 with runs := [r'] } : State).codeMisses memTeam 0x10000 r'.words.length == [0x200]) = true ∧
    (((turning (hdrOf 1 3 1 0) exitW false).modThread 0 0 fun th => { th with replay := [faultLog] }).thread 0 0).replay = [faultLog] := by
  decide +kernel

/-- The premises on a decoded word, a privileged one, one that a Lodestar lacks; a fetched word. -/
theorem witness_words_issue :
    (match decodeBytes (exitW.flatMap (leBytes 4)) with
     | .ok _ => true
     | .error _ => false) = true ∧
    fmtOf 0x7D ≠ .none ∧ memTeam.kind ≠ .supervisor ∧ notOnLodestar 0x3D = true ∧ fmtOf 0x3D ≠ .none ∧
    okAnd (mem0.xlateTeam memTeam .fetch 0x10000) (fun q => (q.2.unreachable memTeam.die q.1.ty q.1.pa).isNone &&
      (q.2.memError q.1.pa 4).isNone) = true := by
  decide +kernel

/-- R25, R106: the step of a turn at a header runs EXIT. -/
theorem test_step_runs_exit : (match step (turning (hdrOf 1 3 1 0) exitW true) with
    | .next t => (t.thread 0 0).status == .exited && (t.thread 0 1).status == .exited
    | _ => false) = true := by
  decide +kernel

/-! ### Encodings -/

theorem witness_encodings : (Instr.mov ⟨1, .vec 2, .vec 0⟩).encoded = true ∧ (Instr.mov ⟨1, .vec 2, .vec 0⟩).wf = true ∧
    (Instr.exit xNone).encoded = true ∧ (Instr.exit xNone).wf = true ∧ 0x20300685 < 2 ^ 32 ∧
    (decodeWords 0x20300685 0x00200187).isOk = true := by
  decide +kernel

/-! ### Operand forms -/

/-- A lane with a defined bank, elements in q0 and q4, and a full q5. -/
def opThread : Thread :=
  { thr (place 0) with
    inq := [[{ val := 7, err := none, stale := false }], [], [], []], outq := [[(1, 7)], List.replicate 16 (1, 7), [], []] }
def opCtx (defined : Bool) : LCtx :=
  { k := 0, lane := 0, team := { acc0.team 0 with kind := .user }, s := memTeam.s, acc := false, now := 1, log := none
    launch := some { constDefined := [defined], consts := [(0, [(5, 11)])] } }

theorem witness_operands :
    (opCtx true).log = none ∧ (opCtx true).launch.isSome = true ∧ ((opCtx true).launch.getD {}).cbPending = [] ∧
    getAt false ([true] : List Bool) (fld (opThread.cwin).toNat 7 3) = true ∧ getAt false ([false] : List Bool) (fld (opThread.cwin).toNat 7 3) = false ∧
    getAt [] opThread.inq 0 = [{ val := 7, err := none, stale := false }] ∧ getAt [] opThread.inq 3 = [] ∧
    (opCtx true).team.deadQueue 3 = none ∧ opThread.v.length = 120 ∧ opThread.lateFaults = [] ∧
    (∀ q ∈ [0, 1, 3], ∀ a ∈ getAt [] opThread.addrq q, a.err = none) ∧ (opCtx true).team.deadQueue 4 = none ∧
    (getAt [] opThread.outq 0).length < 16 ∧ 16 ≤ (getAt [] opThread.outq 1).length := by
  decide +kernel

def siteU : Site := { uni := false, accSlice := false, lodestar := false, hasAcc := true, alloc := 8 }

/-- The boundaries of registers, queues, uniform registers and pairs, and of the allocation. -/
theorem test_operand_checks :
    srcCheck5 siteU (.any .w32) (.vec 119) 1 = none ∧ srcCheck5 siteU (.any .w32) (.vec 123) 1 = none ∧
    srcCheck5 siteU (.any .w32) (.vec 124) 1 = some (.operandKind, 0x7C01) ∧ srcCheck5 siteU (.any .w64) (.vec 3) 2 = some (.operandKind, 0x302) ∧
    srcCheck5 siteU (.any .w32) (.uni 64) 3 = some (.operandKind, 0x4003) ∧
    srcCheck6 siteU (.any .w32) (.vec 8) 1 = some (.registerRange, 0x801) ∧ srcCheck6 siteU (.any .w32) (.vec 7) 1 = none ∧
    dstCheck5 siteU .r1 124 = none ∧ dstCheck5 siteU .r1 120 = some (.operandKind, 0x7800) ∧ dstCheck5 siteU .r4 6 = some (.operandKind, 0x600) ∧
    (opChecks (siteOf (pair0.team 0) false false) (Instr.shape (.imad false (x3 .s32))) (ofX { x3 .s32 with c := .uni 64 })).isSome = true := by
  decide +kernel

theorem witness_a_failing_operand : Issuing pair0 0 (runOf [0, 1]) ∧ NoWait pair0 (runOf [0, 1]) (ofX (x3 .s32)) [] false := by
  unfold Issuing NoWait; decide +kernel

/-! ### What a step keeps -/

theorem witness_plain_run : runAt pair0 0 = some (runOf [0, 1]) ∧ plainB pair0 (runOf [0, 1]) = true ∧
    (∀ l ∈ execLanes pair0 (runOf [0, 1]) (ofX (x3 .s32)), (laneOf pair0 (runOf [0, 1]) l).replay = []) ∧
    execLanes pair0 (runOf [0, 1]) (ofX (x3 .s32)) = [0, 1] := by
  decide +kernel

theorem witness_no_doomed : ∀ l ∈ [0, 1], (laneOf pair0 (runOf [0, 1]) l).NoDoomed := by
  have h : ∀ l ∈ [0, 1], (laneOf pair0 (runOf [0, 1]) l).ops = [] := by decide +kernel
  intro l hl o ho
  rw [h l hl] at ho; cases ho

theorem witness_a_step_of_a_canonical_state : (turning (hdrOf 1 3 1 0) exitW true).mem.wf = true ∧
    goesOn (step (turning (hdrOf 1 3 1 0) exitW true)) = true := by
  decide +kernel

/-- The word of EXIT placed after reset is decoded and run by the next step. -/
theorem test_placed_word_runs :
    decodeTableWord 64 (getAt 0 exitW 0 + getAt 0 exitW 1 * 2 ^ 32) = some (.exit xNone) ∧
    (match step (State.reset.withFetchWord 64 (getAt 0 exitW 0 + getAt 0 exitW 1 * 2 ^ 32)) with
     | .next t => (t.thread 0 0).status == .exited
     | _ => false) = true := by
  decide +kernel

/-- R364: three fates of two lanes: a misaligned target, a place with room, and a call from a full stack. -/
theorem witness_transfers_of_several_lanes :
    (∀ s ∈ [pair0, full], ∀ l ∈ [0, 1], (laneOf s (runOf [0, 1]) l).recorded = [] ∧ undecided (laneOf s (runOf [0, 1]) l) = false) ∧
    (let targets : List (Nat × DWord) := [(0, 0x10012), (1, 0x10010)]
     (targets.map (·.1)).Nodup ∧ (∀ p ∈ targets, p.1 ∈ [0, 1]) ∧ (getAt (0, 0) targets 0).2.toNat % 4 ≠ 0) ∧
    plainB { full with runs := [runOf [0, 1]] } (runOf [0, 1]) = true ∧
    (∀ l ∈ [0, 1], 16 ≤ (laneOf full (runOf [0, 1]) l).callStack.length) ∧
    ∀ l ∈ [0, 1], (laneOf pair0 (runOf [0, 1]) l).callStack.length < 16 := by
  decide +kernel

/-- LDS and STS of `mem0`'s lane 0, whose scratch address is 16, at an offset. -/
def lane8 (v : Nat) : Thread := { th0 with v := setAt th0.v 8 (BitVec.ofNat 32 v) }
theorem witness_scratch_accesses :
    let n := 4
    (∀ v ∈ [0xFFC, 0x1000, 0xFFE, 0x400000],
      okAnd (memLog (.lds mLds) mLds (placeOf both) false (ctxM mLds) (lane8 v)) (fun q => addrOf q.1.base mLds == BitVec.ofNat 64 v) = true ∧
      okAnd (memLog (.sts mLds) mLds (placeOf both) true (ctxM mLds) (lane8 v)) (fun q =>
        addrOf q.1.base mLds == BitVec.ofNat 64 v && q.2.lost.isNone) = true) ∧
    mem0.scratchAt 0 0xFFC n = some (7, 0xFFC) ∧ mem0.scratchAt 0 0x1000 n = none ∧ (0xFFE : Nat) % 4 ≠ 0 ∧
    mem0.scratchAt 0 0x280000 n = none ∧ mem0.scratchAt 0 0x200000 n = some (7, 0) ∧ mem0.scratchAt 0 0x400000 n = none ∧
    okAnd (memLog (.lds (mo 9 4 (-4) .b32)) (mo 9 4 (-4) .b32) (placeOf both) false (ctxM (mo 9 4 (-4) .b32)) (lane8 0))
      (fun q => decide (2 ^ 32 ≤ (addrOf q.1.base (mo 9 4 (-4) .b32)).toNat)) = true ∧
    (mem0.team 0).crew = some 7 ∧ (∃ kt ∈ mem0.teams, kt.2.crew = some 7 ∧ kt.2.resident = true) ∧
    (∀ c' ∈ ((aget mem0.groups (mem0.crew 7).group).getD {}).crews, (mem0.crew c').core ≠ 1) := by
  decide +kernel

def xRed0 : XOps := { xAtom 12 with dst := 0 }
def redding (s : State) (th : Thread) (f : LogRec → Thread → Bool) : Bool :=
  okAnd (logOperands (.red .add xRed0) (ofX xRed0) (Instr.shape (.red .add xRed0)) (placeOf both)
    ((groupOf s 0 both (ofX xRed0)).lctx s 0) th) fun q => f q.1 q.2
def ported : State := { mem0 with parts := [(0, { ports := [0x40020000] })] }
def poisoned : State := { mem0 with poison := [0x40020000 / 128] }

theorem witness_reductions_at_issue :
    redding mem0 { th0 with v := setAt th0.v 12 0x40020002 } (fun lr _ => lr.a.toNat % 4 == 2) = true ∧
    (∀ p ∈ [(mem0, false, none), (ported, true, none), (poisoned, false, some Cause.memoryPoison)],
      redding p.1 th0 (fun lr th => lr.a.toNat % 4 == 0 && !rangeBusy th lr.a 8 &&
        okAnd (p.1.piece 0 0 (.atomic (wideScope xRed0.scope) false) lr.a 4) fun q =>
          p.1.portIn q.1.xl.pa 4 == p.2.1 && (p.1.unreachable 0 q.1.xl.ty q.1.xl.pa).isNone &&
          (q.2.redReach memTeam.agent q.1.xl lr.a 4).memErrorFor (some memTeam.agent) q.1.xl.mode q.1.xl.pa 4 == p.2.2) = true) := by
  decide +kernel

/-! Loads that end: with two lanes on the same bytes, of LDRO, LDMON and LDS, and of a queue with room and a full one. -/

def opIn (what : OpKind) (dsts : List Nat) : TOp := { id := 5, dsts := dsts, dc := 2, win := 0, decided := true, doomed := none, what := what }
def ending (what : OpKind) (dsts : List Nat) (lanes : List Nat := [0, 1]) (data : List (Nat × Word) := []) : State :=
  { mem0 with
    runs := [], cur := none
    teams := [(0, { memTeam with
      acc := (soloTeam .user).acc
      threads := mapAt (fun l (th : Thread) =>
        if l ∈ lanes then { th with ops := [opIn what dsts], outq := setAt th.outq 0 data } else th) 0 memTeam.threads })] }

/-- The premises of a load's end for lanes and their words: its operation is in flight, and what it reads is there. -/
def endsB (s : State) (m : MOps) (a : DWord) (ro mon : Bool) (lanes : List Nat) (n : Nat) : Bool :=
  someAnd (aget s.teams 0) fun tm => someAnd (opOf (tm.thread (getAt 0 lanes 0)) 5) fun o =>
    o.what == .load m a ro mon && sameOp tm 5 o.what == lanes && (lanes.all fun j => loadReady tm j 5) &&
    okAnd (s.pieces 0 (getAt 0 lanes 0) .load m a (some o.order)) fun q =>
      (lanes.all fun j => !ownBefore tm j 5 q.1) &&
      rdAnd (match ro && tm.kind != .lodestar, q.1 with
        | true, p :: _ => readRo q.2 tm p
        | _, ps => readPieces q.2 tm.agent ps) fun bs _ s2 => s2.teams == s.teams && (loadWords m a bs).length == n

def fliesB (s : State) (lanes : List Nat) (dsts : List Nat) : Bool :=
  lanes.all fun j => someAnd (opOf (s.thread 0 j) 5) fun o =>
    (s.thread 0 j).ops.filter (fun x => x.id == 5) == [o] && o.doomed.isNone && o.dsts == dsts

theorem witness_loads_end :
    (∀ p ∈ [(mo 9 6 4 .b32, false, false, 1), (mo 9 6 4 .b32, true, false, 1), (mo 9 6 4 .b32, false, true, 1), (mo 8 6 0 .b64, false, false, 2),
        (mo 8 6 0 .b128, false, false, 4), (mo 9 6 1 .s8, false, false, 1), (mo 9 6 2 .s16, false, false, 1)],
      ∀ lanes ∈ [[0, 1], [1]],
      let d := p.1.data.toNat
      let s := ending (.load p.1 0x40020010 p.2.1 p.2.2.1) (List.range' d p.2.2.2) lanes
      d + p.2.2.2 ≤ 120 ∧ endsB s p.1 0x40020010 p.2.1 p.2.2.1 lanes p.2.2.2 = true ∧ fliesB s lanes (List.range' d p.2.2.2) = true ∧
        (s.thread 0 1).v.length = 120) ∧
    (∀ data ∈ [[], List.replicate 16 (9, (0 : Word))],
      let s := ending (.load mHome 0x40020010 false false) [124] [1] data
      endsB s mHome 0x40020010 false false [1] 1 = true ∧ fliesB s [1] [124] = true ∧
        (pushFault (s.thread 0 1) 0).isNone = true ∧ ((s.team 0).deadQueue 4).isNone = true ∧ (s.thread 0 1).outq.length = 4 ∧
        (getAt [] (s.thread 0 1).outq 0).length = data.length) ∧
    (let s := ending (.lds mLds 16) [9]
     fliesB s [0, 1] [9] = true ∧ okAnd (s.scratchPlace 0 16 (sizeBytes mLds.size)) (fun p => p == (7, 16)) = true ∧
       ∀ j ∈ [0, 1], loadReady (s.team 0) j 5 = true) := by
  decide +kernel

/-- R189: lane 1's word of a halfword 0xBEEF is extended by its sign, and both lanes have their result. -/
theorem test_a_signed_load_ends :
    let s := ending (.load (mo 9 6 0 .s16) 0x40020000 false false) [9]
    let t := after (exec (.loadDataReturn 0 0 5) { s with mem := s.mem.write 0x40020000 [0xEF, 0xBE] })
    (t.thread 0 0).vreg 9 = 0xFFFFBEEF ∧ (t.thread 0 1).vreg 9 = 0xFFFFBEEF ∧ (t.thread 0 1).ops = [] := by
  decide +kernel

theorem witness_atomic_types : ∀ ty ∈ [Ty.n32, .s32, .n64, .s64, .b32, .b64, .f32, .f64],
    (mem0.swmCopy memTeam.agent (lineOf 0x40020000)).isNone = true ∧ tyBytes ty ≤ 8 := by
  decide +kernel

/-! Store queues of one entry: of STS, of a packed element, of RED with and without a U copy, and to be translated again. -/

def oneEntry : StoreEntry :=
  { lane := 0, op := 1, dc := some 2, writes := wholeBytes 0x40020000 [1, 2, 3, 4], va := 0x40020000, mode := .home, ty := .dram
    master := false, scratch := none, scope := .thread, placeholder := false, red := none }
def queued (e : StoreEntry) (s : State := mem0) : State := { s with teams := [(0, { memTeam with storeq := [e] })], runs := [], cur := none }

def stsEntry : StoreEntry := { oneEntry with scratch := some 7, writes := wholeBytes 16 [1, 2, 3, 4] }
def packedEntry : StoreEntry := { oneEntry with packed := true, mode := .coh, writes := [(0x20000, 5, 0xF)], va := 0x20000 }
def redEntry (pa : Nat) (mode : PageMode) : StoreEntry :=
  { oneEntry with red := some (.add, .n32, 5), mode := mode, writes := wholeBytes pa [5, 0, 0, 0], va := BitVec.ofNat 64 pa }
def uCopied : State :=
  { mem0 with ucopies := [{ agent := memTeam.agent, line := 0x20000 / 128, op := .add, ty := .n32, vals := [] }] }
def scored : State := { mem0 with cores := [(0, { score := [{ order := 4, source := false, crew := 7, lo := 0, hi := 20 }] })] }

/-- The premises of an entry's performance. -/
def performsB (s : State) : Bool :=
  someAnd (aget s.teams 0) fun tm => someAnd (tm.storeq.find? fun e => !heldStore tm e) fun e =>
    !earlierData tm e.lane e.op && !earlierLoad (tm.thread e.lane) e.op && e.scope == .thread && !marksAt e.scope &&
      !derivesFrom s (some 0) ((e.writes.map fun w => lineOf w.1).eraseDups) &&
      (s.unreachable tm.die e.ty ((e.writes.head?.map (·.1)).getD 0)).isNone

theorem witness_entries_perform :
    (∀ s ∈ [queued stsEntry, queued stsEntry scored, queued packedEntry, queued (redEntry 0x40020000 .home),
      queued (redEntry 0x20000 .coh) uCopied], performsB s = true) ∧
    (queued stsEntry).scoreHolds 7 16 4 none = false ∧ (queued stsEntry scored).scoreHolds 7 16 4 none = true ∧
    (queued packedEntry).homeBlocked (0x20000 / 128) = false ∧
    (uTarget (queued (redEntry 0x40020000 .home)) (queued (redEntry 0x40020000 .home) |>.team 0) (redEntry 0x40020000 .home)).isNone = true ∧
    (queued (redEntry 0x40020000 .home)).needWrite memTeam.agent .home (0x40020000 / 128) = false ∧
    (uTarget (queued (redEntry 0x20000 .coh) uCopied) (queued (redEntry 0x20000 .coh) |>.team 0) (redEntry 0x20000 .coh)).isSome = true := by
  decide +kernel

/-- R159, R191: STS writes the scratchpad and the entry is gone. -/
theorem test_a_scratch_store_performs :
    let t := after (exec (.storePerform 0) (queued stsEntry))
    (t.crew 7).scratch.nat 16 4 = 0x04030201 ∧ (t.team 0).storeq = [] ∧ t.mem = mem0.mem := by
  decide +kernel

/-- An entry to be translated again: in a present page, in one that is not, and at an address outside the canonical form. -/
theorem witness_retranslation :
    (∀ a ∈ [0x40020000, 0x200000000, 0x8000000000000000], performsB (queued { oneEntry with again := true, va := BitVec.ofNat 64 a }) = true) ∧
    (match mem0.retranslate 0 { oneEntry with again := true } with
      | .ok e _ => e.again == false && e.writes.map (·.1) == oneEntry.writes.map (·.1)
      | _ => false) = true ∧
    (match mem0.retranslate 0 { oneEntry with again := true, va := 0x200000000 } with
      | .wait _ => true
      | _ => false) = true ∧
    (match mem0.retranslate 0 { oneEntry with again := true, va := 0x8000000000000000 } with
      | .lost _ => true
      | _ => false) = true ∧ 0 < memTeam.threads.length := by
  decide +kernel

/-! Fences behind a load to be replayed and behind pushed data. -/

def doomedOp : TOp :=
  { id := 1, dsts := [9], dc := 2, win := 3, decided := true, what := .load mHome 0x40020004 false false
    doomed := some { trap := { cause := .pageNotPresent, tval := 0, tpc := 0 }, log := none, resume := place 0 0 |>.zext } }
def toReplay : State := { mem0 with serial := 9, teams := [(0, { memTeam with threads := memTeam.threads.map fun th => { th with ops := [doomedOp] } })] }
def pushedData : State :=
  { mem0 with teams := [(0, { memTeam with
      acc := (soloTeam .user).acc
      threads := memTeam.threads.map fun th => { th with outq := setAt th.outq 0 [(1, 5)], addrq := setAt th.addrq 0 [{ addr := 0x40020000, bytes := 4, err := none }] } })] }

theorem witness_fences_park_or_wait :
    (∀ s ∈ [toReplay, pushedData], goesB s 0 both (ofX (xFence .core)) (fun _ => none) false [] false = true) ∧
    (execLanes toReplay both (ofX (xFence .core))).filter (fun l => loadToReplay (laneOf toReplay both l) toReplay.serial) = [0, 1] ∧
    (execLanes pushedData both (ofX (xFence .core))).filter (fun l => loadToReplay (laneOf pushedData both l) pushedData.serial) = [] ∧
    (execLanes pushedData both (ofX (xFence .core))).filter (fun l => fenceBusy (pushedData.team 0) l) = [0, 1] ∧
    (∀ l ∈ [0, 1], stuckBehindHole (pushedData.team 0) l = false ∧ stuckAtBank (pushedData.team 0) l = false) ∧
    (∀ s ∈ [mem0, marked []], ∀ j ∈ [0, 1], loadToReplay (laneOf s both j) s.serial = false) ∧
    (∀ l ∈ [0, 1], stuckBehindHole ((again storing).team 0) l = false ∧ stuckAtBank ((again storing).team 0) l = false) ∧
    (execLanes (again storing) both (ofX (xFence .core))).filter (fun l => loadToReplay (laneOf (again storing) both l) (again storing).serial) = [] := by
  decide +kernel

/-! Ranges: ready, behind pushed data, behind the lane's own load, and with a result queue that is full. -/

def rangingPushed : State :=
  ranging.modTeam 0 fun t => { t with
    acc := (soloTeam .user).acc
    threads := t.threads.map fun th => { th with outq := setAt th.outq 0 [(0, 5)], addrq := setAt th.addrq 0 [{ addr := 0x40020000, bytes := 4, err := none }] } }
def rangingLoad : State :=
  ranging.modTeam 0 fun t => { t with threads := t.threads.map fun th => { th with ops := { opIn0 with id := 0 } :: th.ops } }
where opIn0 : TOp := { id := 0, dsts := [11], dc := 1, win := 0, decided := true, doomed := none, what := .load mHome 0x40020004 false false }
def rangingFull : State :=
  ranging.modTeam 0 fun t => { t with
    acc := (soloTeam .user).acc
    threads := t.threads.map fun th => { th with outq := setAt th.outq 0 (List.replicate 16 (9, 5)) } }

theorem witness_ranges_are_ready :
    rangeReady (ranging.team 0) 0 1 = true ∧ rangeReady (rangingBefore.team 0) 0 1 = true ∧ rangeReady (rangingFull.team 0) 0 1 = true ∧
    earlierLoad (rangingLoad.thread 0 0) 1 = true ∧ earlierData (rangingPushed.team 0) 0 1 = true ∧
    pagesWait ranging (ranging.team 0) 0x40020000 32 = false ∧ teamBound ranging 0 = true ∧
    isOk (resultIn ranging 0 0 1 [9] [0]) = true ∧
    (match resultIn rangingFull 0 0 1 [124] [0] with
      | .error .hold => true
      | _ => false) = true := by
  decide +kernel

/-! CBLOAD at a source that an earlier range instruction of the thread still walks, and elsewhere; EXIT of a section and slice. -/

theorem witness_cbload_waits :
    okAnd (logOperands (.cbload xCb) (ofX xCb) (Instr.shape (.cbload xCb)) (placeOf both)
      ((groupOf mem0 0 both (ofX xCb)).lctx mem0 0) (mem0.thread 0 0)) (fun q => !rangeBusy q.2 q.1.b 8) = true ∧
    goesB (again ranging) 0 both (ofX xCb) (fun st => opChecks st (Instr.shape (.cbload xCb)) (ofX xCb)) false
      (srcRegs (Instr.shape (.cbload xCb)).b xCb.b ++ srcRegs (Instr.shape (.cbload xCb)).c xCb.c) true = true ∧
    okAnd (logOperands (.cbload xCb) (ofX xCb) (Instr.shape (.cbload xCb)) (placeOf both)
      ((groupOf (again ranging) 0 both (ofX xCb)).lctx (again ranging) 0) ((again ranging).thread 0 0)) (fun q => rangeBusy q.2 q.1.b 8) = true ∧
    ∀ j < (cbloading.team 0).threads.length, earlierRange (cbloading.thread 0 j) 1 = false := by
  decide +kernel

theorem witness_exits_of_sections_and_slices :
    (let s := at_ { duo with kind := .lodestar }
     goesB s 0 both (ofX xNone) (fun _ => none) false [] false = true ∧ (s.team 0).kind = .lodestar) ∧
    (let r := { runOf [0] with acc := true, pipe := accessPipe }
     goesB slice0 0 r (ofX xNone) (fun _ => none) false [] false = true ∧ execLanes slice0 r (ofX xNone) = [0] ∧
       goesB slice0 0 r (ofX { xNone with pneg := true }) (fun _ => none) false [] false = true ∧
       execLanes slice0 r (ofX { xNone with pneg := true }) = []) := by
  decide +kernel

/-- A row moves: a read and several writes answer. -/
def movesB (s : State) (b : CpyBlk) (from_ : Int) (writes : List Byte → List (DWord × List Byte)) : Bool :=
  rdAnd (engineRead s 0 b.sspace (BitVec.ofInt 64 from_) (b.cols * b.esize)) fun bs _ s1 =>
    rdAnd (engineWrites 0 b.dspace 0 (writes bs) s1) fun _ _ _ => true

/-- Rows of the other forms: transposed, gathered and scattered by an index list, multicast, and quantised by rows and by
columns; and a list of 32 values to quantise. -/
theorem witness_rows_of_every_form :
    (let b := cpyBlock 0 .b32 (block 0x40020000 0x400 2 4 16 16 (4 + 64) 0 0)
     b.form = 0 ∧ b.tr = true ∧ movesB eng0 b (b.src + 1 * b.sstr) (fun bs => (List.range b.cols).map fun (c : Nat) =>
       (BitVec.ofInt 64 (b.dsta + c * b.dstr + (1 * b.esize : Nat)), (bs.drop (c * b.esize)).take b.esize)) = true) ∧
    (let b := cpyBlock 1 .b32 (block 0x40020000 0x400 2 4 16 16 20 0x800 0)
     b.form = 1 ∧ rdAnd (engineRead eng0 0 b.xspace (BitVec.ofNat 64 (b.aux2 + 4 * 1)) 4) (fun ib _ s1 =>
       movesB s1 b (b.src + (BitVec.ofNat 32 (leNat ib)).toInt * b.sstr) fun bs => [(BitVec.ofInt 64 (b.dsta + 1 * b.dstr), bs)]) = true) ∧
    (let b := cpyBlock 2 .b32 (block 0x400 0x40020000 2 4 16 16 17 0x800 0)
     b.form = 2 ∧ rdAnd (engineRead eng0 0 b.xspace (BitVec.ofNat 64 (b.aux2 + 4 * 1)) 4) (fun ib _ s1 =>
       movesB s1 b (b.src + 1 * b.sstr) fun bs =>
         [(BitVec.ofInt 64 (b.dsta + (BitVec.ofNat 32 (leNat ib)).toInt * b.dstr), bs)]) = true) ∧
    (let b := cpyBlock 3 .b32 (block 0x40020000 0x400 2 4 16 16 0x1004 0 0)
     b.form = 3 ∧ movesB eng0 b (b.src + 1 * b.sstr) (fun bs =>
       ([0, 1, 2, 3].filter fun j => b.mask / 2 ^ j % 2 = 1).map fun (j : Nat) =>
         (BitVec.ofInt 64 (b.dstBase + 1 * b.dstr + (2 ^ 21 + j * 2 ^ 19 : Nat)), bs)) = true) ∧
    (∀ c ∈ [(1, 132), (32, 260)],
      (let b := cpyBlock 4 .e4m3 (block 0x40020000 0x400 c.1 32 128 32 c.2 0x600 0x400)
       b.form = 4 ∧ (b.rb || b.cb) = true ∧
       (match readRows 0 b (if b.cb then 32 else 1) 0 eng0 with
        | .ok (rows, _, s1) => rows.length == (if b.cb then 32 else 1) && rdAnd (engineWrites 0 b.dspace 0 (b.qntWrites 0 rows) s1) fun _ _ _ => true
        | _ => false) = true)) ∧
    (List.replicate 32 (FpVal.fin false 3 0)).length = 32 := by
  decide +kernel

/-- Blocks of binary16 values that accumulate in binary32: finite ones (1.5 and 1), a NaN, infinities of each sign. -/
def blockF (xs : List Nat) : Aligned := alignBlock .f16 xs

theorem witness_float_accumulation :
    (let a := blockF [0x3E00, 0x3C00]; let b := blockF [0x3C00, 0xBC00]
     let ps := a.vals.zip b.vals
     (ps.all fun p => !p.1.isNan && !p.2.isNan && !(p.1.isInf && p.2.isZero) && !(p.2.isInf && p.1.isZero)) = true ∧
     (ps.filter fun p => p.1.isInf || p.2.isInf) = [] ∧
     (match (fpOf .f32).decode ((fpOf .f32).round false .rne (decide (dotAligned a b < 0)) (dotAligned a b).natAbs 0 false).bits with
      | .fin _ _ _ => true
      | _ => false) = true) ∧
    (let ps := (blockF [0x7E00]).vals.zip (blockF [0x3C00]).vals
     (ps.any fun p => p.1.isNan) = true) ∧
    (∀ xs ∈ [[0x7C00, 0xFC00], [0x7C00, 0x7C00], [0xFC00, 0xFC00]],
      let infs := ((blockF xs).vals.zip (blockF [0x3C00, 0x3C00]).vals).filter fun p => p.1.isInf || p.2.isInf
      infs.length = 2 ∧ ((infs.any fun p => p.1.sign == p.2.sign) || infs.any fun p => p.1.sign != p.2.sign) = true ∧
      (infs.all (fun p => !p.1.isNan && !p.2.isNan && !p.1.isZero && !p.2.isZero)) = true) ∧
    (match (fpOf .f32).decode 0x3F800000 with | .fin _ _ _ => true | _ => false) = true := by
  decide +kernel

/-- R280: the sum of 1.5 × 1 and 1 × −1 added to 1.0 is 1.5; an infinity times 1 gives an infinity. -/
theorem test_float_accumulation :
    mxStep 0 0x3F800000 (blockF [0x3E00, 0x3C00]) (blockF [0x3C00, 0xBC00]) 127 127 = 0x3FC00000 ∧
    mxStep 0 0x3F800000 (blockF [0xFC00]) (blockF [0x3C00]) 127 127 = 0xFF800000 := by
  decide +kernel

/-- A crew whose phase has had a side effect; a partition whose table of waiting threads is full. -/
def acted : State := (fut0 fullWord fullWord phasedRec).modCrew 7 fun v => { v with sideEffects := true }
def crowded : State := (fut0 0 0).modPart 0 fun q => { q with futures := List.replicate 65536 (0, Waiter.thread 0 0) }

theorem witness_futures_wait_and_trap :
    (∀ s ∈ [fut0 fullWord fullWord, fut0 0 0, acted],
      (okAnd ((groupOf s 0 both (ofX xFutLd)).release s .core) fun s0 =>
        lanesOk (groupOf s 0 both (ofX xFutLd)) s0 (futLdLane xFutLd 0)) = true) ∧
    (aget acted.crews 7).isSome = true ∧ (acted.crew 7).sideEffects = true ∧ (acted.crew 7).frozen = none ∧
    (acted.team 0).crew = some 7 ∧ recPhased (acted.recOf (acted.team 0)) = true ∧
    futureRoom (fut0 0 0) 0 2 = true := by
  decide +kernel

theorem witness_future_table_full : futureRoom crowded 0 2 = false := by
  have h : (crowded.part 0).futures = List.replicate 65536 (0, Waiter.thread 0 0) := by rfl
  simp only [futureRoom, h, List.length_replicate]
  decide

theorem witness_completion_reachable : someAnd (aget (readied .ending).launches 3) (fun v =>
    !complInHost (readied .ending) v && !headLost { readied .ending with heads := [0] } v.ctx) = true := by
  decide +kernel

theorem witness_teams_move : (∀ d ∈ [0, 1], someAnd (aget (migrating d).teams 0) (fun tm => tm.resident &&
      (List.range tm.threads.length).all fun l => (pairable tm l).isEmpty) = true) ∧
    (landing.team 0).resident = true := by
  decide +kernel

/-- A request of another device's thread, under that device's context or one of this device's own. -/
def remoteReq (origin : Nat) : ShipReq := { req with sender := .remote 3 5, originDev := BitVec.ofNat 32 origin }

theorem witness_remote_requests :
    (home0 (.sentry xNone) {}).mnum = 511 ∧ (∀ d ∈ [511, 9], overtakes (home0 (.sentry xNone) {}) (arrived (home0 (.sentry xNone) {}) (remoteReq d)) = false ∧
      homeDead (home0 (.sentry xNone) {}) (arrived (home0 (.sentry xNone) {}) (remoteReq d)) = false) ∧
    okAnd (ship0.piece 0 0 .load 0x40030000 1 (lock := true)) (fun q => q.1.xl.ty != .peer) = true ∧
    ((sectioned (.sentry xNone)).team 4).kind = .lodestar ∧
    (sectioned (.sentry xNone)).placeBlocked ((sectioned (.sentry xNone)).team 4).die 0x1000 = false := by
  decide +kernel

/-- Flares: threads in the flare handler and not in the user handler; a synchronous raise; a team asleep in its handler. -/
def inFlareOnly : State := { inHandlers with teams := inHandlers.teams.map fun kt =>
  (kt.1, { kt.2 with threads := kt.2.threads.map fun th => { th with inUser := false } }) }

theorem witness_flare_returns :
    goesB inFlareOnly 0 both (ofX xNone) (fun _ => none) false [] false = true ∧ settledB inFlareOnly both (ofX xNone) = true ∧
    (inFlareOnly.team 0).kind ≠ .lodestar ∧ execLanes inFlareOnly both (ofX xNone) = [0, 1] ∧
    ∀ l ∈ [0, 1], (laneOf inFlareOnly both l).inFlare = true ∧ (laneOf inFlareOnly both l).inUser = false ∧
      resumeCheck inFlareOnly (inFlareOnly.team 0) (laneOf inFlareOnly both l).flareRpc = none := by
  decide +kernel

theorem witness_a_flare_of_another_context : (home0 (.sentry xNone) {}).mnum = 511 ∧
    (raiseFlare (flare0) 2 0xC0000002 0 5).1 = 0 ∧ (raiseFlare (flare0) 9 0xC0000002 0 5).1 = 3 := by
  decide +kernel

/-- The threads of mem0 have nothing on their way; a parked thread holds no turn in the user handler. -/
theorem witness_nothing_undecided :
    someAnd (aget mem0.teams 0) (fun tm => [0, 1].all fun l => !undecided (tm.thread l) && (tm.thread l).replay == []) = true ∧
    someAnd (aget parked1.teams 0) (fun tm => tm.threads.all fun th => !th.inUser && !th.userHeld) = true ∧
    (∀ l ∈ [0, 1], (laneOf inHandlers both l).inUser = true) := by
  decide +kernel

/-- A lane that owes SINGLE_STEP alone. -/
def owingStep : State :=
  { standing mem0 with teams := [(0, { memTeam with threads := [{ thr (place 0) with owedStep := true }, thr (place 1)] })] }

theorem witness_owed_traps : ∀ s ∈ [owing none, owing (some 100), owingStep], someAnd (aget s.teams 0) (fun tm =>
    ((List.range tm.threads.length).filter fun l => canLeave (tm.thread l) && owesTrap (tm.thread l)) == [0] &&
    (tm.thread 0).recorded == [] && !undecided (tm.thread 0)) && atBoundary s 0 = true := by
  decide +kernel

/-- R415: the step trap's TVAL is the address of the thread's next run. -/
theorem test_owed_step :
    let t := after (exec (.owedTimerTrap 0) owingStep)
    (t.thread 0 0).tcause = 59 ∧ (t.thread 0 0).owedStep = false ∧ (t.thread 0 0).tval = (owingStep.thread 0 0).pc := by
  decide +kernel

/-- A caller that popped an operand from its queue before it waits; a call of service 3, and one of no service. -/
def popping : State :=
  (mail0 [svcEntry] [] (.svc 8 (some 5))).modThread 0 0 fun th =>
    { th with backq := some (th.waitPc, [[{ val := 7, err := none, stale := false }], [], [], []]) }
def svcOf (no : Word) : MboxEntry := { svcEntry with words := setAt svcEntry.words 10 no }

theorem witness_callers :
    (popping.thread 0 0).backq.isSome = true ∧ (popping.thread 0 0).wait = some (.svc 8 (some 5)) ∧
    popping.mailCore (popping.team 0) = 0 ∧ 0 < (popping.thread 0 0).inq.length ∧
    (mail0 [svcEntry] [] (.svc 8 (some 5))).mailCore (popping.team 0) = 0 ∧
    ((mail0 [svcEntry] [] (.svc 8 (some 5))).thread 0 0).backq = none ∧
    (∀ no ∈ [0, 3, 4, 7, 9], (getAt 0 (svcOf (BitVec.ofNat 32 no)).words 10).toNat = no ∧ no ∉ [1, 2, 5, 6] ∧
      (svcOf (BitVec.ofNat 32 no)).src = .svc 0 0) := by
  decide +kernel

theorem witness_callers_doom_nothing : ((mail0 [] [svcEntry]).thread 0 0).NoDoomed := by
  have h : ((mail0 [] [svcEntry]).thread 0 0).ops = [] := by decide +kernel
  intro o ho
  rw [h] at ho; cases ho

theorem witness_areas_without_image : (256 : Nat) ≤ 256 ∧ (0x40020001 : DWord).toNat % 4096 ≠ 0 ∧ (0x40020000 : DWord).toNat % 4096 = 0 ∧
    ctxTeams supState 0 5 = [] := by
  decide +kernel

/-! Tokens of a translation agent, requests of each kind, lines taken in from DRAM. -/

def walker : AgentId := { die := 0, id := 177 }
def walkLine : Nat := 0x1000 / 128
/-- The translation agent of die 0 holds one token of a page-table line that a queued store was translated through. -/
def walked (n : Nat) : State :=
  { storing with flight := [], hold := [{ agent := walker, line := walkLine, tokens := n, owner := true, dirty := false, valid := true }] }

theorem witness_walkers_wait :
    (walked 1).hold.filter (fun h => h.line == walkLine && h.agent == walker) = (walked 1).hold ∧
    releaseBusy (walked 1) walkLine (walked 1).hold = true ∧ (holdingOf (walked 1) walker walkLine).isSome = true ∧
    releaseBusy (walked 1) walkLine ((walked 1).hold.filter fun h => h.line == walkLine && h.agent != a0 && answersFor walker h.agent) = true ∧
    (∀ w ∈ [true, false], let q : Ask := { agent := a0, write := w, at_ := 0, fails := 0 }
      askOf ((tok [] { asks := [q] }).entry line0) a0 = some q ∧ q.met (tok []) line0 = false) ∧
    askOf ((tok []).entry line0) a0 = none := by
  decide +kernel

/-- A line in DRAM that reads right, one with a corrected error, one with an uncorrectable one, one under another key. -/
def errs (u : List (Nat × Upset)) (key : Nat) : State := { mem0 with upsets := u, sealed := [(0, key)] }

theorem witness_lines_from_dram :
    l2Holds .coh line0 = true ∧ 0 < (homeTokens mem0 line0).1 ∧ (mem0.l2.filter fun x => x.line == line0) = [] ∧
    regionOf (line0 * 128) = some .dram ∧ (mem0.l2Set (homeDie line0) line0).length ≤ 12 ∧ mem0.ucopies = [] ∧
    (errs [] 0).dramCheck line0 = none ∧ (errs [(line0, .corrected)] 0).dramCheck line0 = some .corrected ∧
    (errs [(line0, .uncorrectable)] 0).dramCheck line0 = some .uncorrectable ∧ (errs [] 9).dramCheck line0 = some .tag ∧
    (errs [] 9).sealKey line0 ≠ (errs [] 9).heldKey line0 := by
  decide +kernel

/-! Commands: a confidential partition, a record with HOSTTAB, a granule of the device's own; queue pairs. -/

def hosttabCtx (on : Bool) : State :=
  ({ host0 with parts := [(0, { host0.part 0 with conf := true })] }).modCtx 2 fun c => { c with xrec := some { hosttab := on } }
def qpCmd (op : Nat) : QpCmd :=
  { qpn := 5, op := op, part := 0, ctx := 2, remoteQp := 9, port := 1, macsec := true, ready := true, ips := [], udp := 0 }

theorem witness_commands_and_security :
    (hosttabCtx true).dev.started = true ∧ (hosttabCtx true).dev.minimal = false ∧ ((hosttabCtx true).part 0).conf = true ∧
    ((hosttabCtx true).ctx 2).xrec = some { hosttab := true } ∧ ((hosttabCtx false).ctx 2).xrec = some { hosttab := false } ∧
    ((hosttabCtx false).ctx 2).tdi = .unlocked ∧ (2 : Nat) < 256 ∧
    host0.dev.own = [511] ∧ (∀ g ∈ assign1.units.granules, g ∉ host0.dev.own) ∧ assign1.release = false ∧ assign1.part < 20 := by
  decide +kernel

theorem witness_queue_pair_commands :
    aget host0.qps 5 = none ∧ (aget (rma0).qps 5).isSome = true ∧ tdiHeld (host0.ctx 2) = false ∧ tdiHeld ((conf0 .locked).ctx 2) = true ∧
    ((conf0 .locked).part 0).conf = true ∧ ((rma0).qp 5).ctx = (qpCmd 1).ctx ∧ (qpCmd 0).port < 4 ∧ (qpCmd 0).qpn < 2 ^ 18 ∧
    (host0.ctx 2).part = some (qpCmd 0).part ∧ ((rma0).ctx 2).part = some (qpCmd 0).part ∧ ((rma0 .reset).qp 5).state ≠ .ready ∧
    (rma0).dev.started = true ∧ (rma0).dev.minimal = false := by
  decide +kernel

/-! Dies cut off, ports with and without a checked flit, the fourth failure of a port, keys due. -/

def cut0 : State := { host0 with links := [false, true, true, false] }
def ported0 (v : Port) : State := { host0 with ports := [(35, v)] }
def peerAcc : PeerAccess := { device := 5, partition := 1, pa := 0x20000, write := true, bytes := [1], len := 0, port := 35 }

theorem witness_links_and_ports :
    cut0.cut 0 (dieOfPa 0x20000) = false ∧ cut0.cut 0 1 = true ∧ host0.cut 0 (dieOfPa 0x20000) = false ∧
    (ported0 {}).peers = [5] ∧ ((ported0 {}).port 35).up = true ∧ ((ported0 {}).port 35).rx.flits = 0 ∧ peerAcc.port < 36 ∧
    ((ported0 { rx := { flits := 2 } }).port 35).rx.flits = 2 ∧ admitted host0 peerAcc 1 = true ∧
    ((ported0 { fails := [0, 0, 0] }).port 35).fails.length = 3 ∧ (ported0 {}).cycles.toNat < 0 + secondCycles ∧
    ((ported0 {}).port 35).fails = [] ∧
    (let v : Port := { rx := { group := 2 ^ 32 }, tx := { group := 2 ^ 32, flits := 3 } }
     keyDue (ported0 v) ((ported0 v).port 35).rx = true ∧ keyDue (ported0 v) ((ported0 v).port 35).tx = true) ∧
    keyDue (ported0 {}) ((ported0 {}).port 35).rx = false ∧ keyDue (ported0 {}) ((ported0 {}).port 35).tx = false := by
  decide +kernel

/-! Attestation after GET_VERSION and negotiation; firmware that is signed and not. -/

def spdmAt (v n : Bool) : State := host0.modDev fun d => { d with spdm := { d.spdm with versioned := v, negotiated := n } }
def firmware (signed : Bool) : State := State.reset.modDev fun d => { d with nor := { d.nor with signed := signed } }

theorem witness_negotiation_and_signature :
    (∀ b ∈ [true, false], (spdmAt b b).dev.spdm.versioned = b ∧ (spdmAt b b).dev.spdm.negotiated = b ∧ (spdmAt b b).dev.started = true ∧
      (spdmAt b b).dev.minimal = false) ∧
    (∀ b ∈ [true, false], (firmware b).dev.nor.signed = b ∧ (firmware b).dev.started = false ∧ (firmware b).dev.nor.fails < 3) := by
  decide +kernel

/-! Packets: of a queue pair that is absent, beyond the PSN and the payload that fit, an acknowledged one. -/

theorem witness_packets_dropped :
    aget host0.qps 5 = none ∧ (aget (rma0).qps 5).isSome = true ∧ 2 ^ 24 ≤ (pkt 0 (2 ^ 24) []).psn ∧
    (pkt 0 (2 ^ 24 - 1) []).psn < 2 ^ 24 ∧ (pkt 0 0 []).payload.length ≤ 4096 ∧
    ((pkt 5 7 (leBytes 8 1)).op = 5 ∧ psnReached 7 7 = true ∧ psnReached 7 8 = false) ∧
    (((rma0).qp 5).waiting) = [] ∧ (pkt 0 0 []).psn ∉ ((rma0).qp 5).done := by
  decide +kernel

theorem witness_long_payload : 4096 < (pkt 0 0 (List.replicate 4097 0)).payload.length := by
  show 4096 < (List.replicate 4097 (0 : Byte)).length
  rw [List.length_replicate]
  decide

theorem witness_retransmission :
    (((sendingRma (rmaOp0 (.rmaPut (xRma 30)) goodBlock)).qp 5).unacked.length = 1) := by
  decide +kernel

/-! Words of an access slice; a crew frozen by another team; a walk that waits for its token. -/

theorem witness_access_slice_words :
    fld (BitVec.ofNat 32 (0x10 * 2 ^ 25) : Word).toNat 25 7 ∉ [0x11, 0x13, 0x15, 0x16, 0x35, 0x37, 0x39, 0x3D, 0x64, 0x6A] ∧
    (∀ p ∈ [((Instr.affFeed xFeed).encode, 0x3D, 3), ((Instr.affLoop xLoop).encode, 0x3D, 0), ((Instr.affSt xStream).encode, 0x3D, 2),
        ([0x6A * 2 ^ 25, 0x00700003], 0x6A, 3)],
      getAt 0 p.1 0 / 2 ^ 25 = p.2.1 ∧ getAt 0 p.1 1 % 16 = p.2.2 ∧
        okAnd (decodeWords (getAt 0 p.1 0) (getAt 0 p.1 1)) (fun _ => true) = true) := by
  decide +kernel

def freezing (k : Nat) : State := { turning (hdrOf 1 3 1 0) exitW true with crews := [(7, { launch := 3, teams := [0], frozen := some k })] }
def walkingCode : State := { turning (hdrOf 1 3 1 0) exitW true with dir := [(0x1000 / 128, { collecting := some a1 })] }

theorem witness_turns_that_wait :
    frozenOut (freezing 4) 0 = true ∧ frozenOut (freezing 0) 0 = false ∧ (freezing 4).turns = [.issue 0] ∧ (runAt (freezing 4) 0).isSome = true ∧
    (∀ b ∈ [true, false], frozenOut (turning (hdrOf 1 3 1 0) exitW b) 0 = false) ∧
    okAnd (fetchClause walkingCode memTeam 0x10000) (fun q =>
      okAnd (enterClause { both with needHdr := true } q.1) fun r' =>
        ({ q.2 with runs := [r'] } : State).codeWalks memTeam 0x10000 r'.words.length) = true ∧
    okAnd (fetchClause (turning (hdrOf 1 3 1 0) exitW true) memTeam 0x10000) (fun q =>
      okAnd (enterClause { both with needHdr := true } q.1) fun r' =>
        !({ q.2 with runs := [r'] } : State).codeWalks memTeam 0x10000 r'.words.length) = true := by
  decide +kernel

/-- A lane of IMAD on a plain run gives its word, which its destination takes; so does a uniform variant's. -/
theorem witness_lanes_compute :
    (∀ l ∈ [0, 1], (okAnd (from3 .int .w32 .int .w32 .int .w32 (ofX (x3 .s32)) (fun a _ _ => [a.lo])
        ((groupOf pair0 0 (runOf [0, 1]) (ofX (x3 .s32))).lctx pair0 l) (laneOf pair0 (runOf [0, 1]) l)) fun q =>
      isOk (writeDst ((groupOf pair0 0 (runOf [0, 1]) (ofX (x3 .s32))).lctx pair0 l) .r1 (x3 .s32).dst q.1 q.2)) = true) ∧
    (aget pair0.teams 0).isSome = true ∧ [(0 : Word)] ≠ [] := by
  decide +kernel

/-- R439: the header of a PUT of one byte to queue pair 5, first and last of its message, written out; it reads back. -/
theorem test_packet_header :
    wireOf (pkt 0 7 [0xAB]) = [0x10, 3, 1, 0, 5, 0, 0, 0, 7, 0, 0, 0, 2, 0, 3, 0, 0x10, 0, 0, 0, 0, 0, 0, 0, 0, 0, 0, 0, 0, 0, 0, 0, 0xAB] ∧
    packetOf (wireOf (pkt 0 7 [0xAB])) = some { pkt 0 7 [0xAB] with len := 1 } ∧ packetOf (0x20 :: (wireOf (pkt 0 7 [])).tail) = none := by
  decide +kernel

end Sys2Proof.Tests
end

section
/-! A clause is checked as a whole (R33): the header's checks, those on its instructions, the length of the run, and the
turn that takes the trap. -/

namespace Sys2Proof.Machine

/-! ### Fields of one bit -/

theorem fld_one_eq_one_iff (w i : Nat) : fld w i 1 = 1 ↔ w.testBit i = true := by
  simp [fld, Nat.testBit_eq_decide_div_mod_eq]

/-- Above bit `n`, the low `len` bits of a word hold something exactly where one of those bits is set. -/
theorem fld_div_ne_zero_iff (w len n : Nat) :
    fld w 0 len / 2 ^ n ≠ 0 ↔ ∃ i, n ≤ i ∧ i < len ∧ fld w i 1 = 1 := by
  have bit (i : Nat) : (fld w 0 len / 2 ^ n).testBit i = (decide (n + i < len) && w.testBit (n + i)) := by
    simp [fld, Nat.testBit_div_two_pow, Nat.testBit_mod_two_pow, Nat.add_comm]
  constructor
  · intro h
    obtain ⟨i, hi⟩ := Nat.exists_testBit_of_ne_zero h
    simp only [bit, Bool.and_eq_true, decide_eq_true_eq] at hi
    exact ⟨n + i, by omega, hi.1, (fld_one_eq_one_iff w _).2 hi.2⟩
  · rintro ⟨i, hn, hl, hb⟩ h0
    have hi := bit (i - n)
    rw [h0, Nat.add_sub_cancel' hn, (fld_one_eq_one_iff w i).1 hb] at hi
    simp [hl] at hi

/-! ### Checks 1 to 3: the header -/

/-- A header that check 3 refuses: bit 15 is set, or the WAIT bit of an instruction that the clause does not have. -/
def StrayBits (h : Word) : Prop :=
  fld h.toNat 15 1 = 1 ∨ ∃ i, hdrCount h ≤ i ∧ i < 15 ∧ fld h.toNat i 1 = 1

theorem not_strayBits {h : Word} (h15 : fld h.toNat 15 1 = 0)
    (hw : ∀ i, hdrCount h ≤ i → i < 15 → fld h.toNat i 1 = 0) : ¬ StrayBits h := by
  rintro (hb | ⟨i, hc, hi, hb⟩)
  · omega
  · have := hw i hc hi; omega

theorem headerCheck_count {h : Word} (hc : hdrCount h = 0) : headerCheck h = some (.illegalClause, 1) := by
  simp [headerCheck, hc]

theorem headerCheck_class {h : Word} (hc : hdrCount h ≠ 0) (hk : 5 ≤ hdrClass h) :
    headerCheck h = some (.illegalClause, 2) := by
  simp [headerCheck, hc, hk]

theorem strayBits_iff (h : Word) :
    (fld h.toNat 15 1 = 1 || fld h.toNat 0 15 / 2 ^ hdrCount h != 0) = true ↔ StrayBits h := by
  rw [Bool.or_eq_true, decide_eq_true_eq, bne_iff_ne, fld_div_ne_zero_iff]
  rfl

theorem headerCheck_strayBits {h : Word} (hc : hdrCount h ≠ 0) (hk : hdrClass h < 5) (hb : StrayBits h) :
    headerCheck h = some (.reservedField, h.zext) := by
  rw [headerCheck, if_neg hc, if_neg (Nat.not_le.2 hk), if_pos ((strayBits_iff h).2 hb)]

theorem headerCheck_none {h : Word} (hc : hdrCount h ≠ 0) (hk : hdrClass h < 5) (hb : ¬ StrayBits h) :
    headerCheck h = none := by
  rw [headerCheck, if_neg hc, if_neg (Nat.not_le.2 hk), if_neg (mt (strayBits_iff h).1 hb)]

/-! ### Checks 4 to 6: the instructions -/

/-- Check 4: every instruction that has a home class has the header's (R27). -/
def HomeClassesFit (h : Word) (ps : List Placed) : Prop :=
  ∀ p ∈ ps, ∀ cl, homeClass p.opc = some cl → cl = hdrClass h

/-- Check 5: no instruction before the last is run-ending. -/
def OnlyLastEnds (ps : List Placed) : Prop := ∀ p ∈ ps.dropLast, p.ending = false

/-- Check 6: a clause whose last instruction is run-ending has RUNEND. -/
def LastEndsRun (h : Word) (ps : List Placed) : Prop :=
  (∃ p, ps.getLast? = some p ∧ p.ending = true) → hdrRunEnd h = true

theorem not_homeClassesFit_iff (h : Word) (ps : List Placed) :
    (ps.any fun p => (homeClass p.opc).any (· != hdrClass h)) = true ↔ ¬ HomeClassesFit h ps := by
  simp [HomeClassesFit, Option.any_eq_true]

theorem not_onlyLastEnds_iff (ps : List Placed) : ps.dropLast.any Placed.ending = true ↔ ¬ OnlyLastEnds ps := by
  simp [OnlyLastEnds]

theorem not_lastEndsRun_iff (h : Word) (ps : List Placed) :
    (ps.getLast?.any Placed.ending && !hdrRunEnd h) = true ↔ ¬ LastEndsRun h ps := by
  rw [LastEndsRun, Classical.not_imp, Bool.and_eq_true, Option.any_eq_true, Bool.not_eq_true', Bool.not_eq_true]

theorem clauseCheck_homeClass {h : Word} {ps : List Placed} (h4 : ¬ HomeClassesFit h ps) :
    clauseCheck h ps = some (.illegalClause, 4) := by
  rw [clauseCheck, if_pos ((not_homeClassesFit_iff h ps).2 h4)]

/-- With check 4 passed, checks 5 and 6 decide. -/
theorem clauseCheck_of_homeClassesFit {h : Word} {ps : List Placed} (h4 : HomeClassesFit h ps) :
    clauseCheck h ps =
      if ps.dropLast.any Placed.ending then some (.illegalClause, 5)
      else if ps.getLast?.any Placed.ending && !hdrRunEnd h then some (.illegalClause, 6)
      else none := by
  rw [clauseCheck, if_neg (mt (not_homeClassesFit_iff h ps).1 (not_not_intro h4))]

theorem clauseCheck_endsEarly {h : Word} {ps : List Placed} (h4 : HomeClassesFit h ps) (h5 : ¬ OnlyLastEnds ps) :
    clauseCheck h ps = some (.illegalClause, 5) := by
  rw [clauseCheck_of_homeClassesFit h4, if_pos ((not_onlyLastEnds_iff ps).2 h5)]

theorem clauseCheck_noRunEnd {h : Word} {ps : List Placed} (h4 : HomeClassesFit h ps) (h5 : OnlyLastEnds ps)
    (h6 : ¬ LastEndsRun h ps) : clauseCheck h ps = some (.illegalClause, 6) := by
  rw [clauseCheck_of_homeClassesFit h4, if_neg (mt (not_onlyLastEnds_iff ps).1 (not_not_intro h5)),
    if_pos ((not_lastEndsRun_iff h ps).2 h6)]

theorem clauseCheck_none {h : Word} {ps : List Placed} (h4 : HomeClassesFit h ps) (h5 : OnlyLastEnds ps)
    (h6 : LastEndsRun h ps) : clauseCheck h ps = none := by
  rw [clauseCheck_of_homeClassesFit h4, if_neg (mt (not_onlyLastEnds_iff ps).1 (not_not_intro h5)),
    if_neg (mt (not_lastEndsRun_iff h ps).1 (not_not_intro h6))]

/-! ### The fetch of a clause -/

section Fetch
variable {s s1 s2 : State} {t : Team} {a : DWord} {h : Word} {ws : List Word} {c : Cause} {v : DWord}

theorem fetchClause_headerCheck (hf : fetchWord s t a = .ok (h, s1)) (hc : headerCheck h = some (c, v)) :
    fetchClause s t a = .error { cause := c, tval := v, tpc := mkResume a 0 } := by
  simp only [fetchClause, hf, hc]

theorem fetchClause_clauseCheck (hf : fetchWord s t a = .ok (h, s1)) (hh : headerCheck h = none)
    (hb : fetchBody t a (hdrCount h) 1 s1 = .ok (ws, s2))
    (hc : clauseCheck h (placeAll (hdrCount h) 1 ws) = some (c, v)) :
    fetchClause s t a = .error { cause := c, tval := v, tpc := mkResume a 0 } := by
  simp only [fetchClause, hf, hh, hb, hc]

theorem fetchClause_ok (hf : fetchWord s t a = .ok (h, s1)) (hh : headerCheck h = none)
    (hb : fetchBody t a (hdrCount h) 1 s1 = .ok (ws, s2))
    (hc : clauseCheck h (placeAll (hdrCount h) 1 ws) = none) :
    fetchClause s t a = .ok ({ hdr := h, words := ws }, s2) := by
  simp only [fetchClause, hf, hh, hb, hc]

end Fetch

/-! ### Check 7: the length of the run -/

theorem enterClause_tooLong {r : Run} {c : Clause} {i : Nat} (hi : indexAt c.placed r.off = some i)
    (hl : 24 < r.count + (hdrCount c.hdr - i)) :
    enterClause r c = .error { cause := .illegalClause, tval := 3, tpc := mkResume r.hdrAddr 0 } := by
  simp only [enterClause, hi]
  exact if_pos hl

theorem enterClause_ok {r : Run} {c : Clause} {i : Nat} (hi : indexAt c.placed r.off = some i)
    (hl : r.count + (hdrCount c.hdr - i) ≤ 24) :
    enterClause r c = .ok { r with hdr := c.hdr, words := c.words, idx := i, needHdr := false } := by
  simp only [enterClause, hi]
  exact if_neg (Nat.not_lt.2 hl)

/-! ### The turn of a run at a header -/

/-- The turn of a run that nothing holds back is its issue. -/
theorem step_issue {s : State} {k : Nat} {rest : List Turn} (hs : s.dev.started = true) (hp : s.dev.powerLimit = false)
    (hz : frozenOut s k = false) (ht : s.turns = .issue k :: rest) :
    step s = issueRun { s with turns := rest, tick := s.tick + 1 } k := by
  have hz' : frozenOut { s with turns := rest, tick := s.tick + 1 } k = false := hz
  simp [step, act, hs, hp, ht, hz']

/-- A clause that cannot be opened traps the run, and the issue does nothing else. -/
theorem issueRun_openClause_error {s : State} {k : Nat} {r : Run} {tr : TrapRec} (hr : runAt s k = some r)
    (hl : (laneOf s r (getAt 0 r.lanes 0)).replay = []) (ho : s.openClause k r = .error tr) :
    issueRun s k = .next (s.trapRun k r tr) := by
  rw [laneOf] at hl
  simp only [issueRun, hr, hl, ho]

theorem openClause_fetchClause_error {s : State} {k : Nat} {r : Run} {tr : TrapRec} (hn : r.needHdr = true)
    (hf : fetchClause s (s.team r.team) r.hdrAddr = .error tr) : s.openClause k r = .error tr := by
  simp [State.openClause, hn, hf]

theorem openClause_enterClause_error {s s1 : State} {k : Nat} {r : Run} {c : Clause} {tr : TrapRec}
    (hn : r.needHdr = true) (hf : fetchClause s (s.team r.team) r.hdrAddr = .ok (c, s1))
    (he : enterClause r c = .error tr) : s.openClause k r = .error tr := by
  simp [State.openClause, hn, hf, he]

/-- Settles O55: each failed check of R33 by the lemma on that check, carried through the fetch of the clause; the turn of
the run then ends in the trap. -/
theorem clausesAreCheckedAsAWhole : Obligations.ClausesAreCheckedAsAWhole := by
  unfold Obligations.ClausesAreCheckedAsAWhole
  refine ⟨fun s s1 s2 t a h ws hf => ⟨?_, ?_, ?_, ?_⟩, ?_, ?_⟩
  · exact fun hc => fetchClause_headerCheck hf (headerCheck_count hc)
  · exact fun hc hk => fetchClause_headerCheck hf (headerCheck_class hc hk)
  · exact fun hc hk hb => fetchClause_headerCheck hf (headerCheck_strayBits hc hk hb)
  · rintro ⟨hc, hk, h15, hw⟩ hb
    have hh := headerCheck_none hc hk (not_strayBits h15 hw)
    exact ⟨fun h4 => fetchClause_clauseCheck hf hh hb (clauseCheck_homeClass h4),
      fun h4 h5 => fetchClause_clauseCheck hf hh hb (clauseCheck_endsEarly h4 h5),
      fun h4 h5 h6 => fetchClause_clauseCheck hf hh hb (clauseCheck_noRunEnd h4 h5 h6),
      fun h4 h5 h6 => fetchClause_ok hf hh hb (clauseCheck_none h4 h5 h6)⟩
  · exact fun r c i hi => ⟨enterClause_tooLong hi, enterClause_ok hi⟩
  · intro s k rest r tr hs hp hz ht hr hl hn
    have traps (ho : State.openClause { s with turns := rest, tick := s.tick + 1 } k r = .error tr) :=
      (step_issue hs hp hz ht).trans (issueRun_openClause_error hr hl ho)
    exact ⟨fun hf => traps (openClause_fetchClause_error hn hf),
      fun c s1 hf he => traps (openClause_enterClause_error hn hf he)⟩

end Sys2Proof.Machine
end

section
/-! The opcode map: a reserved SUB value beside a reserved field of word 0 (R82, R86), and predicate destinations (R70). -/

namespace Sys2Proof.Machine

/-! ### RED, whose row keeps DST zero (R82) -/

/-- `RED.exch`, a SUB value that RED does not list, at `.b32` and team scope, with DST 1. -/
def redExchToV1 : Word × Word := (0x88040000, 0x00700516)

/-- Check 4 names word 0 where both words break it (log 12): the nonzero DST hides the unlisted SUB. -/
theorem wordChecks_redExchToV1 :
    wordChecks {} false redExchToV1.1 redExchToV1.2 = .error (.reservedField, 0x88040000) := by
  rfl

/-- Refutes O53 in its clause on SUB values: RED with an unlisted SUB value and a nonzero DST, which its row keeps zero,
reports word 0 and not word 1. -/
theorem not_unassignedWordsTrap : ¬ Obligations.UnassignedWordsTrap := by
  unfold Obligations.UnassignedWordsTrap
  rintro ⟨-, hsub, -, -⟩
  have h := hsub redExchToV1.1 redExchToV1.2 {} false 8 [0x7D] (by decide) (by decide) (by decide) (by decide)
    (.inr (.inr (.inl (by decide))))
  rw [wordChecks_redExchToV1] at h
  exact absurd h (by decide)

/-! ### Writing a predicate (R51, R70) -/

@[simp] theorem setP_seven (t : Thread) (b : Bool) : t.setP 7 b = t := rfl

theorem setP_of_ne_seven {t : Thread} {i : Nat} (b : Bool) (h : i ≠ 7) : t.setP i b = { t with p := setAt t.p i b } :=
  if_neg h

/-- A predicate read after a predicate below p7 is written. -/
theorem pred_setP {t : Thread} {i : Nat} (b : Bool) (hi : i < 7) (hl : t.p.length = 8) (j : Nat) :
    (t.setP i b).pred j = if j = i then b else t.pred j := by
  rw [setP_of_ne_seven b (by omega)]
  rcases eq_or_ne j i with rfl | hj
  · simp [Thread.pred, getAt_setAt_same, show j ≠ 7 by omega, show j < t.p.length by omega]
  · simp [Thread.pred, getAt_setAt_other _ _ _ hj.symm, hj]

theorem writeDst_pr (L : LCtx) (dst : BitVec 7) (ws : List Word) (th : Thread) :
    writeDst L .pr dst ws th = .ok ((), th.setP dst.toNat (getAt 0 ws 0 != 0)) := rfl

theorem dstCheck5_pr (st : Site) (dst : BitVec 7) :
    dstCheck5 st .pr dst = if 8 ≤ dst.toNat then some (.operandKind, opTval dst.toNat 0) else none := rfl

/-! ### A check of R58 that fails at the issue of a group -/

/-- Where no thread of the run waits and a check fails, every thread of the run traps. -/
theorem prologue_checkFails {s : State} {idx : Nat} {r : Run} {f : Fields} {chk : Site → Option (Cause × DWord)}
    {uni one trk : Bool} {regs : List Nat} {c : Cause} {v : DWord} (hi : Issuing s idx r)
    (hw : NoWait s r f regs trk one) (hc : chk (siteOf (s.team r.team) r.acc uni) = some (c, v)) :
    prologue s f chk uni regs trk one = .error (.next (trapLanes s r.team idx r.acc
      (r.lanes.map fun l => (l, { cause := c, tval := v, tpc := placeOf r }, .nothing)))) := by
  obtain ⟨hcur, hrun⟩ := hi
  have hdone : ((r.lanes.map fun l => (l, threadIn s r.team r.acc l)).filter fun p =>
      windowOver (if one && (execLanes s r f).head? != some p.1 then [] else f.touches regs p.2) p.2) = [] := by
    simp only [List.filter_eq_nil_iff, List.forall_mem_map, Bool.not_eq_true]
    exact fun l hl => (hw l hl).1
  have hheld : ((r.lanes.map fun l => (l, threadIn s r.team r.acc l)).filter fun p =>
      (r.off != 0 && waitHolds r.hdr r.idx p.2) ||
        mustWait (if one && (execLanes s r f).head? != some p.1 then [] else f.touches regs p.2) p.2) = [] := by
    simp only [List.filter_eq_nil_iff, List.forall_mem_map, Bool.not_eq_true, Bool.or_eq_false_iff,
      Bool.and_eq_false_imp, bne_iff_ne]
    exact fun l hl => ⟨(hw l hl).2.2.1, (hw l hl).2.1⟩
  simp only [prologue, hcur, hrun, head_execLanes, hdone, hheld, hc, List.map_nil, List.isEmpty_nil, Bool.not_true,
    Bool.false_eq_true, if_false, next, placeOf]

/-- The step of a format-X instruction with no uniform variant is what its prologue answers, where that lets no group go
on. -/
def StopsAtChecks (i : Instr) (x : XOps) : Prop :=
  ∀ (s : State) (o : Host.Outcome State Fault Refusal),
    prologue s (ofX x) (fun st => opChecks st i.shape (ofX x)) false (regsOf i.shape (ofX x) false) false = .error o →
    exec i s = o

theorem valueOp_stopsAtChecks {i : Instr} {x : XOps} {act : LCtx → LaneM (List Word)}
    (h : ∀ s, exec i s = valueOp s i (ofX x) false act) : StopsAtChecks i x := by
  intro s o ho
  rw [regsOf] at ho
  simp only [h, valueOp, ho]

theorem collectOp_stopsAtChecks {α : Type} {i : Instr} {x : XOps} {rd : LCtx → LaneM α}
    {res : List (Nat × α) → Nat → α → List Word} (h : ∀ s, exec i s = collectOp s i (ofX x) false rd res) :
    StopsAtChecks i x := by
  intro s o ho
  rw [regsOf] at ho
  simp only [h, collectOp, ho]

theorem pollOp_stopsAtChecks {i : Instr} {x : XOps} {v : List (Nat × Word) → Word}
    (h : ∀ s, exec i s = pollOp i false x v s) : StopsAtChecks i x :=
  collectOp_stopsAtChecks (rd := readA32 (ofX x)) (res := fun vals _ _ => [v vals]) h

/-- Check 5 looks at DST first (R58): a predicate destination above p7 is what it reports. -/
theorem opChecks_pr_out {st : Site} {sh : Shape} {f : Fields} (hd : sh.d = .pr) (h : 8 ≤ f.dst.toNat) :
    opChecks st sh f = some (.operandKind, opTval f.dst.toNat 0) := by
  simp only [opChecks, hd, dstCheck5_pr, if_pos h, firstOf]

/-! ### The forms that write a predicate -/

theorem exec_pollAll (x : XOps) (s : State) : exec (.pollAll false x) s = execPollAll false x s := rfl

theorem exec_pollAny (x : XOps) (s : State) : exec (.pollAny false x) s = execPollAny false x s := rfl

theorem exec_first (x : XOps) (s : State) : exec (.first false x) s = execFirst false x s := rfl

/-- The forms with a predicate destination name it so in their row, and run their checks before their effect. -/
theorem predicateForm {x : XOps} {c : ICond} {fc : FCond} {i : Instr}
    (hi : i ∈ [Instr.icmp c x, .fsetPred fc x, .pollAll false x, .pollAny false x, .first false x]) :
    i.shape.d = .pr ∧ StopsAtChecks i x := by
  simp only [List.mem_cons, List.not_mem_nil, or_false] at hi
  obtain rfl | rfl | rfl | rfl | rfl := hi
  · exact ⟨rfl, valueOp_stopsAtChecks fun _ => rfl⟩
  · exact ⟨rfl, valueOp_stopsAtChecks fun _ => rfl⟩
  · exact ⟨rfl, pollOp_stopsAtChecks (exec_pollAll x)⟩
  · exact ⟨rfl, pollOp_stopsAtChecks (exec_pollAny x)⟩
  · exact ⟨rfl, collectOp_stopsAtChecks (exec_first x)⟩

/-- Settles O54: the five forms share a predicate destination, whose write, check and trap are said once above. -/
theorem predicateDestinationsAreP0ToP7 : Obligations.PredicateDestinationsAreP0ToP7 := by
  unfold Obligations.PredicateDestinationsAreP0ToP7
  intro x c fc i hi
  obtain ⟨hd, hstop⟩ := predicateForm hi
  rw [hd]
  refine ⟨?_, ?_, ?_, ?_⟩
  · intro L th ws hlt hlen
    exact ⟨_, writeDst_pr L x.dst ws th, by rw [setP_of_ne_seven _ (by omega)], pred_setP _ hlt hlen⟩
  · intro L th ws h7
    rw [writeDst_pr, h7, setP_seven]
  · intro s idx r h8 hiss hw
    exact hstop s _ (prologue_checkFails hiss hw (opChecks_pr_out hd h8))
  · intro st hlt
    rw [dstCheck5_pr, if_neg (by omega)]

end Sys2Proof.Machine
end

section
/-! Raises of flare vectors (R402): what a context's vectors and its marks read after a write, what the combining step
records, and the step of an allowed raise. -/

namespace Sys2Proof.Machine

/-! ### The context of a number after a write of it -/

@[simp] theorem ctx_setCtx_same (s : State) (c : Nat) (v : Ctx) : (s.setCtx c v).ctx c = v := by
  rw [State.ctx, State.setCtx, aget_aset_same, Option.getD_some]

@[simp] theorem ctx_modCtx_same (s : State) (c : Nat) (f : Ctx → Ctx) : (s.modCtx c f).ctx c = f (s.ctx c) :=
  ctx_setCtx_same s c _

/-! ### The vectors of a context (R399) -/

/-- A written vector list of 64 stands for itself: it is not the empty list of a context never enabled. -/
theorem vectors_setVector {c : Ctx} (v : Nat) (f : Flare) (hl : c.vectors.length = 64) :
    (c.setVector v f).vectors = setAt c.vectors v f := by
  have hne : setAt c.vectors v f ≠ [] :=
    List.ne_nil_of_length_pos (by rw [length_setAt, hl]; decide)
  exact if_neg (by simpa [Ctx.setVector] using hne)

theorem vector_setVector_same {c : Ctx} {v : Nat} (f : Flare) (hl : c.vectors.length = 64) (hv : v < 64) :
    (c.setVector v f).vector v = f := by
  rw [Ctx.vector, vectors_setVector v f hl]
  exact getAt_setAt_same {} f (hl ▸ hv)

theorem vector_setVector_other {c : Ctx} {u v : Nat} (f : Flare) (hl : c.vectors.length = 64) (hu : u ≠ v) :
    (c.setVector v f).vector u = c.vector u := by
  rw [Ctx.vector, vectors_setVector v f hl]
  exact getAt_setAt_other {} c.vectors f hu.symm

/-! ### The urgency mark (R408) -/

@[simp] theorem noteUrgent_mem (s : State) (c : Nat) : (noteUrgent s c).mem = s.mem := rfl

@[simp] theorem noteUrgent_vector (s : State) (c u : Nat) :
    ((noteUrgent s c).ctx c).vector u = (s.ctx c).vector u := by
  rw [noteUrgent, ctx_modCtx_same]
  rfl

/-! ### The combining step -/

@[simp] theorem combine_payload_or (f : Flare) (sender : Word) (p : DWord) :
    (f.combine 0 sender p).payload = f.payload ||| p := rfl

@[simp] theorem combine_payload_last (f : Flare) (sender : Word) (p : DWord) : (f.combine 2 sender p).payload = p := rfl

/-- ADD clamps: the words' sum where it fits in 64 bits, all ones where it does not. -/
theorem combine_payload_add (f : Flare) (sender : Word) (p : DWord) :
    (f.combine 1 sender p).payload.toNat = min (2 ^ 64 - 1) (f.payload.toNat + p.toNat) := by
  change (if 2 ^ 64 ≤ f.payload.toNat + p.toNat then BitVec.allOnes 64 else f.payload + p).toNat = _
  split
  · next h =>
    rw [BitVec.toNat_allOnes, Nat.min_eq_left (by omega)]
  · next h =>
    rw [BitVec.toNat_add, Nat.mod_eq_of_lt (by omega), Nat.min_eq_right (by omega)]

/-- What every mode records beside the payload. -/
theorem combine_records (f : Flare) (m : Nat) (sender : Word) (p : DWord) :
    (f.combine m sender p).pending = true ∧ (f.combine m sender p).count = min 255 (f.count + 1) ∧
      (f.combine m sender p).mode = m ∧ (f.combine m sender p).sender = sender :=
  ⟨rfl, rfl, rfl, rfl⟩

/-! ### The step of a raise -/

/-- The state after an allowed raise: the vector combined, and the context's urgency noted. -/
theorem raiseFlare_allowed {s : State} {ctx v m : Nat} {sender : Word} (p : DWord) (hc : ctx < 256)
    (he : (s.ctx ctx).enabled = true) (hm : raiseMode (s.ctx ctx) sender v = some m) :
    (raiseFlare s ctx sender v p).2 =
      noteUrgent (s.setCtx ctx ((s.ctx ctx).setVector v (((s.ctx ctx).vector v).combine m sender p))) ctx := by
  have hopen : ¬(256 ≤ ctx || !(s.ctx ctx).enabled) = true := by simp [he, hc]
  simp only [raiseFlare, if_neg hopen, hm]

/-- A raise that asks for no reply only takes the state to the one after the raise. -/
theorem exec_flareRaiseMessage_noReply (s : State) (ctx v : Nat) (sender : Word) (p : DWord) :
    exec (.flareRaiseMessage { ctx := ctx, sender := sender, vector := v, payload := p, reply := none }) s =
      .next (raiseFlare s ctx sender v p).2 := rfl

/-- Settles O37: the step is the one write of the combined vector, of which the urgency mark keeps every vector. -/
theorem raisesCombineIntoVectors : Obligations.RaisesCombineIntoVectors := by
  unfold Obligations.RaisesCombineIntoVectors
  constructor
  · intro s ctx v m sender p hc he hm hv hl
    refine ⟨_, exec_flareRaiseMessage_noReply s ctx v sender p, ?_⟩
    rw [raiseFlare_allowed p hc he hm]
    refine ⟨?_, fun u hu => ?_, rfl⟩
    · rw [noteUrgent_vector, ctx_setCtx_same, vector_setVector_same _ hl hv]
    · rw [noteUrgent_vector, ctx_setCtx_same, vector_setVector_other _ hl hu]
  · intro f sender p
    exact ⟨combine_payload_or f sender p, combine_payload_add f sender p, combine_payload_last f sender p,
      fun m => combine_records f m sender p⟩

end Sys2Proof.Machine
end
